-- ==== Sys2Proof/Word.lean ====
section
/-!
DEFINITION. The word types of the Dwequin D9 and their plainest arithmetic: bytes, 32-bit registers,
64-bit pairs, A80 cells (spec/03 R43 to R48), and the extraction of a bit range (spec/00 R3).
-/

namespace Sys2Proof

/-- One byte of memory. -/
abbrev Byte := BitVec 8

/-- A 32-bit register (R103). -/
abbrev Word := BitVec 32

/-- A 64-bit pair, address or instruction word. -/
abbrev DWord := BitVec 64

/-- A cell of the accumulator store (R48). -/
abbrev A80 := BitVec 80

/-- A canonical 57-bit program counter (R98). -/
abbrev PC := BitVec 57

/-- The bits [hi:lo] of a number (R3). -/
def bits (x hi lo : Nat) : Nat := (x >>> lo) % 2 ^ (hi + 1 - lo)

/-- The bit [n] of a number as a truth value (R3). -/
def bit (x n : Nat) : Bool := (x >>> n) % 2 == 1

end Sys2Proof
end

