-- ==== Sys2Proof/Config.lean ====
section
/-!
DEFINITION. What the implementation fixes and what the manual leaves open: the opaque free values (no value of
one can be proved) and the constants of the device (spec/00 R2, spec/14 R261, spec/34 R484).
-/

namespace Sys2Proof.Config

/-! ### Free values (notes/assumptions/7.md to 9.md) -/

/-- A byte of another module's memory, and a byte of an in-flight engine's target, by a fresh counter
(R324, R357). -/
opaque freeByte : Nat → Byte

/-- A choice between two values, by a fresh counter (R99, R324). -/
opaque freeBit : Nat → Bool

/-- Which of the two neighbours `rsq` gives, by the operand bits and whether it is f64 (R219). -/
opaque rsqUp : Bool → DWord → Bool

/-- Which of the two neighbours `ex2` gives (R219). -/
opaque ex2Up : Word → Bool

/-- Which of the two neighbours `lg2` gives outside [0.5, 2] (R219). -/
opaque lg2Up : Word → Bool

/-- The approximations of `lg2` in [0.5, 2], and of `sin`, `cos` and `tanh` for a magnitude: candidates, taken when
they keep the bounds of R219. -/
opaque lg2Approx : Word → Word
opaque sinApprox : Word → Word
opaque cosApprox : Word → Word
opaque tanhApprox : Word → Word

/-- The signature of a measurement chain with a request's nonce by the module's identity key (R485). -/
opaque attestation : List Nat → Nat → Nat

/-- Dword [k] of what a save area holds of some values whose places in it the spec does not give (R438, R439). -/
opaque savedDword : List Nat → Nat → Nat

/-- The tag of a chunk of a save area, by launch number, block, generation and chunk number, and the chunk (R441). -/
opaque saveTag : List Nat → List Nat → Nat

/-- How many 64-byte beats a request sends over Culvert, by a fresh counter (R471, R479). -/
opaque culvertBeats : Nat → Nat

/-- The set of a line in its L2 slice, whose geometry the spec does not give (R268). -/
opaque l2Set : Nat → Nat

/-! ### Constants of the device -/

/-- Bytes of device memory: 1,536 GiB (R261). -/
def memBytes : Nat := 1536 * 2 ^ 30

/-- Enabled cores, dies and cores of a die (R2). -/
def cores : Nat := 160
def dies : Nat := 4
def dieCores : Nat := 40

/-- Warp slots of a core and of a section (R2, R128). -/
def warpSlots : Nat := 64
def sectionSlots : Nat := 16

/-- L2 slices: 16 in each of 16 stacks (R262). -/
def slices : Nat := 256

/-- Lines of a slice's share of the L2, 8 MiB (R262), and the sets and ways of an L1 (R152, R259). -/
def sliceLines : Nat := 131072
def l1Ways : Nat := 16

end Sys2Proof.Config
end

