-- ==== Sys2Proof/Syntax.lean ====
section
/-!
DEFINITION. The syntax of the machine: one constructor of `Instr` for every row of
spec/opcode_table.json. The rows up to `PAIR_WORD` and from `LD` to `MSTAT_CLR` are instruction words
(spec/06 R101 to R125 and the instruction chapters); the others are the events of spec/95, whose
arguments are what the outside world, or the timing that the manual leaves open, chooses.
-/

namespace Sys2Proof

/-- The type codes of R111. -/
inductive Ty where
  | i32 | n32 | i64 | n64 | i16 | n16 | i8 | n8
  | f32 | f64 | f16 | bf16 | e4m3 | e5m2 | e2m1 | b32
  deriving DecidableEq, Repr

/-- The rounding codes of R51 and R112. -/
inductive Rnd where
  | rn | rz | rp | rm | ra | rs | ro
  deriving DecidableEq, Repr

/-- The size codes of R114. -/
inductive Size where
  | n8 | i8 | n16 | i16 | b32 | b64 | b128 | b256
  deriving DecidableEq, Repr

/-- The scope codes of R115. -/
inductive Scope where
  | blk | gang | dev | sys
  deriving DecidableEq, Repr

/-- The conditions of `cmp` and `waitw` (R203, R396). -/
inductive Cond where
  | eq | ne | lt | le | gt | ge
  deriving DecidableEq, Repr

/-- The conditions of `fcmp` (R216). -/
inductive FCond where
  | eq | ne | lt | le | gt | ge | num | nan
  deriving DecidableEq, Repr

/-- The combine field of a compare (R203). -/
inductive Comb where
  | none | and | or
  deriving DecidableEq, Repr

/-- The special operands of R104, in the order of their numbers from 1792. -/
inductive Special where
  | zero | lane | tidX | tidY | tidZ | bidX | bidY | bidZ | bdimX | bdimY | bdimZ
  | gdimX | gdimY | gdimZ | warp | gang | gangspan | die | core | launch | active | part | helper
  deriving DecidableEq, Repr

/-- An 11-bit register number (R103): a vector register, a scalar register, a special operand or a
small immediate, held as its number less 1920. -/
inductive Reg where
  | v (n : Fin 1536)
  | s (n : Fin 256)
  | sp (x : Special)
  | imm (k : Fin 128)
  deriving DecidableEq, Repr

/-- The guard of a full-format word (R101, R102). -/
structure Guard where
  p : Fin 8
  neg : Bool
  deriving DecidableEq, Repr

/-- The base pair of a global access (R109): vector pair, scalar pair or `%zero`. -/
inductive MemBase where
  | v (n : Fin 768)
  | s (n : Fin 128)
  | zero
  deriving DecidableEq, Repr

/-- The modes of `shfl`, `at`, `lo`, `hi` and `mir` (R243). -/
inductive ShflMode where
  | base | lo | hi | mir
  deriving DecidableEq, Repr

/-- The operations of `redux` and `scan` (R250). -/
inductive RedOp where
  | add | min | max | and | or | xor
  deriving DecidableEq, Repr

/-- The exchanges of `qswp` (R246). -/
inductive QuadMode where
  | h | v | d
  deriving DecidableEq, Repr

/-- The masks of `lmask` (R255). -/
inductive MaskKind where
  | own | below | thru | above | frm | tile
  deriving DecidableEq, Repr

/-- The variants of `addc` (R207). -/
inductive CarryMode where
  | add | add0 | sub | sub0
  deriving DecidableEq, Repr

/-- The operations of `atom` and `atomsp` (R378). -/
inductive AtomOp where
  | add | sub | inc | dec | min | max | and | or | xch | cas
  deriving DecidableEq, Repr

/-- The types of `atom` (R377). -/
inductive AtomTy where
  | i32 | n32 | i64 | n64 | f32 | f64 | f16x2 | bf16x2
  deriving DecidableEq, Repr

/-- The destination formats of `macc.rd` (R336). -/
inductive MaccRt where
  | f32 | f64 | a80
  deriving DecidableEq, Repr

/-- The opcodes of a pair slot (R121). -/
inductive SlotOp where
  | nop | mov | add | sub | mulLo | and | or | xor | shl | shr | sha | min | max
  | fadd | fsub | fmul | fmin | fmax | hadd2 | hmul2
  | cvt | rcp | rsq | ex2 | lg2 | not | popc | abs | neg | fabs
  deriving DecidableEq, Repr

/-- One slot of a pair word (R117): opcode, guard code, 9-bit register numbers, pair type code, flags. -/
structure Slot where
  op : SlotOp
  g : Fin 4
  d : Fin 512
  a : Fin 512
  ty : Fin 8
  flags : Fin 4
  deriving DecidableEq, Repr

/-- What Bilral sets for a virtual interface (R62, R63, R93, R267, R438, R463, R469): cores are numbered
40 × die + core. -/
structure ViConfig where
  partition : List Nat
  share : Nat
  keyBase : Nat
  keyCount : Nat
  root : Nat
  spbkBase : Nat
  spbkSlots : Nat
  saveBase : Nat
  saveSize : Nat
  trbBase : Nat
  trbSize : Nat
  ctrBase : Nat
  resq : Nat
  deferQuota : Nat
  deriving DecidableEq, Repr

/-- What a scrubber read, or a fill, finds on a line (R448). -/
inductive LineCheck where
  | clean | corrected | uncorrectable
  deriving DecidableEq, Repr

/-- What `goisto` does to a warp through Bilral (R180, R430): it sets or clears DBGCTL.STEP, or resumes or ends a warp that it holds. -/
inductive GoistoAct where
  | step (on : Bool)
  | resume
  | finish
  deriving DecidableEq, Repr

/-- The scope of a pre-emption request (R435). -/
inductive PreemptScope where
  | blocks (launch : Nat) (bs : List Nat)
  | launch (launch : Nat)
  | vi
  deriving DecidableEq, Repr

/-- What a unit of another module sends through a scale-up port (R357). -/
inductive RemoteOp where
  | copyWrite (bytes : List Byte)
  | atomic (op : AtomOp) (ty : AtomTy) (b c : DWord)
  deriving DecidableEq, Repr

/-- The operations and events of spec/opcode_table.json, one constructor each. -/
inductive Instr where
  | nop (g : Guard)
  | bra (g : Guard) (off : BitVec 30)
  | brx (g : Guard) (a : Reg)
  | call (g : Guard) (d : Reg) (off : BitVec 30)
  | ret (g : Guard) (a : Reg)
  | exit (g : Guard)
  | rcvSet (g : Guard) (b : Fin 8)
  | rcvWait (g : Guard) (b : Fin 8)
  | regionBegin (g : Guard)
  | regionQuery (g : Guard) (d : Reg)
  | wait (g : Guard) (l : BitVec 4) (s : BitVec 4) (c : BitVec 4) (t : BitVec 4)
  | trap (g : Guard) (n : BitVec 16)
  | brk (g : Guard) (n : BitVec 16)
  | trapret (g : Guard)
  | rinj (g : Guard) (d : Reg) (e : Fin 8)
  | sleep (g : Guard) (a : Reg)
  | electBr (g : Guard) (off : BitVec 30)
  | sysRd (g : Guard) (d : Reg) (n : BitVec 12)
  | sysWr (g : Guard) (n : BitVec 12) (a : Reg)
  | clkDev (g : Guard) (d : Reg)
  | clkOrd (g : Guard) (d : Reg)
  | rng (g : Guard) (d : Reg) (k : Fin 4)
  | rngX4 (g : Guard) (d : Reg) (k : Fin 4)
  | rngF32 (g : Guard) (d : Reg) (k : Fin 4)
  | perfRd (g : Guard) (d : Reg) (n : Fin 64)
  | perfClr (g : Guard) (n : Fin 64)
  | tmark (g : Guard) (n : BitVec 16) (a : Reg)
  | finfo (g : Guard) (d : Reg) (n : BitVec 8)
  | lnch (g : Guard) (d : Reg) (a : Reg) (q : Fin 64)
  | add (g : Guard) (d : Reg) (a : Reg) (b : Reg) (ty : Ty) (sat : Bool)
  | sub (g : Guard) (d : Reg) (a : Reg) (b : Reg) (ty : Ty) (sat : Bool)
  | mulLo (g : Guard) (d : Reg) (a : Reg) (b : Reg) (ty : Ty) (sat : Bool)
  | mulHi (g : Guard) (d : Reg) (a : Reg) (b : Reg) (ty : Ty)
  | mulWide (g : Guard) (d : Reg) (a : Reg) (b : Reg) (ty : Ty)
  | madLo (g : Guard) (d : Reg) (a : Reg) (b : Reg) (c : Reg) (ty : Ty) (sat : Bool)
  | madHi (g : Guard) (d : Reg) (a : Reg) (b : Reg) (c : Reg) (ty : Ty)
  | madWide (g : Guard) (d : Reg) (a : Reg) (b : Reg) (c : Reg) (ty : Ty)
  | min (g : Guard) (d : Reg) (a : Reg) (b : Reg) (ty : Ty)
  | max (g : Guard) (d : Reg) (a : Reg) (b : Reg) (ty : Ty)
  | abs (g : Guard) (d : Reg) (a : Reg) (ty : Ty) (sat : Bool)
  | neg (g : Guard) (d : Reg) (a : Reg) (ty : Ty) (sat : Bool)
  | and (g : Guard) (d : Reg) (a : Reg) (b : Reg) (ty : Ty)
  | or (g : Guard) (d : Reg) (a : Reg) (b : Reg) (ty : Ty)
  | xor (g : Guard) (d : Reg) (a : Reg) (b : Reg) (ty : Ty)
  | not (g : Guard) (d : Reg) (a : Reg) (ty : Ty)
  | shl (g : Guard) (d : Reg) (a : Reg) (b : Reg) (ty : Ty)
  | shr (g : Guard) (d : Reg) (a : Reg) (b : Reg) (ty : Ty)
  | sha (g : Guard) (d : Reg) (a : Reg) (b : Reg) (ty : Ty)
  | rot (g : Guard) (d : Reg) (a : Reg) (b : Reg) (ty : Ty)
  | bfe (g : Guard) (d : Reg) (a : Reg) (b : Reg) (ty : Ty)
  | bfi (g : Guard) (d : Reg) (a : Reg) (b : Reg) (c : Reg)
  | popc (g : Guard) (d : Reg) (a : Reg) (ty : Ty)
  | clz (g : Guard) (d : Reg) (a : Reg) (ty : Ty)
  | ctz (g : Guard) (d : Reg) (a : Reg) (ty : Ty)
  | brev (g : Guard) (d : Reg) (a : Reg) (ty : Ty)
  | bsel (g : Guard) (d : Reg) (a : Reg) (b : Reg) (c : Reg)
  | sel (g : Guard) (d : Reg) (a : Reg) (b : Reg) (ty : Ty) (p : Fin 8) (neg : Bool)
  | cmp (g : Guard) (p : Fin 8) (a : Reg) (b : Reg) (ty : Ty) (cond : Cond) (comb : Comb)
  | mov (g : Guard) (d : Reg) (a : Reg) (ty : Ty)
  | movi (g : Guard) (d : Reg) (imm : BitVec 32)
  | moviS64 (g : Guard) (d : Reg) (imm : BitVec 32)
  | moviZ64 (g : Guard) (d : Reg) (imm : BitVec 32)
  | adda (g : Guard) (d : Reg) (a : Reg) (b : Reg) (ty : Ty) (k : Fin 7)
  | addc (g : Guard) (d : Reg) (a : Reg) (b : Reg) (p : Fin 8) (v : CarryMode)
  | fadd (g : Guard) (d : Reg) (a : Reg) (b : Reg) (ty : Ty) (rnd : Rnd) (sat : Bool)
  | fsub (g : Guard) (d : Reg) (a : Reg) (b : Reg) (ty : Ty) (rnd : Rnd) (sat : Bool)
  | fmul (g : Guard) (d : Reg) (a : Reg) (b : Reg) (ty : Ty) (rnd : Rnd) (sat : Bool)
  | ffma (g : Guard) (d : Reg) (a : Reg) (b : Reg) (c : Reg) (ty : Ty) (rnd : Rnd) (sat : Bool)
  | fmin (g : Guard) (d : Reg) (a : Reg) (b : Reg) (ty : Ty) (nan : Bool)
  | fmax (g : Guard) (d : Reg) (a : Reg) (b : Reg) (ty : Ty) (nan : Bool)
  | fcmp (g : Guard) (p : Fin 8) (a : Reg) (b : Reg) (ty : Ty) (cond : FCond) (comb : Comb)
  | fclass (g : Guard) (d : Reg) (a : Reg) (ty : Ty)
  | frnd (g : Guard) (d : Reg) (a : Reg) (ty : Ty) (rnd : Rnd)
  | fscale (g : Guard) (d : Reg) (a : Reg) (b : Reg) (ty : Ty) (rnd : Rnd) (sat : Bool)
  | rcp (g : Guard) (d : Reg) (a : Reg) (ty : Ty) (rnd : Rnd)
  | rsq (g : Guard) (d : Reg) (a : Reg) (ty : Ty)
  | sqrt (g : Guard) (d : Reg) (a : Reg) (ty : Ty) (rnd : Rnd)
  | ex2 (g : Guard) (d : Reg) (a : Reg)
  | lg2 (g : Guard) (d : Reg) (a : Reg)
  | sin (g : Guard) (d : Reg) (a : Reg)
  | cos (g : Guard) (d : Reg) (a : Reg)
  | tanh (g : Guard) (d : Reg) (a : Reg)
  | hfma2 (g : Guard) (d : Reg) (a : Reg) (b : Reg) (c : Reg) (ty : Ty) (rnd : Rnd) (sat : Bool)
  | hadd2 (g : Guard) (d : Reg) (a : Reg) (b : Reg) (ty : Ty) (rnd : Rnd) (sat : Bool)
  | hmul2 (g : Guard) (d : Reg) (a : Reg) (b : Reg) (ty : Ty) (rnd : Rnd) (sat : Bool)
  | cvt (g : Guard) (d : Reg) (a : Reg) (dt : Ty) (st : Ty) (e : Fin 8) (rnd : Rnd) (sat : Bool)
  | cvtef (g : Guard) (d : Reg) (r : Reg) (a : Reg) (dt : Ty) (st : Ty) (rnd : Rnd) (sat : Bool)
  | cvtmx (g : Guard) (d : Reg) (s : Reg) (a : Reg) (el : Ty) (k : Fin 8)
  | cvtmxAcc (g : Guard) (a : Reg)
  | cvtmxRep (g : Guard) (d : Reg) (el : Ty) (k : Fin 8)
  | cvtmxClr (g : Guard)
  | pack (g : Guard) (d : Reg) (a : Reg) (dt : Ty) (st : Ty) (rnd : Rnd) (sat : Bool)
  | unpk (g : Guard) (d : Reg) (a : Reg) (dt : Ty) (st : Ty)
  | dot4 (g : Guard) (d : Reg) (a : Reg) (b : Reg) (c : Reg) (st : Ty) (rnd : Rnd) (sat : Bool)
  | dot8 (g : Guard) (d : Reg) (a : Reg) (b : Reg) (c : Reg) (rnd : Rnd) (sat : Bool)
  | shfl (g : Guard) (m : ShflMode) (d : Reg) (a : Reg) (b : Reg) (ty : Ty) (ok : (Option (Fin 8)))
  | voteSome (g : Guard) (p : Fin 8) (q : Fin 8) (qn : Bool)
  | voteEvery (g : Guard) (p : Fin 8) (q : Fin 8) (qn : Bool)
  | voteSame (g : Guard) (p : Fin 8) (a : Reg) (ty : Ty)
  | voteBits (g : Guard) (d : Reg) (q : Fin 8) (qn : Bool)
  | voteCnt (g : Guard) (d : Reg) (q : Fin 8) (qn : Bool)
  | redux (g : Guard) (op : RedOp) (d : Reg) (a : Reg) (ty : Ty) (rnd : Rnd) (sat : Bool)
  | scan (g : Guard) (op : RedOp) (d : Reg) (a : Reg) (ty : Ty) (excl : Bool) (rnd : Rnd) (sat : Bool)
  | matchAny (g : Guard) (d : Reg) (a : Reg) (ty : Ty) (fp : Bool)
  | matchAll (g : Guard) (d : Reg) (p : Fin 8) (a : Reg) (ty : Ty) (fp : Bool)
  | qswp (g : Guard) (m : QuadMode) (d : Reg) (a : Reg) (ty : Ty)
  | qbc (g : Guard) (d : Reg) (a : Reg) (ty : Ty) (j : Fin 4)
  | rdfst (g : Guard) (d : Reg) (a : Reg) (ty : Ty)
  | part (g : Guard) (w : Fin 5)
  | lmask (g : Guard) (k : MaskKind) (d : Reg)
  | elect (g : Guard) (d : Reg) (p : Fin 8)
  | pairWord (x : Slot) (y : Slot)
  | ld (g : Guard) (d : Reg) (base : MemBase) (off : BitVec 24) (size : Size) (hint : Bool)
  | ldAcq (g : Guard) (d : Reg) (base : MemBase) (off : BitVec 24) (w64 : Bool) (scope : Scope)
  | st (g : Guard) (d : Reg) (base : MemBase) (off : BitVec 24) (size : Size) (hint : Bool)
  | stRel (g : Guard) (d : Reg) (base : MemBase) (off : BitVec 24) (w64 : Bool) (scope : Scope)
  | ldsp (g : Guard) (d : Reg) (base : Reg) (off : BitVec 24) (rmt : Bool) (size : Size)
  | ldspAcq (g : Guard) (d : Reg) (base : Reg) (off : BitVec 24) (w64 : Bool)
  | ldspCnt (g : Guard) (d : Reg) (base : Reg) (off : BitVec 24) (rmt : Bool)
  | stsp (g : Guard) (d : Reg) (base : Reg) (off : BitVec 24) (rmt : Bool) (size : Size)
  | stspRel (g : Guard) (d : Reg) (base : Reg) (off : BitVec 24) (w64 : Bool)
  | stspCnt (g : Guard) (d : Reg) (base : Reg) (off : BitVec 24) (rmt : Bool)
  | ldc (g : Guard) (d : Reg) (base : MemBase) (off : BitVec 24) (size : Size)
  | prefL1 (g : Guard) (base : MemBase) (off : BitVec 24)
  | prefL2 (g : Guard) (base : MemBase) (off : BitVec 24)
  | prefEvict (g : Guard) (base : MemBase) (off : BitVec 24)
  | spmapFlush (g : Guard)
  | spmapQuery (g : Guard) (d : Reg) (a : Reg)
  | residBind (g : Guard) (d : Reg) (a : Reg) (b : Reg) (h : BitVec 8) (p : Fin 8)
  | residUnbind (g : Guard) (d : Reg) (h : BitVec 8)
  | atom (g : Guard) (d : Reg) (base : MemBase) (b : Reg) (c : Reg) (op : AtomOp) (ty : AtomTy) (scope : Scope)
  | atomsp (g : Guard) (d : Reg) (base : Reg) (b : Reg) (c : Reg) (op : AtomOp) (ty : AtomTy) (rmt : Bool)
  | fence (g : Guard) (scope : Scope)
  | fencePath (g : Guard) (const : Bool) (fetch : Bool)
  | fenceXlat (g : Guard) (scope : Scope)
  | barJoin (g : Guard) (a : Reg) (n : Fin 16)
  | barPost (g : Guard) (a : Reg) (n : Fin 16)
  | gbarJoin (g : Guard)
  | gbarPost (g : Guard)
  | wsync (g : Guard) (a : Reg)
  | waitw (g : Guard) (d : Reg) (base : MemBase) (b : Reg) (cond : Cond) (w64 : Bool) (signed : Bool) (scope : Scope)
  | odone (g : Guard)
  | cpyG2s (g : Guard) (a : Reg)
  | cpyS2g (g : Guard) (a : Reg)
  | cpyG2g (g : Guard) (a : Reg)
  | cpyGather (g : Guard) (a : Reg)
  | cpyBcast (g : Guard) (a : Reg)
  | cpyFill (g : Guard) (a : Reg)
  | cpyMeta (g : Guard) (a : Reg)
  | cbwWait (g : Guard) (d : Reg) (a : Reg)
  | cbwTest (g : Guard) (d : Reg) (a : Reg)
  | cbwReset (g : Guard) (d : Reg) (a : Reg)
  | mmac (g : Guard) (a : Reg)
  | maccSt (g : Guard) (a : Reg) (b : Reg) (nr : Fin 64) (fmt : Fin 8) (raw : Bool)
  | maccLd (g : Guard) (a : Reg) (b : Reg) (nr : Fin 64) (fmt : Fin 8) (raw : Bool) (add : Bool)
  | maccZero (g : Guard) (b : Reg) (nr : Fin 64)
  | maccRd (g : Guard) (d : Reg) (b : Reg) (c : Reg) (rt : MaccRt) (rnd : Rnd)
  | mqctlClaim (g : Guard) (d : Reg) (q : Fin 4)
  | mqctlRelease (g : Guard) (d : Reg) (q : Fin 4)
  | mqctlQuery (g : Guard) (d : Reg) (q : Fin 4)
  | mstatErr (g : Guard) (d : Reg)
  | mstatCont (g : Guard) (a : Reg)
  | mstatClr (g : Guard)
  | instructionFetch (w : Nat)
  | pendingResultWrite (w : Nat) (k : Nat)
  | homeAccess (k : Nat)
  | intervalQueryAnswer (slice : Nat) (vi : Nat) (launch : Nat) (block : Nat) (warp : Nat) (interval : Nat)
  | regionCommitComplete (w : Nat)
  | regionCommitFail (w : Nat)
  | hbmFill (pa : Nat) (set : (List Nat)) (chk : LineCheck) (marksLost : Bool)
  | servicePage (b : Nat) (p : Nat)
  | translationService (w : Nat)
  | replicaCreate (vi : Nat) (va : Nat) (die : Nat) (pa : Nat) (rec : Nat)
  | replicaCollapse (vi : Nat) (va : Nat)
  | shootdown (vi : Nat) (va : Nat) (len : Nat) (wb : Bool)
  | shootdownAck (k : Nat) (agent : Nat)
  | mbxApertureWrite (vi : Nat) (off : Nat) (bytes : (List Byte))
  | bar0RegisterWrite (vi : Nat) (off : Nat)
  | launch (vi : Nat)
  | write (vi : Nat)
  | read (vi : Nat)
  | qflush (vi : Nat)
  | freezeRequest (vi : Nat)
  | thaw (vi : Nat)
  | viReset (vi : Nat)
  | functionLevelReset (vi : Nat)
  | viResetComplete (vi : Nat)
  | viConfigure (vi : Nat) (cfg : ViConfig)
  | headgateDispatch
  | blockStart (core : Nat)
  | workSteal (thieves : List Nat)
  | leveeRefill
  | portSend (core : Nat)
  | powerGrant (gs : (List Nat))
  | powerGrantTimeout (core : Nat)
  | thermalLimit (die : Nat) (limit : Bool)
  | copyChunk (core : Nat) (k : Nat)
  | copyComplete (core : Nat) (k : Nat)
  | matrixKblock (core : Nat)
  | matrixCommandComplete (core : Nat)
  | sparseStallTimeout (core : Nat)
  | waitwReread (w : Nat)
  | cbwWaitReread (w : Nat)
  | floorBroadcast
  | holdingBufferArrive (k : Nat)
  | deferAreaRetry (l : Nat)
  | replayRelease (k : Nat)
  | replayWindowExpiry (l : Nat) (va : Nat)
  | stopDelivery (w : Nat)
  | deferredStopDelivery (w : Nat)
  | watchdogExpiry (w : Nat)
  | linkRecoveryReport (port : Nat)
  | linkRecoveryTimeout (w : Nat)
  | goistoResume (w : Nat) (act : GoistoAct)
  | breakpointSet (vi : Nat) (n : Fin 16) (bpc : DWord) (bpf : DWord) (bpb : DWord)
  | preemptionRequest (vi : Nat) (scope : PreemptScope)
  | preemptAck (k : Nat) (unit : Nat)
  | restore (vi : Nat) (launch : Nat) (gang : Nat) (bad : (Option (Nat × Nat × Nat)))
  | scrubLine (pa : Nat) (chk : LineCheck)
  | vacateAck (bank : Nat)
  | vacateTimeout (bank : Nat)
  | fieldTestStart (cluster : Nat)
  | fieldTestResult (cluster : Nat) (pass : Bool)
  | culvertBeatFail (a : Nat) (b : Nat)
  | scaleupPortFailure (port : Nat)
  | remoteArrival (pa : Nat) (op : RemoteOp)
  | warpExitRecord (w : Nat)
  | blockRetire (b : Nat)
  | launchEnd (l : Nat)
  | flumeRecordWrite (k : Nat)
  | counterTick
  | pcSample (core : Nat) (sec : Nat)
  | cselWrite (vi : Nat) (n : Nat) (v : DWord)
  | cctlWrite (vi : Nat) (v : DWord)
  | clostWrite (vi : Nat) (v : DWord)
  | ptpLock (t : Nat)
  | powerOn
  | attestationRequest (nonce : Nat)
  | firmwareUpdate (rec : (List DWord)) (signed : Bool)
  | sleepExpiry (w : Nat)
  | linkRecovered (port : Nat)
  | ieee1588LockLoss
  deriving DecidableEq, Repr

end Sys2Proof
end

