-- ==== Sys2Proof/WellFormed.lean ====
section
/-!
DEFINITION. Well-formed instructions: the operand rules of spec/06 R103 to R122 and of the encoding
tables of R162, R189, R209, R224, R225, R243, R277, R286, R301, R309, R331 and R378. What depends on
the launch (its register counts, its format slots) or on the mode is checked when the word issues.
-/

namespace Sys2Proof

/-- Special operands that take a value in each lane (R104). -/
def Special.perLane : Special → Bool
  | .lane | .tidX | .tidY | .tidZ | .helper => true
  | _ => false

/-- The operand makes a word vector (R106). -/
def Reg.isVector : Reg → Bool
  | .v _ => true
  | .sp x => x.perLane
  | _ => false

/-- A vector register whose number is a multiple of [n]. -/
def Reg.vecReg (n : Nat) : Reg → Bool
  | .v k => k.val % n == 0
  | _ => false

/-- A scalar register whose number is a multiple of [n]. -/
def Reg.scaReg (n : Nat) : Reg → Bool
  | .s k => k.val % n == 0
  | _ => false

def Reg.isZero : Reg → Bool
  | .sp .zero => true
  | _ => false

def Reg.isImm : Reg → Bool
  | .imm _ => true
  | _ => false

/-- A source of [n] registers, 1 or 2 (R105): aligned registers, a special operand or an immediate. -/
def Reg.src (n : Nat) : Reg → Bool
  | .v k => k.val % n == 0
  | .s k => k.val % n == 0
  | .sp _ => true
  | .imm _ => true

/-- A source that takes no small immediate. -/
def Reg.srcNoImm (n : Nat) (r : Reg) : Bool := r.src n && !r.isImm

/-- A destination of [n] registers (R105). -/
def Reg.dst (n : Nat) (r : Reg) : Bool := r.vecReg n || r.scaReg n || r.isZero

/-- A register of either kind whose number is a multiple of [n]. -/
def Reg.anyReg (n : Nat) (r : Reg) : Bool := r.vecReg n || r.scaReg n

/-- Scalar register or small immediate. -/
def Reg.scaOrImm (n : Nat) (r : Reg) : Bool := r.scaReg n || r.isImm

/-- Scalar register or `%zero`. -/
def Reg.scaOrZero (n : Nat) (r : Reg) : Bool := r.scaReg n || r.isZero

/-- A source that is no scalar register. -/
def Reg.srcNoSca (r : Reg) : Bool := r.src 1 && !r.scaReg 1

/-- R106: a scalar destination takes no vector source. -/
def scalarRule (d : Reg) (srcs : List Reg) : Bool :=
  match d with
  | .s _ => srcs.all (fun r => !r.isVector)
  | _ => true

/-- Registers that an operand of a type covers (R105, R189, R224). -/
def Ty.regs : Ty → Nat
  | .i64 | .n64 | .f64 => 2
  | _ => 1

/-- The width of a type in bits (R111). -/
def Ty.width : Ty → Nat
  | .i64 | .n64 | .f64 => 64
  | .i32 | .n32 | .f32 | .b32 => 32
  | .i16 | .n16 | .f16 | .bf16 => 16
  | .i8 | .n8 | .e4m3 | .e5m2 => 8
  | .e2m1 => 4

def Ty.isFloat : Ty → Bool
  | .f32 | .f64 | .f16 | .bf16 | .e4m3 | .e5m2 | .e2m1 => true
  | _ => false

def Ty.isInt : Ty → Bool
  | .i32 | .n32 | .i64 | .n64 | .i16 | .n16 | .i8 | .n8 => true
  | _ => false

/-- Signed integer types (R111). -/
def Ty.signed : Ty → Bool
  | .i32 | .i64 | .i16 | .i8 => true
  | _ => false

/-- Formats in which a small immediate is illegal (R105). -/
def Ty.noImm : Ty → Bool
  | .e4m3 | .e5m2 | .e2m1 => true
  | _ => false

/-- Elements of the type in one 32-bit register (R225). -/
def Ty.perReg (t : Ty) : Nat := if t.width < 32 then 32 / t.width else 1

/-- A three-operand ALU word whose operands all have the type's width. -/
def alu3 (d a b : Reg) (n : Nat) : Bool := d.dst n && a.src n && b.src n && scalarRule d [a, b]

def alu2 (d a : Reg) (n : Nat) : Bool := d.dst n && a.src n && scalarRule d [a]

def addTypes (t : Ty) : Bool := t.isInt
def absTypes (t : Ty) : Bool := t.isInt && t.signed
def mulTypes : Ty → Bool
  | .i32 | .n32 | .i64 | .n64 => true
  | _ => false
def wideTypes : Ty → Bool
  | .i32 | .n32 => true
  | _ => false
def bitTypes : Ty → Bool
  | .b32 | .n64 => true
  | _ => false
def fTypes : Ty → Bool
  | .f32 | .f64 => true
  | _ => false
def hTypes : Ty → Bool
  | .f16 | .bf16 => true
  | _ => false
def narrowFloat : Ty → Bool
  | .f16 | .bf16 | .e4m3 | .e5m2 | .e2m1 => true
  | _ => false
/-- The element types of `cvtmx` (R225). -/
def mxTypes : Ty → Bool
  | .i8 | .f16 | .bf16 | .e4m3 | .e5m2 | .e2m1 => true
  | _ => false

/-- The type pairs of `pack` (R225). -/
def packTypes (dt st : Ty) : Bool :=
  match st, dt with
  | .f32, t => narrowFloat t
  | .i32, t => t == .i16 || t == .n16 || t == .i8 || t == .n8
  | .n32, t => t == .i16 || t == .n16 || t == .i8 || t == .n8
  | _, _ => false

/-- The type pairs of `unpk` (R225). -/
def unpkTypes (dt st : Ty) : Bool :=
  match dt, st with
  | .f32, t => narrowFloat t
  | .i32, t => t == .i16 || t == .i8
  | .n32, t => t == .n16 || t == .n8
  | _, _ => false

/-- The type pairs of `cvtef` (R225). -/
def cvtefTypes (dt st : Ty) : Bool :=
  match st with
  | .f32 => narrowFloat dt
  | .f64 => narrowFloat dt || dt == .f32
  | _ => false

/-- Registers of a size code (R114). -/
def Size.regs : Size → Nat
  | .b64 => 2
  | .b128 => 4
  | .b256 => 8
  | _ => 1

/-- Bytes of a size code (R114). -/
def Size.bytes : Size → Nat
  | .n8 | .i8 => 1
  | .n16 | .i16 => 2
  | .b32 => 4
  | .b64 => 8
  | .b128 => 16
  | .b256 => 32

def MemBase.isVector : MemBase → Bool
  | .v _ => true
  | _ => false

/-- The destination of [n] registers shares a register with the base pair (R278, R380). -/
def overlapsBase (d : Reg) (n : Nat) (b : MemBase) : Bool :=
  match d, b with
  | .v k, .v m => k.val < 2 * m.val + 2 && 2 * m.val < k.val + n
  | .s k, .s m => k.val < 2 * m.val + 2 && 2 * m.val < k.val + n
  | _, _ => false

/-- The destination of [n] registers covers the base register of a scratchpad access (R286). -/
def overlapsReg (d : Reg) (n : Nat) (b : Reg) : Bool :=
  match d, b with
  | .v k, .v m => k.val ≤ m.val && m.val < k.val + n
  | .s k, .s m => k.val ≤ m.val && m.val < k.val + n
  | _, _ => false

/-- R278: the destination of a load of [n] registers with a global base. -/
def loadOk (d : Reg) (n : Nat) (b : MemBase) : Bool :=
  d.anyReg n && !overlapsBase d n b && !(d.scaReg 1 && b.isVector)

/-- R278, R105: store data of [n] registers. -/
def dataOk (d : Reg) (n : Nat) : Bool := if n ≤ 2 then d.src n else d.anyReg n || d.isZero

/-- R286: the base of a scratchpad access. -/
def spBaseOk (b : Reg) : Bool := b.anyReg 1 || b.isZero

def spLoadOk (d : Reg) (n : Nat) (b : Reg) : Bool :=
  spBaseOk b && d.anyReg n && !overlapsReg d n b && scalarRule d [b]

def AtomTy.regs : AtomTy → Nat
  | .i64 | .n64 | .f64 => 2
  | _ => 1

def AtomTy.bytes (t : AtomTy) : Nat := 4 * t.regs

def AtomTy.isInt : AtomTy → Bool
  | .i32 | .n32 | .i64 | .n64 => true
  | _ => false

def AtomTy.packed : AtomTy → Bool
  | .f16x2 | .bf16x2 => true
  | _ => false

/-- The types that an atomic operation accepts (R378). -/
def atomTypes (op : AtomOp) (t : AtomTy) : Bool :=
  match op with
  | .add => true
  | .sub | .inc | .dec => t.isInt
  | .min | .max | .xch | .cas => !t.packed
  | .and | .or => t == .n32 || t == .n64

/-- The operands of an atomic (R378, R380). -/
def atomOperands (d b c : Reg) (op : AtomOp) (t : AtomTy) : Bool :=
  atomTypes op t &&
  (match op with
   | .inc | .dec => b == .v 0 && c == .v 0
   | .cas => b.src t.regs && c.src t.regs && (t.isInt || !c.isImm) && scalarRule d [b, c]
   | _ => b.src t.regs && c == .v 0 && scalarRule d [b])

/-- System registers that `sys.rd` may name (R179). -/
def sysReadable (n : Nat) : Bool := n ≤ 10 || n == 16 || n == 17

/-- The types of `redux` and `scan`, with their rounding and saturation (R250). -/
def redTypes (op : RedOp) (t : Ty) (rnd : Rnd) (sat : Bool) : Bool :=
  match op with
  | .add => (wideTypes t && rnd == .rn) || (t == .f32 && rnd != .rs)
  | .min | .max => (wideTypes t || t == .f32) && rnd == .rn && !sat
  | .and | .or | .xor => t == .b32 && rnd == .rn && !sat

/-- The types of `match` (R243). -/
def matchTypes (t : Ty) (fp : Bool) : Bool := if fp then fTypes t else bitTypes t

/-- A 9-bit slot register (R118). -/
def slotReg (n : Fin 512) : Reg :=
  if h : n.val < 448 then .v ⟨n.val, by omega⟩ else .s ⟨n.val - 448, by omega⟩

def SlotOp.unary : SlotOp → Bool
  | .mov | .cvt | .rcp | .rsq | .ex2 | .lg2 | .not | .popc | .abs | .neg | .fabs => true
  | _ => false

/-- Allowed slot types and flags (R121, R122). -/
def slotTypeOk (op : SlotOp) (ty flags : Nat) : Bool :=
  match op with
  | .nop => ty == 0 && flags == 0
  | .mov | .and | .or | .xor | .shl | .shr | .sha | .not | .popc => ty == 5 && flags == 0
  | .add | .sub => ty ≤ 1 && flags ≤ 1
  | .mulLo | .min | .max => ty ≤ 1 && flags == 0
  | .fadd | .fsub | .fmul => ty == 2
  | .fmin | .fmax | .rcp | .rsq | .ex2 | .lg2 | .fabs => ty == 2 && flags == 0
  | .hadd2 | .hmul2 => ty == 3 || ty == 4
  | .cvt => ty ≤ 4
  | .abs | .neg => ty == 0 && flags ≤ 1

def Slot.wf (x : Slot) : Bool :=
  if x.op == .nop then x.g == 0 && x.d == 0 && x.a == 0 && x.ty == 0 && x.flags == 0
  else slotTypeOk x.op x.ty.val x.flags.val && scalarRule (slotReg x.d) [slotReg x.a]

/-- Opcodes that only slot B may hold (R120). -/
def SlotOp.onlyB : SlotOp → Bool
  | .cvt | .rcp | .rsq | .ex2 | .lg2 => true
  | _ => false

/-- Registers that a slot reads (R118, R120). -/
def Slot.reads (x : Slot) : List Nat :=
  if x.op == .nop then [] else if x.op.unary then [x.a.val] else [x.d.val, x.a.val]

/-- The bank of a slot register (R120): 0 to 3, or 4 for bank S. -/
def slotBank (n : Nat) : Nat := if n < 448 then n % 4 else 4

/-- Distinct registers among the reads fall in distinct banks (R120). -/
def banksOk : List Nat → Bool
  | [] => true
  | x :: xs => xs.all (fun y => y == x || slotBank y != slotBank x) && banksOk xs

/-- R120. -/
def pairWf (x y : Slot) : Bool :=
  x.wf && y.wf && !x.op.onlyB && banksOk (x.reads ++ y.reads) &&
  (x.op == .nop || y.op == .nop || x.d != y.d)

/-- The well-formed instructions. Every event is well-formed: its conditions are of the state. -/
def Instr.wf : Instr → Bool
  | .nop _ | .bra _ _ | .exit _ | .rcvSet _ _ | .rcvWait _ _ | .regionBegin _ | .wait _ _ _ _ _
  | .trap _ _ | .brk _ _ | .trapret _ | .electBr _ _ => true
  | .brx _ a | .ret _ a => a.anyReg 2
  | .call _ d _ => d.anyReg 2
  | .regionQuery _ d => d.scaReg 1
  | .rinj _ d _ => d.scaOrZero 1
  | .sleep _ a =>
    match a with
    | .imm k => decide (64 ≤ k.val)
    | _ => a.scaReg 1
  | .sysRd _ d n => sysReadable n.toNat && (if n.toNat ≥ 16 then d.vecReg 1 else d.dst 1)
  | .sysWr _ n a => decide (n.toNat ≤ 2) && a.scaOrImm 1
  | .clkDev _ d | .clkOrd _ d => d.dst 2
  | .rng _ d _ | .rngF32 _ d _ => d.dst 1
  | .rngX4 _ d _ => d.vecReg 4
  | .perfRd _ d _ => d.dst 2
  | .perfClr _ _ => true
  | .tmark _ _ a => a.scaOrImm 1 || a.isZero
  | .finfo _ d n => d.scaReg 1 && decide (n.toNat ≤ 9)
  | .lnch _ d a _ => d.scaOrZero 1 && a.scaReg 2
  | .add _ d a b t _ | .sub _ d a b t _ | .min _ d a b t | .max _ d a b t =>
    addTypes t && alu3 d a b t.regs
  | .mulLo _ d a b t _ | .mulHi _ d a b t => mulTypes t && alu3 d a b t.regs
  | .mulWide _ d a b t => wideTypes t && d.dst 2 && a.src 1 && b.src 1 && scalarRule d [a, b]
  | .madLo _ d a b c t _ | .madHi _ d a b c t =>
    mulTypes t && alu3 d a b t.regs && c.src t.regs && scalarRule d [c]
  | .madWide _ d a b c t =>
    wideTypes t && d.dst 2 && a.src 1 && b.src 1 && c.src 2 && scalarRule d [a, b, c]
  | .abs _ d a t _ | .neg _ d a t _ => absTypes t && alu2 d a t.regs
  | .and _ d a b t | .or _ d a b t | .xor _ d a b t => bitTypes t && alu3 d a b t.regs
  | .not _ d a t | .brev _ d a t | .mov _ d a t => bitTypes t && alu2 d a t.regs
  | .shl _ d a b t | .shr _ d a b t | .sha _ d a b t | .rot _ d a b t =>
    bitTypes t && d.dst t.regs && a.src t.regs && b.src 1 && scalarRule d [a, b]
  | .bfe _ d a b t => wideTypes t && alu3 d a b 1
  | .bfi _ d a b c | .bsel _ d a b c => alu3 d a b 1 && c.src 1 && scalarRule d [c]
  | .popc _ d a t | .clz _ d a t | .ctz _ d a t =>
    bitTypes t && d.dst 1 && a.src t.regs && scalarRule d [a]
  | .sel _ d a b t _ _ => bitTypes t && alu3 d a b t.regs
  | .cmp _ p a b t cc _ =>
    p != 7 && (mulTypes t || (t == .b32 && (cc == .eq || cc == .ne))) && a.src t.regs && b.src t.regs
  | .movi _ d _ => d.dst 1
  | .moviS64 _ d _ | .moviZ64 _ d _ => d.dst 2
  | .adda _ d a b t _ => mulTypes t && d.dst 2 && a.src 2 && b.src t.regs && scalarRule d [a, b]
  | .addc _ d a b p _ => p != 7 && alu3 d a b 1
  | .fadd _ d a b t _ _ | .fsub _ d a b t _ _ | .fmul _ d a b t _ _ => fTypes t && alu3 d a b t.regs
  | .ffma _ d a b c t _ _ => fTypes t && alu3 d a b t.regs && c.src t.regs && scalarRule d [c]
  | .fmin _ d a b t _ | .fmax _ d a b t _ => fTypes t && alu3 d a b t.regs
  | .fcmp _ p a b t _ _ => p != 7 && fTypes t && a.src t.regs && b.src t.regs
  | .fclass _ d a t => (fTypes t || hTypes t) && d.dst 1 && a.src t.regs && scalarRule d [a]
  | .frnd _ d a t _ | .rcp _ d a t _ | .sqrt _ d a t _ | .rsq _ d a t => fTypes t && alu2 d a t.regs
  | .fscale _ d a b t _ _ => fTypes t && d.dst t.regs && a.src t.regs && b.srcNoImm 1 && scalarRule d [a, b]
  | .ex2 _ d a | .lg2 _ d a | .sin _ d a | .cos _ d a | .tanh _ d a => alu2 d a 1
  | .hfma2 _ d a b c t _ _ => hTypes t && alu3 d a b 1 && c.src 1 && scalarRule d [c]
  | .hadd2 _ d a b t _ _ | .hmul2 _ d a b t _ _ => hTypes t && alu3 d a b 1
  | .cvt _ d a dt sy e rnd sat =>
    dt != sy && dt != .b32 && sy != .b32 && d.dst dt.regs && a.src sy.regs && scalarRule d [a] &&
    !(sy.noImm && a.isImm) && decide (e.val < sy.perReg) &&
    !(dt.isInt && sy.isInt && rnd != .rn) && !(sy.isFloat && dt.isInt && sat)
  | .cvtef _ d r a dt sy _ _ =>
    cvtefTypes dt sy && a.src sy.regs && scalarRule d [a] &&
    ((d.vecReg 1 && r.vecReg sy.regs) || (d.scaReg 1 && r.scaReg sy.regs)) && !overlapsReg r sy.regs d
  | .cvtmx _ d s a el _ => mxTypes el && d.dst 1 && !d.scaReg 1 && s.scaOrZero 1 && a.srcNoSca
  | .cvtmxAcc _ a => a.srcNoSca
  | .cvtmxRep _ d el _ => mxTypes el && d.scaReg 1
  | .cvtmxClr _ => true
  | .pack _ d a dt sy rnd _ =>
    packTypes dt sy && d.dst 1 && a.anyReg dt.perReg && scalarRule d [a] && !(dt.isInt && rnd != .rn)
  | .unpk _ d a dt sy =>
    unpkTypes dt sy && d.anyReg sy.perReg && a.src 1 && scalarRule d [a] && !(sy.noImm && a.isImm)
  | .dot4 _ d a b c sy rnd _ =>
    (sy == .e4m3 || sy == .e5m2 || sy == .i8 || sy == .n8) && alu3 d a b 1 && c.src 1 &&
    scalarRule d [c] && !(sy.noImm && (a.isImm || b.isImm)) && !(sy.isInt && rnd != .rn)
  | .dot8 _ d a b c _ _ => alu3 d a b 1 && c.src 1 && scalarRule d [c] && !(a.isImm || b.isImm)
  | .shfl _ _ d a b t ok => bitTypes t && d.vecReg t.regs && a.src t.regs && b.src 1 && ok != some 7
  | .voteSome _ p _ _ | .voteEvery _ p _ _ => p != 7
  | .voteSame _ p a t => p != 7 && bitTypes t && a.src t.regs
  | .voteBits _ d _ _ | .voteCnt _ d _ _ => d.dst 1
  | .redux _ op d a t rnd sat => redTypes op t rnd sat && d.dst 1 && a.vecReg 1
  | .scan _ op d a t _ rnd sat =>
    redTypes op t rnd sat && d.vecReg 1 && a.src 1 && !(a.isImm && t != .b32)
  | .matchAny _ d a t fp => matchTypes t fp && d.vecReg 1 && a.src t.regs && !(fp && a.isImm)
  | .matchAll _ d p a t fp => p != 7 && matchTypes t fp && d.vecReg 1 && a.src t.regs && !(fp && a.isImm)
  | .qswp _ _ d a t | .qbc _ d a t _ => bitTypes t && d.vecReg t.regs && a.src t.regs
  | .rdfst _ d a t => bitTypes t && d.scaReg t.regs && a.vecReg t.regs
  | .part _ _ => true
  | .lmask _ _ d => d.vecReg 1
  | .elect _ d p => p != 7 && (d.vecReg 1 || d.isZero)
  | .pairWord x y => pairWf x y
  | .ld _ d base _ z _ | .ldc _ d base _ z => loadOk d z.regs base
  | .ldAcq _ d base _ w64 _ => loadOk d (if w64 then 2 else 1) base
  | .st _ d _ _ z _ => dataOk d z.regs
  | .stRel _ d _ _ w64 _ => dataOk d (if w64 then 2 else 1)
  | .ldsp _ d base _ _ z => spLoadOk d z.regs base
  | .ldspAcq _ d base _ w64 => spLoadOk d (if w64 then 2 else 1) base
  | .ldspCnt _ d base _ _ => spLoadOk d 1 base
  | .stsp _ d base _ _ z => spBaseOk base && dataOk d z.regs
  | .stspRel _ d base _ w64 => spBaseOk base && dataOk d (if w64 then 2 else 1)
  | .stspCnt _ d base _ _ => spBaseOk base && dataOk d 1
  | .prefL1 _ _ _ | .prefL2 _ _ _ | .prefEvict _ _ _ | .spmapFlush _ => true
  | .spmapQuery _ d a => d.scaReg 1 && a.scaOrImm 1
  | .residBind _ d a b _ _ => d.scaOrZero 1 && a.scaReg 2 && b.scaReg 2
  | .residUnbind _ d _ => d.scaOrZero 1
  | .atom _ d base b c op t _ =>
    d.dst t.regs && !overlapsBase d t.regs base && !(d.scaReg 1 && base.isVector) && atomOperands d b c op t
  | .atomsp _ d base b c op t _ =>
    (t == .i32 || t == .n32 || t == .f32) && d.dst 1 && spBaseOk base && !overlapsReg d 1 base &&
    scalarRule d [base] && atomOperands d b c op t
  | .fence _ _ => true
  | .fencePath _ c f => c || f
  | .fenceXlat _ sc => sc != .sys
  | .barJoin _ a _ | .barPost _ a _ => a.scaOrImm 1 || a.isZero
  | .gbarJoin _ | .gbarPost _ => true
  | .wsync _ a => a.scaOrZero 1
  | .waitw _ d base b _ w64 _ _ =>
    d.scaOrZero (if w64 then 2 else 1) && b.scaOrImm (if w64 then 2 else 1) &&
    (match base with | .s _ => true | _ => false)
  | .odone _ => true
  | .cpyG2s _ a | .cpyS2g _ a | .cpyG2g _ a | .cpyGather _ a | .cpyBcast _ a | .cpyFill _ a
  | .cpyMeta _ a | .mmac _ a => a.scaOrZero 1
  | .cbwWait _ d a | .cbwTest _ d a | .cbwReset _ d a => d.scaOrZero 2 && a.scaReg 2
  | .maccSt _ a b _ fmt raw | .maccLd _ a b _ fmt raw _ =>
    a.scaReg 2 && b.scaOrImm 1 && !(raw && fmt != 0)
  | .maccZero _ b _ => b.scaOrImm 1
  | .maccRd _ d b c rt rnd =>
    d.vecReg (match rt with | .f32 => 1 | .f64 => 2 | .a80 => 4) && b.scaOrImm 1 && c.scaOrImm 1 &&
    rnd != .rs && !(rt == .a80 && rnd != .rn)
  | .mqctlClaim _ d _ | .mqctlRelease _ d _ | .mqctlQuery _ d _ => d.scaOrZero 1
  | .mstatErr _ d => d.scaReg 1
  | .mstatCont _ a => a.scaOrZero 1
  | .mstatClr _ => true
  | .instructionFetch _ | .pendingResultWrite _ _ | .homeAccess _ | .intervalQueryAnswer _ _ _ _ _ _
  | .regionCommitComplete _ | .regionCommitFail _ | .hbmFill _ _ _ _ | .servicePage _ _
  | .translationService _ | .replicaCreate _ _ _ _ _ | .replicaCollapse _ _ | .shootdown _ _ _ _
  | .shootdownAck _ _ | .mbxApertureWrite _ _ _ | .bar0RegisterWrite _ _ | .launch _ | .write _
  | .read _ | .qflush _ | .freezeRequest _ | .thaw _ | .viReset _ | .functionLevelReset _
  | .viResetComplete _ | .viConfigure _ _ | .headgateDispatch | .blockStart _ | .workSteal _
  | .leveeRefill | .portSend _ | .powerGrant _ | .powerGrantTimeout _ | .thermalLimit _ _
  | .copyChunk _ _ | .copyComplete _ _ | .matrixKblock _ | .matrixCommandComplete _
  | .sparseStallTimeout _ | .waitwReread _ | .cbwWaitReread _ | .floorBroadcast
  | .holdingBufferArrive _ | .deferAreaRetry _ | .replayRelease _ | .replayWindowExpiry _ _
  | .stopDelivery _ | .deferredStopDelivery _ | .watchdogExpiry _ | .linkRecoveryReport _
  | .linkRecoveryTimeout _ | .goistoResume _ _ | .breakpointSet _ _ _ _ _ | .preemptionRequest _ _
  | .preemptAck _ _ | .restore _ _ _ _ | .scrubLine _ _ | .vacateAck _ | .vacateTimeout _
  | .fieldTestStart _ | .fieldTestResult _ _ | .culvertBeatFail _ _ | .scaleupPortFailure _
  | .remoteArrival _ _ | .warpExitRecord _ | .blockRetire _ | .launchEnd _ | .flumeRecordWrite _
  | .counterTick | .pcSample _ _ | .cselWrite _ _ _ | .cctlWrite _ _ | .clostWrite _ _ | .ptpLock _
  | .powerOn | .attestationRequest _ | .firmwareUpdate _ _ | .sleepExpiry _ | .linkRecovered _
  | .ieee1588LockLoss => true

end Sys2Proof
end

