-- ==== Sys2Proof/Machine/Numbers.lean ====
section
/-!
DEFINITION. Number formats, exact values and rounding (spec/03 R43 to R57): every arithmetic result is an exact
value, rounded once.
-/

namespace Sys2Proof.Machine

/-! ### Flags (R58), in FPSTAT bit order -/

def flNX : Nat := 1
def flUF : Nat := 2
def flOF : Nat := 4
def flDZ : Nat := 8
def flNV : Nat := 16
def flSATF : Nat := 32
def flIOV : Nat := 64

/-! ### Formats (R45 to R47) -/

/-- What the all-ones exponent of a format stands for (R46). -/
inductive FmtKind where
  | ieee | e4m3 | e2m1
  deriving DecidableEq, Repr

/-- A floating-point format: exponent bits, fraction bits, bias, the pattern of the largest finite value. -/
structure Fmt where
  w : Nat
  t : Nat
  bias : Nat
  maxBits : Nat
  kind : FmtKind
  deriving DecidableEq, Repr

def fmtF64 : Fmt := ⟨11, 52, 1023, 0x7FEF_FFFF_FFFF_FFFF, .ieee⟩
def fmtF32 : Fmt := ⟨8, 23, 127, 0x7F7F_FFFF, .ieee⟩
def fmtF16 : Fmt := ⟨5, 10, 15, 0x7BFF, .ieee⟩
def fmtBF16 : Fmt := ⟨8, 7, 127, 0x7F7F, .ieee⟩
def fmtA80 : Fmt := ⟨11, 68, 1023, 0x7FEF_FFFF_FFFF_FFFF_FFFF, .ieee⟩
def fmtE5M2 : Fmt := ⟨5, 2, 15, 0x7B, .ieee⟩
def fmtE4M3 : Fmt := ⟨4, 3, 7, 0x7E, .e4m3⟩
def fmtE2M1 : Fmt := ⟨2, 1, 1, 0x7, .e2m1⟩

/-- The format of a float type (R111); of no use for the others. -/
def tyFmt : Ty → Fmt
  | .f64 => fmtF64
  | .f16 => fmtF16
  | .bf16 => fmtBF16
  | .e4m3 => fmtE4M3
  | .e5m2 => fmtE5M2
  | .e2m1 => fmtE2M1
  | _ => fmtF32

/-- The sign bit of a format as a number. -/
def Fmt.signBit (f : Fmt) : Nat := 2 ^ (f.w + f.t)

/-- The exponent field of all ones with fraction zero: infinity (R46). -/
def Fmt.infBits (f : Fmt) : Nat := (2 ^ f.w - 1) * 2 ^ f.t

/-- The canonical NaN (R47); E2M1 has none and encodes 0 (R53). -/
def Fmt.nanBits (f : Fmt) : Nat :=
  match f.kind with
  | .ieee => f.infBits + 2 ^ (f.t - 1)
  | .e4m3 => 0x7F
  | .e2m1 => 0

/-- A value of a format, NaN payloads dropped. -/
inductive FVal where
  | snan
  | qnan
  | inf (neg : Bool)
  | num (neg : Bool) (m : Nat) (e : Int)
  deriving DecidableEq, Repr

/-- The value that the bits of a format encode (R45, R46): m × 2^e for a finite one. -/
def decFloat (f : Fmt) (b : Nat) : FVal :=
  let s := bit b (f.w + f.t)
  let ex := bits b (f.w + f.t - 1) f.t
  let fr := b % 2 ^ f.t
  let finite : FVal :=
    if ex = 0 then .num s fr (1 - (f.bias : Int) - f.t)
    else .num s (fr + 2 ^ f.t) ((ex : Int) - f.bias - f.t)
  if ex = 2 ^ f.w - 1 then
    match f.kind with
    | .ieee =>
      if fr = 0 then .inf s
      else if bit fr (f.t - 1) || f.t == 2 then .qnan else .snan
    | .e4m3 => if fr = 7 then .qnan else finite
    | .e2m1 => finite
  else finite

def FVal.isNan : FVal → Bool
  | .snan | .qnan => true
  | _ => false

def FVal.isInf : FVal → Bool
  | .inf _ => true
  | _ => false

def FVal.isSnan : FVal → Bool
  | .snan => true
  | _ => false

/-- The sign of a value that is no NaN. -/
def FVal.neg : FVal → Bool
  | .inf s => s
  | .num s _ _ => s
  | _ => false

/-- A finite zero. -/
def FVal.isZero : FVal → Bool
  | .num _ m _ => m == 0
  | _ => false

/-- The value with its sign changed. -/
def FVal.flip : FVal → FVal
  | .inf s => .inf (!s)
  | .num s m e => .num (!s) m e
  | x => x

/-- The signed significand of a finite value. -/
def FVal.int : FVal → Int
  | .num s m _ => if s then -(m : Int) else m
  | _ => 0

def FVal.exp : FVal → Int
  | .num _ _ e => e
  | _ => 0

/-! ### Exact results (R51) -/

/-- An exact magnitude: n / d × 2^e, or its square root √(n / d) × 2^e. -/
inductive Mag where
  | rat (n d : Nat) (e : Int)
  | root (n d : Nat) (e : Int)
  deriving DecidableEq, Repr

/-- An exact result: NaN, infinite, or a signed magnitude. -/
inductive XVal where
  | nan
  | inf (neg : Bool)
  | fin (neg : Bool) (m : Mag)
  deriving DecidableEq, Repr

def isqrtGo (n : Nat) : Nat → Nat → Nat
  | 0, x => x
  | k + 1, x => if x = 0 then 0 else
    let y := (x + n / x) / 2
    if y < x then isqrtGo n k y else x

/-- The integer square root, by Newton's steps from above. -/
def isqrt (n : Nat) : Nat := isqrtGo n (Nat.log2 n + 4) (2 ^ (Nat.log2 n / 2 + 1))

def Mag.isZero : Mag → Bool
  | .rat n _ _ => n == 0
  | .root n _ _ => n == 0

/-- The floor of the magnitude × 2^k, and whether it is exact. -/
def Mag.scaledFloor (m : Mag) (k : Int) : Nat × Bool :=
  match m with
  | .rat n d e =>
    let s := e + k
    let a := n <<< s.toNat
    let b := d <<< (-s).toNat
    (a / b, a % b == 0)
  | .root n d e =>
    let s := e + k
    let a := n <<< (2 * s).toNat
    let b := d <<< (2 * -s).toNat
    let r := isqrt (a / b)
    (r, a % b == 0 && r * r == a / b)

/-- ⌊log2 (n / d)⌋ for n and d not zero. -/
def log2Ratio (n d : Nat) : Int :=
  let l : Int := (Nat.log2 n : Int) - Nat.log2 d
  if n <<< (-l).toNat < d <<< l.toNat then l - 1 else l

/-- ⌊log2⌋ of a nonzero magnitude. -/
def Mag.floorLog2 : Mag → Int
  | .rat n d e => log2Ratio n d + e
  | .root n d e => log2Ratio n d / 2 + e

/-- The choice of R51 between a, which is the significand [a], and b, for a value whose distance from a is
[frac] × 2^−32 of the spacing, cut off, with [exact] when nothing was cut off. The result is the significand
chosen and whether it differs from the value. -/
def roundChoice (neg : Bool) (a frac : Nat) (exact : Bool) (rnd : Rnd) (u : Nat) : Nat × Bool :=
  if frac = 0 ∧ exact then (a, false)
  else
    let up : Bool :=
      match rnd with
      | .rn => decide (2 ^ 31 < frac) || (frac == 2 ^ 31 && (!exact || a % 2 == 1))
      | .rz => false
      | .rp => !neg
      | .rm => neg
      | .ra => decide (2 ^ 31 ≤ frac)
      | .rs => decide (u < frac)
      | .ro => a % 2 == 0
    (if up then a + 1 else a, true)

/-- A magnitude rounded to a multiple of 2^q (R51). -/
def roundAt (neg : Bool) (m : Mag) (q : Int) (rnd : Rnd) (u : Nat) : Nat × Bool :=
  let (x, ex) := m.scaledFloor (32 - q)
  roundChoice neg (x / 2 ^ 32) (x % 2 ^ 32) ex rnd u

/-- Overflow goes to infinity (R53). -/
def overflowToInf (rnd : Rnd) (neg : Bool) : Bool :=
  match rnd with
  | .rn | .ra | .rs => true
  | .rp => !neg
  | .rm => neg
  | _ => false

/-- What a value beyond the largest finite one encodes (R53). [isInf]: the exact value is infinite. -/
def encodeBig (f : Fmt) (neg sat isInf : Bool) : Nat × Nat :=
  let s := if neg then f.signBit else 0
  if sat || f.kind == .e2m1 then (s + f.maxBits, flSATF)
  else if f.kind == .ieee then (s + f.infBits, 0)
  else (f.nanBits, if isInf then flNV else 0)

/-- round_to_format of R53: the bits and the flags. -/
def roundTo (f : Fmt) (x : XVal) (rnd : Rnd) (sat : Bool) (u : Nat) : Nat × Nat :=
  match x with
  | .nan => if f.kind = .e2m1 then (0, flNV) else (f.nanBits, 0)
  | .inf neg => encodeBig f neg sat true
  | .fin neg m =>
    let s := if neg then f.signBit else 0
    if m.isZero then (s, 0)
    else
      let qmin : Int := 1 - (f.bias : Int) - f.t
      let q := max (m.floorLog2 - f.t) qmin
      let (c, inexact) := roundAt neg m q rnd u
      let pat := c + (q - qmin).toNat * 2 ^ f.t
      let fl := (if inexact then flNX else 0) ||| (if inexact && decide (pat < 2 ^ f.t) then flUF else 0)
      if pat ≤ f.maxBits then (s + pat, fl)
      else
        let fl := fl ||| flOF ||| flNX
        if overflowToInf rnd neg then
          let (b, fl2) := encodeBig f neg sat false
          (b, fl ||| fl2)
        else (s + f.maxBits, fl)

/-- A finite value as an exact result. -/
def FVal.exact : FVal → XVal
  | .snan | .qnan => .nan
  | .inf s => .inf s
  | .num s m e => .fin s (.rat m 1 e)

/-- An integer as an exact result. -/
def xInt (x : Int) : XVal := .fin (decide (x < 0)) (.rat x.natAbs 1 0)

/-- NV for signalling NaN operands (R212). -/
def nvOf (xs : List FVal) : Nat := if xs.any FVal.isSnan then flNV else 0

/-- A sum of finite values, exact: the common exponent and the signed significand. -/
def sumFin (xs : List FVal) : Int × Int :=
  let e := xs.foldl (fun a x => min a x.exp) (match xs with | [] => 0 | x :: _ => x.exp)
  (xs.foldl (fun a x => a + x.int * 2 ^ (x.exp - e).toNat) 0, e)

/-- The exact sum of values, none a NaN, and the flags: opposite infinities give NaN and NV (R213, R237). [zeroNeg] is
the sign of an exact zero sum. -/
def sumX (xs : List FVal) (zeroNeg : Bool) : XVal × Nat :=
  let ps := xs.any (fun x => x.isInf && !x.neg)
  let ns := xs.any (fun x => x.isInf && x.neg)
  if ps && ns then (.nan, flNV)
  else if ps || ns then (.inf ns, 0)
  else
    let (v, e) := sumFin xs
    if v = 0 then (.fin zeroNeg (.rat 0 1 0), 0)
    else (.fin (decide (v < 0)) (.rat v.natAbs 1 e), 0)

/-- The sign of an exact zero sum of two terms (R212). -/
def zeroSum2 (x y : FVal) (rnd : Rnd) : Bool :=
  if x.isZero && y.isZero && x.neg == y.neg then x.neg else rnd == .rm

/-- The product of two values, none a NaN; none for 0 × ∞ (R213). -/
def mulF (x y : FVal) : Option FVal :=
  match x, y with
  | .inf s, .inf r => some (.inf (s != r))
  | .inf s, .num r m _ => if m = 0 then none else some (.inf (s != r))
  | .num s m _, .inf r => if m = 0 then none else some (.inf (s != r))
  | .num s m e, .num r n k => some (.num (s != r) (m * n) (e + k))
  | _, _ => none

/-- Rounds an exact result and joins its flags to [fl]. -/
def finish (f : Fmt) (x : XVal) (fl : Nat) (rnd : Rnd) (sat : Bool) (u : Nat) : Nat × Nat :=
  let (b, fl2) := roundTo f x rnd sat u
  (b, fl ||| fl2)

/-- A + B (R212 to R214). -/
def fAdd (f : Fmt) (a b : FVal) (rnd : Rnd) (sat : Bool) (u : Nat) : Nat × Nat :=
  let fl := nvOf [a, b]
  if a.isNan || b.isNan then (f.nanBits, fl)
  else
    let (x, fl2) := sumX [a, b] (zeroSum2 a b rnd)
    finish f x (fl ||| fl2) rnd sat u

/-- A × B (R212 to R214). -/
def fMul (f : Fmt) (a b : FVal) (rnd : Rnd) (sat : Bool) (u : Nat) : Nat × Nat :=
  let fl := nvOf [a, b]
  if a.isNan || b.isNan then (f.nanBits, fl)
  else
    match mulF a b with
    | none => (f.nanBits, fl ||| flNV)
    | some p => finish f p.exact fl rnd sat u

/-- A × B + C, rounded once (R212 to R214). -/
def fFma (f : Fmt) (a b c : FVal) (rnd : Rnd) (sat : Bool) (u : Nat) : Nat × Nat :=
  let fl := nvOf [a, b, c]
  if a.isNan || b.isNan then (f.nanBits, fl)
  else
    match mulF a b with
    | none => (f.nanBits, fl ||| flNV)
    | some p =>
      if c.isNan then (f.nanBits, fl)
      else
        let (x, fl2) := sumX [p, c] (zeroSum2 p c rnd)
        finish f x (fl ||| fl2) rnd sat u

/-- The order of two values, none a NaN, with −0 and +0 equal: −1, 0 or 1. -/
def cmpF (x y : FVal) : Int :=
  match x, y with
  | .inf s, .inf r => if s == r then 0 else if s then -1 else 1
  | .inf s, _ => if s then -1 else 1
  | _, .inf r => if r then 1 else -1
  | _, _ =>
    let e := min x.exp y.exp
    let d := x.int * 2 ^ (x.exp - e).toNat - y.int * 2 ^ (y.exp - e).toNat
    if d < 0 then -1 else if d = 0 then 0 else 1

/-- R215: the operand that `fmin` (or `fmax`) returns, as bits. -/
def fMinMax (f : Fmt) (isMax nan : Bool) (a b : Nat) : Nat × Nat :=
  let x := decFloat f a
  let y := decFloat f b
  let fl := nvOf [x, y]
  if x.isNan || y.isNan then
    (if nan || (x.isNan && y.isNan) then f.nanBits else if x.isNan then b else a, fl)
  else
    let c := cmpF x y
    let aLow : Bool := if c = 0 then x.neg else decide (c < 0)
    (if c = 0 ∧ (!x.isZero || x.neg == y.neg) then a else if aLow != isMax then a else b, fl)

/-- R216: the condition and the flags. -/
def fCompare (f : Fmt) (cc : FCond) (a b : Nat) : Bool × Nat :=
  let x := decFloat f a
  let y := decFloat f b
  if x.isNan || y.isNan then
    match cc with
    | .ne | .nan => (true, nvOf [x, y])
    | .eq | .num => (false, nvOf [x, y])
    | _ => (false, flNV)
  else
    let c := cmpF x y
    (match cc with
     | .eq => c == 0
     | .ne => c != 0
     | .lt => decide (c < 0)
     | .le => decide (c ≤ 0)
     | .gt => decide (c > 0)
     | .ge => decide (c ≥ 0)
     | .num => true
     | .nan => false, 0)

/-- R217: the class bit. -/
def fClass (f : Fmt) (a : Nat) : Nat :=
  match decFloat f a with
  | .snan => 1
  | .qnan => 2
  | .inf s => if s then 4 else 512
  | .num s m _ =>
    if m = 0 then (if s then 32 else 64)
    else if m < 2 ^ f.t then (if s then 16 else 128)
    else if s then 8 else 256

/-- R218. -/
def fRound (f : Fmt) (a : Nat) (rnd : Rnd) (u : Nat) : Nat × Nat :=
  match decFloat f a with
  | .snan => (f.nanBits, flNV)
  | .qnan => (f.nanBits, 0)
  | .inf _ => (a, 0)
  | .num s m e =>
    let (c, _) := roundAt s (.rat m 1 e) 0 rnd u
    ((roundTo f (.fin s (.rat c 1 0)) .rn false 0).1, 0)

/-- R214: A × 2^n. Beyond ±4,000 the result rounds as at the true exponent. -/
def fScale (f : Fmt) (a : FVal) (n : Int) (rnd : Rnd) (sat : Bool) (u : Nat) : Nat × Nat :=
  match a with
  | .snan => (f.nanBits, flNV)
  | .qnan => (f.nanBits, 0)
  | .inf s => finish f (.inf s) 0 rnd sat u
  | .num s m e => finish f (.fin s (.rat m 1 (e + max (-4000) (min 4000 n)))) 0 rnd sat u

/-- R213, R219: 1 / A. -/
def fRcp (f : Fmt) (a : FVal) (rnd : Rnd) (u : Nat) : Nat × Nat :=
  match a with
  | .snan => (f.nanBits, flNV)
  | .qnan => (f.nanBits, 0)
  | .inf s => (if s then f.signBit else 0, 0)
  | .num s m e =>
    if m = 0 then finish f (.inf s) flDZ rnd false u
    else finish f (.fin s (.rat 1 m (-e))) 0 rnd false u

/-- A finite magnitude m × 2^e with an even exponent. -/
def evenExp (m : Nat) (e : Int) : Nat × Int := if e % 2 = 0 then (m, e) else (2 * m, e - 1)

/-- R213, R219: √A. -/
def fSqrt (f : Fmt) (a : FVal) (rnd : Rnd) (u : Nat) : Nat × Nat :=
  match a with
  | .snan => (f.nanBits, flNV)
  | .qnan => (f.nanBits, 0)
  | .inf s => if s then (f.nanBits, flNV) else (f.infBits, 0)
  | .num s m e =>
    if m = 0 then (if s then f.signBit else 0, 0)
    else if s then (f.nanBits, flNV)
    else
      let (m', e') := evenExp m e
      finish f (.fin false (.root m' 1 (e' / 2))) 0 rnd false u

/-! ### Integers (R44, R193) -/

def minValue (t : Ty) : Int := if t.signed then -(2 ^ (t.width - 1)) else 0
def maxValue (t : Ty) : Int := if t.signed then 2 ^ (t.width - 1) - 1 else 2 ^ t.width - 1

/-- The value of an integer type's bits (R44). -/
def intVal (t : Ty) (b : Nat) : Int :=
  let x := b % 2 ^ t.width
  if t.signed && decide (2 ^ (t.width - 1) ≤ x) then (x : Int) - 2 ^ t.width else x

/-- The bits of an integer in [n] bits, two's complement. -/
def wrap (n : Nat) (x : Int) : Nat := (x % 2 ^ n).toNat

/-- int_finish of R193. -/
def intFinish (t : Ty) (x : Int) (sat : Bool) : Nat × Nat :=
  if minValue t ≤ x ∧ x ≤ maxValue t then (wrap t.width x, 0)
  else if sat then (wrap t.width (max (minValue t) (min (maxValue t) x)), flSATF)
  else (wrap t.width x, if t.signed then flIOV else 0)

/-- float_to_int of R229. -/
def floatToInt (x : FVal) (t : Ty) (rnd : Rnd) (u : Nat) : Nat × Nat :=
  match x with
  | .snan | .qnan => (0, flNV)
  | .inf s => (wrap t.width (if s then minValue t else maxValue t), flSATF ||| flNX)
  | .num s m e =>
    let (c, inexact) := roundAt s (.rat m 1 e) 0 rnd u
    let y : Int := if s then -(c : Int) else c
    let z := max (minValue t) (min (maxValue t) y)
    (wrap t.width z, (if z ≠ y then flSATF ||| flNX else 0) ||| (if inexact then flNX else 0))

/-! ### Conversions (R228 to R231) -/

/-- One conversion of an element. -/
def convert (dt st : Ty) (a : Nat) (rnd : Rnd) (sat : Bool) (u : Nat) : Nat × Nat :=
  if st.isFloat then
    let x := decFloat (tyFmt st) (a % 2 ^ st.width)
    if dt.isFloat then finish (tyFmt dt) x.exact (nvOf [x]) rnd sat u
    else floatToInt x dt rnd u
  else
    let v := intVal st a
    if dt.isFloat then roundTo (tyFmt dt) (xInt v) rnd sat u else intFinish dt v sat

/-- R230, R231: the narrowed value, the residual and the flags. -/
def convertResidual (dt st : Ty) (a : Nat) (rnd : Rnd) (sat : Bool) (u : Nat) : Nat × Nat × Nat :=
  let fs := tyFmt st
  let fd := tyFmt dt
  let x := decFloat fs (a % 2 ^ st.width)
  let (q, fl0) := finish fd x.exact (nvOf [x]) rnd sat u
  if x.isNan then (q, fs.nanBits, fl0)
  else
    let y := decFloat fd q
    if x.isInf then (q, if y.isInf then 0 else a, fl0)
    else
      match y with
      | .num _ _ _ =>
        let (v, _) := sumX [x, y.flip] (zeroSum2 x y.flip .rn)
        let (r, fl2) := roundTo fs v .rn false 0
        (q, r, if fl0 &&& flSATF ≠ 0 then fl0 ||| (fl2 &&& flNX) else fl0)
      | _ => (q, a, fl0)

/-! ### Packed dot products and exact sums (R237, R238, R251) -/

/-- The float products of two packed registers, element by element; none for a NaN element or 0 × ∞. -/
def dotTerms (st : Ty) (a b : Nat) : List (Option FVal) :=
  (List.range st.perReg).map fun k =>
    let x := decFloat (tyFmt st) ((a >>> (k * st.width)) % 2 ^ st.width)
    let y := decFloat (tyFmt st) ((b >>> (k * st.width)) % 2 ^ st.width)
    if x.isNan || y.isNan then none else mulF x y

/-- The sign of an exact zero sum of several terms (R237). -/
def zeroSumN (xs : List FVal) (rnd : Rnd) : Bool := rnd == .rm || xs.all FVal.neg

/-- `dot4` and `dot8` over floats (R237). -/
def dotFloat (st : Ty) (a b c : Nat) (rnd : Rnd) (sat : Bool) (u : Nat) : Nat × Nat :=
  let z := decFloat fmtF32 c
  let fl := nvOf [z]
  let ts := dotTerms st a b
  if ts.any Option.isNone then (fmtF32.nanBits, fl ||| flNV)
  else
    let xs := ts.filterMap id
    if z.isNan then
      let bothInf := xs.any (fun x => x.isInf && x.neg) && xs.any (fun x => x.isInf && !x.neg)
      (fmtF32.nanBits, fl ||| (if bothInf then flNV else 0))
    else
      let (x, fl2) := sumX (xs ++ [z]) (zeroSumN (xs ++ [z]) rnd)
      finish fmtF32 x fl2 rnd sat u

/-- `dot4` over integers (R238). -/
def dotInt (st : Ty) (a b c : Nat) (sat : Bool) : Nat × Nat :=
  let t : Ty := if st.signed then .i32 else .n32
  let x := (List.range 4).foldl
    (fun acc k => acc + intVal st (a >>> (8 * k)) * intVal st (b >>> (8 * k))) (intVal t c)
  intFinish t x sat

/-- The exact f32 sum of a set of lanes (R251); the empty set gives +0 (R250). -/
def sumF32 (vs : List Nat) (rnd : Rnd) (sat : Bool) : Nat × Nat :=
  let xs := vs.map (decFloat fmtF32)
  if vs.isEmpty then (0, 0)
  else if xs.any FVal.isNan then (fmtF32.nanBits, flNV)
  else
    let (x, fl) := sumX xs (zeroSumN xs rnd)
    finish fmtF32 x fl rnd sat 0

/-! ### Format slots and block scales (R54 to R57) -/

/-- A format slot's fields (R54). -/
structure SlotWord where
  tscale : Nat
  pct : Nat
  stream : Nat
  cal : Bool
  rnd : Rnd
  sat : Bool
  rule : Bool
  scale : Nat
  elem : Ty
  deriving DecidableEq, Repr

def slotElem : Nat → Option Ty
  | 6 => some .i8 | 8 => some .f32 | 10 => some .f16 | 11 => some .bf16
  | 12 => some .e4m3 | 13 => some .e5m2 | 14 => some .e2m1
  | _ => none

def slotRnd : Nat → Option Rnd
  | 0 => some .rn | 1 => some .rz | 2 => some .rp | 3 => some .rm | 4 => some .ra | 5 => some .rs | 6 => some .ro
  | _ => none

/-- The block formats of R50. -/
def blockElem : Ty → Bool
  | .i8 | .e4m3 | .e5m2 | .e2m1 => true
  | _ => false

/-- The fields of a format slot, none when it is invalid (R55). -/
def slotOf (w : Nat) : Option SlotWord :=
  let ts := bits w 63 32
  let sc := bits w 13 12
  match slotElem (bits w 3 0), slotRnd (bits w 18 16) with
  | some el, some r =>
    let rule := bit w 14
    let tsOk := bits ts 31 31 = 0 ∧ bits ts 30 23 ≠ 0 ∧ bits ts 30 23 ≠ 255
    if bits w 23 22 ≠ 0 ∨ bits w 11 4 ≠ 0 ∨ sc = 3 ∨ (sc = 1 ∧ ¬ blockElem el) ∨ (rule ∧ sc ≠ 1) ∨
        (sc = 2 ∧ ¬ tsOk) ∨ (sc ≠ 2 ∧ ts ≠ 0) then none
    else some ⟨ts, bits w 31 24, bits w 21 20, bit w 19, r, bit w 15, rule, sc, el⟩
  | _, _ => none

/-- emax of R50, of the largest finite value otherwise. -/
def emaxOf : Ty → Int
  | .e4m3 => 8
  | .e5m2 => 15
  | .e2m1 => 2
  | .i8 => 0
  | .f16 => 15
  | _ => 127

/-- The histogram rule is in force (R57). -/
def SlotWord.hist (s : SlotWord) : Bool := s.rule && s.cal

/-- ⌊log2⌋ of a nonzero finite value. -/
def floorLog2F (x : FVal) : Int :=
  match x with
  | .num _ m e => (Nat.log2 m : Int) + e
  | _ => 0

def insertInt (x : Int) : List Int → List Int
  | [] => [x]
  | y :: ys => if x ≤ y then x :: y :: ys else y :: insertInt x ys

def sortInts (xs : List Int) : List Int := xs.foldr insertInt []

/-- block_scale of R57. Only ⌊log2⌋ of the chosen magnitude counts, and it rises with the magnitude. -/
def blockScale (vs : List FVal) (hist : Bool) (pct : Nat) (emax : Int) : Nat :=
  if vs.any (fun x => x.isNan || x.isInf) then 0xFF
  else
    let m := sortInts ((vs.filter (fun x => !x.isZero)).map floorLog2F)
    if m.isEmpty then 0
    else
      let k := if hist then ((pct + 1) * m.length + 255) / 256 else m.length
      (max 0 (min 254 (m.getD (k - 1) 0 - emax + 127))).toNat

/-- A value divided by its scale, exactly (R56). -/
def divScale (x : FVal) (s : SlotWord) (sc : Nat) : XVal :=
  match x with
  | .num neg m e =>
    if s.scale = 1 then .fin neg (.rat m 1 (e - ((sc : Int) - 127)))
    else if s.scale = 2 then
      match decFloat fmtF32 s.tscale with
      | .num _ tm te => .fin neg (.rat m tm (e - te))
      | _ => .nan
    else .fin neg (.rat m 1 e)
  | y => y.exact

/-- Narrowing through a slot (R56). A scale of 0xFF makes the element 0 (R57). -/
def narrowSlot (x : FVal) (s : SlotWord) (sc u : Nat) : Nat × Nat :=
  if s.scale = 1 ∧ sc = 0xFF then (0, 0)
  else
    let q := divScale x s sc
    if s.elem = .i8 then
      let lo : Int := if s.scale = 1 then -127 else -128
      match q with
      | .nan => (0, flNV)
      | .inf neg => (wrap 8 (if neg then lo else 127), flSATF ||| flNX)
      | .fin neg m =>
        let m' : Mag := match m with
          | .rat n d e => .rat n d (if s.scale = 1 then e + 6 else e)
          | y => y
        let (c, inexact) := roundAt neg m' 0 s.rnd u
        let v : Int := if neg then -(c : Int) else c
        let z := max lo (min 127 v)
        (wrap 8 z, (if z ≠ v then flSATF ||| flNX else 0) ||| (if inexact then flNX else 0))
    else roundTo (tyFmt s.elem) q s.rnd (if s.hist then true else s.sat) u

/-- The value of an element through a slot, exact (R50, R56). -/
def widenSlot (b : Nat) (s : SlotWord) (sc : Nat) : FVal :=
  if s.scale = 1 ∧ sc = 0xFF then .qnan
  else
    let x : FVal :=
      if s.elem = .i8 then
        let v := intVal .i8 b
        .num (decide (v < 0)) v.natAbs (if s.scale = 1 then -6 else 0)
      else decFloat (tyFmt s.elem) b
    match x with
    | .num neg m e =>
      if s.scale = 1 then .num neg m (e + (sc : Int) - 127)
      else if s.scale = 2 then (mulF x (decFloat fmtF32 s.tscale)).getD .qnan
      else .num neg m e
    | y => if s.scale = 2 then (mulF y (decFloat fmtF32 s.tscale)).getD .qnan else y

end Sys2Proof.Machine
end

