-- ==== Sys2Proof/Machine/Sparse.lean ====
section
/-!
DEFINITION. Sparse maps as plain data: pairs of a number and a value, keys strictly rising, no entry equal to the default
value; so equal maps are equal lists. Memory (spec/14 R261) is such a map of bytes.
-/

namespace Sys2Proof.Machine

/-- A sparse map from numbers; what an unlisted key reads as is said where the map is read. -/
abbrev Sparse (β : Type) := List (Nat × β)

/-- The value at a key, [d] where none is listed. -/
def sget {β : Type} (m : Sparse β) (k : Nat) (d : β) : β :=
  match m with
  | [] => d
  | (j, v) :: r => if j = k then v else sget r k d

/-- The map with the key removed. -/
def sdel {β : Type} (m : Sparse β) (k : Nat) : Sparse β :=
  match m with
  | [] => []
  | (j, v) :: r => if j = k then sdel r k else (j, v) :: sdel r k

/-- The map with the key listed. -/
def sins {β : Type} (m : Sparse β) (k : Nat) (x : β) : Sparse β :=
  match m with
  | [] => [(k, x)]
  | (j, v) :: r => if j = k then (k, x) :: r else if k < j then (k, x) :: (j, v) :: r else (j, v) :: sins r k x

/-- The map with a value at a key; the default value is not listed. -/
def sset {β : Type} [DecidableEq β] (m : Sparse β) (k : Nat) (x d : β) : Sparse β :=
  if x = d then sdel m k else sins m k x

/-- Keys strictly rise from [lo] on, and no value is the default. -/
def swfFrom {β : Type} [DecidableEq β] (d : β) (lo : Nat) : Sparse β → Bool
  | [] => true
  | (j, v) :: r => decide (lo ≤ j) && decide (v ≠ d) && swfFrom d (j + 1) r

/-- The canonical form of a map with default [d]. -/
def swf {β : Type} [DecidableEq β] (m : Sparse β) (d : β) : Bool := swfFrom d 0 m

/-! ### Memory -/

/-- Bytes by physical address. -/
abbrev Memory := List Host.Cell

/-- What an unlisted byte of memory reads as (notes/assumptions/4.md): 0, a DESIGN CHOICE. -/
def Memory.blank : BitVec 8 := 0

/-- One byte of memory. -/
def Memory.read (m : Memory) (a : Nat) : BitVec 8 := sget m a Memory.blank

/-- Memory with one byte written, in canonical form. -/
def Memory.write (m : Memory) (a : Nat) (b : BitVec 8) : Memory := sset m a b Memory.blank

/-- The canonical form of memory. -/
def Memory.wf (m : Memory) : Bool := swf m Memory.blank

/-- [n] bytes from an address on. -/
def Memory.readBytes (m : Memory) (a n : Nat) : List (BitVec 8) := (List.range n).map fun k => m.read (a + k)

/-- Memory with bytes written from an address on. -/
def Memory.writeBytes (m : Memory) (a : Nat) (bs : List (BitVec 8)) : Memory :=
  match bs with
  | [] => m
  | b :: r => Memory.writeBytes (m.write a b) (a + 1) r

/-- Memory with listed bytes written, in order. -/
def Memory.writeCells (m : Memory) (cs : List Host.Cell) : Memory :=
  cs.foldl (fun acc c => acc.write c.1 c.2) m

/-- The little-endian number of bytes (R43). -/
def leNat (bs : List (BitVec 8)) : Nat := bs.foldr (fun b acc => b.toNat + 256 * acc) 0

/-- The [n] little-endian bytes of a number (R43). -/
def leBytes (n x : Nat) : List (BitVec 8) := (List.range n).map fun k => BitVec.ofNat 8 (x >>> (8 * k))

end Sys2Proof.Machine
end

