-- ==== Sys2Proof/Machine/State.lean ====
section
/-!
DEFINITION. The state of the machine as plain data: everything that the spec gives the device, its virtual interfaces,
launches, cores, blocks and warps, the reasons a step can stop, and the machine right after reset (INVENTORY.md,
"State"). Lane sets are masks of 32 bits, bit l for lane l; threads of a block are bits of its linear thread index.
-/

namespace Sys2Proof.Machine

/-! ### Names of parties and access classes -/

/-- A party of the race rule (R18, R356): a warp by its logical name, warp 63 for the window party, launch 0 for the
host party of the interface. -/
structure Party where
  vi : Nat
  launch : Nat
  block : Nat
  warp : Nat
  deriving DecidableEq, Repr

/-- The classes of access (R342). -/
inductive AccClass where
  | data | acquire | release | count | accumulate | exchange | monotone
  deriving DecidableEq, Repr

/-! ### Race detection -/

/-- A word's mark at home (R362): its writer with interval and class, and its reader or the summary of its readers. -/
structure WordMark where
  writer : Option (Party × Nat × AccClass)
  many : Bool
  rsync : Bool
  reader : Option (Party × Nat)
  rstamp : Nat
  deriving DecidableEq, Repr

/-- Where the full marks of a line stand (R361, R372); compact marks stand in the side bits (`State.sides`, R371). -/
inductive MarkPlace where
  | store | overflow
  deriving DecidableEq, Repr

/-- An entry of a slice's alias table (R363): slice, number, party and the die of its record. -/
structure Alias where
  slice : Nat
  num : Nat
  party : Party
  die : Nat
  deriving DecidableEq, Repr

/-- The marks of a line: 16 words. -/
structure LineMarks where
  line : Nat
  vi : Nat
  words : List WordMark
  place : MarkPlace
  deriving DecidableEq, Repr

/-- What an interval record says of its warp (R358). -/
inductive PartyState where
  | resident | saved | exited
  deriving DecidableEq, Repr

/-- A past interval: start stamp, end stamp, and the commands handed over in it that are not complete; while one is not, the
end stamp is still to come (R347). -/
structure PastInt where
  s : Nat
  e : Nat
  busy : List Nat
  deriving DecidableEq, Repr

/-- An interval record (R358), with the last 15 past intervals, newest first, of which the core keeps stamps too (R367), and the commands
handed over in the current one that are not complete (R347). -/
structure IntRec where
  party : Party
  status : PartyState
  cur : Nat
  start : Nat
  past : List PastInt
  busy : List Nat
  deriving DecidableEq, Repr

/-- A scratchpad word's readers (R366). -/
inductive SpReader where
  | none
  | one (w : Nat)
  | many
  deriving DecidableEq, Repr

/-- A scratchpad word's mark (R366): writer warp and interval tag, readers, and whether every entry is of class count. -/
structure SpMark where
  writer : Option (Nat × Nat)
  reader : SpReader
  cnt : Bool
  deriving DecidableEq, Repr

/-- The mark 0xFFFF of a zero-filled page: no writer and no reader (R366). -/
def SpMark.empty : SpMark := ⟨none, .none, true⟩

/-! ### Caches -/

/-- A cached line of a read-only path: line number, its 64 bytes, and the ordering-clock value of its fill (R259, R99). -/
structure CLine where
  line : Nat
  bytes : List Byte
  t : Nat
  deriving DecidableEq, Repr

/-- A clean copy of the L1 (R263) with its fill stamp, whether the line was poisoned as it was read (R431), and the
registration bits RG.R and RG.W by warp slot index (R365). -/
structure CleanLine where
  line : Nat
  vi : Nat
  bytes : List Byte
  tf : Nat
  poison : Bool
  rgR : List Nat
  rgW : List Nat
  deriving DecidableEq, Repr

/-- A cached translation (R259): VI, page base, page size, entry, and the address that the entry names. -/
structure TlbEntry where
  vi : Nat
  va : Nat
  size : Nat
  pte : Nat
  pa : Nat
  deriving DecidableEq, Repr

/-- A line present in the L2 (R262), with the tensor handle it is marked with (R267). -/
structure L2Line where
  line : Nat
  handle : Option (Nat × Nat)
  deriving DecidableEq, Repr

/-! ### Stops -/

/-- A stop with what its trap frame will hold (R420, R426). [discard]: a region stop that discards its region, whose PCs
are those of the entry state, and [gone]: that has discarded it already; [counts]: the return counts a re-entry (R157, R489, R490). -/
structure Stop where
  cause : Nat
  rgn : Bool
  discard : Bool
  gone : Bool
  pc : Nat
  rpc : Nat
  fpc : Nat
  lanes : Nat
  sub : Nat
  addr : Nat
  code : Nat
  hwbp : Bool
  flags : Nat
  counts : Bool
  record : List Nat
  deriving DecidableEq, Repr

/-- Trap mode (R424): the handler subgroup, the region's entry to which a return counts a re-entry (R157, R172), and the word
of a hardware breakpoint stop (R467). -/
structure TrapCtx where
  sub : Nat
  counts : Option Nat
  hwbp : Option Nat
  deriving DecidableEq, Repr

/-! ### Warps -/

/-- PCT.STATE (R129). -/
inductive EState where
  | ready | waiting | parked
  deriving DecidableEq, Repr

/-- What an entry waits on (R129, R130). -/
inductive WaitOn where
  | none
  | rcv (b : Nat)
  | bar (b : Nat)
  | gbar
  | wsync
  /-- the lanes of a barrier's [k]-th completion, until the interval before their departure can close (R145, R347) -/
  | leaving (k : Nat)
  | service
  deriving DecidableEq, Repr

/-- An entry of the PC table (R129). -/
structure PctEntry where
  pc : Nat
  mask : Nat
  state : EState
  on : WaitOn
  age : Nat
  deriving DecidableEq, Repr

/-- The word being executed: warp, active lanes with exit helpers, the entry's own lanes, PC and bits; [given] holds the
captured sources, by lane and number, of a word that is re-injected (R173). -/
structure Issue where
  w : Nat
  active : Nat
  mask : Nat
  pc : Nat
  word : DWord
  given : Option (List (Nat × Nat × Word))
  deriving DecidableEq, Repr

/-- What holds a whole warp (R74, R177, R397, R309, R401, R412, R430). -/
inductive Hold where
  | none
  /-- `sleep`, until this value of the ordering clock, with its issue -/
  | sleep (t : Nat) (x : Issue)
  /-- `waitw` or `cbw.wait`, with the word and its issue -/
  | word (i : Instr) (x : Issue)
  /-- an access staged or held at its home, with its number in `State.staged` -/
  | staged (k : Nat)
  /-- a closing word that waits for its region's commit before it is performed (R145), with its issue -/
  | commit (x : Issue)
  /-- a breakpoint or single-step stop with no handler (R430) -/
  | goisto
  deriving DecidableEq, Repr

/-- The counters `l`, `s`, `c` and `t` (R141). -/
inductive Counter where
  | l | s | c | t
  deriving DecidableEq, Repr

/-- An operation that a counter counts (R141, R142): number, region, completion. -/
structure CntOp where
  id : Nat
  region : Nat
  done : Bool
  deriving DecidableEq, Repr

/-- Registers and predicates that a word writes: vector registers keyed 32 × register + lane, scalar registers, and
predicate lanes with their values. -/
structure Writes where
  v : List (Nat × Word)
  s : List (Nat × Word)
  p : List (Nat × Nat × Nat)
  deriving DecidableEq, Repr

/-- A replay queue entry's content (R428): word, PC, lanes, captured sources by lane. -/
structure ReplayEntry where
  word : DWord
  pc : Nat
  mask : Nat
  nsrc : Nat
  src : List (Nat × Nat × Word)
  deriving DecidableEq, Repr

/-- A pending result (R140): the registers recorded, the values, whether they have come, whether `l` counts it, and its
replay entry when R427 admits it. Registers are numbered as in `Region.readFirst`. -/
structure Pend where
  id : Nat
  regs : List Nat
  writes : Writes
  ready : Bool
  replay : Option ReplayEntry
  deriving DecidableEq, Repr

/-- A dirty copy's state (R263, R151, R153). -/
inductive DirtyState where
  | region | committing | committed
  deriving DecidableEq, Repr

/-- A warp's dirty copy of a line: the bytes written by offset, its virtual address, the PC and lanes of the last store to
each word, and whether it stands in the region overflow buffer (R152). -/
structure DirtyLine where
  line : Nat
  vline : Nat
  bytes : Sparse Byte
  who : List (Nat × Nat × Nat)
  state : DirtyState
  ovf : Bool
  nt : Bool
  deriving DecidableEq, Repr

/-- A buffered or pending global atomic lane (R151, R403): addresses, operands, class and sequence number. -/
structure AtomReq where
  rmt : Option Nat
  pa : Nat
  va : Nat
  pc : Nat
  op : AtomOp
  ty : AtomTy
  b : Nat
  c : Nat
  cls : AccClass
  block : Nat
  warp : Nat
  lane : Nat
  count : Nat
  deriving DecidableEq, Repr

/-- A buffered scratchpad atomic lane (R385): target block and offset, and whether it is remote. -/
structure SpAtomReq where
  pc : Nat
  blk : Nat
  off : Nat
  remote : Bool
  op : AtomOp
  ty : AtomTy
  b : Nat
  c : Nat
  cls : AccClass
  warp : Nat
  lane : Nat
  count : Nat
  deriving DecidableEq, Repr

/-- A reconvergence barrier (R134). -/
structure RcvBar where
  exp : Nat
  arr : Nat
  deriving DecidableEq, Repr

/-- What a discard returns to its region-entry value (R155). -/
structure Snap where
  pct : List PctEntry
  exited : Nat
  fpstat : Nat
  draws : Sparse Nat
  accs : Sparse Nat
  hist : Sparse Nat
  nonfin : Bool
  rcv : List RcvBar
  part : Nat
  sig : Nat
  icount : Nat
  deriving DecidableEq, Repr

/-- What a service is asked for: a scratchpad page of a block (R91), or the translation of an address for reading, writing,
fetching, or both reading and writing (R271), coded 0 to 3. -/
inductive NeedOf where
  | page (b p : Nat)
  | xlat (va use : Nat)
  deriving DecidableEq, Repr

/-- A service that parked lanes wait for (R135), with the PC and address that a failure reports; without lanes, one that a
re-injected load waits for (R172, R173), with the cause of its failure and a record. -/
structure Need where
  lanes : Nat
  what : NeedOf
  fpc : Nat
  addr : Nat
  failed : Option (Nat × List Nat)
  deriving DecidableEq, Repr

/-- The scalar registers that are held for a set of parked lanes (R136), until the lanes that are left of it have each committed a
region after number [seq]. -/
structure ScalHold where
  seq : Nat
  lanes : Nat
  regs : List Nat
  deriving DecidableEq, Repr

/-- A region (R144 to R151): number, entry state, read-first and written registers (vN as N, sN as 1,536 + N, pN as
2,048 + N), words issued and their lanes, scratchpad words read before written as (block, word), buffered atomics, the
operations of `s`, and what it does when it commits. -/
structure Region where
  seq : Nat
  entry : Snap
  readFirst : List Nat
  written : List Nat
  issued : Nat
  lanes : Nat
  inTrap : Bool
  spRead : List (Nat × Nat)
  spWrit : List (Nat × Nat)
  spFull : Bool
  atoms : List AtomReq
  spAtoms : List SpAtomReq
  cmds : List Nat
  stores : List Nat
  recs : List (Nat × Nat × Nat × Nat)
  clears : List Nat
  evicts : List Nat
  ctrStores : List (Nat × Nat)
  flush : Option Nat
  odone : Bool
  mclear : Bool
  stream : Nat
  compared : Bool
  failed : Option Stop
  deriving DecidableEq, Repr

/-- A warp (R12) of a started or saved block. -/
structure Warp where
  vi : Nat
  launch : Nat
  block : Nat
  windex : Nat
  party : Party
  present : Nat
  helpers : Nat
  exited : Nat
  ended : Bool
  sregs : Sparse Word
  vregs : Sparse Word
  preds : Sparse Nat
  pct : List PctEntry
  rcv : List RcvBar
  wsyncMask : Nat
  wsyncArr : Nat
  part : Nat
  opsL : List CntOp
  opsS : List CntOp
  opsC : List CntOp
  opsT : List CntOp
  pend : List Pend
  fpstat : Nat
  fptrap : Nat
  dbgctl : Nat
  commits : Nat
  splits : Nat
  icount : Nat
  draws : Sparse Nat
  accs : Sparse Nat
  hist : Sparse Nat
  nonfin : Bool
  mflags : Nat
  merr : Option (Nat × Nat)
  mcont : Option (List Nat)
  sig : Nat
  region : Region
  older : Option Region
  dirty : List DirtyLine
  reentry : Nat
  reentries : Nat
  trap : Option TrapCtx
  stop : Option Stop
  deferred : Option Stop
  holds : List ScalHold
  needs : List Need
  hold : Hold
  wdog : Nat
  recover : Option Nat
  firstIssue : Option Nat
  lastIssue : Nat
  /-- PC and active lanes of the word issued last (R475) -/
  lastWord : Nat × Nat
  stall : Nat
  /-- no word has issued since a region was discarded (stall reason 11 of R133) -/
  reentering : Bool
  /-- a boundary has been placed for the decrement of a completion word by a command of the warp (R145) -/
  bounding : Bool
  /-- the closing word at hand, counted in `l` or `s` since its issue (R141) -/
  sync : Option (Counter × Nat)
  /-- a stop that comes while another is pending, taken after it -/
  later : List Stop
  fbuf : List CLine
  constSeen : List Nat
  declared : Bool
  pins : List (Nat × Nat)
  forwarded : List Writes
  /-- lanes that resume from a hardware breakpoint stop, and its word (R467) -/
  bpskip : Option (Nat × Nat)
  deriving DecidableEq, Repr

/-! ### Blocks and cores -/

/-- An entry of the scratchpad map (R90). -/
structure SpEntry where
  p : Bool
  d : Bool
  b : Bool
  win : Bool
  wr : Bool
  winix : Nat
  ref : Bool
  slot : Nat
  frame : Nat
  deriving DecidableEq, Repr

def SpEntry.empty : SpEntry := ⟨false, false, false, false, false, 0, false, 0, 0⟩

/-- A page's content: bytes by offset, marks by word, and a poison bit by word (R91, R451); the read bits by line as warp
masks in a frame, the read tags by 32 × line + warp in a backing slot, 15 where none is listed (R367). -/
structure Page where
  data : Sparse Byte
  marks : Sparse SpMark
  reads : Sparse Nat
  poison : Nat
  deriving DecidableEq, Repr

def Page.empty : Page := ⟨[], [], [], 0⟩

/-- An arrival at a barrier that waits for the next phase (R391): warp, lanes, count, form, and the PC of its word. -/
structure LateArr where
  w : Nat
  lanes : Nat
  n : Nat
  post : Bool
  pc : Nat
  deriving DecidableEq, Repr

/-- A named barrier (R391): expected count, arrived count, arrived threads, and which of them wait in `join`; [later]
are the arrivals of the next phase. -/
structure NBar where
  exp : Nat
  arr : Nat
  mask : Nat
  join : Nat
  later : List LateArr
  deriving DecidableEq, Repr

def NBar.idle : NBar := ⟨0, 0, 0, 0, []⟩

/-- Where a block stands (R83, R84, R435, R442). -/
inductive BlockState where
  | queued | resident | saved | retired
  deriving DecidableEq, Repr

/-- A save area (R438 to R441): its chunks as 512 dwords each, before encryption, and their tags. -/
structure SaveArea where
  chunks : List (List Nat)
  tags : List Nat
  deriving DecidableEq, Repr

/-- A block that a launch has dispatched: copy 1 is the secondary of a redundant pair (R444). -/
structure Block where
  vi : Nat
  launch : Nat
  lin : Nat
  copy : Nat
  twin : Option Nat
  core : Nat
  state : BlockState
  saves : Nat
  area : Option SaveArea
  map : Sparse SpEntry
  bars : List NBar
  gbar : NBar
  units : List Nat
  mqs : Sparse Nat
  heldAcc : List SpAtomReq
  acc : Sparse A80
  mqData : Sparse (List (List Byte))
  poisoned : List Nat
  failed : Nat
  /-- what `%gangspan` reads (R89) -/
  span : Nat
  deriving DecidableEq, Repr

/-- A command of the copy queue (R302, R303): descriptor dwords with a started gather's indices after them, hand-off with the
physical address of the completion word that it has incremented, interval, the next chunk, and the error. -/
structure CopyCmd where
  id : Nat
  warp : Nat
  blk : Nat
  kind : Nat
  desc : List Nat
  pc : Nat
  rpc : Nat
  handed : Bool
  cbw : Option Nat
  int : Nat
  next : Nat
  running : Bool
  err : Option Nat
  deriving DecidableEq, Repr

/-- The kinds of matrix commands (R325). -/
inductive MatKind where
  | mmac (mpb : List Nat)
  | st (data scale row n fmt : Nat) (raw : Bool)
  | ld (data scale row n fmt : Nat) (raw add : Bool)
  | zero (row n : Nat)
  | rd (reg row col mask : Nat) (rt : MaccRt) (rnd : Rnd)
  | mq (v : Nat) (q : Nat) (reg : Option Nat)
  deriving DecidableEq, Repr

/-- A command of the matrix queue (R322); [next]: the k-blocks, or rows of a `macc.st`, that are done; [idx]: the indices of a started
gather (R314); [stalled]: since when a sparse command stalls (R316); [old]: by offset, values that stores have replaced since its
hand-off where it still reads (R324), and for a `macc.st` those that it has replaced itself (R337); [word]: its instruction word (R455). -/
structure MatCmd where
  id : Nat
  warp : Nat
  blk : Nat
  kind : MatKind
  pc : Nat
  rpc : Nat
  handed : Bool
  cbw : Option Nat
  int : Nat
  next : Nat
  running : Bool
  idx : List Nat
  stalled : Option Nat
  err : Option Nat
  old : List (Nat × Byte)
  word : DWord
  deriving DecidableEq, Repr

/-- The command writes the scratchpad. -/
def MatCmd.writes (c : MatCmd) : Bool := match c.kind with | .st _ _ _ _ _ _ => true | _ => false

/-- The command has to end before a pre-emption stops the engine: a `macc` that has begun, or an `mmac` with no k-block left or with an
error (R338, R454). -/
def MatCmd.finishing (c : MatCmd) : Bool :=
  match c.kind with
  | .mmac m => c.err.isSome || (c.running && decide (bits (m.getD 0 0) 15 0 ≤ c.next))
  | _ => c.running

/-- The command reads the scratchpad. -/
def MatCmd.reads (c : MatCmd) : Bool := match c.kind with | .mmac _ => true | .ld _ _ _ _ _ _ _ => true | _ => false

/-- A frame (R90): the block and page it holds, and the content. -/
structure Frame where
  blk : Nat
  pg : Nat
  page : Page
  deriving DecidableEq, Repr

/-- An entry of the remote mark table (R368). -/
structure RemMark where
  blk : Nat
  word : Nat
  mark : WordMark
  deriving DecidableEq, Repr

/-- A request at a core's port or on its way to a home (R95, R153, R303): the write intent of a line, a buffered atomic, or
the increment of a completion word at hand-off; [region] is the region that carries it. -/
inductive ReqKind where
  | intent (d : DirtyLine)
  | atomic (a : AtomReq)
  | incr (cmd va pa pc lanes : Nat)
  deriving DecidableEq, Repr

structure Req where
  core : Nat
  vi : Nat
  warp : Nat
  region : Nat
  kind : ReqKind
  deriving DecidableEq, Repr

/-- A core (R80). -/
structure Core where
  enabled : Bool
  queue : List Nat
  frames : Sparse Frame
  hand : Nat
  clean : List CleanLine
  ovfWarp : Option Nat
  cc : List CLine
  ic : List CLine
  tlb : List TlbEntry
  copyq : List CopyCmd
  matq : List MatCmd
  freeUnits : List Nat
  freeMqs : List Nat
  remote : List RemMark
  tokens : Sparse Int
  port : List Req
  /-- the registration bits of the warps' dirty copies that are set: warp, line, and whether it is RG.W (R365) -/
  rg : List (Nat × Nat × Bool)
  /-- the cycle of the ordering clock from which the port can send its next line (R96) -/
  portAt : Nat
  lastVi : Nat
  grant : Nat
  credit : Nat
  lastGrant : Nat
  lfsr : List Nat
  nextSample : List Nat
  /-- the issue cycles of the four sections (R132) -/
  cycles : List Nat
  deriving DecidableEq, Repr

/-! ### Launches and virtual interfaces -/

/-- An update of the ordered accumulation (R404, R406). -/
structure AccUpd where
  req : AtomReq
  launch : Nat
  deferred : Bool
  deriving DecidableEq, Repr

/-- An operation of the order log (R408, R411): the address, or none for a warp's value, with kind, counter and value;
the requester is the block and warp, the host party as warp 0 of block 2^40 − 1. -/
structure LogOp where
  slice : Nat
  addr : Option Nat
  block : Nat
  warp : Nat
  kind : Nat
  ctr : Nat
  value : Nat
  upd : Option AtomReq
  deriving DecidableEq, Repr

/-- OLH.STATE (R410). -/
inductive LogState where
  | off | open_ | closed | diverged | truncated
  deriving DecidableEq, Repr

/-- A launch's log: the header page, its state, the operations logged since, and in replay the operations still to come
with, by address, how many are done, when the last was, and by warp the values read (R410 to R414). -/
structure OrdLog where
  state : LogState
  head : Nat
  next : Nat
  ops : List LogOp
  expect : List LogOp
  done : Sparse Nat
  since : Sparse Nat
  diverged : Bool
  deriving DecidableEq, Repr

/-- Where a launch stands (R71 to R73). -/
inductive LaunchState where
  | queued | running | ended
  deriving DecidableEq, Repr

/-- An accepted launch (R69, R71). -/
structure Launch where
  vi : Nat
  num : Nat
  queue : Nat
  rcd : List Nat
  accepted : Nat
  state : LaunchState
  eligible : Option Nat
  lastDisp : Nat
  next : Nat
  returned : List Nat
  started : List Nat
  retired : List Nat
  declared : List Nat
  failed : Nat
  defAddrs : List Nat
  defUsed : Nat
  defUpds : List AccUpd
  typed : List (Nat × AtomTy)
  phase : Nat
  log : OrdLog
  armed : List Nat
  stopped : Bool
  /-- the last end stamp of its parties, once it has ended (R363) -/
  lastEnd : Nat
  deriving DecidableEq, Repr

/-- The counter page (R469 to R474): CSEL, CCTL, CLOST, the counts with their overflow flags, the active group (4: none)
and the time its slice began. -/
structure CtrPage where
  csel : Sparse Nat
  cctl : Nat
  clost : Nat
  counts : Sparse Nat
  ovf : Nat
  group : Nat
  sliceStart : Nat
  deriving DecidableEq, Repr

/-- A tensor handle's binding (R267). -/
structure Binding where
  base : Nat
  len : Nat
  prio : Nat
  deriving DecidableEq, Repr

/-- A virtual interface (R62, R65). -/
structure Vi where
  configured : Bool
  cfg : ViConfig
  fifo : List Byte
  applied : Nat
  frozen : Bool
  cause : Nat
  lastNum : Nat
  rdDone : Nat
  rdBuf : List Byte
  numbers : Nat
  queues : List (List Nat)
  vtime : Nat
  lastq : Nat
  eligible : Bool
  handles : Sparse Binding
  bpc : Sparse Nat
  bpf : Sparse Nat
  bpb : Sparse Nat
  ctr : CtrPage
  /-- the backing slots in use, each with the poison of its words; their pages stand in device memory (R93, R451) -/
  slots : Sparse Nat
  trbHead : Nat
  lost : Nat
  resetting : Bool
  msix : Nat
  deriving DecidableEq, Repr

/-! ### The module -/

/-- The code of a bank of HBM4 (R448, R450): while it is being vacated, the device time of the request. -/
inductive BankCode where
  | normal
  | vacating (since : Nat)
  | strong
  deriving DecidableEq, Repr

/-- A bank with the corrected errors of the scrub period (R449). -/
structure Bank where
  errors : Nat
  code : BankCode
  deriving DecidableEq, Repr

/-- A cluster (R447, R452, R453): mismatches counted, suspect, under test, removed, when it last passed, and the blocks, by
launch and linear index, that have run on it since. -/
structure Cluster where
  mismatches : Nat
  suspect : Bool
  testing : Bool
  removed : Bool
  lastPass : Nat
  ran : List (Nat × Nat)
  deriving DecidableEq, Repr

/-- A Culvert link (R480). -/
structure Link where
  fails : Nat
  down : Bool
  deriving DecidableEq, Repr

/-- A scale-up port (R482, R433): in link recovery since a time, or failed. -/
structure Port where
  recovering : Option Nat
  failed : Bool
  deriving DecidableEq, Repr

/-- A shootdown in progress (R274): VI, range, write-back, and the agents that have not acknowledged. -/
structure Shoot where
  vi : Nat
  va : Nat
  len : Nat
  wb : Bool
  left : List Nat
  deriving DecidableEq, Repr

/-- A pre-emption in progress (R435, R437): its blocks, the units that have not acknowledged, and whether it is a freeze. -/
structure Preempt where
  vi : Nat
  scope : PreemptScope
  blocks : List Nat
  left : List Nat
  freeze : Bool
  deriving DecidableEq, Repr

/-- An access staged or held at its home (R401, R412): the word and its issue with the words and virtual addresses that it
reaches, or the window write-back of a block's pages with its bytes and their poison; in arrival order, released ones first. -/
structure Staged where
  id : Nat
  launch : Nat
  block : Nat
  warp : Nat
  ins : Instr
  iss : Issue
  addrs : List Nat
  vas : List Nat
  cls : AccClass
  bytes : List (Nat × Byte × Bool)
  released : Bool
  deriving DecidableEq, Repr

/-- A record handed to the Flume (R463, R464): the interface and its dwords. -/
structure FlumeRec where
  vi : Nat
  words : List Nat
  deriving DecidableEq, Repr

/-- The step of power-on (R488). -/
inductive BootState where
  | off | ready | recovery
  deriving DecidableEq, Repr

/-- A configuration record slot of flash (R484): its dwords and whether its signature and certificate check. -/
structure FlashSlot where
  words : List Nat
  good : Bool
  deriving DecidableEq, Repr

/-- What an uncorrectable error strikes in a memory of the chip (R451): a line or its marks in its slice, a dirty copy in an L1, a word of a
scratchpad or its mark, a cell of the accumulator store, or the registers, the PC table or the trap area of a warp. -/
inductive Upset where
  | line (pa : Nat)
  | copy (w line : Nat)
  | word (b off : Nat)
  | cell (b row col : Nat)
  | warp (w : Nat)
  deriving DecidableEq, Repr

/-- What the next step does: an issue of the section of warp [w], in which the warps of [late] have to wait for a fetched line or
for the pipeline, with their stall reasons (R132, R133), an event of spec/95, an uncorrectable error, or time passing; the model's own data (notes/assumptions/6.md). -/
inductive Turn where
  | issue (w : Nat) (late : List (Nat × Nat))
  | event (i : Instr)
  | error (u : Upset)
  | pass (cycles ns : Nat)
  deriving DecidableEq, Repr

/-- The machine. -/
structure State where
  clock : Nat
  devTime : Nat
  ptpLocked : Bool
  ptpStepped : Bool
  boot : BootState
  flash : List FlashSlot
  cfg : List Nat
  measured : List Nat
  moduleFailed : Bool
  cores : List Core
  vis : List Vi
  launches : List Launch
  blocks : List Block
  warps : List Warp
  mem : Memory
  poison : List Nat
  l2 : List L2Line
  marks : List LineMarks
  recs : List IntRec
  floors : List (Nat × Nat)
  aliases : List Alias
  /-- the side bits of the lines outside the L2 that are not zero (R371) -/
  sides : Sparse Nat
  /-- the records that the mark overflow area of a slice holds at most (R372) -/
  ovfRoom : Nat
  endCache : List (Party × Nat × Nat)
  net : List Req
  staged : List Staged
  holding : List AccUpd
  waiting : List AccUpd
  banks : Sparse Bank
  clusters : Sparse Cluster
  links : Sparse Link
  ports : Sparse Port
  hot : List Nat
  shoot : List Shoot
  walk : List (Nat × TlbEntry)
  preempts : List Preempt
  flume : List FlumeRec
  scrubLine : Nat
  lastRefill : Nat
  lastFloor : Nat
  lastTick : Nat
  lastGrantAt : Nat
  /-- the microsecond of device time in which the Flume last wrote a record of spec/32, and the bytes of them written in it
  (R476) -/
  rateAt : Nat
  rateUsed : Nat
  sent : List (List Nat)
  nextId : Nat
  freeCtr : Nat
  agenda : List Turn
  cur : Option Issue
  deriving DecidableEq, Repr

/-! ### Reasons to stop -/

/-- Why the machine stops with a fault. -/
inductive Fault where
  /-- An instruction word is executed while no word is at issue: raised by the meaning of an instruction word when
  `State.cur` is none. `step` never does so. Safe: the machine stops. -/
  | noWord
  deriving DecidableEq, Repr

/-- Why there is no meaning. -/
inductive Refusal where
  /-- An instruction that the model has no meaning for yet: raised by `exec`. Safe: the machine stops. -/
  | notModelled (mnemonic : String)
  deriving DecidableEq, Repr

/-! ### Reset (R488; notes/assumptions/2.md to 6.md) -/

def OrdLog.off : OrdLog := ⟨.off, 0, 0, [], [], [], [], false⟩

def CtrPage.reset : CtrPage := ⟨[], 0, 0, [], 0, 4, 0⟩

def noConfig : ViConfig := ⟨[], 0, 0, 0, 0, 0, 0, 0, 0, 0, 0, 0, 0, 0⟩

def Vi.reset : Vi where
  configured := false
  cfg := noConfig
  fifo := []
  applied := 0
  frozen := false
  cause := 0
  lastNum := 0
  rdDone := 0
  rdBuf := []
  numbers := 0
  queues := []
  vtime := 0
  lastq := 0
  eligible := false
  handles := []
  bpc := []
  bpf := []
  bpb := []
  ctr := CtrPage.reset
  slots := []
  trbHead := 0
  lost := 0
  resetting := false
  msix := 0

/-- The sampling generators of a core's sections (R475). -/
def coreLfsr (n : Nat) : List Nat :=
  (List.range 4).map fun sec => Nat.xor 0xACE1 (n / 40 * 160 + n % 40 * 4 + sec)

def Core.reset (n : Nat) : Core where
  enabled := true
  queue := []
  frames := []
  hand := 0
  clean := []
  ovfWarp := none
  cc := []
  ic := []
  tlb := []
  copyq := []
  matq := []
  freeUnits := List.range 8
  freeMqs := List.range 4
  remote := []
  tokens := []
  port := []
  rg := []
  portAt := 0
  lastVi := 0
  grant := 32
  credit := 0
  lastGrant := 0
  lfsr := coreLfsr n
  nextSample := [0, 0, 0, 0]
  cycles := [0, 0, 0, 0]

/-- The configuration record slots at reset: one valid record in slot 0 (notes/assumptions/3.md). -/
def flashReset : List FlashSlot :=
  [⟨[0x4346_4731_0001_0001, 2 ^ 40 - 1, 2 ^ 40 - 1, 2 ^ 40 - 1, 2 ^ 40 - 1, 2800 * 256, 1024, 20, 0, 0, 0, 0, 0, 0, 0, 0],
    true⟩, ⟨[], false⟩]

/-- The module right after reset, before the first step of power-on (R488). -/
def State.reset : State where
  clock := 0
  devTime := 0
  ptpLocked := false
  ptpStepped := false
  boot := .off
  flash := flashReset
  cfg := []
  measured := []
  moduleFailed := false
  cores := (List.range 160).map Core.reset
  vis := List.replicate 64 Vi.reset
  launches := []
  blocks := []
  warps := []
  mem := []
  poison := []
  l2 := []
  marks := []
  recs := []
  floors := []
  aliases := []
  sides := []
  ovfRoom := 65536
  endCache := []
  net := []
  staged := []
  holding := []
  waiting := []
  banks := []
  clusters := []
  links := []
  ports := []
  hot := []
  shoot := []
  walk := []
  preempts := []
  flume := []
  scrubLine := 0
  lastRefill := 0
  lastFloor := 0
  lastTick := 0
  lastGrantAt := 0
  rateAt := 0
  rateUsed := 0
  sent := []
  nextId := 0
  freeCtr := 0
  agenda := []
  cur := none

end Sys2Proof.Machine
end

