-- ==== Sys2Proof/Machine/Context.lean ====
section
/-!
DEFINITION. Access to the parts of the state: warps, blocks, cores, launches and interfaces by number, the fields of a
launch record (spec/04 R69), the geometry of blocks and warps (spec/01 R13 to R15), registers (spec/06 R103, R104), the PC
table (spec/07 R129 to R131) and the records of the Flume (spec/31 R460 to R462).
-/

namespace Sys2Proof.Machine

/-! ### What an absent number reads as -/

def Snap.blank : Snap := ⟨[], 0, 0, [], [], [], false, [], 32, 0, 0⟩

def Region.blank : Region where
  seq := 0
  entry := Snap.blank
  readFirst := []
  written := []
  issued := 0
  lanes := 0
  inTrap := false
  spRead := []
  spWrit := []
  spFull := false
  atoms := []
  spAtoms := []
  cmds := []
  stores := []
  recs := []
  clears := []
  evicts := []
  ctrStores := []
  flush := none
  odone := false
  mclear := false
  stream := 0
  compared := false
  failed := none

def Warp.blank : Warp where
  vi := 0
  launch := 0
  block := 0
  windex := 0
  party := ⟨0, 0, 0, 0⟩
  present := 0
  helpers := 0
  exited := 0
  ended := true
  sregs := []
  vregs := []
  preds := []
  pct := []
  rcv := List.replicate 8 ⟨0, 0⟩
  wsyncMask := 0
  wsyncArr := 0
  part := 32
  opsL := []
  opsS := []
  opsC := []
  opsT := []
  pend := []
  fpstat := 0
  fptrap := 0
  dbgctl := 0
  commits := 0
  splits := 0
  icount := 0
  draws := []
  accs := []
  hist := []
  nonfin := false
  mflags := 0
  merr := none
  mcont := none
  sig := 0
  region := Region.blank
  older := none
  dirty := []
  reentry := 0
  reentries := 0
  trap := none
  stop := none
  deferred := none
  holds := []
  needs := []
  hold := .none
  wdog := 0
  recover := none
  firstIssue := none
  lastIssue := 0
  lastWord := (0, 0)
  stall := 0
  reentering := false
  bounding := false
  sync := none
  later := []
  fbuf := []
  constSeen := []
  declared := false
  pins := []
  forwarded := []
  bpskip := none

def Block.blank : Block where
  vi := 0
  launch := 0
  lin := 0
  copy := 0
  twin := none
  core := 0
  state := .retired
  saves := 0
  area := none
  map := []
  bars := List.replicate 16 NBar.idle
  gbar := NBar.idle
  units := []
  mqs := []
  heldAcc := []
  acc := []
  mqData := []
  poisoned := []
  failed := 0
  span := 0

def Launch.blank : Launch where
  vi := 0
  num := 0
  queue := 0
  rcd := List.replicate 32 0
  accepted := 0
  state := .ended
  eligible := none
  lastDisp := 0
  next := 0
  returned := []
  started := []
  retired := []
  declared := []
  failed := 0
  defAddrs := []
  defUsed := 0
  defUpds := []
  typed := []
  phase := 0
  log := OrdLog.off
  armed := []
  stopped := false
  lastEnd := 0

/-! ### Parts of the state by number -/

def State.warp (s : State) (w : Nat) : Warp := s.warps.getD w Warp.blank
def State.block (s : State) (b : Nat) : Block := s.blocks.getD b Block.blank
def State.launch (s : State) (l : Nat) : Launch := s.launches.getD l Launch.blank
def State.core (s : State) (c : Nat) : Core := s.cores.getD c (Core.reset c)
def State.vi (s : State) (v : Nat) : Vi := s.vis.getD v Vi.reset

def State.updWarp (s : State) (w : Nat) (f : Warp → Warp) : State := { s with warps := s.warps.modify w f }
def State.updBlock (s : State) (b : Nat) (f : Block → Block) : State := { s with blocks := s.blocks.modify b f }
def State.updLaunch (s : State) (l : Nat) (f : Launch → Launch) : State := { s with launches := s.launches.modify l f }
def State.updCore (s : State) (c : Nat) (f : Core → Core) : State := { s with cores := s.cores.modify c f }
def State.updVi (s : State) (v : Nat) (f : Vi → Vi) : State := { s with vis := s.vis.modify v f }

/-- The block, launch and core of a warp. -/
def State.blockOf (s : State) (w : Nat) : Block := s.block (s.warp w).block
def State.launchOf (s : State) (w : Nat) : Launch := s.launch (s.warp w).launch
def State.coreOf (s : State) (w : Nat) : Core := s.core (s.blockOf w).core

/-- A fresh value of the model's counter of free values. -/
def State.draw (s : State) : Nat × State := (s.freeCtr, { s with freeCtr := s.freeCtr + 1 })

/-- A fresh number for operations, commands and staged accesses. -/
def State.fresh (s : State) : Nat × State := (s.nextId, { s with nextId := s.nextId + 1 })

/-- The least number from [k] on that a list does not hold, by as many tries as the first argument allows. -/
def leastFree (used : List Nat) : Nat → Nat → Nat
  | 0, k => k
  | f + 1, k => if used.contains k then leastFree used f (k + 1) else k

/-! ### The launch record (R69) -/

def Launch.dw (l : Launch) (n : Nat) : Nat := l.rcd.getD n 0
def Launch.irq (l : Launch) : Bool := bit (l.dw 0) 56
def Launch.reentry (l : Launch) : Nat := if bits (l.dw 0) 55 48 = 0 then 32 else bits (l.dw 0) 55 48
def Launch.gang (l : Launch) : Nat := bits (l.dw 0) 47 43
def Launch.far (l : Launch) : Bool := bit (l.dw 0) 42
def Launch.span (l : Launch) : Bool := bit (l.dw 0) 41
def Launch.mode (l : Launch) : Nat := bits (l.dw 0) 40 39
def Launch.pstop (l : Launch) : Bool := bit (l.dw 0) 38
def Launch.sigOn (l : Launch) : Bool := bit (l.dw 0) 37
def Launch.rdnt (l : Launch) : Bool := bit (l.dw 0) 36
def Launch.det (l : Launch) : Bool := bit (l.dw 0) 35
def Launch.prio (l : Launch) : Nat := bits (l.dw 0) 34 32
def Launch.entry (l : Launch) : Nat := l.dw 1
def Launch.trap (l : Launch) : Option Nat := if l.dw 2 = 0xFFFF_FFFF_FFFF_FFFF then none else some (l.dw 2)
def Launch.gz (l : Launch) : Nat := bits (l.dw 3) 63 48
def Launch.gy (l : Launch) : Nat := bits (l.dw 3) 47 32
def Launch.gx (l : Launch) : Nat := bits (l.dw 3) 30 0
def Launch.bz (l : Launch) : Nat := bits (l.dw 4) 42 32
def Launch.by_ (l : Launch) : Nat := bits (l.dw 4) 26 16
def Launch.bx (l : Launch) : Nat := bits (l.dw 4) 10 0
def Launch.spmin (l : Launch) : Nat := bits (l.dw 5) 56 48
def Launch.sppages (l : Launch) : Nat := bits (l.dw 5) 44 32
def Launch.sregs (l : Launch) : Nat := bits (l.dw 5) 24 16
def Launch.vregs (l : Launch) : Nat := bits (l.dw 5) 10 0
def Launch.fmtset (l : Launch) : Nat := bits (l.dw 6) 47 40
def Launch.nwin (l : Launch) : Nat := bits (l.dw 6) 38 36
def Launch.ndep (l : Launch) : Nat := bits (l.dw 6) 34 32
def Launch.paramsz (l : Launch) : Nat := bits (l.dw 6) 28 16
def Launch.accrows (l : Launch) : Nat := bits (l.dw 6) 9 0
/-- The replay window in nanoseconds. -/
def Launch.rpwin (l : Launch) : Nat := 1000 * (if bits (l.dw 7) 63 32 = 0 then 1000 else bits (l.dw 7) 63 32)
/-- The watchdog period in nanoseconds. -/
def Launch.wdogNs (l : Launch) : Nat := 1000000 * (if bits (l.dw 7) 31 0 = 0 then 10000 else bits (l.dw 7) 31 0)
def Launch.param (l : Launch) : Nat := l.dw 8
def Launch.cbw (l : Launch) : Nat := l.dw 9
def Launch.dep (l : Launch) (n : Nat) : Nat := l.dw (10 + n)
/-- Format slot [k], none when it is absent or invalid (R69, R55). -/
def Launch.fmt (l : Launch) (k : Nat) : Option SlotWord := if bit l.fmtset k then slotOf (l.dw (14 + k)) else none
def Launch.win (l : Launch) (k : Nat) : Nat := l.dw (22 + k)
def Launch.rngkey (l : Launch) : Nat := l.dw 26
def Launch.olog (l : Launch) : Nat := l.dw 27
def Launch.defersz (l : Launch) : Nat := bits (l.dw 28) 63 32
def Launch.ologsz (l : Launch) : Nat := bits (l.dw 28) 31 0
def Launch.defer (l : Launch) : Nat := l.dw 29
def Launch.arm (l : Launch) : Nat := l.dw 30

/-! ### Geometry (R13 to R15) -/

/-- X′: the block extent x rounded up to a multiple of 4. -/
def Launch.bxp (l : Launch) : Nat := (l.bx + 3) / 4 * 4
/-- X′·Y·Z. -/
def Launch.threads (l : Launch) : Nat := l.bxp * l.by_ * l.bz
/-- Warps of a block. -/
def Launch.nwarps (l : Launch) : Nat := (l.threads + 31) / 32
/-- Blocks of the grid. -/
def Launch.nblocks (l : Launch) : Nat := l.gx * l.gy * l.gz
/-- Block index of a linear index. -/
def Launch.bidx (l : Launch) (lin : Nat) : Nat × Nat × Nat := (lin % l.gx, lin / l.gx % l.gy, lin / (l.gx * l.gy))
/-- Thread index of a linear thread index. -/
def Launch.tidx (l : Launch) (t : Nat) : Nat × Nat × Nat := (t % l.bxp, t / l.bxp % l.by_, t / (l.bxp * l.by_))

/-! ### Lane masks -/

def lanesOf (m : Nat) : List Nat := (List.range 32).filter fun l => bit m l
/-- The mask of the lanes that satisfy a test. -/
def maskOf (f : Nat → Bool) : Nat := (List.range 32).foldl (fun a l => if f l then a + 2 ^ l else a) 0
def laneMask (ls : List Nat) : Nat := maskOf fun l => ls.contains l
def mAnd (a b : Nat) : Nat := Nat.land a b
def mOr (a b : Nat) : Nat := Nat.lor a b
/-- The lanes of [a] that are not in [b]. -/
def mDiff (a b : Nat) : Nat := Nat.xor (Nat.land a b) a
def lowLane (m : Nat) : Option Nat := (lanesOf m).head?
def popc (m : Nat) : Nat := (lanesOf m).length
/-- The aligned quads that hold a lane of the mask. -/
def quads (m : Nat) : Nat := maskOf fun l => (List.range 4).any fun k => bit m (l / 4 * 4 + k)

/-- The lanes of warp [i] of a block that are not absent (R14). -/
def Launch.presentLanes (l : Launch) (i : Nat) : Nat := maskOf fun k => decide (32 * i + k < l.threads)
/-- Its helper lanes (R14). -/
def Launch.helperLanes (l : Launch) (i : Nat) : Nat :=
  maskOf fun k => decide (32 * i + k < l.threads) && decide (l.bx ≤ (32 * i + k) % l.bxp)

/-! ### Registers (R103, R104) -/

def Warp.v (w : Warp) (n lane : Nat) : Word := sget w.vregs (32 * n + lane) 0
def Warp.s (w : Warp) (n : Nat) : Word := sget w.sregs n 0
/-- A predicate in a lane: p7 reads 1 (R102). -/
def Warp.p (w : Warp) (n lane : Nat) : Bool := if n = 7 then true else bit (sget w.preds n 0) lane
def Warp.setV (w : Warp) (n lane : Nat) (x : Word) : Warp := { w with vregs := sset w.vregs (32 * n + lane) x 0 }
def Warp.setS (w : Warp) (n : Nat) (x : Word) : Warp := { w with sregs := sset w.sregs n x 0 }
/-- Lanes [m] of a predicate take the bits of [x]. -/
def Warp.setP (w : Warp) (n m x : Nat) : Warp :=
  { w with preds := sset w.preds n (mOr (mDiff (sget w.preds n 0) m) (mAnd x m)) 0 }

/-- Registers and predicates written as listed. -/
def Warp.apply (w : Warp) (ws : Writes) : Warp :=
  let w := { w with vregs := ws.v.foldl (fun m (x : Nat × Word) => sset m x.1 x.2 0) w.vregs }
  let w := { w with sregs := ws.s.foldl (fun m (x : Nat × Word) => sset m x.1 x.2 0) w.sregs }
  ws.p.foldl (fun a x => a.setP x.1 x.2.1 x.2.2) w

def Writes.none : Writes := ⟨[], [], []⟩

/-- Lanes that have not exited (R138). -/
def Warp.live (w : Warp) : Nat := mDiff w.present w.exited
/-- Exit helpers: exited lanes whose quad still has a live lane (R138). -/
def Warp.exitHelpers (w : Warp) : Nat := mAnd (mAnd w.exited w.present) (quads w.live)
/-- All helper lanes (R139). -/
def Warp.allHelpers (w : Warp) : Nat := mOr w.helpers w.exitHelpers
/-- The active lanes of an entry: its own and the exit helpers of their quads (R138). -/
def Warp.activeOf (w : Warp) (mask : Nat) : Nat := mOr mask (mAnd w.exitHelpers (quads mask))
/-- Lanes neither absent nor exited, exit helpers included in no count of R147. -/
def Warp.tracked (w : Warp) : Nat := w.live

/-! ### The PC table (R129 to R131) -/

def PctEntry.ready (e : PctEntry) : Bool := e.state == .ready

/-- The entry of the least PC. -/
def leastPc : List PctEntry → Option PctEntry
  | [] => none
  | e :: r =>
    match leastPc r with
    | none => some e
    | some f => if e.pc ≤ f.pc then some e else some f

/-- choose_subgroup of R131; in trap mode only the handler subgroup issues (R424). -/
def Warp.choose (w : Warp) : Option PctEntry :=
  let r := w.pct.filter PctEntry.ready
  let r := match w.trap with
    | none => r
    | some t => r.filter fun e => mAnd e.mask t.sub != 0
  let old := r.filter fun e => e.age == 4096
  if old.isEmpty then leastPc r else leastPc old

/-- R130: the entries merge when their PCs are equal, neither is parked, and they wait on the same condition. The handler
subgroup of trap mode merges with no held entry (R424). -/
def mergeable (w : Warp) (a b : PctEntry) : Bool :=
  a.pc == b.pc && a.state != .parked && b.state != .parked && a.state == b.state && a.on == b.on &&
  (match w.trap with
   | none => true
   | some t => (mAnd a.mask t.sub != 0) == (mAnd b.mask t.sub != 0))

def mergeInto (w : Warp) (e : PctEntry) : List PctEntry → List PctEntry
  | [] => [e]
  | f :: r => if mergeable w f e then { f with mask := mOr f.mask e.mask, age := min f.age e.age } :: r
    else f :: mergeInto w e r

/-- The PC table after R130; entries without lanes go. -/
def Warp.merge (w : Warp) : Warp :=
  { w with pct := (w.pct.filter fun e => e.mask != 0).foldl (fun acc e => mergeInto w e acc) [] }

/-- Every parked entry is ready. -/
def Warp.unparkAll (w : Warp) : Warp :=
  { w with pct := w.pct.map fun (e : PctEntry) => if e.state == .parked then { e with state := .ready, on := .none } else e }

/-- Ageing on an issue of the lanes [m] (R131): every other ready entry ages. -/
def Warp.aged (w : Warp) (m : Nat) : Warp :=
  { w with pct := w.pct.map fun e =>
      if mAnd e.mask m != 0 then { e with age := 0 }
      else if e.ready && (match w.trap with
        | none => true
        | some t => mAnd e.mask t.sub != 0) then { e with age := min (e.age + 1) 4096 }
      else e }

/-- Lanes taken out of the PC table. -/
def takeLanes (m : Nat) (pct : List PctEntry) : List PctEntry :=
  (pct.map fun e => { e with mask := mDiff e.mask m }).filter fun e => e.mask != 0

/-- The lanes [m] stand at [pc] in an entry of their own. -/
def Warp.place (w : Warp) (m pc : Nat) (st : EState) (on : WaitOn) : Warp :=
  if m = 0 then w else { w with pct := takeLanes m w.pct ++ [⟨pc, m, st, on, 0⟩] }

/-- The successor of a PC (R98). PCs are held as 64-bit addresses; one that is not canonical lies outside the space (R100). -/
def nextPc (pc : Nat) : Nat := (pc + 8) % 2 ^ 64

/-! ### Names and records (R18, R460 to R462) -/

/-- Dword 1 of a name frame. -/
def nameDw1 (l : Launch) (lin : Nat) : Nat :=
  let (x, y, z) := l.bidx lin
  x <<< 33 + (y % 2 ^ 16) <<< 17 + (z % 2 ^ 16) <<< 1

/-- The name frame of a warp (R460). -/
def nameFrame (l : Launch) (lin windex ty aux : Nat) : List Nat :=
  [ty <<< 56 + (windex % 64) <<< 50 + (aux % 2 ^ 16) <<< 32 + l.num % 2 ^ 32, nameDw1 l lin]

/-- A record handed to the Flume (R461). -/
def State.emit (s : State) (vi : Nat) (ws : List Nat) : State := { s with flume := s.flume ++ [⟨vi, ws⟩] }

/-- The name frame of warp [w]. -/
def State.frameOf (s : State) (w ty aux : Nat) : List Nat :=
  nameFrame (s.launchOf w) (s.blockOf w).lin (s.warp w).windex ty aux

/-- The secondary copy of a redundant block (R444). -/
def State.secondary (s : State) (w : Nat) : Bool := (s.blockOf w).copy == 1

/-- A record of a warp; the secondary copy emits none (R445). -/
def State.emitWarp (s : State) (w : Nat) (ws : List Nat) : State :=
  if s.secondary w then s else s.emit (s.warp w).vi ws

end Sys2Proof.Machine
end

