-- ==== Sys2Proof/Machine/Marks.lean ====
section
/-!
DEFINITION. Interval records and the marks of words (spec/21 R358 to R376, spec/20 R342, R351): how a mark's interval is
resolved, the check and the record of a word at its home, the death of marks, and the race record.
-/

namespace Sys2Proof.Machine

/-! ### Counters (R471, R474) -/

def unitSection : Nat := 0
def unitCore : Nat := 1
def unitHome : Nat := 2
def unitCulvert : Nat := 3
def unitHbm : Nat := 4

/-- The overflow record of counter [n] (R474). -/
def overflowRecord (n csel time : Nat) : List Nat := [0x22 * 2 ^ 56 + n * 2 ^ 48, csel, time, 0]

/-- [k] events of a unit class counted for a VI by the counters of its active group (R471, R472, R474). -/
def State.count (s : State) (vi unit ev k : Nat) : State :=
  if k = 0 then s
  else
    (s.vi vi).ctr.csel.foldl (fun s (e : Nat × Nat) =>
      let c := (s.vi vi).ctr
      if bit e.2 63 && bits e.2 59 56 == unit && bits e.2 55 48 == ev && c.group == e.1 / 16 then
        let x := sget c.counts e.1 0 + k
        let s := if x < 2 ^ 48 then s else s.emit vi (overflowRecord e.1 e.2 s.devTime)
        s.updVi vi fun v => { v with ctr := { v.ctr with
          counts := sset v.ctr.counts e.1 (x % 2 ^ 48) 0
          ovf := if x < 2 ^ 48 then v.ctr.ovf else mOr v.ctr.ovf (2 ^ e.1) } }
      else s) s

/-- A cluster before its first block. -/
def noCluster : Cluster := ⟨0, false, false, false, 0, []⟩

/-! ### Classes (R342, R364) -/

def AccClass.sync : AccClass → Bool
  | .acquire | .release | .exchange => true
  | _ => false

/-- Relaxed classes, exempt against themselves. -/
def AccClass.relaxed : AccClass → Bool
  | .count | .accumulate | .monotone => true
  | _ => false

def exempt (a b : AccClass) : Bool := (a.sync && b.sync) || (a == b && a.relaxed)

/-- cause(a, b) of R364. -/
def classCause (a b : AccClass) : Nat := if a == .data && b == .data then 0x18 else 0x19

/-- The kind of an access by its class (R375). -/
def kindOf (k : AccClass) (write : Bool) : Nat :=
  match k with
  | .data => if write then 1 else 0
  | .acquire => 2
  | .release => 3
  | .count => 4
  | .accumulate => 5
  | .exchange => 6
  | .monotone => 7

/-- The kind of a summary (R375). -/
def summaryKind (k : AccClass) : Nat := if k == .data then 0 else 2

/-! ### Interval records (R358, R359) -/

/-- The interval counter wraps at 20 bits (R346). -/
def intervalMod : Nat := 2 ^ 20

/-- The distance from interval [i] to the current one. -/
def intAge (c i : Nat) : Nat := (c + intervalMod - i % intervalMod) % intervalMod

def State.rec? (s : State) (p : Party) : Option IntRec := s.recs.find? fun r => r.party == p

def State.updRec (s : State) (p : Party) (f : IntRec → IntRec) : State :=
  { s with recs := s.recs.map fun r => if r.party == p then f r else r }

/-- The record of a party opens with its interval 0, now, unless it has one (R346, R358). -/
def State.openRec (s : State) (p : Party) : State :=
  if (s.rec? p).isSome then s else { s with recs := s.recs ++ [⟨p, .resident, 0, s.clock, [], []⟩] }

/-- What `interval_end` answers. -/
inductive EndStamp where
  | open_
  | at_ (e : Nat)
  deriving DecidableEq, Repr

/-- The end stamp of a past interval, still to come while a command handed over in it is not complete (R347). -/
def PastInt.end_ (q : PastInt) : EndStamp := if q.busy.isEmpty then .at_ q.e else .open_

/-- Some past interval of a list has its end stamp still to come. -/
def anyBusy (qs : List PastInt) : Bool := qs.any fun q => !q.busy.isEmpty

/-- The past intervals that stay listed: the last 15, and as far back as one has its end stamp still to come. -/
def keepPast (qs : List PastInt) : List PastInt :=
  qs.take (max 15 (qs.length - (qs.reverse.takeWhile fun q => q.busy.isEmpty).length))

/-- The current interval of a record closes with end stamp [e] and the next one starts at [st] (R346, R347). -/
def IntRec.close (r : IntRec) (e st : Nat) : IntRec :=
  { r with cur := (r.cur + 1) % intervalMod, past := keepPast (⟨r.start, e, r.busy⟩ :: r.past), start := st, busy := [] }

/-- A command handed over in the current interval. -/
def IntRec.hand (r : IntRec) (id : Nat) : IntRec := { r with busy := r.busy ++ [id] }

/-- A command is complete at time [e]: the end stamp of a past interval is its last command's completion, where that is later
(R347). -/
def IntRec.done (r : IntRec) (id e : Nat) : IntRec :=
  { r with
    busy := r.busy.filter fun k => k != id
    past := keepPast (r.past.map fun q =>
      if q.busy.contains id then { q with busy := q.busy.filter (fun k => k != id), e := max q.e e } else q) }

/-- interval_end of R359: the records of homes reach back 8 intervals. -/
def State.intervalEnd (s : State) (p : Party) (i : Nat) : EndStamp :=
  match s.rec? p with
  | none => .at_ 0
  | some r =>
    let d := intAge r.cur i
    if d = 0 then (if r.status == .exited then .at_ 0 else .open_)
    else if 8 < d && anyBusy (r.past.drop 8) then .open_
    else
      match r.past[min d 8 - 1]? with
      | some q => q.end_
      | none => .at_ 0

/-- E + 8 < S (R351). -/
def State.endedBefore (s : State) (p : Party) (i stamp : Nat) : Bool :=
  match s.intervalEnd p i with
  | .open_ => false
  | .at_ e => decide (e + 8 < stamp)

/-- interval_start of R359. -/
def State.intervalStart (s : State) (p : Party) (i : Nat) : Nat :=
  match s.rec? p with
  | none => 0
  | some r =>
    let d := intAge r.cur i
    if d = 0 then r.start else
      match r.past[min d 8 - 1]? with
      | some q => q.s
      | none => 0

/-- The current interval of a party and its start stamp. -/
def State.intervalOf (s : State) (p : Party) : Nat × Nat :=
  match s.rec? p with
  | some r => (r.cur, r.start)
  | none => (0, s.clock)

/-! ### Death (R369, R370) -/

/-- A reader summary with start stamp [t] is settled for an access with start stamp [st]. -/
def State.settled (s : State) (t st : Nat) : Bool := s.floors.any fun b => decide (t < b.2) && decide (b.1 + 8 < st)

/-- An entry that names an interval is dead for the latest floor. -/
def State.entryDead (s : State) (p : Party) (i : Nat) : Bool :=
  match s.floors.head? with
  | some b => s.endedBefore p i b.2
  | none => false

/-- A summary is dead. -/
def State.summaryDead (s : State) (t : Nat) : Bool :=
  match s.floors with
  | [b', b] => decide (t < b.2) && decide (b.1 + 8 < b'.2)
  | _ => false

/-- MK.RSTAMP holds 48 bits of a stamp (R362). -/
def stampMod : Nat := 2 ^ 48

/-- The stamp that MK.RSTAMP names: the latest one with these bits that is not after now (R362). -/
def State.fullStamp (s : State) (t : Nat) : Nat := s.clock - (s.clock % stampMod + stampMod - t % stampMod) % stampMod

/-- A word's mark with its dead entries dropped. -/
def State.dropDead (s : State) (m : WordMark) : WordMark :=
  let m := match m.writer with
    | some (p, i, _) => if s.entryDead p i then { m with writer := none } else m
    | none => m
  if m.many then (if s.summaryDead (s.fullStamp m.rstamp) then { m with many := false, rsync := false, rstamp := 0 } else m)
  else
    match m.reader with
    | some (p, i) => if s.entryDead p i then { m with reader := none, rsync := false } else m
    | none => m

/-! ### The check and the record of a word (R364) -/

def WordMark.empty : WordMark := ⟨none, false, false, none, 0⟩

/-- An access as its home sees it: party, interval, start stamp, class, and whether it writes. -/
structure Access where
  party : Party
  int : Nat
  start : Nat
  cls : AccClass
  write : Bool
  deriving DecidableEq, Repr

/-- A conflict: cause, the kind of the access that left the mark (R375), the other party unless it is a summary, and the start
stamp of its interval. -/
structure Conflict where
  cause : Nat
  okind : Nat
  other : Option (Party × Nat)
  ostamp : Nat
  deriving DecidableEq, Repr

/-- The class of a reader entry. -/
def WordMark.rcls (m : WordMark) : AccClass := if m.rsync then .acquire else .data

/-- check_word of R364. -/
def State.checkWord (s : State) (m : WordMark) (a : Access) : Option Conflict :=
  let wr : Option Conflict :=
    match m.writer with
    | some (p, i, k) =>
      if p != a.party && !exempt k a.cls && !s.endedBefore p i a.start then
        some ⟨classCause k a.cls, kindOf k true, some (p, i), s.intervalStart p i⟩
      else none
    | none => none
  match wr with
  | some c => some c
  | none =>
    if !a.write then none
    else if m.many then
      if !exempt m.rcls a.cls && !s.settled (s.fullStamp m.rstamp) a.start then
        some ⟨classCause m.rcls a.cls, summaryKind m.rcls, none, s.fullStamp m.rstamp⟩
      else none
    else
      match m.reader with
      | some (p, i) =>
        if p != a.party && !exempt m.rcls a.cls && !s.endedBefore p i a.start then
          some ⟨classCause m.rcls a.cls, kindOf m.rcls false, some (p, i), s.intervalStart p i⟩
        else none
      | none => none

/-- record_word of R364. -/
def State.recordWord (s : State) (m : WordMark) (a : Access) : WordMark :=
  let m := s.dropDead m
  if a.write then { m with writer := some (a.party, a.int, a.cls) }
  else if (match m.writer with | some (p, _, _) => p == a.party | none => false) then m
  else if m.many then { m with rstamp := max (s.fullStamp m.rstamp) a.start % stampMod, rsync := m.rsync && a.cls.sync }
  else
    match m.reader with
    | none => { m with reader := some (a.party, a.int), rsync := a.cls.sync }
    | some (p, i) =>
      if p == a.party then { m with reader := some (a.party, a.int), rsync := a.cls.sync }
      else
        { m with many := true, reader := none, rstamp := max (s.intervalStart p i) a.start % stampMod,
                 rsync := m.rsync && a.cls.sync }

/-! ### Addresses of homes (R261) -/

/-- The stack, die and home slice of a physical address (R261). -/
def stackOf (pa : Nat) : Nat := pa / (96 * 2 ^ 30)
def dieOf (pa : Nat) : Nat := stackOf pa / 4
def sliceOf (pa : Nat) : Nat :=
  16 * stackOf pa + Nat.xor (bits pa 9 6) (Nat.xor (bits pa 13 10) (bits pa 17 14))

/-- The home slice of a line. -/
def lineSlice (line : Nat) : Nat := sliceOf (64 * line)

/-! ### Party aliases (R363) -/

/-- Entries of a slice's alias table. -/
def aliasRoom : Nat := 2 ^ 20 - 1

/-- The alias of a party in a slice. -/
def State.aliasOf (s : State) (slice : Nat) (p : Party) : Option Nat :=
  (s.aliases.find? fun a => a.slice == slice && a.party == p).map fun a => a.num

/-- The party that an alias of a slice names. -/
def State.aliasParty (s : State) (slice num : Nat) : Option Party :=
  (s.aliases.find? fun a => a.slice == slice && a.num == num).map fun a => a.party

/-- The die of a party's record: that of its warp's core (R358); a host party's is die 0. -/
def State.partyDie (s : State) (p : Party) : Nat :=
  match s.blocks.find? fun b => b.vi == p.vi % 64 && b.lin == p.block && (s.launch b.launch).num == p.launch with
  | some b => b.core / Config.dieCores
  | none => 0

/-- A slice assigns an alias, the lowest free number, to a party that first leaves a mark there (R363). -/
def State.alias_ (s : State) (pa : Nat) (p : Party) : State :=
  if (s.aliasOf (sliceOf pa) p).isSome then s
  else
    let used := (s.aliases.filter fun a => a.slice == sliceOf pa).map fun a => a.num
    { s with aliases := ⟨sliceOf pa, leastFree used used.length 0, p, s.partyDie p⟩ :: s.aliases }

/-- The party needs an alias in the slice of an address, and the table there is full (R363). -/
def State.aliasFull (s : State) (pa : Nat) (p : Party) : Bool :=
  (s.aliasOf (sliceOf pa) p).isNone && decide (aliasRoom ≤ (s.aliases.filter fun a => a.slice == sliceOf pa).length)

/-! ### The mark store (R361, R372) -/

/-- Line entries of a slice's mark store (R361). -/
def markRoom : Nat := 32768

def LineMarks.get (l : LineMarks) (k : Nat) : WordMark := l.words.getD k WordMark.empty

def LineMarks.none (l : LineMarks) : Bool := l.words.all (· == WordMark.empty)

def State.lineMarks (s : State) (vi line : Nat) : LineMarks :=
  (s.marks.find? fun m => m.vi == vi && m.line == line).getD ⟨line, vi, List.replicate 16 WordMark.empty, .store⟩

/-- The mark of the word at a physical address. -/
def State.markAt (s : State) (vi pa : Nat) : WordMark := (s.lineMarks vi (pa / 64)).get (pa % 64 / 4)

/-- The entries of a slice that stand in its mark store, or in its overflow area; the most recently touched comes first. -/
def State.marksIn (s : State) (slice : Nat) (place : MarkPlace) : List LineMarks :=
  s.marks.filter fun m => m.place == place && lineSlice m.line == slice

/-- [n] more records fit the overflow area of a slice (R372). -/
def State.overflowRoom (s : State) (slice n : Nat) : Bool := decide ((s.marksIn slice .overflow).length + n ≤ s.ovfRoom)

/-- The marks of a line with dead entries dropped. -/
def State.liveMarks (s : State) (l : LineMarks) : LineMarks := { l with words := l.words.map s.dropDead }

/-- The marks of a line put back; a line without marks holds no entry (R361). -/
def State.putMarks (s : State) (l : LineMarks) : State :=
  let r := s.marks.filter fun m => !(m.vi == l.vi && m.line == l.line)
  { s with marks := if l.none then r else l :: r }

/-- A full store spills its least recently touched entry to the overflow area, its dead entries dropped (R361). -/
def State.fitMarks (s : State) (slice : Nat) : State :=
  let xs := s.marksIn slice .store
  if xs.length ≤ markRoom then s
  else
    match xs.getLast? with
    | some l =>
      let l := s.liveMarks l
      (s.putMarks { l with place := .overflow }).count l.vi unitHome 3 (if l.none then 0 else 1)
    | Option.none => s

/-- The marks of a line replaced, as the most recently touched entry of the store. -/
def State.setMarks (s : State) (l : LineMarks) : State := (s.putMarks { l with place := .store }).fitMarks (lineSlice l.line)

def State.setMarkAt (s : State) (vi pa : Nat) (m : WordMark) : State :=
  let l := s.lineMarks vi (pa / 64)
  s.setMarks { l with words := l.words.set (pa % 64 / 4) m }

/-- The line would need a new entry while the store and the overflow area of its slice are both full (R361, R372). -/
def State.markFull (s : State) (vi line : Nat) : Bool :=
  !(s.marks.any fun m => m.vi == vi && m.line == line) && decide (markRoom ≤ (s.marksIn (lineSlice line) .store).length) &&
    !s.overflowRoom (lineSlice line) 1

/-- The first word, by its address, that an access conflicts with. -/
def State.checkWords (s : State) (vi : Nat) (a : Access) (pas : List Nat) : Option (Nat × Conflict) :=
  pas.findSome? fun pa => (s.checkWord (s.markAt vi pa) a).map fun c => (pa, c)

/-- An access recorded at all of its words. -/
def State.recordWords (s : State) (vi : Nat) (a : Access) (pas : List Nat) : State :=
  pas.foldl (fun s pa => (s.alias_ pa a.party).setMarkAt vi pa (s.recordWord (s.markAt vi pa) a)) s

/-- The words of [n] bytes at an address. -/
def wordsOf (a n : Nat) : List Nat := (List.range ((a % 4 + n + 3) / 4)).map fun k => a / 4 * 4 + 4 * k

/-- A list without repeats, first occurrences kept. -/
def dedup (xs : List Nat) : List Nat := (xs.foldl (fun acc x => if acc.contains x then acc else x :: acc) []).reverse

/-! ### Marks leaving the L2 and coming back (R371 to R373) -/

/-- The writer that all 16 words name, when the marks of the line fit the side bits (R371). -/
def compactOf (l : LineMarks) : Option (Party × Nat × AccClass) :=
  match (l.get 0).writer with
  | some (p, i, k) =>
    if l.words.length == 16 && (k == .data || k == .accumulate) &&
        l.words.all (fun w => w.writer == some (p, i, k) && !w.many &&
          (match w.reader with | some (r, _) => r == p | Option.none => true)) then some (p, i, k)
    else Option.none
  | Option.none => Option.none

/-- The side bits of compact marks: SB.STATE, SB.PARTY and SB.INT (R371). -/
def sideWord (num i : Nat) (k : AccClass) : Nat := (if k == .accumulate then 2 else 1) * 2 ^ 30 + num * 1024 + i % 1024

/-- The side bits of a line whose marks stand in the overflow area. -/
def sideOverflow : Nat := 3 * 2 ^ 30

/-- The side bits of a line. -/
def State.side (s : State) (line : Nat) : Nat := sget s.sides line 0

def State.setSide (s : State) (line x : Nat) : State := { s with sides := sset s.sides line x 0 }

/-- The side bits that hold a line's live marks, when they fit (R371). -/
def State.compactSide (s : State) (ls : List LineMarks) : Option Nat :=
  match ls with
  | [l] =>
    (compactOf l).bind fun x => (s.aliasOf (lineSlice l.line) x.1).map fun num => sideWord num x.2.1 x.2.2
  | _ => Option.none

/-- What holds a line's marks outside the L2. -/
inductive Spill where
  | nothing
  | side (x : Nat)
  | overflow (ls : List LineMarks)
  deriving DecidableEq, Repr

/-- How the marks of a line leave (R371, R373): dead entries go; [strong]: the bank has no side bits. -/
def State.spillOf (s : State) (line : Nat) (strong : Bool) : Spill :=
  let ls := ((s.marks.filter fun m => m.line == line).map s.liveMarks).filter fun l => !l.none
  if ls.isEmpty then .nothing
  else
    match if strong then Option.none else s.compactSide ls with
    | some x => .side x
    | Option.none => .overflow (ls.map fun l => { l with place := .overflow })

/-- The marks of a line as it leaves the L2; none when no record can be inserted (R371, R372). -/
def State.spillLine (s : State) (line : Nat) (strong : Bool) : Option State :=
  let t := { s with marks := s.marks.filter fun m => m.line != line }
  match s.spillOf line strong with
  | .nothing => some (t.setSide line 0)
  | .side x => some (t.setSide line x)
  | .overflow ls =>
    if t.overflowRoom (lineSlice line) ls.length then
      some (({ t with marks := t.marks ++ ls }).setSide line (if strong then 0 else sideOverflow))
    else Option.none

/-- The interval that ten bits of its number name, the party's current one being [c] (R373). -/
def nearInterval (c i : Nat) : Nat := (c + intervalMod - (c % 1024 + 1024 - i % 1024) % 1024) % intervalMod

/-- The aliases that a test picks are free again; the compact marks that name them are dead and go with them (R363, R370). -/
def State.freeAliases (s : State) (f : Alias → Bool) : State :=
  { s with
    aliases := s.aliases.filter fun a => !f a
    sides := s.sides.filter fun x =>
      !((x.2 / 2 ^ 30 == 1 || x.2 / 2 ^ 30 == 2) && s.aliases.any fun a => f a && a.slice == lineSlice x.1 && a.num == bits x.2 29 10) }

/-- The marks of a line as it is filled (R373): a compact mark becomes a writer entry on all 16 words, unless its party has no
record; overflow records are read and deleted. -/
def State.restoreLine (s : State) (line : Nat) : State :=
  let x := s.side line
  let s := s.setSide line 0
  if x / 2 ^ 30 = 1 ∨ x / 2 ^ 30 = 2 then
    match s.aliasParty (lineSlice line) (bits x 29 10) with
    | some p =>
      match s.rec? p with
      | some r =>
        let m : WordMark := ⟨some (p, nearInterval r.cur (bits x 9 0), if x / 2 ^ 30 = 1 then .data else .accumulate), false, false,
          Option.none, 0⟩
        s.setMarks ⟨line, p.vi % 64, List.replicate 16 m, .store⟩
      | Option.none => s
    | Option.none => s
  else
    (s.marks.filter fun m => m.line == line && m.place == .overflow).foldl (fun (s : State) l => s.setMarks l) s

/-! ### Race records (R374, R375) -/

/-- Block index dword of a party. -/
def State.partyDw1 (s : State) (p : Party) : Nat :=
  match s.launches.find? (fun l => l.vi == p.vi % 64 && l.num == p.launch) with
  | some l => nameDw1 l p.block
  | none => 0

/-- The record of a conflict: faulting party with kind, whether an engine's, space, PCs and address (R374). -/
def State.raceRecord (s : State) (p : Party) (kind : Nat) (eng sp pair : Bool) (pc rpc addr : Nat) (c : Conflict) :
    List Nat :=
  let orun : Bool := match c.other with
    | some (q, _) => (match s.rec? q with | some r => r.status != .exited | none => false)
    | none => false
  let f (b : Bool) (n : Nat) := if b then 2 ^ n else 0
  let (dw5, dw6) := match c.other with
    | some (q, i) => (q.launch % 2 ^ 32 * 2 ^ 32 + q.warp % 64 * 2 ^ 26 + i % intervalMod * 64, s.partyDw1 q)
    | none => (0, 0)
  [1 * 2 ^ 56 + c.cause * 2 ^ 48 + kind * 2 ^ 44 + c.okind * 2 ^ 40 + f sp 39 + f orun 38 + f c.other.isNone 37 +
      f eng 36 + f pair 35 + p.launch % 2 ^ 32,
    s.partyDw1 p, p.warp % 64 * 2 ^ 58 + pc / 8 % 2 ^ 54, rpc / 8 % 2 ^ 54, addr, dw5, dw6, c.ostamp]

end Sys2Proof.Machine
end

