-- ==== Sys2Proof/Machine/Home.lean ====
section
/-!
DEFINITION. Translation, the home slices and the L1 (spec/14 R258 to R276, spec/21 R361 to R365, spec/08 R151): the walk
of a page-table tree, the counters of R471, what a load reads, write-backs and stores into dirty copies.
-/

namespace Sys2Proof.Machine

/-! ### Addresses (R258, R261) -/

/-- Bits [63:57] equal bit 56. -/
def canonical (a : Nat) : Bool := a < 2 ^ 64 && (bits a 63 56 == 0 || bits a 63 56 == 255)

/-! ### The walk (R269 to R271) -/

/-- An 8-byte word of memory. -/
def State.dword (s : State) (a : Nat) : Nat := leNat (s.mem.readBytes a 8)

/-- The address that an entry names. -/
def pteAddr (e : Nat) : Nat := bits e 47 8 * 256

/-- What a walk finds. -/
inductive Walk where
  | invalid
  | malformed
  | leaf (pte base size : Nat)
  deriving DecidableEq, Repr

/-- The levels of a walk: index bits, leaf size with 0 for none, and the alignment of the table below. -/
def walkLevels : List (Nat × Nat × Nat × Nat) :=
  [(56, 39, 0, 4096), (38, 30, 2 ^ 30, 4096), (29, 21, 2 ^ 21, 256), (20, 16, 2 ^ 16, 0)]

/-- A leaf whose fields break R271. -/
def leafMalformed (e size : Nat) : Bool :=
  bits e 6 5 != 0 ||
  (if bit e 7 then
    bits e 50 49 != 0 || bit e 48 || bits e 41 8 * 256 % size != 0
  else if bit e 51 then bit e 48 && size == 2 ^ 30
  else
    pteAddr e % size != 0 || decide (Config.memBytes < pteAddr e + size) || bits e 50 49 != dieOf (pteAddr e) ||
      (bit e 48 && size == 2 ^ 30))

def State.walkFrom (s : State) (va table : Nat) : List (Nat × Nat × Nat × Nat) → Walk
  | [] => .malformed
  | (hi, lo, size, below) :: rest =>
    let e := s.dword (table + 8 * bits va hi lo)
    if !bit e 0 then .invalid
    else if bit e 4 then
      if size = 0 then .malformed
      else if leafMalformed e size then .malformed
      else .leaf e (va % 2 ^ 57 / size * size) size
    else if rest.isEmpty || pteAddr e + 1 != e || pteAddr e % below != 0 then .malformed
    else s.walkFrom va (pteAddr e) rest

/-- The walk of a VI's tree for an address (R269). -/
def State.walkTree (s : State) (vi va : Nat) : Walk := s.walkFrom va (s.vi vi).cfg.root walkLevels

/-- The copy of die [d] that a replica record names, when valid (R272). -/
def State.replica (s : State) (pte d : Nat) : Option Nat :=
  let w := s.dword (pteAddr pte + 8 * d)
  if bit w 0 then some (bits w 47 16 * 2 ^ 16) else none

/-- The base of the page that a walker of die [d] uses (R272). -/
def State.pageBase (s : State) (pte d : Nat) : Nat :=
  if bit pte 51 then (s.replica pte d).getD ((s.replica pte (bits pte 50 49)).getD 0) else pteAddr pte

/-- Kinds of use of a translation. -/
inductive Use where
  | read | write | exec
  /-- both reading and writing, as an atomic does (R383) -/
  | both
  /-- neither permission is looked at -/
  | probe
  deriving DecidableEq, Repr

/-- The outcome of a translation: a local physical address, another module's, a cause, or service. -/
inductive Xl where
  | ok (pa : Nat)
  | remote (module pa : Nat)
  | cause (c : Nat)
  | service
  deriving DecidableEq, Repr

/-- What an entry allows (R271, R273, R63). [sysOk]: the access is one that may reach another module. -/
def State.useEntry (s : State) (vi die va : Nat) (e : TlbEntry) (u : Use) (sysOk : Bool) : Xl :=
  if (s.vi vi).cfg.keyCount ≤ bits e.pte 63 52 then .cause 0x12
  else if (match u with
    | .read => !bit e.pte 1
    | .write => !bit e.pte 2
    | .exec => !bit e.pte 3
    | .both => !bit e.pte 1 || !bit e.pte 2
    | .probe => false) then .cause 0x12
  else if bit e.pte 7 then
    (if sysOk then .remote (bits e.pte 47 42) (bits e.pte 41 8 * 256 + va % e.size) else .cause 0x15)
  else if bit e.pte 51 && (u == .write || u == .both) then .service
  else if bit e.pte 48 && u == .read && (if bit e.pte 51 then (s.replica e.pte die).isNone else bits e.pte 50 49 != die)
    then .service
  else .ok (e.pa + va % e.size)

/-- A cached translation that covers an address. -/
def tlbHit (vi va : Nat) (es : List TlbEntry) : Option TlbEntry :=
  es.find? fun e => e.vi == vi && decide (e.va ≤ va % 2 ^ 57) && decide (va % 2 ^ 57 < e.va + e.size)

/-- The port of a core sends [n] lines, one in a cycle (R96). -/
def State.usePort (s : State) (c n : Nat) : State :=
  if n = 0 then s else s.updCore c fun k => { k with portAt := max s.clock k.portAt + n }

/-- Lines that the walk to a leaf of a size reads: one at each level (R269). -/
def walkLines (size : Nat) : Nat := if size = 2 ^ 30 then 2 else if size = 2 ^ 21 then 3 else 4

/-- What a walk found kept by the core and by the walker of its die (R260, R274). -/
def State.keepXlat (s : State) (c die : Nat) (e : TlbEntry) : State :=
  let s := s.updCore c fun k => { k with tlb := e :: k.tlb.filter fun x => !(x.vi == e.vi && x.va == e.va) }
  { s with walk := (die, e) :: s.walk.filter fun x => !(x.1 == die && x.2.vi == e.vi && x.2.va == e.va) }

/-- The translation of an address for core [c]: a cached entry may be used as long as no shootdown has removed it; where it
differs from the tables, which of the two is used is a free value (R260, R271, R274). -/
def State.translate (s : State) (c vi va : Nat) (u : Use) (sysOk : Bool) : Xl × State :=
  if !canonical va then (.cause 0x11, s)
  else
    let die := c / Config.dieCores
    let fresh : Option TlbEntry := match s.walkTree vi va with
      | .leaf pte base size => some ⟨vi, base, size, pte, s.pageBase pte die⟩
      | _ => none
    let cached := match tlbHit vi va (s.core c).tlb with
      | some e => some e
      | none => tlbHit vi va ((s.walk.filter fun x => x.1 == die).map Prod.snd)
    let old : Option TlbEntry := if cached.isSome && cached != fresh && Config.freeBit s.freeCtr then cached else none
    let s := if cached.isSome && cached != fresh then { s with freeCtr := s.freeCtr + 1 } else s
    match old with
    | some e => (s.useEntry vi die va e u sysOk, s)
    | none =>
      match fresh with
      | some e =>
        let s := (if cached.isSome then s else s.usePort c (walkLines e.size)).keepXlat c die e
        (s.useEntry vi die va e u sysOk, s)
      | none => (if s.walkTree vi va = .invalid then .service else .cause 0x12, s)

/-- A translation after a fresh walk from the root, by the home or a unit with no cached entry (R271): an invalid entry is
not present. Where a warp would park for a replica to come or go, the unit uses the primary copy, which it collapses the page to
before it writes (R273). -/
def State.freshXlate (s : State) (die vi va : Nat) (u : Use) (sysOk : Bool) : Xl :=
  if !canonical va then .cause 0x11
  else
    match s.walkTree vi va with
    | .leaf pte base size =>
      match s.useEntry vi die va ⟨vi, base, size, pte, s.pageBase pte die⟩ u sysOk with
      | .service => .ok (s.pageBase pte (bits pte 50 49) + va % size)
      | x => x
    | .invalid => .cause 0x13
    | .malformed => .cause 0x12

/-- A use of a page by die [die] first needs a replica to come or go (R273). -/
def State.needsReplica (s : State) (die vi va : Nat) (u : Use) : Bool :=
  match s.walkTree vi va with
  | .leaf pte base size => s.useEntry vi die va ⟨vi, base, size, pte, s.pageBase pte die⟩ u false == .service
  | _ => false

/-- The physical address for use by a unit of the package, none when the translation fails. -/
def State.paOf (s : State) (vi va : Nat) (u : Use) : Option Nat :=
  match s.freshXlate 0 vi va u false with
  | .ok pa => some pa
  | _ => none

/-! ### The home slices (R262, R267, R361) -/

/-- The handle whose range holds an address (R267). -/
def State.handleOf (s : State) (vi va : Nat) : Option (Nat × Nat) :=
  ((s.vi vi).handles.find? fun h => decide (h.2.base ≤ va) && decide (va < h.2.base + h.2.len)).map fun h => (vi, h.1)

/-- The lines of a handle become unbound, and the least recently used of their slices (R268, R296). -/
def State.unbind (s : State) (vi h : Nat) : State :=
  let mine (e : L2Line) : Bool := e.handle == some (vi, h)
  let s := { s with l2 := (s.l2.filter fun e => !mine e) ++ (s.l2.filter mine).map fun (e : L2Line) => { e with handle := none } }
  s.updVi vi fun v => { v with handles := sdel v.handles h }

/-- A victim's handle is demoted, or evicted with every line of it (R268). -/
def State.demote (s : State) (vi h : Nat) : State :=
  match (s.vi vi).handles.find? fun b => b.1 == h with
  | none => { s with l2 := s.l2.map fun e => if e.handle == some (vi, h) then { e with handle := none } else e }
  | some b =>
    if b.2.prio = 0 then s.unbind vi h
    else s.updVi vi fun v => { v with handles := sins v.handles h { b.2 with prio := b.2.prio - 1 } }

/-- The order of a bound line among victims: the priority of its handle, then the handle's number (R268). -/
def State.victimKey (s : State) (e : L2Line) : Nat :=
  match e.handle with
  | some (vi, h) => (match (s.vi vi).handles.find? fun b => b.1 == h with | some b => b.2.prio * 256 + h | none => 0)
  | none => 0

/-- A line put among lines that rise by their keys, behind those of its own key. -/
def State.insertVictim (s : State) (e : L2Line) : List L2Line → List L2Line
  | [] => [e]
  | x :: r => if s.victimKey e < s.victimKey x then e :: x :: r else x :: s.insertVictim e r

/-- The victims among the lines of a set in their order (R268): the unbound ones from the least recently used on, then those of
the bound handle with the lowest priority, the lower handle number first. -/
def State.victimsOf (s : State) (set : List Nat) : List L2Line :=
  let here := (s.l2.filter fun e => set.contains e.line).reverse
  (here.filter fun e => e.handle.isNone) ++
    (here.filter fun e => e.handle.isSome).foldl (fun acc e => s.insertVictim e acc) []

/-- The bank of a line has the strong code (R450). -/
def State.strongBank (s : State) (line : Nat) : Bool :=
  (sget s.banks (64 * line / (192 * 2 ^ 20)) ⟨0, .normal⟩).code == .strong

/-- What the marks of a line that leaves count: spills to the side bits and records of the overflow area (R471). -/
def State.countSpill (s : State) (line : Nat) : Spill → State
  | .nothing => s
  | .side _ => s.count (((s.marks.find? fun m => m.line == line).map fun m => m.vi).getD 0) unitHome 2 1
  | .overflow ls => ls.foldl (fun (s : State) l => s.count l.vi unitHome 3 1) s

/-- A line leaves the L2 with its marks; none when they cannot be spilled (R371, R372). -/
def State.dropLine (s : State) (line : Nat) : Option State :=
  let strong := s.strongBank line
  ((s.countSpill line (s.spillOf line strong)).spillLine line strong).map fun t =>
    { t with l2 := t.l2.filter fun e => e.line != line }

/-- The first of some victims whose marks can be spilled leaves; its handle is demoted (R268, R372). -/
def State.evictFirst (s : State) : List L2Line → Option State
  | [] => none
  | e :: r =>
    match s.dropLine e.line with
    | some t => some (match e.handle with | some (vi, h) => t.demote vi h | none => t)
    | none => s.evictFirst r

/-- The lines among which a slice chooses a victim for a line: those of its set. -/
def State.setLines (s : State) (line : Nat) : List Nat :=
  let here := (s.l2.filter fun e => lineSlice e.line == lineSlice line).map fun e => e.line
  let set := here.filter fun l => Config.l2Set l == Config.l2Set line
  if set.isEmpty then here else set

/-- The slice of a line has room for it, where needed after a victim has left; none when no victim's marks can be spilled
(R262, R268, R372). -/
def State.lineRoom (s : State) (line : Nat) : Option State :=
  if (s.l2.filter fun e => lineSlice e.line == lineSlice line).length < Config.sliceLines then some s
  else s.evictFirst (s.victimsOf (s.setLines line))

def State.present (s : State) (line : Nat) : Bool := s.l2.any fun e => e.line == line

/-- The line is in its slice, the most recently used one, marked with the handle whose range holds it: it comes from HBM4, with
its marks restored, when it was not there (R262, R267, R373). -/
def State.touch (s : State) (vi va pa : Nat) : State :=
  let line := pa / 64
  let s := s.count vi unitHome 0 1
  let h := s.handleOf vi va
  match s.l2.find? fun e => e.line == line with
  | some e =>
    { s with l2 := { e with handle := h.or e.handle } :: s.l2.filter fun e => e.line != line }
  | none =>
    let s := (s.count vi unitHome 1 1).count vi unitHbm 0 1
    let t := (s.lineRoom line).getD s
    let s := (if t.l2.length < s.l2.length then t.count vi unitHbm 1 1 else t).restoreLine line
    { s with l2 := ⟨line, h⟩ :: s.l2 }

/-- A request from die [d] to die [e] crosses Culvert, counted by its beats, a free value (R471, R479; notes/assumptions/7.md). -/
def State.crossDies (s : State) (d e vi : Nat) : State :=
  if d = e then s else ({ s with freeCtr := s.freeCtr + 1 } : State).count vi unitCulvert 0 (Config.culvertBeats s.freeCtr)

/-- The die of a physical address (R479). -/
def dieOfPa (pa : Nat) : Nat := pa / (384 * 2 ^ 30)

/-- A request of a warp to the scratchpad of another block of its gang. -/
def State.crossGang (s : State) (w b : Nat) : State :=
  s.crossDies ((s.blockOf w).core / Config.dieCores) ((s.block b).core / Config.dieCores) (s.warp w).vi

/-- A request of core [c] at the home of a line. -/
def State.reach (s : State) (c vi va pa : Nat) : State := (s.crossDies (c / Config.dieCores) (dieOfPa pa) vi).touch vi va pa

/-- A request of a party to some words has to wait at its home: the party needs an alias and the table is full, the word needs an
entry and no store has room, or the line cannot come to the L2 (R361, R363, R372). -/
def State.homeWaits (s : State) (vi : Nat) (p : Party) (pas : List Nat) : Bool :=
  pas.any fun pa => s.aliasFull pa p || s.markFull vi (pa / 64) || (!s.present (pa / 64) && (s.lineRoom (pa / 64)).isNone)

/-- The marks as a check sees them: those of the lines that it names restored (R373). -/
def State.seen (s : State) (pas : List Nat) : State :=
  (dedup (pas.map fun pa => pa / 64)).foldl (fun (s : State) l => if s.present l then s else s.restoreLine l) s

/-- The word is held by an unapplied accumulate update of another class or type (R407). -/
def State.typedConflict (s : State) (pa : Nat) (a : Access) (ty : Option AtomTy) : Option Conflict :=
  let t := s.launches.findSome? fun l => (l.typed.find? fun x => x.1 == pa / 4 * 4).map Prod.snd
  match t with
  | none => none
  | some t =>
    if a.cls == .accumulate && ty == some t then none
    else
      let o := match (s.markAt a.party.vi pa).writer with | some (p, i, _) => some (p, i) | none => none
      some ⟨0x19, kindOf .accumulate true, o, match o with | some (p, i) => s.intervalStart p i | none => 0⟩

/-- The marks position of R285 at home: the first word of an access that conflicts. -/
def State.homeConflict (s : State) (vi : Nat) (a : Access) (ty : Option AtomTy) (pas : List Nat) :
    Option (Nat × Conflict) :=
  let s := s.seen pas
  pas.findSome? fun pa =>
    match s.typedConflict pa a ty with
    | some c => some (pa, c)
    | none => (s.checkWord (s.markAt vi pa) a).map fun c => (pa, c)

/-- The access of warp [w] with a class, in its current interval. -/
def State.access (s : State) (w : Nat) (cls : AccClass) (write : Bool) : Access :=
  let p := (s.warp w).party
  let (j, st) := s.intervalOf p
  ⟨p, j, st, cls, write⟩

/-- The bytes of a bank, and of its top part that the strong code vacates (R449, R450). -/
def bankBytes : Nat := 192 * 2 ^ 20

/-- The address is vacated: it reads as poisoned (R450). -/
def State.vacated (s : State) (pa : Nat) : Bool :=
  decide (bankBytes - 6 * 2 ^ 20 ≤ pa % bankBytes) && (sget s.banks (pa / bankBytes) ⟨0, .normal⟩).code == .strong

/-- The line of the address is poisoned (R431). -/
def State.poisoned (s : State) (pa : Nat) : Bool := s.poison.contains (pa / 64) || s.vacated pa

/-- The line is poisoned from now on (R431). -/
def State.poisonLine (s : State) (line : Nat) : State := if s.poison.contains line then s else { s with poison := line :: s.poison }

/-- The number of the Culvert link between two dies (R479). -/
def linkOf (a b : Nat) : Nat := Config.dies * min a b + max a b

/-- The home of the address lies across a link that is down: what core [c] reads of it is poisoned (R480). -/
def State.cut (s : State) (c pa : Nat) : Bool :=
  c / Config.dieCores != dieOf pa && (sget s.links (linkOf (c / Config.dieCores) (dieOf pa)) ⟨0, false⟩).down

def State.poisonedFor (s : State) (c pa : Nat) : Bool := s.poisoned pa || s.cut c pa

/-! ### The L1 (R263 to R265, R151) -/

def Warp.dirtyAt (w : Warp) (line : Nat) : Option DirtyLine := w.dirty.find? fun d => d.line == line

def Core.cleanAt (c : Core) (vi line : Nat) : Option CleanLine := c.clean.find? fun l => l.vi == vi && l.line == line

/-- The clean copy that warp [w] may read: filled since its interval began (R264). -/
def State.freshClean (s : State) (w line : Nat) : Option CleanLine :=
  match (s.coreOf w).cleanAt (s.warp w).vi line with
  | some l => if (s.intervalOf (s.warp w).party).2 ≤ l.tf then some l else none
  | none => none

/-- The byte comes from a clean copy whose line was poisoned as it was read (R285, R431). -/
def State.stalePoison (s : State) (w pa : Nat) : Bool :=
  !(match (s.warp w).dirtyAt (pa / 64) with | some d => d.bytes.any fun x => x.1 == pa % 64 | none => false) &&
    (match s.freshClean w (pa / 64) with | some l => l.poison | none => false)

/-- One byte as warp [w] loads it (R264): from its own dirty copy, a fresh clean copy, or home. -/
def State.loadByte (s : State) (w pa : Nat) : Byte :=
  match ((s.warp w).dirtyAt (pa / 64)).bind fun d => (d.bytes.find? fun x => x.1 == pa % 64).map Prod.snd with
  | some b => b
  | none =>
    match s.freshClean w (pa / 64) with
    | some l => l.bytes.getD (pa % 64) 0
    | none => s.mem.read pa

/-- The byte comes from the warp's own dirty copy. -/
def State.ownByte (s : State) (w pa : Nat) : Bool :=
  match (s.warp w).dirtyAt (pa / 64) with
  | some d => d.bytes.any fun x => x.1 == pa % 64
  | none => false

/-- The byte comes from home. -/
def State.homeByte (s : State) (w pa : Nat) : Bool := !s.ownByte w pa && (s.freshClean w (pa / 64)).isNone

/-- Warp [w] is registered for a line by one of its copies (R365). -/
def State.registered (s : State) (w line : Nat) : Bool :=
  (match (s.coreOf w).cleanAt (s.warp w).vi line with
   | some l => l.rgR.contains w || l.rgW.contains w
   | none => false) ||
  (((s.warp w).dirtyAt line).isSome && (s.coreOf w).rg.any fun r => r.1 == w && r.2.1 == line)

/-- The words of a list of byte addresses that a mark request names (R365): not all bytes its own, line not registered. -/
def State.markWords (s : State) (w : Nat) (pas : List Nat) : List Nat :=
  dedup ((pas.filter fun pa => !s.ownByte w pa && !s.registered w (pa / 64)).map fun pa => pa / 4 * 4)

/-- The registration bits of warp [w] in its core's copies of a line changed (R365). -/
def State.register (s : State) (w line : Nat) (wr : Bool) (f : CleanLine → CleanLine) : State :=
  let vi := (s.warp w).vi
  let own := ((s.warp w).dirtyAt line).isSome
  s.updCore (s.blockOf w).core fun k =>
    { k with
      clean := k.clean.map fun l => if l.vi == vi && l.line == line then f l else l
      rg := if own && !k.rg.contains (w, line, wr) then (w, line, wr) :: k.rg else k.rg }

/-- RG.R of the warp set on a line whose 16 words its request marked (R365). -/
def State.registerRead (s : State) (w line : Nat) : State :=
  s.register w line false fun l => if l.rgR.contains w then l else { l with rgR := w :: l.rgR }

/-- RG.W of the warp set on a line of which its accepted intent covered the 16 words (R365). -/
def State.registerWrite (s : State) (w line : Nat) : State :=
  s.register w line true fun l => if l.rgW.contains w then l else { l with rgW := w :: l.rgW }

/-- The RG bits of the warp that its core holds and a test picks cleared (R365). -/
def State.clearRg (s : State) (w : Nat) (f : Nat → Bool) : State :=
  s.updCore (s.blockOf w).core fun k => { k with rg := k.rg.filter fun r => !(r.1 == w && f r.2.1) }

/-- The RG bits of the warp cleared, as at each advance of its interval (R365). -/
def State.clearRegistration (s : State) (w : Nat) : State :=
  (s.updCore (s.blockOf w).core fun k => { k with clean := k.clean.map fun l =>
    { l with rgR := l.rgR.filter (· != w), rgW := l.rgW.filter (· != w) } }).clearRg w fun _ => true

/-! ### The Levee (R95, R96) -/

/-- The tokens of a VI's bucket at a core's port. Work that the model performs at once may leave a debt. -/
def State.tokens (s : State) (c vi : Nat) : Int := sget (s.core c).tokens vi 0

/-- How far a VI stands behind the last one served in the round robin (R96). -/
def Core.portRank (c : Core) (vi : Nat) : Nat := (vi + 63 - c.lastVi) % 64

/-- The port of core [c] does not take a line of a VI in this cycle (R96): it still sends earlier lines, the bucket holds less
than a line, an older request of the VI waits, or it is the turn of another VI whose request waits. -/
def State.portBusy (s : State) (c vi : Nat) : Bool :=
  let k := s.core c
  decide (s.clock < k.portAt) || decide (s.tokens c vi < 64) ||
    k.port.any fun q => q.vi == vi || (decide (64 ≤ s.tokens c q.vi) && decide (k.portRank q.vi < k.portRank vi))

/-- The port does not take a line of a warp's VI now. -/
def State.portShort (s : State) (w : Nat) : Bool := s.portBusy (s.blockOf w).core (s.warp w).vi

/-- The tokens of [n] lines spent, as the port sends them. -/
def State.spend (s : State) (c vi n : Nat) : State :=
  if n = 0 then s
  else (s.usePort c n).updCore c fun k => { k with tokens := sset k.tokens vi (sget k.tokens vi 0 - 64 * (n : Int)) 0, lastVi := vi }

/-! ### Write-backs and the L1's ways (R152, R263 to R265) -/

/-- A dirty copy's bytes merged into its line at home, where a vacated address discards them (R450); the core's clean copy goes
(R265). -/
def State.mergeDirty (s : State) (c vi : Nat) (d : DirtyLine) : State :=
  let s := s.reach c vi d.vline (64 * d.line)
  let s := if s.vacated (64 * d.line) then s else
    { s with mem := s.mem.writeCells (d.bytes.map fun (x : Nat × Byte) => (64 * d.line + x.1, x.2)) }
  s.updCore c fun k => { k with clean := k.clean.filter fun x => !(x.vi == vi && x.line == d.line) }

/-- The warp's committed-dirty copies that satisfy a test, written back (R265); the secondary copy drops them (R445). -/
def State.writeBack (s : State) (w : Nat) (f : DirtyLine → Bool) : State :=
  let g (d : DirtyLine) : Bool := d.state == .committed && f d
  let ds := (s.warp w).dirty.filter g
  let c := (s.blockOf w).core
  let s := if s.secondary w then s
    else (ds.foldl (fun (s : State) d => s.mergeDirty c (s.warp w).vi d) s).spend c (s.warp w).vi ds.length
  s.updWarp w fun x => { x with dirty := x.dirty.filter fun d => !g d }

def State.writeBackAll (s : State) (w : Nat) : State := s.writeBack w fun _ => true

/-- The L1 set of a line. -/
def l1Set (line : Nat) : Nat := Nat.xor (line % 256) (line / 256 % 256)

/-- Ways of a set that region-dirty copies of the core's warps occupy; they alone cannot be replaced. -/
def State.waysUsed (s : State) (c set : Nat) : Nat :=
  s.warps.foldl (fun n w =>
    if (s.block w.block).core == c && (s.block w.block).state == .resident then
      n + (w.dirty.filter fun d => d.state != .committed && !d.ovf && l1Set d.line == set).length
    else n) 0

/-- Copies of a set that may be replaced: committed-dirty ones of the core's warps, by warp and line. -/
def State.committedIn (s : State) (c set : Nat) : List (Nat × Nat) :=
  (List.range s.warps.length).flatMap fun w =>
    if (s.blockOf w).core == c && (s.blockOf w).state == .resident then
      ((s.warp w).dirty.filter fun d => d.state == .committed && !d.ovf && l1Set d.line == set).map fun d => (w, d.line)
    else []

/-- Every way of a set is taken. -/
def State.waysFull (s : State) (c set : Nat) : Bool :=
  decide (Config.l1Ways ≤ s.waysUsed c set + (s.committedIn c set).length +
    ((s.core c).clean.filter fun l => l1Set l.line == set).length)

/-- A way of a set is freed when every one is taken: by the set's oldest clean copy, else by a committed-dirty copy, which is
written back (R152, R264, R265). -/
def State.makeWay (s : State) (c set : Nat) : State :=
  if !s.waysFull c set then s
  else
    match ((s.core c).clean.filter fun l => l1Set l.line == set).getLast? with
    | some l => s.updCore c fun k => { k with clean := k.clean.filter fun x => !(x.vi == l.vi && x.line == l.line) }
    | none =>
      match (s.committedIn c set).head? with
      | some x => s.writeBack x.1 fun d => d.line == x.2
      | none => s

/-- The line of home as a clean copy of the warp's core, with a new fill stamp (R263, R264); none is kept when region-dirty
copies take every way. -/
def State.fillClean (s : State) (w line : Nat) : State :=
  let vi := (s.warp w).vi
  let c := (s.blockOf w).core
  let l : CleanLine := ⟨line, vi, s.mem.readBytes (64 * line) 64, s.clock, s.poisonedFor c (64 * line), [], []⟩
  let s := s.count vi unitCore 16 1
  let s := s.updCore c fun k => { k with clean := k.clean.filter fun x => !(x.vi == vi && x.line == line) }
  let s := s.makeWay c (l1Set line)
  if s.waysFull c (l1Set line) then s else s.updCore c fun k => { k with clean := l :: k.clean }

/-! ### Loads and stores (R264, R151) -/

/-- The lines that a load asks its homes for: to fetch bytes, or to mark words. -/
def State.askedLines (s : State) (w : Nat) (pas words : List Nat) : List Nat :=
  (dedup (pas.map fun pa => pa / 64)).filter fun l =>
    pas.any (fun pa => pa / 64 == l && s.homeByte w pa) || words.any fun p => p / 64 == l

/-- The effects of a data load of bytes at physical addresses that found no cause: marks recorded, clean copies filled
unless the hint says otherwise, registration (R264, R284, R365). -/
def State.loadEffects (s : State) (w : Nat) (vps : List (Nat × Nat)) (nt : Bool) : State :=
  let vi := (s.warp w).vi
  let c := (s.blockOf w).core
  let a := s.access w .data false
  let words := s.markWords w (vps.map Prod.snd)
  let lines := dedup (vps.map fun x => x.2 / 64)
  let fills := lines.filter fun l => vps.any fun x => x.2 / 64 == l && s.homeByte w x.2
  let asked := s.askedLines w (vps.map Prod.snd) words
  let s := s.spend c vi asked.length
  let s := asked.foldl (fun (s : State) l =>
    s.reach c vi (((vps.find? fun x => x.2 / 64 == l).map Prod.fst).getD 0) (64 * l)) s
  let s := if s.secondary w then s else s.recordWords vi a words
  let s := if nt then s else fills.foldl (fun (s : State) l => s.fillClean w l) s
  lines.foldl (fun (s : State) l =>
    if (List.range 16).all fun k => words.contains (64 * l + 4 * k) then s.registerRead w l else s) s

/-- Bytes by offset stored into the warp's region-dirty copy of a line (R151), with the word's PC and lanes by word; what
it held committed of the line is first written back. -/
def State.storeLine (s : State) (w line vline : Nat) (bs : List (Nat × Byte)) (who : List (Nat × Nat × Nat))
    (ovf nt : Bool) : State :=
  let s := s.writeBack w fun d => d.line == line
  let s := if ((s.warp w).dirtyAt line).isSome then s
    else (if ovf then s else s.makeWay (s.blockOf w).core (l1Set line)).clearRg w fun l => l == line
  let add (d : DirtyLine) : DirtyLine :=
    { d with
      bytes := bs.foldl (fun m b => sins m b.1 b.2) d.bytes
      who := who ++ d.who.filter fun x => who.all fun y => y.1 != x.1
      nt := d.nt || nt }
  s.updWarp w fun x =>
    if (x.dirtyAt line).isSome then { x with dirty := x.dirty.map fun e => if e.line == line then add e else e }
    else { x with dirty := x.dirty ++ [add ⟨line, vline, [], [], .region, ovf, nt⟩] }

end Sys2Proof.Machine
end

