-- ==== Sys2Proof/Machine/Counters.lean ====
section
/-!
DEFINITION. The counter page (spec/32 R469 to R474): its registers, their writes, and `perf.rd` and `perf.clr`.
-/

namespace Sys2Proof.Machine

/-- The units and events of R471. -/
def listedEvent (unit ev : Nat) : Bool :=
  match unit with
  | 0 => ev ≤ 1 || (0x10 ≤ ev && ev ≤ 0x1F)
  | 1 => ev ≤ 4 || (8 ≤ ev && ev ≤ 12) || (16 ≤ ev && ev ≤ 18)
  | 2 => ev ≤ 4
  | 3 => ev == 0
  | 4 => ev ≤ 2
  | _ => false

/-- The tick exponent of the configuration record (R484, R472). -/
def State.tickExp (s : State) : Nat := bits (s.cfg.getD 7 0) 4 0

/-- The lowest enabled group, 4 for none. -/
def lowGroup (gmask : Nat) : Nat := ((List.range 4).find? fun g => bit gmask g).getD 4

/-- The next enabled group after [g], cyclically (R472). -/
def nextGroup (gmask g : Nat) : Nat :=
  (([1, 2, 3, 4].map fun k => (g + k) % 4).find? fun h => bit gmask h).getD 4

/-- The count and flag of counter [n] cleared. -/
def CtrPage.clear (c : CtrPage) (n : Nat) : CtrPage := { c with counts := sdel c.counts n, ovf := mDiff c.ovf (2 ^ n) }

/-- A write of CSEL_n (R470). -/
def State.writeCsel (s : State) (vi n v : Nat) : State :=
  if bit v 63 && !listedEvent (bits v 59 56) (bits v 55 48) then s
  else
    let x := bits v 63 63 * 2 ^ 63 + bits v 59 48 * 2 ^ 48
    s.updVi vi fun y => { y with ctr := { y.ctr.clear n with csel := sset y.ctr.csel n x 0 } }

/-- A write of CCTL (R469, R472). -/
def State.writeCctl (s : State) (vi v : Nat) : State :=
  if bits v 12 8 < 10 || 20 < bits v 12 8 then s
  else
    let x := bits v 12 8 * 256 + bits v 4 0
    let g := bits v 3 0
    s.updVi vi fun y =>
      let c := y.ctr
      if c.group < 4 && bit g c.group then { y with ctr := { c with cctl := x } }
      else { y with ctr := { c with cctl := x, group := lowGroup g, sliceStart := s.devTime } }

/-- A write of CLOST: ones clear (R469). -/
def State.writeClost (s : State) (vi v : Nat) : State :=
  s.updVi vi fun y => { y with ctr := { y.ctr with clost := mDiff y.ctr.clost v } }

/-- A 64-bit data store to the counter page as it takes effect; offsets that name no register write nothing (R469). -/
def State.writeCtr (s : State) (vi off v : Nat) : State :=
  if off < 0x200 then s.writeCsel vi (off / 8) v
  else if off = 0x200 then s.writeCctl vi v
  else if off = 0x208 then s.writeClost vi v
  else s

/-- The register at an offset of the counter page (R469). -/
def State.readCtr (s : State) (vi off : Nat) : Nat :=
  let c := (s.vi vi).ctr
  if off < 0x200 then sget c.csel (off / 8) 0
  else if off = 0x200 then c.cctl
  else if off = 0x208 then c.clost
  else if off = 0x210 then s.tickExp
  else 0

/-- The offset in the counter page of a virtual address (R469). -/
def State.ctrOffset (s : State) (vi va : Nat) : Option Nat :=
  let b := (s.vi vi).cfg.ctrBase
  if b ≠ 0 ∧ b ≤ va ∧ va < b + 4096 then some (va - b) else none

/-- The value that `perf.rd` returns (R185). -/
def State.perfRead (s : State) (vi n : Nat) : Nat :=
  let c := (s.vi vi).ctr
  if bit (sget c.csel n 0) 63 then
    sget c.counts n 0 + (if bit c.ovf n then 2 ^ 63 else 0)
  else 0

/-- Counter [n] counts region commits now. -/
def CtrPage.countsCommits (c : CtrPage) (n : Nat) : Bool :=
  let x := sget c.csel n 0
  bit x 63 && bits x 59 48 == 0x100 && c.group == n / 16

/-- `perf.clr` at the commit of its region; the clear wins over the increment of that commit, which it loses (R185,
R474). -/
def State.perfClear (s : State) (vi n : Nat) : State :=
  s.updVi vi fun y => { y with ctr :=
    { y.ctr.clear n with clost := if y.ctr.countsCommits n then mOr y.ctr.clost (2 ^ n) else y.ctr.clost } }

end Sys2Proof.Machine
end

