-- ==== Sys2Proof/Machine/Hash.lean ====
section
/-!
DEFINITION. The generator of random draws (spec/09 R182) and the fold of signatures (spec/23 R415).
-/

namespace Sys2Proof.Machine

def m32 : Nat := 2 ^ 32

/-- One round of Philox-4x32. -/
def philoxRound (c : Nat × Nat × Nat × Nat) (k : Nat × Nat) : Nat × Nat × Nat × Nat :=
  let (c0, c1, c2, c3) := c
  let p0 := 0xD2511F53 * c0
  let p1 := 0xCD9E8D57 * c2
  (Nat.xor (Nat.xor (p1 / m32) c1) k.1, p1 % m32, Nat.xor (Nat.xor (p0 / m32) c3) k.2, p0 % m32)

def philoxRounds : Nat → Nat × Nat × Nat × Nat → Nat × Nat → Nat × Nat × Nat × Nat
  | 0, c, _ => c
  | n + 1, c, k => philoxRounds n (philoxRound c k) ((k.1 + 0x9E3779B9) % m32, (k.2 + 0xBB67AE85) % m32)

/-- philox4x32_10 of R182, word [j] of the four. -/
def philox (c : Nat × Nat × Nat × Nat) (k : Nat × Nat) (j : Nat) : Nat :=
  let (x0, x1, x2, x3) := philoxRounds 10 c k
  match j with
  | 0 => x0
  | 1 => x1
  | 2 => x2
  | _ => x3

def crcBit (poly : Nat) (crc : Nat) (b : Bool) : Nat :=
  let top := bit crc 63
  let sh := crc * 2 % 2 ^ 64
  if top != b then Nat.xor sh poly else sh

/-- CRC-64/ECMA-182 folded over a byte, most significant bit first (R415). -/
def crcByte (crc : Nat) (x : Nat) : Nat :=
  [7, 6, 5, 4, 3, 2, 1, 0].foldl (fun c k => crcBit 0x42F0E1EBA9EA3693 c (bit x k)) crc

def crcBytes (crc : Nat) (xs : List Nat) : Nat := xs.foldl crcByte crc

/-- The [n] little-endian bytes of a number, as numbers. -/
def byteList (n x : Nat) : List Nat := (List.range n).map fun k => x >>> (8 * k) % 256

end Sys2Proof.Machine
end

