-- ==== Sys2Proof/Machine/AtomicOps.lean ====
section
/-!
DEFINITION. The arithmetic and the classes of atomics (spec/22 R377 to R379).
-/

namespace Sys2Proof.Machine

/-- The integer type of an atomic type. -/
def atInt : AtomTy → Ty
  | .i32 => .i32
  | .i64 => .i64
  | .n64 => .n64
  | _ => .n32

/-- The element format of a float atomic type. -/
def atFmt : AtomTy → Fmt
  | .f64 => fmtF64
  | .f16x2 => fmtF16
  | .bf16x2 => fmtBF16
  | _ => fmtF32

/-- The AT.TYPE code (R377). -/
def atTyCode : AtomTy → Nat
  | .i32 => 0 | .n32 => 1 | .i64 => 2 | .n64 => 3 | .f32 => 4 | .f64 => 5 | .f16x2 => 6 | .bf16x2 => 7

/-- The AT.OP code (R378). -/
def atOpCode : AtomOp → Nat
  | .add => 0 | .sub => 1 | .inc => 2 | .dec => 3 | .min => 4 | .max => 5 | .and => 6 | .or => 7 | .xch => 8 | .cas => 9

def atBits (t : AtomTy) : Nat := 32 * t.regs

/-- A float addition rounded once to nearest even (R379). -/
def atomFadd (f : Fmt) (a b : Nat) : Nat := (fAdd f (decFloat f a) (decFloat f b) .rn false 0).1

/-- The new value of a word (R378). -/
def atomNew (op : AtomOp) (t : AtomTy) (old b c : Nat) : Nat :=
  let n := atBits t
  let x := intVal (atInt t) old
  let y := intVal (atInt t) b
  match op with
  | .add =>
    if t.isInt then wrap n (x + y)
    else if t.packed then
      atomFadd (atFmt t) (old % 2 ^ 16) (b % 2 ^ 16) + 2 ^ 16 * atomFadd (atFmt t) (old / 2 ^ 16 % 2 ^ 16) (b / 2 ^ 16 % 2 ^ 16)
    else atomFadd (atFmt t) (old % 2 ^ n) (b % 2 ^ n)
  | .sub => wrap n (x - y)
  | .inc => wrap n (x + 1)
  | .dec => wrap n (x - 1)
  | .min => if t.isInt then (if x ≤ y then wrap n x else wrap n y) else (fMinMax (atFmt t) false false (old % 2 ^ n) (b % 2 ^ n)).1
  | .max => if t.isInt then (if y ≤ x then wrap n x else wrap n y) else (fMinMax (atFmt t) true false (old % 2 ^ n) (b % 2 ^ n)).1
  | .and => Nat.land (old % 2 ^ n) (b % 2 ^ n)
  | .or => Nat.lor (old % 2 ^ n) (b % 2 ^ n)
  | .xch => b % 2 ^ n
  | .cas => if old % 2 ^ n = c % 2 ^ n then b % 2 ^ n else old % 2 ^ n

/-- The class of an atomic (R378): every value-returning form, `xch` and `cas` are exchange accesses. -/
def atomCls (op : AtomOp) (t : AtomTy) (returns : Bool) : AccClass :=
  if returns then .exchange
  else
    match op with
    | .add => if t.isInt then .count else .accumulate
    | .sub | .inc | .dec => .count
    | .min | .max | .and | .or => .monotone
    | .xch | .cas => .exchange

end Sys2Proof.Machine
end

