-- ==== Sys2Proof/Machine/Replica.lean ====
section
/-!
DEFINITION. Shootdowns and the collapse of a replicated page (spec/14 R272 to R274): what an agent drops, the leaf entry of a
page, and how a unit that writes through a VI's page tables has its page collapsed first.
-/

namespace Sys2Proof.Machine

/-- The address of a leaf entry with its value, page base and size. -/
def State.leafFrom (s : State) (va table : Nat) : List (Nat × Nat × Nat × Nat) → Option (Nat × Nat × Nat)
  | [] => none
  | (hi, lo, size, _) :: rest =>
    let a := table + 8 * bits va hi lo
    let e := s.dword a
    if !bit e 0 then none else if bit e 4 then some (a, e, size) else s.leafFrom va (pteAddr e) rest

/-- The leaf of a well-formed translation: entry address, entry, page base and size. -/
def State.leafAt (s : State) (vi va : Nat) : Option (Nat × Nat × Nat × Nat) :=
  match s.walkTree vi va with
  | .leaf pte base size => (s.leafFrom va (s.vi vi).cfg.root walkLevels).map fun x => (x.1, pte, base, size)
  | _ => none

/-- A cached translation overlaps a range. -/
def TlbEntry.overlaps (e : TlbEntry) (vi va len : Nat) : Bool :=
  e.vi == vi && decide (e.va < va % 2 ^ 57 + len) && decide (va % 2 ^ 57 < e.va + e.size)

/-- A dirty copy lies in a range; both by the 57 bits that translation looks at (R258). -/
def DirtyLine.inRange (d : DirtyLine) (va len : Nat) : Bool :=
  decide (va % 2 ^ 57 < d.vline % 2 ^ 57 + 64) && decide (d.vline % 2 ^ 57 < va % 2 ^ 57 + len)

/-- What one agent does at a shootdown (R274): core agents are numbered as their cores, the die walkers follow. -/
def State.agentDrops (s : State) (vi va len : Nat) (wb : Bool) (agent : Nat) : State :=
  if agent < Config.cores then
    let s := s.updCore agent fun c => { c with tlb := c.tlb.filter fun e => !e.overlaps vi va len }
    if !wb then s
    else
      ((List.range s.warps.length).filter fun w => (s.warp w).vi == vi && (s.blockOf w).core == agent && (s.blockOf w).state == .resident).foldl
        (fun (s : State) w => s.writeBack w fun d => d.inRange va len) s
  else { s with walk := s.walk.filter fun x => !(x.1 == agent - Config.cores && x.2.overlaps vi va len) }

/-- Every agent of the package. -/
def agents : List Nat := List.range (Config.cores + Config.dies)

/-- A shootdown through all of its steps. -/
def State.shootAll (s : State) (vi va len : Nat) (wb : Bool) : State :=
  agents.foldl (fun (s : State) a => s.agentDrops vi va len wb a) s

/-- The live readers of a replica's line joined to the primary's as many readers with the newest stamp (R273). -/
def State.mergeReaders (s : State) (vi src dst : Nat) : State :=
  let a := s.lineMarks vi src
  let b := s.lineMarks vi dst
  let stamp (m : WordMark) : Nat := if m.many then s.fullStamp m.rstamp else match m.reader with | some (p, i) => s.intervalStart p i | none => 0
  let has (m : WordMark) : Bool := m.many || m.reader.isSome
  let join (x y : WordMark) : WordMark :=
    let x := s.dropDead x
    let y := s.dropDead y
    if !has x then y
    else { y with many := true, reader := none, rstamp := max (stamp x) (stamp y) % stampMod, rsync := x.rsync && (!has y || y.rsync) }
  let s := s.setMarks { b with words := (List.range 16).map fun k => join (a.get k) (b.get k) }
  s.setMarks { a with words := List.replicate 16 WordMark.empty }

/-- A write translation collapses a replicated page to its primary copy (R273). -/
def State.collapse (s : State) (vi va : Nat) : State :=
  match s.leafAt vi va with
  | none => s
  | some (at_, pte, base, size) =>
    if !bit pte 51 then s
    else
      let home := bits pte 50 49
      let prim := (s.replica pte home).getD 0
      let others := (List.range Config.dies).filterMap fun d => if d = home then none else s.replica pte d
      let s := s.shootAll vi base size false
      let away := (s.sides.map Prod.fst).filter fun l => (others.any fun o => decide (o ≤ 64 * l) && decide (64 * l < o + size))
      let s := away.foldl (fun (s : State) l => s.restoreLine l) s
      let lines := (s.marks.filter fun m => m.vi == vi).map fun m => m.line
      let s := others.foldl (fun (s : State) o =>
        (lines.filter fun l => decide (o ≤ 64 * l) && decide (64 * l < o + size)).foldl (fun (s : State) l =>
          s.mergeReaders vi l ((prim + (64 * l - o)) / 64)) s) s
      { s with mem := s.mem.writeBytes at_ (leBytes 8 (pte - 2 ^ 51 - pteAddr pte + prim)) }

/-- The physical address at which a unit of the package writes, its page collapsed when it was replicated. -/
def State.writeAt (s : State) (vi va : Nat) : Option Nat × State :=
  match s.paOf vi va .write with
  | none => (none, s)
  | some _ =>
    let s := s.collapse vi va
    (s.paOf vi va .write, s)

end Sys2Proof.Machine
end

