-- ==== Sys2Proof/Machine/Pages.lean ====
section
/-!
DEFINITION. The scratchpad: maps, frames, backing slots and their service (spec/05 R90 to R93), window fills (spec/14
R276), the marks of scratchpad words (spec/21 R366 to R368), and the bytes of a page.
-/

namespace Sys2Proof.Machine

/-! ### Backing slots (R93, R366, R367) -/

/-- The 16 bits of a scratchpad mark: SMK.WW, SMK.WT, SMK.RW, SMK.MR and SMK.CL (R366). -/
def SpMark.code (m : SpMark) : Nat :=
  let w : Nat := match m.writer with | some (i, tag) => i % 32 * 16 + tag % 15 | none => 31 * 16 + 15
  let r : Nat := match m.reader with | .none => 31 * 2 + 1 | .one i => i % 32 * 2 | .many => 1
  w * 128 + r * 2 + (if m.cnt then 1 else 0)

/-- The scratchpad mark that 16 bits hold. -/
def spMarkOf (x : Nat) : SpMark where
  writer := if bits x 10 7 = 15 then none else some (bits x 15 11, bits x 10 7)
  reader := if bit x 1 then (if bits x 6 2 = 0 then .many else .none) else .one (bits x 6 2)
  cnt := bit x 0

/-- The entries of a sparse map by the values at its first [n] keys. -/
def sparseOf {β : Type} [DecidableEq β] (n : Nat) (f : Nat → β) (d : β) : Sparse β :=
  (List.range n).filterMap fun k => if f k = d then none else some (k, f k)

/-- The 7 KiB of a slot: 4 KiB of data, 2 KiB of marks and 1 KiB of read tags, four bits by line and warp (R93, R367). -/
def Page.toSlot (p : Page) : List Byte :=
  ((List.range 4096).map fun k => sget p.data k 0) ++
  ((List.range 1024).flatMap fun k => leBytes 2 (sget p.marks k SpMark.empty).code) ++
  (List.range 1024).map fun k => BitVec.ofNat 8 (sget p.reads (2 * k) 15 + 16 * sget p.reads (2 * k + 1) 15)

/-- The page that the bytes of a slot hold, [poison] being the bits of its poisoned words. -/
def pageOfSlot (bs : List Byte) (poison : Nat) : Page where
  data := sparseOf 4096 (fun k => bs.getD k 0) 0
  marks := sparseOf 1024 (fun k => spMarkOf (leNat [bs.getD (4096 + 2 * k) 0, bs.getD (4097 + 2 * k) 0])) SpMark.empty
  reads := sparseOf 2048 (fun k => (bs.getD (6144 + k / 2) 0).toNat / 16 ^ (k % 2) % 16) 15
  poison := poison

/-- Bytes of a slot, and its physical address (R93). -/
def slotBytes : Nat := 7168
def State.slotAt (s : State) (vi slot : Nat) : Nat := (s.vi vi).cfg.spbkBase + slotBytes * slot

/-- The page in a backing slot of a VI; its reads are tags. -/
def State.readSlot (s : State) (vi slot : Nat) : Page :=
  pageOfSlot (s.mem.readBytes (s.slotAt vi slot) slotBytes) (sget (s.vi vi).slots slot 0)

/-- A page written to a backing slot. -/
def State.writeSlot (s : State) (vi slot : Nat) (p : Page) : State :=
  ({ s with mem := s.mem.writeBytes (s.slotAt vi slot) p.toSlot }).updVi vi fun v => { v with slots := sins v.slots slot p.poison }

/-- Lines that the port of a core sends or asks for to write or read a slot (R96). -/
def slotLines : Nat := 112

/-! ### Pages in frames -/

def State.spEntry (s : State) (b p : Nat) : SpEntry := sget (s.block b).map p SpEntry.empty

def State.setSpEntry (s : State) (b p : Nat) (e : SpEntry) : State :=
  s.updBlock b fun x => { x with map := sset x.map p e SpEntry.empty }

/-- The content of a page: in its frame, else in its backing slot, whose reads are tags. -/
def State.page (s : State) (b p : Nat) : Page :=
  match (s.core (s.block b).core).frames.find? fun f => f.2.blk == b && f.2.pg == p with
  | some f => f.2.page
  | none =>
    let e := s.spEntry b p
    if e.b then { s.readSlot (s.block b).vi e.slot with reads := [] } else Page.empty

def State.updPage (s : State) (b p : Nat) (f : Page → Page) : State :=
  let e := s.spEntry b p
  if !e.p && e.b then s.writeSlot (s.block b).vi e.slot (f (s.readSlot (s.block b).vi e.slot))
  else s.updCore (s.block b).core fun c => { c with frames := c.frames.map fun x =>
    if x.2.blk == b && x.2.pg == p then (x.1, { x.2 with page := f x.2.page }) else x }

/-- The page number of the trap area of warp [i] of a block (R425), above every map page. -/
def trapPage (i : Nat) : Nat := 4096 + i

/-- The party of warp [i] of a block; 63 for the window party (R18). The secondary copy of a redundant block is told apart
by 64 added to the interface. -/
def State.partyOf (s : State) (b i : Nat) : Party :=
  ⟨(s.block b).vi + 64 * (s.block b).copy, (s.launch (s.block b).launch).num, (s.block b).lin, i⟩

/-- Warps of a block. -/
def State.blockWarps (s : State) (b : Nat) : List Nat :=
  (List.range s.warps.length).filter fun w => (s.warp w).block == b

/-! ### Intervals as the core keeps them (R367) -/

/-- The stamps of a warp's intervals that the core keeps: the current number, whether it is still open, and the closed ones,
latest first: at least the last 15, since the last closed one of an exited warp is numbered below its current one. -/
def State.coreEnds (s : State) (p : Party) : Nat × Bool × List PastInt :=
  match s.rec? p with
  | some r => (r.cur, r.status != .exited, r.past)
  | none => (0, false, [])

/-- The writer's interval, the latest whose number mod 15 is the tag, has ended below [st] with the guard. -/
def State.spWriterEnded (s : State) (p : Party) (tag st : Nat) : Bool :=
  let (c, live, past) := s.coreEnds p
  let d := (c % 15 + 15 - tag) % 15
  if d = 0 && live then false
  else
    match past[(if d = 0 then 15 else d) - 1]? with
    | some q => q.busy.isEmpty && decide (q.e + 8 < st)
    | none => true

/-- A reader whose bit is clear has ended: its latest end stamp (R367). -/
def State.spReaderEnded (s : State) (p : Party) (readBit : Bool) (st : Nat) : Bool :=
  if readBit then false
  else
    match (s.coreEnds p).2.2.head? with
    | some q => !anyBusy (s.coreEnds p).2.2 && decide (q.e + 8 < st)
    | none => true

/-! ### Scratchpad marks (R364, R366, R367) -/

/-- The class that a scratchpad mark gives its entries. -/
def SpMark.cls (m : SpMark) : AccClass := if m.cnt then .count else .data

/-- Classes that a record keeps as count. -/
def spCount (k : AccClass) : Bool := k.relaxed

/-- Exempt at the map unit: count, accumulate and monotone accesses count as one class. -/
def spExempt (m : SpMark) (k : AccClass) : Bool := m.cnt && spCount k

/-- The read bit of warp [i] for the line of a word. -/
def Page.readBit (p : Page) (word i : Nat) : Bool := bit (sget p.reads (word / 16) 0) i

/-- The interval that a reader entry names: the current one when its bit is set, else its latest closed one. -/
def State.spReaderInt (s : State) (p : Party) (readBit : Bool) : Nat :=
  let c := (s.coreEnds p).1
  if readBit then c else (c + intervalMod - 1) % intervalMod

/-- The interval that a writer tag names. -/
def State.spWriterInt (s : State) (p : Party) (tag : Nat) : Nat :=
  let c := (s.coreEnds p).1
  (c + intervalMod - (c % 15 + 15 - tag) % 15) % intervalMod

/-- check_word against a scratchpad mark, by warp [q] of the block or, with none, by another block's warp. -/
def State.spCheck (s : State) (b pg word : Nat) (q : Option Nat) (k : AccClass) (write : Bool) (st : Nat) :
    Option Conflict :=
  let p := s.page b pg
  let m := sget p.marks word SpMark.empty
  let cause := if m.cls == .data && k == .data then 0x18 else 0x19
  let ex := spExempt m k
  let wr : Option Conflict :=
    match m.writer with
    | some (i, tag) =>
      let py := s.partyOf b i
      if q != some i && !ex && !s.spWriterEnded py tag st then
        let j := s.spWriterInt py tag
        some ⟨cause, kindOf m.cls true, some (py, j), s.intervalStart py j⟩
      else none
    | none => none
  match wr with
  | some c => some c
  | none =>
    if !write || ex then none
    else
      match m.reader with
      | .none => none
      | .one i =>
        let py := s.partyOf b i
        if q != some i && !s.spReaderEnded py (p.readBit word i) st then
          let j := s.spReaderInt py (p.readBit word i)
          some ⟨cause, kindOf m.cls false, some (py, j), s.intervalStart py j⟩
        else none
      | .many =>
        if (s.blockWarps b).any fun w =>
            q != some (s.warp w).windex &&
              !s.spReaderEnded (s.partyOf b (s.warp w).windex) (p.readBit word (s.warp w).windex) st then
          some ⟨cause, summaryKind m.cls, none, 0⟩
        else none

/-- A conflict with the remote mark table (R368). -/
def State.remoteCheck (s : State) (b word : Nat) (a : Access) : Option Conflict :=
  (s.core (s.block b).core).remote.findSome? fun r =>
    if r.blk == b && r.word == word then s.checkWord r.mark a else none

/-- The mark with its dead entries dropped (R370). -/
def State.spDropDead (s : State) (b : Nat) (p : Page) (word : Nat) (m : SpMark) : SpMark :=
  match s.floors.head? with
  | none => m
  | some f =>
    let m := match m.writer with
      | some (i, tag) => if s.spWriterEnded (s.partyOf b i) tag f.2 then { m with writer := none } else m
      | none => m
    match m.reader with
    | .one i => if s.spReaderEnded (s.partyOf b i) (p.readBit word i) f.2 then { m with reader := .none } else m
    | .many =>
      if (s.blockWarps b).all fun w =>
          s.spReaderEnded (s.partyOf b (s.warp w).windex) (p.readBit word (s.warp w).windex) f.2 then
        { m with reader := .none } else m
    | .none => m

/-- The reader entry after a read by warp [i]. -/
def SpReader.add (r : SpReader) (i : Nat) : SpReader :=
  match r with
  | .none => .one i
  | .one j => if i == j then .one i else .many
  | .many => .many

/-- record_word on a scratchpad mark by warp [i] of the block in its interval [int]; synchronisation accesses leave none, and the read
bit is that of the current interval (R367). -/
def State.spRecordIn (s : State) (b pg word i int : Nat) (k : AccClass) (write : Bool) : State :=
  let s := if write || int != (s.intervalOf (s.partyOf b i)).1 then s else s.updPage b pg fun p =>
    { p with reads := sset p.reads (word / 16) (mOr (sget p.reads (word / 16) 0) (2 ^ i)) 0 }
  if k.sync then s
  else
    let p := s.page b pg
    let m := s.spDropDead b p word (sget p.marks word SpMark.empty)
    let m' : SpMark :=
      if write then
        let alone := m.reader == .none
        { m with writer := some (i, int % 15), cnt := spCount k && (alone || m.cnt) }
      else if (match m.writer with | some (j, _) => j == i | none => false) then m
      else
        let alone := m.writer.isNone && (m.reader == .none || m.reader == .one i)
        { m with reader := m.reader.add i, cnt := spCount k && (alone || m.cnt) }
    s.updPage b pg fun p => { p with marks := sset p.marks word m' SpMark.empty }

/-- The same in the warp's current interval. -/
def State.spRecord (s : State) (b pg word i : Nat) (k : AccClass) (write : Bool) : State :=
  s.spRecordIn b pg word i (s.intervalOf (s.partyOf b i)).1 k write

/-- A gang-remote read of a word: many readers in the word's own mark (R368). -/
def State.spRecordRemoteRead (s : State) (b pg word : Nat) (k : AccClass) : State :=
  if k.sync then s
  else s.updPage b pg fun p =>
    let m := s.spDropDead b p word (sget p.marks word SpMark.empty)
    let m' : SpMark := { m with reader := .many, cnt := spCount k && (m.cnt || (m.writer.isNone && m.reader == .none)) }
    { p with marks := sset p.marks word m' SpMark.empty }

/-- The table of core [c] has room for the marks of gang-remote writes to some words, by block and word (R368). -/
def State.remoteRoom (s : State) (c : Nat) (ws : List (Nat × Nat)) : Bool :=
  let live := (s.core c).remote.filter fun r => (s.dropDead r.mark).writer.isSome
  let new := (ws.filter fun x => !live.any fun r => r.blk == x.1 && r.word == x.2).foldl
    (fun (acc : List (Nat × Nat)) x => if acc.contains x then acc else x :: acc) []
  decide (live.length + new.length ≤ 256)

/-- A gang-remote write recorded in the table of the target's core; none when the table is full (R368). -/
def State.remoteRecord (s : State) (b word : Nat) (a : Access) : Option State :=
  let c := (s.block b).core
  let live := (s.core c).remote.filter fun r => (s.dropDead r.mark).writer.isSome
  let old := live.find? fun r => r.blk == b && r.word == word
  match old with
  | some r =>
    let r' := { r with mark := s.recordWord r.mark a }
    some (s.updCore c fun k => { k with remote := r' :: live.filter fun x => !(x.blk == b && x.word == word) })
  | none =>
    if 256 ≤ live.length then none
    else some (s.updCore c fun k => { k with remote := ⟨b, word, s.recordWord WordMark.empty a⟩ :: live })

/-- The read bits of warp [i] cleared in every frame of its block, as at each advance of its interval (R367). -/
def State.clearReads (s : State) (b i : Nat) : State :=
  s.updCore (s.block b).core fun c => { c with frames := c.frames.map fun x =>
    if x.2.blk == b then
      (x.1, { x.2 with page := { x.2.page with
        reads := (x.2.page.reads.map fun r => (r.1, mDiff r.2 (2 ^ i))).filter fun r => r.2 != 0 } })
    else x }

/-! ### Bytes -/

def State.spByte (s : State) (b off : Nat) : Byte := sget (s.page b (off / 4096)).data (off % 4096) 0

/-- The values that uncredited `macc.st` commands of a block have replaced at a byte (R337). -/
def State.spOlds (s : State) (b off : Nat) : List Byte :=
  ((s.core (s.block b).core).matq.filter fun c => c.blk == b && c.writes).flatMap fun c =>
    (c.old.filter fun x => x.1 == off).map Prod.snd

/-- A byte as a read of a warp sees it: where an uncredited `macc.st` has written it, the old value or the new one, a free value. -/
def State.spSeen (s : State) (b off : Nat) : Byte :=
  (s.spOlds b off).foldl (fun v o => if Config.freeBit (s.freeCtr + off) then o else v) (s.spByte b off)

/-- The free values that a read has taken are used up. -/
def State.spTook (s : State) (b : Nat) : State :=
  if (s.core (s.block b).core).matq.any fun c => c.blk == b && c.writes && !c.old.isEmpty then { s with freeCtr := s.freeCtr + 2 ^ 24 } else s

/-- Bytes about to be overwritten, as commands in flight that still read them may see them (R324). -/
def State.noteOld (s : State) (b off n : Nat) : State :=
  let bs := (List.range n).map fun k => (off + k, s.spByte b (off + k))
  s.updCore (s.block b).core fun c => { c with matq := c.matq.map fun q =>
    if q.blk == b && q.handed && q.reads then { q with old := q.old ++ bs } else q }

/-- A page is written: its copy in the backing area is no longer valid and its slot is freed (R93). -/
def State.dirtyPage (s : State) (b p : Nat) : State :=
  let e := s.spEntry b p
  if !e.p then s
  else
    let s := if e.b then s.updVi (s.block b).vi fun v => { v with slots := sdel v.slots e.slot } else s
    s.setSpEntry b p { e with d := true, b := false, slot := 0, ref := true }

def State.spWriteBytes (s : State) (b off : Nat) (bs : List Byte) : State :=
  let s := s.dirtyPage b (off / 4096)
  s.updPage b (off / 4096) fun p =>
    { p with data := ((List.range bs.length).zip bs).foldl (fun m x => sset m (off % 4096 + x.1) x.2 0) p.data }

def State.spPoisoned (s : State) (b off : Nat) : Bool := bit (s.page b (off / 4096)).poison (off % 4096 / 4)

/-! ### Backing slots and eviction (R92, R93, R367) -/

/-- Frames that the resident blocks of a VI hold. -/
def State.framesOf (s : State) (vi : Nat) : Nat :=
  s.cores.foldl (fun n c => n + (c.frames.filter fun f => (s.block f.2.blk).vi == vi).length) 0

/-- Free backing slots of a VI. -/
def State.freeSlots (s : State) (vi : Nat) : Nat := (s.vi vi).cfg.spbkSlots - (s.vi vi).slots.length

/-- The lowest free slot of a VI. -/
def State.newSlot (s : State) (vi : Nat) : Nat :=
  let used := (s.vi vi).slots.map Prod.fst
  leastFree used used.length 0

/-- The read bits of a page as tags by line and warp. -/
def State.tagsOf (s : State) (b : Nat) (p : Page) : Sparse Nat :=
  p.reads.foldl (fun m r =>
    (lanesOf r.2).foldl (fun m i => sset m (32 * r.1 + i) ((s.coreEnds (s.partyOf b i)).1 % 15) 15) m) []

/-- The tags of a page as read bits again: those that equal the warp's interval mod 15. -/
def State.bitsOfTags (s : State) (b : Nat) (tags : Sparse Nat) : Sparse Nat :=
  tags.foldl (fun m t =>
    if t.2 == (s.coreEnds (s.partyOf b (t.1 % 32))).1 % 15 then
      sset m (t.1 / 32) (mOr (sget m (t.1 / 32) 0) (2 ^ (t.1 % 32))) 0 else m) []

/-- The page in frame [f] of a core leaves it (R92). -/
def State.evictFrame (s : State) (c f : Nat) : State :=
  match (s.core c).frames.find? fun x => x.1 == f with
  | none => s
  | some (_, fr) =>
    let b := fr.blk
    let vi := (s.block b).vi
    let e := s.spEntry b fr.pg
    let tags := s.tagsOf b fr.page
    let keep := e.d || (!e.b && !fr.page.marks.isEmpty) || (!e.b && e.win)
    let slot := if e.b then e.slot else s.newSlot vi
    let s :=
      if keep then
        let s := (s.writeSlot vi slot { fr.page with reads := tags }).usePort c slotLines
        s.setSpEntry b fr.pg { e with p := false, frame := 0, ref := false, b := true, slot := slot, d := e.d && e.win }
      else
        let s := if e.b && !tags.isEmpty then (s.writeSlot vi slot { s.readSlot vi slot with reads := tags }).usePort c 16 else s
        s.setSpEntry b fr.pg { e with p := false, frame := 0, ref := false }
    s.updCore c fun k => { k with frames := k.frames.filter fun x => x.1 != f }

/-- The page is pinned (R419), or a trap area in use (R425). -/
def State.pinned (s : State) (b p : Nat) : Bool :=
  (s.warps.any fun w => w.pins.contains (b, p)) ||
  (decide (4096 ≤ p) && (s.blockWarps b).any fun w => (s.warp w).windex + 4096 == p && (s.warp w).trap.isSome)

/-- The clock hand from [h] on: the frame to evict for a block, and the REF bits that it clears on its way (R91). -/
def State.victim (s : State) (c b : Nat) : Nat → Nat → Option Nat × State
  | 0, _ => (none, s)
  | fuel + 1, h =>
    match (s.core c).frames.find? fun x => x.1 == h with
    | none => s.victim c b fuel ((h + 1) % 384)
    | some (_, fr) =>
      let held := ((s.core c).frames.filter fun x => x.2.blk == fr.blk).length
      if (fr.blk != b && decide (held ≤ (s.launch (s.block fr.blk).launch).spmin)) || s.pinned fr.blk fr.pg then
        s.victim c b fuel ((h + 1) % 384)
      else
        let e := s.spEntry fr.blk fr.pg
        if e.ref then (s.setSpEntry fr.blk fr.pg { e with ref := false }).victim c b fuel ((h + 1) % 384)
        else (some h, s.updCore c fun k => { k with hand := (h + 1) % 384 })

/-! ### Windows (R31, R276) -/

def winWr (d : Nat) : Bool := bit d 41
def winParam (d : Nat) : Nat := bits d 40 25
def winPages (d : Nat) : Nat := bits d 24 12
def winPage (d : Nat) : Nat := bits d 11 0

/-- The window of a block that holds a page. -/
def Launch.windowOf (l : Launch) (p : Nat) : Option Nat :=
  (List.range l.nwin).find? fun k => decide (winPage (l.win k) ≤ p) && decide (p < winPage (l.win k) + winPages (l.win k))

/-- The global address of a window page: the base in the parameter block, read at home; a cause when that fails. -/
def State.windowVa (s : State) (b p : Nat) : Except Nat Nat :=
  let l := s.launch (s.block b).launch
  let d := l.win (s.spEntry b p).winix
  match s.freshXlate ((s.block b).core / Config.dieCores) l.vi (l.param + winParam d) .read false with
  | .ok pa => .ok ((s.dword pa + 4096 * (p - winPage d)) % 2 ^ 64)
  | .cause c => .error c
  | _ => .error 0x15

/-- The window party's record; opened at its first access. -/
def State.openW63 (s : State) (b : Nat) : State := s.openRec (s.partyOf b 63)

/-- Why a page service fails: the cause, with the address and the conflict that a mark gives (R93). -/
structure SpFail where
  cause : Nat
  addr : Nat
  conflict : Option Conflict
  deriving DecidableEq, Repr

/-- The first element that gives an answer, as an error. -/
def firstErr {ε α : Type} (xs : List α) (f : α → Option ε) : Option ε := xs.findSome? f

/-- The physical line of each 64-byte piece of a window page's range, or the cause that its translation gives. -/
def State.windowLines (s : State) (b va : Nat) (u : Use) : Except Nat (List (Nat × Nat)) :=
  let l := s.launch (s.block b).launch
  let die := (s.block b).core / Config.dieCores
  let vas := dedup ((List.range 65).map fun k => (va + min (64 * k) 4095) / 64 * 64)
  vas.foldr (fun v acc =>
    match acc with
    | .error c => .error c
    | .ok r =>
      match s.freshXlate die l.vi v u false with
      | .ok pa => .ok ((v, pa) :: r)
      | .cause c => .error c
      | _ => .error 0x15) (.ok [])

/-- The physical address of a global byte by its translated lines. -/
def paIn (lines : List (Nat × Nat)) (va : Nat) : Nat :=
  match lines.find? fun x => x.1 == va / 64 * 64 with
  | some x => x.2 + va % 64
  | none => 0

/-- The content of a window page filled from its global range, as data reads by w63 (R276). -/
def State.fillWindow (s : State) (b p : Nat) : Except SpFail (State × Page) :=
  let e := s.spEntry b p
  match s.windowVa b p with
  | .error c => .error ⟨c, 0, none⟩
  | .ok va =>
    match (s.windowLines b va .read).bind fun r => if e.wr then (s.windowLines b va .write).map fun _ => r else .ok r with
    | .error c => .error ⟨c, 0, none⟩
    | .ok lines =>
      let s := s.openW63 b
      let l := s.launch (s.block b).launch
      let w63 := s.partyOf b 63
      let (j, st) := s.intervalOf w63
      let a : Access := ⟨w63, j, st, .data, false⟩
      let words := (List.range 1024).map fun k => paIn lines (va + 4 * k)
      match s.homeConflict l.vi a none words with
      | some (pa, c) =>
        let at_ := match lines.find? fun x => x.2 == pa / 64 * 64 with | some x => x.1 + pa % 64 | none => 0
        .error ⟨c.cause, at_, some c⟩
      | none =>
        let s := s.spend (s.block b).core l.vi lines.length
        let s := lines.foldl (fun (s : State) x => s.reach (s.block b).core l.vi x.1 x.2) s
        let s := s.recordWords l.vi a words
        let data := (List.range 4096).foldl (fun m k => sset m k (s.mem.read (paIn lines (va + k))) 0) []
        let poison := (List.range 1024).foldl (fun n k =>
          if s.poisonedFor (s.block b).core (paIn lines (va + 4 * k)) then n + 2 ^ k else n) 0
        .ok (s, ⟨data, [], [], poison⟩)

/-! ### The service of a page (R91, R93) -/

/-- The page of a window that a service fills: neither present nor backed (R91). -/
def SpEntry.fills (e : SpEntry) : Bool := e.win && !e.p && !e.b

/-- The fill of a window page has to wait for a home (R363, R372), or for the replica of a duplicated page (R273). -/
def State.fillWaits (s : State) (b p : Nat) : Bool :=
  if !(s.spEntry b p).fills then false
  else
    match s.windowVa b p with
    | .error _ => false
    | .ok va =>
      match s.windowLines b va .read with
      | .error _ => false
      | .ok lines =>
        s.homeWaits (s.block b).vi (s.partyOf b 63) (lines.map Prod.snd) ||
        lines.any fun x => s.needsReplica ((s.block b).core / Config.dieCores) (s.block b).vi x.1 .read

/-- The fill of a window page has to wait for the port of its core (R96). -/
def State.fillShort (s : State) (b p : Nat) : Bool := (s.spEntry b p).fills && s.portBusy (s.block b).core (s.block b).vi

/-- service_page of R91 for a page of a block, or why it fails. Of the free frames the lowest is taken, a DESIGN CHOICE
(notes/assumptions/93.md). -/
def State.service (s : State) (b p : Nat) : Except SpFail State :=
  let e := s.spEntry b p
  if e.p then .ok s
  else
    let c := (s.block b).core
    let vi := (s.block b).vi
    let used := (s.core c).frames.map Prod.fst
    let r : Except SpFail (State × Nat) :=
      if used.length < 384 then .ok (s, leastFree used used.length 0)
      else
        match s.victim c b 1200 (s.core c).hand with
        | (some f, s) => .ok (s.evictFrame c f, f)
        | (none, _) => .error ⟨0x14, 0, none⟩
    match r with
    | .error x => .error x
    | .ok (s, f) =>
      let content : Except SpFail (State × Page) :=
        if e.b then
          let q := s.readSlot vi e.slot
          .ok (s.usePort c slotLines, { q with reads := s.bitsOfTags b q.reads })
        else if e.win then s.fillWindow b p
        else .ok (s, Page.empty)
      match content with
      | .error x => .error x
      | .ok (s, q) =>
        let s := s.updCore c fun k => { k with frames := sins k.frames f ⟨b, p, q⟩ }
        let s := s.setSpEntry b p { s.spEntry b p with p := true, frame := f, ref := true }
        if s.freeSlots vi < s.framesOf vi then .error ⟨0x14, 0, none⟩ else .ok s

/-- Every present page of a block leaves its frame (R435). -/
def State.evictBlock (s : State) (b : Nat) : State :=
  let c := (s.block b).core
  ((s.core c).frames.filter fun f => f.2.blk == b).foldl (fun (s : State) f => s.evictFrame c f.1) s

/-- The frames and slots of a block freed (R458). -/
def State.freePages (s : State) (b : Nat) : State :=
  let vi := (s.block b).vi
  let s := s.updCore (s.block b).core fun c => { c with frames := c.frames.filter fun f => f.2.blk != b }
  let slots := ((s.block b).map.filter fun e => e.2.b).map fun e => e.2.slot
  let s := s.updVi vi fun v => { v with slots := v.slots.filter fun x => !slots.contains x.1 }
  s.updBlock b fun x => { x with map := [] }

end Sys2Proof.Machine
end

