-- ==== Sys2Proof/Machine/Order.lean ====
section
/-!
DEFINITION. Deterministic execution, recording and replay at the homes (spec/23 R399 to R414): frontiers, the holding
buffers and the deferred area, the order log, its writing and its reading, and divergence.
-/

namespace Sys2Proof.Machine

/-! ### Frontiers (R399) -/

/-- RET: the lowest block not yet retired. -/
def Launch.ret (l : Launch) : Nat := leastFree l.retired l.retired.length 0

/-- ORD: the lowest block neither retired nor declared. -/
def Launch.ord (l : Launch) : Nat :=
  leastFree (l.retired ++ l.declared) (l.retired.length + l.declared.length) 0

def insertNat (n : Nat) : List Nat → List Nat
  | [] => [n]
  | x :: r => if n ≤ x then n :: x :: r else x :: insertNat n r

/-- The staged and held accesses that ORD now covers are released, block by block and each block's in arrival order (R401). -/
def State.releaseStaged (s : State) (li : Nat) : State :=
  let ord := (s.launch li).ord
  let lin (x : Staged) : Nat := (s.block x.block).lin
  let mine (x : Staged) : Bool := x.launch == li && !x.released && (s.launch li).det && decide (lin x ≤ ord)
  let bs := (s.staged.filter mine).foldl (fun (acc : List Nat) x => insertNat (lin x) acc) []
  let new := (dedup bs).flatMap fun b => (s.staged.filter fun x => mine x && lin x == b).map fun x => { x with released := true }
  { s with staged := (s.staged.filter fun x => x.released) ++ new ++ s.staged.filter fun x => !x.released && !mine x }

/-! ### Writes of the device through a VI's page tables -/

/-- Bytes stored at a global address by the device; bytes without write permission are not written. -/
def State.storeVa (s : State) (vi va : Nat) (bs : List Byte) : State :=
  ((List.range bs.length).zip bs).foldl (fun (s : State) (x : Nat × Byte) =>
    match s.writeAt vi (va + x.1) with
    | (some pa, s) => { s with mem := s.mem.write pa x.2 }
    | (none, s) => s) s

/-- A dword stored so. -/
def State.storeDw (s : State) (vi va x : Nat) : State := s.storeVa vi va (leBytes 8 x)

/-- A dword of global memory, 0 where it does not translate. -/
def State.loadDw (s : State) (vi va : Nat) : Nat :=
  match s.paOf vi va .read with
  | some pa => s.dword pa
  | none => 0

/-! ### Accumulation in order (R403 to R406) -/

/-- The sequence number of an update (R403). -/
def AtomReq.seqLt (a b : AtomReq) : Bool :=
  if a.block != b.block then decide (a.block < b.block)
  else if a.warp != b.warp then decide (a.warp < b.warp)
  else if a.lane != b.lane then decide (a.lane < b.lane)
  else decide (a.count < b.count)

def insertUpd (u : AccUpd) : List AccUpd → List AccUpd
  | [] => [u]
  | x :: r => if u.req.seqLt x.req then u :: x :: r else x :: insertUpd u r

def sortUpds (us : List AccUpd) : List AccUpd := us.foldl (fun acc u => insertUpd u acc) []

/-- A word of memory changed by an atomic operation; the old value. -/
def State.atomAt (s : State) (pa : Nat) (op : AtomOp) (t : AtomTy) (b c : Nat) : Nat × State :=
  let n := t.bytes
  let old := leNat (s.mem.readBytes pa n)
  (old, { s with mem := s.mem.writeBytes pa (leBytes n (atomNew op t old b c)) })

/-- An update performed at its home; one to another module is sent there (R383). -/
def State.applyUpd (s : State) (u : AccUpd) : State :=
  match u.req.rmt with
  | none => (s.atomAt u.req.pa u.req.op u.req.ty u.req.b u.req.c).2
  | some m => { s with sent := s.sent ++ [[m, u.req.pa, atOpCode u.req.op, atTyCode u.req.ty, u.req.b, u.req.c]] }

/-- Entries of a slice's holding buffer. -/
def State.slotsHeld (s : State) (slice : Nat) : Nat := (s.holding.filter fun u => sliceOf u.req.pa == slice).length

/-- The 32-byte record of an update (R406). -/
def deferRecord (a : AtomReq) : List Nat :=
  [atTyCode a.ty * 2 ^ 57 + a.va % 2 ^ 57, a.block % 2 ^ 40, a.warp % 64 * 2 ^ 58 + a.lane % 32 * 2 ^ 53 + a.count % 2 ^ 32,
    a.b % 2 ^ (8 * a.ty.bytes)]

/-- The next free record of the deferred area of a launch, none when the area has no room or cannot be written. -/
def State.deferSlot (s : State) (l : Launch) (k : Nat) : Option Nat :=
  let va := l.defer + 32 * (l.defUsed + k)
  if l.defUsed + k < 128 * l.defersz && (s.paOf l.vi va .write).isSome then some va else none

/-- An update written to the deferred area. -/
def State.writeDeferred (s : State) (li : Nat) (u : AccUpd) : State :=
  let l := s.launch li
  let va := l.defer + 32 * l.defUsed
  let s := ((List.range 4).zip (deferRecord u.req)).foldl (fun (s : State) x => s.storeDw l.vi (va + 8 * x.1) x.2) s
  s.updLaunch li fun l => { l with defUsed := l.defUsed + 1, defUpds := l.defUpds ++ [{ u with deferred := true }] }

/-- arrive(u) of R404; none when the update is not accepted. -/
def State.arriveUpd (s : State) (u : AccUpd) : Option State :=
  let l := s.launch u.launch
  let slice := sliceOf u.req.pa
  let isDef := l.defAddrs.contains u.req.pa
  if isDef || decide (16 ≤ s.slotsHeld slice) then
    let moving := if isDef then [] else s.holding.filter fun x => x.launch == u.launch && x.req.pa == u.req.pa
    if (List.range (moving.length + 1)).any fun k => (s.deferSlot l k).isNone then none
    else
      let s := if isDef then s else
        { s with holding := s.holding.filter fun x => !(x.launch == u.launch && x.req.pa == u.req.pa) }
      let s := if isDef then s else s.updLaunch u.launch fun l => { l with defAddrs := u.req.pa :: l.defAddrs }
      let s := (sortUpds moving).foldl (fun (s : State) x => s.writeDeferred u.launch x) s
      some (s.writeDeferred u.launch u)
  else some { s with holding := insertUpd u s.holding }

/-- Whenever RET advances: the buffer entries of blocks below it are applied (R404). -/
def State.applyBelowRet (s : State) (li : Nat) : State :=
  let r := (s.launch li).ret
  let go (u : AccUpd) : Bool := u.launch == li && decide (u.req.block < r)
  let us := s.holding.filter go
  us.foldl State.applyUpd { s with holding := s.holding.filter fun u => !go u }

/-- All pending updates of a launch applied in sequence order, and its deferred flags cleared (R405); where no phases are (R403), in the
order of the sequence numbers alone (R409; notes/assumptions/41.md). -/
def State.applyPhase (s : State) (li : Nat) : State :=
  let l := s.launch li
  let us := sortUpds ((s.holding.filter fun u => u.launch == li) ++ l.defUpds)
  let s := us.foldl State.applyUpd { s with holding := s.holding.filter fun u => u.launch != li }
  s.updLaunch li fun l => { l with defAddrs := [], defUpds := [], defUsed := 0, typed := [], phase := l.phase + 1 }

/-! ### The order log (R408 to R414) -/

/-- The launch records: mode 1, or any launch with an open log after its divergence. -/
def Launch.recording (l : Launch) : Bool := l.log.state == .open_ && (l.mode == 1 || l.log.diverged)

/-- The launch replays and has not diverged. -/
def Launch.replaying (l : Launch) : Bool := l.mode == 2 && !l.log.diverged

def hostBlock : Nat := 2 ^ 40 - 1

/-- The operations of an address's sequence. -/
def OrdLog.seqOf (g : OrdLog) (va : Nat) : List LogOp := g.expect.filter fun o => o.addr == some va

/-- The next operation of an address's sequence is the requester's (R412). -/
def OrdLog.isNext (g : OrdLog) (va block warp : Nat) : Bool :=
  match (g.seqOf va)[sget g.done va 0]? with
  | some o => o.block == block && o.warp == warp
  | none => false

/-- The requester is among the next 64 operations (R413). -/
def OrdLog.expected (g : OrdLog) (va block warp : Nat) : Bool :=
  (((g.seqOf va).drop (sget g.done va 0)).take 64).any fun o => o.block == block && o.warp == warp

/-- A requester in the RUN layout with tag 0 (R413). -/
def requester (block warp : Nat) : Nat := warp % 64 * 2 ^ 54 + block % 2 ^ 40

/-- A dword of the log header. -/
def olhDw1 (num state : Nat) : Nat := num % 2 ^ 32 * 2 ^ 32 + state

/-- The header page of a log begun at page [h] (R410). -/
def State.beginLog (s : State) (li h : Nat) : State :=
  let l := s.launch li
  let va := l.olog + 4096 * h
  [(0, 0x4F4C_4731 * 2 ^ 32 + 2 ^ 16), (1, olhDw1 l.num 0), (2, h + 1), (3, 0), (4, 0), (5, l.nblocks), (6, 0), (7, 0)].foldl
    (fun (s : State) x => s.storeDw l.vi (va + 8 * x.1) x.2) s

/-- Divergence (R413, R414): the record, the old log closed, and a new one begun at its next free page. -/
def State.diverge (s : State) (li kind va pos exp arr : Nat) : State :=
  let l := s.launch li
  if l.log.diverged then s
  else
    let free := decide (l.log.next < l.ologsz)
    let h := if free then l.log.next else 0xFFFF_FFFF
    let s := s.emit l.vi [2 * 2 ^ 56 + kind * 2 ^ 48 + l.num % 2 ^ 32, va, pos, exp, arr, s.devTime, h, 0]
    let old := l.olog + 4096 * l.log.head
    let s := s.storeDw l.vi (old + 8) (olhDw1 (bits (s.loadDw l.vi (old + 8)) 63 32) 2)
    let s := s.storeDw l.vi (old + 24) (if free then l.log.next else 0)
    let s := s.storeDw l.vi (old + 32) s.devTime
    let s := if free then s.beginLog li l.log.next else s
    let s := s.updLaunch li fun l => { l with log :=
      { l.log with state := if free then .open_ else .off, head := if free then l.log.next else l.log.head,
                   next := l.log.next + 1, ops := [], diverged := true } }
    { s with staged := s.staged.map fun x => if x.launch == li then { x with released := true } else x }

/-- What a home does with a request of a logged kind. -/
inductive Gate where
  | go | hold | diverged
  deriving DecidableEq, Repr

def State.gate (s : State) (li va block warp : Nat) : Gate :=
  let l := s.launch li
  if !l.replaying then .go
  else if l.log.isNext va block warp then .go
  else if l.log.expected va block warp then .hold
  else .diverged

/-- A request held for the log's order: the time of the first one held is kept (R413). -/
def State.noteHeld (s : State) (li va : Nat) : State :=
  s.updLaunch li fun l => { l with log := { l.log with
    since := if l.log.since.any (fun x => x.1 == va) then l.log.since else sins l.log.since va s.devTime } }

/-- An operation has been performed at its home: logged in record mode, counted in replay (R408, R412). -/
def State.logPerformed (s : State) (li : Nat) (o : LogOp) : State :=
  let l := s.launch li
  if l.recording then s.updLaunch li fun l => { l with log := { l.log with ops := l.log.ops ++ [o] } }
  else if l.replaying then
    match o.addr with
    | some va => s.updLaunch li fun l => { l with log := { l.log with
        done := sset l.log.done va (sget l.log.done va 0 + 1) 0, since := sins l.log.since va s.devTime } }
    | none => s
  else s

/-- Divergence at an address, when the requester is not expected there (R413). -/
def State.divergeUnless (s : State) (li va block warp : Nat) : State :=
  if s.gate li va block warp = .diverged then
    let g := (s.launch li).log
    let pos := sget g.done va 0
    let exp := match (g.seqOf va)[pos]? with | some o => requester o.block o.warp | none => 2 ^ 64 - 1
    s.diverge li 0 va pos exp (requester block warp)
  else s

/-- A synchronisation access to a line by a party that is no warp, performed at its home (R408, R412). -/
def State.logLine (s : State) (li va pa block warp : Nat) : State :=
  (s.divergeUnless li va block warp).logPerformed li ⟨sliceOf pa, some va, block, warp, 0, 0, 0, none⟩

/-- The place in `OrdLog.done` of how many logged values of a kind a warp has read; above every address. -/
def valueKey (block warp kind : Nat) : Nat := 2 ^ 64 + (block * 64 + warp % 64) * 64 + kind % 64

/-- The next logged value of a warp of a kind (R412), by the values already read; none past the log. -/
def OrdLog.value (g : OrdLog) (block warp kind : Nat) : Option Nat :=
  let vs := g.expect.filter fun o => o.addr.isNone && o.block == block && o.warp == warp && o.kind == kind
  (vs[sget g.done (valueKey block warp kind) 0]?).map fun o => o.value

/-- A value that `clk` or `perf.rd` returns: live and logged, or the next logged one (R408, R412, R413). -/
def State.loggedValue (s : State) (li block warp src kind ctr live : Nat) : Nat × State :=
  let l := s.launch li
  if l.replaying then
    let key := valueKey block warp kind
    match l.log.value block warp kind with
    | some v =>
      (v, s.updLaunch li fun l => { l with log := { l.log with done := sset l.log.done key (sget l.log.done key 0 + 1) 0 } })
    | none =>
      let s := s.diverge li 2 0 (sget l.log.done key 0) (2 ^ 64 - 1) (requester block warp)
      (live, s.logPerformed li ⟨src, none, block, warp, kind, ctr, live, none⟩)
  else (live, s.logPerformed li ⟨src, none, block, warp, kind, ctr, live, none⟩)

/-! ### Tokens (R411) -/

def tokAddr (va : Nat) : Nat := 1 * 2 ^ 60 + va % 2 ^ 57
def tokRun (block warp n : Nat) : Nat := 2 * 2 ^ 60 + warp % 64 * 2 ^ 54 + (n - 1) * 2 ^ 46 + block % 2 ^ 40
def tokVal (o : LogOp) : Nat :=
  4 * 2 ^ 60 + o.warp % 64 * 2 ^ 54 + o.kind % 64 * 2 ^ 48 + o.ctr % 64 * 2 ^ 42 + o.block % 2 ^ 40
def tokPage (src seq : Nat) : Nat := 5 * 2 ^ 60 + src * 2 ^ 40 + seq % 2 ^ 32
def tokDefer : Nat := 6 * 2 ^ 60

/-- A source's operations as items: a run of one requester at an address, a value, or a deferred update. -/
inductive LogItem where
  | run (va block warp n : Nat)
  | val (o : LogOp)
  | upd (a : AtomReq)
  deriving DecidableEq, Repr

def LogItem.add (items : List LogItem) (o : LogOp) : List LogItem :=
  match o.upd, o.addr with
  | some a, _ => items ++ [.upd a]
  | none, none => items ++ [.val o]
  | none, some va =>
    match items.getLast? with
    | some (.run va' b w n) =>
      if va' == va && b == o.block && w == o.warp && decide (n < 256) then items.dropLast ++ [.run va b w (n + 1)]
      else items ++ [.run va o.block o.warp 1]
    | _ => items ++ [.run va o.block o.warp 1]

/-- The dwords of an item after the address [cur] of the sequence in progress, and that address then. -/
def LogItem.dwords (i : LogItem) (cur : Option Nat) : List Nat × Option Nat :=
  match i with
  | .run va b w n => ((if cur == some va then [] else [tokAddr va]) ++ [tokRun b w n], some va)
  | .val o => ([tokVal o, o.value], cur)
  | .upd a => (tokDefer :: deferRecord a, cur)

/-- The pages of a source: each begins with its PAGE token; a sequence that goes on repeats its ADDR token. -/
def logPages (src : Nat) (items : List LogItem) : List (List Nat) :=
  let r := items.foldl (fun (acc : List (List Nat) × List Nat × Option Nat) i =>
    let (ds, cur) := i.dwords acc.2.2
    if acc.2.1.length + ds.length ≤ 512 then (acc.1, acc.2.1 ++ ds, cur)
    else
      let (ds, cur) := i.dwords none
      (acc.1 ++ [acc.2.1], tokPage src (acc.1.length + 1) :: ds, cur)) ([], [tokPage src 0], none)
  if items.isEmpty then [] else r.1 ++ [r.2.1]

/-- The log closed at launch end (R411): the pages of its sources written from OLH.NEXT on, as far as they go (R410). -/
def State.closeLog (s : State) (li : Nat) : State :=
  let l := s.launch li
  if !l.recording then s
  else
    let srcs := dedup (l.log.ops.map fun o => o.slice)
    let pages := srcs.flatMap fun src =>
      logPages src ((l.log.ops.filter fun o => o.slice == src).foldl LogItem.add [])
    let room := l.ologsz - l.log.next
    let kept := pages.take room
    let s := ((List.range kept.length).zip kept).foldl (fun (s : State) p =>
      ((List.range p.2.length).zip p.2).foldl (fun (s : State) x =>
        s.storeDw l.vi (l.olog + 4096 * (l.log.next + p.1) + 8 * x.1) x.2) s) s
    let va := l.olog + 4096 * l.log.head
    let cut := decide (room < pages.length)
    let s := s.storeDw l.vi (va + 8) (olhDw1 l.num (if cut then 3 else 1))
    let s := s.storeDw l.vi (va + 16) (l.log.next + kept.length)
    let s := s.storeDw l.vi (va + 32) s.devTime
    s.updLaunch li fun l => { l with log := { l.log with state := if cut then .truncated else .closed } }

/-- The operations that the dwords of a page hold, with its source and the address in progress. -/
def readTokens (src : Nat) (cur : Option Nat) : Nat → List Nat → List LogOp
  | 0, _ => []
  | _ + 1, [] => []
  | fuel + 1, d :: r =>
    match bits d 63 60 with
    | 1 => readTokens src (some (bits d 56 0)) fuel r
    | 2 => List.replicate (bits d 53 46 + 1) ⟨src, cur, bits d 39 0, bits d 59 54, 0, 0, 0, none⟩ ++ readTokens src cur fuel r
    | 4 => ⟨src, none, bits d 39 0, bits d 59 54, bits d 53 48, bits d 47 42, r.headD 0, none⟩ ::
        readTokens src cur fuel (r.drop 1)
    | 5 => readTokens (bits d 48 40) none fuel r
    | 6 => readTokens src cur fuel (r.drop 4)
    | _ => []

/-- A virtual address as 64 bits with its sign (R258). -/
def signVa (a : Nat) : Nat := if bit a 56 then a % 2 ^ 57 + (2 ^ 64 - 2 ^ 57) else a % 2 ^ 57

/-- The log that a replay launch names (R412). -/
def State.readLog (s : State) (vi olog next : Nat) : List LogOp :=
  ((List.range next).drop 1).flatMap fun k =>
    (readTokens 0 none 600 ((List.range 512).map fun i => s.loadDw vi (olog + 4096 * k + 8 * i))).map fun o =>
      { o with addr := o.addr.map signVa }

/-- The log of a launch as it is accepted (R410, R412). -/
def State.openLog (s : State) (li : Nat) : State :=
  let l := s.launch li
  if l.mode = 1 then
    (s.beginLog li 0).updLaunch li fun l => { l with log := { OrdLog.off with state := .open_, next := 1 } }
  else if l.mode = 2 then
    let next := bits (s.loadDw l.vi (l.olog + 16)) 31 0
    s.updLaunch li fun l => { l with log :=
      { OrdLog.off with state := .closed, next := next, expect := s.readLog l.vi l.olog next } }
  else s

end Sys2Proof.Machine
end

