-- ==== Sys2Proof/Machine/Regions.lean ====
section
/-!
DEFINITION. Intervals, counters and regions of a warp: the advance of an interval (spec/20 R346, R347), the counters of
spec/07 R141 to R143, the entry state and the discard of a region (spec/08 R144, R155), its commit at the map unit and at
the homes (R153, R154), completion words (spec/17 R303, R306), the window flush (spec/15 R293), and the deferred stops of
spec/27 R489.
-/

namespace Sys2Proof.Machine

/-! ### Counters (R141 to R143) -/

def Warp.ops (w : Warp) : Counter → List CntOp
  | .l => w.opsL
  | .s => w.opsS
  | .c => w.opsC
  | .t => w.opsT

def Warp.setOps (w : Warp) (k : Counter) (xs : List CntOp) : Warp :=
  match k with
  | .l => { w with opsL := xs }
  | .s => { w with opsS := xs }
  | .c => { w with opsC := xs }
  | .t => { w with opsT := xs }

/-- The value of a counter. -/
def Warp.counter (w : Warp) (k : Counter) : Nat := (w.ops k).length

/-- The older completed operations are credited; they leave the counter (R142). -/
def popDone (xs : List CntOp) : List CntOp := xs.dropWhile fun o => o.done

/-- An operation with a number counted by the executing region. -/
def State.countOp (s : State) (w : Nat) (k : Counter) (id : Nat) (done : Bool) : State :=
  s.updWarp w fun x => x.setOps k (popDone (x.ops k ++ [⟨id, x.region.seq, done⟩]))

/-- An operation that was not performed leaves its counter. -/
def Warp.dropOp (w : Warp) (k : Counter) (id : Nat) : Warp := w.setOps k (popDone ((w.ops k).filter fun o => o.id != id))

/-- A closing word at hand is not performed: it leaves the counter that has counted it since its issue (R141, R490). -/
def Warp.dropSync (w : Warp) : Warp :=
  match w.sync with
  | some (k, id) => { (w.dropOp k id) with sync := none }
  | none => w

/-- The operation is complete; it is credited in its turn. -/
def State.credit (s : State) (w : Nat) (k : Counter) (id : Nat) : State :=
  s.updWarp w fun x => x.setOps k (popDone ((x.ops k).map fun o => if o.id == id then { o with done := true } else o))

/-- The operations of region [seq] leave the counters, but for loads that have drained (R143). -/
def Warp.dropOps (w : Warp) (seq : Nat) : Warp :=
  let w := [Counter.s, .c, .t].foldl (fun w k => w.setOps k (popDone ((w.ops k).filter fun o => o.region != seq))) w
  w.setOps .l (popDone ((w.ops .l).filter fun o => o.done || o.region != seq))

/-! ### Pending results (R140) -/

/-- The pending results whose values have come are written, and `l` is credited for them. -/
def State.drain (s : State) (w : Nat) : State :=
  let ps := (s.warp w).pend.filter fun p => p.ready
  ps.foldl (fun (s : State) p => (s.updWarp w fun x =>
      { (x.apply p.writes) with pend := x.pend.filter fun q => q.id != p.id }).credit w .l p.id) s

/-! ### Intervals (R346 to R348) -/

/-- The commands that the warp handed over in its current interval and that are not complete (R347). -/
def State.handed (s : State) (w : Nat) : List Nat := match s.rec? (s.warp w).party with | some r => r.busy | none => []

/-- The interval of a party closes with E = now and the next opens [dt] cycles later. -/
def State.advanceParty (s : State) (p : Party) (dt : Nat) : State :=
  let e := s.clock
  ({ s with clock := e + dt }).updRec p fun r => r.close e (e + dt)

/-- Every committed-dirty copy of a warp goes home (R265), its interval closes with E = now and the next opens [dt] cycles later. -/
def State.advance (s : State) (w dt : Nat) : State :=
  let s := (s.writeBackAll w).advanceParty (s.warp w).party dt
  let s := s.clearRegistration w
  let s := s.clearReads (s.warp w).block (s.warp w).windex
  s.updWarp w fun x => { x with constSeen := [] }

/-- The access of warp [w] with a class in interval [j] (R305). -/
def State.accessIn (s : State) (w j : Nat) (cls : AccClass) (write : Bool) : Access :=
  let p := (s.warp w).party
  ⟨p, j, s.intervalStart p j, cls, write⟩

/-! ### Deferred stops (R489) and pair stops (R376) -/

/-- The index of the warp of a party. -/
def State.warpOf (s : State) (p : Party) : Option Nat :=
  (List.range s.warps.length).find? fun w => (s.warp w).party == p && !s.secondary w && !(s.warp w).ended

/-- A stop that waits for its delivery at the warp's next region boundary; of several the first is delivered, and the others
are reported by their records. -/
def State.deferStop (s : State) (w : Nat) (st : Stop) : State :=
  if (s.warp w).deferred.isSome then (if st.record.isEmpty then s else s.emitWarp w st.record)
  else s.updWarp w fun x => { x with deferred := some st }

def Stop.blank : Stop := ⟨0, false, false, false, 0, 0, 0, 0, 0, 0, 0, false, 0, false, []⟩

/-- The pair stop of a conflict of party [p] in interval [j] whose access has a kind (R375): the other party, when its launch asks
for it and it has not exited, takes a deferred stop whose record exchanges the two. -/
def State.pairStop (s : State) (p : Party) (j kind : Nat) (sp : Bool) (pc addr : Nat) (c : Conflict) : State :=
  match c.other with
  | none => s
  | some (q, _) =>
    let asks := match s.launches.find? fun l => l.vi == q.vi % 64 && l.num == q.launch with
      | some l => l.pstop
      | none => false
    match s.warpOf q with
    | none => s
    | some w =>
      if asks then
        let c' : Conflict := ⟨c.cause, kind, some (p, j), s.intervalStart p j⟩
        let rec_ := s.raceRecord q c.okind false sp true pc 0 addr c'
        s.deferStop w { Stop.blank with cause := c.cause, rgn := true, fpc := pc, addr := addr, record := rec_ }
      else s

/-! ### The entry state and the discard (R144, R155) -/

def Warp.snap (w : Warp) : Snap :=
  ⟨w.pct, w.exited, w.fpstat, w.draws, w.accs, w.hist, w.nonfin, w.rcv, w.part, w.sig, w.icount⟩

/-- The region's entry state is the warp's state at its first issue. -/
def Warp.openRegion (w : Warp) : Warp :=
  if w.region.issued = 0 then { w with region := { w.region with entry := w.snap, inTrap := w.trap.isSome } } else w

/-- The parked lanes of a PC table. -/
def parkedIn (pct : List PctEntry) : Nat := pct.foldl (fun m e => if e.state == .parked then mOr m e.mask else m) 0

/-- The lanes that are parked now. -/
def Warp.parkedLanes (w : Warp) : Nat := parkedIn w.pct

/-- The lanes [m] of an entry apart from its others, in states that a function gives. -/
def PctEntry.cut (e : PctEntry) (m : Nat) (f : PctEntry → PctEntry) : List PctEntry :=
  [{ e with mask := mDiff e.mask m }, f { e with mask := mAnd e.mask m }].filter fun x => x.mask != 0

/-- An entry that is ready. -/
def PctEntry.free (e : PctEntry) : PctEntry := { e with state := .ready, on := .none }

/-- The entry state put back: lanes whose service has finished since stay ready, and only lanes that are parked then need one. -/
def Warp.restore (w : Warp) (e : Snap) : Warp :=
  let pct := e.pct.flatMap fun x => if x.state == .parked then x.cut (mDiff x.mask w.parkedLanes) PctEntry.free else [x]
  let parked := parkedIn pct
  { w with
    pct := pct
    exited := e.exited, fpstat := e.fpstat, draws := e.draws, accs := e.accs, hist := e.hist, nonfin := e.nonfin
    needs := w.needs.filter fun n => mAnd n.lanes parked != 0
    rcv := e.rcv, part := e.part, sig := e.sig, icount := e.icount }

/-- The engine commands of a region that was not committed leave their queues, and their results are expected no more. -/
def State.dropCmds (s : State) (w : Nat) (cmds : List Nat) : State :=
  let s := s.updCore (s.blockOf w).core fun c =>
    { c with copyq := c.copyq.filter fun x => !(cmds.contains x.id && !x.handed)
             matq := c.matq.filter fun x => !(cmds.contains x.id && !x.handed) }
  s.updWarp w fun x => { x with pend := x.pend.filter fun p => !cmds.contains p.id }

/-- A result of the warp that has not come and that a committed matrix command will write (R155, R336). -/
def Warp.awaits (w : Warp) : Bool :=
  w.pend.any fun p => !p.ready && !w.region.cmds.contains p.id && !(match w.older with | some o => o.cmds.contains p.id | none => false)

/-- The requests of a region that have not been accepted are taken back. -/
def State.dropReqs (s : State) (w seq : Nat) : State :=
  let keep (r : Req) : Bool := !(r.warp == w && r.region == seq)
  { s with cores := s.cores.map (fun c => { c with port := c.port.filter keep }), net := s.net.filter keep }

/-- The executing region ends without commit (R155); [ev] is the core event that counts it (R471). -/
def State.discardRegion (s : State) (w ev : Nat) : State :=
  let s := s.drain w
  let r := (s.warp w).region
  let s := s.dropCmds w r.cmds
  let s := s.updWarp w fun x =>
    let x := if r.issued = 0 then x else x.restore r.entry
    { (x.dropOps r.seq) with
      dirty := x.dirty.filter fun d => d.state != .region
      region := { Region.blank with seq := r.seq + 1 }, pins := [], hold := .none, sync := none, stall := 11, reentering := true }
  s.count (s.warp w).vi unitCore ev 1

/-- Both regions in flight end without commit, as when the older one's commit has failed (R154, R156). -/
def State.discardBoth (s : State) (w ev : Nat) : State :=
  let s := s.drain w
  let r := (s.warp w).region
  match (s.warp w).older with
  | none => s.discardRegion w ev
  | some o =>
    let s := (s.dropCmds w (o.cmds ++ r.cmds)).dropReqs w o.seq
    let gone (u : AccUpd) : Bool := u.launch == (s.warp w).launch && o.atoms.contains u.req
    let s := { s with waiting := s.waiting.filter (fun u => !gone u), holding := s.holding.filter fun u => !gone u }
    let s := s.updLaunch (s.warp w).launch fun l => { l with defUpds := l.defUpds.filter fun u => !o.atoms.contains u.req }
    let s := s.updWarp w fun x =>
      let x := x.restore o.entry
      { ((x.dropOps o.seq).dropOps r.seq) with
        dirty := x.dirty.filter fun d => d.state == .committed
        older := none, region := { Region.blank with seq := r.seq + 1 }, pins := [], hold := .none, sync := none, stall := 11
        reentering := true }
    let s := if (s.coreOf w).ovfWarp == some w then s.updCore (s.blockOf w).core fun c => { c with ovfWarp := none } else s
    s.count (s.warp w).vi unitCore ev 1

/-! ### Completion words (R303, R306, R307) -/

def cbwStatus (x : Nat) : Nat := bits x 63 56
def cbwErr (x : Nat) : Nat := bits x 55 32
def cbwCount (x : Nat) : Nat := bits x 31 0
def cbwWord (st err n : Nat) : Nat := st % 256 * 2 ^ 56 + err % 2 ^ 24 * 2 ^ 32 + n % 2 ^ 32

/-- The rule of R306 for a status. -/
def cbwSetStatus (old new : Nat) : Nat :=
  if new = 1 then (if old = 0 then 1 else old)
  else if new = 0 then old
  else if old ≤ 1 then new else old

/-- A completion word after an operation ends on it with a status and an error. -/
def cbwEnd (x st err : Nat) (dec : Bool) : Nat :=
  cbwWord (cbwSetStatus (cbwStatus x) st) (if cbwErr x = 0 then err else cbwErr x) (if dec then cbwCount x + (2 ^ 32 - 1) else cbwCount x)

/-- A completion word of a VI changed at its home; on the counter page nothing happens (R469). -/
def State.updCbw (s : State) (vi va : Nat) (f : Nat → Nat) : State :=
  if (s.ctrOffset vi va).isSome then s
  else
    match s.writeAt vi va with
    | (some pa, s) => { s with mem := s.mem.writeBytes pa (leBytes 8 (f (s.dword pa))) }
    | (none, s) => s

/-! ### The host party (R356, R358, R364) -/

def hostParty (vi : Nat) : Party := ⟨vi, 0, 0, 0⟩

/-- The host party's next interval opens now: each of its accesses has one of its own. -/
def State.openHost (s : State) (vi : Nat) : State :=
  (s.openRec (hostParty vi)).updRec (hostParty vi) fun r => { r with start := s.clock }

/-- The access of the host party in its current interval. -/
def State.hostAccess (s : State) (vi : Nat) (cls : AccClass) (write : Bool) : Access :=
  let (j, st) := s.intervalOf (hostParty vi)
  ⟨hostParty vi, j, st, cls, write⟩

/-- An access of the host party to words from a virtual address on, in an interval of its own that then closes: checked and
recorded at its home (R364). A conflict is reported by a race record, and the access is performed all the same: the spec names no
other outcome for launch-end writes and dependence reads (notes/assumptions/92.md). -/
def State.hostMark (s : State) (vi va kind : Nat) (cls : AccClass) (write : Bool) (pas : List Nat) : State :=
  let s := s.openHost vi
  let a := s.hostAccess vi cls write
  let s := match s.homeConflict vi a none pas with
    | some (pa, c) =>
      let at_ := va + (pa - pas.headD 0)
      let s := (s.count vi unitHome 4 1).pairStop a.party a.int kind false 0 at_ c
      s.emit vi (s.raceRecord a.party kind false false false 0 0 at_ c)
    | none => s
  let s := (dedup (pas.map fun pa => pa / 64)).foldl (fun (s : State) l => s.reach 0 vi (va / 64 * 64) (64 * l)) s
  (s.recordWords vi a pas).advanceParty (hostParty vi) 16

/-- A completion word changed by the Headgate as a release of the host party (R364, R72). A word that does not translate with write
permission any more is not written, a DESIGN CHOICE (notes/assumptions/94.md). -/
def State.hostCbw (s : State) (vi va : Nat) (f : Nat → Nat) : State :=
  if (s.ctrOffset vi va).isSome then s
  else
    match s.writeAt vi va with
    | (some pa, s) => ({ s with mem := s.mem.writeBytes pa (leBytes 8 (f (s.dword pa))) }).hostMark vi va 3 .release true [pa, pa + 4]
    | (none, s) => s

/-! ### The window flush (R293) -/

/-- The dirty pages of the block's writable windows. -/
def State.dirtyWindows (s : State) (b : Nat) : List Nat :=
  ((s.block b).map.filter fun e => e.2.win && e.2.d).map Prod.fst

/-- Step 1: the first word of a dirty window page whose mark, or an entry of the remote mark table, conflicts with a data read by
warp [w] (R293, R368). -/
def State.flushConflict (s : State) (w : Nat) : Option (Nat × Conflict) :=
  let b := (s.warp w).block
  let a := s.access w .data false
  (s.dirtyWindows b).findSome? fun p =>
    (List.range 1024).findSome? fun k =>
      ((s.spCheck b p k (some (s.warp w).windex) .data false a.start).or (s.remoteCheck b (1024 * p + k) a)).map fun c =>
        (4096 * p + 4 * k, c)

/-- The data reads of step 1 recorded (R293, R367). -/
def State.flushReads (s : State) (w : Nat) : State :=
  let b := (s.warp w).block
  (s.dirtyWindows b).foldl (fun (s : State) p =>
    (List.range 1024).foldl (fun (s : State) k => s.spRecord b p k (s.warp w).windex .data false) s) s

/-- What a flush will write: page, global address and byte, with the poison of the byte's word. -/
def State.flushBytes (s : State) (b p va : Nat) : List (Nat × Byte × Bool) :=
  let q := s.page b p
  (List.range 4096).map fun k => (va + k, sget q.data k 0, bit q.poison (k / 4))

/-- A failure of step 3: the cause, the address and a record. -/
structure FlushFail where
  cause : Nat
  addr : Nat
  record : List Nat
  deriving DecidableEq, Repr

/-- One line's bytes written as a release of w63: checked on all of its words, recorded, merged; poison goes with them. A conflict
leaves the line unwritten, its failure beside the state. -/
def State.flushLine (s : State) (b pc : Nat) (va pa : Nat) (bs : List (Nat × Byte × Bool)) : State × Option FlushFail :=
  let vi := (s.block b).vi
  let w63 := s.partyOf b 63
  let (j, st) := s.intervalOf w63
  let a : Access := ⟨w63, j, st, .release, true⟩
  let words := dedup (bs.map fun x => (pa + x.1 % 64) / 4 * 4)
  match s.homeConflict vi a none words with
  | some (p, c) =>
    let at_ := va + (p - pa)
    let s := (s.count vi unitHome 4 1).pairStop w63 j 11 false pc at_ c
    (s, some ⟨0x18, at_, s.raceRecord w63 11 false false false pc 0 at_ c⟩)
  | none =>
    let s := (s.spend (s.block b).core vi 1).reach (s.block b).core vi va pa
    let s := (s.recordWords vi a words).logLine (s.block b).launch va pa (s.block b).lin 63
    let s := if s.vacated pa then s else { s with mem := s.mem.writeCells (bs.map fun x => (pa + x.1 % 64, x.2.1)) }
    (if bs.any fun x => x.2.2 then s.poisonLine (pa / 64) else s, none)

/-- Bytes at global addresses released by w63, line by line; the first failure, and the state after all lines. -/
def State.releaseBytes (s : State) (b pc : Nat) (bs : List (Nat × Byte × Bool)) : State × Option FlushFail :=
  let vi := (s.block b).vi
  let lines := dedup (bs.map fun x => x.1 / 64 * 64)
  lines.foldl (fun (acc : State × Option FlushFail) va =>
    let mine := bs.filter fun x => x.1 / 64 * 64 == va
    let acc := ((acc.1.writeAt vi va).2, acc.2)
    match acc.1.freshXlate ((acc.1.block b).core / Config.dieCores) vi va .write false with
    | .ok pa =>
      let (s, e) := acc.1.flushLine b pc va pa mine
      (s, acc.2.or e)
    | .cause c => (acc.1, acc.2.or (some ⟨c, va, []⟩))
    | _ => (acc.1, acc.2.or (some ⟨0x15, va, []⟩))) (s, none)

/-- Steps 2 and 3 for one page: D is cleared when every line of it is written. -/
def State.flushPage (s : State) (b pc p : Nat) : State × Option FlushFail :=
  match s.windowVa b p with
  | .error c => (s, some ⟨c, 0, []⟩)
  | .ok va =>
    match s.windowLines b va .write with
    | .error c => (s, some ⟨c, va, []⟩)
    | .ok _ =>
      let (s, e) := s.releaseBytes b pc (s.flushBytes b p va)
      match e with
      | none => (s.setSpEntry b p { s.spEntry b p with d := false }, none)
      | some e => (s, some e)

/-- The flush of a block's dirty window pages as one release of w63. -/
def State.flushWindows (s : State) (b pc : Nat) : State × Option FlushFail :=
  let ps := s.dirtyWindows b
  if ps.isEmpty then (s, none)
  else
    let s := s.openW63 b
    let r := ps.foldl (fun (acc : State × Option FlushFail) p =>
      let (s, e) := acc.1.flushPage b pc p
      (s, acc.2.or e)) (s, none)
    (r.1.advanceParty (s.partyOf b 63) 16, r.2)

/-- The deferred stop of a failed flush. -/
def State.flushStop (s : State) (w pc : Nat) (e : Option FlushFail) : State :=
  match e with
  | none => s
  | some e => s.deferStop w { Stop.blank with cause := e.cause, rgn := true, fpc := pc, addr := e.addr, record := e.record }

/-- The lines that a flush of the block's windows writes. -/
def State.flushVas (s : State) (b : Nat) : List Nat :=
  dedup ((s.dirtyWindows b).flatMap fun p =>
    match s.windowVa b p with
    | .ok va => (List.range 65).map fun k => (va + min (64 * k) 4095) / 64 * 64
    | .error _ => [])

/-- A replay launch's log holds some of the lines back (R412). -/
def State.flushHeld (s : State) (b : Nat) (vas : List Nat) : Bool :=
  vas.any fun va => s.gate (s.block b).launch va (s.block b).lin 63 == .hold

/-- An access staged: behind the released ones when it is released itself (R401). -/
def State.stage (s : State) (e : Staged) : State :=
  { s with staged := if e.released then (s.staged.filter fun x => x.released) ++ [e] ++ s.staged.filter fun x => !x.released
    else s.staged ++ [e] }

/-- A launch has released accesses that are not performed yet (R401). -/
def State.releasesLeft (s : State) (li : Nat) : Bool := s.staged.any fun e => e.launch == li && e.released

/-- The bytes that a flush writes and the physical words that they reach; pages whose range does not translate are left out, the
first cause being named (R293). -/
def State.flushPlan (s : State) (b : Nat) : List (Nat × Byte × Bool) × List Nat × Option FlushFail :=
  (s.dirtyWindows b).foldl (fun (acc : List (Nat × Byte × Bool) × List Nat × Option FlushFail) p =>
    match s.windowVa b p with
    | .error c => (acc.1, acc.2.1, acc.2.2.or (some ⟨c, 0, []⟩))
    | .ok va =>
      match s.windowLines b va .write with
      | .error c => (acc.1, acc.2.1, acc.2.2.or (some ⟨c, va, []⟩))
      | .ok ls => (acc.1 ++ s.flushBytes b p va, acc.2.1 ++ (List.range 1024).map (fun k => paIn ls (va + 4 * k) / 4 * 4), acc.2.2))
    ([], [], none)

/-- The pages whose content a performed flush has written keep it no longer as dirty. -/
def State.flushDone (s : State) (b : Nat) (bs : List (Nat × Byte × Bool)) : State :=
  (s.dirtyWindows b).foldl (fun (s : State) p =>
    match s.windowVa b p with
    | .ok va => if (s.flushBytes b p va).all fun x => bs.contains x then s.setSpEntry b p { s.spEntry b p with d := false } else s
    | .error _ => s) s

/-- Steps 2 and 3 after a commit: in deterministic mode the release is staged with its bytes, and in replay it is held for the
log's order (R293, R401, R412); a page that does not translate is not written, which gives the warp a deferred stop. -/
def State.commitFlush (s : State) (w pc : Nat) : State :=
  let b := (s.warp w).block
  let l := s.launchOf w
  let covered := decide ((s.block b).lin ≤ l.ord)
  if s.secondary w then s
  else if (l.det && (!covered || s.releasesLeft (s.warp w).launch)) || s.flushHeld b (s.flushVas b) then
    let (bytes, words, e) := s.flushPlan b
    let s := s.flushStop w pc e
    if bytes.isEmpty then s
    else
      let (id, s) := s.fresh
      s.stage ⟨id, (s.warp w).launch, b, w, .spmapFlush ⟨7, false⟩, ⟨w, 0, 0, pc, 0, none⟩, dedup words,
        dedup (bytes.map fun x => x.1 / 64 * 64), .release, bytes, l.det && covered⟩
  else
    let (s, e) := s.flushWindows b pc
    s.flushStop w pc e

/-- A window write-back of the warp is still to be performed: its later releases wait (R293). -/
def State.flushPending (s : State) (w : Nat) : Bool := s.staged.any fun e => e.warp == w && !e.bytes.isEmpty

/-! ### The commit (R153) -/

/-- A stop of a region that did not commit. -/
def regionStop (cause lanes addr fpc : Nat) (record : List Nat) : Stop :=
  { Stop.blank with cause := cause, rgn := true, discard := true, lanes := lanes, addr := addr, fpc := fpc, counts := true, record := record }

/-- A stop outlives the discard of the executing region: one that is no word's of that region (R423). -/
def Stop.stands (st : Stop) : Bool := st.gone || (st.rgn && !st.discard)

/-- The PC of the region's entry for a lane. -/
def Region.entryPc (r : Region) (lanes : Nat) : Nat :=
  match r.entry.pct.find? fun e => mAnd e.mask lanes != 0 with
  | some e => e.pc
  | none => match r.entry.pct.head? with | some e => e.pc | none => 0

/-- The scratchpad address of an access as a record gives it (R287). -/
def spAddress (m : Option Nat) (off : Nat) : Nat := match m with | some m => m * 2 ^ 24 + off | none => off

/-- The member of the gang that an atomic lane names, for a remote one. -/
def State.memberOf (s : State) (a : SpAtomReq) : Option Nat :=
  if a.remote then some ((s.block a.blk).lin % max 1 (s.launch (s.block a.blk).launch).gang) else none

/-- The map unit's check of one buffered scratchpad atomic (R153, R385): the stop, and the state with the pair stop of a conflict. -/
def State.spAtomCheck (s : State) (w : Nat) (r : Region) (a : SpAtomReq) : Option (Stop × State) :=
  let x := s.warp w
  let own := a.blk == x.block
  let acc := s.access w a.cls true
  let addr := spAddress (s.memberOf a) a.off
  let c := (s.spCheck a.blk (a.off / 4096) (a.off % 4096 / 4) (if own then some x.windex else none) a.cls true acc.start).or
    (s.remoteCheck a.blk (a.off / 4) acc)
  let kind := kindOf a.cls true
  match c with
  | some c => some (regionStop c.cause (2 ^ a.lane) addr a.pc
      (s.raceRecord x.party kind false true false a.pc (r.entryPc (2 ^ a.lane)) addr c), s.pairStop x.party acc.int kind true a.pc addr c)
  | none => if s.spPoisoned a.blk a.off then some (regionStop 0x20 (2 ^ a.lane) addr a.pc [], s) else none

/-- The rows that a matrix command names (R318, R332). -/
def MatKind.rows : MatKind → Option (Nat × Nat)
  | .mmac mpb => some (bits (mpb.getD 3 0) 39 31, 64)
  | .st _ _ r n _ _ => some (r, n)
  | .ld _ _ r n _ _ _ => some (r, n)
  | .zero r n => some (r, n)
  | .rd _ r _ _ _ _ => some (r, 1)
  | .mq _ _ _ => none

def rowsOverlap (a b : Option (Nat × Nat)) : Bool :=
  match a, b with
  | some (r, n), some (q, m) => decide (r < q + m) && decide (q < r + n)
  | _, _ => false

/-- The overlap of a committing region's matrix commands with those in flight of other warps of the block (R318); the record, in
the layout of R374, names the other command's warp (notes/assumptions/91.md). -/
def State.overlapStop (s : State) (w : Nat) (r : Region) : Option Stop :=
  let q := (s.coreOf w).matq
  (q.filter fun c => r.cmds.contains c.id).findSome? fun c =>
    (q.find? fun o => o.handed && o.blk == c.blk && o.warp != w && rowsOverlap o.kind.rows c.kind.rows).map fun o =>
      let p := (s.warp o.warp).party
      regionStop 0x1A r.lanes 0 c.pc
        (s.raceRecord (s.warp w).party 9 true false false c.pc (r.entryPc r.lanes) 0 ⟨0x1A, 9, some (p, o.int), s.intervalStart p o.int⟩)

/-- The checks before any intent is sent: buffered scratchpad atomics and step 1 of a flush (R153, R293). -/
def State.commitChecks (s : State) (w : Nat) (r : Region) : Option (Stop × State) :=
  match (r.spAtoms.findSome? (s.spAtomCheck w r)).or ((s.overlapStop w r).map fun st => (st, s)) with
  | some x => some x
  | none =>
    r.flush.bind fun pc =>
      (s.flushConflict w).map fun x =>
        let a := s.access w .data false
        let c := { x.2 with cause := 0x18 }
        (regionStop 0x18 r.lanes x.1 pc (s.raceRecord a.party 0 false true false pc (r.entryPc r.lanes) x.1 c),
          s.pairStop a.party a.int 0 true pc x.1 c)

/-- The completion word of an engine command, 0 for none. -/
def State.cmdCbw (s : State) (w id : Nat) : Nat :=
  let c := s.coreOf w
  match c.copyq.find? fun x => x.id == id with
  | some x => x.desc.getD 7 0
  | none =>
    match c.matq.find? fun x => x.id == id with
    | some x => (match x.kind with | .mmac mpb => mpb.getD 4 0 | _ => 0)
    | none => 0

/-- The PC of an engine command. -/
def State.cmdPc (s : State) (w id : Nat) : Nat :=
  let c := s.coreOf w
  ((c.copyq.find? fun x => x.id == id).map fun x => x.pc).getD (((c.matq.find? fun x => x.id == id).map fun x => x.pc).getD 0)

/-- The requests that a region sends to the homes. -/
def State.commitReqs (s : State) (w : Nat) (r : Region) : List Req :=
  let x := s.warp w
  let mk (k : ReqKind) : Req := ⟨(s.blockOf w).core, x.vi, w, r.seq, k⟩
  ((x.dirty.filter fun d => d.state == .committing).map fun d => mk (.intent d)) ++
  (r.atoms.map fun a => mk (.atomic a)) ++
  r.cmds.filterMap fun id =>
    let va := s.cmdCbw w id
    if va = 0 ∨ (s.ctrOffset x.vi va).isSome then none
    else (s.paOf x.vi va .write).map fun pa => mk (.incr id va pa (s.cmdPc w id) r.lanes)

/-- The access classes that a request checks with (R342, R303). -/
def ReqKind.cls : ReqKind → AccClass
  | .intent _ => .data
  | .atomic a => a.cls
  | .incr _ _ _ _ _ => .exchange

/-- The words of a request. -/
def ReqKind.words : ReqKind → List Nat
  | .intent d => dedup (d.bytes.map fun x => 64 * d.line + x.1 / 4 * 4)
  | .atomic a => wordsOf a.pa a.ty.bytes
  | .incr _ _ pa _ _ => [pa, pa + 4]

def ReqKind.ty : ReqKind → Option AtomTy
  | .atomic a => some a.ty
  | _ => none

/-- Virtual address, PC and lanes of the access of a request at a physical word. -/
def ReqKind.origin (k : ReqKind) (pa : Nat) : Nat × Nat × Nat :=
  match k with
  | .intent d =>
    match d.who.find? fun x => x.1 == pa % 64 / 4 with
    | some x => (d.vline + pa % 64, x.2.1, x.2.2)
    | none => (d.vline + pa % 64, 0, 0)
  | .atomic a => (a.va + (pa - a.pa), a.pc, 2 ^ a.lane)
  | .incr _ va p pc lanes => (va + (pa - p), pc, lanes)

/-- A request checked and recorded at its home (R364), or the stop of its region. -/
def State.acceptReq (s : State) (q : Req) : Except (Stop × State) State :=
  let x := s.warp q.warp
  let o := x.older.getD Region.blank
  let a := s.access q.warp q.kind.cls true
  let remote := match q.kind with | .atomic a => a.rmt.isSome | _ => false
  if remote then .ok s
  else
    let words := q.kind.words
    match s.homeConflict q.vi a q.kind.ty words with
    | some (pa, c) =>
      let (va, pc, lanes) := q.kind.origin pa
      let kind := match q.kind with | .intent _ => 1 | .atomic r => kindOf r.cls true | .incr _ _ _ _ _ => 6
      let s' := (s.count q.vi unitHome 4 1).pairStop a.party a.int kind false pc va c
      .error (regionStop c.cause lanes va pc (s.raceRecord a.party kind false false false pc (o.entryPc lanes) va c), s')
    | none =>
      let poisonStop : Option Stop := match q.kind with
        | .atomic r => if s.poisonedFor q.core r.pa then some (regionStop 0x20 (2 ^ r.lane) r.va r.pc []) else none
        | _ => none
      match poisonStop with
      | some st => .error (st, s)
      | none =>
        let va := (q.kind.origin (words.headD 0)).1
        let s := (s.reach q.core q.vi va (words.headD 0)).recordWords q.vi a words
        match q.kind with
        | .intent d => .ok (if words.length = 16 then s.registerWrite q.warp d.line else s)
        | .atomic r =>
          let l := s.launchOf q.warp
          .ok (if r.cls == .accumulate && (l.det || l.mode != 0) && (l.typed.all fun t => t.1 != r.pa / 4 * 4) then
            s.updLaunch x.launch fun l => { l with typed := (words.map fun p => (p, r.ty)) ++ l.typed } else s)
        | _ => .ok s

/-! ### Completing a commit -/

/-- The mark of a scratchpad atomic, in the word's own mark or, for one of another block, in the remote mark table (R367, R368). -/
def State.markSpAtom (s : State) (w : Nat) (a : SpAtomReq) : State :=
  let x := s.warp w
  if a.blk == x.block then s.spRecord a.blk (a.off / 4096) (a.off % 4096 / 4) x.windex a.cls true
  else ((s.crossGang w a.blk).remoteRecord a.blk (a.off / 4) (s.access w a.cls true)).getD s

/-- The old value and the page after a scratchpad atomic, without its mark. -/
def State.changeSp (s : State) (a : SpAtomReq) : Nat × State :=
  let old := leNat ((List.range 4).map fun k => s.spSeen a.blk (a.off + k))
  (old, ((s.spTook a.blk).noteOld a.blk a.off 4).spWriteBytes a.blk a.off (leBytes 4 (atomNew a.op a.ty old a.b a.c)))

/-- The old value and the page after a scratchpad atomic, with its mark (R385). -/
def State.applySpAtom (s : State) (w : Nat) (a : SpAtomReq) : Nat × State :=
  let (old, s) := s.changeSp a
  (old, s.markSpAtom w a)

/-- The buffered scratchpad atomics of a committed region: accumulate-class ones leave their marks and are held in deterministic
mode (R385). -/
def State.commitSpAtoms (s : State) (w : Nat) (r : Region) : State :=
  let l := s.launchOf w
  r.spAtoms.foldl (fun (s : State) a =>
    if l.det && a.cls == .accumulate then (s.updBlock a.blk fun b => { b with heldAcc := b.heldAcc ++ [a] }).markSpAtom w a
    else (s.applySpAtom w a).2) s

/-- The remote mark tables have room for the gang-remote atomics of a region (R368). -/
def State.spAtomRoom (s : State) (w : Nat) (r : Region) : Bool :=
  let far := r.spAtoms.filter fun a => a.blk != (s.warp w).block
  (dedup (far.map fun a => (s.block a.blk).core)).all fun c =>
    s.remoteRoom c ((far.filter fun a => (s.block a.blk).core == c).map fun a => (a.blk, a.off / 4))

/-- Whether an accumulate atomic is not applied at its commit (R404, R409). -/
def Launch.defersAcc (l : Launch) : Bool := l.det || l.mode != 0

/-- The buffered global atomics of a committed region, in warp issue order. -/
def State.commitAtoms (s : State) (w : Nat) (r : Region) : State :=
  let li := (s.warp w).launch
  let b := (s.blockOf w).lin
  if s.secondary w then s
  else
    r.atoms.foldl (fun (s : State) a =>
      match a.rmt with
      | some _ =>
        if a.cls == .accumulate && (s.launch li).defersAcc then
          let s := s.updLaunch li fun l => { l with defUpds := l.defUpds ++ [⟨a, li, true⟩] }
          if (s.launch li).det then s else s.logPerformed li ⟨256 + (s.blockOf w).core, none, b, a.warp, 0, 0, 0, some a⟩
        else s.applyUpd ⟨a, li, false⟩
      | none =>
        if (s.ctrOffset (s.warp w).vi a.va).isSome then s
        else if a.cls == .accumulate && (s.launch li).det then s
        else if a.cls == .accumulate && (s.launch li).mode != 0 then
          let s := s.updLaunch li fun l => { l with defUpds := l.defUpds ++ [⟨a, li, true⟩] }
          s.logPerformed li ⟨sliceOf a.pa, none, b, a.warp, 0, 0, 0, some a⟩
        else
          let s := (s.atomAt a.pa a.op a.ty a.b a.c).2
          s.logPerformed li ⟨sliceOf a.pa, some a.va, b, a.warp, 0, 0, 0, none⟩) s

/-- The accumulate updates of a committed region that go to the holding buffers (R404). -/
def State.accUpdates (s : State) (w : Nat) (r : Region) : List AccUpd :=
  if (s.launchOf w).det && !s.secondary w then
    (r.atoms.filter fun a => a.cls == .accumulate && a.rmt.isNone).map fun a => ⟨a, (s.warp w).launch, false⟩
  else []

/-- The region's lines are committed: full lines lose their poison, lines with a hint and lines of the overflow buffer go
home at once (R153, R284, R152, R431). -/
def State.commitLines (s : State) (w : Nat) : State :=
  let full := ((s.warp w).dirty.filter fun d => d.state == .committing && d.bytes.length == 64).map fun d => d.line
  let s := { s with poison := s.poison.filter fun l => !full.contains l }
  let now := ((s.warp w).dirty.filter fun d => d.state == .committing && (d.nt || d.ovf)).map fun d => d.line
  let s := s.updWarp w fun x =>
    { x with dirty := x.dirty.map fun d => if d.state == .committing then { d with state := .committed } else d }
  let s := s.writeBack w fun d => now.contains d.line
  if (s.coreOf w).ovfWarp == some w then s.updCore (s.blockOf w).core fun c => { c with ovfWarp := none } else s

/-- A list with the elements of a test moved behind the others that satisfy a second one. -/
def moveLast {α : Type} (xs : List α) (mine handed : α → Bool) : List α :=
  (xs.filter fun x => !mine x && handed x) ++ xs.filter mine ++ xs.filter fun x => !mine x && !handed x

/-- A command that is not handed over leaves its queue, its completion word receives error 4, and its counter is credited (R307). -/
def State.refuseCmd (s : State) (w id va : Nat) : State :=
  let copy := (s.coreOf w).copyq.any fun q => q.id == id
  let s := s.updCore (s.blockOf w).core fun c =>
    { c with copyq := c.copyq.filter (fun q => q.id != id), matq := c.matq.filter fun q => q.id != id }
  (s.updCbw (s.warp w).vi va fun d => cbwEnd d 5 4 false).credit w (if copy then .c else .t) id

/-- The command stands last among those handed over, with its interval and the completion word that it has incremented. -/
def State.takeCmd (s : State) (w id j : Nat) (cbw : Option Nat) : State :=
  let s := s.updCore (s.blockOf w).core fun c =>
    { c with
      copyq := moveLast (c.copyq.map fun (q : CopyCmd) =>
        if q.id == id then { q with handed := true, cbw := cbw, int := j } else q) (fun q => q.id == id) (fun q => q.handed)
      matq := moveLast (c.matq.map fun (q : MatCmd) =>
        if q.id == id then { q with handed := true, cbw := cbw, int := j } else q) (fun q => q.id == id) (fun q => q.handed) }
  s.updRec (s.warp w).party fun r => r.hand id

/-- A copy or matrix command handed to its engine: the warp's committed stores are home first, the command stands last among
those handed over, its completion word is incremented, which the order log keeps (R408), its interval noted (R303, R305, R322, R329); a
count past 2^32 − 1 is not handed over and fails at once with error 4, its count left unchanged (R307). -/
def State.handOver (s : State) (w id : Nat) : State :=
  let s := s.writeBackAll w
  let x := s.warp w
  let va := s.cmdCbw w id
  let j := (s.intervalOf x.party).1
  let (pa, s) := if va = 0 ∨ s.secondary w ∨ (s.ctrOffset x.vi va).isSome then (none, s) else s.writeAt x.vi va
  match pa with
  | some a => if cbwCount (s.dword a) == 2 ^ 32 - 1 then s.refuseCmd w id va else
    let d := s.dword a
    let s := s.logLine x.launch va a (s.blockOf w).lin x.windex
    ({ s with mem := s.mem.writeBytes a (leBytes 8 (cbwWord (cbwStatus d) (cbwErr d) (cbwCount d + 1))) }).takeCmd w id j (some a)
  | none => s.takeCmd w id j none

/-- The records that a committed region held (R186, R462). -/
def State.commitRecs (s : State) (w : Nat) (r : Region) : State :=
  r.recs.foldl (fun (s : State) x =>
    match x with
    | (0, n, a, _) => s.emitWarp w (s.frameOf w 0x11 n ++ [a % 2 ^ 32, s.devTime])
    | (_, pc, m, ic) => s.emitWarp w (s.frameOf w 0x12 0 ++ [pc % 2 ^ 57, m % 2 ^ 32 * 2 ^ 32 + ic % 2 ^ 32])) s

/-- The line of a committed `pref.evict` (R291); it stays in the L2 when its marks cannot be spilled (R372). -/
def State.evictLine (s : State) (w va : Nat) : State :=
  let x := s.warp w
  match s.freshXlate ((s.blockOf w).core / Config.dieCores) x.vi va .read false with
  | .ok pa =>
    let line := pa / 64
    let s := s.writeBack w fun d => d.line == line
    let s := s.updCore (s.blockOf w).core fun c => { c with clean := c.clean.filter fun y => !(y.vi == x.vi && y.line == line) }
    if s.present line then ((s.count x.vi unitHbm 1 1).dropLine line).getD s else s
  | _ => s

/-- The declaration of a committed `odone`: it reaches the Weir once every warp of the block has declared or ended; for a
block with a writable window only at its retirement (R398). -/
def State.declare (s : State) (w : Nat) : State :=
  let s := s.updWarp w fun x => { x with declared := true }
  let b := (s.warp w).block
  let l := s.launchOf w
  let winWritable := (List.range l.nwin).any fun k => winWr (l.win k)
  if l.det && !winWritable && !s.secondary w && (s.blockWarps b).all fun v => (s.warp v).declared || (s.warp v).ended then
    (s.updLaunch (s.warp w).launch fun l =>
      { l with declared := if l.declared.contains (s.block b).lin then l.declared else (s.block b).lin :: l.declared }).releaseStaged
      (s.warp w).launch
  else s

/-- The lanes whose re-execution this commit was leave the sets for which scalar registers are held (R136). -/
def Warp.endHolds (w : Warp) (r : Region) : Warp :=
  let hs := (w.holds.map fun h => if h.seq < r.seq then { h with lanes := mDiff h.lanes r.lanes } else h).filter fun h => h.lanes != 0
  { w with holds := hs
           pct := w.pct.map fun e => if e.state == .waiting && e.on == .service then { e with state := .ready, on := .none } else e }

/-- The commit of the older region completes (R153). Its atomics change their words now and its dirty copies go home later, also
where a store of the region to such a word came first: a DESIGN CHOICE (notes/assumptions/100.md). -/
def State.completeCommit (s : State) (w : Nat) : State :=
  match (s.warp w).older with
  | none => s
  | some r =>
    let s := s.commitSpAtoms w r
    let s := s.commitAtoms w r
    let s := s.commitLines w
    let s := r.stores.foldl (fun (s : State) id => s.credit w .s id) s
    let s := r.cmds.foldl (fun (s : State) id => s.handOver w id) s
    let s := s.updWarp w fun x =>
      { (x.endHolds r) with older := none, commits := (x.commits + 1) % 2 ^ 32, wdog := 0
                            reentry := if r.inTrap then x.reentry else 0
                            pins := x.pins.filter fun p => x.region.spAtoms.any fun a => (a.blk, a.off / 4096) == p }
    let s := s.commitRecs w r
    let vi := (s.warp w).vi
    let s := s.count vi unitCore 0 1
    let s := r.clears.foldl (fun (s : State) n => s.perfClear vi n) s
    let s := r.ctrStores.foldl (fun (s : State) x => s.writeCtr vi x.1 x.2) s
    let s := r.evicts.foldl (fun (s : State) va => s.evictLine w va) s
    let s := match r.flush with | some pc => s.commitFlush w pc | none => s
    let s := if r.mclear then s.updWarp w fun x => { x with merr := none, mcont := none, mflags := 0 } else s
    if r.odone then s.declare w else s

/-- Requests of a region that its homes have not accepted yet. -/
def State.reqsLeft (s : State) (w seq : Nat) : Bool :=
  (s.net.any fun q => q.warp == w && q.region == seq) ||
  (s.coreOf w).port.any fun q => q.warp == w && q.region == seq

/-- The other copy's warp in redundant execution (R444). -/
def State.twinOf (s : State) (w : Nat) : Option Nat :=
  (s.blockOf w).twin.bind fun b => (s.blockWarps b).find? fun v => (s.warp v).windex == (s.warp w).windex

/-- Everything that the older region's commit waits for has been accepted. -/
def State.commitReady (s : State) (w : Nat) : Bool :=
  match (s.warp w).older with
  | none => false
  | some r =>
    r.compared && r.failed.isNone && !s.reqsLeft w r.seq && (s.overlapStop w r).isNone && s.spAtomRoom w r &&
    (s.accUpdates w r).all fun u => !(s.waiting.any fun v => v.req == u.req)

/-- Why the older region's commit fails: a home or the map unit has rejected it, or, once every home has accepted what it sends, a
matrix command overlaps one that has been handed over meanwhile (R154, R318). -/
def State.commitFailed (s : State) (w : Nat) : Option Stop :=
  (s.warp w).older.bind fun r =>
    r.failed.or (if r.compared && !s.reqsLeft w r.seq then s.overlapStop w r else none)

/-- The requests of the older region leave for the port (R153); the secondary copy sends none (R445). -/
def State.sendReqs (s : State) (w : Nat) : State :=
  match (s.warp w).older with
  | none => s
  | some r =>
    let s := s.updWarp w fun x => { x with older := some { r with compared := true } }
    let qs := if s.secondary w then [] else s.commitReqs w r
    let s := s.updCore (s.blockOf w).core fun c => { c with port := c.port ++ qs }
    { s with waiting := s.waiting ++ s.accUpdates w r }

/-- The executing region ends and its commit begins (R153): it becomes the older region, its lines are committing. -/
def State.retireRegion (s : State) (w : Nat) : State :=
  s.updWarp w fun x =>
    { x with older := some x.region, region := { Region.blank with seq := x.region.seq + 1 }
             dirty := x.dirty.map fun d => if d.state == .region then { d with state := .committing } else d }

/-- A commit that a check at the map unit failed (R153, R293). -/
def State.failOlder (s : State) (w : Nat) (st : Stop) : State :=
  s.updWarp w fun x => { x with older := x.older.map fun r => { r with failed := some (r.failed.getD st) } }

/-- Suspect clusters after a redundancy-mismatch stop (R447). -/
def State.suspect (s : State) (core : Nat) : State :=
  let k := core / 8
  let c := sget s.clusters k noCluster
  { s with clusters := sins s.clusters k { c with suspect := true } }

def State.mismatch (s : State) (core : Nat) : State :=
  let k := core / 8
  let c := sget s.clusters k noCluster
  { s with clusters := sins s.clusters k { c with mismatches := c.mismatches + 1 } }

/-- A redundancy mismatch (R446, R157): both regions in flight go, an undelivered stop of a younger word with them (R423), and the
warp re-enters or takes the stop. -/
def State.mismatchDiscard (s : State) (w : Nat) : State :=
  let s := ((s.mismatch (s.blockOf w).core).discardBoth w 3).updWarp w fun x => { x with stop := none }
  let x := s.warp w
  if x.reentry + 1 ≤ (s.launchOf w).reentry then
    s.updWarp w fun x => { x with reentry := x.reentry + 1, reentries := min 0xFFFF (x.reentries + 1) }
  else
    (s.suspect (s.blockOf w).core).updWarp w fun x =>
      { x with stop := some { Stop.blank with cause := 0x21, rgn := true, lanes := x.live, counts := true, discard := true, gone := true } }

/-- The copies of a redundant region have both ended it and their signatures differ (R446). -/
def State.mismatched (s : State) (w : Nat) : Bool :=
  match (s.warp w).older, (s.twinOf w).bind fun v => (s.warp v).older with
  | some a, some b => !a.compared && !b.compared && a.stream != b.stream
  | _, _ => false

/-- The signatures of the two copies compared once both have ended the region (R446); a discard waits for results of committed
matrix commands (R140). -/
def State.compareCopies (s : State) (w : Nat) : State :=
  match s.twinOf w with
  | none => s.sendReqs w
  | some v =>
    match (s.warp w).older, (s.warp v).older with
    | some a, some b =>
      if a.compared || b.compared then s
      else if !s.mismatched w then (s.sendReqs w).sendReqs v
      else if (s.warp w).awaits || (s.warp v).awaits then s
      else (s.mismatchDiscard w).mismatchDiscard v
    | _, _ => s

/-- The commit begins: the checks at the map unit, the comparison of redundant copies, and the sending (R153, R446). -/
def State.beginCommit (s : State) (w : Nat) : State :=
  match s.commitChecks w (s.warp w).region with
  | some (st, s) => (s.retireRegion w).failOlder w st
  | none =>
    let s := (if (s.warp w).region.flush.isSome then s.flushReads w else s).retireRegion w
    if (s.launchOf w).rdnt then s.compareCopies w else s.sendReqs w

/-- A commit that begins and, where nothing is left to wait for, completes at once. -/
def State.commitNow (s : State) (w : Nat) : State :=
  let s := s.beginCommit w
  if !(s.launchOf w).rdnt && s.commitReady w then s.completeCommit w else s

end Sys2Proof.Machine
end

