-- ==== Sys2Proof/Machine/Barriers.lean ====
section
/-!
DEFINITION. Reconvergence barriers (spec/07 R134), named and gang barriers and warp synchronisation (spec/22 R391 to R395),
their arrivals, completions and what the exit of lanes does to them (spec/22 R392, spec/07 R138).
-/

namespace Sys2Proof.Machine

/-! ### Leaving a wait -/

/-- Entries that wait on a condition become ready; those of the regions' entry states too, since a completed barrier stays
completed after a discard. -/
def Warp.wakeAll (w : Warp) (on : WaitOn) (lanes : Nat) (st : EState) (on' : WaitOn) : Warp :=
  let f (e : PctEntry) : List PctEntry :=
    if e.state == .waiting && e.on == on then
      [{ e with mask := mDiff e.mask lanes }, { e with mask := mAnd e.mask lanes, state := st, on := on' }].filter fun x => x.mask != 0
    else [e]
  let g (r : Region) : Region := { r with entry := { r.entry with pct := r.entry.pct.flatMap f } }
  { w with pct := w.pct.flatMap f, region := g w.region, older := w.older.map g }

def Stop.step (pc rpc lanes : Nat) : Stop :=
  { Stop.blank with cause := 0x05, pc := pc, rpc := rpc, fpc := pc, lanes := lanes, sub := lanes }

/-- STEP is set and the warp is not in trap mode (R180). -/
def Warp.stepping (w : Warp) : Bool := bit w.dbgctl 0 && w.trap.isNone

/-- The single-step stop of a word whose lanes leave its wait (R180), unless a stop is pending. -/
def Warp.stepAfterWait (w : Warp) (lanes : Nat) : Warp :=
  if w.stepping && w.stop.isNone then
    match w.pct.find? fun e => mAnd e.mask lanes != 0 && e.ready with
    | some e => { w with stop := some (Stop.step ((e.pc + (2 ^ 64 - 8)) % 2 ^ 64) e.pc (mAnd e.mask lanes)) }
    | none => w
  else w

/-- The lanes that wait on a condition. -/
def Warp.waitingOn (w : Warp) (on : WaitOn) : Nat :=
  w.pct.foldl (fun m e => if e.state == .waiting && e.on == on then mOr m e.mask else m) 0

/-- The completions whose lanes have still to leave. -/
def Warp.leavings (w : Warp) : List Nat :=
  dedup (w.pct.filterMap fun e => match e.on with | .leaving k => some k | _ => none)

/-- The warp stands between two regions, all before it committed. -/
def Warp.atBoundary (w : Warp) : Bool := w.region.issued == 0 && w.older.isNone

/-- An executing region ends at a boundary that an advance of the interval needs, when the advance is brought by what another party
does (R145; notes/assumptions/90.md); a region with a pending stop ends by that, and the copies of a redundant launch end their regions
at the same words only. -/
def State.bound (s : State) (w : Nat) : State :=
  let x := s.warp w
  if x.region.issued != 0 && x.older.isNone && x.stop.isNone && !(s.launchOf w).rdnt then s.commitNow w else s

/-- What the warp has in flight will end without commit. -/
def State.doomed (s : State) (w : Nat) : Bool :=
  (s.commitFailed w).isSome || s.mismatched w || ((s.warp w).older.isNone && (s.warp w).stop.any fun st => st.discard)

/-- A decrement of a completion word may advance the warp's interval now: at a boundary, or within regions that will be discarded; in a
redundant launch wherever the warp stands (R145, R346; notes/assumptions/90.md). -/
def State.canAdvance (s : State) (w : Nat) : Bool := (s.launchOf w).rdnt || (s.warp w).atBoundary || s.doomed w

/-- The lanes of one completion leave: the interval advances, as an acquire (R346, R391). -/
def State.departOne (s : State) (w k : Nat) : State :=
  let m := (s.warp w).waitingOn (.leaving k)
  (s.advance w 16).updWarp w fun x => ((x.wakeAll (.leaving k) m .ready .none).merge).stepAfterWait m

/-- The lanes of completed barriers leave once the interval can close: every command handed in it has sent its completion (R347),
and the advance falls at a closing boundary (R145). -/
def State.depart (s : State) (w : Nat) : State :=
  let ks := (s.warp w).leavings
  if ks.isEmpty || !(s.handed w).isEmpty then s
  else
    let s := s.bound w
    if (s.warp w).atBoundary then ks.foldl (fun (s : State) k => s.departOne w k) s else s

/-- Lanes leave a completed barrier, each completion with an advance of its own (R346). -/
def State.leave (s : State) (w : Nat) (on : WaitOn) (lanes : Nat) : State :=
  let (k, s) := s.fresh
  (s.updWarp w fun x => x.wakeAll on lanes .waiting (.leaving k)).depart w

/-- The next region of a warp issues nothing: a boundary has been placed for an advance that is still to come (R145). -/
def State.boundWaits (s : State) (w : Nat) : Bool :=
  let x := s.warp w
  x.region.issued == 0 && (x.bounding || (!x.leavings.isEmpty && (s.handed w).isEmpty))

/-! ### Reconvergence barriers (R134) -/

def Warp.rcvAt (w : Warp) (b : Nat) : RcvBar := w.rcv.getD b ⟨0, 0⟩

def Warp.setRcv (w : Warp) (b : Nat) (r : RcvBar) : Warp := { w with rcv := w.rcv.set b r }

/-- Lanes that wait at barrier [b] are released at the PC after their `rcv.wait`. -/
def Warp.rcvRelease (w : Warp) (b : Nat) : Warp :=
  let lanes := w.waitingOn (.rcv b)
  let w := { w with pct := w.pct.map fun (e : PctEntry) =>
    if e.state == EState.waiting && e.on == WaitOn.rcv b then { e with state := .ready, on := .none } else e }
  w.merge.stepAfterWait lanes

/-- The barrier releases its lanes, and is cleared, when they, with the lanes that have exited, cover what it expects. -/
def Warp.rcvCheck (w : Warp) (b : Nat) : Warp :=
  let r := w.rcvAt b
  if (r.exp != 0 || r.arr != 0) && mDiff (mDiff r.exp r.arr) w.exited == 0 then (w.setRcv b ⟨0, 0⟩).rcvRelease b else w

/-- The same for warp synchronisation (R395). -/
def Warp.wsyncCheck (w : Warp) : Warp :=
  if w.wsyncArr != 0 && mDiff (mDiff w.wsyncMask w.wsyncArr) w.exited == 0 then
    let lanes := w.wsyncArr
    (({ w with wsyncMask := 0, wsyncArr := 0 }.wakeAll .wsync lanes .ready .none).merge).stepAfterWait lanes
  else w

/-! ### Named and gang barriers (R391 to R393) -/

/-- The live threads of a block, by linear index. -/
def State.liveThreads (s : State) (b : Nat) : Nat :=
  (s.blockWarps b).foldl (fun n w => n + (s.warp w).live * 2 ^ (32 * (s.warp w).windex)) 0

/-- The lanes of warp [w] in a set of threads. -/
def State.lanesIn (s : State) (w ts : Nat) : Nat := bits ts (32 * (s.warp w).windex + 31) (32 * (s.warp w).windex)

def Block.bar (x : Block) (n : Nat) : NBar := x.bars.getD n NBar.idle

def State.setBar (s : State) (b n : Nat) (x : NBar) : State := s.updBlock b fun y => { y with bars := y.bars.set n x }

/-- The barrier has all that it expects. -/
def NBar.done (x : NBar) (live : Nat) : Bool :=
  x.arr != 0 && (if x.exp = 0 then mDiff live x.mask == 0 else decide (x.exp ≤ x.arr))

/-- A lane's arrival at a named barrier that its code does not allow: an instruction stop at the word (R391). -/
def State.barStop (s : State) (w lanes pc : Nat) : State :=
  s.updWarp w fun x =>
    let x := x.place lanes pc .ready .none
    if x.stop.isSome then x
    else { x with stop := some { Stop.blank with cause := 0x01, pc := pc, rpc := pc, fpc := pc, lanes := lanes, sub := lanes } }

/-- Arrivals counted, with their lanes among the arrived and, for `join`, among those that wait. -/
def NBar.add (x : NBar) (base lanes n : Nat) (post : Bool) : NBar :=
  if lanes = 0 then x
  else
    { x with exp := if x.arr = 0 then n else x.exp, arr := x.arr + popc lanes, mask := mOr x.mask (lanes * 2 ^ base)
             join := if post then x.join else mOr x.join (lanes * 2 ^ base) }

/-- Lanes whose arrival is counted: the interval closes, and lanes that `post` go on while lanes that `join` wait on [on] (R346, R391). -/
def State.releasePart (s : State) (a : LateArr) (lanes : Nat) (on : WaitOn) : State :=
  if lanes = 0 then s
  else
    (s.advance a.w 16).updWarp a.w fun w =>
      if a.post then (w.place lanes (nextPc a.pc) .ready .none).merge else w.place lanes (nextPc a.pc) .waiting on

/-- The lanes of an arrival at barrier [n] of a block, their word at [pc] with count [k]; they stand at the PC
after it, and lanes that have arrived already arrive in the next phase. No completion is looked for. -/
def State.arrive (s : State) (b n : Nat) (a : LateArr) : State :=
  let x := (s.block b).bar n
  let again := mAnd a.lanes (s.lanesIn a.w x.mask)
  let now := mDiff a.lanes again
  let l := s.launch (s.block b).launch
  if l.threads < a.n then s.barStop a.w a.lanes a.pc
  else if x.arr != 0 && a.n != x.exp && now != 0 then
    s.barStop a.w (2 ^ (lowLane now).getD 0) a.pc
  else
    let x := if again = 0 then x else { x with later := x.later ++ [{ a with lanes := again }] }
    let s := s.setBar b n (x.add (32 * (s.warp a.w).windex) now a.n a.post)
    let s := s.updWarp a.w fun w => w.place again (nextPc a.pc) .waiting (.bar n)
    s.releasePart a now (.bar n)

/-- The held accumulate updates of a block in the order of R385; they have left their marks as their regions committed. -/
def insertSp (a : SpAtomReq) : List SpAtomReq → List SpAtomReq
  | [] => [a]
  | x :: r =>
    if a.warp < x.warp ∨ (a.warp = x.warp ∧ (a.lane < x.lane ∨ (a.lane = x.lane ∧ a.count < x.count))) then a :: x :: r
    else x :: insertSp a r

def State.applyHeld (s : State) (b : Nat) : State :=
  let xs := (s.block b).heldAcc.foldl (fun acc a => insertSp a acc) []
  let s := s.updBlock b fun x => { x with heldAcc := [] }
  xs.foldl (fun (s : State) a => (s.changeSp a).2) s

/-- An arrival of a later phase can be performed: its lanes are not among the arrived of this phase, every command handed in the
interval that it closes is complete, and the warp stands at a boundary (R145, R347, R391). -/
def State.canArrive (s : State) (x : NBar) (a : LateArr) : Bool :=
  mAnd a.lanes (s.lanesIn a.w x.mask) == 0 && (s.handed a.w).isEmpty && (s.warp a.w).atBoundary

/-- The arrivals of the next phase of a barrier, in their order: each is performed when it can be, and kept otherwise. A thread that a
stop has ended meanwhile does not arrive (R392, R430). -/
def State.admitBar (s : State) (b n : Nat) : State :=
  let xs := ((s.block b).bar n).later
  let s := s.setBar b n { (s.block b).bar n with later := [] }
  xs.foldl (fun (s : State) a =>
    let a := { a with lanes := mAnd a.lanes (s.warp a.w).live }
    if a.lanes = 0 then s
    else
      let s := if mAnd a.lanes (s.lanesIn a.w ((s.block b).bar n).mask) == 0 && (s.handed a.w).isEmpty then s.bound a.w else s
      let x := (s.block b).bar n
      if s.canArrive x a then s.arrive b n a else s.setBar b n { x with later := x.later ++ [a] }) s

/-- Completions of a named barrier as long as it has all that it expects: its join lanes leave, it is idle, and the arrivals
of the next phase are performed. A thread that a stop has ended meanwhile counts as exited (R392, R430): it neither leaves nor arrives. -/
def State.checkBar (s : State) (b n : Nat) : Nat → State
  | 0 => s
  | fuel + 1 =>
    let x := (s.block b).bar n
    if x.done (s.liveThreads b) then
      let s := (s.applyHeld b).setBar b n { NBar.idle with later := x.later }
      let s := (s.blockWarps b).foldl (fun (s : State) w =>
        let m := mAnd (s.lanesIn w x.join) (s.warp w).live
        if m = 0 then s else s.leave w (.bar n) m) s
      (s.admitBar b n).checkBar b n fuel
    else s

/-- The resident or saved members of a block's gang (R15). -/
def State.gangOf (s : State) (b : Nat) : List Nat :=
  let x := s.block b
  let g := (s.launch x.launch).gang
  (List.range s.blocks.length).filter fun c =>
    (s.block c).launch == x.launch && (s.block c).copy == x.copy && (s.block c).lin / g == x.lin / g

/-- Lanes arrive at the gang barrier; lanes that have arrived already arrive in the next phase (R391, R393). -/
def State.arriveGang (s : State) (b : Nat) (a : LateArr) : State :=
  let x := (s.block b).gbar
  let again := mAnd a.lanes (s.lanesIn a.w x.mask)
  let now := mDiff a.lanes again
  let x := if again = 0 then x else { x with later := x.later ++ [{ a with lanes := again }] }
  let s := s.updBlock b fun y => { y with gbar := x.add (32 * (s.warp a.w).windex) now 0 a.post }
  let s := s.updWarp a.w fun w => w.place again (nextPc a.pc) .waiting .gbar
  s.releasePart a now .gbar

/-- The arrivals of the next phase of a block at its gang barrier. -/
def State.admitGang (s : State) (b : Nat) : State :=
  let xs := (s.block b).gbar.later
  let s := s.updBlock b fun y => { y with gbar := { y.gbar with later := [] } }
  xs.foldl (fun (s : State) a =>
    let a := { a with lanes := mAnd a.lanes (s.warp a.w).live }
    if a.lanes = 0 then s
    else
      let s := if mAnd a.lanes (s.lanesIn a.w (s.block b).gbar.mask) == 0 && (s.handed a.w).isEmpty then s.bound a.w else s
      if s.canArrive (s.block b).gbar a then s.arriveGang b a
      else s.updBlock b fun y => { y with gbar := { y.gbar with later := y.gbar.later ++ [a] } }) s

/-- The gang barrier completes when every live thread of every member has arrived (R393). In a deterministic launch whose one gang is
the grid, the pending accumulate updates are then applied, as the primary copy completes it (R405); other launches apply theirs only at
their end (R409). -/
def State.checkGbar (s : State) (b : Nat) : Nat → State
  | 0 => s
  | fuel + 1 =>
    let ms := s.gangOf b
    if (ms.all fun c => mDiff (s.liveThreads c) (s.block c).gbar.mask == 0) && ms.any fun c => (s.block c).gbar.arr != 0 then
      let l := s.launch (s.block b).launch
      let s := if l.det && decide (ms.length = l.nblocks) && (s.block b).copy == 0 then s.applyPhase (s.block b).launch else s
      let s := ms.foldl (fun (s : State) c =>
        let j := (s.block c).gbar.join
        let s := s.updBlock c fun x => { x with gbar := { NBar.idle with later := x.gbar.later } }
        (s.blockWarps c).foldl (fun (s : State) w =>
          let m := mAnd (s.lanesIn w j) (s.warp w).live
          if m = 0 then s else s.leave w .gbar m) s) s
      (ms.foldl (fun (s : State) c => s.admitGang c) s).checkGbar b fuel
    else s

/-- Lanes arrive at the gang barrier, and it completes if it can. -/
def State.arriveGbar (s : State) (w lanes pc : Nat) (post : Bool) : State :=
  (s.arriveGang (s.warp w).block ⟨w, lanes, 0, post, pc⟩).checkGbar (s.warp w).block 64

/-- What waits for a boundary of a warp or for its commands is performed: its lanes leave completed barriers, and its arrivals of the next
phase are counted. -/
def State.settle (s : State) (w : Nat) : State :=
  let b := (s.warp w).block
  let s := s.depart w
  let s := (List.range 16).foldl (fun (s : State) n =>
    if ((s.block b).bar n).later.any fun a => a.w == w then (s.admitBar b n).checkBar b n 64 else s) s
  if (s.block b).gbar.later.any fun a => a.w == w then (s.admitGang b).checkGbar b 64 else s

/-- A command of the warp has sent its completion, which is that moment of R347; a decrement of a completion word is a release, and the
interval advances with it (R342, R346). -/
def State.unhand (s : State) (w id : Nat) (released : Bool) : State :=
  let s := s.updRec (s.warp w).party fun r => r.done id s.clock
  ((if released then s.advance w 16 else s).updWarp w fun x => { x with bounding := false }).settle w

/-! ### Exits (R138, R392) -/

/-- What the exit of lanes of a warp completes. -/
def State.afterExit (s : State) (w : Nat) : State :=
  let b := (s.warp w).block
  let s := s.updWarp w fun x => ((List.range 8).foldl (fun (y : Warp) k => y.rcvCheck k) x).wsyncCheck
  let s := (List.range 16).foldl (fun (s : State) n => s.checkBar b n 64) s
  s.checkGbar b 64

end Sys2Proof.Machine
end

