-- ==== Sys2Proof/Machine/Operands.lean ====
section
/-!
DEFINITION. Operands: the tracked numbers of registers (spec/08 R147), special operands (spec/06 R104), sources and
immediates (R105), guards and the lanes in which a word acts (R102, R106, R163), and the values that a word writes.
-/

namespace Sys2Proof.Machine

/-! ### Register numbers as `Region.readFirst` tracks them (R147) -/

def regIds (n : Nat) (r : Reg) : List Nat :=
  match r with
  | .v k => (List.range n).map fun i => k.val + i
  | .s k => (List.range n).map fun i => 1536 + k.val + i
  | _ => []

def predIds (p : Nat) : List Nat := if p < 7 then [2048 + p] else []

def guardIds (g : Guard) : List Nat := predIds g.p.val

def baseIds : MemBase → List Nat
  | .v k => [2 * k.val, 2 * k.val + 1]
  | .s k => [1536 + 2 * k.val, 1537 + 2 * k.val]
  | .zero => []

/-- A tracked number that the launch does not give the warp (R103, R126). -/
def Launch.beyond (l : Launch) (id : Nat) : Bool :=
  if id < 1536 then decide (l.vregs ≤ id) else if id < 2048 then decide (l.sregs ≤ id - 1536) else false

/-- The word is vector (R106): its destination is, or with no scalar one, a source is. -/
def isVec (d : Reg) (srcs : List Reg) : Bool :=
  match d with
  | .v _ => true
  | .s _ => false
  | _ => srcs.any Reg.isVector

def noReg : Reg := .sp .zero

/-! ### Special operands (R104) -/

/-- The value of a special operand for an issue in a lane. -/
def State.special (s : State) (x : Issue) (sp : Special) (lane : Nat) : Nat :=
  let w := s.warp x.w
  let b := s.blockOf x.w
  let l := s.launchOf x.w
  let (tx, ty, tz) := l.tidx (32 * w.windex + lane)
  let (bx, by_, bz) := l.bidx b.lin
  match sp with
  | .zero => 0
  | .lane => lane
  | .tidX => tx
  | .tidY => ty
  | .tidZ => tz
  | .bidX => bx
  | .bidY => by_
  | .bidZ => bz
  | .bdimX => l.bx
  | .bdimY => l.by_
  | .bdimZ => l.bz
  | .gdimX => l.gx
  | .gdimY => l.gy
  | .gdimZ => l.gz
  | .warp => w.windex
  | .gang => b.lin / l.gang
  | .gangspan => b.span
  | .die => b.core / Config.dieCores
  | .core => b.core % Config.dieCores
  | .launch => l.num
  | .active => x.active
  | .part => w.part
  | .helper => if bit w.allHelpers lane then 1 else 0

/-! ### Sources (R105) -/

/-- The value of a small immediate. -/
def immInt (k : Fin 128) : Int := (k.val : Int) - 64

/-- A small immediate as a source of a type. -/
def immBits (t : Ty) (k : Fin 128) : Nat :=
  let x := immInt k
  let pair (n b : Nat) : Nat := if n = 8 then b * 0x01010101 else b * 0x10001
  match t with
  | .i64 | .n64 => wrap 64 x
  | .i16 | .n16 => pair 16 (wrap 16 x)
  | .i8 | .n8 => pair 8 (wrap 8 x)
  | .f32 => (roundTo fmtF32 (xInt x) .rn false 0).1
  | .f64 => (roundTo fmtF64 (xInt x) .rn false 0).1
  | .f16 => pair 16 (roundTo fmtF16 (xInt x) .rn false 0).1
  | .bf16 => pair 16 (roundTo fmtBF16 (xInt x) .rn false 0).1
  | _ => wrap 32 x

/-- A source of [n] registers from the registers themselves. -/
def State.regValue (s : State) (x : Issue) (r : Reg) (n lane : Nat) : Nat :=
  let w := s.warp x.w
  let word (i : Nat) : Nat := match r with
    | .v k => (w.v (k.val + i) lane).toNat
    | .s k => (w.s (k.val + i)).toNat
    | .sp y => if i = 0 then s.special x y lane % 2 ^ 32 else 0
    | .imm _ => 0
  (List.range n).foldr (fun i acc => word i + 2 ^ 32 * acc) 0

/-- A source operand: register, type, and the number of its first word among the word's sources (R428). -/
structure Src where
  r : Reg
  ty : Ty
  ix : Nat
  deriving DecidableEq, Repr

/-- The captured words of a re-injected source: a scalar source stands in lane 0 (R428). -/
def captured (src : List (Nat × Nat × Word)) (sc : Bool) (lane ix : Nat) : Nat :=
  match src.find? fun y => y.1 == (if sc then 0 else lane) && y.2.1 == ix with
  | some y => y.2.2.toNat
  | none => 0

/-- The bits of a source in a lane. -/
def State.src (s : State) (x : Issue) (a : Src) (lane : Nat) : Nat :=
  match a.r with
  | .imm k => immBits a.ty k
  | r =>
    match x.given with
    | none => s.regValue x r a.ty.regs lane
    | some cs =>
      (List.range a.ty.regs).foldr (fun i acc => captured cs (!r.isVector) lane (a.ix + i) + 2 ^ 32 * acc) 0

/-- Sources numbered in order (R428). -/
def srcsFrom : Nat → List (Reg × Ty) → List Src
  | _, [] => []
  | i, (r, t) :: rest => ⟨r, t, i⟩ :: srcsFrom (i + t.regs) rest

/-- What the replay queue captures of a word's sources (R428). -/
def State.capture (s : State) (x : Issue) (srcs : List Src) (lanes : Nat) : List (Nat × Nat × Word) :=
  srcs.flatMap fun a =>
    let ls := if a.r.isVector then lanesOf lanes else [0]
    ls.flatMap fun l =>
      let b := s.src x a ((if a.r.isVector then some l else lowLane lanes).getD 0)
      (List.range a.ty.regs).map fun i => (l, a.ix + i, BitVec.ofNat 32 (b >>> (32 * i)))

/-! ### Guards (R102, R163) -/

/-- The lanes that pass a guard. -/
def State.passing (s : State) (x : Issue) (g : Guard) : Nat :=
  match x.given with
  | some _ => x.active
  | none => mAnd x.active (maskOf fun l => (s.warp x.w).p g.p.val l != g.neg)

/-- A guard that no lane ever passes (R36). -/
def guardNever (g : Guard) : Bool := g.p.val == 7 && g.neg

/-- The lanes in which a word acts: those that pass; for a scalar word the lowest active lane or none. -/
def State.acting (s : State) (x : Issue) (g : Guard) (vec : Bool) : Nat :=
  let m := s.passing x g
  if vec then m
  else
    match lowLane x.active with
    | some l => if bit m l then 2 ^ l else 0
    | none => 0

/-! ### What a word writes -/

def Writes.append (a b : Writes) : Writes := ⟨a.v ++ b.v, a.s ++ b.s, a.p ++ b.p⟩

def Writes.concat (ws : List Writes) : Writes := ws.foldl Writes.append Writes.none

/-- [n] registers of a destination written in a lane; a write to `%zero` is discarded (R104). -/
def regWrites (d : Reg) (n lane x : Nat) : Writes :=
  match d with
  | .v k => ⟨(List.range n).map fun i => (32 * (k.val + i) + lane, BitVec.ofNat 32 (x >>> (32 * i))), [], []⟩
  | .s k => ⟨[], (List.range n).map fun i => (k.val + i, BitVec.ofNat 32 (x >>> (32 * i))), []⟩
  | _ => Writes.none

/-- A predicate written in lanes. -/
def predWrites (p lanes vals : Nat) : Writes := ⟨[], [], [(p, lanes, vals)]⟩

end Sys2Proof.Machine
end

