-- ==== Sys2Proof/Machine/Flags.lean ====
section
/-!
DEFINITION. Flags and their traps (spec/03 R58 to R61) and random draws (R52, spec/09 R182, R183).
-/

namespace Sys2Proof.Machine

/-- The flags that count, by lane: those of helper lanes do not; a scalar word raises its flags once, and none where all its active
lanes are helpers (R59, R61). -/
def State.raised (s : State) (x : Issue) (vec : Bool) (fl : List (Nat × Nat)) : List (Nat × Nat) :=
  if vec then fl.filter fun y => !bit (s.warp x.w).allHelpers y.1
  else if mDiff x.active (s.warp x.w).allHelpers = 0 then [] else fl

/-- The OR of flags. -/
def orFlags (fl : List (Nat × Nat)) : Nat := fl.foldl (fun a (y : Nat × Nat) => mOr a y.2) 0

/-- The traps that FPTRAP enables: SATF never traps (R58). -/
def Warp.enables (w : Warp) : Nat := mAnd w.fptrap 0x5F

/-- The instruction stop of R61, when a lane raises an enabled flag. -/
def State.flagTrap (s : State) (x : Issue) (vec : Bool) (fl : List (Nat × Nat)) : Option Stop :=
  let en := (s.warp x.w).enables
  let hit := (s.raised x vec fl).filter fun y => mAnd y.2 en != 0
  if hit.isEmpty then none
  else
    let all := mAnd (orFlags hit) en
    some { Stop.blank with cause := if mAnd all 0x1F != 0 then 0x07 else 0x08, pc := x.pc, rpc := x.pc, fpc := x.pc,
                           lanes := laneMask (hit.map Prod.fst), sub := x.mask, flags := orFlags (s.raised x vec fl) }

/-- FPSTAT after the flags are ORed into it (R59). -/
def State.addFlags (s : State) (x : Issue) (vec : Bool) (fl : List (Nat × Nat)) : State :=
  s.updWarp x.w fun w => { w with fpstat := mOr w.fpstat (orFlags (s.raised x vec fl)) }

/-! ### Draws (R182) -/

/-- The [k]-th draw from now of a lane with stream [st]. -/
def State.drawWord (s : State) (x : Issue) (lane st k : Nat) : Nat :=
  let w := s.warp x.w
  let l := s.launchOf x.w
  let n := (sget w.draws lane 0 + k) % 2 ^ 54
  let lin := (s.blockOf x.w).lin
  philox (bits n 33 2, st % 4 * 2 ^ 30 + (32 * w.windex + lane) % 1024 * 2 ^ 20 + bits n 53 34, bits lin 31 0, bits lin 63 32)
    (bits l.rngkey 31 0, bits l.rngkey 63 32) (n % 4)

/-- [k] draws consumed by each of the lanes. -/
def Warp.consume (w : Warp) (lanes k : Nat) : Warp :=
  if k = 0 then w else { w with draws := (lanesOf lanes).foldl (fun m l => sset m l ((sget m l 0 + k) % 2 ^ 54) 0) w.draws }

end Sys2Proof.Machine
end

