-- ==== Sys2Proof/Machine/Ops.lean ====
section
/-!
DEFINITION. The operations that every instruction word shares: taking a stop and returning from it (spec/27 R420 to R434,
R489, R490), parking (spec/07 R135), the checks and waits before a word acts (spec/06 R126, spec/07 R136, R140, R141,
spec/08 R146, R148), and what follows it (R98, R130, R131, R147, R149, spec/09 R180).
-/

namespace Sys2Proof.Machine

/-- What executing an instruction answers. -/
abbrev Out := Host.Outcome State Fault Refusal

/-- A next state. -/
def ok (s : State) : Out := .next s

/-- The word at issue. -/
def State.withIssue (s : State) (f : Issue → Out) : Out :=
  match s.cur with
  | some x => f x
  | none => .fault .noWord

/-! ### The end of a warp by an unresolved stop (R430) -/

/-- The launch fails with a cause; the first stands (R72). -/
def State.failLaunch (s : State) (l cause : Nat) : State :=
  s.updLaunch l fun x => { x with failed := if x.failed = 0 then cause else x.failed }

/-- A staged access of a warp is given up. -/
def State.dropStaged (s : State) (w : Nat) : State :=
  match (s.warp w).hold with
  | .staged k => { s with staged := s.staged.filter fun x => x.id != k }
  | _ => s

/-- The 16 dwords of a trap frame (R426). -/
def frameDwords (st : Stop) (pc rpc sub rqv time : Nat) : List Nat :=
  let f (b : Bool) (n : Nat) := if b then 2 ^ n else 0
  [st.cause * 2 ^ 56 + f st.rgn 55 + f st.hwbp 48 + rqv % 256 * 2 ^ 40 + st.flags % 128 * 2 ^ 32 + st.lanes % 2 ^ 32,
    pc % 2 ^ 57, rpc % 2 ^ 57, st.addr % 2 ^ 64, st.code % 2 ^ 16 * 2 ^ 32 + sub % 2 ^ 32, time, st.fpc % 2 ^ 57, 0] ++
  (List.range 8).map fun k => st.record.getD k 0

/-- The causes whose record goes into the frame and to the trace buffer (R434). -/
def raceCause (c : Nat) : Bool := c == 0x18 || c == 0x19 || c == 0x1B

/-- The record of a delivered or unresolved stop (R434, R461); each copy of a redundant block writes its own (R445). -/
def State.emitStop (s : State) (w : Nat) (st : Stop) (pc : Nat) (frame : List Nat) : State :=
  s.emit (s.warp w).vi <|
    if raceCause st.cause && !st.record.isEmpty then st.record
    else s.frameOf w 0x13 0 ++ [pc % 2 ^ 57, s.devTime] ++ frame.take 8

/-- A stop that no handler takes: the region goes, every lane ends as by `exit`, the launch fails with the cause. -/
def State.unresolved (s : State) (w : Nat) (st : Stop) : State :=
  let s := if (s.warp w).region.issued = 0 then s else s.discardRegion w 1
  let s := s.failLaunch (s.warp w).launch st.cause
  let s := (s.dropStaged w).writeBackAll w
  let s := s.updWarp w fun x =>
    { x with exited := x.present, pct := [], stop := some st, deferred := none, hold := .none, trap := none, needs := [],
             pend := [], opsL := [], pins := [], sync := none, later := [], bounding := false }
  s.afterExit w

/-! ### Taking a stop (R424 to R428) -/

/-- The entry of the PC table that holds the lowest of some lanes. -/
def Warp.entryOf (w : Warp) (lanes : Nat) : Option PctEntry :=
  match lowLane lanes with
  | some l => (w.pct.find? fun e => bit e.mask l).or w.pct.head?
  | none => w.pct.head?

/-- The bytes of a replay queue entry (R428). -/
def replayBytes (e : ReplayEntry) : List Byte :=
  leBytes 8 e.word.toNat ++ leBytes 8 (e.pc % 2 ^ 57) ++ leBytes 8 (e.nsrc * 2 ^ 32 + e.mask) ++ leBytes 40 0 ++
  (List.range 96).flatMap fun i => leBytes 4 (captured e.src false (i / 3) (i % 3))

/-- Dwords stored in the trap area from a byte offset on. -/
def State.trapStore (s : State) (w off : Nat) (bs : List Byte) : State :=
  s.spWriteBytes (s.warp w).block (4096 * trapPage (s.warp w).windex + off) bs

/-- A dword of the trap area. -/
def State.trapDword (s : State) (w k : Nat) : Nat :=
  let a := 4096 * trapPage (s.warp w).windex + 8 * k
  leNat ((List.range 8).map fun i => s.spByte (s.warp w).block (a + i))

/-- The words that the replay queue takes at an instruction stop: issued, admitted by R427 and not all written. -/
def Warp.withdrawn (w : Warp) : List (Nat × ReplayEntry) :=
  (w.pend.filterMap fun p => p.replay.map fun e => (p.id, e)).take 8

/-- The PC of a stop, and the lanes and PC at which it resumes: for a discarded region, those of its entry (R420, R424). -/
def State.stopPoint (s : State) (w : Nat) (st : Stop) : Nat × Nat × Nat :=
  let (epc, emask) := match (s.warp w).entryOf (if st.rgn then st.lanes else st.sub) with | some e => (e.pc, e.mask) | none => (st.pc, 0)
  (if st.discard then epc else st.pc, if st.discard then epc else st.rpc, if st.rgn then emask else st.sub)

/-- The words of the replay queue that a stop finds (R427). -/
def Warp.queued (x : Warp) (st : Stop) : List (Nat × ReplayEntry) := if st.rgn then [] else x.withdrawn

/-- The frame of a stop (R426). -/
def State.stopFrame (s : State) (w : Nat) (st : Stop) : List Nat :=
  let (pc, rpc, sub) := s.stopPoint w st
  frameDwords st pc rpc sub (2 ^ ((s.warp w).queued st).length - 1) s.devTime

/-- The record of a stop is emitted (R434). -/
def State.tellStop (s : State) (w : Nat) (st : Stop) : State := s.emitStop w st (s.stopPoint w st).1 (s.stopFrame w st)

/-- A stop that is unresolved at once. -/
def State.endUnresolved (s : State) (w : Nat) (st : Stop) : State := (s.tellStop w st).unresolved w st

/-- A stop is delivered (R423): its record, then its frame, the replay queue and the handler's entry; or it is unresolved. -/
def State.deliver (s : State) (w : Nat) (st : Stop) : State :=
  let x := s.warp w
  let (pc, rpc, sub) := s.stopPoint w st
  match (s.launchOf w).trap with
  | none =>
    if x.trap.isNone && (st.cause == 0x04 || st.cause == 0x05) then
      (s.tellStop w st).updWarp w fun y =>
        { y with stop := some { st with pc := pc, rpc := rpc, sub := sub }, hold := .goisto, stall := 14 }
    else s.endUnresolved w st
  | some h =>
    if x.trap.isSome then s.endUnresolved w st
    else
      match s.service x.block (trapPage x.windex) with
      | .error _ => s.endUnresolved w { st with cause := 0x14 }
      | .ok t =>
        let rq := x.queued st
        let t := (t.tellStop w st).trapStore w 0 ((s.stopFrame w st).flatMap (leBytes 8))
        let t := ((List.range rq.length).zip rq).foldl (fun (t : State) y => t.trapStore w (512 + 448 * y.1) (replayBytes y.2.2)) t
        (t.dropStaged w).updWarp w fun y =>
          { (y.dropSync.place sub h .ready .none) with
            stop := none, hold := .none, pins := []
            trap := some ⟨sub, if st.counts then some rpc else none, if st.hwbp then some pc else none⟩
            pend := y.pend.filter fun p => !(rq.map Prod.fst).contains p.id
            opsL := popDone (y.opsL.filter fun o => !(rq.map Prod.fst).contains o.id)
            needs := y.needs.filter fun n => mAnd n.lanes sub == 0
            wdog := if st.cause == 0x23 || st.cause == 0x24 then 0 else y.wdog
            stall := 0 }

/-- The warp is in its place: its block is resident, neither frozen nor being pre-empted (R78, R435). -/
def State.inPlace (s : State) (w : Nat) : Bool :=
  (s.blockOf w).state == .resident && !(s.vi (s.warp w).vi).frozen && !(s.preempts.any fun p => p.blocks.contains (s.warp w).block)

/-- The pending stop of a warp is delivered if it can be now: older regions have committed (R423); a region stop discards
its region, unless that is gone already, once every result of a matrix command is written (R155); an instruction stop's region ends
before it. -/
def State.deliverStop (s : State) (w : Nat) : State :=
  let x := s.warp w
  match x.stop with
  | none => s
  | some st =>
    if x.live == 0 || x.older.isSome || x.hold == .goisto || !s.inPlace w then s
    else if st.discard && !st.gone then
      if x.awaits then s else (s.discardRegion w 1).deliver w st
    else if !st.rgn && x.region.issued != 0 then
      let resolved := x.trap.isNone && ((s.launchOf w).trap.isSome || st.cause == 0x04 || st.cause == 0x05)
      if resolved then
        let s := s.commitNow w
        if (s.warp w).older.isSome then s else s.deliver w st
      else s.deliver w st
    else s.deliver w st

/-- A warp takes a stop: it is pending until it can be delivered, and issues nothing meanwhile. -/
def State.takeStop (s : State) (w : Nat) (st : Stop) : State :=
  (s.updWarp w fun x => { x with stop := some st, stall := 10 }).deliverStop w

/-- An instruction stop at the word at issue (R421, R127). -/
def Issue.stop (x : Issue) (cause lanes : Nat) : Stop :=
  { Stop.blank with cause := cause, pc := x.pc, rpc := x.pc, fpc := x.pc, lanes := lanes, sub := x.mask }

/-- A stop of a closing word alone, after its region has committed (R490). -/
def Issue.stopAlone (x : Issue) (cause lanes addr : Nat) (record : List Nat) : Stop :=
  { Stop.blank with cause := cause, rgn := true, pc := x.pc, rpc := x.pc, fpc := x.pc, lanes := lanes, sub := x.mask,
                    addr := addr, counts := true, record := record }

/-- A deferred stop delivered at a boundary, the next region beginning at [pc] with the lanes [lanes] (R489). -/
def State.deliverDeferred (s : State) (w pc lanes : Nat) : State :=
  match (s.warp w).deferred with
  | none => s
  | some st =>
    let s := s.updWarp w fun x => { x with deferred := none }
    let rec_ := if st.record.isEmpty then st.record else st.record.set 3 (pc / 8 % 2 ^ 54)
    s.takeStop w { st with pc := pc, rpc := pc, lanes := lanes, sub := lanes, record := rec_ }

/-! ### The return (R157, R172) -/

/-- A stop that has come while another was pending is taken once the handler of that one has returned. -/
def State.nextStop (s : State) (w : Nat) : State :=
  match (s.warp w).later with
  | [] => s
  | st :: r => if (s.warp w).stop.isSome || (s.warp w).live == 0 then s else (s.updWarp w fun y => { y with later := r }).takeStop w st

/-- The warp leaves trap mode and the handler subgroup stands at [rpc]; a return to the entry of a stopped region counts a re-entry, and
past the limit the stop 0x22 is taken instead (R157, R172). The trap area goes to its backing slot (R425). -/
def State.leaveTrap (s : State) (w rpc : Nat) : State :=
  let x := s.warp w
  match x.trap with
  | none => s
  | some t =>
    let sub := mAnd t.sub x.live
    let c := (s.blockOf w).core
    let s := s.updWarp w fun y => { y with trap := none, bpskip := if t.hwbp == some rpc then some (sub, rpc) else none }
    let s := match (s.core c).frames.find? fun f => f.2.blk == x.block && f.2.pg == trapPage x.windex with
      | some f => s.evictFrame c f.1
      | none => s
    let s := s.updWarp w fun y => (y.place sub rpc .ready .none).merge
    if t.counts != some rpc || sub == 0 then s.nextStop w
    else if x.reentry + 1 ≤ (s.launchOf w).reentry then
      (s.updWarp w fun y => { y with reentry := y.reentry + 1, reentries := min 0xFFFF (y.reentries + 1) }).nextStop w
    else s.takeStop w { Stop.blank with cause := 0x22, rgn := true, pc := rpc, rpc := rpc, fpc := rpc, lanes := sub, sub := sub, counts := true }

/-! ### Parking (R135, R136) -/

/-- Lanes park: their region is discarded and they wait at their region-entry PC for what [ns] asks; until their
re-execution commits, the scalar registers that the region has read first are held, those that the faulting word reads
with them. -/
def State.park (s : State) (w : Nat) (reads : List Nat) (ns : List Need) : State :=
  let x := s.warp w
  if x.awaits then s.updWarp w fun y => { y with stall := 11 }
  else
    let lanes := ns.foldl (fun (m : Nat) n => mOr m n.lanes) 0
    let first := x.region.readFirst ++ reads.filter fun r => !x.region.written.contains r
    let scal := dedup (first.filter fun r => decide (1536 ≤ r) && decide (r < 2048))
    ((s.discardRegion w 2).updWarp w fun y =>
      { y with
        pct := y.pct.flatMap fun e => if e.state == .parked then [e] else e.cut lanes fun z => { z with state := .parked, on := .service }
        needs := y.needs ++ ns
        holds := if scal.isEmpty then y.holds else y.holds ++ [⟨x.region.seq, lanes, scal⟩]
        stall := 5 }).settle w

/-! ### Before a word acts -/

/-- What a word reads and writes by tracked number, and how it ends: [pend]: its result is pending; [replay]: R427 admits it
to the replay queue; [priv]: privileged; [pair]: a pair word. -/
structure Foot where
  reads : List Nat
  writes : List Nat
  pend : Bool
  replay : Bool
  priv : Bool
  pair : Bool
  deriving DecidableEq, Repr

def foot (reads writes : List Nat) : Foot := ⟨reads, writes, false, false, false, false⟩

/-- The word waits with a stall reason. -/
def State.stallAt (s : State) (w reason : Nat) : State := s.updWarp w fun x => { x with stall := reason }

/-- Registers that the region has read and not written, the word's own reads counted (R148). -/
def Region.liveIn (r : Region) (reads : List Nat) (id : Nat) : Bool :=
  (r.readFirst.contains id || reads.contains id) && !r.written.contains id

/-- An automatic split before a word, counted by its condition (R148, R158). -/
def State.split (s : State) (w ev : Nat) : State :=
  let s := s.updWarp w fun x => { x with splits := (x.splits + 1) % 2 ^ 32, stall := 0 }
  (s.count (s.warp w).vi unitCore ev 1).commitNow w

/-- What the checks before a word answer: the step ends with a state, or the word goes on. -/
inductive Adm where
  | hold (s : State)
  | go (s : State)
  deriving DecidableEq, Repr

/-- A word whose registers the launch has not, or that is privileged outside trap mode (R126). -/
def State.illegal (s : State) (x : Issue) (f : Foot) : Option Nat :=
  if (f.reads ++ f.writes).any (s.launchOf x.w).beyond then some (if f.pair then 0x02 else 0x01)
  else if f.priv && (s.warp x.w).trap.isNone then some 0x03
  else none

/-- A register of the word has a pending result, or there is no room for one more (R140, R427). -/
def Warp.scoreboard (w : Warp) (f : Foot) : Bool :=
  (w.pend.any fun p => p.regs.any fun r => f.reads.contains r || f.writes.contains r) ||
  (f.pend && decide (64 < (w.pend.flatMap fun p => p.regs).length + f.writes.length)) ||
  (f.replay && decide (8 ≤ (w.pend.filter fun p => p.replay.isSome).length))

/-- R136: a scalar register that the word writes is held for other lanes. -/
def Warp.heldFor (w : Warp) (x : Issue) (f : Foot) : Bool :=
  w.trap.isNone && w.holds.any fun h => mDiff x.mask h.lanes != 0 && h.regs.any fun r => f.writes.contains r

/-- The first issue of a warp opens its interval 0 (R346), and the first of a region its entry state (R144). -/
def State.begin_ (s : State) (w : Nat) : State :=
  let s := if (s.warp w).firstIssue.isSome then s else
    (s.openRec (s.warp w).party).updWarp w fun x => { x with firstIssue := some s.devTime }
  s.updWarp w fun x => x.openRegion

/-- The other copy of a redundant warp has not taken a forwarded result yet; neither copy issues further (R445). -/
def State.twinBusy (s : State) (w : Nat) : Bool :=
  match s.twinOf w with
  | some v => !(s.warp v).forwarded.isEmpty
  | none => false

/-- Everything that may stop, hold or split a word before it acts, in order. -/
def State.enter (s : State) (x : Issue) (f : Foot) : Adm :=
  let w := s.warp x.w
  if w.stop.isSome || w.hold != .none then .hold s
  else if s.twinBusy x.w then .hold (s.stallAt x.w 10)
  else
    match s.illegal x f with
    | some c => .hold (s.takeStop x.w (x.stop c x.active))
    | none =>
      if w.scoreboard f then .hold (s.stallAt x.w 1)
      else if s.boundWaits x.w then .hold (s.stallAt x.w 10)
      else
        let live := f.writes.any (w.region.liveIn f.reads)
        if live && w.region.issued != 0 then
          (if w.older.isSome then .hold (s.stallAt x.w 10) else .hold (s.split x.w 8))
        else if w.heldFor x f then
          .hold (s.updWarp x.w fun y =>
            { y with stall := 5, pct := y.pct.map fun e => if e.mask == x.mask then { e with state := .waiting, on := .service } else e })
        else if w.deferred.isSome && w.region.issued == 0 then .hold (s.stallAt x.w 10)
        else
          match w.older with
          | some o =>
            if live || f.writes.any (o.liveIn []) then .hold (s.stallAt x.w 10) else .go (s.begin_ x.w)
          | none => .go (s.begin_ x.w)

/-! ### After a word has acted -/

/-- Where lanes of the subgroup go. -/
structure Move where
  mask : Nat
  pc : Nat
  st : EState
  on : WaitOn
  deriving DecidableEq, Repr

/-- Every lane goes on to PC + 8 (R98). -/
def Issue.next (x : Issue) : List Move := [⟨x.mask, nextPc x.pc, .ready, .none⟩]

/-- The word is part of its region: its reads and writes are tracked (R147), its lanes and itself counted. -/
def Warp.track (w : Warp) (x : Issue) (f : Foot) (full : List Nat) : Warp :=
  let r := w.region
  { w with region := { r with
      readFirst := r.readFirst ++ (dedup f.reads).filter fun i => !r.written.contains i && !r.readFirst.contains i
      written := r.written ++ (dedup full).filter fun i => !r.written.contains i
      issued := r.issued + 1
      lanes := if w.trap.isSome then r.lanes else mOr r.lanes x.mask } }

/-- The lanes move, the other ready entries age, entries merge (R98, R130, R131); the word is counted. -/
def Warp.proceed (w : Warp) (x : Issue) (moves : List Move) : Warp :=
  let w := { (w.aged x.mask) with icount := (w.icount + 1) % 2 ^ 64, stall := 0, bpskip := none, reentering := false }
  (moves.foldl (fun (y : Warp) m => y.place (mAnd m.mask w.live) m.pc m.st m.on) w).merge

/-- The single-step stop after a word whose lanes do not wait (R180). -/
def State.stepStop (s : State) (x : Issue) (stepping : Bool) : State :=
  let w := s.warp x.w
  let asleep := match w.hold with | .sleep _ _ => true | _ => false
  if !stepping || w.trap.isSome || w.stop.isSome || asleep then s
  else
    match w.entryOf (mAnd x.mask w.live) with
    | some e =>
      let m := mAnd e.mask x.mask
      if m == 0 || !e.ready then s else s.takeStop x.w (Stop.step x.pc e.pc m)
    | none => s

/-- The issue cycles of a warp's section (R132). -/
def State.sectionCycle (s : State) (w : Nat) : Nat := (s.coreOf w).cycles.getD ((s.warp w).windex % 4) 0

/-- One cycle of the ordering clock, the word issued last, and the counts of an issue (R471, R475). -/
def State.issueCounts (s : State) (x : Issue) : State :=
  let vi := (s.warp x.w).vi
  let s := s.updWarp x.w fun w => { w with lastIssue := s.sectionCycle x.w, lastWord := (x.pc, x.active) }
  ({ s with clock := s.clock + 1 }.count vi unitSection 0 1).count vi unitSection 1 (popc x.active)

/-- A word of the executing region is done: [full] are the registers that it wrote in every lane, [bound] says that it is an
open boundary (R145). A first word that clobbers what it reads forms a region of its own (R149). -/
def State.finish (s : State) (x : Issue) (f : Foot) (full : List Nat) (moves : List Move) (bound : Bool) : State :=
  let r := (s.warp x.w).region
  let own := r.issued == 0 && f.writes.any (r.liveIn f.reads)
  let step := (s.warp x.w).stepping
  let s := s.updWarp x.w fun w => (w.track x f full).proceed x moves
  let s := s.issueCounts x
  let s := if own then s.count (s.warp x.w).vi unitCore 12 1 else s
  let s := if own || bound then s.commitNow x.w else s
  s.stepStop x step

/-- A closing word has been performed after its region's commit. -/
def State.finishClosed (s : State) (x : Issue) (moves : List Move) : State :=
  let step := (s.warp x.w).stepping
  let s := s.updWarp x.w fun w => { (w.proceed x moves) with hold := .none }
  (s.issueCounts x).stepStop x step

/-! ### Closing words (R145, R489, R490) -/

/-- What the checks at the issue of a closing word find. -/
inductive Found where
  | clear (s : State)
  | stop (st : Stop) (s : State)
  | park (ns : List Need) (s : State)
  | wait (reason : Nat) (s : State)
  deriving DecidableEq, Repr

/-- The second half of a closing word: once its region has committed, and, for a word that advances the interval, every
command handed in it has sent its completion (R347), a deferred stop comes first, else the word is performed. -/
def State.perform (s : State) (x : Issue) (advances : Bool) (act : State → Out) : Out :=
  let w := s.warp x.w
  if w.older.isSome || (advances && !(s.handed x.w).isEmpty) then
    ok (s.updWarp x.w fun y => { y with hold := .commit x, stall := 10 })
  else
    let s := s.updWarp x.w fun y => { y with hold := .none }
    if w.deferred.isSome then ok (s.deliverDeferred x.w x.pc x.mask) else act s

/-- The counter has room for one more operation (R141). -/
def Warp.roomIn (w : Warp) (k : Counter) : Bool := decide (w.counter k < 63)

/-- An operation that completes at once in its turn. -/
def State.countDone (s : State) (w : Nat) (k : Counter) : State :=
  let (id, s) := s.fresh
  s.countOp w k id true

/-- A closing word is counted from its issue (R141). -/
def State.countSync (s : State) (w : Nat) (k : Counter) : State :=
  let (id, s) := s.fresh
  (s.countOp w k id false).updWarp w fun y => { y with sync := some (k, id) }

/-- It is performed: its counter is credited in its turn (R142). -/
def State.creditSync (s : State) (w : Nat) (k : Counter) : State :=
  match (s.warp w).sync with
  | some (k, id) => (s.credit w k id).updWarp w fun y => { y with sync := none }
  | none => s.countDone w k

/-- A closing word that a counter may count: its checks at issue, the end and the commit of its region with it, and its
performance. -/
def State.closingCounted (s : State) (x : Issue) (f : Foot) (advances : Bool) (cnt : Option Counter) (check : State → Found)
    (act : State → Out) : Out :=
  match (s.warp x.w).hold with
  | .commit y => if y = x then s.perform x advances act else ok s
  | .staged k => if s.staged.any fun e => e.id == k && e.iss = x then act s else ok s
  | _ =>
    match s.enter x f with
    | .hold s => ok s
    | .go s =>
      if (s.warp x.w).older.isSome then ok (s.stallAt x.w 10)
      else if cnt.any fun k => !(s.warp x.w).roomIn k then ok (s.stallAt x.w 2)
      else
        match check s with
        | .wait r s => ok (s.stallAt x.w r)
        | .stop st s => ok (s.takeStop x.w st)
        | .park ns s => ok (s.park x.w f.reads ns)
        | .clear s =>
          let s := match cnt with | some k => s.countSync x.w k | none => s
          let s := s.updWarp x.w fun w => { (w.track x f []) with hold := .commit x }
          (s.commitNow x.w).perform x advances act

/-- A closing word that no counter counts. -/
def State.closing (s : State) (x : Issue) (f : Foot) (advances : Bool) (check : State → Found) (act : State → Out) : Out :=
  s.closingCounted x f advances none check act

/-- A closing word with nothing to check at issue. -/
def noCheck (s : State) : Found := .clear s

/-! ### Words with register results -/

/-- What a word gives in one lane: value, flags, predicate. -/
structure LaneOut where
  val : Nat
  flags : Nat
  p : Bool
  deriving DecidableEq, Repr

/-- What a word gives before anything of it is written. -/
structure Result where
  ws : Writes
  flags : List (Nat × Nat)
  full : List Nat
  drawn : Nat
  draws : Nat
  srcs : List Src
  lanes : Nat
  deriving DecidableEq, Repr

/-- A result stands in the scoreboard until it is written (R140, R141). -/
def State.pend (s : State) (x : Issue) (f : Foot) (r : Result) (ready counts : Bool) : State :=
  let (id, s) := s.fresh
  let src := s.capture x r.srcs r.lanes
  let e : ReplayEntry := ⟨x.word, x.pc, r.lanes, (src.foldl (fun (n : Nat) (y : Nat × Nat × Word) => max n (y.2.1 + 1)) 0), src⟩
  let s := if counts then s.countOp x.w .l id false else s
  s.updWarp x.w fun w => { w with pend := w.pend ++ [⟨id, f.writes, r.ws, ready, if f.replay then some e else none⟩] }

/-- The word's flags, draws and registers, then the end of the word; or its trap (R61). -/
def State.deposit (s : State) (x : Issue) (f : Foot) (vec : Bool) (r : Result) : State :=
  match s.flagTrap x vec r.flags with
  | some st => s.takeStop x.w st
  | none =>
    let s := (s.addFlags x vec r.flags).updWarp x.w fun w => w.consume r.drawn r.draws
    let s := if f.pend then s.pend x f r true false else s.updWarp x.w fun w => w.apply r.ws
    s.finish x f r.full x.next false

/-- Whether a write of the lanes [m] sets the written bit of a vector register or predicate (R147). -/
def Warp.covers (w : Warp) (m : Nat) : Bool := mDiff w.live m == 0

end Sys2Proof.Machine
end

