-- ==== Sys2Proof/Machine/Alu.lean ====
section
/-!
DEFINITION. The words of the ALU classes: what they share (spec/06 R102, R106, R107; spec/10 R192; spec/11 R210), and the
integer, address and scalar arithmetic of spec/10 (R193 to R207).
-/

namespace Sys2Proof.Machine

/-! ### The shared shape -/

/-- An ALU word: guard, destination with its registers, a second destination (R230), sources with their types, predicates read besides the guard, the
predicate written and whether a scalar word computes it in each lane (R203), draws of each value (R52), and whether its
result is pending (R140). -/
structure Alu where
  g : Guard
  d : Reg
  dn : Nat
  e : Reg
  en : Nat
  srcs : List (Reg × Ty)
  pin : List Nat
  pout : Option Nat
  laneP : Bool
  draws : Nat
  pend : Bool

def Alu.vec (k : Alu) : Bool := isVec k.d (k.srcs.map Prod.fst)

def Alu.foot (k : Alu) : Foot :=
  { reads := guardIds k.g ++ (k.srcs.flatMap fun a => regIds a.2.regs a.1) ++ k.pin.flatMap predIds
    writes := regIds k.dn k.d ++ regIds k.en k.e ++ (match k.pout with | some p => predIds p | none => [])
    pend := k.pend, replay := k.pend, priv := false, pair := false }

/-- What a lane computes from its sources by index, its predicates by number, and its draws. -/
abbrev LaneFn := (Nat → Nat) → (Nat → Bool) → (Nat → Nat) → LaneOut

def State.laneOut (s : State) (x : Issue) (srcs : List Src) (f : LaneFn) (lane : Nat) : LaneOut :=
  f (fun i => match srcs[i]? with | some a => s.src x a lane | none => 0) (fun p => (s.warp x.w).p p lane)
    fun k => s.drawWord x lane 0 k

/-- The lanes of a predicate that a word writes: a scalar word writes every active lane (R203, R207). -/
def predLanes (x : Issue) (vec : Bool) (act : Nat) : Nat := if vec then act else if act = 0 then 0 else x.active

/-- The result of an ALU word. -/
def State.aluResult (s : State) (x : Issue) (k : Alu) (f : LaneFn) : Result :=
  let srcs := srcsFrom 0 k.srcs
  let act := s.acting x k.g k.vec
  let outs := (lanesOf act).map fun l => (l, s.laneOut x srcs f l)
  let low := (lowLane act).getD 0
  let pl := predLanes x k.vec act
  let pv := match k.pout with
    | some _ => maskOf fun l => bit pl l && (s.laneOut x srcs f (if k.vec || k.laneP then l else low)).p
    | none => 0
  let w := s.warp x.w
  { ws := (Writes.concat (outs.map fun o =>
        (regWrites k.d k.dn o.1 o.2.val).append (regWrites k.e k.en o.1 (o.2.val >>> (32 * k.dn))))).append
      (match k.pout with | some p => predWrites p pl pv | none => Writes.none)
    flags := outs.map fun o => (o.1, o.2.flags)
    full := (if (if k.vec then w.covers act else act != 0) then regIds k.dn k.d ++ regIds k.en k.e else []) ++
      (match k.pout with | some p => if w.covers pl then predIds p else [] | none => [])
    drawn := act, draws := k.draws, srcs := srcs, lanes := act }

/-- An ALU word executed. -/
def State.alu (s : State) (k : Alu) (f : LaneFn) : Out :=
  s.withIssue fun x =>
    match s.enter x k.foot with
    | .hold s => ok s
    | .go s => ok (s.deposit x k.foot k.vec (s.aluResult x k f))

/-- An ALU word that writes a register and draws nothing. -/
def aluOf (g : Guard) (d : Reg) (dn : Nat) (srcs : List (Reg × Ty)) : Alu := ⟨g, d, dn, noReg, 0, srcs, [], none, false, 0, false⟩

def LaneOut.of (r : Nat × Nat) : LaneOut := ⟨r.1, r.2, false⟩

def LaneOut.val_ (r : Nat) : LaneOut := ⟨r, 0, false⟩

/-! ### Elements (R191, R193) -/

/-- Element [i] of a packed register, or the value itself. -/
def elem (t : Ty) (i a : Nat) : Nat := (a >>> (t.width * i)) % 2 ^ t.width

/-- Elements joined, their flags ORed. -/
def joinElems (t : Ty) (rs : List (Nat × Nat)) : Nat × Nat :=
  rs.foldr (fun (r : Nat × Nat) acc => (r.1 + 2 ^ t.width * acc.1, mOr r.2 acc.2)) (0, 0)

/-- An integer operation on each element, finished by R193. -/
def intOp2 (t : Ty) (sat : Bool) (op : Int → Int → Int) (a b : Nat) : Nat × Nat :=
  joinElems t ((List.range t.perReg).map fun i => intFinish t (op (intVal t (elem t i a)) (intVal t (elem t i b))) sat)

/-! ### Arithmetic (R194 to R197) -/

def mulHiVal (t : Ty) (a b : Nat) : Nat := wrap t.width (intVal t a * intVal t b / 2 ^ t.width)

def wideTy (t : Ty) : Ty := if t.signed then .i64 else .n64

def execAdd (g : Guard) (d a b : Reg) (t : Ty) (sat : Bool) (s : State) : Out :=
  s.alu (aluOf g d t.regs [(a, t), (b, t)]) fun v _ _ => .of (intOp2 t sat (· + ·) (v 0) (v 1))

def execSub (g : Guard) (d a b : Reg) (t : Ty) (sat : Bool) (s : State) : Out :=
  s.alu (aluOf g d t.regs [(a, t), (b, t)]) fun v _ _ => .of (intOp2 t sat (· - ·) (v 0) (v 1))

def execMulLo (g : Guard) (d a b : Reg) (t : Ty) (sat : Bool) (s : State) : Out :=
  s.alu (aluOf g d t.regs [(a, t), (b, t)]) fun v _ _ => .of (intFinish t (intVal t (v 0) * intVal t (v 1)) sat)

def execMulHi (g : Guard) (d a b : Reg) (t : Ty) (s : State) : Out :=
  s.alu (aluOf g d t.regs [(a, t), (b, t)]) fun v _ _ => .val_ (mulHiVal t (v 0) (v 1))

def execMulWide (g : Guard) (d a b : Reg) (t : Ty) (s : State) : Out :=
  s.alu (aluOf g d 2 [(a, t), (b, t)]) fun v _ _ => .val_ (wrap 64 (intVal t (v 0) * intVal t (v 1)))

def execMadLo (g : Guard) (d a b c : Reg) (t : Ty) (sat : Bool) (s : State) : Out :=
  s.alu (aluOf g d t.regs [(a, t), (b, t), (c, t)]) fun v _ _ =>
    .of (intFinish t (intVal t (v 0) * intVal t (v 1) + intVal t (v 2)) sat)

def execMadHi (g : Guard) (d a b c : Reg) (t : Ty) (s : State) : Out :=
  s.alu (aluOf g d t.regs [(a, t), (b, t), (c, t)]) fun v _ _ =>
    .of (intFinish t (intVal t (mulHiVal t (v 0) (v 1)) + intVal t (v 2)) false)

def execMadWide (g : Guard) (d a b c : Reg) (t : Ty) (s : State) : Out :=
  s.alu (aluOf g d 2 [(a, t), (b, t), (c, wideTy t)]) fun v _ _ =>
    .of (intFinish (wideTy t) (intVal t (v 0) * intVal t (v 1) + intVal (wideTy t) (v 2)) false)

def execMin (g : Guard) (d a b : Reg) (t : Ty) (s : State) : Out :=
  s.alu (aluOf g d t.regs [(a, t), (b, t)]) fun v _ _ => .of (intOp2 t false (fun x y => if x ≤ y then x else y) (v 0) (v 1))

def execMax (g : Guard) (d a b : Reg) (t : Ty) (s : State) : Out :=
  s.alu (aluOf g d t.regs [(a, t), (b, t)]) fun v _ _ => .of (intOp2 t false (fun x y => if y ≤ x then x else y) (v 0) (v 1))

def execAbs (g : Guard) (d a : Reg) (t : Ty) (sat : Bool) (s : State) : Out :=
  s.alu (aluOf g d t.regs [(a, t)]) fun v _ _ => .of (intOp2 t sat (fun x _ => (x.natAbs : Int)) (v 0) 0)

def execNeg (g : Guard) (d a : Reg) (t : Ty) (sat : Bool) (s : State) : Out :=
  s.alu (aluOf g d t.regs [(a, t)]) fun v _ _ => .of (intOp2 t sat (fun x _ => -x) (v 0) 0)

/-! ### Bits and fields (R198 to R202) -/

def execAnd (g : Guard) (d a b : Reg) (t : Ty) (s : State) : Out :=
  s.alu (aluOf g d t.regs [(a, t), (b, t)]) fun v _ _ => .val_ (Nat.land (v 0) (v 1))

def execOr (g : Guard) (d a b : Reg) (t : Ty) (s : State) : Out :=
  s.alu (aluOf g d t.regs [(a, t), (b, t)]) fun v _ _ => .val_ (Nat.lor (v 0) (v 1))

def execXor (g : Guard) (d a b : Reg) (t : Ty) (s : State) : Out :=
  s.alu (aluOf g d t.regs [(a, t), (b, t)]) fun v _ _ => .val_ (Nat.xor (v 0) (v 1))

def notVal (t : Ty) (a : Nat) : Nat := 2 ^ t.width - 1 - a % 2 ^ t.width

def execNot (g : Guard) (d a : Reg) (t : Ty) (s : State) : Out :=
  s.alu (aluOf g d t.regs [(a, t)]) fun v _ _ => .val_ (notVal t (v 0))

def shlVal (t : Ty) (a n : Nat) : Nat := if n < t.width then a * 2 ^ n % 2 ^ t.width else 0

def shrVal (t : Ty) (a n : Nat) : Nat := if n < t.width then a / 2 ^ n else 0

def shaVal (t : Ty) (a n : Nat) : Nat :=
  let w := t.width
  let x := if bit a (w - 1) then (a : Int) - 2 ^ w else a
  wrap w (x / 2 ^ min n (w - 1))

def rotVal (t : Ty) (a n : Nat) : Nat :=
  let w := t.width
  let k := n % w
  a * 2 ^ k % 2 ^ w + a / 2 ^ (w - k)

def execShl (g : Guard) (d a b : Reg) (t : Ty) (s : State) : Out :=
  s.alu (aluOf g d t.regs [(a, t), (b, .n32)]) fun v _ _ => .val_ (shlVal t (v 0) (v 1))

def execShr (g : Guard) (d a b : Reg) (t : Ty) (s : State) : Out :=
  s.alu (aluOf g d t.regs [(a, t), (b, .n32)]) fun v _ _ => .val_ (shrVal t (v 0) (v 1))

def execSha (g : Guard) (d a b : Reg) (t : Ty) (s : State) : Out :=
  s.alu (aluOf g d t.regs [(a, t), (b, .n32)]) fun v _ _ => .val_ (shaVal t (v 0) (v 1))

def execRot (g : Guard) (d a b : Reg) (t : Ty) (s : State) : Out :=
  s.alu (aluOf g d t.regs [(a, t), (b, .n32)]) fun v _ _ => .val_ (rotVal t (v 0) (v 1))

/-- Field length of a descriptor (R200). -/
def fieldLen (c : Nat) : Nat := min (bits c 15 8) 32

def bfeVal (t : Ty) (a c : Nat) : Nat :=
  let len := fieldLen c
  let f := (intVal t a / 2 ^ bits c 7 0 % 2 ^ len).toNat
  if t.signed && decide (0 < len) && bit f (len - 1) then f + (2 ^ 32 - 2 ^ len) else f

def execBfe (g : Guard) (d a b : Reg) (t : Ty) (s : State) : Out :=
  s.alu (aluOf g d 1 [(a, t), (b, .n32)]) fun v _ _ => .val_ (bfeVal t (v 0) (v 1))

def bfiVal (a b c : Nat) : Nat :=
  let pos := bits c 7 0
  let m := (2 ^ fieldLen c - 1) * 2 ^ pos % 2 ^ 32
  Nat.lor (mDiff b m) (Nat.land (a * 2 ^ pos) m)

def execBfi (g : Guard) (d a b c : Reg) (s : State) : Out :=
  s.alu (aluOf g d 1 [(a, .b32), (b, .b32), (c, .b32)]) fun v _ _ => .val_ (bfiVal (v 0) (v 1) (v 2))

/-- The bits of a value, the lowest first. -/
def bitsOf (w a : Nat) : List Bool := (List.range w).map fun i => bit a i

def execPopc (g : Guard) (d a : Reg) (t : Ty) (s : State) : Out :=
  s.alu (aluOf g d 1 [(a, t)]) fun v _ _ => .val_ ((bitsOf t.width (v 0)).filter id).length

def execClz (g : Guard) (d a : Reg) (t : Ty) (s : State) : Out :=
  s.alu (aluOf g d 1 [(a, t)]) fun v _ _ => .val_ ((bitsOf t.width (v 0)).reverse.takeWhile not).length

def execCtz (g : Guard) (d a : Reg) (t : Ty) (s : State) : Out :=
  s.alu (aluOf g d 1 [(a, t)]) fun v _ _ => .val_ ((bitsOf t.width (v 0)).takeWhile not).length

def brevVal (w a : Nat) : Nat := (bitsOf w a).foldl (fun n b => 2 * n + (if b then 1 else 0)) 0

def execBrev (g : Guard) (d a : Reg) (t : Ty) (s : State) : Out :=
  s.alu (aluOf g d t.regs [(a, t)]) fun v _ _ => .val_ (brevVal t.width (v 0))

/-- Byte [i] of R202. -/
def bselByte (src c i : Nat) : Nat :=
  let x := src / 256 ^ bits c (3 * i + 2) (3 * i) % 256
  if bit c (12 + i) then 0 else if bit c (16 + i) then (if 128 ≤ x then 255 else 0) else x

def bselVal (a b c : Nat) : Nat :=
  (List.range 4).foldr (fun i acc => bselByte (a % 2 ^ 32 + b * 2 ^ 32) c i + 256 * acc) 0

def execBsel (g : Guard) (d a b c : Reg) (s : State) : Out :=
  s.alu (aluOf g d 1 [(a, .b32), (b, .b32), (c, .b32)]) fun v _ _ => .val_ (bselVal (v 0) (v 1) (v 2))

/-! ### Compare, select and move (R203 to R205) -/

def execSel (g : Guard) (d a b : Reg) (t : Ty) (p : Fin 8) (neg : Bool) (s : State) : Out :=
  s.alu { aluOf g d t.regs [(a, t), (b, t)] with pin := [p.val] } fun v q _ =>
    .val_ (if q p.val != neg then v 0 else v 1)

def condHolds (c : Cond) (x y : Int) : Bool :=
  match c with
  | .eq => x == y
  | .ne => x != y
  | .lt => decide (x < y)
  | .le => decide (x ≤ y)
  | .gt => decide (y < x)
  | .ge => decide (y ≤ x)

/-- The combine of R203. -/
def combine (c : Comb) (r old : Bool) : Bool :=
  match c with
  | .none => r
  | .and => r && old
  | .or => r || old

def combPin (c : Comb) (p : Fin 8) : List Nat := if c = .none then [] else [p.val]

def execCmp (g : Guard) (p : Fin 8) (a b : Reg) (t : Ty) (c : Cond) (k : Comb) (s : State) : Out :=
  s.alu ⟨g, noReg, 0, noReg, 0, [(a, t), (b, t)], combPin k p, some p.val, true, 0, false⟩ fun v q _ =>
    ⟨0, 0, combine k (condHolds c (intVal t (v 0)) (intVal t (v 1))) (q p.val)⟩

def execMov (g : Guard) (d a : Reg) (t : Ty) (s : State) : Out :=
  s.alu (aluOf g d t.regs [(a, t)]) fun v _ _ => .val_ (v 0)

def execMovi (g : Guard) (d : Reg) (imm : BitVec 32) (s : State) : Out :=
  s.alu (aluOf g d 1 []) fun _ _ _ => .val_ imm.toNat

def execMoviS64 (g : Guard) (d : Reg) (imm : BitVec 32) (s : State) : Out :=
  s.alu (aluOf g d 2 []) fun _ _ _ => .val_ (wrap 64 imm.toInt)

def execMoviZ64 (g : Guard) (d : Reg) (imm : BitVec 32) (s : State) : Out :=
  s.alu (aluOf g d 2 []) fun _ _ _ => .val_ imm.toNat

/-! ### Address arithmetic and carries (R206, R207) -/

def execAdda (g : Guard) (d a b : Reg) (t : Ty) (k : Fin 7) (s : State) : Out :=
  s.alu (aluOf g d 2 [(a, .n64), (b, t)]) fun v _ _ =>
    .val_ (wrap 64 ((v 0 : Int) + wrap 64 (intVal t (v 1)) * 2 ^ k.val))

def carryReads : CarryMode → Bool
  | .add | .sub => true
  | _ => false

def addcOut (m : CarryMode) (a b : Nat) (p : Bool) : LaneOut :=
  let c : Int := if carryReads m && p then 1 else 0
  let x : Int := match m with
    | .add | .add0 => (a : Int) + b + c
    | .sub | .sub0 => (a : Int) - b - c
  ⟨wrap 32 x, 0, decide (x < 0 ∨ 2 ^ 32 ≤ x)⟩

def execAddc (g : Guard) (d a b : Reg) (p : Fin 8) (m : CarryMode) (s : State) : Out :=
  s.alu ⟨g, d, 1, noReg, 0, [(a, .n32), (b, .n32)], if carryReads m then [p.val] else [], some p.val, false, 0, false⟩ fun v q _ =>
    addcOut m (v 0) (v 1) (q p.val)

end Sys2Proof.Machine
end

