-- ==== Sys2Proof/Decode.lean ====
section
/-!
DEFINITION. Decoding and encoding of instruction words (spec/06 R98 to R126 and the encoding tables of the
instruction chapters R162, R189, R209, R224, R242, R243, R277, R286, R289 to R295, R301, R309, R328, R330,
R339, R341, R377, R384, R386, R390, R395, R396, R398). The decoder is total: what is no instruction is rejected by
name, in the order of R126. The encoder follows it.
-/

namespace Sys2Proof

/-- Why a word is no instruction, in the order of R126. -/
inductive DecodeError where
  /-- A pair word breaks a rule of R117 to R122: illegal pair (0x02). -/
  | illegalPair
  /-- INSN.OP is reserved under R124: illegal instruction (0x01). -/
  | reservedOpcode
  /-- A reserved value, or a nonzero reserved or unused field: illegal instruction (0x01). -/
  | reservedField
  /-- An operand or a type that its opcode does not accept (R105, R106 and the chapters): illegal instruction (0x01). -/
  | operand
  deriving DecidableEq, Repr

/-- The stop cause of R126. -/
def DecodeError.cause : DecodeError → Nat
  | .illegalPair => 0x02
  | _ => 0x01

/-! ### The code tables of R51, R103, R104, R111 to R115 and of the chapters -/

def specials : List Special :=
  [.zero, .lane, .tidX, .tidY, .tidZ, .bidX, .bidY, .bidZ, .bdimX, .bdimY, .bdimZ, .gdimX, .gdimY, .gdimZ,
   .warp, .gang, .gangspan, .die, .core, .launch, .active, .part, .helper]

/-- Register numbers of R103. -/
def decReg (n : Nat) : Option Reg :=
  if h : n < 1536 then some (.v ⟨n, h⟩)
  else if h2 : n - 1536 < 256 then some (.s ⟨n - 1536, h2⟩)
  else if n < 1815 then (specials[n - 1792]?).map .sp
  else if n < 1920 then none
  else if h3 : n - 1920 < 128 then some (.imm ⟨n - 1920, h3⟩)
  else none

/-- Base pair indexes of R109. -/
def decBase (n : Nat) : Option MemBase :=
  if h : n < 768 then some (.v ⟨n, h⟩)
  else if h2 : n - 768 < 128 then some (.s ⟨n - 768, h2⟩)
  else if n = 896 then some .zero
  else none

def decTy : Nat → Option Ty
  | 0 => some .i32 | 1 => some .n32 | 2 => some .i64 | 3 => some .n64
  | 4 => some .i16 | 5 => some .n16 | 6 => some .i8 | 7 => some .n8
  | 8 => some .f32 | 9 => some .f64 | 10 => some .f16 | 11 => some .bf16
  | 12 => some .e4m3 | 13 => some .e5m2 | 14 => some .e2m1 | 15 => some .b32
  | _ => none

def decRnd : Nat → Option Rnd
  | 0 => some .rn | 1 => some .rz | 2 => some .rp | 3 => some .rm | 4 => some .ra
  | 5 => some .rs | 6 => some .ro | _ => none

def decSize : Nat → Option Size
  | 0 => some .n8 | 1 => some .i8 | 2 => some .n16 | 3 => some .i16
  | 4 => some .b32 | 5 => some .b64 | 6 => some .b128 | 7 => some .b256 | _ => none

def decScope : Nat → Option Scope
  | 0 => some .blk | 1 => some .gang | 2 => some .dev | 3 => some .sys | _ => none

def decCond : Nat → Option Cond
  | 0 => some .eq | 1 => some .ne | 2 => some .lt | 3 => some .le | 4 => some .gt | 5 => some .ge | _ => none

def decFCond : Nat → Option FCond
  | 0 => some .eq | 1 => some .ne | 2 => some .lt | 3 => some .le | 4 => some .gt | 5 => some .ge
  | 6 => some .num | 7 => some .nan | _ => none

def decComb : Nat → Option Comb
  | 0 => some .none | 1 => some .and | 2 => some .or | _ => none

def decCarry : Nat → Option CarryMode
  | 0 => some .add | 1 => some .add0 | 2 => some .sub | 3 => some .sub0 | _ => none

def decRedOp : Nat → Option RedOp
  | 0 => some .add | 1 => some .min | 2 => some .max | 3 => some .and | 4 => some .or | 5 => some .xor | _ => none

def decShfl : Nat → Option ShflMode
  | 0 => some .base | 1 => some .lo | 2 => some .hi | 3 => some .mir | _ => none

def decQuad : Nat → Option QuadMode
  | 0 => some .h | 1 => some .v | 2 => some .d | _ => none

def decMask : Nat → Option MaskKind
  | 0 => some .own | 1 => some .below | 2 => some .thru | 3 => some .above | 4 => some .frm | 5 => some .tile
  | _ => none

def decAtomOp : Nat → Option AtomOp
  | 0 => some .add | 1 => some .sub | 2 => some .inc | 3 => some .dec | 4 => some .min | 5 => some .max
  | 6 => some .and | 7 => some .or | 8 => some .xch | 9 => some .cas | _ => none

def decAtomTy : Nat → Option AtomTy
  | 0 => some .i32 | 1 => some .n32 | 2 => some .i64 | 3 => some .n64
  | 4 => some .f32 | 5 => some .f64 | 6 => some .f16x2 | 7 => some .bf16x2 | _ => none

def decSpAtomTy : Nat → Option AtomTy
  | 0 => some .i32 | 1 => some .n32 | 2 => some .f32 | _ => none

def decRt : Nat → Option MaccRt
  | 0 => some .f32 | 1 => some .f64 | 2 => some .a80 | _ => none

def decSlotOp : Nat → Option SlotOp
  | 0x00 => some .nop | 0x01 => some .mov | 0x02 => some .add | 0x03 => some .sub | 0x04 => some .mulLo
  | 0x05 => some .and | 0x06 => some .or | 0x07 => some .xor | 0x08 => some .shl | 0x09 => some .shr
  | 0x0A => some .sha | 0x0B => some .min | 0x0C => some .max | 0x0D => some .fadd | 0x0E => some .fsub
  | 0x0F => some .fmul | 0x10 => some .fmin | 0x11 => some .fmax | 0x12 => some .hadd2 | 0x13 => some .hmul2
  | 0x14 => some .cvt | 0x15 => some .rcp | 0x16 => some .rsq | 0x17 => some .ex2 | 0x18 => some .lg2
  | 0x19 => some .not | 0x1A => some .popc | 0x1B => some .abs | 0x1C => some .neg | 0x1D => some .fabs
  | _ => none

/-! ### Fields -/

/-- The value of a field as a bounded number. -/
def fin (n m : Nat) [NeZero n] : Fin n := Fin.ofNat n m

/-- A field of an instruction word (R101). -/
def fD (w : Nat) : Nat := bits w 51 41
def fA (w : Nat) : Nat := bits w 40 30
def fB (w : Nat) : Nat := bits w 29 19
def fC (w : Nat) : Nat := bits w 10 0
def fTy (w : Nat) : Nat := bits w 18 15
def fIV (w : Nat) : Nat := bits w 14 12
def fSat (w : Nat) : Bool := bit w 11
/-- The variant field [18:16] of R162. -/
def fV (w : Nat) : Nat := bits w 18 16

/-- The guard of R101. -/
def decGuard (w : Nat) : Guard := ⟨fin 8 (bits w 55 53), bit w 52⟩

/-- A condition on the word, else it is rejected. -/
def need (b : Bool) : Option Unit := if b then some () else none

def rD (w : Nat) : Option Reg := decReg (fD w)
def rA (w : Nat) : Option Reg := decReg (fA w)
def rB (w : Nat) : Option Reg := decReg (fB w)
def rC (w : Nat) : Option Reg := decReg (fC w)

/-! ### The forms of ALU words (R107) -/

/-- D, A and B with C zero, the type, bits [14:12] and INSN.SAT. -/
def dec3 (w : Nat) (k : Reg → Reg → Reg → Ty → Nat → Bool → Option Instr) : Option Instr := do
  let _ ← need (fC w == 0)
  let d ← rD w
  let a ← rA w
  let b ← rB w
  let t ← decTy (fTy w)
  k d a b t (fIV w) (fSat w)

/-- D, A, B and C. -/
def dec4 (w : Nat) (k : Reg → Reg → Reg → Reg → Ty → Nat → Bool → Option Instr) : Option Instr := do
  let d ← rD w
  let a ← rA w
  let b ← rB w
  let c ← rC w
  let t ← decTy (fTy w)
  k d a b c t (fIV w) (fSat w)

/-- D and A with B and C zero. -/
def dec2 (w : Nat) (k : Reg → Reg → Ty → Nat → Bool → Option Instr) : Option Instr := do
  let _ ← need (fC w == 0 && fB w == 0)
  let d ← rD w
  let a ← rA w
  let t ← decTy (fTy w)
  k d a t (fIV w) (fSat w)

/-- Three operands, no rounding, no saturation. -/
def dec3p (w : Nat) (k : Reg → Reg → Reg → Ty → Instr) : Option Instr :=
  dec3 w fun d a b t v s => do
    let _ ← need (v == 0 && !s)
    some (k d a b t)

/-- Three operands and saturation, no rounding. -/
def dec3s (w : Nat) (k : Reg → Reg → Reg → Ty → Bool → Instr) : Option Instr :=
  dec3 w fun d a b t v s => do
    let _ ← need (v == 0)
    some (k d a b t s)

/-- Three operands, rounding and saturation. -/
def dec3r (w : Nat) (k : Reg → Reg → Reg → Ty → Rnd → Bool → Instr) : Option Instr :=
  dec3 w fun d a b t v s => do
    let r ← decRnd v
    some (k d a b t r s)

/-- Two operands, no rounding, no saturation. -/
def dec2p (w : Nat) (k : Reg → Reg → Ty → Instr) : Option Instr :=
  dec2 w fun d a t v s => do
    let _ ← need (v == 0 && !s)
    some (k d a t)

/-- Two operands and rounding. -/
def dec2r (w : Nat) (k : Reg → Reg → Ty → Rnd → Instr) : Option Instr :=
  dec2 w fun d a t v s => do
    let _ ← need (!s)
    let r ← decRnd v
    some (k d a t r)

/-- Two operands of type f32 alone. -/
def dec2f (w : Nat) (k : Reg → Reg → Instr) : Option Instr :=
  dec2 w fun d a t v s => do
    let _ ← need (v == 0 && !s && t == .f32)
    some (k d a)

/-- A predicate in [10:8] and a combine code in [7:6] (R189, R209), with D zero. -/
def decCmp (w : Nat) (k : Fin 8 → Reg → Reg → Ty → Comb → Instr) : Option Instr := do
  let _ ← need (fD w == 0 && bits w 5 0 == 0 && !fSat w)
  let a ← rA w
  let b ← rB w
  let t ← decTy (fTy w)
  let cb ← decComb (bits w 7 6)
  some (k (fin 8 (bits w 10 8)) a b t cb)

/-! ### The layouts of memory words -/

/-- MEM.BASE (R109), also AT.BASE and WW.BASE. -/
def decMemBase (w : Nat) : Option MemBase := decBase (bits w 40 31)

/-- `ld` and `st` (R109, R277): data, or the acquire or release label [own]. -/
def decMem (w : Nat) (own : Nat) (k : Reg → MemBase → BitVec 24 → Size → Bool → Instr)
    (sync : Reg → MemBase → BitVec 24 → Bool → Scope → Instr) : Option Instr := do
  let d ← rD w
  let b ← decMemBase w
  let off := BitVec.ofNat 24 (bits w 30 7)
  if bits w 6 4 = 0 then do
    let z ← decSize (bits w 3 1)
    some (k d b off z (bit w 0))
  else do
    let _ ← need (bits w 6 4 == own)
    let sc ← decScope (bits w 2 0)
    some (sync d b off (bit w 3) sc)

/-- `ldsp` and `stsp` (R110, R286): data, count, or the label [own]. -/
def decSp (w : Nat) (own : Nat) (k : Reg → Reg → BitVec 24 → Bool → Size → Instr)
    (sync : Reg → Reg → BitVec 24 → Bool → Instr) (cnt : Reg → Reg → BitVec 24 → Bool → Instr) : Option Instr := do
  let d ← rD w
  let b ← rA w
  let z ← decSize (bits w 2 0)
  let off := BitVec.ofNat 24 (bits w 29 6)
  let lbl := bits w 4 3
  if lbl = 0 then some (k d b off (bit w 5) z)
  else if lbl = 3 then do
    let _ ← need (z == .b32)
    some (cnt d b off (bit w 5))
  else do
    let _ ← need (lbl == own && !bit w 5 && (z == .b32 || z == .b64))
    some (sync d b off (z == .b64))

/-! ### One function per group of opcodes -/

/-- R162. -/
def decControl (op w : Nat) : Option Instr :=
  let g := decGuard w
  match op with
  | 0x00 => do
    let _ ← need (bits w 51 0 == 0)
    some (.nop g)
  | 0x01 => do
    let _ ← need (bits w 51 30 == 0)
    some (.bra g (BitVec.ofNat 30 (bits w 29 0)))
  | 0x02 => do
    let _ ← need (fD w == 0 && bits w 29 0 == 0)
    let a ← rA w
    some (.brx g a)
  | 0x03 => do
    let _ ← need (fA w == 0)
    let d ← rD w
    some (.call g d (BitVec.ofNat 30 (bits w 29 0)))
  | 0x04 => do
    let _ ← need (fD w == 0 && bits w 29 0 == 0)
    let a ← rA w
    some (.ret g a)
  | 0x05 => do
    let _ ← need (bits w 51 0 == 0)
    some (.exit g)
  | 0x06 => do
    let _ ← need (bits w 51 19 == 0 && bits w 15 3 == 0)
    if fV w = 0 then some (.rcvSet g (fin 8 (bits w 2 0)))
    else if fV w = 1 then some (.rcvWait g (fin 8 (bits w 2 0)))
    else none
  | 0x07 => do
    let _ ← need (bits w 40 19 == 0 && bits w 15 0 == 0)
    if fV w = 0 then do
      let _ ← need (fD w == 0)
      some (.regionBegin g)
    else if fV w = 1 then do
      let d ← rD w
      some (.regionQuery g d)
    else none
  | 0x08 => do
    let _ ← need (bits w 51 16 == 0)
    some (.wait g (BitVec.ofNat 4 (bits w 15 12)) (BitVec.ofNat 4 (bits w 11 8)) (BitVec.ofNat 4 (bits w 7 4))
      (BitVec.ofNat 4 (bits w 3 0)))
  | 0x09 => do
    let _ ← need (bits w 51 16 == 0)
    some (.trap g (BitVec.ofNat 16 (bits w 15 0)))
  | 0x0A => do
    let _ ← need (bits w 51 16 == 0)
    some (.brk g (BitVec.ofNat 16 (bits w 15 0)))
  | 0x0B => do
    let _ ← need (bits w 51 0 == 0)
    some (.trapret g)
  | 0x0C => do
    let _ ← need (bits w 40 3 == 0)
    let d ← rD w
    some (.rinj g d (fin 8 (bits w 2 0)))
  | 0x0D => do
    let _ ← need (fD w == 0 && bits w 29 0 == 0)
    let a ← rA w
    some (.sleep g a)
  | 0x0E => do
    let _ ← need (bits w 51 30 == 0)
    some (.electBr g (BitVec.ofNat 30 (bits w 29 0)))
  | 0x10 => do
    let _ ← need (bits w 40 12 == 0)
    let d ← rD w
    some (.sysRd g d (BitVec.ofNat 12 (bits w 11 0)))
  | 0x11 => do
    let _ ← need (fD w == 0 && bits w 29 12 == 0)
    let a ← rA w
    some (.sysWr g (BitVec.ofNat 12 (bits w 11 0)) a)
  | 0x12 => do
    let _ ← need (bits w 40 19 == 0 && bits w 15 0 == 0)
    let d ← rD w
    if fV w = 0 then some (.clkDev g d) else if fV w = 1 then some (.clkOrd g d) else none
  | 0x13 => do
    let _ ← need (bits w 40 19 == 0 && bits w 15 2 == 0)
    let d ← rD w
    let k := fin 4 (bits w 1 0)
    if fV w = 0 then some (.rng g d k) else if fV w = 1 then some (.rngX4 g d k)
    else if fV w = 2 then some (.rngF32 g d k) else none
  | 0x14 => do
    let _ ← need (bits w 40 19 == 0 && bits w 15 6 == 0)
    if fV w = 0 then do
      let d ← rD w
      some (.perfRd g d (fin 64 (bits w 5 0)))
    else if fV w = 1 then do
      let _ ← need (fD w == 0)
      some (.perfClr g (fin 64 (bits w 5 0)))
    else none
  | 0x15 => do
    let _ ← need (fD w == 0 && bits w 29 16 == 0)
    let a ← rA w
    some (.tmark g (BitVec.ofNat 16 (bits w 15 0)) a)
  | 0x16 => do
    let _ ← need (bits w 40 8 == 0)
    let d ← rD w
    some (.finfo g d (BitVec.ofNat 8 (bits w 7 0)))
  | 0x17 => do
    let _ ← need (bits w 29 6 == 0)
    let d ← rD w
    let a ← rA w
    some (.lnch g d a (fin 64 (bits w 5 0)))
  | _ => none

/-- `mul` and `mad` read their variant in INSN.IV (R189). -/
def decMul (w : Nat) : Option Instr :=
  let g := decGuard w
  dec3 w fun d a b t v s =>
    if v = 0 then some (.mulLo g d a b t s)
    else if s then none
    else if v = 1 then some (.mulHi g d a b t)
    else if v = 2 then some (.mulWide g d a b t)
    else none

def decMad (w : Nat) : Option Instr :=
  let g := decGuard w
  dec4 w fun d a b c t v s =>
    if v = 0 then some (.madLo g d a b c t s)
    else if s then none
    else if v = 1 then some (.madHi g d a b c t)
    else if v = 2 then some (.madWide g d a b c t)
    else none

/-- R189, R205. -/
def decInteger (op w : Nat) : Option Instr :=
  let g := decGuard w
  match op with
  | 0x18 => dec3s w (.add g)
  | 0x19 => dec3s w (.sub g)
  | 0x1A => decMul w
  | 0x1B => decMad w
  | 0x1C => dec3p w (.min g)
  | 0x1D => dec3p w (.max g)
  | 0x1E => dec2 w fun d a t v s => if v = 0 then some (.abs g d a t s) else none
  | 0x1F => dec2 w fun d a t v s => if v = 0 then some (.neg g d a t s) else none
  | 0x20 => dec3p w (.and g)
  | 0x21 => dec3p w (.or g)
  | 0x22 => dec3p w (.xor g)
  | 0x23 => dec2p w (.not g)
  | 0x24 => dec3p w (.shl g)
  | 0x25 => dec3p w (.shr g)
  | 0x26 => dec3p w (.sha g)
  | 0x27 => dec3p w (.rot g)
  | 0x28 => dec3p w (.bfe g)
  | 0x29 => dec4 w fun d a b c t v s => if v = 0 ∧ s = false ∧ t = .b32 then some (.bfi g d a b c) else none
  | 0x2A => dec2p w (.popc g)
  | 0x2B => dec2p w (.clz g)
  | 0x2C => dec2p w (.ctz g)
  | 0x2D => dec2p w (.brev g)
  | 0x2E => dec4 w fun d a b c t v s => if v = 0 ∧ s = false ∧ t = .b32 then some (.bsel g d a b c) else none
  | 0x2F => do
    let _ ← need (bits w 6 0 == 0 && fIV w == 0 && !fSat w)
    let d ← rD w
    let a ← rA w
    let b ← rB w
    let t ← decTy (fTy w)
    some (.sel g d a b t (fin 8 (bits w 10 8)) (bit w 7))
  | 0x30 => do
    let cc ← decCond (fIV w)
    decCmp w fun p a b t cb => .cmp g p a b t cc cb
  | 0x31 => dec2p w (.mov g)
  | 0x32 => do
    let d ← rD w
    let i := BitVec.ofNat 32 (bits w 31 0)
    let m := bits w 40 32
    if m = 0 then some (.movi g d i) else if m = 1 then some (.moviS64 g d i)
    else if m = 2 then some (.moviZ64 g d i) else none
  | 0x33 => dec3 w fun d a b t v s =>
    if h : v < 7 then if s then none else some (.adda g d a b t ⟨v, h⟩) else none
  | 0x34 => do
    let _ ← need (bits w 7 0 == 0 && !fSat w && fTy w == 1)
    let v ← decCarry (fIV w)
    let d ← rD w
    let a ← rA w
    let b ← rB w
    some (.addc g d a b (fin 8 (bits w 10 8)) v)
  | _ => none

/-- R209. -/
def decFloat (op w : Nat) : Option Instr :=
  let g := decGuard w
  match op with
  | 0x38 => dec3r w (.fadd g)
  | 0x39 => dec3r w (.fsub g)
  | 0x3A => dec3r w (.fmul g)
  | 0x3B => dec4 w fun d a b c t v s => do
    let r ← decRnd v
    some (.ffma g d a b c t r s)
  | 0x3C => dec3 w fun d a b t v s => if v ≤ 1 ∧ s = false then some (.fmin g d a b t (v == 1)) else none
  | 0x3D => dec3 w fun d a b t v s => if v ≤ 1 ∧ s = false then some (.fmax g d a b t (v == 1)) else none
  | 0x3E => do
    let cc ← decFCond (fIV w)
    decCmp w fun p a b t cb => .fcmp g p a b t cc cb
  | 0x3F => dec2p w (.fclass g)
  | 0x40 => dec2r w (.frnd g)
  | 0x41 => dec3r w (.fscale g)
  | 0x42 => dec2r w (.rcp g)
  | 0x43 => dec2p w (.rsq g)
  | 0x44 => dec2r w (.sqrt g)
  | 0x45 => dec2f w (.ex2 g)
  | 0x46 => dec2f w (.lg2 g)
  | 0x47 => dec2f w (.sin g)
  | 0x48 => dec2f w (.cos g)
  | 0x49 => dec2f w (.tanh g)
  | 0x4A => dec4 w fun d a b c t v s => do
    let r ← decRnd v
    some (.hfma2 g d a b c t r s)
  | 0x4B => dec3r w (.hadd2 g)
  | 0x4C => dec3r w (.hmul2 g)
  | _ => none

/-- R224. -/
def decConvert (op w : Nat) : Option Instr :=
  let g := decGuard w
  match op with
  | 0x50 => do
    let _ ← need (bits w 10 7 == 0 && fB w == 0)
    let d ← rD w
    let a ← rA w
    let dt ← decTy (fTy w)
    let st ← decTy (bits w 3 0)
    let r ← decRnd (fIV w)
    some (.cvt g d a dt st (fin 8 (bits w 6 4)) r (fSat w))
  | 0x51 => do
    let _ ← need (bits w 10 4 == 0)
    let d ← rD w
    let a ← rA w
    let e ← rB w
    let dt ← decTy (fTy w)
    let st ← decTy (bits w 3 0)
    let r ← decRnd (fIV w)
    some (.cvtef g d e a dt st r (fSat w))
  | 0x52 => do
    let _ ← need (bits w 10 3 == 0 && !fSat w)
    let k := fin 8 (bits w 2 0)
    let t ← decTy (fTy w)
    if fIV w = 0 then do
      let d ← rD w
      let a ← rA w
      let s ← rB w
      some (.cvtmx g d s a t k)
    else if fIV w = 1 then do
      let _ ← need (fD w == 0 && fB w == 0 && t == .f32 && bits w 2 0 == 0)
      let a ← rA w
      some (.cvtmxAcc g a)
    else if fIV w = 2 then do
      let _ ← need (fA w == 0 && fB w == 0)
      let d ← rD w
      some (.cvtmxRep g d t k)
    else do
      let _ ← need (fIV w == 3 && fD w == 0 && fA w == 0 && fB w == 0 && fTy w == 0 && bits w 2 0 == 0)
      some (.cvtmxClr g)
  | 0x53 => do
    let _ ← need (bits w 10 4 == 0 && fB w == 0)
    let d ← rD w
    let a ← rA w
    let dt ← decTy (fTy w)
    let st ← decTy (bits w 3 0)
    let r ← decRnd (fIV w)
    some (.pack g d a dt st r (fSat w))
  | 0x54 => do
    let _ ← need (bits w 10 4 == 0 && fB w == 0 && fIV w == 0 && !fSat w)
    let d ← rD w
    let a ← rA w
    let dt ← decTy (fTy w)
    let st ← decTy (bits w 3 0)
    some (.unpk g d a dt st)
  | 0x55 => dec4 w fun d a b c t v s => do
    let r ← decRnd v
    some (.dot4 g d a b c t r s)
  | 0x56 => dec4 w fun d a b c t v s => do
    let r ← decRnd v
    let _ ← need (t == .e2m1)
    some (.dot8 g d a b c r s)
  | _ => none

/-- XL words with D and A, B and XL.F zero but for [zf] (R242). -/
def decXl (w : Nat) (hi lo : Nat) (k : Reg → Reg → Ty → Nat → Option Instr) : Option Instr := do
  let _ ← need (fB w == 0 && bits w hi lo == 0)
  let d ← rD w
  let a ← rA w
  let t ← decTy (fTy w)
  k d a t (fIV w)

/-- `redux` and `scan` (R243). -/
def decRed (w : Nat) (k : RedOp → Reg → Reg → Ty → Rnd → Bool → Instr) : Option Instr := do
  let _ ← need (fB w == 0 && bits w 6 0 == 0)
  let d ← rD w
  let a ← rA w
  let t ← decTy (fTy w)
  let o ← decRedOp (fIV w)
  let r ← decRnd (bits w 11 9)
  some (k o d a t r (bit w 8))

/-- R243. -/
def decLanes (op w : Nat) : Option Instr :=
  let g := decGuard w
  let pd := fin 8 (bits w 10 8)
  let q := fin 8 (bits w 7 5)
  match op with
  | 0x58 => do
    let _ ← need (bits w 7 0 == 0 && (bit w 11 || bits w 10 8 == 0))
    let m ← decShfl (fIV w)
    let d ← rD w
    let a ← rA w
    let b ← rB w
    let t ← decTy (fTy w)
    some (.shfl g m d a b t (if bit w 11 then some pd else none))
  | 0x59 => do
    let _ ← need (fB w == 0 && !bit w 11)
    if fIV w = 2 then do
      let _ ← need (fD w == 0 && bits w 7 0 == 0)
      let a ← rA w
      let t ← decTy (fTy w)
      some (.voteSame g pd a t)
    else do
      let _ ← need (fA w == 0 && fTy w == 0 && bits w 3 0 == 0)
      if fIV w ≤ 1 then do
        let _ ← need (fD w == 0)
        if fIV w = 0 then some (.voteSome g pd q (bit w 4)) else some (.voteEvery g pd q (bit w 4))
      else do
        let _ ← need (bits w 10 8 == 0)
        let d ← rD w
        if fIV w = 3 then some (.voteBits g d q (bit w 4))
        else if fIV w = 4 then some (.voteCnt g d q (bit w 4))
        else none
  | 0x5A => do
    let _ ← need (!bit w 7)
    decRed w fun o d a t r s => .redux g o d a t r s
  | 0x5B => decRed w fun o d a t r s => .scan g o d a t (bit w 7) r s
  | 0x5C =>
    if fIV w = 0 then decXl w 10 0 fun d a t _ => some (.matchAny g d a t (bit w 11))
    else if fIV w = 1 then decXl w 7 0 fun d a t _ => some (.matchAll g d pd a t (bit w 11))
    else none
  | 0x5D => decXl w 11 0 fun d a t v => do
    let m ← decQuad v
    some (.qswp g m d a t)
  | 0x5E => decXl w 11 2 fun d a t v => if v = 0 then some (.qbc g d a t (fin 4 (bits w 1 0))) else none
  | 0x5F => decXl w 11 0 fun d a t v => if v = 0 then some (.rdfst g d a t) else none
  | 0x60 => do
    let _ ← need (bits w 51 3 == 0)
    let n := bits w 2 0
    if h : 1 ≤ n ∧ n ≤ 5 then some (.part g ⟨n - 1, by omega⟩) else none
  | 0x61 => do
    let _ ← need (bits w 40 15 == 0 && bits w 11 0 == 0)
    let m ← decMask (fIV w)
    let d ← rD w
    some (.lmask g m d)
  | 0x62 => do
    let _ ← need (bits w 40 11 == 0 && bits w 7 0 == 0)
    let d ← rD w
    some (.elect g d pd)
  | _ => none

/-- R277, R286, R289 to R295. -/
def decMemory (op w : Nat) : Option Instr :=
  let g := decGuard w
  match op with
  | 0x64 => decMem w 1 (.ld g) (.ldAcq g)
  | 0x65 => decMem w 2 (.st g) (.stRel g)
  | 0x66 => decSp w 1 (.ldsp g) (.ldspAcq g) (.ldspCnt g)
  | 0x67 => decSp w 2 (.stsp g) (.stspRel g) (.stspCnt g)
  | 0x68 => do
    let _ ← need (bits w 6 4 == 0 && !bit w 0)
    let d ← rD w
    let b ← decMemBase w
    let z ← decSize (bits w 3 1)
    some (.ldc g d b (BitVec.ofNat 24 (bits w 30 7)) z)
  | 0x6C => do
    let _ ← need (fD w == 0 && bits w 6 4 == 0 && !bit w 0)
    let b ← decMemBase w
    let off := BitVec.ofNat 24 (bits w 30 7)
    let v := bits w 3 1
    if v = 0 then some (.prefL1 g b off) else if v = 1 then some (.prefL2 g b off)
    else if v = 2 then some (.prefEvict g b off) else none
  | 0x6D => do
    let _ ← need (bits w 29 19 == 0 && bits w 15 0 == 0)
    if fV w = 0 then do
      let _ ← need (fD w == 0 && fA w == 0)
      some (.spmapFlush g)
    else if fV w = 1 then do
      let d ← rD w
      let a ← rA w
      some (.spmapQuery g d a)
    else none
  | 0x6E => do
    let _ ← need (bits w 4 0 == 0)
    let d ← rD w
    let h := BitVec.ofNat 8 (bits w 15 8)
    if fV w = 0 then do
      let a ← rA w
      let b ← rB w
      some (.residBind g d a b h (fin 8 (bits w 7 5)))
    else if fV w = 1 then do
      let _ ← need (fA w == 0 && fB w == 0 && bits w 7 5 == 0)
      some (.residUnbind g d h)
    else none
  | _ => none

/-- R301, R309, R377, R384, R386, R390, R395, R396, R398. -/
def decSync (op w : Nat) : Option Instr :=
  let g := decGuard w
  match op with
  | 0x69 => do
    let d ← rD w
    let base ← decMemBase w
    let b ← decReg (bits w 30 20)
    let c ← decReg (bits w 19 9)
    let o ← decAtomOp (bits w 8 5)
    let t ← decAtomTy (bits w 4 2)
    let sc ← decScope (bits w 1 0)
    some (.atom g d base b c o t sc)
  | 0x6A => do
    let _ ← need (!bit w 0)
    let d ← rD w
    let base ← rA w
    let b ← rB w
    let c ← decReg (bits w 18 8)
    let o ← decAtomOp (bits w 7 4)
    let t ← decSpAtomTy (bits w 3 2)
    some (.atomsp g d base b c o t (bit w 1))
  | 0x6B => do
    let _ ← need (bits w 51 19 == 0 && bits w 15 5 == 0)
    if fV w = 1 then do
      let _ ← need (bits w 2 0 == 0)
      some (.fencePath g (bit w 3) (bit w 4))
    else do
      let _ ← need (bits w 4 3 == 0)
      let sc ← decScope (bits w 2 0)
      if fV w = 0 then some (.fence g sc) else if fV w = 2 then some (.fenceXlat g sc) else none
  | 0x6F => do
    let _ ← need (fD w == 0 && bits w 29 19 == 0 && bits w 15 0 == 0)
    let a ← rA w
    match fV w with
    | 0 => some (.cpyG2s g a)
    | 1 => some (.cpyS2g g a)
    | 2 => some (.cpyG2g g a)
    | 3 => some (.cpyGather g a)
    | 4 => some (.cpyBcast g a)
    | 5 => some (.cpyFill g a)
    | 6 => some (.cpyMeta g a)
    | _ => none
  | 0x70 => do
    let _ ← need (bits w 29 19 == 0 && bits w 15 0 == 0)
    let d ← rD w
    let a ← rA w
    if fV w = 0 then some (.cbwWait g d a) else if fV w = 1 then some (.cbwTest g d a)
    else if fV w = 2 then some (.cbwReset g d a) else none
  | 0x71 => do
    let _ ← need (fD w == 0 && bits w 29 19 == 0 && bits w 15 4 == 0)
    let a ← rA w
    if fV w = 0 then some (.barJoin g a (fin 16 (bits w 3 0)))
    else if fV w = 1 then some (.barPost g a (fin 16 (bits w 3 0)))
    else none
  | 0x72 => do
    let _ ← need (bits w 51 19 == 0 && bits w 15 0 == 0)
    if fV w = 0 then some (.gbarJoin g) else if fV w = 1 then some (.gbarPost g) else none
  | 0x73 => do
    let _ ← need (fD w == 0 && bits w 29 0 == 0)
    let a ← rA w
    some (.wsync g a)
  | 0x74 => do
    let _ ← need (bits w 11 0 == 0)
    let d ← rD w
    let base ← decMemBase w
    let b ← decReg (bits w 30 20)
    let cc ← decCond (bits w 19 17)
    let sc ← decScope (bits w 14 12)
    some (.waitw g d base b cc (bit w 16) (bit w 15) sc)
  | 0x75 => do
    let _ ← need (bits w 51 0 == 0)
    some (.odone g)
  | _ => none

/-- R328, R330, R339, R341. -/
def decMatrix (op w : Nat) : Option Instr :=
  let g := decGuard w
  let nr := fin 64 (bits w 5 0)
  let fmt := fin 8 (bits w 15 13)
  match op with
  | 0x76 => do
    let _ ← need (fD w == 0 && bits w 29 0 == 0)
    let a ← rA w
    some (.mmac g a)
  | 0x77 => do
    let b ← rB w
    if fV w = 0 then do
      let _ ← need (fD w == 0 && bits w 11 6 == 0)
      let a ← rA w
      some (.maccSt g a b nr fmt (bit w 12))
    else if fV w = 1 then do
      let _ ← need (fD w == 0 && bits w 11 7 == 0)
      let a ← rA w
      some (.maccLd g a b nr fmt (bit w 12) (bit w 6))
    else if fV w = 2 then do
      let _ ← need (fD w == 0 && fA w == 0 && bits w 15 6 == 0)
      some (.maccZero g b nr)
    else do
      let _ ← need (fV w == 3 && bits w 15 12 == 0 && bits w 6 0 == 0)
      let d ← rD w
      let c ← rA w
      let rt ← decRt (bits w 11 10)
      let r ← decRnd (bits w 9 7)
      some (.maccRd g d b c rt r)
  | 0x78 => do
    let _ ← need (bits w 40 19 == 0 && bits w 15 2 == 0)
    let d ← rD w
    let q := fin 4 (bits w 1 0)
    if fV w = 0 then some (.mqctlClaim g d q) else if fV w = 1 then some (.mqctlRelease g d q)
    else if fV w = 2 then some (.mqctlQuery g d q) else none
  | 0x79 => do
    let _ ← need (bits w 29 19 == 0 && bits w 15 0 == 0)
    if fV w = 0 then do
      let _ ← need (fA w == 0)
      let d ← rD w
      some (.mstatErr g d)
    else if fV w = 1 then do
      let _ ← need (fD w == 0)
      let a ← rA w
      some (.mstatCont g a)
    else do
      let _ ← need (fV w == 2 && fD w == 0 && fA w == 0)
      some (.mstatClr g)
  | _ => none

/-- The reserved opcodes of R124. -/
def opReserved (op : Nat) : Bool :=
  op == 0x0F || (0x35 ≤ op && op ≤ 0x37) || (0x4D ≤ op && op ≤ 0x4F) || op == 0x57 || op == 0x63 || 0x7A ≤ op

/-- The instruction that the fields of a full-format word name (R101 to R115). -/
def decFields (w : Nat) : Option Instr :=
  let op := bits w 62 56
  if op < 0x18 then decControl op w
  else if op < 0x38 then decInteger op w
  else if op < 0x50 then decFloat op w
  else if op < 0x58 then decConvert op w
  else if op < 0x63 then decLanes op w
  else if op < 0x69 then decMemory op w
  else if op < 0x6C then decSync op w
  else if op < 0x6F then decMemory op w
  else if op < 0x76 then decSync op w
  else decMatrix op w

/-- A slot whose 31 bits are [x] (R117). -/
def decSlot (x : Nat) : Option Slot := do
  let o ← decSlotOp (bits x 30 25)
  some ⟨o, fin 4 (bits x 24 23), fin 512 (bits x 22 14), fin 512 (bits x 13 5), fin 8 (bits x 4 2), fin 4 (bits x 1 0)⟩

/-- The pair format (R117). -/
def decPair (w : Nat) : Option Instr := do
  let _ ← need (!bit w 0)
  let x ← decSlot (bits w 62 32)
  let y ← decSlot (bits w 31 1)
  some (.pairWord x y)

/-- The decode checks of R126 that do not depend on the launch or the mode, in their order. -/
def decode (word : DWord) : Except DecodeError Instr :=
  let w := word.toNat
  if bit w 63 then
    match decPair w with
    | some i => if i.wf then .ok i else .error .illegalPair
    | none => .error .illegalPair
  else if opReserved (bits w 62 56) then .error .reservedOpcode
  else
    match decFields w with
    | none => .error .reservedField
    | some i => if i.wf then .ok i else .error .operand

/-- The bytes of one word, in the order of R98, as the word. -/
def wordOfBytes (bs : List Byte) : DWord :=
  BitVec.ofNat 64 (bs.foldr (fun b acc => b.toNat + 256 * acc) 0)

/-- The bytes of a word as memory holds them (R98). -/
def bytesOfWord (w : DWord) : List Byte :=
  (List.range 8).map fun k => BitVec.ofNat 8 (w.toNat >>> (8 * k))

/-- The decoder on bytes, and the bytes that follow the word. -/
def decodeBytes (bs : List Byte) : Except DecodeError (Instr × List Byte) :=
  match decode (wordOfBytes (bs.take 8)) with
  | .ok i => .ok (i, bs.drop 8)
  | .error e => .error e

/-- The host's view of the decoder: the word whose low [nbits] bits are [w], laid out as R98 lays it out,
and given to the decoder. Bits above [nbits] are zero. -/
def decodeTableWord (nbits w : Nat) : Option Instr :=
  match decode (wordOfBytes (bytesOfWord (BitVec.ofNat 64 (w % 2 ^ min nbits 64)))) with
  | .ok i => some i
  | .error _ => none

/-! ### The encoder -/

def Special.num : Special → Nat
  | .zero => 1792 | .lane => 1793 | .tidX => 1794 | .tidY => 1795 | .tidZ => 1796
  | .bidX => 1797 | .bidY => 1798 | .bidZ => 1799 | .bdimX => 1800 | .bdimY => 1801 | .bdimZ => 1802
  | .gdimX => 1803 | .gdimY => 1804 | .gdimZ => 1805 | .warp => 1806 | .gang => 1807 | .gangspan => 1808
  | .die => 1809 | .core => 1810 | .launch => 1811 | .active => 1812 | .part => 1813 | .helper => 1814

/-- The number of an operand (R103). -/
def Reg.num : Reg → Nat
  | .v n => n.val
  | .s n => 1536 + n.val
  | .sp x => x.num
  | .imm k => 1920 + k.val

def MemBase.num : MemBase → Nat
  | .v n => n.val
  | .s n => 768 + n.val
  | .zero => 896

def Ty.code : Ty → Nat
  | .i32 => 0 | .n32 => 1 | .i64 => 2 | .n64 => 3 | .i16 => 4 | .n16 => 5 | .i8 => 6 | .n8 => 7
  | .f32 => 8 | .f64 => 9 | .f16 => 10 | .bf16 => 11 | .e4m3 => 12 | .e5m2 => 13 | .e2m1 => 14 | .b32 => 15

def Rnd.code : Rnd → Nat
  | .rn => 0 | .rz => 1 | .rp => 2 | .rm => 3 | .ra => 4 | .rs => 5 | .ro => 6

def Size.code : Size → Nat
  | .n8 => 0 | .i8 => 1 | .n16 => 2 | .i16 => 3 | .b32 => 4 | .b64 => 5 | .b128 => 6 | .b256 => 7

def Scope.code : Scope → Nat
  | .blk => 0 | .gang => 1 | .dev => 2 | .sys => 3

def Cond.code : Cond → Nat
  | .eq => 0 | .ne => 1 | .lt => 2 | .le => 3 | .gt => 4 | .ge => 5

def FCond.code : FCond → Nat
  | .eq => 0 | .ne => 1 | .lt => 2 | .le => 3 | .gt => 4 | .ge => 5 | .num => 6 | .nan => 7

def Comb.code : Comb → Nat
  | .none => 0 | .and => 1 | .or => 2

def CarryMode.code : CarryMode → Nat
  | .add => 0 | .add0 => 1 | .sub => 2 | .sub0 => 3

def RedOp.code : RedOp → Nat
  | .add => 0 | .min => 1 | .max => 2 | .and => 3 | .or => 4 | .xor => 5

def ShflMode.code : ShflMode → Nat
  | .base => 0 | .lo => 1 | .hi => 2 | .mir => 3

def QuadMode.code : QuadMode → Nat
  | .h => 0 | .v => 1 | .d => 2

def MaskKind.code : MaskKind → Nat
  | .own => 0 | .below => 1 | .thru => 2 | .above => 3 | .frm => 4 | .tile => 5

def AtomOp.code : AtomOp → Nat
  | .add => 0 | .sub => 1 | .inc => 2 | .dec => 3 | .min => 4 | .max => 5 | .and => 6 | .or => 7 | .xch => 8 | .cas => 9

def AtomTy.code : AtomTy → Nat
  | .i32 => 0 | .n32 => 1 | .i64 => 2 | .n64 => 3 | .f32 => 4 | .f64 => 5 | .f16x2 => 6 | .bf16x2 => 7

/-- The codes of SA.TYPE (R384); the other types have none. -/
def AtomTy.spCode : AtomTy → Nat
  | .i32 => 0 | .n32 => 1 | .f32 => 2 | _ => 3

def MaccRt.code : MaccRt → Nat
  | .f32 => 0 | .f64 => 1 | .a80 => 2

def SlotOp.code : SlotOp → Nat
  | .nop => 0x00 | .mov => 0x01 | .add => 0x02 | .sub => 0x03 | .mulLo => 0x04 | .and => 0x05 | .or => 0x06
  | .xor => 0x07 | .shl => 0x08 | .shr => 0x09 | .sha => 0x0A | .min => 0x0B | .max => 0x0C | .fadd => 0x0D
  | .fsub => 0x0E | .fmul => 0x0F | .fmin => 0x10 | .fmax => 0x11 | .hadd2 => 0x12 | .hmul2 => 0x13
  | .cvt => 0x14 | .rcp => 0x15 | .rsq => 0x16 | .ex2 => 0x17 | .lg2 => 0x18 | .not => 0x19 | .popc => 0x1A
  | .abs => 0x1B | .neg => 0x1C | .fabs => 0x1D

def b2n (b : Bool) : Nat := if b then 1 else 0

/-- A full-format word from its opcode, its guard and its bits [51:0] (R101). -/
def encFull (op : Nat) (g : Guard) (body : Nat) : Nat := op * 2 ^ 56 + g.p.val * 2 ^ 53 + b2n g.neg * 2 ^ 52 + body

/-- The bits [51:0] of the ALU layout (R107). -/
def encAlu (d a b ty v sat c : Nat) : Nat :=
  d * 2 ^ 41 + a * 2 ^ 30 + b * 2 ^ 19 + ty * 2 ^ 15 + v * 2 ^ 12 + sat * 2 ^ 11 + c

/-- The bits [51:0] of the words with fields D, A, B and a variant in [18:16] (R162, R292, R301, R330, R339). -/
def encOwn (d a b v low : Nat) : Nat := d * 2 ^ 41 + a * 2 ^ 30 + b * 2 ^ 19 + v * 2 ^ 16 + low

/-- The bits [51:0] of the memory layout (R109). -/
def encMem (d base off lbl low : Nat) : Nat := d * 2 ^ 41 + base * 2 ^ 31 + off * 2 ^ 7 + lbl * 2 ^ 4 + low

/-- The bits [51:0] of the scratchpad layout (R110). -/
def encSp (d base off rmt lbl size : Nat) : Nat :=
  d * 2 ^ 41 + base * 2 ^ 30 + off * 2 ^ 6 + rmt * 2 ^ 5 + lbl * 2 ^ 3 + size

/-- The 31 bits of a slot (R117). -/
def encSlot (x : Slot) : Nat :=
  x.op.code * 2 ^ 25 + x.g.val * 2 ^ 23 + x.d.val * 2 ^ 14 + x.a.val * 2 ^ 5 + x.ty.val * 2 ^ 2 + x.flags.val

/-- The word of an instruction, as a number; an event has none. -/
def encodeNat (i : Instr) : Option Nat :=
  match i with
  | .nop g => some (encFull 0x00 g 0)
  | .bra g off => some (encFull 0x01 g off.toNat)
  | .brx g a => some (encFull 0x02 g (encOwn 0 a.num 0 0 0))
  | .call g d off => some (encFull 0x03 g (d.num * 2 ^ 41 + off.toNat))
  | .ret g a => some (encFull 0x04 g (encOwn 0 a.num 0 0 0))
  | .exit g => some (encFull 0x05 g 0)
  | .rcvSet g b => some (encFull 0x06 g (encOwn 0 0 0 0 b.val))
  | .rcvWait g b => some (encFull 0x06 g (encOwn 0 0 0 1 b.val))
  | .regionBegin g => some (encFull 0x07 g 0)
  | .regionQuery g d => some (encFull 0x07 g (encOwn d.num 0 0 1 0))
  | .wait g l s c t =>
    some (encFull 0x08 g (l.toNat * 2 ^ 12 + s.toNat * 2 ^ 8 + c.toNat * 2 ^ 4 + t.toNat))
  | .trap g n => some (encFull 0x09 g n.toNat)
  | .brk g n => some (encFull 0x0A g n.toNat)
  | .trapret g => some (encFull 0x0B g 0)
  | .rinj g d e => some (encFull 0x0C g (encOwn d.num 0 0 0 e.val))
  | .sleep g a => some (encFull 0x0D g (encOwn 0 a.num 0 0 0))
  | .electBr g off => some (encFull 0x0E g off.toNat)
  | .sysRd g d n => some (encFull 0x10 g (encOwn d.num 0 0 0 n.toNat))
  | .sysWr g n a => some (encFull 0x11 g (encOwn 0 a.num 0 0 n.toNat))
  | .clkDev g d => some (encFull 0x12 g (encOwn d.num 0 0 0 0))
  | .clkOrd g d => some (encFull 0x12 g (encOwn d.num 0 0 1 0))
  | .rng g d k => some (encFull 0x13 g (encOwn d.num 0 0 0 k.val))
  | .rngX4 g d k => some (encFull 0x13 g (encOwn d.num 0 0 1 k.val))
  | .rngF32 g d k => some (encFull 0x13 g (encOwn d.num 0 0 2 k.val))
  | .perfRd g d n => some (encFull 0x14 g (encOwn d.num 0 0 0 n.val))
  | .perfClr g n => some (encFull 0x14 g (encOwn 0 0 0 1 n.val))
  | .tmark g n a => some (encFull 0x15 g (encOwn 0 a.num 0 0 n.toNat))
  | .finfo g d n => some (encFull 0x16 g (encOwn d.num 0 0 0 n.toNat))
  | .lnch g d a q => some (encFull 0x17 g (encOwn d.num a.num 0 0 q.val))
  | .add g d a b t s => some (encFull 0x18 g (encAlu d.num a.num b.num t.code 0 (b2n s) 0))
  | .sub g d a b t s => some (encFull 0x19 g (encAlu d.num a.num b.num t.code 0 (b2n s) 0))
  | .mulLo g d a b t s => some (encFull 0x1A g (encAlu d.num a.num b.num t.code 0 (b2n s) 0))
  | .mulHi g d a b t => some (encFull 0x1A g (encAlu d.num a.num b.num t.code 1 0 0))
  | .mulWide g d a b t => some (encFull 0x1A g (encAlu d.num a.num b.num t.code 2 0 0))
  | .madLo g d a b c t s => some (encFull 0x1B g (encAlu d.num a.num b.num t.code 0 (b2n s) c.num))
  | .madHi g d a b c t => some (encFull 0x1B g (encAlu d.num a.num b.num t.code 1 0 c.num))
  | .madWide g d a b c t => some (encFull 0x1B g (encAlu d.num a.num b.num t.code 2 0 c.num))
  | .min g d a b t => some (encFull 0x1C g (encAlu d.num a.num b.num t.code 0 0 0))
  | .max g d a b t => some (encFull 0x1D g (encAlu d.num a.num b.num t.code 0 0 0))
  | .abs g d a t s => some (encFull 0x1E g (encAlu d.num a.num 0 t.code 0 (b2n s) 0))
  | .neg g d a t s => some (encFull 0x1F g (encAlu d.num a.num 0 t.code 0 (b2n s) 0))
  | .and g d a b t => some (encFull 0x20 g (encAlu d.num a.num b.num t.code 0 0 0))
  | .or g d a b t => some (encFull 0x21 g (encAlu d.num a.num b.num t.code 0 0 0))
  | .xor g d a b t => some (encFull 0x22 g (encAlu d.num a.num b.num t.code 0 0 0))
  | .not g d a t => some (encFull 0x23 g (encAlu d.num a.num 0 t.code 0 0 0))
  | .shl g d a b t => some (encFull 0x24 g (encAlu d.num a.num b.num t.code 0 0 0))
  | .shr g d a b t => some (encFull 0x25 g (encAlu d.num a.num b.num t.code 0 0 0))
  | .sha g d a b t => some (encFull 0x26 g (encAlu d.num a.num b.num t.code 0 0 0))
  | .rot g d a b t => some (encFull 0x27 g (encAlu d.num a.num b.num t.code 0 0 0))
  | .bfe g d a b t => some (encFull 0x28 g (encAlu d.num a.num b.num t.code 0 0 0))
  | .bfi g d a b c => some (encFull 0x29 g (encAlu d.num a.num b.num 15 0 0 c.num))
  | .popc g d a t => some (encFull 0x2A g (encAlu d.num a.num 0 t.code 0 0 0))
  | .clz g d a t => some (encFull 0x2B g (encAlu d.num a.num 0 t.code 0 0 0))
  | .ctz g d a t => some (encFull 0x2C g (encAlu d.num a.num 0 t.code 0 0 0))
  | .brev g d a t => some (encFull 0x2D g (encAlu d.num a.num 0 t.code 0 0 0))
  | .bsel g d a b c => some (encFull 0x2E g (encAlu d.num a.num b.num 15 0 0 c.num))
  | .sel g d a b t p n => some (encFull 0x2F g (encAlu d.num a.num b.num t.code 0 0 (p.val * 2 ^ 8 + b2n n * 2 ^ 7)))
  | .cmp g p a b t cc cb =>
    some (encFull 0x30 g (encAlu 0 a.num b.num t.code cc.code 0 (p.val * 2 ^ 8 + cb.code * 2 ^ 6)))
  | .mov g d a t => some (encFull 0x31 g (encAlu d.num a.num 0 t.code 0 0 0))
  | .movi g d i => some (encFull 0x32 g (d.num * 2 ^ 41 + i.toNat))
  | .moviS64 g d i => some (encFull 0x32 g (d.num * 2 ^ 41 + 1 * 2 ^ 32 + i.toNat))
  | .moviZ64 g d i => some (encFull 0x32 g (d.num * 2 ^ 41 + 2 * 2 ^ 32 + i.toNat))
  | .adda g d a b t k => some (encFull 0x33 g (encAlu d.num a.num b.num t.code k.val 0 0))
  | .addc g d a b p v => some (encFull 0x34 g (encAlu d.num a.num b.num 1 v.code 0 (p.val * 2 ^ 8)))
  | .fadd g d a b t r s => some (encFull 0x38 g (encAlu d.num a.num b.num t.code r.code (b2n s) 0))
  | .fsub g d a b t r s => some (encFull 0x39 g (encAlu d.num a.num b.num t.code r.code (b2n s) 0))
  | .fmul g d a b t r s => some (encFull 0x3A g (encAlu d.num a.num b.num t.code r.code (b2n s) 0))
  | .ffma g d a b c t r s => some (encFull 0x3B g (encAlu d.num a.num b.num t.code r.code (b2n s) c.num))
  | .fmin g d a b t n => some (encFull 0x3C g (encAlu d.num a.num b.num t.code (b2n n) 0 0))
  | .fmax g d a b t n => some (encFull 0x3D g (encAlu d.num a.num b.num t.code (b2n n) 0 0))
  | .fcmp g p a b t cc cb =>
    some (encFull 0x3E g (encAlu 0 a.num b.num t.code cc.code 0 (p.val * 2 ^ 8 + cb.code * 2 ^ 6)))
  | .fclass g d a t => some (encFull 0x3F g (encAlu d.num a.num 0 t.code 0 0 0))
  | .frnd g d a t r => some (encFull 0x40 g (encAlu d.num a.num 0 t.code r.code 0 0))
  | .fscale g d a b t r s => some (encFull 0x41 g (encAlu d.num a.num b.num t.code r.code (b2n s) 0))
  | .rcp g d a t r => some (encFull 0x42 g (encAlu d.num a.num 0 t.code r.code 0 0))
  | .rsq g d a t => some (encFull 0x43 g (encAlu d.num a.num 0 t.code 0 0 0))
  | .sqrt g d a t r => some (encFull 0x44 g (encAlu d.num a.num 0 t.code r.code 0 0))
  | .ex2 g d a => some (encFull 0x45 g (encAlu d.num a.num 0 8 0 0 0))
  | .lg2 g d a => some (encFull 0x46 g (encAlu d.num a.num 0 8 0 0 0))
  | .sin g d a => some (encFull 0x47 g (encAlu d.num a.num 0 8 0 0 0))
  | .cos g d a => some (encFull 0x48 g (encAlu d.num a.num 0 8 0 0 0))
  | .tanh g d a => some (encFull 0x49 g (encAlu d.num a.num 0 8 0 0 0))
  | .hfma2 g d a b c t r s => some (encFull 0x4A g (encAlu d.num a.num b.num t.code r.code (b2n s) c.num))
  | .hadd2 g d a b t r s => some (encFull 0x4B g (encAlu d.num a.num b.num t.code r.code (b2n s) 0))
  | .hmul2 g d a b t r s => some (encFull 0x4C g (encAlu d.num a.num b.num t.code r.code (b2n s) 0))
  | .cvt g d a dt sy e r s =>
    some (encFull 0x50 g (encAlu d.num a.num 0 dt.code r.code (b2n s) (e.val * 2 ^ 4 + sy.code)))
  | .cvtef g d e a dt sy r s => some (encFull 0x51 g (encAlu d.num a.num e.num dt.code r.code (b2n s) sy.code))
  | .cvtmx g d s a t k => some (encFull 0x52 g (encAlu d.num a.num s.num t.code 0 0 k.val))
  | .cvtmxAcc g a => some (encFull 0x52 g (encAlu 0 a.num 0 8 1 0 0))
  | .cvtmxRep g d t k => some (encFull 0x52 g (encAlu d.num 0 0 t.code 2 0 k.val))
  | .cvtmxClr g => some (encFull 0x52 g (encAlu 0 0 0 0 3 0 0))
  | .pack g d a dt sy r s => some (encFull 0x53 g (encAlu d.num a.num 0 dt.code r.code (b2n s) sy.code))
  | .unpk g d a dt sy => some (encFull 0x54 g (encAlu d.num a.num 0 dt.code 0 0 sy.code))
  | .dot4 g d a b c sy r s => some (encFull 0x55 g (encAlu d.num a.num b.num sy.code r.code (b2n s) c.num))
  | .dot8 g d a b c r s => some (encFull 0x56 g (encAlu d.num a.num b.num 14 r.code (b2n s) c.num))
  | .shfl g m d a b t ok =>
    some (encFull 0x58 g (encAlu d.num a.num b.num t.code m.code (b2n ok.isSome) ((ok.getD 0).val * 2 ^ 8)))
  | .voteSome g p q n => some (encFull 0x59 g (encAlu 0 0 0 0 0 0 (p.val * 2 ^ 8 + q.val * 2 ^ 5 + b2n n * 2 ^ 4)))
  | .voteEvery g p q n => some (encFull 0x59 g (encAlu 0 0 0 0 1 0 (p.val * 2 ^ 8 + q.val * 2 ^ 5 + b2n n * 2 ^ 4)))
  | .voteSame g p a t => some (encFull 0x59 g (encAlu 0 a.num 0 t.code 2 0 (p.val * 2 ^ 8)))
  | .voteBits g d q n => some (encFull 0x59 g (encAlu d.num 0 0 0 3 0 (q.val * 2 ^ 5 + b2n n * 2 ^ 4)))
  | .voteCnt g d q n => some (encFull 0x59 g (encAlu d.num 0 0 0 4 0 (q.val * 2 ^ 5 + b2n n * 2 ^ 4)))
  | .redux g o d a t r s =>
    some (encFull 0x5A g (encAlu d.num a.num 0 t.code o.code 0 (r.code * 2 ^ 9 + b2n s * 2 ^ 8)))
  | .scan g o d a t x r s =>
    some (encFull 0x5B g (encAlu d.num a.num 0 t.code o.code 0 (r.code * 2 ^ 9 + b2n s * 2 ^ 8 + b2n x * 2 ^ 7)))
  | .matchAny g d a t fp => some (encFull 0x5C g (encAlu d.num a.num 0 t.code 0 (b2n fp) 0))
  | .matchAll g d p a t fp => some (encFull 0x5C g (encAlu d.num a.num 0 t.code 1 (b2n fp) (p.val * 2 ^ 8)))
  | .qswp g m d a t => some (encFull 0x5D g (encAlu d.num a.num 0 t.code m.code 0 0))
  | .qbc g d a t j => some (encFull 0x5E g (encAlu d.num a.num 0 t.code 0 0 j.val))
  | .rdfst g d a t => some (encFull 0x5F g (encAlu d.num a.num 0 t.code 0 0 0))
  | .part g n => some (encFull 0x60 g (n.val + 1))
  | .lmask g k d => some (encFull 0x61 g (encAlu d.num 0 0 0 k.code 0 0))
  | .elect g d p => some (encFull 0x62 g (encAlu d.num 0 0 0 0 0 (p.val * 2 ^ 8)))
  | .pairWord x y => some (2 ^ 63 + encSlot x * 2 ^ 32 + encSlot y * 2)
  | .ld g d base off z h => some (encFull 0x64 g (encMem d.num base.num off.toNat 0 (z.code * 2 + b2n h)))
  | .ldAcq g d base off w sc => some (encFull 0x64 g (encMem d.num base.num off.toNat 1 (b2n w * 2 ^ 3 + sc.code)))
  | .st g d base off z h => some (encFull 0x65 g (encMem d.num base.num off.toNat 0 (z.code * 2 + b2n h)))
  | .stRel g d base off w sc => some (encFull 0x65 g (encMem d.num base.num off.toNat 2 (b2n w * 2 ^ 3 + sc.code)))
  | .ldsp g d base off r z => some (encFull 0x66 g (encSp d.num base.num off.toNat (b2n r) 0 z.code))
  | .ldspAcq g d base off w => some (encFull 0x66 g (encSp d.num base.num off.toNat 0 1 (4 + b2n w)))
  | .ldspCnt g d base off r => some (encFull 0x66 g (encSp d.num base.num off.toNat (b2n r) 3 4))
  | .stsp g d base off r z => some (encFull 0x67 g (encSp d.num base.num off.toNat (b2n r) 0 z.code))
  | .stspRel g d base off w => some (encFull 0x67 g (encSp d.num base.num off.toNat 0 2 (4 + b2n w)))
  | .stspCnt g d base off r => some (encFull 0x67 g (encSp d.num base.num off.toNat (b2n r) 3 4))
  | .ldc g d base off z => some (encFull 0x68 g (encMem d.num base.num off.toNat 0 (z.code * 2)))
  | .prefL1 g base off => some (encFull 0x6C g (encMem 0 base.num off.toNat 0 0))
  | .prefL2 g base off => some (encFull 0x6C g (encMem 0 base.num off.toNat 0 2))
  | .prefEvict g base off => some (encFull 0x6C g (encMem 0 base.num off.toNat 0 4))
  | .spmapFlush g => some (encFull 0x6D g (encOwn 0 0 0 0 0))
  | .spmapQuery g d a => some (encFull 0x6D g (encOwn d.num a.num 0 1 0))
  | .residBind g d a b h p => some (encFull 0x6E g (encOwn d.num a.num b.num 0 (h.toNat * 2 ^ 8 + p.val * 2 ^ 5)))
  | .residUnbind g d h => some (encFull 0x6E g (encOwn d.num 0 0 1 (h.toNat * 2 ^ 8)))
  | .atom g d base b c o t sc =>
    some (encFull 0x69 g (d.num * 2 ^ 41 + base.num * 2 ^ 31 + b.num * 2 ^ 20 + c.num * 2 ^ 9 + o.code * 2 ^ 5 +
      t.code * 2 ^ 2 + sc.code))
  | .atomsp g d base b c o t r =>
    some (encFull 0x6A g (d.num * 2 ^ 41 + base.num * 2 ^ 30 + b.num * 2 ^ 19 + c.num * 2 ^ 8 + o.code * 2 ^ 4 +
      t.spCode * 2 ^ 2 + b2n r * 2))
  | .fence g sc => some (encFull 0x6B g (encOwn 0 0 0 0 sc.code))
  | .fencePath g c f => some (encFull 0x6B g (encOwn 0 0 0 1 (b2n f * 2 ^ 4 + b2n c * 2 ^ 3)))
  | .fenceXlat g sc => some (encFull 0x6B g (encOwn 0 0 0 2 sc.code))
  | .barJoin g a n => some (encFull 0x71 g (encOwn 0 a.num 0 0 n.val))
  | .barPost g a n => some (encFull 0x71 g (encOwn 0 a.num 0 1 n.val))
  | .gbarJoin g => some (encFull 0x72 g (encOwn 0 0 0 0 0))
  | .gbarPost g => some (encFull 0x72 g (encOwn 0 0 0 1 0))
  | .wsync g a => some (encFull 0x73 g (encOwn 0 a.num 0 0 0))
  | .waitw g d base b cc w sg sc =>
    some (encFull 0x74 g (d.num * 2 ^ 41 + base.num * 2 ^ 31 + b.num * 2 ^ 20 + cc.code * 2 ^ 17 + b2n w * 2 ^ 16 +
      b2n sg * 2 ^ 15 + sc.code * 2 ^ 12))
  | .odone g => some (encFull 0x75 g 0)
  | .cpyG2s g a => some (encFull 0x6F g (encOwn 0 a.num 0 0 0))
  | .cpyS2g g a => some (encFull 0x6F g (encOwn 0 a.num 0 1 0))
  | .cpyG2g g a => some (encFull 0x6F g (encOwn 0 a.num 0 2 0))
  | .cpyGather g a => some (encFull 0x6F g (encOwn 0 a.num 0 3 0))
  | .cpyBcast g a => some (encFull 0x6F g (encOwn 0 a.num 0 4 0))
  | .cpyFill g a => some (encFull 0x6F g (encOwn 0 a.num 0 5 0))
  | .cpyMeta g a => some (encFull 0x6F g (encOwn 0 a.num 0 6 0))
  | .cbwWait g d a => some (encFull 0x70 g (encOwn d.num a.num 0 0 0))
  | .cbwTest g d a => some (encFull 0x70 g (encOwn d.num a.num 0 1 0))
  | .cbwReset g d a => some (encFull 0x70 g (encOwn d.num a.num 0 2 0))
  | .mmac g a => some (encFull 0x76 g (encOwn 0 a.num 0 0 0))
  | .maccSt g a b nr fmt raw =>
    some (encFull 0x77 g (encOwn 0 a.num b.num 0 (fmt.val * 2 ^ 13 + b2n raw * 2 ^ 12 + nr.val)))
  | .maccLd g a b nr fmt raw ad =>
    some (encFull 0x77 g (encOwn 0 a.num b.num 1 (fmt.val * 2 ^ 13 + b2n raw * 2 ^ 12 + b2n ad * 2 ^ 6 + nr.val)))
  | .maccZero g b nr => some (encFull 0x77 g (encOwn 0 0 b.num 2 nr.val))
  | .maccRd g d b c rt r =>
    some (encFull 0x77 g (encOwn d.num c.num b.num 3 (rt.code * 2 ^ 10 + r.code * 2 ^ 7)))
  | .mqctlClaim g d q => some (encFull 0x78 g (encOwn d.num 0 0 0 q.val))
  | .mqctlRelease g d q => some (encFull 0x78 g (encOwn d.num 0 0 1 q.val))
  | .mqctlQuery g d q => some (encFull 0x78 g (encOwn d.num 0 0 2 q.val))
  | .mstatErr g d => some (encFull 0x79 g (encOwn d.num 0 0 0 0))
  | .mstatCont g a => some (encFull 0x79 g (encOwn 0 a.num 0 1 0))
  | .mstatClr g => some (encFull 0x79 g (encOwn 0 0 0 2 0))
  | .instructionFetch _ | .pendingResultWrite _ _ | .homeAccess _ | .intervalQueryAnswer _ _ _ _ _ _
  | .regionCommitComplete _ | .regionCommitFail _ | .hbmFill _ _ _ _ | .servicePage _ _
  | .translationService _ | .replicaCreate _ _ _ _ _ | .replicaCollapse _ _ | .shootdown _ _ _ _
  | .shootdownAck _ _ | .mbxApertureWrite _ _ _ | .bar0RegisterWrite _ _ | .launch _ | .write _
  | .read _ | .qflush _ | .freezeRequest _ | .thaw _ | .viReset _ | .functionLevelReset _
  | .viResetComplete _ | .viConfigure _ _ | .headgateDispatch | .blockStart _ | .workSteal _
  | .leveeRefill | .portSend _ | .powerGrant _ | .powerGrantTimeout _ | .thermalLimit _ _
  | .copyChunk _ _ | .copyComplete _ _ | .matrixKblock _ | .matrixCommandComplete _
  | .sparseStallTimeout _ | .waitwReread _ | .cbwWaitReread _ | .floorBroadcast
  | .holdingBufferArrive _ | .deferAreaRetry _ | .replayRelease _ | .replayWindowExpiry _ _
  | .stopDelivery _ | .deferredStopDelivery _ | .watchdogExpiry _ | .linkRecoveryReport _
  | .linkRecoveryTimeout _ | .goistoResume _ _ | .breakpointSet _ _ _ _ _ | .preemptionRequest _ _
  | .preemptAck _ _ | .restore _ _ _ _ | .scrubLine _ _ | .vacateAck _ | .vacateTimeout _
  | .fieldTestStart _ | .fieldTestResult _ _ | .culvertBeatFail _ _ | .scaleupPortFailure _
  | .remoteArrival _ _ | .warpExitRecord _ | .blockRetire _ | .launchEnd _ | .flumeRecordWrite _
  | .counterTick | .pcSample _ _ | .cselWrite _ _ _ | .cctlWrite _ _ | .clostWrite _ _ | .ptpLock _
  | .powerOn | .attestationRequest _ | .firmwareUpdate _ _ | .sleepExpiry _ | .linkRecovered _
  | .ieee1588LockLoss => none

/-- The word of an instruction (R98); an event of spec/95 has none. -/
def encode (i : Instr) : Option DWord := (encodeNat i).map (BitVec.ofNat 64)

/-- Whether an instruction has a word, and so is issued by a warp (R98); the events of spec/95 have none. -/
def Instr.isWord (i : Instr) : Bool := (encodeNat i).isSome

end Sys2Proof
end

