-- ==== Sys2Proof/Machine/Accept.lean ====
section
/-!
DEFINITION. Where blocks fit (spec/05 R81), the validity of a launch record (spec/04 R69, R70, spec/01 R15, spec/02 R31,
spec/03 R55, spec/23 R400, R416, spec/29 R444) and its acceptance (R71), shared by `lnch` and the mailbox.
-/

namespace Sys2Proof.Machine

/-! ### Fit (R81) -/

/-- What the resident blocks of a core hold: places, warps and vector bytes by section, reserved frames, units. -/
structure Used where
  places : Nat
  slots : List Nat
  vbytes : List Nat
  frames : Nat
  units : Nat
  deriving DecidableEq, Repr

def Used.none : Used := ⟨0, [0, 0, 0, 0], [0, 0, 0, 0], 0, 0⟩

/-- Warps of a block in a section. -/
def Launch.inSection (l : Launch) (sec : Nat) : Nat := (l.nwarps + 3 - sec) / 4

/-- One more block of a launch. -/
def Used.add (u : Used) (l : Launch) : Used :=
  { places := u.places + 1
    slots := (List.range 4).map fun k => u.slots.getD k 0 + l.inSection k
    vbytes := (List.range 4).map fun k => u.vbytes.getD k 0 + 128 * l.vregs * l.inSection k
    frames := u.frames + l.spmin
    units := u.units + l.accrows / 64 }

/-- Nothing is over the core's capacity. -/
def Used.within (u : Used) : Bool :=
  decide (u.places ≤ 32) && u.slots.all (fun n => decide (n ≤ Config.sectionSlots)) &&
  u.vbytes.all (fun n => decide (n ≤ 256 * 1024)) && decide (u.frames ≤ 384) && decide (u.units ≤ 8)

/-- What the resident blocks of core [c] hold. -/
def State.used (s : State) (c : Nat) : Used :=
  s.blocks.foldl (fun (u : Used) b => if b.state == .resident && b.core == c then u.add (s.launch b.launch) else u) Used.none

/-- How many more blocks of a launch fit, counted from [u], up to the fuel. -/
def Used.room (u : Used) (l : Launch) : Nat → Nat
  | 0 => 0
  | n + 1 => if (u.add l).within then 1 + (u.add l).room l n else 0

/-- The enabled cores of a VI's partition. -/
def State.partition (s : State) (vi : Nat) : List Nat :=
  (List.range Config.cores).filter fun c => (s.vi vi).cfg.partition.contains c && (s.core c).enabled

/-- Whether [n] blocks of a launch fit some of the cores, by their room. -/
def roomFor (n : Nat) (room : Nat → Nat) (cs : List Nat) : Bool :=
  decide (n ≤ cs.foldl (fun a c => a + room c) 0)

def onDies (ds : List Nat) (cs : List Nat) : List Nat := cs.filter fun c => ds.contains (c / Config.dieCores)

/-- The sets of dies that a gang may span (R70, R87, R88). -/
def Launch.dieSets (l : Launch) : List (List Nat) :=
  if !l.span then [[0], [1], [2], [3]]
  else if l.far then [[0, 1, 2, 3]]
  else [[0, 1], [0, 2], [0, 3], [1, 2], [1, 3], [2, 3]]

/-- The gang fits under its span rule. -/
def Launch.gangFits (l : Launch) (room : Nat → Nat) (cs : List Nat) : Bool :=
  l.dieSets.any fun ds => roomFor l.gang room (onDies ds cs)

/-- One block fits an otherwise empty core of the partition (R70). -/
def State.blockFitsEmpty (s : State) (l : Launch) : Bool := !(s.partition l.vi).isEmpty && (Used.none.add l).within

def State.gangFitsEmpty (s : State) (l : Launch) : Bool :=
  l.gangFits (fun _ => Used.none.room l 16) (s.partition l.vi)

/-- The partition has two clusters that each hold one block, or one gang (R444). -/
def State.twoClusters (s : State) (l : Launch) : Bool :=
  let r := Used.none.room l 16
  let ok (k : Nat) : Bool := roomFor l.gang (fun _ => r) ((s.partition l.vi).filter fun c => c / 8 == k)
  decide (2 ≤ ((List.range 20).filter ok).length)

/-! ### The record (R69, R70) -/

/-- An address field: canonical and a multiple of [n]. -/
def addrOk (a n : Nat) : Bool := canonical a && a % n == 0

def State.dwordAt (s : State) (vi va : Nat) : Option Nat := (s.paOf vi va .read).map s.dword

/-- Window [n] meets R31. -/
def Launch.windowOk (l : Launch) (n : Nat) : Bool :=
  let w := l.win n
  if n < l.nwin then
    bits w 63 42 == 0 && decide (1 ≤ winPages w) && decide (winPages w ≤ 4096) && decide (winPage w + winPages w ≤ l.sppages) &&
    winParam w % 8 == 0 && decide (winParam w < l.paramsz) &&
    (List.range l.nwin).all fun m => m == n ||
      decide (winPage w + winPages w ≤ winPage (l.win m)) || decide (winPage (l.win m) + winPages (l.win m) ≤ winPage w)
  else w == 0

/-- The arm list of a launch (R416), none where it breaks its layout. -/
def State.armList (s : State) (l : Launch) : Option (List Nat) :=
  if l.arm = 0 then some []
  else
    match s.dwordAt l.vi l.arm with
    | none => none
    | some d =>
      if d = 0 || decide (65535 < d) then none
      else
        (List.range d).foldl (fun (acc : Option (List Nat)) k =>
          match acc, s.dwordAt l.vi (l.arm + 8 * (k + 1)) with
          | some xs, some b =>
            if decide (b < 2 ^ 40) && (match xs.head? with | some p => decide (p < b) | none => true) then some (b :: xs) else none
          | _, _ => none) (some [])

/-- The header of the log that a replay launch names (R400, R410). -/
def State.logHeaderOk (s : State) (l : Launch) : Bool :=
  let d (k : Nat) : Option Nat := s.dwordAt l.vi (l.olog + 8 * k)
  (match d 0 with | some x => bits x 63 16 == 0x4F4C_4731_0001 | none => false) &&
  (match d 1 with | some x => bits x 7 0 == 1 | none => false) &&
  (match d 5 with | some x => bits x 40 0 == l.nblocks | none => false)

/-- The deferred area translates with write permission throughout (R71). -/
def State.deferOk (s : State) (l : Launch) : Bool :=
  (List.range l.defersz).all fun k => (s.paOf l.vi (l.defer + 4096 * k) .write).isSome

/-- Dword [i] of a record meets its conditions. -/
def State.recordDword (s : State) (l : Launch) (i : Nat) : Bool :=
  let d := l.dw i
  match i with
  | 0 =>
    bits d 63 57 == 0 && bits d 31 0 == 0x0100_0001 && decide (1 ≤ l.gang) && decide (l.gang ≤ 16) && l.mode != 3 &&
    l.nblocks % l.gang == 0 && (!l.rdnt || s.twoClusters l) && (!s.blockFitsEmpty l || s.gangFitsEmpty l)
  | 1 => addrOk d 8
  | 2 => d == 2 ^ 64 - 1 || addrOk d 8
  | 3 =>
    !bit d 31 && decide (1 ≤ l.gx) && decide (1 ≤ l.gy) && decide (1 ≤ l.gz) &&
    (!(l.det || l.mode != 0) || decide (l.nblocks ≤ 2 ^ 40))
  | 4 =>
    bits d 63 43 == 0 && bits d 31 27 == 0 && bits d 15 11 == 0 && decide (1 ≤ l.bx) && decide (1 ≤ l.by_) &&
    decide (1 ≤ l.bz) && decide (l.threads ≤ 1024) && s.blockFitsEmpty l
  | 5 =>
    bits d 63 57 == 0 && bits d 47 45 == 0 && bits d 31 25 == 0 && bits d 15 11 == 0 && decide (l.spmin ≤ 384) &&
    decide (l.spmin ≤ l.sppages) && decide (l.sppages ≤ 4096) && decide (8 ≤ l.sregs) && decide (l.sregs ≤ 256) &&
    l.sregs % 8 == 0 && decide (64 ≤ l.vregs) && decide (l.vregs ≤ 1536) && l.vregs % 64 == 0
  | 6 =>
    bits d 63 48 == 0 && !bit d 39 && !bit d 35 && bits d 31 29 == 0 && bits d 15 10 == 0 && decide (l.nwin ≤ 4) &&
    decide (l.ndep ≤ 4) && decide (l.paramsz ≤ 4096) && l.paramsz % 8 == 0 && decide (l.accrows ≤ 512) && l.accrows % 64 == 0
  | 8 => addrOk d 8 && (l.paramsz != 0 || d == 0)
  | 10 | 11 | 12 | 13 =>
    if i - 10 < l.ndep then addrOk d 8 && (s.paOf l.vi d .read).isSome else d == 0
  | 14 | 15 | 16 | 17 | 18 | 19 | 20 | 21 => if bit l.fmtset (i - 14) then (slotOf d).isSome else d == 0
  | 22 | 23 | 24 | 25 => l.windowOk (i - 22)
  | 27 => if l.mode = 0 then d == 0 else addrOk d 4096 && (l.mode != 2 || s.logHeaderOk l)
  | 28 => (l.mode != 0 || bits d 31 0 == 0) && (l.det || bits d 63 32 == 0)
  | 29 => if l.det then addrOk d 4096 && s.deferOk l else d == 0
  | 30 => addrOk d 8 && (s.armList l).isSome
  | 31 => d == 0
  | _ => true

/-- The least dword of a record that breaks R70, none for a valid record. -/
def State.recordError (s : State) (l : Launch) : Option Nat := (List.range 32).find? fun i => !s.recordDword l i

/-! ### Acceptance (R71) -/

/-- The cause that makes a completion word unusable (R71, R188). -/
def State.cbwUnusable (s : State) (vi a : Nat) : Option Nat :=
  if a % 8 != 0 then some 0x10
  else if a == 0 || !canonical a then some 0x11
  else if (s.paOf vi a .write).isNone then some 0x12
  else none

/-- Accepted launches of a VI that still have undispatched blocks (R74). -/
def State.waitingLaunches (s : State) (vi : Nat) : Nat :=
  (s.launches.filter fun l => l.vi == vi && l.state != .ended && (decide (l.next < l.nblocks) || !l.returned.isEmpty)).length

/-- The launch number after [n]; 0 is never assigned (R16). -/
def nextNumber (n : Nat) : Nat := if n + 1 < 2 ^ 32 then n + 1 else 1

/-- A record, its completion word usable, is accepted into queue [q] or rejected: the launch number or 0. A count that would pass
2^32 − 1 wraps, a DESIGN CHOICE (notes/assumptions/96.md). -/
def State.accept (s : State) (vi q : Nat) (rcd : List Nat) : Nat × State :=
  let l : Launch := { Launch.blank with vi := vi, queue := q, rcd := rcd, state := .queued, accepted := s.clock, failed := 0 }
  match s.recordError l with
  | some i => (0, s.hostCbw vi l.cbw fun d => cbwEnd d 2 i false)
  | none =>
    let n := nextNumber (s.vi vi).numbers
    let li := s.launches.length
    let s := s.hostCbw vi l.cbw fun d => cbwWord (cbwStatus d) (cbwErr d) (cbwCount d + 1)
    let s := { s with launches := s.launches ++ [{ l with num := n, armed := (s.armList l).getD [] }] }
    let s := s.updVi vi fun v =>
      { v with numbers := n
               queues := (List.range 64).map fun k => v.queues.getD k [] ++ (if k = q then [li] else []) }
    (n, s.openLog li)

end Sys2Proof.Machine
end

