-- ==== Sys2Proof/Machine/Special.lean ====
section
/-!
DEFINITION. The special functions (spec/11 R213, R219, R220): the exact cases, the faithful neighbours, and the
bounded approximations, whose choice within the bounds is free (Config). The series here only say where the
bounds lie; they work in fixed point, with so many bits that no candidate stands between a bound and what is known of it.
-/

namespace Sys2Proof.Machine

/-! ### Fixed-point series, of 288 fraction bits unless said -/

/-- ln 2 × 2^288, cut off. -/
def ln2Fix : Nat := 0xb17217f7d1cf79abc9e3b39803f2f6af40f343267298b62d8a0d175b8baafa2be7b87620

/-- log2 e × 2^288, cut off. -/
def log2eFix : Nat := 0x171547652b82fe1777d0ffda0d23a7d11d6aef551bad2b4b1164a2cd9a342648fbc3887ee

/-- 2/π × 2^448, cut off. -/
def twoOverPi : Nat :=
  0xa2f9836e4e441529fc2757d1f534ddc0db6295993c439041fe5163abdebbc561b7246e3a424dd2e006492eea09d1921cfe1deb1cb129a73e

/-- π/2 × 2^288, cut off. -/
def halfPi : Nat := 0x1921fb54442d18469898cc51701b839a252049c1114cf98e804177d4c76273644a29410f3

def expGo (x : Nat) : Nat → Nat → Nat → Nat → Nat
  | 0, _, _, acc => acc
  | n + 1, k, term, acc =>
    let t := ((term * x) >>> 288) / k
    expGo x n (k + 1) t (acc + t)

/-- 2^(f / 2^288) × 2^288 from below, for f < 2^288. -/
def exp2Frac (f : Nat) : Nat := expGo ((f * ln2Fix) >>> 288) 64 1 (2 ^ 288) (2 ^ 288)

def log2Go : Nat → Nat → Nat → Nat
  | 0, _, acc => acc
  | n + 1, y, acc =>
    let s := (y * y) >>> 288
    if 2 ^ 289 ≤ s then log2Go n (s / 2) (2 * acc + 1) else log2Go n s (2 * acc)

/-- The first 128 fraction bits of log2 (y / 2^288), for y in [2^288, 2^289). -/
def log2Frac (y : Nat) : Nat := log2Go 128 y 0

def trigGo (x2 : Nat) : Nat → Nat → Int → Int → Int
  | 0, _, _, acc => acc
  | n + 1, k, term, acc =>
    let t := -(term * x2 / 2 ^ 288) / ((k + 1) * (k + 2) : Nat)
    trigGo x2 n (k + 2) t (acc + t)

/-- sin (y / 2^288) × 2^288 and cos, for y up to π/2. -/
def sinFix (y : Nat) : Int := trigGo ((y * y) >>> 288) 38 1 y y
def cosFix (y : Nat) : Int := trigGo ((y * y) >>> 288) 38 0 (2 ^ 288) (2 ^ 288)

/-- The argument of a finite magnitude in quarter turns, modulo 4, of 288 fraction bits. -/
def quarterTurns (m : Nat) (e : Int) : Nat :=
  let k := e - 448 + 288
  (((m * twoOverPi) <<< k.toNat) >>> (-k).toNat) % 2 ^ 290

/-- sin (or cos) of a finite magnitude × 2^288. -/
def trigFix (isCos : Bool) (m : Nat) (e : Int) : Int :=
  let t := quarterTurns m e
  let y := ((t % 2 ^ 288) * halfPi) >>> 288
  match (t / 2 ^ 288 + if isCos then 1 else 0) % 4 with
  | 0 => sinFix y
  | 1 => cosFix y
  | 2 => -sinFix y
  | _ => -cosFix y

/-- tanh of a nonzero finite magnitude below 64 × 2^288. -/
def tanhFix (m : Nat) (e : Int) : Int :=
  let k := e + 1
  let z := (((m * log2eFix) <<< k.toNat) >>> (-k).toNat)
  let x := exp2Frac (z % 2 ^ 288) <<< (z / 2 ^ 288)
  ((x - 2 ^ 288) * 2 ^ 288 / (x + 2 ^ 288) : Nat)

/-! ### Results within the bounds of R219 -/

/-- What is known of a true value: it is [v] / 2^288 but for [off] / 2^288, or [off] is 0 and it lies so little towards 0 from [v] that no
candidate tells them apart. -/
structure Known where
  v : Int
  off : Nat

/-- A candidate × 2^288. -/
def candFix (cand : Nat) : Option Int :=
  match decFloat fmtF32 cand with
  | .num s m e => some (if s then -((m <<< (e + 288).toNat : Nat) : Int) else ((m <<< (e + 288).toNat : Nat) : Int))
  | _ => none

/-- A candidate is within 2^−22 of the value, and within [−1, 1] where [unit] says that the result is. -/
def withinBound (unit : Bool) (cand : Nat) (k : Known) : Bool :=
  match candFix cand with
  | some c => decide ((c - k.v).natAbs + k.off ≤ 2 ^ 266) && (!unit || decide (c.natAbs ≤ 2 ^ 288))
  | none => false

/-- The candidate, if it keeps the bound, else the value rounded to nearest. -/
def boundedF32 (unit : Bool) (cand : Nat) (k : Known) : Nat :=
  if withinBound unit cand k then cand
  else (roundTo fmtF32 (.fin (decide (k.v < 0)) (.rat k.v.natAbs 1 (-288))) .rn false 0).1

/-- The exponent of the leading bit of a nonzero magnitude. -/
def leadOf (m : Nat) (e : Int) : Int := (Nat.log2 m : Int) + e

/-- cos of a nonzero finite magnitude; a small one's is just below 1. -/
def cosNear (m : Nat) (e : Int) : Known := if leadOf m e < -120 then ⟨2 ^ 288, 0⟩ else ⟨trigFix true m e, 2 ^ 24⟩

/-- tanh of a nonzero finite magnitude; a large one's is just below 1. -/
def tanhNear (m : Nat) (e : Int) : Known := if 6 ≤ leadOf m e then ⟨2 ^ 288, 0⟩ else ⟨tanhFix m e, 2 ^ 24⟩

/-- The flags of an inexact approximation (R220). -/
def approxFlags (r : Nat) : Nat := if r % 2 ^ 31 < 2 ^ 23 then flNX ||| flUF else flNX

/-- The faithful result for a magnitude strictly between n and n + 1 in units of 2^e: the neighbour above when [up]. -/
def faithful (neg : Bool) (n : Nat) (e : Int) (up : Bool) : Nat × Nat :=
  roundTo fmtF32 (.fin neg (.rat (2 * n + 1) 1 (e - 1))) (if up then .rp else .rm) false 0

/-- R213, R219, R220: 1 / √A. -/
def fRsq (f : Fmt) (isF64 : Bool) (a : Nat) : Nat × Nat :=
  match decFloat f a with
  | .snan => (f.nanBits, flNV)
  | .qnan => (f.nanBits, 0)
  | .inf s => if s then (f.nanBits, flNV) else (0, 0)
  | .num s m e =>
    if m = 0 then (f.infBits + (if s then f.signBit else 0), flDZ)
    else if s then (f.nanBits, flNV)
    else
      let (m', e') := evenExp m e
      roundTo f (.fin false (.root 1 m' (-(e' / 2)))) (if Config.rsqUp isF64 (BitVec.ofNat 64 a) then .rp else .rz) false 0

/-- R213, R219, R220: 2^A. -/
def fEx2 (a : Nat) : Nat × Nat :=
  let f := fmtF32
  match decFloat f a with
  | .snan => (f.nanBits, flNV)
  | .qnan => (f.nanBits, 0)
  | .inf s => if s then (0, 0) else (f.infBits, 0)
  | .num s m e =>
    let v : Int := if s then -(m : Int) else m
    let i := v * 2 ^ e.toNat / 2 ^ (-e).toNat
    let whole := decide (v * 2 ^ e.toNat % 2 ^ (-e).toNat = 0)
    let up := Config.ex2Up (BitVec.ofNat 32 a)
    if 128 ≤ i then (f.infBits, flOF ||| flNX)
    else if i < -150 then (0, flUF ||| flNX)
    else if whole then
      if i = -150 then (if up then 1 else 0, flUF ||| flNX)
      else roundTo f (.fin false (.rat 1 1 i)) .rn false 0
    else
      let fr := ((v * 2 ^ (e + 288).toNat / 2 ^ (-(e + 288)).toNat) % 2 ^ 288).toNat
      faithful false (exp2Frac fr) (i - 288) up

/-- R213, R219, R220: log2 A. -/
def fLg2 (a : Nat) : Nat × Nat :=
  let f := fmtF32
  match decFloat f a with
  | .snan => (f.nanBits, flNV)
  | .qnan => (f.nanBits, 0)
  | .inf s => if s then (f.nanBits, flNV) else (f.infBits, 0)
  | .num s m e =>
    if m = 0 then (f.infBits + f.signBit, flDZ)
    else if s then (f.nanBits, flNV)
    else
      let b := Nat.log2 m
      let k : Int := (b : Int) + e
      if m = 2 ^ b then roundTo f (xInt k) .rn false 0
      else
        let fr := log2Frac (m <<< (288 - b))
        if k = 0 ∨ k = -1 then
          let r := boundedF32 false (Config.lg2Approx (BitVec.ofNat 32 a)).toNat ⟨(k * 2 ^ 128 + fr) * 2 ^ 160, 2 ^ 168⟩
          (r, approxFlags r)
        else if 0 ≤ k then faithful false (k.toNat * 2 ^ 128 + fr) (-128) (Config.lg2Up (BitVec.ofNat 32 a))
        else faithful true ((-k).toNat * 2 ^ 128 - fr - 1) (-128) (Config.lg2Up (BitVec.ofNat 32 a))

/-- A candidate's magnitude with the sign [neg]; used where a function is odd. -/
def withSign (neg : Bool) (r : Nat) : Nat := if neg then r ^^^ 2 ^ 31 else r

/-- R213, R219, R220: sin A, odd. -/
def fSin (a : Nat) : Nat × Nat :=
  let f := fmtF32
  match decFloat f a with
  | .snan => (f.nanBits, flNV)
  | .qnan => (f.nanBits, 0)
  | .inf _ => (f.nanBits, flNV)
  | .num s m e =>
    if m = 0 then (a, 0)
    else
      let r := boundedF32 true (Config.sinApprox (BitVec.ofNat 32 (a % 2 ^ 31))).toNat ⟨trigFix false m e, 2 ^ 24⟩
      (withSign s r, approxFlags r)

/-- R213, R219, R220: cos A, even. -/
def fCos (a : Nat) : Nat × Nat :=
  let f := fmtF32
  match decFloat f a with
  | .snan => (f.nanBits, flNV)
  | .qnan => (f.nanBits, 0)
  | .inf _ => (f.nanBits, flNV)
  | .num _ m e =>
    if m = 0 then (0x3F800000, 0)
    else
      let r := boundedF32 true (Config.cosApprox (BitVec.ofNat 32 (a % 2 ^ 31))).toNat (cosNear m e)
      (r, approxFlags r)

/-- R213, R219, R220: tanh A, odd. -/
def fTanh (a : Nat) : Nat × Nat :=
  let f := fmtF32
  match decFloat f a with
  | .snan => (f.nanBits, flNV)
  | .qnan => (f.nanBits, 0)
  | .inf s => (withSign s 0x3F800000, 0)
  | .num s m e =>
    if m = 0 then (a, 0)
    else
      let r := boundedF32 true (Config.tanhApprox (BitVec.ofNat 32 (a % 2 ^ 31))).toNat (tanhNear m e)
      (withSign s r, approxFlags r)

end Sys2Proof.Machine
end

