-- ==== Sys2Proof/Machine/Float.lean ====
section
/-!
DEFINITION. The floating-point words and the special functions (spec/11 R212 to R221).
-/

namespace Sys2Proof.Machine

/-- Draws that a rounding code takes for [n] values (R52). -/
def rndDraws (r : Rnd) (n : Nat) : Nat := if r = .rs then n else 0

/-- A rounded word over whole values. -/
def fOf (g : Guard) (d : Reg) (t : Ty) (srcs : List (Reg × Ty)) (r : Rnd) : Alu :=
  { aluOf g d t.regs srcs with draws := rndDraws r 1 }

/-- A value of a float type. -/
def fv (t : Ty) (a : Nat) : FVal := decFloat (tyFmt t) (a % 2 ^ t.width)

def execFadd (g : Guard) (d a b : Reg) (t : Ty) (r : Rnd) (sat : Bool) (s : State) : Out :=
  s.alu (fOf g d t [(a, t), (b, t)] r) fun v _ u => .of (fAdd (tyFmt t) (fv t (v 0)) (fv t (v 1)) r sat (u 0))

def execFsub (g : Guard) (d a b : Reg) (t : Ty) (r : Rnd) (sat : Bool) (s : State) : Out :=
  s.alu (fOf g d t [(a, t), (b, t)] r) fun v _ u => .of (fAdd (tyFmt t) (fv t (v 0)) (fv t (v 1)).flip r sat (u 0))

def execFmul (g : Guard) (d a b : Reg) (t : Ty) (r : Rnd) (sat : Bool) (s : State) : Out :=
  s.alu (fOf g d t [(a, t), (b, t)] r) fun v _ u => .of (fMul (tyFmt t) (fv t (v 0)) (fv t (v 1)) r sat (u 0))

def execFfma (g : Guard) (d a b c : Reg) (t : Ty) (r : Rnd) (sat : Bool) (s : State) : Out :=
  s.alu (fOf g d t [(a, t), (b, t), (c, t)] r) fun v _ u =>
    .of (fFma (tyFmt t) (fv t (v 0)) (fv t (v 1)) (fv t (v 2)) r sat (u 0))

def execFmin (g : Guard) (d a b : Reg) (t : Ty) (nan : Bool) (s : State) : Out :=
  s.alu (aluOf g d t.regs [(a, t), (b, t)]) fun v _ _ => .of (fMinMax (tyFmt t) false nan (v 0) (v 1))

def execFmax (g : Guard) (d a b : Reg) (t : Ty) (nan : Bool) (s : State) : Out :=
  s.alu (aluOf g d t.regs [(a, t), (b, t)]) fun v _ _ => .of (fMinMax (tyFmt t) true nan (v 0) (v 1))

def execFcmp (g : Guard) (p : Fin 8) (a b : Reg) (t : Ty) (c : FCond) (k : Comb) (s : State) : Out :=
  s.alu ⟨g, noReg, 0, noReg, 0, [(a, t), (b, t)], combPin k p, some p.val, true, 0, false⟩ fun v q _ =>
    let r := fCompare (tyFmt t) c (v 0) (v 1)
    ⟨0, r.2, combine k r.1 (q p.val)⟩

def execFclass (g : Guard) (d a : Reg) (t : Ty) (s : State) : Out :=
  s.alu (aluOf g d 1 [(a, t)]) fun v _ _ => .val_ (fClass (tyFmt t) (v 0 % 2 ^ t.width))

def execFrnd (g : Guard) (d a : Reg) (t : Ty) (r : Rnd) (s : State) : Out :=
  s.alu (fOf g d t [(a, t)] r) fun v _ u => .of (fRound (tyFmt t) (v 0) r (u 0))

def execFscale (g : Guard) (d a b : Reg) (t : Ty) (r : Rnd) (sat : Bool) (s : State) : Out :=
  s.alu (fOf g d t [(a, t), (b, .i32)] r) fun v _ u =>
    .of (fScale (tyFmt t) (fv t (v 0)) (intVal .i32 (v 1)) r sat (u 0))

/-! ### Special functions (R219, R220): their results are pending (R140) -/

/-- What a special function computes from its source, its type and its draws. -/
inductive SfOp where
  | rcp (r : Rnd) | rsq | sqrt (r : Rnd) | ex2 | lg2 | sin | cos | tanh
  deriving DecidableEq, Repr

def sfVal (o : SfOp) (t : Ty) (a u : Nat) : Nat × Nat :=
  match o with
  | .rcp r => fRcp (tyFmt t) (fv t a) r u
  | .rsq => fRsq (tyFmt t) (t == .f64) a
  | .sqrt r => fSqrt (tyFmt t) (fv t a) r u
  | .ex2 => fEx2 a
  | .lg2 => fLg2 a
  | .sin => fSin a
  | .cos => fCos a
  | .tanh => fTanh a

def sfDraws (o : SfOp) : Nat :=
  match o with
  | .rcp r => rndDraws r 1
  | .sqrt r => rndDraws r 1
  | _ => 0

def sfAlu (o : SfOp) (g : Guard) (d a : Reg) (t : Ty) : Alu :=
  { aluOf g d t.regs [(a, t)] with draws := sfDraws o, pend := true }

def sfFn (o : SfOp) (t : Ty) : LaneFn := fun v _ u => .of (sfVal o t (v 0) (u 0))

def execRcp (g : Guard) (d a : Reg) (t : Ty) (r : Rnd) (s : State) : Out := s.alu (sfAlu (.rcp r) g d a t) (sfFn (.rcp r) t)
def execRsq (g : Guard) (d a : Reg) (t : Ty) (s : State) : Out := s.alu (sfAlu .rsq g d a t) (sfFn .rsq t)
def execSqrt (g : Guard) (d a : Reg) (t : Ty) (r : Rnd) (s : State) : Out := s.alu (sfAlu (.sqrt r) g d a t) (sfFn (.sqrt r) t)
def execEx2 (g : Guard) (d a : Reg) (s : State) : Out := s.alu (sfAlu .ex2 g d a .f32) (sfFn .ex2 .f32)
def execLg2 (g : Guard) (d a : Reg) (s : State) : Out := s.alu (sfAlu .lg2 g d a .f32) (sfFn .lg2 .f32)
def execSin (g : Guard) (d a : Reg) (s : State) : Out := s.alu (sfAlu .sin g d a .f32) (sfFn .sin .f32)
def execCos (g : Guard) (d a : Reg) (s : State) : Out := s.alu (sfAlu .cos g d a .f32) (sfFn .cos .f32)
def execTanh (g : Guard) (d a : Reg) (s : State) : Out := s.alu (sfAlu .tanh g d a .f32) (sfFn .tanh .f32)

/-! ### Packed pairs (R221) -/

def halfOp (t : Ty) (f : Nat → Nat × Nat) : Nat × Nat := joinElems t [f 0, f 1]

def fe (t : Ty) (i a : Nat) : FVal := decFloat (tyFmt t) (elem t i a)

def execHfma2 (g : Guard) (d a b c : Reg) (t : Ty) (r : Rnd) (sat : Bool) (s : State) : Out :=
  s.alu { aluOf g d 1 [(a, t), (b, t), (c, t)] with draws := rndDraws r 2 } fun v _ u =>
    .of (halfOp t fun i => fFma (tyFmt t) (fe t i (v 0)) (fe t i (v 1)) (fe t i (v 2)) r sat (u i))

def execHadd2 (g : Guard) (d a b : Reg) (t : Ty) (r : Rnd) (sat : Bool) (s : State) : Out :=
  s.alu { aluOf g d 1 [(a, t), (b, t)] with draws := rndDraws r 2 } fun v _ u =>
    .of (halfOp t fun i => fAdd (tyFmt t) (fe t i (v 0)) (fe t i (v 1)) r sat (u i))

def execHmul2 (g : Guard) (d a b : Reg) (t : Ty) (r : Rnd) (sat : Bool) (s : State) : Out :=
  s.alu { aluOf g d 1 [(a, t), (b, t)] with draws := rndDraws r 2 } fun v _ u =>
    .of (halfOp t fun i => fMul (tyFmt t) (fe t i (v 0)) (fe t i (v 1)) r sat (u i))

end Sys2Proof.Machine
end

