-- ==== Sys2Proof/Machine/Convert.lean ====
section
/-!
DEFINITION. Conversions, error feedback, block quantisation and its histogram, packing and the packed dot products (spec/12
R227 to R238), and the pair words of spec/06 R117 to R123 with the slot effects of R208, R222 and R239.
-/

namespace Sys2Proof.Machine

/-! ### Conversions (R228 to R231) -/

/-- A conversion to a wider float format, which is exact (R228). -/
def widens (dt st : Ty) : Bool := dt.isFloat && st.isFloat && decide (st.width < dt.width)

/-- A conversion draws for the value it rounds in mode 5; one between integers rounds nothing (R225), and in one to a wider format the
rounding field has no effect (R228): notes/assumptions/106.md. -/
def cvtDraws (dt st : Ty) (r : Rnd) : Nat := if (dt.isInt && st.isInt) || widens dt st then 0 else rndDraws r 1

def execCvt (g : Guard) (d a : Reg) (dt st : Ty) (e : Fin 8) (r : Rnd) (sat : Bool) (s : State) : Out :=
  s.alu { aluOf g d dt.regs [(a, st)] with draws := cvtDraws dt st r } fun v _ u =>
    .of (convert dt st (if st.perReg = 1 then v 0 else elem st e.val (v 0)) r sat (u 0))

def execCvtef (g : Guard) (d r a : Reg) (dt st : Ty) (rnd : Rnd) (sat : Bool) (s : State) : Out :=
  s.alu { aluOf g d 1 [(a, st)] with e := r, en := st.regs, draws := rndDraws rnd 1 } fun v _ u =>
    let (q, x, fl) := convertResidual dt st (v 0) rnd sat (u 0)
    ⟨q % 2 ^ 32 + 2 ^ 32 * x, fl, false⟩

/-- Register [e] of a group. -/
def regAdd (r : Reg) (e : Nat) : Reg :=
  match r with
  | .v k => if h : k.val + e < 1536 then .v ⟨k.val + e, h⟩ else noReg
  | .s k => if h : k.val + e < 256 then .s ⟨k.val + e, h⟩ else noReg
  | y => y

def execPack (g : Guard) (d a : Reg) (dt st : Ty) (r : Rnd) (sat : Bool) (s : State) : Out :=
  let n := dt.perReg
  s.alu { aluOf g d 1 ((List.range n).map fun e => (regAdd a e, st)) with draws := if dt.isInt then 0 else rndDraws r n }
    fun v _ u => .of (joinElems dt ((List.range n).map fun e => convert dt st (v e) r sat (u e)))

def execUnpk (g : Guard) (d a : Reg) (dt st : Ty) (s : State) : Out :=
  let n := st.perReg
  s.alu (aluOf g d n [(a, st)]) fun v _ _ =>
    .of (joinElems .b32 ((List.range n).map fun e => convert dt st (elem st e (v 0)) .rn false 0))

/-! ### Packed dot products (R237, R238) -/

def execDot4 (g : Guard) (d a b c : Reg) (st : Ty) (r : Rnd) (sat : Bool) (s : State) : Out :=
  if st.isInt then
    s.alu (aluOf g d 1 [(a, st), (b, st), (c, if st.signed then .i32 else .n32)]) fun v _ _ => .of (dotInt st (v 0) (v 1) (v 2) sat)
  else
    s.alu (fOf g d .f32 [(a, st), (b, st), (c, .f32)] r) fun v _ u => .of (dotFloat st (v 0) (v 1) (v 2) r sat (u 0))

def execDot8 (g : Guard) (d a b c : Reg) (r : Rnd) (sat : Bool) (s : State) : Out :=
  s.alu (fOf g d .f32 [(a, .e2m1), (b, .e2m1), (c, .f32)] r) fun v _ u => .of (dotFloat .e2m1 (v 0) (v 1) (v 2) r sat (u 0))

/-! ### Block quantisation (R232 to R234) -/

/-- The emax that an element type has in block scaling. -/
def SlotWord.scaleOf (k : SlotWord) (vs : List FVal) : Nat :=
  if k.scale = 1 then blockScale vs k.hist k.pct (emaxOf k.elem) else 0x7F

def cvtmxFoot (g : Guard) (d sc a : Reg) : Foot :=
  { reads := guardIds g ++ regIds 1 a, writes := regIds 1 d ++ regIds 1 sc, pend := true, replay := true, priv := false, pair := false }

/-- The result of a quantising `cvtmx`: lanes that are no helpers supply the block; every passing lane is narrowed; S receives the scale
whether or not a lane passes, but for a word that never takes effect (R36, R232). The NV of a scale of 0xFF is raised once for the word;
the record of its trap names the lowest lane that supplies the block (notes/assumptions/101.md). -/
def State.cvtmxResult (s : State) (x : Issue) (g : Guard) (d sc a : Reg) (k : SlotWord) : Result :=
  let w := s.warp x.w
  let src : Src := ⟨a, .f32, 0⟩
  let act := s.passing x g
  let val (l : Nat) : FVal := decFloat fmtF32 (s.src x src l)
  let scl := k.scaleOf ((lanesOf (mDiff act w.allHelpers)).map val)
  let outs := (lanesOf act).map fun l => (l, narrowSlot (val l) k scl (s.drawWord x l k.stream 0))
  let low := (lowLane (mDiff act w.allHelpers)).getD 0
  { ws := (Writes.concat (outs.map fun o => regWrites d 1 o.1 o.2.1)).append (if guardNever g then Writes.none else regWrites sc 1 0 scl)
    flags := (if k.scale == 1 && scl == 0xFF && act != 0 then [(low, flNV)] else []) ++ outs.map fun o => (o.1, o.2.2)
    full := (if w.covers act then regIds 1 d else []) ++ (if guardNever g then [] else regIds 1 sc)
    drawn := act, draws := rndDraws k.rnd 1, srcs := [src], lanes := act }

/-- Slot [k] of the launch when it is there with the element type. -/
def State.slotFor (s : State) (x : Issue) (el : Ty) (k : Nat) : Option SlotWord :=
  match (s.launchOf x.w).fmt k with
  | some y => if y.elem = el then some y else none
  | none => none

def execCvtmx (g : Guard) (d sc a : Reg) (el : Ty) (k : Fin 8) (s : State) : Out :=
  s.withIssue fun x =>
    match s.enter x (cvtmxFoot g d sc a) with
    | .hold s => ok s
    | .go s =>
      match s.slotFor x el k.val with
      | none => ok (s.takeStop x.w (x.stop 0x01 x.active))
      | some y => ok (s.deposit x (cvtmxFoot g d sc a) true (s.cvtmxResult x g d sc a y))

/-- The histogram after one value (R233). -/
def histAdd (h : Sparse Nat × Bool) (x : FVal) : Sparse Nat × Bool :=
  match x with
  | .num _ m _ =>
    if m = 0 then h
    else
      let b := (floorLog2F x + 149).toNat
      (sset h.1 b (min (2 ^ 32 - 1) (sget h.1 b 0 + 1)) 0, h.2)
  | _ => (h.1, true)

def execCvtmxAcc (g : Guard) (a : Reg) (s : State) : Out :=
  let f := foot (guardIds g ++ regIds 1 a) []
  s.withIssue fun x =>
    match s.enter x f with
    | .hold s => ok s
    | .go s =>
      let act := mDiff (s.passing x g) (s.warp x.w).allHelpers
      let h := (lanesOf act).foldl (fun h l => histAdd h (decFloat fmtF32 (s.src x ⟨a, .f32, 0⟩ l))) ((s.warp x.w).hist, (s.warp x.w).nonfin)
      ok ((s.updWarp x.w fun w => { w with hist := h.1, nonfin := h.2 }).finish x f [] x.next false)

/-- block_scale over the histogram (R234): the bin of the chosen rank. -/
def histScale (h : Sparse Nat) (nonfin : Bool) (k : SlotWord) : Nat :=
  let n := h.foldl (fun (n : Nat) (e : Nat × Nat) => n + e.2) 0
  if nonfin then 0xFF
  else if n = 0 then 0
  else
    let r := if k.hist then ((k.pct + 1) * n + 255) / 256 else n
    let b := (h.foldl (fun (acc : Nat × Option Nat) (e : Nat × Nat) =>
      (acc.1 + e.2, acc.2.or (if r ≤ acc.1 + e.2 then some e.1 else none))) (0, none)).2.getD 0
    (max 0 (min 254 ((b : Int) - 149 - emaxOf k.elem + 127))).toNat

def execCvtmxRep (g : Guard) (d : Reg) (el : Ty) (k : Fin 8) (s : State) : Out :=
  let f := foot (guardIds g) (regIds 1 d)
  s.withIssue fun x =>
    match s.enter x f with
    | .hold s => ok s
    | .go s =>
      match s.slotFor x el k.val with
      | none => ok (s.takeStop x.w (x.stop 0x01 x.active))
      | some y =>
        let act := s.acting x g false
        let w := s.warp x.w
        let r := if act = 0 then Writes.none else regWrites d 1 0 (histScale w.hist w.nonfin y)
        ok ((s.updWarp x.w fun w => w.apply r).finish x f (if act = 0 then [] else regIds 1 d) x.next false)

def execCvtmxClr (g : Guard) (s : State) : Out :=
  let f := foot (guardIds g) []
  s.withIssue fun x =>
    match s.enter x f with
    | .hold s => ok s
    | .go s =>
      let act := s.acting x g false
      let s := if act = 0 then s else s.updWarp x.w fun w => { w with hist := [], nonfin := false }
      ok (s.finish x f [] x.next false)

/-! ### Pair words (R117 to R123) -/

def slotVec (y : Slot) : Bool := (slotReg y.d).isVector

/-- The lanes in which a slot's guard holds; a scalar slot's is evaluated in the lowest active lane (R117, R119). -/
def State.slotLanes (s : State) (x : Issue) (y : Slot) : Nat :=
  let w := s.warp x.w
  let m := match y.g.val with
    | 0 => x.active
    | 1 => mAnd x.active (maskOf fun l => w.p 0 l)
    | 2 => mAnd x.active (maskOf fun l => w.p 1 l)
    | _ => mAnd x.active (maskOf fun l => !w.p 0 l)
  if slotVec y then m
  else
    match lowLane x.active with
    | some l => if bit m l then 2 ^ l else 0
    | none => 0

def slotRnd2 (n : Nat) : Rnd := match n with | 0 => .rn | 1 => .rz | 2 => .rp | _ => .rm

/-- The integer type of a slot (R122). -/
def slotInt (n : Nat) : Ty := if n = 0 then .i32 else .n32
def slotHalf (n : Nat) : Ty := if n = 3 then .f16 else .bf16

/-- The conversion that a slot's type selects (R122, R239). -/
def slotCvt (n : Nat) : Ty × Ty :=
  match n with
  | 0 => (.i32, .f32) | 1 => (.n32, .f32) | 2 => (.f32, .i32) | 3 => (.f16, .f32) | _ => (.bf16, .f32)

/-- The value and the flags of a slot: D op A, or op A (R118, R208, R222, R239). -/
def slotVal (y : Slot) (d a : Nat) : Nat × Nat :=
  let it := slotInt y.ty.val
  let ht := slotHalf y.ty.val
  let sat := y.flags.val == 1
  let r := slotRnd2 y.flags.val
  match y.op with
  | .nop => (0, 0)
  | .mov => (a, 0)
  | .add => intOp2 it sat (· + ·) d a
  | .sub => intOp2 it sat (· - ·) d a
  | .mulLo => intFinish it (intVal it d * intVal it a) false
  | .and => (Nat.land d a, 0)
  | .or => (Nat.lor d a, 0)
  | .xor => (Nat.xor d a, 0)
  | .shl => (shlVal .b32 d a, 0)
  | .shr => (shrVal .b32 d a, 0)
  | .sha => (shaVal .b32 d a, 0)
  | .min => intOp2 it false (fun p q => if p ≤ q then p else q) d a
  | .max => intOp2 it false (fun p q => if q ≤ p then p else q) d a
  | .fadd => fAdd fmtF32 (fv .f32 d) (fv .f32 a) r false 0
  | .fsub => fAdd fmtF32 (fv .f32 d) (fv .f32 a).flip r false 0
  | .fmul => fMul fmtF32 (fv .f32 d) (fv .f32 a) r false 0
  | .fmin => fMinMax fmtF32 false false d a
  | .fmax => fMinMax fmtF32 true false d a
  | .hadd2 => halfOp ht fun i => fAdd (tyFmt ht) (fe ht i d) (fe ht i a) r false 0
  | .hmul2 => halfOp ht fun i => fMul (tyFmt ht) (fe ht i d) (fe ht i a) r false 0
  | .cvt => convert (slotCvt y.ty.val).1 (slotCvt y.ty.val).2 a r false 0
  | .rcp => fRcp fmtF32 (fv .f32 a) .rn 0
  | .rsq => fRsq fmtF32 false a
  | .ex2 => fEx2 a
  | .lg2 => fLg2 a
  | .not => (notVal .b32 a, 0)
  | .popc => (((bitsOf 32 a).filter id).length, 0)
  | .abs => intOp2 .i32 sat (fun p _ => (p.natAbs : Int)) a 0
  | .neg => intOp2 .i32 sat (fun p _ => -p) a 0
  | .fabs => (a % 2 ^ 31, 0)

/-- A special function in slot B makes the whole word pending (R140). -/
def slotPending (o : SlotOp) : Bool := o == .rcp || o == .rsq || o == .ex2 || o == .lg2

def slotGuardIds (y : Slot) : List Nat := match y.g.val with | 0 => [] | 2 => [2049] | _ => [2048]

def slotReads (y : Slot) : List Nat :=
  if y.op == .nop then []
  else slotGuardIds y ++ regIds 1 (slotReg y.a) ++ (if y.op.unary then [] else regIds 1 (slotReg y.d))

def slotWrites (y : Slot) : List Nat := if y.op == .nop then [] else regIds 1 (slotReg y.d)

def pairFoot (y z : Slot) : Foot :=
  { reads := slotReads y ++ slotReads z, writes := slotWrites y ++ slotWrites z
    pend := slotPending z.op, replay := slotPending z.op, priv := false, pair := true }

/-- A slot's sources, D of a binary slot before A, from a number on (R118, R123, R428). -/
def slotSrcs (y : Slot) (i : Nat) : List Src :=
  if y.op == .nop then []
  else if y.op.unary then [⟨slotReg y.a, .b32, i⟩]
  else [⟨slotReg y.d, .b32, i⟩, ⟨slotReg y.a, .b32, i + 1⟩]

/-- One slot's values in its lanes, all sources read from before the word (R118). -/
def State.slotOuts (s : State) (x : Issue) (y : Slot) (i : Nat) : List (Nat × Nat × Nat) :=
  (lanesOf (s.slotLanes x y)).filterMap fun l =>
    match (slotSrcs y i).map fun a => s.src x a l with
    | [] => none
    | [a] => some (l, (slotVal y 0 a).1, (slotVal y 0 a).2)
    | d :: a :: _ => some (l, (slotVal y d a).1, (slotVal y d a).2)

/-- The registers of a slot whose written bit it sets. -/
def State.slotFull (s : State) (x : Issue) (y : Slot) : List Nat :=
  let m := s.slotLanes x y
  if (if slotVec y then (s.warp x.w).covers m else m != 0) then slotWrites y else []

def State.pairResult (s : State) (x : Issue) (y z : Slot) : Result :=
  let w := s.warp x.w
  let i := (slotSrcs y 0).length
  let out (k : Slot) (i : Nat) : Writes := Writes.concat ((s.slotOuts x k i).map fun o => regWrites (slotReg k.d) 1 o.1 o.2.1)
  let fl (k : Slot) (i : Nat) : List (Nat × Nat) := ((s.slotOuts x k i).map fun o => (o.1, o.2.2)).filter fun o =>
    !slotVec k || !bit w.allHelpers o.1
  { ws := (out y 0).append (out z i), flags := fl y 0 ++ fl z i, full := s.slotFull x y ++ s.slotFull x z
    drawn := 0, draws := 0, srcs := slotSrcs y 0 ++ slotSrcs z i, lanes := x.active }

def execPairWord (y z : Slot) (s : State) : Out :=
  s.withIssue fun x =>
    match s.enter x (pairFoot y z) with
    | .hold s => ok s
    | .go s => ok (s.deposit x (pairFoot y z) false (s.pairResult x y z))

end Sys2Proof.Machine
end

