-- ==== Sys2Proof/Machine/Lanes.lean ====
section
/-!
DEFINITION. The words of lanes working together (spec/13 R240 to R256).
-/

namespace Sys2Proof.Machine

/-! ### The shared shape (R240, R241) -/

/-- A cross-lane word: guard, destination with its registers, sources, predicates read and the one written. -/
structure Cross where
  g : Guard
  d : Reg
  dn : Nat
  srcs : List (Reg × Ty)
  pin : List Nat
  pout : Option Nat

/-- What such a word sees: contributing and voting lanes, partition width, sources by index and lane, predicates, and whether its guard
never passes (R36). -/
structure CrossIn where
  con : Nat
  vote : Nat
  width : Nat
  src : Nat → Nat → Nat
  p : Nat → Nat → Bool
  off : Bool

/-- What a lane receives: a value or none for a miss, flags, and the predicate. -/
structure CrossOut where
  lane : Nat
  val : Option Nat
  flags : Nat
  p : Bool
  deriving DecidableEq, Repr

def Cross.foot (k : Cross) : Foot :=
  { reads := guardIds k.g ++ (k.srcs.flatMap fun a => regIds a.2.regs a.1) ++ k.pin.flatMap predIds
    writes := regIds k.dn k.d ++ (match k.pout with | some p => predIds p | none => [])
    pend := true, replay := true, priv := false, pair := false }

/-- The first lane of a lane's tile, and the lanes of a tile (R137). -/
def tileBase (w l : Nat) : Nat := l / w * w
def tileMask (w l : Nat) : Nat := (2 ^ w - 1) * 2 ^ tileBase w l

abbrev CrossFn := CrossIn → List CrossOut

def State.crossIn (s : State) (x : Issue) (k : Cross) : CrossIn :=
  let w := s.warp x.w
  let con := s.passing x k.g
  let srcs := srcsFrom 0 k.srcs
  ⟨con, mDiff con w.allHelpers, w.part, fun i l => match srcs[i]? with | some a => s.src x a l | none => 0, fun p l => w.p p l, guardNever k.g⟩

def isScalarReg (d : Reg) : Bool := match d with | .s _ => true | _ => false

def State.crossResult (s : State) (x : Issue) (k : Cross) (f : CrossFn) : Result :=
  let i := s.crossIn x k
  let outs := f i
  let w := s.warp x.w
  let got := laneMask ((outs.filter fun o => o.val.isSome).map CrossOut.lane)
  let all := laneMask (outs.map CrossOut.lane)
  { ws := (Writes.concat (outs.map fun o => match o.val with | some v => regWrites k.d k.dn o.lane v | none => Writes.none)).append
      (match k.pout with
       | some p => predWrites p all (maskOf fun l => outs.any fun o => o.lane == l && o.p)
       | none => Writes.none)
    flags := outs.map fun o => (o.lane, o.flags)
    full := (if (if isScalarReg k.d then got != 0 else w.covers got) then regIds k.dn k.d else []) ++
      (match k.pout with | some p => if w.covers all then predIds p else [] | none => [])
    drawn := 0, draws := 0, srcs := srcsFrom 0 k.srcs, lanes := i.con }

/-- A cross-lane word executed. -/
def State.cross (s : State) (k : Cross) (f : CrossFn) : Out :=
  s.withIssue fun x =>
    match s.enter x k.foot with
    | .hold s => ok s
    | .go s => ok (s.deposit x k.foot (!isScalarReg k.d) (s.crossResult x k f))

/-- Every contributing lane receives a value. -/
def CrossIn.each (i : CrossIn) (f : Nat → Nat) : List CrossOut := (lanesOf i.con).map fun l => ⟨l, some (f l), 0, false⟩

/-- Every contributing lane receives a predicate. -/
def CrossIn.eachP (i : CrossIn) (f : Nat → Bool) : List CrossOut := (lanesOf i.con).map fun l => ⟨l, none, 0, f l⟩

/-- The voting lanes of a lane's tile. -/
def CrossIn.votes (i : CrossIn) (l : Nat) : Nat := mAnd i.vote (tileMask i.width l)

/-- The lane whose tile a scalar destination takes: the lowest voting one. -/
def CrossIn.low (i : CrossIn) : Nat := ((lowLane i.vote).or (lowLane i.con)).getD 0

/-- The outputs for a destination: a scalar one takes the tile of the lowest voting lane. -/
def CrossIn.forDst (i : CrossIn) (d : Reg) (outs : List CrossOut) : List CrossOut :=
  if isScalarReg d then outs.filter fun o => o.lane == i.low else outs

/-- One output for each contributing lane; a scalar destination takes that of the lowest voting lane, and when no lane contributes that of
an empty set (R248, R249), but for a word that never takes effect (R36). -/
def CrossIn.takers (i : CrossIn) (d : Reg) : Nat := if isScalarReg d then (if i.off then 0 else 2 ^ i.low) else i.con

/-! ### Moving values (R245 to R247) -/

/-- The source lane of a `shfl`, none when it leads outside the tile. -/
def shflLane (m : ShflMode) (w l k : Nat) : Option Nat :=
  let b := tileBase w l
  match m with
  | .base => if k < w then some (b + k) else none
  | .lo => if k ≤ l - b then some (l - k) else none
  | .hi => if k < b + w - l then some (l + k) else none
  | .mir => if k < w then some (Nat.xor l k) else none

def shflFn (m : ShflMode) : CrossFn := fun i =>
  (lanesOf i.con).map fun l =>
    match shflLane m i.width l (i.src 1 l) with
    | some j => if bit i.con j then ⟨l, some (i.src 0 j), 0, true⟩ else ⟨l, none, 0, false⟩
    | none => ⟨l, none, 0, false⟩

def shflOp (g : Guard) (d a b : Reg) (t : Ty) (okp : Option (Fin 8)) : Cross :=
  ⟨g, d, t.regs, [(a, t), (b, .n32)], [], okp.map fun p => p.val⟩

def execShfl (g : Guard) (m : ShflMode) (d a b : Reg) (t : Ty) (okp : Option (Fin 8)) (s : State) : Out :=
  s.cross (shflOp g d a b t okp) (shflFn m)

def qswpLane (m : QuadMode) (l : Nat) : Nat :=
  match m with
  | .h => Nat.xor l 1
  | .v => Nat.xor l 2
  | .d => Nat.xor l 3

def quadFn (lane : Nat → Nat) : CrossFn := fun i => i.each fun l => i.src 0 (if bit i.con (lane l) then lane l else l)

def quadOp (g : Guard) (d a : Reg) (t : Ty) : Cross := ⟨g, d, t.regs, [(a, t)], [], none⟩

def execQswp (g : Guard) (m : QuadMode) (d a : Reg) (t : Ty) (s : State) : Out :=
  s.cross (quadOp g d a t) (quadFn (qswpLane m))

def execQbc (g : Guard) (d a : Reg) (t : Ty) (j : Fin 4) (s : State) : Out :=
  s.cross (quadOp g d a t) (quadFn fun l => l / 4 * 4 + j.val)

def rdfstFn (d : Reg) : CrossFn := fun i => i.forDst d (i.each fun _ => i.src 0 i.low)

def execRdfst (g : Guard) (d a : Reg) (t : Ty) (s : State) : Out := s.cross (quadOp g d a t) (rdfstFn d)

/-! ### Votes (R248) -/

def CrossIn.vBits (i : CrossIn) (q : Nat) (qn : Bool) (l : Nat) : Nat := mAnd (i.votes l) (maskOf fun j => i.p q j != qn)

def someFn (q : Nat) (qn : Bool) : CrossFn := fun i => i.eachP fun l => i.vBits q qn l != 0
def everyFn (q : Nat) (qn : Bool) : CrossFn := fun i => i.eachP fun l => mDiff (i.votes l) (i.vBits q qn l) == 0
def sameFn : CrossFn := fun i => i.eachP fun l =>
  match lanesOf (i.votes l) with
  | [] => true
  | j :: r => r.all fun m => i.src 0 m == i.src 0 j
def bitsFn (d : Reg) (q : Nat) (qn : Bool) : CrossFn := fun i => (lanesOf (i.takers d)).map fun l => ⟨l, some (i.vBits q qn l), 0, false⟩
def cntFn (d : Reg) (q : Nat) (qn : Bool) : CrossFn := fun i => 
  (lanesOf (i.takers d)).map fun l => ⟨l, some (popc (i.vBits q qn l)), 0, false⟩

def voteOp (g : Guard) (p q : Fin 8) : Cross := ⟨g, noReg, 0, [], [q.val], some p.val⟩
def sameOp (g : Guard) (p : Fin 8) (a : Reg) (t : Ty) : Cross := ⟨g, noReg, 0, [(a, t)], [], some p.val⟩
def countVoteOp (g : Guard) (d : Reg) (q : Fin 8) : Cross := ⟨g, d, 1, [], [q.val], none⟩

def execVoteSome (g : Guard) (p q : Fin 8) (qn : Bool) (s : State) : Out := s.cross (voteOp g p q) (someFn q.val qn)
def execVoteEvery (g : Guard) (p q : Fin 8) (qn : Bool) (s : State) : Out := s.cross (voteOp g p q) (everyFn q.val qn)
def execVoteSame (g : Guard) (p : Fin 8) (a : Reg) (t : Ty) (s : State) : Out := s.cross (sameOp g p a t) sameFn
def execVoteBits (g : Guard) (d : Reg) (q : Fin 8) (qn : Bool) (s : State) : Out := s.cross (countVoteOp g d q) (bitsFn d q.val qn)
def execVoteCnt (g : Guard) (d : Reg) (q : Fin 8) (qn : Bool) (s : State) : Out := s.cross (countVoteOp g d q) (cntFn d q.val qn)

/-! ### Reductions and scans (R249 to R251) -/

/-- `fmin` or `fmax` over a set, and NV for a signalling NaN. -/
def minMaxF32 (isMax : Bool) (xs : List Nat) : Nat × Nat :=
  match xs with
  | [] => (if isMax then 0xFF80_0000 else 0x7F80_0000, 0)
  | x :: r =>
    let v := r.foldl (fun acc y => (fMinMax fmtF32 isMax false acc y).1) x
    (if (decFloat fmtF32 v).isNan then fmtF32.nanBits else v, nvOf (xs.map (decFloat fmtF32)))

/-- The combination of a set of values. -/
def reduce (op : RedOp) (t : Ty) (xs : List Nat) (r : Rnd) (sat : Bool) : Nat × Nat :=
  let ints := xs.map (intVal t)
  match op with
  | .add => if t = .f32 then sumF32 xs r sat else intFinish t (ints.foldl (· + ·) 0) sat
  | .min => if t = .f32 then minMaxF32 false xs else (wrap 32 (ints.foldl min (maxValue t)), 0)
  | .max => if t = .f32 then minMaxF32 true xs else (wrap 32 (ints.foldl max (minValue t)), 0)
  | .and => (xs.foldl Nat.land (2 ^ 32 - 1), 0)
  | .or => (xs.foldl Nat.lor 0, 0)
  | .xor => (xs.foldl Nat.xor 0, 0)

/-- The flags of a tile count once, in its lowest voting lane. -/
def reduxFn (op : RedOp) (d : Reg) (t : Ty) (r : Rnd) (sat : Bool) : CrossFn := fun i =>
  (lanesOf (i.takers d)).map fun l =>
    let vs := lanesOf (i.votes l)
    let (v, fl) := reduce op t (vs.map (i.src 0)) r sat
    ⟨l, some v, if vs.head? == some l then fl else 0, false⟩

def reduxOp (g : Guard) (d a : Reg) (t : Ty) : Cross := ⟨g, d, 1, [(a, t)], [], none⟩

def execRedux (g : Guard) (op : RedOp) (d a : Reg) (t : Ty) (r : Rnd) (sat : Bool) (s : State) : Out :=
  s.cross (reduxOp g d a t) (reduxFn op d t r sat)

def scanFn (op : RedOp) (t : Ty) (excl : Bool) (r : Rnd) (sat : Bool) : CrossFn := fun i =>
  (lanesOf i.con).map fun l =>
    let vs := (lanesOf (i.votes l)).filter fun j => if excl then decide (j < l) else decide (j ≤ l)
    let (v, fl) := reduce op t (vs.map (i.src 0)) r sat
    ⟨l, some v, fl, false⟩

def execScan (g : Guard) (op : RedOp) (d a : Reg) (t : Ty) (excl : Bool) (r : Rnd) (sat : Bool) (s : State) : Out :=
  s.cross (reduxOp g d a t) (scanFn op t excl r sat)

/-! ### Matching keys (R252, R253) -/

/-- Two keys match. -/
def keyMatch (t : Ty) (fp : Bool) (a b : Nat) : Bool :=
  if fp then
    let x := fv t a
    let y := fv t b
    !x.isNan && !y.isNan && cmpF x y == 0
  else a == b

def CrossIn.matches_ (i : CrossIn) (t : Ty) (fp : Bool) (l : Nat) : Nat :=
  mAnd (i.votes l) (maskOf fun j => keyMatch t fp (i.src 0 j) (i.src 0 l))

def matchAnyFn (t : Ty) (fp : Bool) : CrossFn := fun i =>
  i.each fun l => if bit i.vote l then i.matches_ t fp l else 0

def matchAllFn (t : Ty) (fp : Bool) : CrossFn := fun i =>
  (lanesOf i.con).map fun l =>
    let vs := i.votes l
    let all := (lanesOf vs).all fun j => i.matches_ t fp j == vs
    ⟨l, some (if all && bit i.vote l then vs else 0), 0, all && vs != 0⟩

def matchAnyOp (g : Guard) (d a : Reg) (t : Ty) : Cross := ⟨g, d, 1, [(a, t)], [], none⟩
def matchAllOp (g : Guard) (d : Reg) (p : Fin 8) (a : Reg) (t : Ty) : Cross := ⟨g, d, 1, [(a, t)], [], some p.val⟩

def execMatchAny (g : Guard) (d a : Reg) (t : Ty) (fp : Bool) (s : State) : Out :=
  s.cross (matchAnyOp g d a t) (matchAnyFn t fp)

def execMatchAll (g : Guard) (d : Reg) (p : Fin 8) (a : Reg) (t : Ty) (fp : Bool) (s : State) : Out :=
  s.cross (matchAllOp g d p a t) (matchAllFn t fp)

/-! ### Election, partition and lane masks (R254 to R256) -/

def electFn : CrossFn := fun i =>
  (lanesOf i.con).map fun l =>
    let e := lowLane (i.votes l)
    ⟨l, some (e.getD 32), 0, e == some l⟩

def electOp (g : Guard) (d : Reg) (p : Fin 8) : Cross := ⟨g, d, 1, [], [], some p.val⟩

def execElect (g : Guard) (d : Reg) (p : Fin 8) (s : State) : Out := s.cross (electOp g d p) electFn

def execPart (g : Guard) (w : Fin 5) (s : State) : Out :=
  let f := foot (guardIds g) []
  s.withIssue fun x =>
    match s.enter x f with
    | .hold s => ok s
    | .go s =>
      let s := if s.acting x g false = 0 then s else s.updWarp x.w fun y => { y with part := 2 ^ (w.val + 1) }
      ok (s.finish x f [] x.next false)

def lmaskVal (k : MaskKind) (l w : Nat) : Nat :=
  match k with
  | .own => 2 ^ l
  | .below => 2 ^ l - 1
  | .thru => 2 ^ (l + 1) - 1
  | .above => 2 ^ 32 - 2 ^ (l + 1)
  | .frm => 2 ^ 32 - 2 ^ l
  | .tile => tileMask w l

def execLmask (g : Guard) (k : MaskKind) (d : Reg) (s : State) : Out :=
  s.withIssue fun x =>
    let w := (s.warp x.w).part
    s.alu (aluOf g d 1 [(.sp .lane, .n32)]) fun v _ _ => .val_ (lmaskVal k (v 0) w)

end Sys2Proof.Machine
end

