-- ==== Sys2Proof/Machine/Access.lean ====
section
/-!
DEFINITION. What the words that reach memory share: their lanes and addresses (spec/15 R279, R287), the checks of R285 in
the order of spec/27 R421, race stops (spec/21 R374), the order of synchronisation accesses under deterministic execution
and replay (spec/23 R401, R402, R412), and the result that a redundant copy forwards (spec/29 R445).
-/

namespace Sys2Proof.Machine

/-! ### Lanes and addresses -/

/-- The base pair of a global access (R109). -/
def baseReg : MemBase → Reg
  | .v k => .v ⟨2 * k.val, by omega⟩
  | .s k => .s ⟨2 * k.val, by omega⟩
  | .zero => noReg

/-- The lanes in which a memory word acts, with whether each is a helper lane: a scalar word acts once, as a helper lane's
access when all its active lanes are helpers (R279, R281). -/
def State.memLanes (s : State) (x : Issue) (g : Guard) (vec : Bool) : List (Nat × Bool) :=
  let h := (s.warp x.w).allHelpers
  (lanesOf (s.acting x g vec)).map fun l => (l, if vec then bit h l else mDiff x.active h == 0)

/-- The lanes that a stop reports for those in which a word found its cause: all of a scalar word's (R106). -/
def Issue.told (x : Issue) (vec : Bool) (lanes : Nat) : Nat := if vec then lanes else x.active

/-- The lanes that park. -/
def Issue.parked (x : Issue) (vec : Bool) (lanes : Nat) : Nat := if vec then mAnd lanes x.mask else x.mask

/-- The effective address of a lane: [k] bits (R279, R287). -/
def State.ea (s : State) (x : Issue) (base : Reg) (off : BitVec 24) (k lane : Nat) : Nat :=
  wrap k ((s.src x ⟨base, if k = 64 then .n64 else .n32, 0⟩ lane : Int) + off.toInt)

/-- A lane's access: lane, helper, virtual and physical address; for the scratchpad, address and target block with its
offset. -/
structure Lane where
  lane : Nat
  helper : Bool
  va : Nat
  pa : Nat
  blk : Nat
  deriving DecidableEq, Repr

/-- What checks 1 to 4 of R285 find in a lane: order and cause, or a service. -/
inductive Look where
  | fine (a : Lane)
  | far (module : Nat) (a : Lane)
  | bad (lane va order cause : Nat)
  | need (lane va : Nat) (n : NeedOf)
  deriving DecidableEq, Repr

def Use.code : Use → Nat
  | .read | .probe => 0
  | .write => 1
  | .exec => 2
  | .both => 3

/-- Checks 1 to 4 for a global access of [n] bytes (R285). -/
def State.lookGlobal (s : State) (w : Nat) (y : Nat × Bool) (va n : Nat) (u : Use) (sysOk : Bool) : Look × State :=
  if va % n ≠ 0 then (.bad y.1 va 1 0x10, s)
  else
    let (r, s) := s.translate (s.blockOf w).core (s.warp w).vi va u sysOk
    (match r with
     | .ok pa => .fine ⟨y.1, y.2, va, pa, 0⟩
     | .remote m pa => .far m ⟨y.1, y.2, va, pa, 0⟩
     | .cause c => .bad y.1 va (if c = 0x11 then 2 else 3) c
     | .service => .need y.1 va (.xlat va u.code), s)

/-- The lowest of the earliest causes (R421); presence is the fourth check. -/
def earliest (xs : List Look) : Option (Nat × Nat) :=
  xs.foldl (fun (acc : Option (Nat × Nat)) y =>
    let o : Option (Nat × Nat) := match y with
      | .bad _ _ o c => some (o, c)
      | .need _ _ _ => some (4, 0)
      | _ => none
    match acc, o with
    | none, o => o
    | some a, some b => if b.1 < a.1 then some b else some a
    | some a, none => some a) none

/-- What the checks of a word before its effect answer. -/
inductive Checked where
  | fine (as : List Look)
  | stop (st : Stop)
  | park (ns : List Need)
  deriving DecidableEq, Repr

/-- The decision across the lanes of a word (R421, R422). -/
def Issue.decide (x : Issue) (vec : Bool) (xs : List Look) : Checked :=
  match earliest xs with
  | none => .fine xs
  | some (o, c) =>
    if o = 4 then
      .park (xs.filterMap fun y => match y with
        | .need l va n => some ⟨x.parked vec (2 ^ l), n, x.pc, va, none⟩
        | _ => none)
    else
      let hit := xs.filterMap fun y => match y with
        | .bad l va _ c' => if c' == c then some (l, va) else none
        | _ => none
      .stop (regionStop c (x.told vec (laneMask (hit.map Prod.fst))) ((hit.map Prod.snd).headD 0) x.pc [])

/-- The lanes of a word looked at in ascending order. -/
def State.lookAll (s : State) (xs : List (Nat × Bool)) (f : State → Nat × Bool → Look × State) : List Look × State :=
  xs.foldl (fun (acc : List Look × State) y =>
    let (r, s) := f acc.2 y
    (acc.1 ++ [r], s)) ([], s)

def Look.lane? : Look → Option Lane
  | .fine a => some a
  | _ => none

/-- The address lies on the counter page of the warp's interface (R469). -/
def State.onCounters (s : State) (w va : Nat) : Bool := (s.ctrOffset (s.warp w).vi va).isSome

/-! ### The scratchpad (R287, R425) -/

/-- The block that a local or gang-remote address reaches, and the offset in it; none outside the limits. -/
def State.spTarget (s : State) (w a : Nat) (rmt : Bool) : Option (Nat × Nat) :=
  let b := (s.warp w).block
  let l := s.launchOf w
  let p := 4096 * l.sppages
  if rmt then
    let m := bits a 27 24
    let o := bits a 23 0
    if a / 2 ^ 28 = 0 ∧ m < l.gang ∧ o < p then
      ((s.gangOf b).find? fun c => (s.block c).lin == (s.block b).lin / l.gang * l.gang + m).map fun c => (c, o)
    else none
  else if a < p then some (b, a) else none

/-- The address reaches the warp's trap area (R425). -/
def State.inTrapArea (s : State) (w a : Nat) (rmt data : Bool) : Bool :=
  !rmt && data && a / 4096 == 0xF0000 && (s.warp w).trap.isSome

/-- Checks 1 to 4 for a scratchpad access of [n] bytes; an access to the trap area names block 2^64. -/
def State.lookSp (s : State) (w : Nat) (y : Nat × Bool) (a n : Nat) (rmt data write : Bool) : Look :=
  if a % n ≠ 0 then .bad y.1 a 1 0x10
  else if s.inTrapArea w a rmt data then .fine ⟨y.1, y.2, a, a % 4096, 2 ^ 64⟩
  else
    match s.spTarget w a rmt with
    | none => .bad y.1 a 2 0x11
    | some (b, o) =>
      let e := s.spEntry b (o / 4096)
      if write && e.win && !e.wr then .bad y.1 a 3 0x12
      else if !e.p then .need y.1 a (.page b (o / 4096))
      else .fine ⟨y.1, y.2, a, o, b⟩

/-! ### Marks and poison (R285 checks 5 and 6) -/

/-- What those checks find: cause, lanes, the lowest lane's address, the word's address, and the conflict of a mark. -/
structure Hit where
  cause : Nat
  lanes : Nat
  addr : Nat
  word : Nat
  conflict : Option Conflict
  deriving DecidableEq, Repr

/-- The decision among lanes with conflicts and, where none has one, lanes with poison. -/
def hitOf (cs : List (Lane × Nat × Conflict)) (ps : List Lane) : Option Hit :=
  match cs with
  | (a, word, c) :: _ =>
    some ⟨c.cause, laneMask ((cs.filter fun y => y.2.2.cause == c.cause).map fun y => y.1.lane), a.va, word, some c⟩
  | [] =>
    match ps with
    | a :: _ => some ⟨0x20, laneMask (ps.map fun y => y.lane), a.va, a.va, none⟩
    | [] => none

/-- The first conflict of each lane with the marks of global words. -/
def State.globalConflicts (s : State) (w : Nat) (a : Access) (ty : Option AtomTy) (xs : List (Lane × List Nat)) :
    List (Lane × Nat × Conflict) :=
  xs.filterMap fun y => (s.homeConflict (s.warp w).vi a ty y.2).map fun c => (y.1, y.1.va / 4 * 4 + c.1 - y.1.pa / 4 * 4, c.2)

/-- The first conflict of each lane with the marks of scratchpad words, the remote mark table included (R366 to R368). -/
def State.spConflicts (s : State) (w : Nat) (k : AccClass) (write : Bool) (xs : List (Lane × Nat)) :
    List (Lane × Nat × Conflict) :=
  let x := s.warp w
  let acc := s.access w k write
  xs.filterMap fun y =>
    (wordsOf y.1.pa y.2).findSome? fun o =>
      let own := y.1.blk == x.block
      let c := match s.spCheck y.1.blk (o / 4096) (o % 4096 / 4) (if own then some x.windex else none) k write acc.start with
        | some c => some c
        | none => s.remoteCheck y.1.blk (o / 4) acc
      c.map fun c => (y.1, y.1.va / 4 * 4 + o - y.1.pa / 4 * 4, c)

/-- An access of a warp to some words has to wait at their homes: for an alias, for room for a mark, or for the line (R361, R363,
R372; notes/assumptions/102.md). -/
def State.homesWait (s : State) (w : Nat) (words : List Nat) : Bool := s.homeWaits (s.warp w).vi (s.warp w).party words

/-! ### After an eviction (R291) -/

/-- The lines that a region's `pref.evict` words name. -/
def State.evictsOf (s : State) (w : Nat) (r : Region) : List Nat :=
  r.evicts.filterMap fun va => (s.paOf (s.warp w).vi va .read).map fun pa => pa / 64

/-- A later access of the warp to a line that a region in flight will evict waits for that region's commit, and ends the region
when it is the executing one (R291; notes/assumptions/90.md). -/
def State.afterEvict (s : State) (w : Nat) (lines : List Nat) : Option State :=
  let x := s.warp w
  if x.older.any fun o => (s.evictsOf w o).any fun l => lines.contains l then some s
  else if (s.evictsOf w x.region).any fun l => lines.contains l then some (s.bound w)
  else none

/-! ### Race stops -/

/-- The record, the pair stop and the count of a race that word [x] has met (R374, R376, R471): [kind] its access kind. -/
def State.race (s : State) (x : Issue) (h : Hit) (kind : Nat) (k : AccClass) (write sp : Bool) (rpc : Nat) :
    List Nat × State :=
  match h.conflict with
  | none => ([], s)
  | some c =>
    let a := s.access x.w k write
    let r := s.raceRecord a.party kind false sp false x.pc rpc h.word c
    let s := if sp then s else s.count (s.warp x.w).vi unitHome 4 1
    (r, s.pairStop a.party a.int kind sp x.pc h.word c)

/-- The region stop of a data access (R352). -/
def State.raceStop (s : State) (x : Issue) (vec : Bool) (h : Hit) (kind : Nat) (k : AccClass) (write sp : Bool) :
    Stop × State :=
  let lanes := x.told vec h.lanes
  let (r, s) := s.race x h kind k write sp ((s.warp x.w).region.entryPc lanes)
  (regionStop h.cause lanes h.addr x.pc r, s)

/-- The stop of a closing word alone (R490). -/
def State.raceAlone (s : State) (x : Issue) (vec : Bool) (h : Hit) (kind : Nat) (k : AccClass) (write sp : Bool) :
    Stop × State :=
  let (r, s) := s.race x h kind k write sp x.pc
  (x.stopAlone h.cause (x.told vec h.lanes) h.addr r, s)

/-! ### Deterministic order and replay (R398, R401, R402, R412) -/

/-- The warp has declared its order, or a region in flight will as it commits (R398). -/
def Warp.declares (w : Warp) : Bool := w.declared || w.region.odone || w.older.any fun o => o.odone

/-- A release, an exchange or a flush after the warp's order declaration (R398). -/
def State.lateStop (s : State) (x : Issue) (lanes : Nat) : Option Stop :=
  if (s.launchOf x.w).det && (s.warp x.w).declares && lanes != 0 then some (regionStop 0x1B lanes 0 x.pc []) else none

/-- Whether the warp's staged access is the first of its launch that has been released. -/
def State.stagedFirst (s : State) (li k : Nat) : Bool :=
  match s.staged.find? fun e => e.launch == li && e.released with
  | some e => e.id == k
  | none => false

/-- What a synchronisation access may do at its homes now. -/
inductive Turnstile where
  | go (s : State)
  | held (s : State)
  deriving DecidableEq, Repr

/-- The access is staged, or held for the log's order (R401, R412). -/
def State.stageAccess (s : State) (x : Issue) (i : Instr) (cls : AccClass) (vas words : List Nat) (released : Bool) : State :=
  let (id, s) := s.fresh
  let e : Staged := ⟨id, (s.warp x.w).launch, (s.warp x.w).block, x.w, i, x, words, vas, cls, [], released⟩
  (s.stage e).updWarp x.w fun y => { y with hold := .staged id, stall := 10 }

/-- The replay order of the addresses of an access (R412, R413). -/
def State.replayGate (s : State) (x : Issue) (vas : List Nat) : Gate :=
  let li := (s.warp x.w).launch
  let g := (dedup vas).map fun va => s.gate li va (s.blockOf x.w).lin (s.warp x.w).windex
  if g.contains .diverged then .diverged else if g.contains .hold then .hold else .go

/-- The address and position at which a request parts from the log. -/
def State.divergeAt (s : State) (x : Issue) (vas : List Nat) : State :=
  let li := (s.warp x.w).launch
  let b := (s.blockOf x.w).lin
  let i := (s.warp x.w).windex
  match (dedup vas).find? fun va => s.gate li va b i == .diverged with
  | none => s
  | some va => s.divergeUnless li va b i

/-- The order of a synchronisation access at words [words] with virtual addresses [vas], or of one with lanes that reach
another module ([far]): held until ORD covers its block in deterministic mode, and until the log's order comes to it in replay; one that is
no acquire waits for the writes of an earlier flush of its warp (R293). -/
def State.turnstile (s : State) (x : Issue) (i : Instr) (cls : AccClass) (far : Bool) (vas words : List Nat) : Turnstile :=
  let li := (s.warp x.w).launch
  let l := s.launch li
  let pass (s : State) : Turnstile := .go (s.updWarp x.w fun y => { y with hold := .none })
  match (s.warp x.w).hold with
  | .staged k =>
    if s.stagedFirst li k then pass { s with staged := s.staged.filter fun e => e.id != k } else .held s
  | _ =>
    if words.isEmpty && !far then pass s
    else if l.det && decide (l.ord < (s.blockOf x.w).lin) then .held (s.stageAccess x i cls vas words false)
    else if l.det && s.releasesLeft li then .held (s.stageAccess x i cls vas words true)
    else if cls != .acquire && s.flushPending x.w then .held (s.updWarp x.w fun y => { y with hold := .commit x, stall := 10 })
    else
      match s.replayGate x vas with
      | .go => pass s
      | .hold => .held ((vas.foldl (fun (s : State) va => s.noteHeld li va) s).stageAccess x i cls vas words false)
      | .diverged => pass (s.divergeAt x vas)

/-- The staged release or exchange of a higher block that an acquire meets at its words (R402). -/
def State.inversion (s : State) (w : Nat) (words : List Nat) : Option Staged :=
  if !(s.launchOf w).det then none
  else s.staged.find? fun e => e.launch == (s.warp w).launch && decide ((s.blockOf w).lin < (s.block e.block).lin) &&
    e.cls != .acquire && e.addrs.any fun p => words.contains p

/-- Its stop, at the acquire (R402). -/
def State.inversionStop (s : State) (x : Issue) (vec : Bool) (lanes va : Nat) (e : Staged) : Stop :=
  let q := s.partyOf e.block (if e.bytes.isEmpty then (s.warp e.warp).windex else 63)
  let c : Conflict := ⟨0x1B, kindOf e.cls true, some (q, (s.intervalOf q).1), 0⟩
  let r := s.raceRecord (s.warp x.w).party 2 false false false x.pc x.pc va c
  let r := r.set 0 (r.headD 0 % 2 ^ 56 + 3 * 2 ^ 56)
  x.stopAlone 0x1B (x.told vec lanes) va r

/-- The accesses of a warp logged as performed at their homes (R408). -/
def State.logSync (s : State) (w : Nat) (xs : List Lane) : State :=
  xs.foldl (fun (s : State) (a : Lane) =>
    s.logPerformed (s.warp w).launch ⟨sliceOf a.pa, some a.va, (s.blockOf w).lin, (s.warp w).windex, 0, 0, 0, none⟩) s

/-! ### Redundant execution (R445) -/

/-- A result for the secondary copy's warp. -/
def State.forward (s : State) (w : Nat) (ws : Writes) : State :=
  if (s.launchOf w).rdnt && !s.secondary w then
    match s.twinOf w with
    | some v => s.updWarp v fun y => { y with forwarded := y.forwarded ++ [ws] }
    | none => s
  else s

/-- The registers written with the oldest forwarded result; none where none has come. -/
def State.takeForwarded (s : State) (w : Nat) : Option State :=
  match (s.warp w).forwarded with
  | [] => none
  | ws :: r => some (s.updWarp w fun y => { (y.apply ws) with forwarded := r })

/-- A closing word of the secondary copy whose result the primary forwards: it waits for it, then ends like the word. -/
def State.secondaryTakes (s : State) (x : Issue) (after : State → State) : Out :=
  match s.takeForwarded x.w with
  | some s => ok (after s)
  | none => ok (s.updWarp x.w fun y => { y with hold := .commit x, stall := 10 })

/-- The store stream of a region, in redundant execution (R446). -/
def State.sign (s : State) (w : Nat) (xs : List Nat) : State :=
  if (s.launchOf w).rdnt then
    s.updWarp w fun y => { y with region := { y.region with stream := crcBytes y.region.stream xs } }
  else s

end Sys2Proof.Machine
end

