-- ==== Sys2Proof/Machine/Memory.lean ====
section
/-!
DEFINITION. Loads and stores, global (spec/15 R277 to R285), of the scratchpad (R286 to R288) and constant (R289), prefetch
and eviction (R290, R291), the scratchpad map (R292 to R294) and residency handles (R295, R296).
-/

namespace Sys2Proof.Machine

/-! ### Values (R114, R278) -/

/-- The bytes of a load as its registers take them. -/
def extend (z : Size) (bs : List Byte) : Nat :=
  let x := leNat bs
  match z with
  | .i8 => if bit x 7 then x + (2 ^ 32 - 2 ^ 8) else x
  | .i16 => if bit x 15 then x + (2 ^ 32 - 2 ^ 16) else x
  | _ => x

/-- The size code (R114). -/
def sizeCode : Size → Nat
  | .n8 => 0 | .i8 => 1 | .n16 => 2 | .i16 => 3 | .b32 => 4 | .b64 => 5 | .b128 => 6 | .b256 => 7

def wideSize (w64 : Bool) : Size := if w64 then .b64 else .b32

/-- The data of a store: a small immediate is sign-extended. -/
def State.dataOf (s : State) (x : Issue) (d : Reg) (z : Size) (lane : Nat) : List Byte :=
  leBytes z.bytes (match d with
    | .imm k => wrap 64 (immInt k)
    | r => s.regValue x r z.regs lane)

/-- Results by lane as registers. -/
def loadResult (w : Warp) (vec : Bool) (d : Reg) (n : Nat) (srcs : List Src) (vals : List (Nat × Nat)) : Result :=
  let m := laneMask (vals.map Prod.fst)
  { ws := Writes.concat (vals.map fun y => regWrites d n y.1 y.2)
    flags := []
    full := if (if vec then w.covers m else m != 0) then regIds n d else []
    drawn := 0, draws := 0, srcs := srcs, lanes := m }

/-- What a load without closing gives. -/
inductive Loaded where
  | stop (st : Stop) (s : State)
  | park (ns : List Need) (s : State)
  | wait (reason : Nat) (s : State)
  | got (r : Result) (s : State)
  deriving DecidableEq, Repr

/-- The load as a word (R140, R141, R282). -/
def State.loadWord (s : State) (f : Foot) (run : State → Issue → Loaded) : Out :=
  s.withIssue fun x =>
    match s.enter x f with
    | .hold s => ok s
    | .go s =>
      if !(s.warp x.w).roomIn .l then ok (s.stallAt x.w 2)
      else
        match run s x with
        | .stop st s => ok (s.takeStop x.w st)
        | .park ns s => ok (s.park x.w f.reads ns)
        | .wait r s => ok (s.stallAt x.w r)
        | .got r s =>
          let s := if r.lanes = 0 then s.countDone x.w .l else s.pend x f r true true
          ok (s.finish x f r.full x.next false)

/-! ### Global and constant loads (R280, R289) -/

/-- A global or constant data load. -/
structure LoadW where
  g : Guard
  d : Reg
  base : MemBase
  off : BitVec 24
  size : Size
  nt : Bool
  const : Bool

def LoadW.vec (k : LoadW) : Bool := isVec k.d [baseReg k.base]

def LoadW.foot (k : LoadW) : Foot :=
  { reads := guardIds k.g ++ baseIds k.base, writes := regIds k.size.regs k.d, pend := true, replay := true, priv := false, pair := false }

/-- The physical bytes of a lane. -/
def Lane.bytes (a : Lane) (n : Nat) : List Nat := (List.range n).map fun i => a.pa + i

/-- The core's constant cache holds a line (R289). -/
def State.constLine (s : State) (w line : Nat) : Option CLine := (s.coreOf w).cc.find? fun l => l.line == line

/-- One byte as `ldc` takes it. -/
def State.constByte (s : State) (w pa : Nat) : Byte :=
  match s.constLine w (pa / 64) with
  | some l => l.bytes.getD (pa % 64) 0
  | none => s.mem.read pa

/-- The words of a lane's load that its home checks and records (R365, R289). -/
def State.loadMarks (s : State) (w : Nat) (const : Bool) (n : Nat) (as : List Lane) (a : Lane) : List Nat :=
  if const then (wordsOf a.pa n).filter fun p => !(s.warp w).constSeen.contains (p / 64)
  else
    let asked := s.markWords w (as.flatMap fun y => y.bytes n)
    (wordsOf a.pa n).filter fun p => asked.contains p

/-- The lane's bytes are poisoned where they are read: at home, or in a clean copy that was read poisoned (R285, R431). -/
def State.poisonedLoad (s : State) (w : Nat) (const : Bool) (n : Nat) (a : Lane) : Bool :=
  (a.bytes n).any fun pa =>
    (s.poisonedFor (s.blockOf w).core pa && (if const then (s.constLine w (pa / 64)).isNone else s.homeByte w pa)) ||
      (!const && s.stalePoison w pa)

/-- The lines that a constant load asks its homes for. -/
def State.constAsked (s : State) (w n : Nat) (as : List Lane) : List Nat :=
  (dedup (as.flatMap fun a => (a.bytes n).map fun pa => pa / 64)).filter fun l =>
    (s.constLine w l).isNone || !(s.warp w).constSeen.contains l

/-- The effects of a constant load: marks at the first load of each line in the interval, and the lines cached. -/
def State.constEffects (s : State) (w n : Nat) (as : List Lane) : State :=
  let vi := (s.warp w).vi
  let c := (s.blockOf w).core
  let asked := s.constAsked w n as
  let words := dedup (as.flatMap fun a => s.loadMarks w true n as a)
  let s := s.spend c vi asked.length
  let s := asked.foldl (fun (s : State) l => s.reach c vi (((as.find? fun a => a.pa / 64 == l).map Lane.va).getD 0) (64 * l)) s
  let s := if s.secondary w then s else s.recordWords vi (s.access w .data false) words
  let s := asked.foldl (fun (s : State) l =>
    if (s.constLine w l).isSome then s
    else
      let line : CLine := ⟨l, s.mem.readBytes (64 * l) 64, s.clock⟩
      s.updCore c fun k => { k with cc := (line :: k.cc).take 1024 }) s
  s.updWarp w fun y => { y with constSeen := dedup (y.constSeen ++ asked) }

/-- The value of a lane: a counter register for an aligned 64-bit data load, 0 for any other access to that page (R469). -/
def State.loadValue (s : State) (w : Nat) (k : LoadW) (a : Lane) : Nat :=
  match s.ctrOffset (s.warp w).vi a.va with
  | some off => if k.size == .b64 && !k.const then s.readCtr (s.warp w).vi off else 0
  | none => extend k.size ((a.bytes k.size.bytes).map fun pa => if k.const then s.constByte w pa else s.loadByte w pa)

/-- The load of R280 and R289: helper lanes read the value where no cause stands in the way, else 0 (R139). -/
def State.globalLoad (s : State) (x : Issue) (k : LoadW) : Loaded :=
  let n := k.size.bytes
  let busy := s.portShort x.w
  let ls := s.memLanes x k.g k.vec
  let ea (s : State) (l : Nat) : Nat := s.ea x (baseReg k.base) k.off 64 l
  let look (s : State) (y : Nat × Bool) : Look × State := s.lookGlobal x.w y (ea s y.1) n .read false
  let (looks, s) := s.lookAll (ls.filter fun y => !y.2) look
  match x.decide k.vec looks with
  | .stop st => .stop st s
  | .park ns => .park ns s
  | .fine looks =>
    let (helped, s) := s.lookAll (ls.filter fun y => y.2) look
    let mem := (looks.filterMap Look.lane?).filter fun a => !s.onCounters x.w a.va
    match s.afterEvict x.w (mem.map fun a => a.pa / 64) with
    | some s => .wait 10 s
    | none =>
    let cs := if s.secondary x.w then [] else
      s.globalConflicts x.w (s.access x.w .data false) none (mem.map fun a => (a, s.loadMarks x.w k.const n mem a))
    match hitOf cs (mem.filter (s.poisonedLoad x.w k.const n)) with
    | some h =>
      let (st, s) := s.raceStop x k.vec h (if k.const then 12 else 0) .data false false
      .stop st s
    | none =>
      let asked := if k.const then s.constAsked x.w n mem
        else s.askedLines x.w (mem.flatMap fun a => a.bytes n) (mem.flatMap fun a => s.loadMarks x.w false n mem a)
      if !asked.isEmpty && busy then .wait 9 s
      else if !s.secondary x.w && s.homesWait x.w (asked.map fun l => 64 * l) then .wait 1 s
      else
        let all := (looks ++ helped).filterMap Look.lane?
        let vals := ls.map fun y =>
          (y.1, match all.find? fun a => a.lane == y.1 with
            | some a => if y.2 && s.poisonedLoad x.w k.const n a then 0 else s.loadValue x.w k a
            | none => 0)
        let r := loadResult (s.warp x.w) k.vec k.d k.size.regs (srcsFrom 0 [(baseReg k.base, .n64)]) vals
        let s := if k.const then s.constEffects x.w n mem
          else s.loadEffects x.w (mem.flatMap fun a => (List.range n).map fun i => (a.va + i, a.pa + i)) k.nt
        .got r s

def execLd (g : Guard) (d : Reg) (base : MemBase) (off : BitVec 24) (size : Size) (hint : Bool) (s : State) : Out :=
  let k : LoadW := ⟨g, d, base, off, size, hint, false⟩
  s.loadWord k.foot fun s x => s.globalLoad x k

def execLdc (g : Guard) (d : Reg) (base : MemBase) (off : BitVec 24) (size : Size) (s : State) : Out :=
  let k : LoadW := ⟨g, d, base, off, size, false, true⟩
  s.loadWord k.foot fun s x => s.globalLoad x k

/-! ### Global data stores (R281, R148, R152) -/

/-- The new region-dirty lines of a store, and those that find no way in their set. -/
def State.newLines (s : State) (w : Nat) (lines : List Nat) : List Nat :=
  lines.filter fun l => !((s.warp w).dirty.any fun d => d.line == l && d.state == .region)

def State.noWay (s : State) (w : Nat) (new : List Nat) : List Nat :=
  (new.foldl (fun (acc : List Nat × List Nat) l =>
    let set := l1Set l
    let here := (acc.1.filter fun m => l1Set m == set).length
    if s.waysUsed (s.blockOf w).core set + here < Config.l1Ways then (acc.1 ++ [l], acc.2) else (acc.1, acc.2 ++ [l])) ([], [])).2

/-- Region-dirty lines of the executing region. -/
def Warp.regionLines (w : Warp) : Nat := (w.dirty.filter fun d => d.state == .region).length

/-- The bytes of a lane's store go into the region-dirty copy of its line. -/
def State.storeLane (s : State) (x : Issue) (vec : Bool) (ovf : List Nat) (nt : Bool) (a : Lane) (bs : List Byte) : State :=
  let off := a.pa % 64
  s.storeLine x.w (a.pa / 64) (a.va / 64 * 64) ((List.range bs.length).zip bs |>.map fun y => (off + y.1, y.2))
    ((wordsOf off bs.length).map fun o => (o / 4, x.pc, x.told vec (2 ^ a.lane))) (ovf.contains (a.pa / 64)) nt

/-- The records of a store's lanes in the store stream (R446). -/
def storeRecord (kind : Nat) (lane va code : Nat) (bs : List Byte) : List Nat :=
  [kind, lane] ++ byteList 8 va ++ [code] ++ bs.map BitVec.toNat

/-- The stores of a word whose lines have room: counted, signed, kept in the region. -/
def State.storeAll (s : State) (x : Issue) (vec : Bool) (d : Reg) (z : Size) (nt : Bool) (ovf : List Nat) (as : List Lane) :
    State :=
  let (id, s) := s.fresh
  let s := s.countOp x.w .s id as.isEmpty
  let s := s.updWarp x.w fun y => { y with region := { y.region with stores := if as.isEmpty then y.region.stores else y.region.stores ++ [id] } }
  as.foldl (fun (s : State) (a : Lane) =>
    let bs := s.dataOf x d z a.lane
    let s := s.sign x.w (storeRecord 0 a.lane a.va (sizeCode z) bs)
    match s.ctrOffset (s.warp x.w).vi a.va with
    | some off =>
      if z == .b64 then
        s.updWarp x.w fun y => { y with region := { y.region with ctrStores := y.region.ctrStores ++ [(off, leNat bs)] } }
      else s
    | none => s.storeLane x vec ovf nt a bs) s

/-- A line whose commit is still under way: a store to it waits, since a warp has one dirty copy of a line (R263). -/
def Warp.committingAt (w : Warp) (line : Nat) : Bool := w.dirty.any fun d => d.line == line && d.state == .committing

/-- A data store once its lanes are checked. -/
def State.storeChecked (s : State) (x : Issue) (f : Foot) (vec : Bool) (d : Reg) (z : Size) (nt : Bool) (as : List Lane) : Out :=
  let w := s.warp x.w
  let lines := dedup ((as.filter fun a => !s.onCounters x.w a.va).map fun a => a.pa / 64)
  let new := s.newLines x.w lines
  let full := s.noWay x.w new
  if lines.any w.committingAt then ok (s.stallAt x.w 10)
  else if let some s := s.afterEvict x.w lines then ok (s.stallAt x.w 10)
  else if w.region.issued != 0 && (decide (64 < w.regionLines + new.length) || !full.isEmpty) then
    ok (if w.older.isSome then s.stallAt x.w 10 else s.split x.w 10)
  else if full.isEmpty then
    ok ((s.storeAll x vec d z nt [] as).finish x f [] x.next false)
  else if (s.coreOf x.w).ovfWarp.isSome || w.older.isSome then ok (s.stallAt x.w 10)
  else
    let s := s.updCore (s.blockOf x.w).core fun c => { c with ovfWarp := some x.w }
    ok ((s.storeAll x vec d z nt full as).finish x f [] x.next true)

def execSt (g : Guard) (d : Reg) (base : MemBase) (off : BitVec 24) (size : Size) (hint : Bool) (s : State) : Out :=
  let f := foot (guardIds g ++ baseIds base ++ regIds size.regs d) []
  let vec := isVec noReg [d, baseReg base]
  s.withIssue fun x =>
    match s.enter x f with
    | .hold s => ok s
    | .go s =>
      if !(s.warp x.w).roomIn .s then ok (s.stallAt x.w 2)
      else
        let ls := (s.memLanes x g vec).filter fun y => !y.2
        let (looks, s) := s.lookAll ls fun s y =>
          s.lookGlobal x.w y (s.ea x (baseReg base) off 64 y.1) size.bytes .write false
        match x.decide vec looks with
        | .stop st => ok (s.takeStop x.w st)
        | .park ns => ok (s.park x.w f.reads ns)
        | .fine looks => s.storeChecked x f vec d size hint (looks.filterMap Look.lane?)

/-! ### Closing words: what they share -/

/-- A closing word waits, its region committed; one that is staged stays so. -/
def State.holdClosing (s : State) (x : Issue) (reason : Nat) : Out :=
  match (s.warp x.w).hold with
  | .staged _ => ok (s.stallAt x.w reason)
  | _ => ok (s.updWarp x.w fun y => { y with hold := .commit x, stall := reason })

/-- What services of a word that waits for them as a whole ask for and have not failed. -/
def Warp.asked (w : Warp) (n : Need) : Bool := w.needs.any fun m => m.lanes == 0 && m.what == n.what

/-- The service that failed among those that such a word asks for, with its cause and record. -/
def Warp.serviceFailed (w : Warp) (ns : List Need) : Option (Need × Nat × List Nat) :=
  ns.findSome? fun n => (w.needs.find? fun m => m.lanes == 0 && m.what == n.what).bind fun m => m.failed.map fun c => (n, c)

/-- The services that such a word asks for are asked for. -/
def Warp.ask (w : Warp) (ns : List Need) : Warp :=
  { w with needs := w.needs ++ (ns.map fun n => { n with lanes := 0 }).filter fun n => !w.asked n }

/-- It asks for none any more. -/
def Warp.asksNone (w : Warp) : Warp := { w with needs := w.needs.filter fun n => n.lanes != 0 }

/-- A cause of checks 1 to 4 found as the word is performed: it stops the word alone, and for a service the word waits, its warp
issuing nothing (R188, R490). -/
def State.redone (s : State) (x : Issue) (c : Checked) : Out :=
  match c with
  | .stop st => ok (s.takeStop x.w (x.stopAlone st.cause st.lanes st.addr []))
  | .park ns =>
    match (s.warp x.w).serviceFailed ns with
    | some (n, c, r) => ok ((s.updWarp x.w Warp.asksNone).takeStop x.w (x.stopAlone c n.lanes n.addr r))
    | none => (s.updWarp x.w fun w => w.ask ns).holdClosing x 5
  | .fine _ => ok s

/-- The end of a closing word that was an access: its counter is credited and the interval advances (R141, R346). -/
def State.endSync (s : State) (x : Issue) (k : Counter) (performed : Bool) : State :=
  let s := s.creditSync x.w k
  let s := if performed then s.advance x.w 16 else s
  (s.updWarp x.w fun y => { y.asksNone with pins := [] }).finishClosed x x.next

/-- The checks at issue of a closing word over looks. -/
def State.foundLooks (s : State) (x : Issue) (vec : Bool) (looks : List Look) : Found :=
  match x.decide vec looks with
  | .stop st => .stop st s
  | .park ns => .park ns s
  | .fine _ => .clear s

/-! ### Global acquire and release (R283) -/

/-- The lanes of a global sync word looked at: those that are no helpers, and the helpers. -/
def State.syncLooks (s : State) (x : Issue) (g : Guard) (vec : Bool) (base : MemBase) (off : BitVec 24) (n : Nat) (u : Use) :
    List Look × List Look × State :=
  let ls := s.memLanes x g vec
  let look (s : State) (y : Nat × Bool) : Look × State := s.lookGlobal x.w y (s.ea x (baseReg base) off 64 y.1) n u false
  let (a, s) := s.lookAll (ls.filter fun y => !y.2) look
  let (b, s) := s.lookAll (ls.filter fun y => y.2) look
  (a, b, s)

/-- Words and virtual addresses of lanes as the homes order them. -/
def Lane.words (n : Nat) (as : List Lane) : List Nat := as.flatMap fun a => wordsOf a.pa n

/-- An acquire load performed at its homes. -/
def State.acquire (s : State) (x : Issue) (i : Instr) (busy vec : Bool) (d : Reg) (n : Nat) (ls : List (Nat × Bool)) (live : List Lane)
    (helped : List Lane) : Out :=
  let mem := live.filter fun a => !s.onCounters x.w a.va
  if !mem.isEmpty && busy then s.holdClosing x 9
  else if s.homesWait x.w (Lane.words n mem) then s.holdClosing x 1
  else
    match s.turnstile x i .acquire false (mem.map Lane.va) (Lane.words n mem) with
    | .held s => ok s
    | .go s =>
      match s.inversion x.w (Lane.words n mem) with
      | some e => ok (s.takeStop x.w (s.inversionStop x vec (laneMask (mem.map Lane.lane)) ((mem.map Lane.va).headD 0) e))
      | none =>
        let s := s.writeBackAll x.w
        let a := s.access x.w .acquire false
        match hitOf (s.globalConflicts x.w a none (mem.map fun y => (y, wordsOf y.pa n))) (mem.filter fun y => s.poisonedFor (s.blockOf x.w).core y.pa) with
        | some h =>
          let (st, s) := s.raceAlone x vec h 2 .acquire false false
          ok (s.takeStop x.w st)
        | none =>
          let vi := (s.warp x.w).vi
          let s := mem.foldl (fun (s : State) y => s.reach (s.blockOf x.w).core vi y.va y.pa) (s.spend (s.blockOf x.w).core vi mem.length)
          let s := s.recordWords vi a (Lane.words n mem)
          let all := mem ++ (helped.filter fun y => !s.poisonedFor (s.blockOf x.w).core y.pa && !s.onCounters x.w y.va)
          let vals := ls.map fun y =>
            (y.1, match all.find? fun b => b.lane == y.1 with
              | some b => leNat (s.mem.readBytes b.pa n)
              | none => 0)
          let r := loadResult (s.warp x.w) vec d (n / 4) [] vals
          let s := (s.logSync x.w mem).forward x.w r.ws
          ok ((s.updWarp x.w fun y => y.apply r.ws).endSync x .l (!ls.isEmpty))

def execLdAcq (g : Guard) (d : Reg) (base : MemBase) (off : BitVec 24) (w64 : Bool) (scope : Scope) (s : State) : Out :=
  let z := wideSize w64
  let f := foot (guardIds g ++ baseIds base) (regIds z.regs d)
  let vec := isVec d [baseReg base]
  s.withIssue fun x =>
    s.closingCounted x f true (some .l)
      (fun s =>
        let (a, _, s) := s.syncLooks x g vec base off z.bytes .read
        s.foundLooks x vec a)
      fun s =>
        if s.secondary x.w then s.secondaryTakes x fun s => s.endSync x .l (!(s.memLanes x g vec).isEmpty)
        else
          let busy := s.portShort x.w
          let (a, b, s) := s.syncLooks x g vec base off z.bytes .read
          match x.decide vec a with
          | .fine a => s.acquire x (.ldAcq g d base off w64 scope) busy vec d z.bytes (s.memLanes x g vec) (a.filterMap Look.lane?) (b.filterMap Look.lane?)
          | c => s.redone x c

/-- A release store performed at its homes. -/
def State.release (s : State) (x : Issue) (i : Instr) (busy vec : Bool) (d : Reg) (z : Size) (live : List Lane) : Out :=
  let n := z.bytes
  let mem := live.filter fun a => !s.onCounters x.w a.va
  if !mem.isEmpty && busy then s.holdClosing x 9
  else if s.homesWait x.w (Lane.words n mem) then s.holdClosing x 1
  else
    match s.turnstile x i .release false (mem.map Lane.va) (Lane.words n mem) with
    | .held s => ok s
    | .go s =>
      let s := s.writeBackAll x.w
      let a := s.access x.w .release true
      match hitOf (s.globalConflicts x.w a none (mem.map fun y => (y, wordsOf y.pa n))) [] with
      | some h =>
        let (st, s) := s.raceAlone x vec h 3 .release true false
        ok (s.takeStop x.w st)
      | none =>
        let vi := (s.warp x.w).vi
        let s := mem.foldl (fun (s : State) y => s.reach (s.blockOf x.w).core vi y.va y.pa) (s.spend (s.blockOf x.w).core vi mem.length)
        let s := s.recordWords vi a (Lane.words n mem)
        let s := mem.foldl (fun (s : State) (y : Lane) => { s with mem := s.mem.writeBytes y.pa (s.dataOf x d z y.lane) }) s
        ok ((s.logSync x.w mem).endSync x .s (!live.isEmpty))

def execStRel (g : Guard) (d : Reg) (base : MemBase) (off : BitVec 24) (w64 : Bool) (scope : Scope) (s : State) : Out :=
  let z := wideSize w64
  let f := foot (guardIds g ++ baseIds base ++ regIds z.regs d) []
  let vec := isVec noReg [d, baseReg base]
  s.withIssue fun x =>
    s.closingCounted x f true (some .s)
      (fun s =>
        let lanes := laneMask (((s.memLanes x g vec).filter fun y => !y.2).map Prod.fst)
        match s.lateStop x (if lanes = 0 then 0 else x.told vec lanes) with
        | some st => .stop st s
        | none =>
          let (a, _, s) := s.syncLooks x g vec base off z.bytes .write
          let s := (a.filterMap Look.lane?).foldl (fun (s : State) y =>
            s.sign x.w (storeRecord 0 y.lane y.va (sizeCode z) (s.dataOf x d z y.lane))) s
          s.foundLooks x vec a)
      fun s =>
        let busy := s.portShort x.w
        let (a, _, s) := s.syncLooks x g vec base off z.bytes .write
        if s.secondary x.w then ok (s.endSync x .s (!a.isEmpty))
        else
          match x.decide vec a with
          | .fine a => s.release x (.stRel g d base off w64 scope) busy vec d z (a.filterMap Look.lane?)
          | c => s.redone x c

/-! ### The scratchpad: what its words share -/

/-- The access reaches the warp's trap area, as `lookSp` names it. -/
def Lane.inTrap (a : Lane) : Bool := a.blk == 2 ^ 64

/-- Words that the commit of a region holds against every other access (R153). -/
def State.spWordsHeld (s : State) (b : Nat) (words : List Nat) : Bool :=
  s.warps.any fun v => v.older.any fun o => o.spAtoms.any fun a => a.blk == b && words.contains a.off

/-- The same for the words of lanes. -/
def State.spHeld (s : State) (xs : List (Lane × Nat)) : Bool := xs.any fun y => s.spWordsHeld y.1.blk (wordsOf y.1.pa y.2)

/-- A word that a region has read and not yet written (R146, R148). -/
def Region.readBefore (r : Region) (a : Lane) (n : Nat) : Bool :=
  (wordsOf a.pa n).any fun o => r.spRead.contains (a.blk, o / 4) && !r.spWrit.contains (a.blk, o / 4)

/-- A word read joins the region's read set: at most 256 lines (R150). -/
def Region.noteRead (r : Region) (b word : Nat) : Region :=
  if r.spRead.contains (b, word) || r.spWrit.contains (b, word) then r
  else
    let lines := dedup (r.spRead.map fun y => y.1 * 2 ^ 24 + y.2 / 16)
    if lines.contains (b * 2 ^ 24 + word / 16) || decide (lines.length < 256) then { r with spRead := r.spRead ++ [(b, word)] }
    else { r with spFull := true }

def Region.noteWrite (r : Region) (b word : Nat) : Region :=
  if r.spWrit.contains (b, word) then r else { r with spWrit := r.spWrit ++ [(b, word)] }

/-- SPMAP.REF of a page (R90). -/
def State.reference (s : State) (b p : Nat) : State :=
  let e := s.spEntry b p
  if e.p then s.setSpEntry b p { e with ref := true } else s

/-- A word's read recorded, by a warp of the block or of another member (R367, R368). -/
def State.spMarkRead (s : State) (w b o : Nat) (k : AccClass) : State :=
  let s := s.reference b (o / 4096)
  if b == (s.warp w).block then s.spRecord b (o / 4096) (o % 4096 / 4) (s.warp w).windex k false
  else (s.crossGang w b).spRecordRemoteRead b (o / 4096) (o % 4096 / 4) k

/-- A word's write recorded; none where the remote mark table has no room (R368). -/
def State.spMarkWrite (s : State) (w b o : Nat) (k : AccClass) : Option State :=
  if b == (s.warp w).block then some (s.spRecord b (o / 4096) (o % 4096 / 4) (s.warp w).windex k true)
  else if k.sync then some (s.crossGang w b)
  else (s.crossGang w b).remoteRecord b (o / 4) (s.access w k true)

/-- The bytes of a lane. -/
def State.spRead (s : State) (w : Nat) (a : Lane) (n : Nat) : List Byte :=
  if a.inTrap then (List.range n).map fun i => s.spByte (s.warp w).block (4096 * trapPage (s.warp w).windex + a.pa + i)
  else (List.range n).map fun i => s.spSeen a.blk (a.pa + i)

/-- The free values that reads of some lanes have taken are used up. -/
def State.spTookAll (s : State) (as : List Lane) : State := (dedup (as.map fun a => a.blk)).foldl (fun (s : State) b => s.spTook b) s

/-- The words of a lane are poisoned. -/
def State.spPoison (s : State) (n : Nat) (a : Lane) : Bool := (wordsOf a.pa n).any fun o => s.spPoisoned a.blk o

/-- The looks of a scratchpad word. -/
def State.spLooks (s : State) (x : Issue) (g : Guard) (vec : Bool) (base : Reg) (off : BitVec 24) (n : Nat) (rmt data write : Bool) :
    List Look × List Look :=
  let ls := s.memLanes x g vec
  let look (y : Nat × Bool) : Look := s.lookSp x.w y (s.ea x base off 32 y.1) n rmt data write
  ((ls.filter fun y => !y.2).map look, (ls.filter fun y => y.2).map look)

/-- The values of a load's lanes: a helper lane reads 0 where a cause stands in the way (R139). -/
def State.spValues (s : State) (w : Nat) (z : Size) (ls : List (Nat × Bool)) (live helped : List Lane) : List (Nat × Nat) :=
  let good := live ++ helped.filter fun a => a.inTrap || !s.spPoison z.bytes a
  ls.map fun y => (y.1, match good.find? fun a => a.lane == y.1 with
    | some a => extend z (s.spRead w a z.bytes)
    | none => 0)

/-! ### Scratchpad data and count accesses (R286 to R288) -/

/-- A data or count load of the scratchpad. -/
structure SpLoadW where
  g : Guard
  d : Reg
  base : Reg
  off : BitVec 24
  rmt : Bool
  size : Size
  cnt : Bool

def SpLoadW.vec (k : SpLoadW) : Bool := isVec k.d [k.base]

def SpLoadW.foot (k : SpLoadW) : Foot :=
  { reads := guardIds k.g ++ regIds 1 k.base, writes := regIds k.size.regs k.d, pend := true, replay := true, priv := false, pair := false }

def spClass (cnt : Bool) : AccClass := if cnt then .count else .data

def State.spLoad (s : State) (x : Issue) (k : SpLoadW) : Loaded :=
  let n := k.size.bytes
  let c := spClass k.cnt
  let (looks, helped) := s.spLooks x k.g k.vec k.base k.off n k.rmt (!k.cnt) false
  match x.decide k.vec looks with
  | .stop st => .stop st s
  | .park ns => .park ns s
  | .fine looks =>
    let all := looks.filterMap Look.lane?
    let live := all.filter fun a => !a.inTrap
    let live' := live.map fun a => (a, n)
    if s.spHeld live' then .wait 10 s
    else
      match hitOf (s.spConflicts x.w c false live') (live.filter (s.spPoison n)) with
      | some h =>
        let (st, s) := s.raceStop x k.vec h (kindOf c false) c false true
        .stop st s
      | none =>
        let vals := s.spValues x.w k.size (s.memLanes x k.g k.vec) all (helped.filterMap Look.lane?)
        let r := loadResult (s.warp x.w) k.vec k.d k.size.regs (srcsFrom 0 [(k.base, .n32)]) vals
        let s := live.foldl (fun (s : State) (a : Lane) => (wordsOf a.pa n).foldl (fun (s : State) o =>
          (s.spMarkRead x.w a.blk o c).updWarp x.w fun y => { y with region := y.region.noteRead a.blk (o / 4) }) s) s
        .got r (s.spTookAll live)

def execLdsp (g : Guard) (d : Reg) (base : Reg) (off : BitVec 24) (rmt : Bool) (size : Size) (s : State) : Out :=
  let k : SpLoadW := ⟨g, d, base, off, rmt, size, false⟩
  s.loadWord k.foot fun s x => s.spLoad x k

def execLdspCnt (g : Guard) (d : Reg) (base : Reg) (off : BitVec 24) (rmt : Bool) (s : State) : Out :=
  let k : SpLoadW := ⟨g, d, base, off, rmt, .b32, true⟩
  s.loadWord k.foot fun s x => s.spLoad x k

/-- Bytes stored in place with their marks; none where the remote mark table has no room. -/
def State.spStoreBytes (s : State) (x : Issue) (z : Size) (c : AccClass) (a : Lane) (bs : List Byte) : Option State :=
  let s := s.sign x.w (storeRecord 1 a.lane a.va (sizeCode z) bs)
  if a.inTrap then some (s.trapStore x.w a.pa bs)
  else
    ((wordsOf a.pa z.bytes).foldl (fun (acc : Option State) o => acc.bind fun s => s.spMarkWrite x.w a.blk o c) (some s)).map fun s =>
      ((s.noteOld a.blk a.pa z.bytes).spWriteBytes a.blk a.pa bs).updWarp x.w fun y =>
        { y with region := (wordsOf a.pa z.bytes).foldl (fun (r : Region) o => r.noteWrite a.blk (o / 4)) y.region }

/-- A store to the scratchpad once its lanes are checked: it waits, splits its region or stops, or [store] is made and the word
ends as [fin] says (R148, R153, R285). -/
def State.spStoreGo (s : State) (x : Issue) (vec : Bool) (n : Nat) (c : AccClass) (all : List Lane) (store : State → Option State)
    (fin : State → State) : Out :=
  let live := all.filter fun a => !a.inTrap
  let w := s.warp x.w
  let clobbers (r : Region) : Bool := !live.isEmpty && (r.spFull || live.any fun a => r.readBefore a n)
  if s.spHeld (live.map fun a => (a, n)) || (match w.older with | some o => clobbers o | none => false) then
    ok (s.stallAt x.w 10)
  else if w.region.issued != 0 && clobbers w.region then
    ok (if w.older.isSome then s.stallAt x.w 10 else s.split x.w 9)
  else
    match hitOf (s.spConflicts x.w c true (live.map fun a => (a, n))) (live.filter (s.spPoison n)) with
    | some h =>
      let (st, s) := s.raceStop x vec h (kindOf c true) c true true
      ok (s.takeStop x.w st)
    | none =>
      match store s with
      | none => ok (s.stallAt x.w 10)
      | some s => ok (fin s)

/-- The data or count store of the scratchpad. -/
def State.spStore (s : State) (g : Guard) (d : Reg) (base : Reg) (off : BitVec 24) (rmt : Bool) (z : Size) (cnt : Bool) : Out :=
  let n := z.bytes
  let c := spClass cnt
  let f := foot (guardIds g ++ regIds 1 base ++ regIds z.regs d) []
  let vec := isVec noReg [d, base]
  s.withIssue fun x =>
    match s.enter x f with
    | .hold s => ok s
    | .go s =>
      if !(s.warp x.w).roomIn .s then ok (s.stallAt x.w 2)
      else
        let (looks, _) := s.spLooks x g vec base off n rmt (!cnt) true
        match x.decide vec looks with
        | .stop st => ok (s.takeStop x.w st)
        | .park ns => ok (s.park x.w f.reads ns)
        | .fine looks =>
          let all := looks.filterMap Look.lane?
          s.spStoreGo x vec n c all
            (fun s => all.foldl (fun (acc : Option State) a => acc.bind fun s => s.spStoreBytes x z c a (s.dataOf x d z a.lane)) (some s))
            fun s => (s.countDone x.w .s).finish x f [] x.next false

def execStsp (g : Guard) (d : Reg) (base : Reg) (off : BitVec 24) (rmt : Bool) (size : Size) (s : State) : Out :=
  s.spStore g d base off rmt size false

def execStspCnt (g : Guard) (d : Reg) (base : Reg) (off : BitVec 24) (rmt : Bool) (s : State) : Out :=
  s.spStore g d base off rmt .b32 true

/-! ### Scratchpad acquire and release (R288) -/

/-- The pages of a closing word are pinned from its check to its performance (R419). -/
def State.pin (s : State) (w : Nat) (as : List Lane) : State :=
  s.updWarp w fun y => { y with pins := y.pins ++ (as.filter fun a => !a.inTrap).map fun a => (a.blk, a.pa / 4096) }

def execLdspAcq (g : Guard) (d : Reg) (base : Reg) (off : BitVec 24) (w64 : Bool) (s : State) : Out :=
  let z := wideSize w64
  let f := foot (guardIds g ++ regIds 1 base) (regIds z.regs d)
  let vec := isVec d [base]
  s.withIssue fun x =>
    s.closingCounted x f true (some .l)
      (fun s =>
        let (a, _) := s.spLooks x g vec base off z.bytes false false false
        (s.pin x.w (a.filterMap Look.lane?)).foundLooks x vec a)
      fun s =>
        let (a, b) := s.spLooks x g vec base off z.bytes false false false
        match x.decide vec a with
        | .fine a =>
          let live := a.filterMap Look.lane?
          let live' := live.map fun y => (y, z.bytes)
          if s.spHeld live' then s.holdClosing x 10
          else
            match hitOf (s.spConflicts x.w .acquire false live') (live.filter (s.spPoison z.bytes)) with
            | some h =>
              let (st, s) := s.raceAlone x vec h 2 .acquire false true
              ok (s.takeStop x.w st)
            | none =>
              let ls := s.memLanes x g vec
              let r := loadResult (s.warp x.w) vec d z.regs [] (s.spValues x.w z ls live (b.filterMap Look.lane?))
              let s := live.foldl (fun (s : State) (y : Lane) =>
                (wordsOf y.pa z.bytes).foldl (fun (s : State) o => s.spMarkRead x.w y.blk o .acquire) s) (s.spTookAll live)
              ok ((s.updWarp x.w fun y => y.apply r.ws).endSync x .l (!ls.isEmpty))
        | c => s.redone x c

def execStspRel (g : Guard) (d : Reg) (base : Reg) (off : BitVec 24) (w64 : Bool) (s : State) : Out :=
  let z := wideSize w64
  let f := foot (guardIds g ++ regIds 1 base ++ regIds z.regs d) []
  let vec := isVec noReg [d, base]
  s.withIssue fun x =>
    s.closingCounted x f true (some .s)
      (fun s =>
        let lanes := laneMask (((s.memLanes x g vec).filter fun y => !y.2).map Prod.fst)
        match s.lateStop x (if lanes = 0 then 0 else x.told vec lanes) with
        | some st => .stop st s
        | none =>
          let (a, _) := s.spLooks x g vec base off z.bytes false false true
          let s := (a.filterMap Look.lane?).foldl (fun (s : State) y =>
            s.sign x.w (storeRecord 1 y.lane y.va (sizeCode z) (s.dataOf x d z y.lane))) s
          (s.pin x.w (a.filterMap Look.lane?)).foundLooks x vec a)
      fun s =>
        let (a, _) := s.spLooks x g vec base off z.bytes false false true
        match x.decide vec a with
        | .fine a =>
          let live := a.filterMap Look.lane?
          let live' := live.map fun y => (y, z.bytes)
          if s.spHeld live' then s.holdClosing x 10
          else
            match hitOf (s.spConflicts x.w .release true live') (live.filter (s.spPoison z.bytes)) with
            | some h =>
              let (st, s) := s.raceAlone x vec h 3 .release true true
              ok (s.takeStop x.w st)
            | none =>
              let s := live.foldl (fun (s : State) (y : Lane) => (s.noteOld y.blk y.pa z.bytes).spWriteBytes y.blk y.pa (s.dataOf x d z y.lane)) s
              ok (s.endSync x .s (!live.isEmpty))
        | c => s.redone x c

/-! ### Prefetch and eviction (R290, R291) -/

/-- The lines that the lanes name and may read; a lane with any cause names none. -/
def State.prefLines (s : State) (x : Issue) (base : MemBase) (off : BitVec 24) (ls : List (Nat × Bool)) : List (Nat × Nat) × State :=
  ls.foldl (fun (acc : List (Nat × Nat) × State) y =>
    let va := acc.2.ea x (baseReg base) off 64 y.1
    let (r, s) := acc.2.translate (acc.2.blockOf x.w).core (acc.2.warp x.w).vi va .read false
    match r with
    | .ok pa => (if s.onCounters x.w va || acc.1.any fun z => z.2 == pa / 64 then acc.1 else acc.1 ++ [(va, pa / 64)], s)
    | _ => (acc.1, s)) ([], s)

/-- A prefetch word with its effect on the lines; [fetch] when the lines come from their homes. -/
def State.prefetch (s : State) (g : Guard) (base : MemBase) (off : BitVec 24) (helpers fetch : Bool)
    (f : State → Issue → List (Nat × Nat) → State) : Out :=
  let ft := foot (guardIds g ++ baseIds base) []
  s.withIssue fun x =>
    match s.enter x ft with
    | .hold s => ok s
    | .go s =>
      let busy := s.portShort x.w
      let ls := (s.memLanes x g (isVec noReg [baseReg base])).filter fun y => helpers || !y.2
      let (lines, s) := s.prefLines x base off ls
      if fetch && !lines.isEmpty && busy then ok (s.stallAt x.w 9)
      else if let some s := s.afterEvict x.w (if fetch then lines.map Prod.snd else []) then ok (s.stallAt x.w 10)
      else
        let s := if fetch then s.spend (s.blockOf x.w).core (s.warp x.w).vi lines.length else s
        ok ((f s x lines).finish x ft [] x.next false)

def execPrefL1 (g : Guard) (base : MemBase) (off : BitVec 24) (s : State) : Out :=
  s.prefetch g base off true true fun s x lines =>
    lines.foldl (fun (s : State) y => (s.reach (s.blockOf x.w).core (s.warp x.w).vi y.1 (64 * y.2)).fillClean x.w y.2) s

def execPrefL2 (g : Guard) (base : MemBase) (off : BitVec 24) (s : State) : Out :=
  s.prefetch g base off true true fun s x lines =>
    lines.foldl (fun (s : State) y => s.reach (s.blockOf x.w).core (s.warp x.w).vi y.1 (64 * y.2)) s

def execPrefEvict (g : Guard) (base : MemBase) (off : BitVec 24) (s : State) : Out :=
  s.prefetch g base off false false fun s x lines =>
    s.updWarp x.w fun y => { y with region := { y.region with evicts := y.region.evicts ++ lines.map Prod.fst } }

/-! ### The scratchpad map (R292 to R294) -/

def execSpmapFlush (g : Guard) (s : State) : Out :=
  let f := foot (guardIds g) []
  s.withIssue fun x =>
    match s.enter x f with
    | .hold s => ok s
    | .go s =>
      if s.acting x g false = 0 then ok (s.finish x f [] x.next false)
      else
        match s.lateStop x x.active with
        | some st => ok (s.takeStop x.w st)
        | none =>
          let s := s.updWarp x.w fun y => { y with region := { y.region with flush := some x.pc } }
          ok (s.finish x f [] x.next false)

/-- An entry of the map in the layout of R90. A slot number over 4,095, which the field cannot hold, shows its low 12 bits, a
DESIGN CHOICE (notes/assumptions/98.md). -/
def SpEntry.word (e : SpEntry) : Nat :=
  let f (b : Bool) (n : Nat) := if b then 2 ^ n else 0
  f e.p 31 + f e.d 30 + f e.b 29 + f e.win 28 + f e.wr 27 + e.winix % 4 * 2 ^ 25 + f e.ref 24 + e.slot % 4096 * 2 ^ 9 + e.frame % 512

/-- A scalar word whose one result is written at issue. -/
def State.scalarWord (s : State) (g : Guard) (d : Reg) (n : Nat) (reads : List Nat) (val : State → Issue → Nat × State) : Out :=
  let f := foot (guardIds g ++ reads) (regIds n d)
  s.withIssue fun x =>
    match s.enter x f with
    | .hold s => ok s
    | .go s =>
      if s.acting x g false = 0 then ok (s.finish x f [] x.next false)
      else
        let (v, s) := val s x
        let s := s.updWarp x.w fun y => y.apply (regWrites d n 0 v)
        ok (s.finish x f (regIds n d) x.next false)

def execSpmapQuery (g : Guard) (d a : Reg) (s : State) : Out :=
  s.scalarWord g d 1 (regIds 1 a) fun s x =>
    let p := s.src x ⟨a, .n32, 0⟩ 0
    (if p < (s.launchOf x.w).sppages then (s.spEntry (s.warp x.w).block p).word else 0, s)

/-! ### Residency handles (R295, R296) -/

/-- The range of a bind is in order: whole lines, not empty, canonical throughout. -/
def bindOk (a n : Nat) : Bool :=
  a % 64 == 0 && n % 64 == 0 && n != 0 && canonical a && canonical (a + n - 1) && bit a 63 == bit (a + n - 1) 63

/-- `resid.bind`: its status and what it changes. -/
def State.bind (s : State) (vi h a n p : Nat) : Nat × State :=
  let bound := (s.vi vi).handles.foldl (fun (t : Nat) y => if y.1 = h then t else t + y.2.len) 0
  if !bindOk a n then (2, s)
  else if (s.vi vi).cfg.resq < bound + n then (1, s)
  else
    let s := s.unbind vi h
    (0, s.updVi vi fun v => { v with handles := sins v.handles h ⟨a, n, p⟩ })

/-- A word performed by the primary copy alone, whose status the secondary takes (R445). -/
def State.residWord (s : State) (g : Guard) (d : Reg) (reads : List Nat) (run : State → Issue → Nat × State) : Out :=
  let f := foot (guardIds g ++ reads) (regIds 1 d)
  s.withIssue fun x =>
    match s.enter x f with
    | .hold s => ok s
    | .go s =>
      if s.acting x g false = 0 then ok (s.finish x f [] x.next false)
      else if s.secondary x.w then
        match s.takeForwarded x.w with
        | none => ok (s.stallAt x.w 10)
        | some s => ok (s.finish x f (regIds 1 d) x.next false)
      else
        let (v, s) := run s x
        let ws := regWrites d 1 0 v
        ok (((s.updWarp x.w fun y => y.apply ws).forward x.w ws).finish x f (regIds 1 d) x.next false)

def execResidBind (g : Guard) (d a b : Reg) (h : BitVec 8) (p : Fin 8) (s : State) : Out :=
  s.residWord g d (regIds 2 a ++ regIds 2 b) fun s x =>
    s.bind (s.warp x.w).vi h.toNat (s.src x ⟨a, .n64, 0⟩ 0) (s.src x ⟨b, .n64, 2⟩ 0) p.val

def execResidUnbind (g : Guard) (d : Reg) (h : BitVec 8) (s : State) : Out :=
  s.residWord g d [] fun s x => (0, s.unbind (s.warp x.w).vi h.toNat)

end Sys2Proof.Machine
end

