-- ==== Sys2Proof/Machine/Control.lean ====
section
/-!
DEFINITION. The words of control, regions and the system (spec/09 R162 to R188): branches with path signatures and branch
records (spec/23 R415, R416), exits, traps and their return with the replay queue (spec/27 R426 to R428), waits, system
registers, clocks, random numbers, counters, marks and launches.
-/

namespace Sys2Proof.Machine

/-! ### The plain shape -/

/-- A word that is part of its region, after the checks before it. -/
def State.plainWord (s : State) (f : Foot) (run : State → Issue → Out) : Out :=
  s.withIssue fun x =>
    match s.enter x f with
    | .hold s => ok s
    | .go s => run s x

def execNop (g : Guard) (s : State) : Out :=
  let f := foot (guardIds g) []
  s.plainWord f fun s x => ok (s.finish x f [] x.next false)

/-! ### Branches (R164 to R168) -/

/-- The record and the fold of a branch that lanes [m] take (R168, R415, R416, R462). -/
def State.branchTaken (s : State) (x : Issue) (m : Nat) : State :=
  if mAnd m x.mask = 0 then s
  else
    let l := s.launchOf x.w
    let s := if l.sigOn then
      s.updWarp x.w fun w => { w with sig := crcBytes w.sig (byteList 8 x.pc ++ byteList 4 m) } else s
    if l.armed.contains (s.blockOf x.w).lin then
      s.updWarp x.w fun w => { w with region := { w.region with recs := w.region.recs ++ [(1, x.pc, m, w.icount)] } }
    else s

/-- The target of a branch by a word offset (R164). -/
def branchTarget (pc : Nat) (off : BitVec 30) : Nat := wrap 64 ((pc : Int) + 8 * off.toInt)

/-- The lanes [m] go to a target and the others to PC + 8. -/
def Issue.jump (x : Issue) (m target : Nat) : List Move := x.next ++ [⟨mAnd m x.mask, target, .ready, .none⟩]

/-- A branch by an offset, the lanes that take it computed from the state. -/
def State.branch (s : State) (g : Guard) (off : BitVec 30) (lanes : State → Issue → Nat) : Out :=
  let f := foot (guardIds g) []
  s.plainWord f fun s x =>
    let m := lanes s x
    ok ((s.branchTaken x m).finish x f [] (x.jump m (branchTarget x.pc off)) false)

def execBra (g : Guard) (off : BitVec 30) (s : State) : Out := s.branch g off fun s x => s.passing x g

def execElectBr (g : Guard) (off : BitVec 30) (s : State) : Out :=
  s.branch g off fun s x =>
    match lowLane (mDiff (s.passing x g) (s.warp x.w).allHelpers) with
    | some l => 2 ^ l
    | none => 0

/-- The first cause of targets: misaligned comes before address range (R165, R285). -/
def badTargets (xs : List (Nat × Nat)) : Option (Nat × List (Nat × Nat)) :=
  let a := xs.filter fun y => y.2 % 8 != 0
  let b := xs.filter fun y => !canonical y.2
  if !a.isEmpty then some (0x10, a) else if !b.isEmpty then some (0x11, b) else none

/-- `brx` and `ret`: a target in each lane. -/
def State.indirect (s : State) (g : Guard) (a : Reg) : Out :=
  let f := foot (guardIds g ++ regIds 2 a) []
  s.plainWord f fun s x =>
    let ts := (lanesOf (s.passing x g)).map fun l => (l, s.src x ⟨a, .n64, 0⟩ l)
    let own := ts.filter fun y => bit x.mask y.1
    match badTargets own with
    | some (c, hit) => ok (s.takeStop x.w (regionStop c (laneMask (hit.map Prod.fst)) ((hit.map Prod.snd).headD 0) x.pc []))
    | none =>
      let m := laneMask ((ts.filter fun y => y.2 != nextPc x.pc).map Prod.fst)
      let moves := own.map fun y => (⟨2 ^ y.1, y.2, .ready, .none⟩ : Move)
      ok ((s.branchTaken x m).finish x f [] (x.next ++ moves) false)

def execBrx (g : Guard) (a : Reg) (s : State) : Out := s.indirect g a

def execRet (g : Guard) (a : Reg) (s : State) : Out := s.indirect g a

def execCall (g : Guard) (d : Reg) (off : BitVec 30) (s : State) : Out :=
  let f := foot (guardIds g) (regIds 2 d)
  let vec := d.isVector
  s.plainWord f fun s x =>
    let act := s.acting x g vec
    let m := if vec then act else if act = 0 then 0 else x.active
    let ws := Writes.concat ((lanesOf act).map fun l => regWrites d 2 l (nextPc x.pc))
    let full := if (if vec then (s.warp x.w).covers act else act != 0) then regIds 2 d else []
    let s := (s.branchTaken x m).updWarp x.w fun w => w.apply ws
    ok (s.finish x f full (x.jump m (branchTarget x.pc off)) false)

/-! ### The end of lanes (R169) -/

/-- Lanes exit; in trap mode every lane of the handler subgroup does, and trap mode ends. -/
def State.exitLanes (s : State) (w lanes : Nat) : State :=
  let m := match (s.warp w).trap with
    | some t => mAnd t.sub (s.warp w).live
    | none => lanes
  let s := s.updWarp w fun y => { y with exited := mOr y.exited m, pct := takeLanes m y.pct }
  s.leaveTrap w 0

def execExit (g : Guard) (s : State) : Out :=
  let f := foot (guardIds g) []
  s.withIssue fun x =>
    s.closing x f false noCheck fun s =>
      let m := mAnd (s.passing x g) x.mask
      if m = 0 then ok (s.finishClosed x x.next)
      else
        let s := s.exitLanes x.w m
        ok ((s.finishClosed x x.next).afterExit x.w)

/-! ### Reconvergence (R174) -/

/-- Only a guard that never passes keeps it from its effect (R36): where a guard fails in every lane this time, the set is empty. -/
def execRcvSet (g : Guard) (b : Fin 8) (s : State) : Out :=
  let f := foot (guardIds g) []
  s.plainWord f fun s x =>
    let m := mAnd (s.passing x g) x.mask
    let s := if guardNever g then s else s.updWarp x.w fun w => (w.setRcv b.val ⟨m, 0⟩).rcvRelease b.val
    ok (s.finish x f [] x.next false)

def execRcvWait (g : Guard) (b : Fin 8) (s : State) : Out :=
  let f := foot (guardIds g) []
  s.plainWord f fun s x =>
    let m := mAnd (s.passing x g) x.mask
    let r := (s.warp x.w).rcvAt b.val
    let s := s.updWarp x.w fun w => w.setRcv b.val { r with arr := mOr r.arr m }
    let s := s.finish x f [] (x.next ++ [⟨mAnd m r.exp, nextPc x.pc, .waiting, .rcv b.val⟩]) false
    ok (s.updWarp x.w fun w => w.rcvCheck b.val)

/-! ### Regions and waits (R175 to R177) -/

def execRegionBegin (g : Guard) (s : State) : Out :=
  let f := foot (guardIds g) []
  s.plainWord f fun s x =>
    if (s.warp x.w).older.isSome then ok (s.stallAt x.w 10) else ok (s.finish x f [] x.next true)

/-- What `region query` reads. -/
def Warp.regionWord (w : Warp) : Nat :=
  w.reentry % 256 + w.regionLines * 2 ^ 8 + (w.region.atoms.length + w.region.spAtoms.length) * 2 ^ 15 +
  (if w.region.spFull then 2 ^ 21 else 0) + if w.older.isSome then 2 ^ 22 else 0

def execRegionQuery (g : Guard) (d : Reg) (s : State) : Out :=
  s.scalarWord g d 1 [] fun s x => ((s.warp x.w).regionWord, s)

/-- A counter is at most its immediate; 15 places no condition. -/
def Warp.atMost (w : Warp) (k : Counter) (n : BitVec 4) : Bool := n == 15 || decide (w.counter k ≤ n.toNat)

def execWait (g : Guard) (l s' c t : BitVec 4) (s : State) : Out :=
  let f := foot (guardIds g) []
  s.plainWord f fun s x =>
    let w := s.warp x.w
    if s.acting x g false = 0 || (w.atMost .l l && w.atMost .s s' && w.atMost .c c && w.atMost .t t) then
      ok (s.finish x f [] x.next false)
    else ok (s.stallAt x.w 2)

def execSleep (g : Guard) (a : Reg) (s : State) : Out :=
  let f := foot (guardIds g ++ regIds 1 a) []
  s.plainWord f fun s x =>
    let n := s.src x ⟨a, .n32, 0⟩ 0
    let s := if s.acting x g false = 0 || n = 0 then s else s.updWarp x.w fun w => { w with hold := .sleep (s.clock + n) x }
    ok (s.finish x f [] x.next false)

/-! ### Traps and breakpoints (R170, R171) -/

def execTrap (g : Guard) (n : BitVec 16) (s : State) : Out :=
  let f := foot (guardIds g) []
  s.withIssue fun x =>
    s.closing x f false noCheck fun s =>
      let m := s.passing x g
      if m = 0 then ok (s.finishClosed x x.next)
      else
        let s := (s.updWarp x.w fun w => { (w.proceed x x.next) with hold := .none }).issueCounts x
        ok (s.takeStop x.w { (x.stop 0x06 m) with rpc := nextPc x.pc, code := n.toNat })

def execBrk (g : Guard) (n : BitVec 16) (s : State) : Out :=
  let f := foot (guardIds g) []
  s.plainWord f fun s x =>
    let m := s.passing x g
    if m = 0 then ok (s.finish x f [] x.next false)
    else ok (s.takeStop x.w { (x.stop 0x04 m) with code := n.toNat })

/-! ### The replay queue (R172, R173, R428) -/

/-- A dword of the trap area's entry [e]. -/
def State.replayDword (s : State) (w e k : Nat) : Nat := s.trapDword w (64 + 56 * e + k)

/-- Entry [e] of the replay queue as it stands in the trap area. -/
def State.replayAt (s : State) (w e : Nat) : ReplayEntry :=
  let word32 (i : Nat) : Word :=
    let d := s.replayDword w e (8 + i / 2)
    BitVec.ofNat 32 (if i % 2 = 0 then d else d / 2 ^ 32)
  { word := BitVec.ofNat 64 (s.replayDword w e 0), pc := signVa (s.replayDword w e 1), mask := s.replayDword w e 2 % 2 ^ 32
    nsrc := bits (s.replayDword w e 2) 33 32
    src := (List.range 32).flatMap fun l => (List.range 3).map fun i => (l, i, word32 (3 * l + i)) }

/-- TF.RQV. -/
def State.replayValid (s : State) (w : Nat) : Nat := bits (s.trapDword w 0) 47 40

/-- A number with one bit cleared. -/
def clearBit (x n : Nat) : Nat := if bit x n then x - 2 ^ n else x

/-- Entry [e] is no longer valid. -/
def State.invalidate (s : State) (w e : Nat) : State := s.trapStore w 0 (leBytes 8 (clearBit (s.trapDword w 0) (40 + e)))

/-- A word that the replay queue admits (R427) performed with what its issue says: its footprint, whether `l` counts it,
whether its flags are a vector word's, and its result; none for any other word. -/
def State.injected (s : State) (x : Issue) (i : Instr) : Option (Foot × Bool × Bool × (Unit → Loaded)) :=
  let alu (k : Alu) (f : LaneFn) : Option (Foot × Bool × Bool × (Unit → Loaded)) :=
    some (k.foot, false, k.vec, fun _ => .got (s.aluResult x k f) s)
  let cross (k : Cross) (f : CrossFn) : Option (Foot × Bool × Bool × (Unit → Loaded)) :=
    some (k.foot, false, !isScalarReg k.d, fun _ => .got (s.crossResult x k f) s)
  let load (k : LoadW) : Option (Foot × Bool × Bool × (Unit → Loaded)) := some (k.foot, true, true, fun _ => s.globalLoad x k)
  let spad (k : SpLoadW) : Option (Foot × Bool × Bool × (Unit → Loaded)) := some (k.foot, true, true, fun _ => s.spLoad x k)
  match i with
  | .ld g d base off size hint => load ⟨g, d, base, off, size, hint, false⟩
  | .ldc g d base off size => load ⟨g, d, base, off, size, false, true⟩
  | .ldsp g d base off rmt size => spad ⟨g, d, base, off, rmt, size, false⟩
  | .ldspCnt g d base off rmt => spad ⟨g, d, base, off, rmt, .b32, true⟩
  | .rcp g d a t r => alu (sfAlu (.rcp r) g d a t) (sfFn (.rcp r) t)
  | .rsq g d a t => alu (sfAlu .rsq g d a t) (sfFn .rsq t)
  | .sqrt g d a t r => alu (sfAlu (.sqrt r) g d a t) (sfFn (.sqrt r) t)
  | .ex2 g d a => alu (sfAlu .ex2 g d a .f32) (sfFn .ex2 .f32)
  | .lg2 g d a => alu (sfAlu .lg2 g d a .f32) (sfFn .lg2 .f32)
  | .sin g d a => alu (sfAlu .sin g d a .f32) (sfFn .sin .f32)
  | .cos g d a => alu (sfAlu .cos g d a .f32) (sfFn .cos .f32)
  | .tanh g d a => alu (sfAlu .tanh g d a .f32) (sfFn .tanh .f32)
  | .shfl g m d a b t p => cross (shflOp g d a b t p) (shflFn m)
  | .qswp g m d a t => cross (quadOp g d a t) (quadFn (qswpLane m))
  | .qbc g d a t j => cross (quadOp g d a t) (quadFn fun l => l / 4 * 4 + j.val)
  | .rdfst g d a t => cross (quadOp g d a t) (rdfstFn d)
  | .voteSome g p q n => cross (voteOp g p q) (someFn q.val n)
  | .voteEvery g p q n => cross (voteOp g p q) (everyFn q.val n)
  | .voteSame g p a t => cross (sameOp g p a t) sameFn
  | .voteBits g d q n => cross (countVoteOp g d q) (bitsFn d q.val n)
  | .voteCnt g d q n => cross (countVoteOp g d q) (cntFn d q.val n)
  | .redux g op d a t r sat => cross (reduxOp g d a t) (reduxFn op d t r sat)
  | .scan g op d a t e r sat => cross (reduxOp g d a t) (scanFn op t e r sat)
  | .matchAny g d a t fp => cross (matchAnyOp g d a t) (matchAnyFn t fp)
  | .matchAll g d p a t fp => cross (matchAllOp g d p a t) (matchAllFn t fp)
  | .elect g d p => cross (electOp g d p) electFn
  | .cvtmx g d sc a el k =>
    (s.slotFor x el k.val).map fun y => (cvtmxFoot g d sc a, false, true, fun _ => .got (s.cvtmxResult x g d sc a y) s)
  | .pairWord y z =>
    if slotPending z.op then some (pairFoot y z, false, false, fun _ => .got (s.pairResult x y z) s) else none
  | _ => none

/-- What performing an entry comes to. -/
inductive Injected where
  | done (s : State)
  | wait (reason : Nat) (s : State)
  | stop (st : Stop) (s : State)
  deriving DecidableEq, Repr

/-- A load's presence cause: it waits for the service, and has its cause once that has failed (R172, R173). -/
def State.injectNeeds (s : State) (x : Issue) (ns : List Need) : Injected :=
  match (s.warp x.w).serviceFailed ns with
  | some (n, c, r) => .stop { (x.stop c n.lanes) with addr := n.addr, record := r } s
  | none => .wait 5 (s.updWarp x.w fun w => w.ask ns)

/-- Entry [e] performed anew, as if issued at its PC. -/
def State.reinject (s : State) (w e : Nat) : Injected :=
  let r := s.replayAt w e
  let x : Issue := ⟨w, r.mask, r.mask, r.pc, r.word, some r.src⟩
  match decode r.word with
  | .error er => .stop (x.stop er.cause r.mask) s
  | .ok i =>
    match s.injected x i with
    | none => .stop (x.stop 0x01 r.mask) s
    | some (f, counts, vec, run) =>
      if (s.warp w).scoreboard f then .wait 1 s
      else if counts && !(s.warp w).roomIn .l then .wait 2 s
      else
        match run () with
        | .stop st s => .stop st s
        | .park ns s => s.injectNeeds x ns
        | .wait k s => .wait k s
        | .got res s =>
          match s.flagTrap x vec res.flags with
          | some st => .stop st s
          | none =>
            let s := (s.addFlags x vec res.flags).updWarp w fun y =>
              (y.consume res.drawn res.draws).asksNone
            let s := if counts && res.lanes == 0 then s.countDone w .l else s.pend x f res true counts
            .done (s.invalidate w e)

def execRinj (g : Guard) (d : Reg) (e : Fin 8) (s : State) : Out :=
  let f := { foot (guardIds g) (regIds 1 d) with priv := true }
  s.plainWord f fun s x =>
    let put (s : State) (c : Nat) : Out :=
      let s := s.updWarp x.w fun w => (w.apply (regWrites d 1 0 c)).asksNone
      ok (s.finish x f (regIds 1 d) x.next false)
    if s.acting x g false = 0 then ok (s.finish x f [] x.next false)
    else if !bit (s.replayValid x.w) e.val then put s 0
    else
      match s.reinject x.w e.val with
      | .done t => put t 0
      | .wait k t => ok (t.stallAt x.w k)
      | .stop st _ => put s st.cause

/-- A stop that a re-injected entry takes (R172): a new frame with the old frame's resume point, and the entries from [e] on
as the new queue; the handler is entered anew. -/
def State.restop (s : State) (w e : Nat) (st : Stop) : State :=
  let rpc := s.trapDword w 2
  let sub := s.trapDword w 4 % 2 ^ 32
  let valid := s.replayValid w
  let pc := s.replayDword w e 1
  let left := (List.range 8).filter fun k => e ≤ k && bit valid k
  let raw := left.map fun k => (List.range 56).flatMap fun i => leBytes 8 (s.replayDword w k i)
  let st := { st with rgn := false, discard := false, fpc := pc }
  let frame := frameDwords st pc rpc sub (2 ^ left.length - 1) s.devTime
  let s := s.emitStop w st pc frame
  let s := s.trapStore w 0 (frame.flatMap (leBytes 8))
  let s := ((List.range raw.length).zip raw).foldl (fun (s : State) y => s.trapStore w (512 + 448 * y.1) y.2) s
  s.updWarp w fun y =>
    let m := match y.trap with | some t => mAnd t.sub y.live | none => 0
    { (y.place m ((s.launchOf w).trap.getD 0) .ready .none) with hold := .none, needs := y.asksNone.needs, stall := 0 }

/-- What re-injection of entries in their order comes to, with the entry that stops or waits. -/
def State.reinjectAll (s : State) (w : Nat) : List Nat → Injected × Nat
  | [] => (.done s, 0)
  | e :: r =>
    if !bit (s.replayValid w) e then s.reinjectAll w r
    else
      match s.reinject w e with
      | .done t => t.reinjectAll w r
      | .wait k t => (.wait k t, e)
      | .stop st t => (.stop st t, e)

def execTrapret (g : Guard) (s : State) : Out :=
  let f := { foot (guardIds g) [] with priv := true }
  s.withIssue fun x =>
    s.closing x f false noCheck fun s =>
      if s.acting x g false = 0 then ok (s.finishClosed x x.next)
      else
        match s.reinjectAll x.w (List.range 8) with
        | (.wait k t, _) => t.holdClosing x k
        | (.stop st t, e) => ok ((t.restop x.w e st).issueCounts x)
        | (.done t, _) =>
          let rpc := t.trapDword x.w 2 % 2 ^ 57
          if rpc % 8 != 0 then ok (t.endUnresolved x.w { (x.stop 0x11 x.mask) with addr := rpc })
          else
            let t := (t.updWarp x.w fun w => { (w.proceed x []) with hold := .none }).issueCounts x
            ok (t.leaveTrap x.w (signVa rpc))

/-- The items of `finfo` (R187). -/
def frameItem (tf : Nat → Nat) (n : Nat) : Nat :=
  match n with
  | 0 => bits (tf 0) 63 56
  | 1 => bits (tf 0) 55 55
  | 2 => bits (tf 1) 31 0
  | 3 => bits (tf 1) 56 32
  | 4 => bits (tf 0) 31 0
  | 5 => bits (tf 3) 31 0
  | 6 => bits (tf 3) 63 32
  | 7 => if bit (tf 0) 48 then 0 else bits (tf 4) 47 32
  | 8 => bits (tf 0) 47 40
  | 9 => bits (tf 0) 38 32
  | _ => 0

def execFinfo (g : Guard) (d : Reg) (n : BitVec 8) (s : State) : Out :=
  let f := { foot (guardIds g) (regIds 1 d) with priv := true }
  s.plainWord f fun s x =>
    if s.acting x g false = 0 then ok (s.finish x f [] x.next false)
    else
      let s := s.updWarp x.w fun w => w.apply (regWrites d 1 0 (frameItem (s.trapDword x.w) n.toNat))
      ok (s.finish x f (regIds 1 d) x.next false)

/-! ### Words that give a value in each acting lane -/

/-- Registers of a destination written with a value in each acting lane, and those whose written bit that sets. -/
def State.spread (s : State) (x : Issue) (g : Guard) (d : Reg) (n : Nat) (val : Nat → Nat) : Writes × List Nat :=
  let vec := d.isVector
  let act := s.acting x g vec
  (Writes.concat ((lanesOf act).map fun l => regWrites d n l (val l)),
    if (if vec then (s.warp x.w).covers act else act != 0) then regIds n d else [])

/-! ### System registers (R178, R179) -/

/-- WMODE. -/
def State.wmode (s : State) (w : Nat) : Nat :=
  let l := s.launchOf w
  let f (b : Bool) (n : Nat) := if b then 2 ^ n else 0
  f (s.warp w).trap.isSome 0 + f l.det 1 + l.mode * 4 + f l.rdnt 4 + f (s.secondary w) 5

/-- The value of a system register in a lane. -/
def State.sysReg (s : State) (w n lane : Nat) : Nat :=
  let x := s.warp w
  match n with
  | 0x000 => x.fpstat
  | 0x001 => x.fptrap
  | 0x002 => x.dbgctl
  | 0x003 => s.wmode w
  | 0x004 => x.reentry % 256
  | 0x005 => (s.intervalOf x.party).1 % intervalMod
  | 0x006 => x.commits % 2 ^ 32
  | 0x007 => x.splits % 2 ^ 32
  | 0x008 => bits x.icount 31 0
  | 0x009 => bits x.icount 63 32
  | 0x00A => 0xF000_0000
  | 0x010 => bits (sget x.draws lane 0) 31 0
  | 0x011 => bits (sget x.draws lane 0) 53 32
  | _ => 0

def execSysRd (g : Guard) (d : Reg) (n : BitVec 12) (s : State) : Out :=
  let f := foot (guardIds g) (regIds 1 d)
  s.plainWord f fun s x =>
    let (ws, full) := s.spread x g d 1 fun l => s.sysReg x.w n.toNat l
    ok ((s.updWarp x.w fun w => w.apply ws).finish x f full x.next false)

/-- A warp register written; reserved bits are ignored (R58, R178, R179). -/
def Warp.setSys (w : Warp) (n v : Nat) : Warp :=
  match n with
  | 0x000 => { w with fpstat := mAnd v 0x7F }
  | 0x001 => { w with fptrap := mAnd v 0x5F }
  | 0x002 => { w with dbgctl := mAnd v 1 }
  | _ => w

def execSysWr (g : Guard) (n : BitVec 12) (a : Reg) (s : State) : Out :=
  let f := { foot (guardIds g ++ regIds 1 a) [] with priv := n == 2 }
  s.withIssue fun x =>
    s.closing x f false noCheck fun s =>
      let v := s.src x ⟨a, .n32, 0⟩ 0
      let s := if s.acting x g false = 0 then s else s.updWarp x.w fun w => w.setSys n.toNat v
      ok (s.finishClosed x x.next)

/-! ### Clocks, random numbers, counters and marks (R181 to R186) -/

/-- The source number of a core in the order log (R411). -/
def coreSource (c : Nat) : Nat := 256 + c

/-- `clk.dev` and `clk.ord`: kind 0 and 1. -/
def State.clk (s : State) (g : Guard) (d : Reg) (kind : Nat) : Out :=
  let f := foot (guardIds g) (regIds 2 d)
  s.withIssue fun x =>
    s.closing x f false noCheck fun s =>
      if s.acting x g d.isVector = 0 then ok (s.finishClosed x x.next)
      else if s.secondary x.w then s.secondaryTakes x fun s => s.finishClosed x x.next
      else
        let live := if kind = 0 then s.devTime else s.clock
        let (v, s) := s.loggedValue (s.warp x.w).launch (s.blockOf x.w).lin (s.warp x.w).windex
          (coreSource (s.blockOf x.w).core) kind 0 live
        let (ws, _) := s.spread x g d 2 fun _ => v
        ok (((s.forward x.w ws).updWarp x.w fun w => w.apply ws).finishClosed x x.next)

def execClkDev (g : Guard) (d : Reg) (s : State) : Out := s.clk g d 0

def execClkOrd (g : Guard) (d : Reg) (s : State) : Out := s.clk g d 1

/-- A word of random draws: [k] draws of stream [st], the value computed from them. -/
def State.rngWord (s : State) (g : Guard) (d : Reg) (n st k : Nat) (val : (Nat → Nat) → Nat) : Out :=
  let f := foot (guardIds g) (regIds n d)
  s.plainWord f fun s x =>
    let act := s.acting x g d.isVector
    let (ws, full) := s.spread x g d n fun l => val (s.drawWord x l st)
    ok (s.deposit x f d.isVector ⟨ws, [], full, act, k, [], act⟩)

def execRng (g : Guard) (d : Reg) (k : Fin 4) (s : State) : Out := s.rngWord g d 1 k.val 1 fun u => u 0

def execRngX4 (g : Guard) (d : Reg) (k : Fin 4) (s : State) : Out :=
  s.rngWord g d 4 k.val 4 fun u => u 0 + u 1 * 2 ^ 32 + u 2 * 2 ^ 64 + u 3 * 2 ^ 96

/-- The f32 value of (w >> 8) × 2^−24. -/
def rngFloat (w : Nat) : Nat := (roundTo fmtF32 (.fin false (.rat (w / 256) 1 (-24))) .rn false 0).1

def execRngF32 (g : Guard) (d : Reg) (k : Fin 4) (s : State) : Out := s.rngWord g d 1 k.val 1 fun u => rngFloat (u 0)

def execPerfRd (g : Guard) (d : Reg) (n : Fin 64) (s : State) : Out :=
  let f := foot (guardIds g) (regIds 2 d)
  s.plainWord f fun s x =>
    if s.acting x g d.isVector = 0 then ok (s.finish x f [] x.next false)
    else if s.secondary x.w then
      match s.takeForwarded x.w with
      | none => ok (s.stallAt x.w 10)
      | some s => ok (s.finish x f (s.spread x g d 2 fun _ => 0).2 x.next false)
    else
      let (v, s) := s.loggedValue (s.warp x.w).launch (s.blockOf x.w).lin (s.warp x.w).windex
        (coreSource (s.blockOf x.w).core) 2 n.val (s.perfRead (s.warp x.w).vi n.val)
      let (ws, full) := s.spread x g d 2 fun _ => v
      ok (((s.forward x.w ws).updWarp x.w fun w => w.apply ws).finish x f full x.next false)

def execPerfClr (g : Guard) (n : Fin 64) (s : State) : Out :=
  let f := foot (guardIds g) []
  s.plainWord f fun s x =>
    let s := if s.acting x g false = 0 then s else
      s.updWarp x.w fun w => { w with region := { w.region with clears := w.region.clears ++ [n.val] } }
    ok (s.finish x f [] x.next false)

def execTmark (g : Guard) (n : BitVec 16) (a : Reg) (s : State) : Out :=
  let f := foot (guardIds g ++ regIds 1 a) []
  s.plainWord f fun s x =>
    let v := s.src x ⟨a, .n32, 0⟩ 0
    let s := if s.acting x g false = 0 then s else
      s.updWarp x.w fun w => { w with region := { w.region with recs := w.region.recs ++ [(0, n.toNat, v, 0)] } }
    ok (s.finish x f [] x.next false)

/-! ### Launches (R188) -/

/-- The four lines of a `lnch` record, which may lie on two pages. -/
def State.lnchLook (s : State) (x : Issue) (a : Reg) : List Look × State :=
  let l := (lowLane x.active).getD 0
  let va := s.src x ⟨a, .n64, 0⟩ 0
  (List.range 4).foldl (fun (acc : List Look × State) k =>
    let (y, s) := acc.2.lookGlobal x.w (l, false) ((va + 64 * k) % 2 ^ 64) 64 .read false
    (acc.1 ++ [y], s)) ([], s)

/-- Some active lane is no helper. -/
def State.someThread (s : State) (x : Issue) : Bool := mDiff x.active (s.warp x.w).allHelpers != 0

/-- The end of a `lnch` with its result. -/
def State.lnchEnd (s : State) (x : Issue) (d : Reg) (n : Nat) : Out :=
  let ws := regWrites d 1 0 n
  ok ((((s.forward x.w ws).updWarp x.w fun w => w.apply ws).advance x.w 16).finishClosed x x.next)

/-- A `lnch` performed, the four lines of its record translated: it is a release at device scope. -/
def State.submit (s : State) (x : Issue) (i : Instr) (d : Reg) (q : Nat) (ys : List Lane) : Out :=
  let vi := (s.warp x.w).vi
  if s.moduleFailed || decide (1024 ≤ s.waitingLaunches vi) then s.holdClosing x 10
  else
    match s.turnstile x i .release false [] [2 ^ 60] with
    | .held s => ok s
    | .go s =>
      let s := s.writeBackAll x.w
      if ys.any fun y => s.poisonedFor (s.blockOf x.w).core y.pa then
        ok (s.takeStop x.w (x.stopAlone 0x20 x.active ((ys.map Lane.va).headD 0) []))
      else
        let rcd := ys.flatMap fun y => (List.range 8).map fun k => s.dword (y.pa + 8 * k)
        match s.cbwUnusable vi (rcd.getD 9 0) with
        | some c => ok (s.takeStop x.w (x.stopAlone c x.active (rcd.getD 9 0) []))
        | none =>
          let (n, s) := s.accept vi q rcd
          (s.updWarp x.w Warp.asksNone).lnchEnd x d n

/-- Causes that a `lnch` finds at issue: of alignment and of range (R188). -/
def Look.early : Look → Bool
  | .bad _ _ o _ => decide (o ≤ 2)
  | _ => false

def execLnch (g : Guard) (d a : Reg) (q : Fin 64) (s : State) : Out :=
  let f := foot (guardIds g ++ regIds 2 a) (regIds 1 d)
  s.withIssue fun x =>
    s.closing x f true
      (fun s =>
        if s.acting x g false = 0 || !s.someThread x then .clear s
        else
          match s.lateStop x x.active with
          | some st => .stop st s
          | none => s.foundLooks x false ((s.lnchLook x a).1.filter Look.early))
      fun s =>
        if s.acting x g false = 0 then ok (s.finishClosed x x.next)
        else if !s.someThread x then ok ((s.updWarp x.w fun w => w.apply (regWrites d 1 0 0)).finishClosed x x.next)
        else if s.secondary x.w then s.secondaryTakes x fun s => (s.advance x.w 16).finishClosed x x.next
        else
          let (ys, s) := s.lnchLook x a
          match x.decide false ys with
          | .fine ys => s.submit x (.lnch g d a q) d q.val (ys.filterMap Look.lane?)
          | c => s.redone x c

end Sys2Proof.Machine
end

