-- ==== Sys2Proof/Machine/Sync.lean ====
section
/-!
DEFINITION. Atomics, fences and barriers (spec/22 R377 to R398).
-/

namespace Sys2Proof.Machine

/-! ### Operands of atomics (R377 to R380, R384) -/

/-- The type of the operands of an atomic. -/
def atTy : AtomTy → Ty
  | .i32 => .i32 | .n32 => .n32 | .i64 => .i64 | .n64 => .n64 | .f32 => .f32 | .f64 => .f64 | .f16x2 => .f16 | .bf16x2 => .bf16

/-- The operands B and C in a lane; those that the operation does not read are 0. -/
def State.atomArgs (s : State) (x : Issue) (op : AtomOp) (t : AtomTy) (b c : Reg) (lane : Nat) : Nat × Nat :=
  ((if op == .inc || op == .dec then 0 else s.src x ⟨b, atTy t, 0⟩ lane), if op == .cas then s.src x ⟨c, atTy t, 0⟩ lane else 0)

/-- The operands that an operation has: an increment or decrement has no B, only a compare-and-swap has C (R379, R380). -/
def atomSrcs (op : AtomOp) (b c : Reg) : List Reg := (if op == .inc || op == .dec then [] else [b]) ++ if op == .cas then [c] else []

def atomReads (op : AtomOp) (t : AtomTy) (b c : Reg) : List Nat :=
  (if op == .inc || op == .dec then [] else regIds t.regs b) ++ if op == .cas then regIds t.regs c else []

/-- The record of an atomic lane in the store stream (R446). -/
def atomRecord (op : AtomOp) (t : AtomTy) (lane va : Nat) (bc : Nat × Nat) : List Nat :=
  [2, lane] ++ byteList 8 va ++ [atOpCode op, atTyCode t] ++ byteList t.bytes bc.1 ++ byteList t.bytes bc.2

/-- The accumulate counters of lanes advance (R403). -/
def Warp.countAccs (w : Warp) (lanes : List Nat) : Warp :=
  { w with accs := lanes.foldl (fun m l => sset m l ((sget m l 0 + 1) % 2 ^ 32) 0) w.accs }

/-- Buffered no-return atomics of the executing region. -/
def Warp.buffered (w : Warp) : Nat := w.region.atoms.length + w.region.spAtoms.length

/-- [n] more atomics do not go into the region: it splits before the word (R148), or the word waits for the older one. -/
def State.atomSplit (s : State) (w n : Nat) : Option State :=
  let x := s.warp w
  if x.region.issued != 0 && decide (32 < x.buffered + n) then
    some (if x.older.isSome then s.stallAt w 10 else s.split w 11)
  else none

/-- A buffered atomic word counted in `s`. -/
def State.countStore (s : State) (w : Nat) (none_ : Bool) : State :=
  let (id, s) := s.fresh
  let s := s.countOp w .s id none_
  if none_ then s else s.updWarp w fun y => { y with region := { y.region with stores := y.region.stores ++ [id] } }

/-! ### Global atomics (R381 to R383) -/

/-- A global atomic. -/
structure AtomW where
  g : Guard
  d : Reg
  base : MemBase
  b : Reg
  c : Reg
  op : AtomOp
  ty : AtomTy
  scope : Scope

def AtomW.instr (k : AtomW) : Instr := .atom k.g k.d k.base k.b k.c k.op k.ty k.scope
def AtomW.returns (k : AtomW) : Bool := k.d != noReg
def AtomW.cls (k : AtomW) : AccClass := atomCls k.op k.ty k.returns
def AtomW.vec (k : AtomW) : Bool := isVec k.d (baseReg k.base :: atomSrcs k.op k.b k.c)
def AtomW.foot (k : AtomW) : Foot :=
  Sys2Proof.Machine.foot (guardIds k.g ++ baseIds k.base ++ atomReads k.op k.ty k.b k.c) (regIds k.ty.regs k.d)

/-- The lanes that perform it, looked at. -/
def State.atomLooks (s : State) (x : Issue) (k : AtomW) : List Look × State :=
  s.lookAll ((s.memLanes x k.g k.vec).filter fun y => !y.2) fun s y =>
    s.lookGlobal x.w y (s.ea x (baseReg k.base) 0 64 y.1) k.ty.bytes .both (k.scope == .sys)

/-- The lane of a look with the module it goes to. -/
def Look.reached : Look → Option (Option Nat × Lane)
  | .fine a => some (none, a)
  | .far m a => some (some m, a)
  | _ => none

/-- The request of a lane. -/
def State.atomReq (s : State) (x : Issue) (k : AtomW) (y : Option Nat × Lane) : AtomReq :=
  let (b, c) := s.atomArgs x k.op k.ty k.b k.c y.2.lane
  { rmt := y.1, pa := y.2.pa, va := y.2.va, pc := x.pc, op := k.op, ty := k.ty, b := b, c := c, cls := k.cls
    block := (s.blockOf x.w).lin, warp := (s.warp x.w).windex, lane := y.2.lane
    count := sget (s.warp x.w).accs y.2.lane 0 }

/-- The lanes of the word folded into the store stream. -/
def State.signAtoms (s : State) (x : Issue) (op : AtomOp) (t : AtomTy) (b c : Reg) (as : List Lane) : State :=
  as.foldl (fun (s : State) y => s.sign x.w (atomRecord op t y.lane y.va (s.atomArgs x op t b c y.lane))) s

/-- A relaxed atomic without return: buffered in its region (R151). -/
def State.atomRelaxed (s : State) (k : AtomW) : Out :=
  s.plainWord k.foot fun s x =>
    if !(s.warp x.w).roomIn .s then ok (s.stallAt x.w 2)
    else
      let (looks, s) := s.atomLooks x k
      match x.decide k.vec looks with
      | .stop st => ok (s.takeStop x.w st)
      | .park ns => ok (s.park x.w k.foot.reads ns)
      | .fine looks =>
        let as := looks.filterMap Look.reached
        match (s.afterEvict x.w (as.filterMap fun y => if y.1.isSome then none else some (y.2.pa / 64))).map (·.stallAt x.w 10) with
        | some s => ok s
        | none =>
        match s.atomSplit x.w as.length with
        | some s => ok s
        | none =>
          let kept := as.filter fun y => !s.onCounters x.w y.2.va
          let reqs := kept.map (s.atomReq x k)
          let s := s.signAtoms x k.op k.ty k.b k.c (as.map Prod.snd)
          let s := s.countStore x.w kept.isEmpty
          let s := s.updWarp x.w fun y =>
            { (if k.cls == .accumulate then y.countAccs (as.map fun a => a.2.lane) else y) with
              region := { y.region with atoms := y.region.atoms ++ reqs } }
          ok (s.finish x k.foot [] x.next false)

/-- A free value in place of what another module holds (R357). -/
def State.freeBytes (s : State) (n : Nat) : Nat × State :=
  (leNat ((List.range n).map fun i => Config.freeByte (s.freeCtr + i)), { s with freeCtr := s.freeCtr + n })

/-- One lane performed: its old value. -/
def State.atomLane (s : State) (x : Issue) (k : AtomW) (y : Option Nat × Lane) : Nat × State :=
  let (b, c) := s.atomArgs x k.op k.ty k.b k.c y.2.lane
  match y.1 with
  | some m =>
    let s := { s with sent := s.sent ++ [[m, y.2.pa, atOpCode k.op, atTyCode k.ty, b, c]] }
    s.freeBytes k.ty.bytes
  | none => if s.onCounters x.w y.2.va then (0, s) else s.atomAt y.2.pa k.op k.ty b c

/-- An exchange-class atomic performed at its homes: one synchronisation access. -/
def State.exchange (s : State) (x : Issue) (k : AtomW) (busy : Bool) (as : List (Option Nat × Lane)) : Out :=
  let mem := (as.filter fun y => y.1.isNone && !s.onCounters x.w y.2.va).map Prod.snd
  let n := k.ty.bytes
  if !as.isEmpty && busy then s.holdClosing x 9
  else if s.homesWait x.w (Lane.words n mem) then s.holdClosing x 1
  else
    match s.turnstile x k.instr .exchange (as.any fun y => y.1.isSome) (mem.map Lane.va) (Lane.words n mem) with
    | .held s => ok s
    | .go s =>
      let s := s.writeBackAll x.w
      let a := s.access x.w .exchange true
      match hitOf (s.globalConflicts x.w a (some k.ty) (mem.map fun y => (y, wordsOf y.pa n))) (mem.filter fun y => s.poisonedFor (s.blockOf x.w).core y.pa) with
      | some h =>
        let (st, s) := s.raceAlone x k.vec h 6 .exchange true false
        ok (s.takeStop x.w st)
      | none =>
        let vi := (s.warp x.w).vi
        let far := (as.filter fun y => y.1.isSome).length
        let s := mem.foldl (fun (s : State) y => s.reach (s.blockOf x.w).core vi y.va y.pa) (s.spend (s.blockOf x.w).core vi (mem.length + far))
        let s := s.recordWords vi a (Lane.words n mem)
        let (olds, s) := as.foldl (fun (acc : List (Nat × Nat) × State) y =>
          let (v, s) := acc.2.atomLane x k y
          (acc.1 ++ [(y.2.lane, v)], s)) ([], s)
        let r := loadResult (s.warp x.w) k.vec k.d k.ty.regs [] olds
        let s := (s.logSync x.w mem).forward x.w r.ws
        ok ((s.updWarp x.w fun y => y.apply r.ws).endSync x .l (!as.isEmpty))

def State.atomExchange (s : State) (k : AtomW) : Out :=
  s.withIssue fun x =>
    s.closingCounted x k.foot true (some .l)
      (fun s =>
        let (looks, t) := s.atomLooks x k
        let lanes := laneMask (((s.memLanes x k.g k.vec).filter fun y => !y.2).map Prod.fst)
        match s.lateStop x (if lanes = 0 then 0 else x.told k.vec lanes) with
        | some st => .stop st s
        | none => (t.signAtoms x k.op k.ty k.b k.c ((looks.filterMap Look.reached).map Prod.snd)).foundLooks x k.vec looks)
      fun s =>
        if s.secondary x.w then
          s.secondaryTakes x fun s => s.endSync x .l ((s.memLanes x k.g k.vec).any fun y => !y.2)
        else
          let busy := s.portShort x.w
          let (looks, s) := s.atomLooks x k
          match x.decide k.vec looks with
          | .fine looks => s.exchange x k busy (looks.filterMap Look.reached)
          | c => s.redone x c

def execAtom (g : Guard) (d : Reg) (base : MemBase) (b c : Reg) (op : AtomOp) (ty : AtomTy) (scope : Scope) (s : State) : Out :=
  let k : AtomW := ⟨g, d, base, b, c, op, ty, scope⟩
  if k.cls == .exchange then s.atomExchange k else s.atomRelaxed k

/-! ### Scratchpad atomics (R384, R385) -/

/-- A scratchpad atomic. -/
structure AtomSp where
  g : Guard
  d : Reg
  base : Reg
  b : Reg
  c : Reg
  op : AtomOp
  ty : AtomTy
  rmt : Bool

def AtomSp.cls (k : AtomSp) : AccClass := atomCls k.op k.ty (k.d != noReg)
def AtomSp.vec (k : AtomSp) : Bool := isVec k.d (k.base :: atomSrcs k.op k.b k.c)
def AtomSp.foot (k : AtomSp) : Foot :=
  Sys2Proof.Machine.foot (guardIds k.g ++ regIds 1 k.base ++ atomReads k.op k.ty k.b k.c) (regIds 1 k.d)

def State.atomSpLooks (s : State) (x : Issue) (k : AtomSp) : List Look :=
  (s.spLooks x k.g k.vec k.base 0 4 k.rmt false true).1

def State.atomSpReq (s : State) (x : Issue) (k : AtomSp) (y : Lane) : SpAtomReq :=
  let (b, c) := s.atomArgs x k.op k.ty k.b k.c y.lane
  { pc := x.pc, blk := y.blk, off := y.pa, remote := k.rmt, op := k.op, ty := k.ty, b := b, c := c, cls := k.cls
    warp := (s.warp x.w).windex, lane := y.lane, count := sget (s.warp x.w).accs y.lane 0 }

def State.atomSpRelaxed (s : State) (k : AtomSp) : Out :=
  s.plainWord k.foot fun s x =>
    if !(s.warp x.w).roomIn .s then ok (s.stallAt x.w 2)
    else
      match x.decide k.vec (s.atomSpLooks x k) with
      | .stop st => ok (s.takeStop x.w st)
      | .park ns => ok (s.park x.w k.foot.reads ns)
      | .fine looks =>
        let as := looks.filterMap Look.lane?
        match s.atomSplit x.w as.length with
        | some s => ok s
        | none =>
          let reqs := as.map (s.atomSpReq x k)
          let s := ((s.signAtoms x k.op k.ty k.b k.c as).pin x.w as).countStore x.w as.isEmpty
          let s := s.updWarp x.w fun y =>
            { (if k.cls == .accumulate then y.countAccs (as.map Lane.lane) else y) with
              region := { y.region with spAtoms := y.region.spAtoms ++ reqs } }
          ok (s.finish x k.foot [] x.next false)

/-- One lane of an exchange-class scratchpad atomic performed in place: its old value. -/
def State.atomSpLane (s : State) (x : Issue) (k : AtomSp) (y : Lane) : Nat × State :=
  let (b, c) := s.atomArgs x k.op k.ty k.b k.c y.lane
  let old := leNat ((List.range 4).map fun i => s.spSeen y.blk (y.pa + i))
  (old, ((s.spTook y.blk).noteOld y.blk y.pa 4).spWriteBytes y.blk y.pa (leBytes 4 (atomNew k.op k.ty old b c)))

def State.atomSpExchange (s : State) (k : AtomSp) : Out :=
  s.withIssue fun x =>
    s.closingCounted x k.foot true (some .l)
      (fun s =>
        let looks := s.atomSpLooks x k
        let as := looks.filterMap Look.lane?
        ((s.signAtoms x k.op k.ty k.b k.c as).pin x.w as).foundLooks x k.vec looks)
      fun s =>
        match x.decide k.vec (s.atomSpLooks x k) with
        | .fine looks =>
          let as := looks.filterMap Look.lane?
          let xs := as.map fun y => (y, 4)
          if s.spHeld xs then s.holdClosing x 10
          else
            match hitOf (s.spConflicts x.w .exchange true xs) (as.filter (s.spPoison 4)) with
            | some h =>
              let (st, s) := s.raceAlone x k.vec h 6 .exchange true true
              ok (s.takeStop x.w st)
            | none =>
              let (olds, s) := as.foldl (fun (acc : List (Nat × Nat) × State) y =>
                let (v, s) := acc.2.atomSpLane x k y
                (acc.1 ++ [(y.lane, v)], s)) ([], s)
              let r := loadResult (s.warp x.w) k.vec k.d 1 [] olds
              ok ((s.updWarp x.w fun y => y.apply r.ws).endSync x .l (!as.isEmpty))
        | c => s.redone x c

def execAtomsp (g : Guard) (d base b c : Reg) (op : AtomOp) (ty : AtomTy) (rmt : Bool) (s : State) : Out :=
  let k : AtomSp := ⟨g, d, base, b, c, op, ty, rmt⟩
  if k.cls == .exchange then s.atomSpExchange k else s.atomSpRelaxed k

/-! ### Fences (R386 to R389) -/

/-- A fence: a release followed by an acquire. -/
def State.fenceWord (s : State) (g : Guard) : Out :=
  s.withIssue fun x =>
    s.closing x (foot (guardIds g) []) true noCheck fun s =>
      ok ((if s.acting x g false = 0 then s else s.advance x.w 16).finishClosed x x.next)

def execFence (g : Guard) (_scope : Scope) (s : State) : Out := s.fenceWord g

def execFenceXlat (g : Guard) (_scope : Scope) (s : State) : Out := s.fenceWord g

def execFencePath (g : Guard) (const fetch : Bool) (s : State) : Out :=
  let f := foot (guardIds g) []
  s.plainWord f fun s x =>
    let s := if s.acting x g false = 0 then s else
      let s := s.updCore (s.blockOf x.w).core fun c =>
        { c with cc := if const then [] else c.cc, ic := if fetch then [] else c.ic }
      s.updWarp x.w fun w => { w with fbuf := if fetch then [] else w.fbuf }
    ok (s.finish x f [] x.next false)

/-! ### Barriers (R390 to R395) -/

/-- The end of a word whose lanes may wait: they stand at PC + 8, and then arrive. -/
def State.arriving (s : State) (x : Issue) (arrive : State → State) : Out :=
  let step := (s.warp x.w).stepping
  let s := (s.updWarp x.w fun w => { (w.proceed x x.next) with hold := .none }).issueCounts x
  ok (((arrive s).stepStop x step).deliverStop x.w)

/-- The lanes that a count does not let arrive at a named barrier (R391). -/
def State.barRefuses (s : State) (x : Issue) (b n lanes : Nat) : Nat :=
  let blk := (s.warp x.w).block
  let y := (s.block blk).bar b
  let now := mDiff lanes (s.lanesIn x.w y.mask)
  if (s.launchOf x.w).threads < n then lanes
  else if y.arr != 0 && n != y.exp then (match lowLane now with | some l => 2 ^ l | none => 0)
  else 0

def State.barWord (s : State) (g : Guard) (a : Reg) (b : Nat) (post : Bool) : Out :=
  s.withIssue fun x =>
    s.closing x (foot (guardIds g ++ regIds 1 a) []) true noCheck fun s =>
      let m := mAnd (s.passing x g) x.mask
      let n := s.src x ⟨a, .n32, 0⟩ 0
      let bad := s.barRefuses x b n m
      if m = 0 then ok (s.finishClosed x x.next)
      else if bad != 0 then ok (s.takeStop x.w (x.stop 0x01 bad))
      else s.arriving x fun s => (s.arrive (s.warp x.w).block b ⟨x.w, m, n, post, x.pc⟩).checkBar (s.warp x.w).block b 64

def execBarJoin (g : Guard) (a : Reg) (n : Fin 16) (s : State) : Out := s.barWord g a n.val false

def execBarPost (g : Guard) (a : Reg) (n : Fin 16) (s : State) : Out := s.barWord g a n.val true

def State.gbarWord (s : State) (g : Guard) (post : Bool) : Out :=
  s.withIssue fun x =>
    s.closing x (foot (guardIds g) []) true noCheck fun s =>
      let m := mAnd (s.passing x g) x.mask
      if m = 0 then ok (s.finishClosed x x.next) else s.arriving x fun s => s.arriveGbar x.w m x.pc post

def execGbarJoin (g : Guard) (s : State) : Out := s.gbarWord g false

def execGbarPost (g : Guard) (s : State) : Out := s.gbarWord g true

/-- The mask that a `wsync` expects. -/
def Warp.wsyncExpects (w : Warp) (a : Nat) : Nat := if a = 0 then w.live else mAnd a w.live

/-- The arriving lanes that may not: outside the mask, or with another mask than the phase's (R395). -/
def Warp.wsyncRefuses (w : Warp) (exp lanes : Nat) : Nat :=
  if w.wsyncArr != 0 && exp != mAnd w.wsyncMask w.live then lanes else mDiff lanes exp

/-- Each issue of `wsync` advances the interval once, but for one that never takes effect (R36, R395). -/
def execWsync (g : Guard) (a : Reg) (s : State) : Out :=
  s.withIssue fun x =>
    s.closing x (foot (guardIds g ++ regIds 1 a) []) true noCheck fun s =>
      let m := mAnd (s.passing x g) x.mask
      let exp := (s.warp x.w).wsyncExpects (s.src x ⟨a, .n32, 0⟩ 0)
      let bad := (s.warp x.w).wsyncRefuses exp m
      if m = 0 then ok ((if guardNever g then s else s.advance x.w 16).finishClosed x x.next)
      else if bad != 0 then ok (s.takeStop x.w (x.stop 0x01 bad))
      else s.arriving x fun s =>
        (s.advance x.w 16).updWarp x.w fun w =>
          let w := { w with wsyncMask := if w.wsyncArr = 0 then exp else w.wsyncMask, wsyncArr := mOr w.wsyncArr m }
          ((w.place m (nextPc x.pc) .waiting .wsync).merge).wsyncCheck

/-! ### Waiting on a word (R396, R397) -/

/-- A `waitw`. -/
structure WaitW where
  g : Guard
  d : Reg
  base : MemBase
  b : Reg
  cond : Cond
  w64 : Bool
  signed : Bool
  scope : Scope

def WaitW.instr (k : WaitW) : Instr := .waitw k.g k.d k.base k.b k.cond k.w64 k.signed k.scope
def WaitW.size (k : WaitW) : Size := wideSize k.w64
def WaitW.ty (k : WaitW) : Ty := if k.w64 then (if k.signed then .i64 else .n64) else if k.signed then .i32 else .n32
def WaitW.foot (k : WaitW) : Foot :=
  Sys2Proof.Machine.foot (guardIds k.g ++ baseIds k.base ++ regIds k.size.regs k.b) (regIds k.size.regs k.d)

def WaitW.holds (k : WaitW) (s : State) (x : Issue) (v : Nat) : Bool :=
  condHolds k.cond (intVal k.ty v) (intVal k.ty (s.src x ⟨k.b, k.ty, 0⟩ 0))

def State.waitwLook (s : State) (x : Issue) (k : WaitW) (y : Nat × Bool) : Look × State :=
  s.lookGlobal x.w y (s.ea x (baseReg k.base) 0 64 y.1) k.size.bytes .read (k.scope == .sys)

/-- The access that each read is: an acquire; at system scope, a value-returning atomic (R397). -/
def WaitW.cls (k : WaitW) : AccClass := if k.scope == .sys then .exchange else .acquire

/-- The end of a `waitw` whose condition holds. -/
def State.waitwEnd (s : State) (x : Issue) (k : WaitW) (v : Nat) (local_ : List Lane) : Out :=
  let ws := regWrites k.d k.size.regs 0 v
  let s := (s.logSync x.w local_).forward x.w ws
  ok (((s.updWarp x.w fun y => { (y.apply ws) with recover := none }).endSync x .l true))

/-- The word waits until its word changes. -/
def State.waitwHold (s : State) (x : Issue) (k : WaitW) : Out :=
  ok (s.updWarp x.w fun y => { y with hold := .word k.instr x, stall := 4 })

/-- The scale-up port to a module is in link recovery (R433). -/
def State.recovering (s : State) (m : Nat) : Bool := (sget s.ports (m % 8) ⟨none, false⟩).recovering.isSome

/-- The word waits for one of another module: while the port reports link recovery, its warp does not count (R433). -/
def State.waitwHoldFar (s : State) (x : Issue) (k : WaitW) (m : Nat) : Out :=
  (if s.recovering m then s.updWarp x.w fun y => { y with recover := y.recover.or (some s.devTime) } else s).waitwHold x k

/-- One read of a word of another module: a value-returning `atom.or` of 0, sent there (R345, R383, R397). -/
def State.waitwFar (s : State) (x : Issue) (k : WaitW) (m pa : Nat) : Out :=
  let s := (s.writeBackAll x.w).spend (s.blockOf x.w).core (s.warp x.w).vi 1
  let s := { s with sent := s.sent ++ [[m, pa, atOpCode .or, atTyCode (if k.w64 then .n64 else .n32), 0, 0]] }
  let (v, s) := s.freeBytes k.size.bytes
  if k.holds s x v then s.waitwEnd x k v [] else s.waitwHoldFar x k m

/-- One read of the word at its home. -/
def State.waitwRead (s : State) (x : Issue) (k : WaitW) (y : Lane) : Out :=
  let n := k.size.bytes
  let vi := (s.warp x.w).vi
  let s := s.writeBackAll x.w
  if s.onCounters x.w y.va then (if k.holds s x 0 then s.waitwEnd x k 0 [] else s.waitwHold x k)
  else
    let v := leNat (s.mem.readBytes y.pa n)
    if y.helper then (if k.holds s x v then s.waitwEnd x k v [] else s.waitwHold x k)
    else
      let a := s.access x.w k.cls (k.cls == .exchange)
      match hitOf (s.globalConflicts x.w a none [(y, wordsOf y.pa n)]) (if s.poisonedFor (s.blockOf x.w).core y.pa then [y] else []) with
      | some h =>
        let (st, s) := s.raceAlone x false h (kindOf k.cls true) k.cls (k.cls == .exchange) false
        ok (s.takeStop x.w st)
      | none =>
        let s := ((s.spend (s.blockOf x.w).core vi 1).reach (s.blockOf x.w).core vi y.va y.pa).recordWords vi a (wordsOf y.pa n)
        if k.holds s x v then s.waitwEnd x k v [y]
        else
          match s.inversion x.w (wordsOf y.pa n) with
          | some e => ok (s.takeStop x.w (s.inversionStop x false (2 ^ y.lane) y.va e))
          | none => s.waitwHold x k

/-- A `waitw` performed, or read again. -/
def State.waitwPerform (s : State) (x : Issue) (k : WaitW) (again : Bool) : Out :=
  if s.secondary x.w then s.secondaryTakes x fun s => s.endSync x .l (!(s.memLanes x k.g false).isEmpty)
  else
    match s.memLanes x k.g false with
    | [] => ok ((s.forward x.w Writes.none).endSync x .l false)
    | y :: _ =>
      let busy := s.portShort x.w
      let (look, s) := s.waitwLook x k y
      match look with
      | .far m a =>
        if a.helper then
          let (v, s) := s.freeBytes k.size.bytes
          if k.holds s x v then s.waitwEnd x k v [] else s.waitwHoldFar x k m
        else if busy then (if again then s.waitwHoldFar x k m else s.holdClosing x 9)
        else if again then s.waitwFar x k m a.pa
        else
          match s.turnstile x k.instr k.cls true [] [] with
          | .held s => ok s
          | .go s => s.waitwFar x k m a.pa
      | .fine a =>
        let words := wordsOf a.pa k.size.bytes
        let plain := a.helper || s.onCounters x.w a.va
        if busy && !plain then (if again then s.waitwHold x k else s.holdClosing x 9)
        else if !plain && s.homesWait x.w words then (if again then s.waitwHold x k else s.holdClosing x 1)
        else if again || plain then s.waitwRead x k a
        else
          match s.turnstile x k.instr k.cls false [a.va] words with
          | .held s => ok s
          | .go s => s.waitwRead x k a
      | bad =>
        if y.2 then (if k.holds s x 0 then s.waitwEnd x k 0 [] else s.waitwHold x k)
        else s.redone x (x.decide false [bad])

def execWaitw (g : Guard) (d : Reg) (base : MemBase) (b : Reg) (cond : Cond) (w64 signed : Bool) (scope : Scope) (s : State) : Out :=
  let k : WaitW := ⟨g, d, base, b, cond, w64, signed, scope⟩
  s.withIssue fun x =>
    match (s.warp x.w).hold with
    | .word _ y => if y = x then s.waitwPerform x k true else ok s
    | _ =>
      s.closingCounted x k.foot true (some .l)
        (fun s =>
          let (looks, s) := s.lookAll ((s.memLanes x g false).filter fun y => !y.2) fun s y => s.waitwLook x k y
          s.foundLooks x false looks)
        fun s => s.waitwPerform x k false

/-! ### The order declaration (R398) -/

def execOdone (g : Guard) (s : State) : Out :=
  let f := foot (guardIds g) []
  s.plainWord f fun s x =>
    let s := if s.acting x g false = 0 then s else
      s.updWarp x.w fun w => { w with region := { w.region with odone := true } }
    ok (s.finish x f [] x.next false)

end Sys2Proof.Machine
end

