-- ==== Sys2Proof/Machine/Copy.lean ====
section
/-!
DEFINITION. The copy engine and completion words (spec/17 R298 to R309): `cpy`, the chunks and the completion of its
commands, and `cbw`; and what both engines share: their accesses to global memory and scratchpads (R303, R305, R323) and
complete() of R303.
-/

namespace Sys2Proof.Machine

/-! ### Accesses of engines (R303, R305, R323) -/

/-- Why an engine access fails: the error code of R306, and for a mark its conflict, address, space and direction. -/
structure EngFail where
  err : Nat
  hit : Option (Conflict × Nat × Bool × Bool)
  deriving DecidableEq, Repr

/-- What an engine access answers: an error, with none for one that must wait, or its result. -/
abbrev Eng (α : Type) : Type := Except (Option EngFail) α

def engErr {α : Type} (n : Nat) : Eng α := .error (some ⟨n, none⟩)

/-- Whose access it is: the issuing warp, its block, and the interval of the hand-off (R305); [old]: by scratchpad offset, earlier values
that its reads may still give (R324). -/
structure EngOf where
  w : Nat
  blk : Nat
  int : Nat
  old : List (Nat × Byte)
  deriving DecidableEq, Repr

/-- Where a global byte lies. -/
inductive EngWhere where
  | home (pa : Nat)
  | ctr
  | far (module pa : Nat)
  deriving DecidableEq, Repr

/-- The scale-up port that reaches a module has failed (R433, R482). -/
def State.portFailed (s : State) (module : Nat) : Bool := (sget s.ports (module % 8) ⟨none, false⟩).failed

/-- The translation of a global byte for an engine (R303). -/
def State.engWhere (s : State) (e : EngOf) (va : Nat) (u : Use) : Eng EngWhere :=
  let vi := (s.block e.blk).vi
  let die := (s.block e.blk).core / Config.dieCores
  if !canonical va then engErr 2
  else
    match s.walkTree vi va with
    | .invalid => engErr 2
    | .malformed => engErr 3
    | .leaf pte base size =>
      match s.useEntry vi die va ⟨vi, base, size, pte, s.pageBase pte die⟩ u true with
      | .ok pa => .ok (if (s.ctrOffset vi va).isSome then .ctr else .home pa)
      | .remote m pa => if s.portFailed m then engErr 5 else .ok (.far m pa)
      | .cause c => engErr (if c = 0x12 then 3 else 2)
      | .service => .error none

/-- A byte's word at its home: the line is asked for once per row piece, with its tokens and its place in the slice (R96, R262), and the
word is checked and recorded as the issuing warp's (R305); the secondary copy checks and records no mark (R445). -/
def State.engHome (s : State) (e : EngOf) (new : Bool) (va pa : Nat) (write : Bool) : Eng State :=
  let vi := (s.block e.blk).vi
  let a := s.accessIn e.w e.int .data write
  if s.homeWaits vi a.party [pa / 4 * 4] then .error none
  else
    let s := if new then (s.spend (s.block e.blk).core vi 1).reach (s.block e.blk).core vi va pa else s
    if s.secondary e.w then .ok s
    else
      match s.homeConflict vi a none [pa / 4 * 4] with
      | some (_, c) => .error (some ⟨c.cause, some (c, va / 4 * 4, false, write)⟩)
      | none => .ok (s.recordWords vi a [pa / 4 * 4])

/-- One global byte read. -/
def State.engRead (s : State) (e : EngOf) (new : Bool) (va : Nat) : Eng (Byte × State) :=
  match s.engWhere e va .read with
  | .error x => .error x
  | .ok .ctr => .ok (0, s)
  | .ok (.far _ _) => .ok (Config.freeByte s.freeCtr, { s with freeCtr := s.freeCtr + 1 })
  | .ok (.home pa) =>
    match s.engHome e new va pa false with
    | .error x => .error x
    | .ok s => if s.poisonedFor (s.block e.blk).core pa then engErr 1 else .ok (s.mem.read pa, s)

/-- One global byte written; the secondary copy writes none (R445), and a vacated address discards it (R450). -/
def State.engWrite (s : State) (e : EngOf) (new : Bool) (va : Nat) (b : Byte) : Eng State :=
  if s.secondary e.w then .ok s
  else
    match s.engWhere e va .write with
    | .error x => .error x
    | .ok .ctr => .ok s
    | .ok (.far m pa) => .ok { s with sent := s.sent ++ [[m, pa, b.toNat]] }
    | .ok (.home pa) => (s.engHome e new va pa true).map fun s => if s.vacated pa then s else { s with mem := s.mem.write pa b }

/-- A piece of an engine's work for a block, which may fill window pages of it or of its gang, has to wait for the port (R96): once
let in, it takes its lines in succession (notes/assumptions/103.md). -/
def State.pieceShort (s : State) (core b : Nat) : Bool :=
  s.portBusy core (s.block b).vi && (s.gangOf b).any fun c => (s.block c).map.any fun e => e.2.fills

/-- The page of a scratchpad byte in its frame, serviced where it is not present (R303, R323). -/
def State.engPage (s : State) (blk p : Nat) (write : Bool) : Eng State :=
  let x := s.spEntry blk p
  if write && x.win && !x.wr then engErr 3
  else if !x.p && s.fillWaits blk p then .error none
  else
    match s.service blk p with
    | .ok s => .ok (s.reference blk p)
    | .error _ => engErr 2

/-- The mark check of a scratchpad word (R305, R366 to R368). -/
def State.engSpConflict (s : State) (e : EngOf) (blk off : Nat) (write : Bool) : Option Conflict :=
  let a := s.accessIn e.w e.int .data write
  let own := blk == e.blk
  match s.spCheck blk (off / 4096) (off % 4096 / 4) (if own then some (s.warp e.w).windex else none) .data write a.start with
  | some c => some c
  | none => s.remoteCheck blk (off / 4) a

/-- The access to a scratchpad word recorded under the issuing warp's index (R367), or in the remote mark table, which may have no room
(R368). -/
def State.engSpMark (s : State) (e : EngOf) (blk off : Nat) (write : Bool) : Option State :=
  if blk == e.blk then some (s.spRecordIn blk (off / 4096) (off % 4096 / 4) (s.warp e.w).windex e.int .data write)
  else (s.crossGang e.w blk).remoteRecord blk (off / 4) (s.accessIn e.w e.int .data write)

/-- A scratchpad word for an access of one byte: it waits for a buffered atomic that a commit has before it (R153), its page comes to its
frame, and its marks are checked and recorded. -/
def State.engSpWord (s : State) (e : EngOf) (blk off : Nat) (write : Bool) : Eng State :=
  if s.spWordsHeld blk [off / 4 * 4] then .error none
  else
    match s.engPage blk (off / 4096) write with
    | .error x => .error x
    | .ok s =>
      match s.engSpConflict e blk off write with
      | some c => .error (some ⟨c.cause, some (c, off / 4 * 4, true, write)⟩)
      | none =>
        match s.engSpMark e blk off write with
        | none => .error none
        | some s => .ok s

/-- One of some values, a free choice. -/
def State.freePick (s : State) (v : Byte) (olds : List Byte) : Byte × State :=
  olds.foldl (fun (x : Byte × State) o =>
    (if Config.freeBit x.2.freeCtr then o else x.1, { x.2 with freeCtr := x.2.freeCtr + 1 })) (v, s)

/-- One scratchpad byte read: where stores have replaced it since the hand-off, or an uncredited `macc.st` has written it, an old value
or the new one (R324, R337). -/
def State.engSpRead (s : State) (e : EngOf) (off : Nat) : Eng (Byte × State) :=
  match s.engSpWord e e.blk off false with
  | .error x => .error x
  | .ok s =>
    if s.spPoisoned e.blk off then engErr 1
    else .ok (s.freePick (s.spByte e.blk off) ((e.old.filter fun x => x.1 == off).map Prod.snd ++ s.spOlds e.blk off))

/-- One scratchpad byte written, in the warp's own block or, for a member of its gang, in another. -/
def State.engSpWrite (s : State) (e : EngOf) (blk off : Nat) (b : Byte) : Eng State :=
  (s.engSpWord e blk off true).map fun s => (s.noteOld blk off 1).spWriteBytes blk off [b]

/-- What a sequence of engine accesses comes to: the state reached, and the failure that it ends at. -/
abbrev EngRun : Type := State × Option (Option EngFail)

/-- One access as a run of its own. -/
def Eng.run (s : State) : Eng State → EngRun
  | .ok t => (t, none)
  | .error x => (s, some x)

/-- A run that goes on where the one before has not failed. -/
def EngRun.andThen (r : EngRun) (f : State → EngRun) : EngRun := if r.2.isNone then f r.1 else r

/-- An action over numbers in order, up to the first failure. -/
def engEach (s : State) (xs : List Nat) (f : State → Nat → EngRun) : EngRun :=
  xs.foldl (fun (r : EngRun) t => r.andThen fun s => f s t) (s, none)

/-- Bytes read in order, up to the first failure: what the accesses before it have left stays (R305). -/
def engReads (s : State) (xs : List Nat) (f : State → Nat → Eng (Byte × State)) : List Byte × EngRun :=
  xs.foldl (fun (r : List Byte × EngRun) t =>
    if r.2.2.isSome then r
    else
      match f r.2.1 t with
      | .ok (b, s) => (r.1 ++ [b], s, none)
      | .error x => (r.1, r.2.1, some x)) ([], s, none)

/-- [n] scratchpad bytes read in order. -/
def State.engSpBytes (s : State) (e : EngOf) (off n : Nat) : List Byte × EngRun :=
  engReads s ((List.range n).map fun k => off + k) fun s o => s.engSpRead e o

/-- A conflict of an engine's access or of a decrement: the record and the pair stop, and the deferred stop of the issuing warp
unless it has exited (R303, R305, R489). -/
def State.engRace (s : State) (e : EngOf) (pc rpc kind : Nat) (a : Access) (c : Conflict) (addr : Nat) (sp : Bool) : State :=
  let r := s.raceRecord a.party kind true sp false pc rpc addr c
  let s := if sp then s else s.count (s.warp e.w).vi unitHome 4 1
  let s := s.pairStop a.party a.int kind sp pc addr c
  if (s.warp e.w).ended || (s.warp e.w).live == 0 then s.emitWarp e.w r
  else s.deferStop e.w { Stop.blank with cause := c.cause, rgn := true, fpc := pc, addr := addr, record := r }

/-- The stop that a failed engine access also gives its warp. -/
def State.engStop (s : State) (e : EngOf) (pc rpc : Nat) (f : EngFail) : State :=
  match f.hit with
  | none => s
  | some (c, addr, sp, write) => s.engRace e pc rpc (if write then 9 else 8) (s.accessIn e.w e.int .data write) c addr sp

/-- A decrement of the completion word at [va] can be performed now: its home takes it, the order log lets it (R412), and the warp's
interval may advance; where it may not yet, the warp comes to a boundary and waits there. -/
def State.readyToEnd (s : State) (w core va : Nat) (cbw : Option Nat) : Bool × State :=
  match cbw with
  | none => (true, s)
  | some pa =>
    let x := s.warp w
    if s.portBusy core x.vi || s.homeWaits x.vi x.party [pa, pa + 4] then (false, s)
    else if s.gate x.launch va (s.blockOf w).lin x.windex == .hold then (false, s.noteHeld x.launch va)
    else
      let s := s.bound w
      if s.canAdvance w then (true, s) else (false, s.updWarp w fun y => { y with bounding := true })

/-- complete(cmd, e) at the completion word (R303, R306, R307): the decrement is a release of the issuing warp, always
performed, and the order log keeps it (R408); a command that was not counted leaves COUNT. -/
def State.endOnWord (s : State) (e : EngOf) (pc rpc va : Nat) (cbw : Option Nat) (err : Nat) : State :=
  let x := s.warp e.w
  let vi := x.vi
  let st := if err = 0 then 0 else 5
  match cbw with
  | none => if va = 0 ∨ err = 0 ∨ s.secondary e.w then s else s.updCbw vi va fun d => cbwEnd d st err false
  | some pa =>
    let s := s.logLine x.launch va pa (s.blockOf e.w).lin x.windex
    let s := (s.spend (s.block e.blk).core vi 1).reach (s.block e.blk).core vi va pa
    let a := s.access e.w .release true
    let s := match s.homeConflict vi a none [pa, pa + 4] with
      | some (p, c) => s.engRace e pc rpc 3 a c (va + (p - pa)) false
      | none => s
    let s := s.recordWords vi a [pa, pa + 4]
    { s with mem := s.mem.writeBytes pa (leBytes 8 (cbwEnd (s.dword pa) st err true)) }

/-- The credit of a command, and its part in the end of its interval (R142, R347). -/
def State.endCommand (s : State) (w id : Nat) (k : Counter) (released : Bool) : State := (s.credit w k id).unhand w id released

/-- The engine works on a command of a block: in a pre-emption only on one that is about to end (R338, R435). -/
def State.engineRuns (s : State) (core blk : Nat) (ending : Bool) : Bool :=
  (s.block blk).state == .resident && (s.block blk).core == core && (ending || !(s.preempts.any fun p => p.blocks.contains blk))

/-! ### The descriptor (R298, R299, R304) -/

def cpdField (d : List Nat) (n hi lo : Nat) : Nat := bits (d.getD n 0) hi lo
def sgn32 (x : Nat) : Int := if bit x 31 then (x : Int) - 2 ^ 32 else x
def cpdN (d : List Nat) (k : Nat) : Nat := cpdField d 3 (16 * k + 15) (16 * k)
def cpdTotal (d : List Nat) : Nat := cpdN d 0 * cpdN d 1 * cpdN d 2 * cpdN d 3
def cpdChunks (d : List Nat) : Nat := (cpdTotal d + 4095) / 4096
def cpdRes (d : List Nat) : Bool := cpdField d 2 43 43 == 1
def cpdNext (d : List Nat) : Nat := cpdField d 2 63 44
def cpdFdst (d : List Nat) : Bool := cpdField d 2 42 42 == 1
def cpdMq (d : List Nat) : Nat := cpdField d 2 41 40
def cpdMask (d : List Nat) : Nat := cpdField d 2 39 24
def cpdSpa (d : List Nat) : Nat := cpdField d 2 23 0
def cpdGs (d : List Nat) (k : Nat) : Int :=
  match k with | 1 => sgn32 (cpdField d 4 31 0) | 2 => sgn32 (cpdField d 4 63 32) | _ => sgn32 (cpdField d 5 31 0)
def cpdSs (d : List Nat) (k : Nat) : Nat :=
  match k with | 1 => cpdField d 5 55 32 | 2 => cpdField d 6 23 0 | _ => cpdField d 6 47 24

/-- The indices of byte [t] of the transfer order (R299). -/
def cpdIndex (d : List Nat) (t k : Nat) : Nat :=
  match k with
  | 0 => t % cpdN d 0
  | 1 => t / cpdN d 0 % cpdN d 1
  | 2 => t / (cpdN d 0 * cpdN d 1) % cpdN d 2
  | _ => t / (cpdN d 0 * cpdN d 1 * cpdN d 2)

def cpdGlobal (d : List Nat) (base t : Nat) : Nat :=
  wrap 64 ((base : Int) + cpdIndex d t 0 + cpdIndex d t 1 * cpdGs d 1 + cpdIndex d t 2 * cpdGs d 2 + cpdIndex d t 3 * cpdGs d 3)

def cpdSecond (d : List Nat) (base t : Nat) : Nat :=
  base + cpdIndex d t 0 + cpdIndex d t 1 * cpdSs d 1 + cpdIndex d t 2 * cpdSs d 2 + cpdIndex d t 3 * cpdSs d 3

/-- The variant has a scratchpad tile, and a global one with strides 2 and 3 (R299, R300). -/
def cpdUsesSp (kind : Nat) (d : List Nat) : Bool := kind == 0 || kind == 1 || kind == 3 || kind == 4 || (kind == 5 && !cpdFdst d)
def cpdUsesG (kind : Nat) (d : List Nat) : Bool := kind != 5 || cpdFdst d

/-- A reserved field, or one that the variant does not use, is nonzero (R298, R304). -/
def cpdStray (kind : Nat) (d : List Nat) : Bool :=
  cpdField d 5 63 56 != 0 || cpdField d 6 63 48 != 0 ||
  (kind != 4 && cpdMask d != 0) || (kind != 6 && cpdMq d != 0) || (kind != 5 && cpdFdst d) ||
  (!cpdUsesG kind d && (d.getD 0 0 != 0 || cpdGs d 1 != 0)) ||
  ((kind == 0 || kind == 1 || kind == 4 || kind == 6) && d.getD 1 0 != 0) || (kind == 3 && cpdField d 1 63 24 != 0) ||
  (!cpdUsesSp kind d && cpdSpa d != 0) ||
  ((kind == 3 || kind == 6 || !cpdUsesG kind d) && (cpdGs d 2 != 0 || cpdGs d 3 != 0)) ||
  (!cpdUsesSp kind d && kind != 2 && cpdSs d 1 != 0) ||
  ((kind == 3 || (!cpdUsesSp kind d && kind != 2)) && (cpdSs d 2 != 0 || cpdSs d 3 != 0))

/-- A descriptor with error 4 (R304). -/
def Launch.cpdInvalid (l : Launch) (kind : Nat) (d : List Nat) : Bool :=
  let room := 4096 * l.sppages
  let last := cpdSpa d + (cpdN d 0 - 1) + (cpdN d 1 - 1) * cpdSs d 1 + (cpdN d 2 - 1) * cpdSs d 2 + (cpdN d 3 - 1) * cpdSs d 3
  cpdStray kind d || cpdTotal d == 0 || decide (2 ^ 32 < cpdTotal d) ||
  (cpdRes d && decide (cpdChunks d ≤ cpdNext d)) ||
  (cpdUsesSp kind d && decide (room ≤ last)) ||
  (kind == 3 && (cpdN d 2 != 1 || cpdN d 3 != 1 || decide (room < cpdField d 1 23 0 + 4 * cpdN d 1))) ||
  (kind == 4 && (cpdMask d == 0 || decide (2 ^ l.gang ≤ cpdMask d))) ||
  (kind == 6 && (cpdN d 0 != 256 || decide (64 < cpdN d 1) || cpdN d 2 != 1 || cpdN d 3 != 1))

/-! ### `cpy` (R301, R302) -/

/-- The 64 bytes of a descriptor or parameter block read as data, its completion word's checks, and the place in the queue
(R302, R329). [cbw]: the dword that names the word; [room]: the queue has a place, else the word waits with [reason]. -/
def State.withBlock (s : State) (x : Issue) (g : Guard) (l : Nat × Bool) (a : Reg) (cbw : Nat) (room : Bool) (reason : Nat)
    (go : State → List Nat → Out) : Out :=
  let off := s.src x ⟨a, .n32, 0⟩ l.1
  match x.decide false [s.lookSp x.w l off 64 false false false] with
  | .stop st => ok (s.takeStop x.w st)
  | .park ns => ok (s.park x.w (guardIds g ++ regIds 1 a) ns)
  | .fine looks =>
    let as := looks.filterMap Look.lane?
    let xs := as.map fun y => (y, 64)
    if s.spHeld xs then ok (s.stallAt x.w 10)
    else
      match hitOf (s.spConflicts x.w .data false xs) (as.filter (s.spPoison 64)) with
      | some h =>
        let (st, s) := s.raceStop x false h 0 .data false true
        ok (s.takeStop x.w st)
      | none =>
        let bs := as.flatMap fun y => s.spRead x.w y 64
        let d := (List.range 8).map fun k => leNat ((bs.drop (8 * k)).take 8)
        let va := d.getD cbw 0
        let (looks, s) := s.lookAll (if va = 0 then [] else [l]) fun s y => s.lookGlobal x.w y va 8 .write false
        match x.decide false looks with
        | .stop st => ok (s.takeStop x.w st)
        | .park ns => ok (s.park x.w (guardIds g ++ regIds 1 a) ns)
        | .fine _ =>
          if !room then ok (s.stallAt x.w reason)
          else
            let s := as.foldl (fun (s : State) (y : Lane) => (wordsOf y.pa 64).foldl (fun (s : State) o =>
              (s.spMarkRead x.w y.blk o .data).updWarp x.w fun z => { z with region := z.region.noteRead y.blk (o / 4) }) s) s
            go ((s.spTookAll as).sign x.w (3 :: bs.map BitVec.toNat)) d

/-- An engine command counted and made part of its region. -/
def State.newCommand (s : State) (w : Nat) (k : Counter) : Nat × State :=
  let (id, s) := s.fresh
  (id, (s.countOp w k id false).updWarp w fun y => { y with region := { y.region with cmds := y.region.cmds ++ [id] } })

/-- Commands of resident blocks in a copy queue (R302). -/
def State.copyRoom (s : State) (core : Nat) : Bool :=
  decide (((s.core core).copyq.filter fun c => (s.block c.blk).state == .resident && (s.block c.blk).core == core).length < 32)

/-- A scalar engine command: it waits for room in its counter and for the older region; helper lanes only, or a guard that
fails, hand nothing over (R139, R141, R145). -/
def State.engineWord (s : State) (g : Guard) (f : Foot) (k : Counter) (run : State → Issue → Nat × Bool → Out) : Out :=
  s.plainWord f fun s x =>
    if !(s.warp x.w).roomIn k then ok (s.stallAt x.w 2)
    else if (s.warp x.w).older.isSome then ok (s.stallAt x.w 10)
    else
      match s.memLanes x g false with
      | (l, false) :: _ => run s x (l, false)
      | _ => ok ((s.countDone x.w k).finish x f [] x.next true)

def State.copyWord (s : State) (kind : Nat) (g : Guard) (a : Reg) : Out :=
  let f := foot (guardIds g ++ regIds 1 a) []
  s.engineWord g f .c fun s x l =>
    s.withBlock x g l a 7 (s.copyRoom (s.blockOf x.w).core) 8 fun s d =>
      let (id, s) := s.newCommand x.w .c
      let w := s.warp x.w
      let c : CopyCmd := ⟨id, x.w, w.block, kind, d, x.pc, w.region.entryPc x.mask, false, none, 0, 0, false, none⟩
      let s := s.updCore (s.blockOf x.w).core fun k => { k with copyq := k.copyq ++ [c] }
      ok (s.finish x f [] x.next true)

def execCpyG2s (g : Guard) (a : Reg) (s : State) : Out := s.copyWord 0 g a
def execCpyS2g (g : Guard) (a : Reg) (s : State) : Out := s.copyWord 1 g a
def execCpyG2g (g : Guard) (a : Reg) (s : State) : Out := s.copyWord 2 g a
def execCpyGather (g : Guard) (a : Reg) (s : State) : Out := s.copyWord 3 g a
def execCpyBcast (g : Guard) (a : Reg) (s : State) : Out := s.copyWord 4 g a
def execCpyFill (g : Guard) (a : Reg) (s : State) : Out := s.copyWord 5 g a
def execCpyMeta (g : Guard) (a : Reg) (s : State) : Out := s.copyWord 6 g a

/-! ### Chunks (R299, R300, R303) -/

/-- Byte [t] begins a new piece of a row or line. -/
def cpdNew (d : List Nat) (t va : Nat) : Bool := va % 64 == 0 || t % 4096 == 0 || t % cpdN d 0 == 0

/-- The members of a gang that a broadcast names (R300). -/
def State.bcastBlocks (s : State) (blk mask : Nat) : List Nat :=
  let l := s.launch (s.block blk).launch
  (s.gangOf blk).filter fun c => bit mask ((s.block c).lin % l.gang)

/-- The global address that a gather reads byte [t] of its tile from. -/
def cpdGather (d : List Nat) (t : Nat) : Nat :=
  wrap 64 ((d.getD 0 0 : Int) + cpdIndex d t 0 + (d.getD (8 + cpdIndex d t 1) 0 : Nat) * cpdGs d 1)

/-- One byte read, and what is done with it; what the reading leaves stays where that fails. -/
def Eng.into (s : State) (r : Eng (Byte × State)) (f : State → Byte → Eng State) : EngRun :=
  match r with
  | .error x => (s, some x)
  | .ok (b, s) => (f s b).run s

/-- One byte of a command copied, but for `meta`. -/
def State.copyByte (s : State) (e : EngOf) (kind : Nat) (d : List Nat) (t : Nat) : EngRun :=
  let ga := cpdGlobal d (d.getD 0 0) t
  let sp := cpdSecond d (cpdSpa d) t
  let from_ (va : Nat) : Eng (Byte × State) := s.engRead e (cpdNew d t va) va
  match kind with
  | 0 => Eng.into s (from_ ga) fun s b => s.engSpWrite e e.blk sp b
  | 1 => Eng.into s (s.engSpRead e sp) fun s b => s.engWrite e (cpdNew d t ga) ga b
  | 2 =>
    let gb := cpdSecond d (d.getD 1 0) t % 2 ^ 64
    Eng.into s (from_ ga) fun s b => s.engWrite e (cpdNew d t gb) gb b
  | 3 => Eng.into s (from_ (cpdGather d t)) fun s b => s.engSpWrite e e.blk sp b
  | 4 =>
    match from_ ga with
    | .error x => (s, some x)
    | .ok (b, s) => engEach s (s.bcastBlocks e.blk (cpdMask d)) fun s m => (s.engSpWrite e m sp b).run s
  | _ =>
    let b := BitVec.ofNat 8 (d.getD 1 0 >>> (8 * (cpdIndex d t 0 % 8)))
    (if cpdFdst d then s.engWrite e (cpdNew d t ga) ga b else s.engSpWrite e e.blk sp b).run s

/-- The entries of a block's metadata queue. -/
def State.mqEntries (s : State) (blk q : Nat) : List (List Byte) := sget (s.block blk).mqData q []

def State.setMq (s : State) (blk q : Nat) (es : List (List Byte)) : State :=
  s.updBlock blk fun b => { b with mqData := sset b.mqData q es [] }

/-- The block holds queue [q] (R340). -/
def State.holdsMq (s : State) (blk q : Nat) : Bool := (s.block blk).mqs.any fun x => x.1 == q

/-- A source byte of a command that reads global memory. -/
def cpdSource (kind : Nat) (d : List Nat) (t : Nat) : Nat := if kind = 3 then cpdGather d t else cpdGlobal d (d.getD 0 0) t

/-- One entry of a `meta` command read and pushed. -/
def State.metaEntry (s : State) (e : EngOf) (d : List Nat) (r : Nat) : EngRun :=
  let (bs, run) := engReads s ((List.range 256).map fun i => 256 * r + i) fun s t =>
    s.engRead e (cpdNew d t (cpdSource 6 d t)) (cpdSource 6 d t)
  run.andThen fun s => (s.setMq e.blk (cpdMq d) (s.mqEntries e.blk (cpdMq d) ++ [bs]), none)

/-- The bytes of chunk [n] in the transfer order (R299). -/
def chunkOrder (d : List Nat) (n : Nat) : List Nat :=
  ((List.range 4096).map fun i => 4096 * n + i).filter fun t => decide (t < cpdTotal d)

/-- Chunk [n] of a command: the state reached, and why it went no further. -/
def State.chunk (s : State) (e : EngOf) (kind : Nat) (d : List Nat) (n : Nat) : EngRun :=
  if kind = 6 then
    engEach s (((List.range 16).map fun i => 16 * n + i).filter fun r => decide (r < cpdN d 1)) fun s r => s.metaEntry e d r
  else engEach s (chunkOrder d n) fun s t => s.copyByte e kind d t

/-- What a command reads in a chunk, as its signature takes it (R305, R446), and the failure that the reading ends at. -/
def State.chunkBytes (s : State) (e : EngOf) (kind : Nat) (d : List Nat) (n : Nat) : List Byte × Option (Option EngFail) :=
  let r := engReads s (if kind = 5 then [] else chunkOrder d n) fun s t =>
    if kind = 1 then s.engSpRead e (cpdSecond d (cpdSpa d) t) else s.engRead e false (cpdSource kind d t)
  (r.1, r.2.2)

/-- A command of a copy queue changed. -/
def State.updCopy (s : State) (core id : Nat) (f : CopyCmd → CopyCmd) : State :=
  s.updCore core fun c => { c with copyq := c.copyq.map fun q => if q.id == id then f q else q }

/-- A command has failed with a code. -/
def State.copyFails (s : State) (core id n : Nat) : State := s.updCopy core id fun q => { q with running := true, err := some n }

/-- A gather's indices read (R300): its descriptor with them behind it. -/
def State.gatherIndex (s : State) (e : EngOf) (d : List Nat) : List Nat × EngRun :=
  let (bs, run) := s.engSpBytes e (cpdField d 1 23 0) (4 * cpdN d 1)
  (d.take 8 ++ (List.range (cpdN d 1)).map fun r => leNat ((bs.drop (4 * r)).take 4), run)

/-- The entries that started `meta` commands of a block have still to push into a queue. -/
def State.mqPromised (s : State) (core blk q : Nat) : Nat :=
  ((s.core core).copyq.filter fun c => c.blk == blk && c.kind == 6 && c.running && c.err.isNone && cpdMq c.desc == q).foldl
    (fun n c => n + (cpdN c.desc 1 - 16 * c.next)) 0

/-- A command starts: it is validated (R304), a gather's indices are read, a `meta` finds its queue held with N1 entries free, those
that started ones will push counted as taken (R300). -/
def State.startCopy (s : State) (core : Nat) (c : CopyCmd) : State :=
  let e : EngOf := ⟨c.warp, c.blk, c.int, []⟩
  let first := if cpdRes c.desc then cpdNext c.desc else 0
  let go (s : State) (d : List Nat) : State := s.updCopy core c.id fun q => { q with running := true, desc := d, next := first }
  if (s.launchOf c.warp).cpdInvalid c.kind c.desc then s.copyFails core c.id 4
  else if c.kind = 3 then
    match s.gatherIndex e c.desc with
    | (d, t, none) => go t d
    | (_, _, some none) => s
    | (_, t, some (some f)) => (t.engStop e c.pc c.rpc f).copyFails core c.id f.err
  else if c.kind = 6 then
    let q := cpdMq c.desc
    if !s.holdsMq c.blk q then s.copyFails core c.id 4
    else if 64 < (s.mqEntries c.blk q).length + s.mqPromised core c.blk q + cpdN c.desc 1 then s.copyFails core c.id 6
    else go s c.desc
  else go s c.desc

/-- The first command handed over of a warp (R305). -/
def Core.firstCopy (c : Core) (w : Nat) : Option CopyCmd := c.copyq.find? fun q => q.warp == w && q.handed

/-- The command of the other copy that goes with a primary's (R305). -/
def State.twinCopy (s : State) (w : Nat) : Option (Nat × CopyCmd) :=
  (s.twinOf w).bind fun v => ((s.coreOf v).firstCopy v).map fun q => ((s.blockOf v).core, q)

/-- One chunk of a started command of one copy, none where it has to wait. -/
def State.runChunk (s : State) (core : Nat) (c : CopyCmd) : Option State :=
  let e : EngOf := ⟨c.warp, c.blk, c.int, []⟩
  match s.chunk e c.kind c.desc c.next with
  | (t, none) => some ((t.updCopy core c.id fun q => { q with next := q.next + 1 }).count (s.block c.blk).vi unitCore 17 1)
  | (_, some none) => none
  | (t, some (some f)) => some (((t.engStop e c.pc c.rpc f).copyFails core c.id f.err).count (s.block c.blk).vi unitCore 17 1)

/-- The command [k] as it stands. -/
def State.copyAt (s : State) (core k : Nat) : Option CopyCmd := (s.core core).copyq.find? fun q => q.id == k

/-- A command of a copy with more chunks to perform. -/
def CopyCmd.goesOn (c : CopyCmd) : Bool := c.handed && c.err.isNone && (!c.running || decide (c.next < cpdChunks c.desc))

/-- A command that has ended. -/
def CopyCmd.over_ (c : CopyCmd) : Bool := c.handed && (c.err.isSome || (c.running && decide (cpdChunks c.desc ≤ c.next)))

/-- The command may do its next chunk. -/
def State.chunkDue (s : State) (core : Nat) (c : CopyCmd) : Bool :=
  c.goesOn && s.engineRuns core c.blk false && !s.secondary c.warp && ((s.core core).firstCopy c.warp).map CopyCmd.id == some c.id &&
  !(cpdUsesG c.kind c.desc && s.portBusy core (s.block c.blk).vi) && !(cpdUsesSp c.kind c.desc && s.pieceShort core c.blk)

/-- What two copies have read of a chunk differs: their bytes, or why they read no more. -/
def chunksDiffer (a b : List Byte × Option (Option EngFail)) : Bool :=
  a.1 != b.1 || (a.2.map fun f => f.map EngFail.err) != b.2.map fun f => f.map EngFail.err

/-- A chunk of a command and of its other copy: each reads and signs it, and signatures that differ fail it before it is written (R305);
only the primary checks marks, and a conflict that it meets is the command's error. -/
def State.twinChunk (s : State) (core : Nat) (c : CopyCmd) (core2 : Nat) (c2 : CopyCmd) : State :=
  let a := s.chunkBytes ⟨c.warp, c.blk, c.int, []⟩ c.kind c.desc c.next
  let b := s.chunkBytes ⟨c2.warp, c2.blk, c2.int, []⟩ c2.kind c2.desc c2.next
  if a.2 == some none || b.2 == some none then s
  else if a.2.any fun f => f.any fun h => h.hit.isSome then (s.runChunk core c).getD s
  else if c2.err.isSome || chunksDiffer a b then
    (((s.copyFails core c.id 7).copyFails core2 c2.id 7).mismatch core).mismatch core2
  else ((s.runChunk core c).bind fun t => t.runChunk core2 c2).getD s

/-- The next chunk of a command, with the other copy's where there is one. -/
def State.copyChunk (s : State) (core k : Nat) : State :=
  match s.copyAt core k with
  | none => s
  | some c =>
    if !s.chunkDue core c then s
    else if !(s.launchOf c.warp).rdnt then
      if c.running then (s.runChunk core c).getD s else s.startCopy core c
    else
      match s.twinCopy c.warp with
      | none => s
      | some (core2, c2) =>
        if !c.running || !c2.running then
          let s := if c.running then s else s.startCopy core c
          if c2.running then s else s.startCopy core2 c2
        else s.twinChunk core c core2 c2

def execCopyChunk (core k : Nat) (s : State) : Out := ok (s.copyChunk core k)

/-- The command leaves the queue and its completion is credited (R142, R303). -/
def State.copyEnds (s : State) (core : Nat) (c : CopyCmd) (err : Nat) (released : Bool) : State :=
  let s := s.updCore core fun q => { q with copyq := q.copyq.filter fun x => x.id != c.id }
  let s := s.endOnWord ⟨c.warp, c.blk, c.int, []⟩ c.pc c.rpc (c.desc.getD 7 0) c.cbw err
  s.endCommand c.warp c.id .c released

/-- The completion of a command that has ended (R303). -/
def State.copyComplete (s : State) (core k : Nat) : State :=
  match s.copyAt core k with
  | none => s
  | some c =>
    if !(c.over_ && s.engineRuns core c.blk true && !s.secondary c.warp && ((s.core core).firstCopy c.warp).map CopyCmd.id == some c.id) then s
    else
      let (ready, s) := s.readyToEnd c.warp core (c.desc.getD 7 0) c.cbw
      if !ready then s
      else
        let err := c.err.getD 0
        let other := s.twinCopy c.warp
        let s := s.copyEnds core c err c.cbw.isSome
        match other with
        | some (core2, c2) => if (s.launchOf c.warp).rdnt then s.copyEnds core2 c2 err c.cbw.isSome else s
        | none => s

def execCopyComplete (core k : Nat) (s : State) : Out := ok (s.copyComplete core k)

/-! ### `cbw` (R309) -/

/-- The word of a `cbw` looked at. -/
def State.cbwLook (s : State) (x : Issue) (a : Reg) (u : Use) (y : Nat × Bool) : Look × State :=
  s.lookGlobal x.w y (s.src x ⟨a, .n64, 0⟩ y.1) 8 u false

/-- A `cbw` form: guard, destination, address, and what it performs at home. -/
structure CbwW where
  g : Guard
  d : Reg
  a : Reg
  reset : Bool
  wait : Bool

def CbwW.foot (k : CbwW) : Foot := Sys2Proof.Machine.foot (guardIds k.g ++ regIds 2 k.a) (regIds 2 k.d)
def CbwW.cls (k : CbwW) : AccClass := if k.reset then .release else .acquire
def CbwW.use (k : CbwW) : Use := if k.reset then .both else .read
def CbwW.instr (k : CbwW) : Instr :=
  if k.wait then .cbwWait k.g k.d k.a else if k.reset then .cbwReset k.g k.d k.a else .cbwTest k.g k.d k.a

/-- The end of a `cbw` that has read [v]. -/
def State.cbwDone (s : State) (x : Issue) (k : CbwW) (v : Nat) (mem : List Lane) (sync : Bool) : Out :=
  let ws := regWrites k.d 2 0 v
  let s := (s.logSync x.w mem).forward x.w ws
  ok ((s.updWarp x.w fun y => { (y.apply ws) with recover := none }).endSync x .l sync)

/-- The word waits for its COUNT. -/
def State.cbwHold (s : State) (x : Issue) (k : CbwW) : Out :=
  ok (s.updWarp x.w fun y => { y with hold := .word k.instr x, stall := 4 })

/-- The word read at home and, for `cbw.reset`, cleared where its COUNT is 0. -/
def State.cbwRead (s : State) (x : Issue) (k : CbwW) (y : Lane) : Out :=
  let vi := (s.warp x.w).vi
  let s := s.writeBackAll x.w
  if s.onCounters x.w y.va then s.cbwDone x k 0 [] true
  else
    let v := s.dword y.pa
    if y.helper then (if k.wait && cbwCount v != 0 then s.cbwHold x k else s.cbwDone x k v [] (!k.reset))
    else
      let a := s.access x.w k.cls k.reset
      match hitOf (s.globalConflicts x.w a none [(y, wordsOf y.pa 8)]) (if s.poisonedFor (s.blockOf x.w).core y.pa then [y] else []) with
      | some h =>
        let (st, s) := s.raceAlone x false h (kindOf k.cls k.reset) k.cls k.reset false
        ok (s.takeStop x.w st)
      | none =>
        let s := ((s.spend (s.blockOf x.w).core vi 1).reach (s.blockOf x.w).core vi y.va y.pa).recordWords vi a (wordsOf y.pa 8)
        if k.reset then
          let s := if cbwCount v = 0 then { s with mem := s.mem.writeBytes y.pa (leBytes 8 0) } else s
          s.cbwDone x k v [y] true
        else if k.wait && cbwCount v == 0 then s.cbwDone x k v [y] true
        else
          match s.inversion x.w (wordsOf y.pa 8) with
          | some e => ok (s.takeStop x.w (s.inversionStop x false (2 ^ y.lane) y.va e))
          | none => if k.wait then s.cbwHold x k else s.cbwDone x k v [y] true

/-- A `cbw` performed, or its word read again. -/
def State.cbwPerform (s : State) (x : Issue) (k : CbwW) (again : Bool) : Out :=
  if s.secondary x.w then s.secondaryTakes x fun s => s.endSync x .l (!(s.memLanes x k.g false).isEmpty)
  else
    match s.memLanes x k.g false with
    | [] => ok ((s.forward x.w Writes.none).endSync x .l false)
    | y :: _ =>
      let busy := s.portShort x.w
      let (look, s) := s.cbwLook x k.a k.use y
      match look with
      | .fine a =>
        if a.helper || s.onCounters x.w a.va then s.cbwRead x k a
        else if busy then (if again then ok s else s.holdClosing x 9)
        else if s.homesWait x.w (wordsOf a.pa 8) then (if again then ok s else s.holdClosing x 1)
        else if again then s.cbwRead x k a
        else
          match s.turnstile x k.instr k.cls false [a.va] (wordsOf a.pa 8) with
          | .held s => ok s
          | .go s => s.cbwRead x k a
      | bad => if y.2 then s.cbwDone x k 0 [] (!k.reset) else s.redone x (x.decide false [bad])

def State.cbwForm (s : State) (k : CbwW) : Out :=
  s.withIssue fun x =>
    match (s.warp x.w).hold with
    | .word _ y => if y = x then s.cbwPerform x k true else ok s
    | _ =>
      s.closingCounted x k.foot true (some .l)
        (fun s =>
          let ls := (s.memLanes x k.g false).filter fun y => !y.2
          match if k.reset then s.lateStop x (if ls.isEmpty then 0 else x.active) else none with
          | some st => .stop st s
          | none =>
            let (looks, s) := s.lookAll ls fun s y => s.cbwLook x k.a k.use y
            s.foundLooks x false looks)
        fun s => s.cbwPerform x k false

def execCbwWait (g : Guard) (d a : Reg) (s : State) : Out := s.cbwForm ⟨g, d, a, false, true⟩
def execCbwTest (g : Guard) (d a : Reg) (s : State) : Out := s.cbwForm ⟨g, d, a, false, false⟩
def execCbwReset (g : Guard) (d a : Reg) (s : State) : Out := s.cbwForm ⟨g, d, a, true, false⟩

end Sys2Proof.Machine
end

