-- ==== Sys2Proof/Machine/Fetch.lean ====
section
/-!
DEFINITION. The issue of a word (spec/07 R131, R132): the choice of the subgroup, the fetch of its word (spec/06 R98 to
R100), hardware breakpoints (spec/31 R466, R467), and the stop of a word that does not decode (R126).
-/

namespace Sys2Proof.Machine

/-! ### The fetch (R98 to R100) -/

/-- The copies of a line that warp [w] of core [c] may fetch from: its fetch buffer's and the instruction cache's (R99). -/
def State.heldLines (s : State) (w c line : Nat) : List CLine :=
  ((s.warp w).fbuf ++ (s.core c).ic).filter fun l => l.line == line

/-- Which copy a fetch takes, with whether the home's: the first that has its 8 bytes at [off] while the home's line is good, or that the
free values let stand for it. -/
def pickLine (k off : Nat) (bad : Bool) (home : CLine) : List CLine → CLine × Bool
  | [] => (home, true)
  | l :: r =>
    if (!bad && (l.bytes.drop off).take 8 == (home.bytes.drop off).take 8) || Config.freeBit k then (l, false)
    else pickLine (k + 1) off bad home r

/-- The line at a physical address as warp [w] of core [c] fetches it, and whether from home: out of its fetch buffer of two lines, the
instruction cache or home. Where they differ, which is taken is a free value (R99). -/
def State.fetchLine (s : State) (w c pa : Nat) : (CLine × Bool) × State :=
  let held := s.heldLines w c (pa / 64)
  let home : CLine := ⟨pa / 64, s.mem.readBytes (pa / 64 * 64) 64, s.clock⟩
  (pickLine s.freeCtr (pa % 64) (s.poisonedFor c pa) home held, { s with freeCtr := s.freeCtr + held.length })

/-- The effects of a fetch: the home's line is asked for and comes to the instruction cache; what the warp fetches from stands in its
fetch buffer (R95, R99). -/
def State.fetched (s : State) (w c va : Nat) (l : CLine) (home : Bool) : State :=
  let s := if home then
      ((s.spend c (s.warp w).vi 1).reach c (s.warp w).vi (va / 64 * 64) (64 * l.line)).updCore c fun k =>
        { k with ic := (l :: k.ic.filter fun y => y.line != l.line).take 2048 }
    else s
  if (s.warp w).fbuf.contains l then s else
    s.updWarp w fun x => { x with fbuf := (l :: x.fbuf.filter fun y => y.line != l.line).take 2 }

/-- The home's line cannot come now: the port does not take the request, or the line has no place in its slice (R96, R372); with the stall
reason. -/
def State.fetchWaits (s : State) (w pa : Nat) : Option Nat :=
  let c := (s.blockOf w).core
  if s.tokens c (s.warp w).vi < 64 then some 9
  else if s.portShort w || (!s.present (pa / 64) && (s.lineRoom (pa / 64)).isNone) then some 6
  else none

/-- What a fetch gives: the word, a stop, a park, or a wait with its stall reason. -/
inductive Fetched where
  | word (d : DWord) (s : State)
  | stop (st : Stop) (s : State)
  | park (n : Need) (s : State)
  | wait (reason : Nat) (s : State)
  deriving DecidableEq, Repr

/-- The word at [pc] for the lanes [mask] of a warp (R100). -/
def State.fetch (s : State) (w mask pc : Nat) : Fetched :=
  let c := (s.blockOf w).core
  let bad (cause : Nat) (s : State) : Fetched := .stop (regionStop cause mask pc pc []) s
  if !canonical pc then bad 0x11 s
  else
    match s.translate c (s.warp w).vi pc .exec false with
    | (.ok pa, t) =>
      let ((l, home), t) := t.fetchLine w c pa
      match if home then s.fetchWaits w pa else none with
      | some reason => .wait reason t
      | none =>
        if home && t.poisonedFor c pa then bad 0x20 t
        else .word (wordOfBytes ((List.range 8).map fun i => l.bytes.getD (pa % 64 + i) 0)) (t.fetched w c pc l home)
    | (.remote _ _, s) => bad 0x15 s
    | (.cause k, s) => bad k s
    | (.service, s) => .park ⟨mask, .xlat pc 2, pc, pc, none⟩ s

/-! ### Hardware breakpoints (R466, R467) -/

/-- Breakpoint [n] matches the word of a warp at [pc]. -/
def State.bpMatches (s : State) (w pc n : Nat) : Bool :=
  let v := s.vi (s.warp w).vi
  let bpc := sget v.bpc n 0
  let bpf := sget v.bpf n 0
  bit bpc 63 && bits bpc 56 3 == pc % 2 ^ 57 / 8 &&
  (!bit bpc 62 || bits bpf 63 32 == (s.launchOf w).num) &&
  (!bit bpc 61 || bits (sget v.bpb n 0) 62 0 == (s.blockOf w).lin) &&
  (!bit bpc 60 || bits bpf 31 26 == (s.warp w).windex)

/-- The lowest breakpoint that the word at issue matches. -/
def State.breakpoint (s : State) (w mask pc : Nat) : Option Nat :=
  let x := s.warp w
  if x.trap.isSome || s.secondary w then none
  else if (match x.bpskip with | some (m, p) => p == pc && mAnd m mask != 0 | none => false) then none
  else (List.range 16).find? fun n => s.bpMatches w pc n

/-! ### The turn of a warp -/

/-- What a warp's turn comes to: it has no word to issue, it is over without an instruction (a stop or a park), or an instruction is to
be executed, at the issue in `cur`. -/
inductive Go where
  | wait (s : State)
  | done (s : State)
  | run (i : Instr) (s : State)
  deriving DecidableEq, Repr

/-- The warp may issue: its block is resident and neither frozen nor being pre-empted. -/
def State.canIssue (s : State) (w : Nat) : Bool :=
  let x := s.warp w
  decide (w < s.warps.length) && x.live != 0 && x.stop.isNone && s.inPlace w

/-- The instruction of a word that waits to be executed. -/
def State.resume (s : State) (x : Issue) : Go :=
  match decode x.word with
  | .ok i => .run i { s with cur := some x }
  | .error _ => .done s

/-- The subgroup's word fetched, matched with breakpoints and decoded. -/
def State.issueEntry (s : State) (w : Nat) (e : PctEntry) : Go :=
  match s.fetch w e.mask e.pc with
  | .stop st s => .done (s.takeStop w st)
  | .park n s => .done (s.park w [] [n])
  | .wait reason s => .wait (s.stallAt w reason)
  | .word d s =>
    let x : Issue := ⟨w, (s.warp w).activeOf e.mask, e.mask, e.pc, d, none⟩
    match s.breakpoint w e.mask e.pc with
    | some n => .done (s.takeStop w { (x.stop 0x04 x.active) with hwbp := true, code := n })
    | none =>
      match decode d with
      | .ok i => .run i { s with cur := some x }
      | .error e => .done (s.takeStop w (x.stop e.cause x.active))

/-- The turn of warp [w]; what waits for its boundaries comes first. A staged access that is released is performed whether or not its
warp is in its place (R401). -/
def State.turnOf (s : State) (w : Nat) : Go :=
  let s := if s.inPlace w then s.settle w else s
  match (s.warp w).hold with
  | .staged k =>
    match s.staged.find? fun e => e.id == k with
    | some e => if e.released || s.inPlace w then .run e.ins { s with cur := some e.iss } else .wait s
    | none => .wait s
  | h =>
    if !s.canIssue w then .wait s
    else
      match h with
      | .commit x => s.resume x
      | .none =>
        match (s.warp w).choose with
        | some e => s.issueEntry w e
        | none => .wait s
      | _ => .wait s

/-! ### A word placed where the next step fetches it (notes/assumptions/6.md) -/

/-- A table tree at 4 MiB that maps the page at 64 KiB to itself with every permission (R269, R270). -/
def placedTables (m : Memory) : Memory :=
  [(0x40_0000, 0x60_0001), (0x60_0000, 0x60_1001), (0x60_1000, 0x60_2001), (0x60_2008, 0x1_001F)].foldl
    (fun (m : Memory) (x : Nat × Nat) => m.writeBytes x.1 (leBytes 8 x.2)) m

/-- The record of a launch of one block of one warp, with every register, that starts at 64 KiB (R69). -/
def placedRecord : List Nat :=
  [2 ^ 43, 0x1_0000, 2 ^ 64 - 1, 2 ^ 48 + 2 ^ 32 + 1, 2 ^ 32 + 2 ^ 16 + 32, 2 ^ 32 + 256 * 2 ^ 16 + 1536] ++ List.replicate 26 0

/-- The module with that launch running on core 0, its warp at its first word. -/
def State.placeLaunch (s : State) : State :=
  let s := s.updVi 0 fun v =>
    { v with configured := true, numbers := 1
             cfg := { v.cfg with partition := [0], share := 256, keyCount := 1, root := 0x40_0000, spbkSlots := 384 } }
  { s with
    boot := .ready
    mem := placedTables s.mem
    launches := [{ Launch.blank with num := 1, rcd := placedRecord, state := .running, next := 1, started := [0] }]
    blocks := [{ Block.blank with state := .resident }]
    warps := [{ Warp.blank with party := ⟨0, 1, 0, 0⟩, present := 2 ^ 32 - 1, ended := false, pct := [⟨0x1_0000, 2 ^ 32 - 1, .ready, .none, 0⟩] }] }

/-- The physical address of the next word of warp 0, when its turn is to fetch one. -/
def State.nextFetch (s : State) : Option Nat :=
  if s.canIssue 0 && (s.warp 0).hold == .none then
    match ((s.settle 0).warp 0).choose with
    | some e =>
      match s.fetch 0 e.mask e.pc with
      | .word _ _ => s.paOf (s.warp 0).vi e.pc .exec
      | _ => none
    | none => none
  else none

/-- No work of the clocks is due, and the port of warp 0's core takes a line. -/
def State.readyToFetch (s : State) : State :=
  let s := { s with lastRefill := s.clock / 1024, lastFloor := s.devTime / 1000, lastTick := s.devTime / 2 ^ s.tickExp }
  s.updCore (s.blockOf 0).core fun c => { c with tokens := sset c.tokens (s.warp 0).vi 65536 0, port := [], portAt := 0 }

/-- The state with a word at the address that warp 0 fetches next, its section to issue with its other warps waiting. -/
def State.placeWord (s : State) (bs : List Byte) : State :=
  let s := s.readyToFetch
  let s := if s.nextFetch.isSome then s else s.placeLaunch.readyToFetch
  let pa := s.nextFetch.getD 0
  let late := ((List.range s.warps.length).filter fun w => w != 0).map fun w => (w, 6)
  let s := { s with mem := s.mem.writeBytes pa bs, agenda := [.issue 0 late], cur := none }
  let s := s.updWarp 0 fun w => { w with fbuf := w.fbuf.filter fun l => l.line != pa / 64 }
  s.updCore (s.blockOf 0).core fun c => { c with ic := c.ic.filter fun l => l.line != pa / 64 }

end Sys2Proof.Machine
end

