-- ==== Sys2Proof/Machine/Matrix.lean ====
section
/-!
DEFINITION. The matrix engine (spec/18 R310 to R324) and its commands (spec/19 R325 to R341): `mmac`, `macc`, `mqctl`, the
k-blocks and completions of the engine, and `mstat`.
-/

namespace Sys2Proof.Machine

/-- Rows of bytes read in order, up to the first failure: what the accesses before it have left stays (R305). -/
def engRows (s : State) (xs : List Nat) (f : State → Nat → List Byte × EngRun) : List (List Byte) × EngRun :=
  xs.foldl (fun (r : List (List Byte) × EngRun) k =>
    if r.2.2.isSome then r else let y := f r.2.1 k; (r.1 ++ [y.1], y.2)) ([], s, none)

/-- Whose accesses those of a matrix command are. -/
def MatCmd.eng (c : MatCmd) : EngOf := ⟨c.warp, c.blk, c.int, c.old⟩

/-! ### The parameter block (R319, R320) -/

def mpbF (m : List Nat) (n hi lo : Nat) : Nat := bits (m.getD n 0) hi lo
def mpbA (m : List Nat) : Nat := mpbF m 0 63 40
def mpbAp (m : List Nat) : Nat := mpbF m 0 39 16
def mpbKb (m : List Nat) : Nat := mpbF m 0 15 0
def mpbB (m : List Nat) : Nat := mpbF m 1 63 40
def mpbBp (m : List Nat) : Nat := mpbF m 1 39 16
def mpbNext (m : List Nat) : Nat := mpbF m 1 15 0
def mpbIdx (m : List Nat) : Nat := mpbF m 2 63 40
def mpbAsc (m : List Nat) : Nat := mpbF m 2 39 16
def mpbScp (m : List Nat) : Nat := mpbF m 2 15 0
def mpbBsc (m : List Nat) : Nat := mpbF m 3 63 40
def mpbRow0 (m : List Nat) : Nat := mpbF m 3 39 31
def mpbN (m : List Nat) : Nat := mpbF m 3 30 24
def mpbM (m : List Nat) : Nat := mpbF m 3 23 17
def mpbMq (m : List Nat) : Nat := mpbF m 3 16 15
def mpbFb (m : List Nat) : Nat := mpbF m 3 14 12
def mpbFa (m : List Nat) : Nat := mpbF m 3 11 9
def mpbRes (m : List Nat) : Bool := mpbF m 3 8 8 == 1
def mpbAcc (m : List Nat) : Bool := mpbF m 3 7 7 == 1
def mpbOp (m : List Nat) : Nat := mpbF m 3 1 0
def mpbSparse (m : List Nat) : Bool := mpbOp m == 1

/-- A pair of R310: elements of a k-block, dense clocks, and whether it can be sparse. -/
def pairOf (a b : Ty) : Option (Nat × Nat × Bool) :=
  let f8 (t : Ty) : Bool := t == .e4m3 || t == .e5m2
  if a = .e2m1 ∧ b = .e2m1 then some (32, 4, true)
  else if f8 a && f8 b then some (32, 8, true)
  else if a = .i8 ∧ b = .i8 then some (32, 8, true)
  else if (a = .f16 ∧ b = .f16) ∨ (a = .bf16 ∧ b = .bf16) then some (16, 8, false)
  else if a = .f32 ∧ b = .f32 then some (8, 16, false)
  else none

/-- What a command works with: its slots, elements of a k-block, clocks of one, and bytes of one in a row of A and of B. -/
structure Geometry where
  sa : SlotWord
  sb : SlotWord
  kb : Nat
  clocks : Nat
  na : Nat
  nb : Nat

/-- A continuation block, or a new command's, as the engine reads it; none where it fails with error 4 for its fields, slots or
pair (R319, R320). -/
def Launch.geometry (l : Launch) (m : List Nat) : Option Geometry :=
  match l.fmt (mpbFa m), l.fmt (mpbFb m) with
  | some sa, some sb =>
    match pairOf sa.elem sb.elem with
    | none => none
    | some (kb, clk, sp) =>
      let scaled := sa.scale == 1 || sb.scale == 1
      let ok := mpbF m 3 6 2 == 0 && m.getD 5 0 == 0 && m.getD 6 0 == 0 && m.getD 7 0 == 0 &&
        mpbOp m != 3 && (mpbOp m == 2 || mpbIdx m == 0) && mpbIdx m % 2 == 0 && (mpbSparse m || mpbMq m == 0) &&
        (sa.scale == 1 || mpbAsc m == 0) && (sb.scale == 1 || mpbBsc m == 0) &&
        (if scaled then decide (mpbKb m ≤ mpbScp m) else mpbScp m == 0) &&
        mpbA m % 16 == 0 && mpbAp m % 16 == 0 && mpbB m % 16 == 0 && mpbBp m % 16 == 0 && mpbKb m != 0 &&
        mpbRow0 m % 64 == 0 && decide (mpbRow0 m < l.accrows) && mpbN m != 0 && decide (mpbN m ≤ 96) && mpbM m != 0 &&
        decide (mpbM m ≤ 64) && (!mpbSparse m || sp) && !(mpbRes m && decide (mpbKb m ≤ mpbNext m))
      if ok then
        some ⟨sa, sb, kb, if mpbSparse m then clk / 2 else clk, (if mpbSparse m then 16 else kb) * sa.elem.width / 8, kb * sb.elem.width / 8⟩
      else none
  | _, _ => none

/-- The operand rows of A by tile row. -/
def operandRow (m : List Nat) (idx : List Nat) (i : Nat) : Nat := if mpbOp m = 2 then idx.getD i 0 else i

/-- Operand and scale bytes below M and N lie in the scratchpad (R320). -/
def Launch.operandsFit (l : Launch) (m : List Nat) (g : Geometry) (idx : List Nat) : Bool :=
  let room := 4096 * l.sppages
  ((List.range (mpbM m)).all fun i =>
    decide (mpbA m + operandRow m idx i * mpbAp m + mpbKb m * g.na ≤ room) &&
    (g.sa.scale != 1 || decide (mpbAsc m + operandRow m idx i * mpbScp m + mpbKb m ≤ room))) &&
  decide (mpbB m + (mpbN m - 1) * mpbBp m + mpbKb m * g.nb ≤ room) &&
  (g.sb.scale != 1 || decide (mpbBsc m + (mpbN m - 1) * mpbScp m + mpbKb m ≤ room))

/-- The block after some k-blocks: RES set and NEXT the first one not applied (R321, R323). -/
def contBlock (m : List Nat) (next : Nat) : List Nat :=
  (m.set 1 (m.getD 1 0 / 2 ^ 16 * 2 ^ 16 + next % 2 ^ 16)).set 3
    (m.getD 3 0 - (if mpbRes m then 256 else 0) + 256)

/-! ### Exact k-block sums (R311 to R313, R315) -/

/-- Element [n] of packed bytes (R43). -/
def packed (w : Nat) (bs : List Byte) (n : Nat) : Nat := bits (leNat bs) (w * n + w - 1) (w * n)

/-- The values of a dense run of elements. -/
def denseVals (k : SlotWord) (sc n : Nat) (bs : List Byte) : List FVal :=
  (List.range n).map fun i => widenSlot (packed k.elem.width bs i) k sc

/-- The fields of a metadata entry for a group of a row (R315): LO and HI. -/
def mqeField (e : List Byte) (i g : Nat) : Nat × Nat :=
  let x := leNat ((e.drop (4 * i)).take 4)
  (bits x (4 * g + 1) (4 * g), bits x (4 * g + 3) (4 * g + 2))

/-- The entry breaks R315 in a row below M. -/
def mqeBad (e : List Byte) (m : Nat) : Bool :=
  (List.range m).any fun i => (List.range 8).any fun g => let (lo, hi) := mqeField e i g; decide (hi ≤ lo)

/-- The 32 values of a sparse row. -/
def sparseVals (k : SlotWord) (sc : Nat) (bs e : List Byte) (i : Nat) : List FVal :=
  (List.range 32).map fun n =>
    let (lo, hi) := mqeField e i (n / 4)
    if n % 4 = lo then widenSlot (packed k.elem.width bs (2 * (n / 4))) k sc
    else if n % 4 = hi then widenSlot (packed k.elem.width bs (2 * (n / 4) + 1)) k sc
    else .num false 0 0

/-- A cell after one k-block (R312, R313): the exact sum of the terms and, where it is added, of the old cell, rounded once. -/
def cellAfter (old : Option A80) (a b : List FVal) : A80 :=
  let terms := (a.zip b).map fun x => mulF x.1 x.2
  let o : List FVal := match old with | some c => [decFloat fmtA80 c.toNat] | none => []
  let vals := terms.filterMap id ++ o
  let x : XVal := if (terms.any fun t => t.isNone) || o.any FVal.isNan then .nan
    else (sumX vals (vals.all fun t => t.isZero && t.neg)).1
  BitVec.ofNat 80 (roundTo fmtA80 x .rn false 0).1

/-- A cell of a block's rows, +0 where nothing has been written (R317). -/
def Block.cell (b : Block) (row col : Nat) : A80 := sget b.acc (96 * row + col) 0

/-- Cells written; their poison goes. -/
def State.setCells (s : State) (blk : Nat) (xs : List (Nat × A80)) : State :=
  s.updBlock blk fun b =>
    { b with acc := xs.foldl (fun m x => sset m x.1 x.2 0) b.acc
             poisoned := b.poisoned.filter fun k => xs.all fun x => x.1 != k }

/-! ### k-blocks (R312, R322, R323) -/

/-- The operands of k-block [q]: rows of A and columns of B as values, with what was read. -/
structure Operands where
  a : List (List FVal)
  b : List (List FVal)
  bytes : List (List Byte)

/-- The bytes of one row of an operand for a k-block, its scale first where it has one. -/
def State.operandBytes (s : State) (e : EngOf) (scaled : Bool) (sc off n : Nat) : List Byte × EngRun :=
  let r := engReads s ((if scaled then [sc] else []) ++ (List.range n).map fun k => off + k) fun s o => s.engSpRead e o
  (if scaled then r.1 else 0x7F :: r.1, r.2)

/-- The operands that bytes are, with the metadata entry of a sparse command. -/
def Operands.of (m : List Nat) (g : Geometry) (entry : List Byte) (ra rb : List (List Byte)) : Operands where
  a := ((List.range ra.length).zip ra).map fun (x : Nat × List Byte) =>
    if mpbSparse m then sparseVals g.sa (x.2.headD 0).toNat (x.2.drop 1) entry x.1
    else denseVals g.sa (x.2.headD 0).toNat g.kb (x.2.drop 1)
  b := rb.map fun x => denseVals g.sb (x.headD 0).toNat g.kb (x.drop 1)
  bytes := ra ++ rb

/-- The reads of k-block [q], up to the first failure. -/
def State.operands (s : State) (e : EngOf) (m : List Nat) (g : Geometry) (idx : List Nat) (entry : List Byte) (q : Nat) :
    Operands × EngRun :=
  let ra := engRows s (List.range (mpbM m)) fun s i =>
    let r := operandRow m idx i
    s.operandBytes e (g.sa.scale == 1) (mpbAsc m + r * mpbScp m + q) (mpbA m + r * mpbAp m + q * g.na) g.na
  let rb := if ra.2.2.isSome then ([], ra.2) else
    engRows ra.2.1 (List.range (mpbN m)) fun s j =>
      s.operandBytes e (g.sb.scale == 1) (mpbBsc m + j * mpbScp m + q) (mpbB m + j * mpbBp m + q * g.nb) g.nb
  (Operands.of m g entry ra.1 rb.1, rb.2)

/-- The cells of a tile after a k-block. -/
def State.tileAfter (s : State) (blk : Nat) (m : List Nat) (q : Nat) (o : Operands) : List (Nat × A80) :=
  let b := s.block blk
  ((List.range o.a.length).zip o.a).flatMap fun (x : Nat × List FVal) =>
    ((List.range o.b.length).zip o.b).map fun (y : Nat × List FVal) =>
      (96 * (mpbRow0 m + x.1) + y.1,
        cellAfter (if q = 0 ∧ ¬ mpbAcc m then none else some (b.cell (mpbRow0 m + x.1) y.1)) x.2 y.2)

def State.updMat (s : State) (core id : Nat) (f : MatCmd → MatCmd) : State :=
  s.updCore core fun c => { c with matq := c.matq.map fun q => if q.id == id then f q else q }

/-- A k-block waits for an entry of its metadata queue (R316). -/
def State.starved (s : State) (c : MatCmd) : Bool :=
  match c.kind with
  | .mmac m => c.running && c.err.isNone && mpbSparse m && decide (c.next < mpbKb m) && (s.mqEntries c.blk (mpbMq m)).isEmpty
  | _ => false

/-- The command that the engine works on: the first handed over, except that commands of other blocks pass a stalled one. -/
def State.firstMat (s : State) (core : Nat) : List Nat → List MatCmd → Option MatCmd
  | _, [] => none
  | stalled, c :: r =>
    if !c.handed || !s.engineRuns core c.blk c.finishing || s.secondary c.warp || stalled.contains c.blk then s.firstMat core stalled r
    else if c.stalled.isSome && s.starved c then s.firstMat core (c.blk :: stalled) r
    else some c

def State.currentMat (s : State) (core : Nat) : Option MatCmd := s.firstMat core [] (s.core core).matq

/-- The other copy's command that goes with a primary's. -/
def State.twinMat (s : State) (w : Nat) : Option (Nat × MatCmd) :=
  (s.twinOf w).bind fun v => ((s.coreOf v).matq.find? fun q => q.warp == v && q.handed).map fun q => ((s.blockOf v).core, q)

/-- A command has failed with a code. -/
def State.matFails (s : State) (core id n : Nat) : State :=
  s.updMat core id fun q => { q with running := true, err := some n, stalled := none }

/-- An `mmac` starts: it is validated, and a gather reads its indices (R314, R320). -/
def State.startMmac (s : State) (core : Nat) (c : MatCmd) (m : List Nat) : State :=
  let l := s.launchOf c.warp
  let first := if mpbRes m then mpbNext m else 0
  let go (s : State) (g : Geometry) (idx : List Nat) : State :=
    if l.operandsFit m g idx then s.updMat core c.id fun q => { q with running := true, next := first, idx := idx }
    else s.matFails core c.id 4
  match l.geometry m with
  | none => s.matFails core c.id 4
  | some g =>
    if mpbSparse m && !s.holdsMq c.blk (mpbMq m) then s.matFails core c.id 4
    else if mpbOp m = 2 then
      if 4096 * l.sppages < mpbIdx m + 2 * mpbM m then s.matFails core c.id 4
      else
        match s.engSpBytes c.eng (mpbIdx m) (2 * mpbM m) with
        | (bs, t, none) => go t g ((List.range (mpbM m)).map fun i => leNat ((bs.drop (2 * i)).take 2))
        | (_, _, some none) => s
        | (_, t, some (some f)) => (t.engStop c.eng c.pc c.rpc f).matFails core c.id f.err
    else go s g []

/-- The metadata entry of the k-block that starts, popped (R315). -/
def State.popEntry (s : State) (c : MatCmd) (m : List Nat) : List Byte × State :=
  if mpbSparse m then
    match s.mqEntries c.blk (mpbMq m) with
    | e :: r => (e, s.setMq c.blk (mpbMq m) r)
    | [] => ([], s)
  else ([], s)

/-- Busy cycles deducted from the engine's credit (R97). -/
def State.payCredit (s : State) (core n : Nat) : State := s.updCore core fun c => { c with credit := c.credit - n }

/-- One k-block of one copy's command, its credit paid; none where it has to wait. -/
def State.applyBlock (s : State) (core : Nat) (c : MatCmd) (m : List Nat) (g : Geometry) : Option State :=
  let (entry, t) := (s.payCredit core g.clocks).popEntry c m
  let poisoned := (List.range (mpbM m)).any fun i => (List.range (mpbN m)).any fun j =>
    (t.block c.blk).poisoned.contains (96 * (mpbRow0 m + i) + j)
  if mpbSparse m && mqeBad entry (mpbM m) then some (t.matFails core c.id 4)
  else if poisoned && (mpbAcc m || c.next != 0) then some (t.matFails core c.id 1)
  else
    match t.operands c.eng m g c.idx entry c.next with
    | (_, _, some none) => none
    | (_, u, some (some f)) => some ((u.engStop c.eng c.pc c.rpc f).matFails core c.id f.err)
    | (o, u, none) =>
      let u := u.setCells c.blk (u.tileAfter c.blk m c.next o)
      some ((u.updMat core c.id fun q => { q with next := q.next + 1, stalled := none }).count (s.block c.blk).vi unitCore 18 1)

/-- What a copy's command reads for its next k-block, its metadata entry first, and the failure that the reading ends at. -/
def State.blockBytes (s : State) (c : MatCmd) (m : List Nat) (g : Geometry) : List Byte × Option (Option EngFail) :=
  let (entry, s) := s.popEntry c m
  let r := s.operands c.eng m g c.idx entry c.next
  (entry ++ r.1.bytes.flatten, r.2.2)

/-- The signatures of two copies' commands differ: both fail with error 7 (R323, R337, R447). -/
def State.twinFails (s : State) (core id core2 id2 : Nat) : State :=
  (((s.matFails core id 7).matFails core2 id2 7).mismatch core).mismatch core2

/-- The engine of a core has the credit for a k-block (R97). -/
def State.hasCredit (s : State) (core n : Nat) : Bool := decide (n ≤ (s.core core).credit)

/-- The next k-block of an `mmac` that has started, with the other copy's. -/
def State.mmacStep (s : State) (core : Nat) (c : MatCmd) (m : List Nat) (twin : Option (Nat × MatCmd)) : State :=
  if mpbKb m ≤ c.next then s
  else
    match (s.launchOf c.warp).geometry m with
    | none => s
    | some g =>
      if s.starved c then s.updMat core c.id fun q => { q with stalled := q.stalled.or (some s.devTime) }
      else if !s.hasCredit core g.clocks then s
      else
        match twin with
        | none => (s.applyBlock core c m g).getD s
        | some (core2, c2) =>
          let a := s.blockBytes c m g
          let b := s.blockBytes c2 m g
          if !s.hasCredit core2 g.clocks || a.2 == some none || b.2 == some none then s
          else if a.2.any fun f => f.any fun h => h.hit.isSome then (s.applyBlock core c m g).getD s
          else if c2.err.isSome || chunksDiffer a b then
            ((s.payCredit core g.clocks).payCredit core2 g.clocks).twinFails core c.id core2 c2.id
          else ((s.applyBlock core c m g).bind fun t => t.applyBlock core2 c2 m g).getD s

/-- A sparse command that has stalled for the watchdog period fails with error 6 (R316). -/
def execSparseStallTimeout (core : Nat) (s : State) : Out :=
  match (s.core core).matq.find? fun c => c.handed && s.engineRuns core c.blk false && s.starved c &&
      (match c.stalled with | some t => decide (t + (s.launchOf c.warp).wdogNs ≤ s.devTime) | none => false) with
  | some c => ok (s.updMat core c.id fun q => { q with err := some 6, stalled := none })
  | none => ok s

/-! ### `macc` performed (R332 to R337) -/

/-- The row image of cells (R333): bytes, scales and flags. -/
def rowImage (cells : List A80) (k : SlotWord) : List Byte × List Byte × Nat :=
  let vs := cells.map fun c => decFloat fmtA80 c.toNat
  let parts := (List.range 3).map fun q =>
    let v := (vs.drop (32 * q)).take 32
    let sc := k.scaleOf v
    let els := v.map fun x => narrowSlot x k sc 0
    (sc, els.map Prod.fst, (if k.scale == 1 && sc == 0xFF then flNV else 0) ||| els.foldl (fun a x => a ||| x.2) 0)
  let w := k.elem.width
  let codes := parts.flatMap fun p => p.2.1
  let n := (codes.foldr (fun c acc => c % 2 ^ w + 2 ^ w * acc) 0)
  (leBytes (12 * w) n, if k.scale == 1 then parts.map fun p => BitVec.ofNat 8 p.1 else [], parts.foldl (fun a p => a ||| p.2.2) 0)

/-- The cells of a row image (R334). -/
def rowCells (bs scs : List Byte) (k : SlotWord) : List FVal :=
  (List.range 96).map fun j => widenSlot (packed k.elem.width bs j) k (if k.scale == 1 then (scs.getD (j / 32) 0).toNat else 0x7F)

/-- A value as a cell, added to the old one where `.add` says so (R313, R334). -/
def loadCell (old : Option A80) (x : FVal) : A80 :=
  let o : List FVal := match old with | some c => [decFloat fmtA80 c.toNat] | none => []
  let vs := x :: o
  let v : XVal := if vs.any FVal.isNan then .nan else (sumX vs (vs.all fun t => t.isZero && t.neg)).1
  BitVec.ofNat 80 (roundTo fmtA80 v .rn false 0).1

/-- The cells of a row. -/
def Block.rowAt (b : Block) (row : Nat) : List A80 := (List.range 96).map fun j => b.cell row j

def Block.rowPoisoned (b : Block) (row : Nat) : Bool := b.poisoned.any fun k => k / 96 == row

/-- The image of a row as `macc.st` stores it: data, scales, flags. -/
def State.stImage (s : State) (blk row : Nat) (k : Option SlotWord) : List Byte × List Byte × Nat :=
  match k with
  | some k => rowImage ((s.block blk).rowAt row) k
  | none => (((s.block blk).rowAt row).flatMap fun c => leBytes 16 c.toNat, [], 0)

/-- Bytes of a row image. -/
def rowBytes (k : Option SlotWord) : Nat := match k with | some k => 12 * k.elem.width | none => 1536

def slotScaled (k : Option SlotWord) : Bool := match k with | some k => k.scale == 1 | none => false

/-- The checks of `st` and `ld` (R332): rows, alignment, and bytes within the scratchpad. -/
def Launch.rowsOk (l : Launch) (row n : Nat) : Bool := decide (row + n ≤ l.accrows)

def Launch.imageOk (l : Launch) (data scale n : Nat) (k : Option SlotWord) : Bool :=
  data % 16 == 0 && decide (data + n * rowBytes k ≤ 4096 * l.sppages) && (!slotScaled k || decide (scale + 3 * n ≤ 4096 * l.sppages))

/-- The slot of a `macc`: none where it is missing, invalid or stochastic (R332); `.raw` has none. -/
def Launch.maccSlot (l : Launch) (fmt : Nat) (raw : Bool) : Option (Option SlotWord) :=
  if raw then some none
  else match l.fmt fmt with
    | some k => if k.rnd == .rs then none else some (some k)
    | none => none

/-- What a `macc` comes to: the state, its error, and a stop of its warp. -/
structure MaccEnd where
  s : State
  err : Nat
  fail : Option EngFail
  stop : Option Nat

/-- Rows in order, each whole or not at all, up to the first that fails; [cut]: the row at which signatures differ (R337). -/
def State.maccRows (s : State) (n : Nat) (cut : Option Nat) (f : State → Nat → EngRun) : Option MaccEnd :=
  let m := match cut with | some k => min k n | none => n
  match engEach s (List.range m) f with
  | (t, none) => some ⟨t, if m < n then 7 else 0, none, none⟩
  | (_, some none) => none
  | (t, some (some e)) => some ⟨t, e.err, some e, none⟩

/-- A row image at its place: data at [data] on, scales at [scale] on. -/
def imageAt (data scale : Nat) (k : Option SlotWord) (i : Nat) (bs scs : List Byte) : List (Nat × Byte) :=
  ((List.range bs.length).zip bs).map (fun (x : Nat × Byte) => (data + i * rowBytes k + x.1, x.2)) ++
    ((List.range scs.length).zip scs).map fun (x : Nat × Byte) => (scale + 3 * i + x.1, x.2)

/-- Row [i] stored (R333), once every word of it has been checked and recorded: of a row that fails nothing is written; until the command is credited, what it has replaced may still be read (R337). None: it has to wait. -/
def State.maccStRow (s : State) (core : Nat) (c : MatCmd) (data scale row : Nat) (k : Option SlotWord) (i : Nat) : Option State :=
  if (s.block c.blk).rowPoisoned (row + i) then some (s.matFails core c.id 1)
  else
    let (bs, scs, fl) := s.stImage c.blk (row + i) k
    let xs := imageAt data scale k i bs scs
    match engEach s (xs.map Prod.fst) fun s o => (s.engSpWord c.eng c.blk o true).run s with
    | (_, some none) => none
    | (t, some (some f)) => some ((t.engStop c.eng c.pc c.rpc f).matFails core c.id f.err)
    | (t, none) =>
      let old := xs.map fun x => (x.1, t.spByte c.blk x.1)
      let t := xs.foldl (fun (s : State) x => s.spWriteBytes c.blk x.1 [x.2]) t
      let t := t.updMat core c.id fun q => { q with next := q.next + 1, old := q.old ++ old }
      some (t.updWarp c.warp fun w => { w with mflags := w.mflags ||| fl })

/-- What row [i] of a `macc.ld` reads: data, then scales. -/
def State.ldImage (s : State) (e : EngOf) (data scale : Nat) (k : Option SlotWord) (i : Nat) : List Byte × EngRun :=
  engReads s (((List.range (rowBytes k)).map fun b => data + i * rowBytes k + b) ++
    if slotScaled k then (List.range 3).map fun b => scale + 3 * i + b else []) fun s o => s.engSpRead e o

/-- Row [i] loaded (R334). -/
def State.maccLdRow (s : State) (e : EngOf) (data scale row : Nat) (k : Option SlotWord) (add : Bool) (i : Nat) : EngRun :=
  if add && (s.block e.blk).rowPoisoned (row + i) then (s, some (some ⟨1, none⟩))
  else
    let (image, run) := s.ldImage e data scale k i
    run.andThen fun s =>
      let bs := image.take (rowBytes k)
      let scs := image.drop (rowBytes k)
      let b := s.block e.blk
      let old (j : Nat) : Option A80 := if add then some (b.cell (row + i) j) else none
      let cell (j : Nat) : A80 := match k with
        | some k => loadCell (old j) ((rowCells bs scs k).getD j .qnan)
        | none =>
          let raw := leNat ((bs.drop (16 * j)).take 10)
          if add then loadCell (old j) (decFloat fmtA80 raw) else BitVec.ofNat 80 raw
      (s.setCells e.blk ((List.range 96).map fun j => (96 * (row + i) + j, cell j)), none)

/-- A `macc.st` with its checks of R332. -/
def State.stOk (s : State) (c : MatCmd) : Bool :=
  match c.kind with
  | .st data scale row n fmt raw =>
    let l := s.launchOf c.warp
    match l.maccSlot fmt raw with
    | some k => l.rowsOk row n && l.imageOk data scale n k
    | none => false
  | _ => false

/-- The next row of one copy's `macc.st`. -/
def State.stRow (s : State) (core : Nat) (c : MatCmd) : Option State :=
  match c.kind with
  | .st data scale row _ fmt raw =>
    match (s.launchOf c.warp).maccSlot fmt raw with
    | some k => s.maccStRow core c data scale row k c.next
    | none => none
  | _ => none

/-- What the next row of a copy's `macc.st` would write. -/
def State.stNext (s : State) (c : MatCmd) : List Byte × List Byte :=
  match c.kind with
  | .st _ _ row _ fmt raw =>
    match (s.launchOf c.warp).maccSlot fmt raw with
    | some k => let y := s.stImage c.blk (row + c.next) k; (y.1, y.2.1)
    | none => ([], [])
  | _ => ([], [])

/-- The rows of a `macc.st`. -/
def MatCmd.rows (c : MatCmd) : Nat := match c.kind with | .st _ _ _ n _ _ => n | _ => 0

/-- A `macc.st` starts with its checks, or performs its next row, with the other copy's (R337). -/
def State.stStep (s : State) (core : Nat) (c : MatCmd) (twin : Option (Nat × MatCmd)) : State :=
  let start (s : State) (core : Nat) (c : MatCmd) : State :=
    if s.stOk c then s.updMat core c.id fun q => { q with running := true } else s.matFails core c.id 4
  if !c.running then
    let s := start s core c
    match twin with
    | some (core2, c2) => start s core2 c2
    | none => s
  else if c.rows ≤ c.next then s
  else
    match twin with
    | none => (s.stRow core c).getD s
    | some (core2, c2) =>
      if c2.err.isSome || s.stNext c != s.stNext c2 then s.twinFails core c.id core2 c2.id
      else ((s.stRow core c).bind fun t => t.stRow core2 c2).getD s

/-- The next unit of work of the engine's command: its start, a k-block of an `mmac`, or a row of a `macc.st`. -/
def State.matrixKblock (s : State) (core : Nat) : State :=
  match s.currentMat core with
  | none => s
  | some c =>
    if c.err.isSome || s.pieceShort core c.blk then s
    else
      let rdnt := (s.launchOf c.warp).rdnt
      let twin := if rdnt then s.twinMat c.warp else none
      if rdnt && twin.isNone then s
      else
        match c.kind with
        | .mmac m =>
          let late := twin.any fun y => !y.2.running
          if !c.running || late then
            let s := if c.running then s else s.startMmac core c m
            match twin with
            | some (core2, c2) => if c2.running then s else s.startMmac core2 c2 m
            | none => s
          else s.mmacStep core c m twin
        | .st _ _ _ _ _ _ => s.stStep core c twin
        | _ => s

def execMatrixKblock (core : Nat) (s : State) : Out := ok (s.matrixKblock core)

/-- The lanes' values of a `macc.rd`, with flags (R336). -/
def rdValue (rt : MaccRt) (rnd : Rnd) (c : A80) : Nat × Nat :=
  match rt with
  | .f32 => roundTo fmtF32 (decFloat fmtA80 c.toNat).exact rnd false 0
  | .f64 => roundTo fmtF64 (decFloat fmtA80 c.toNat).exact rnd false 0
  | .a80 => (c.toNat, 0)

def rdRegs : MaccRt → Nat
  | .f32 => 1 | .f64 => 2 | .a80 => 4

/-- A tracked number as a register. -/
def regOfId (n : Nat) : Reg :=
  if h : n < 1536 then .v ⟨n, h⟩ else if h : n - 1536 < 256 then .s ⟨n - 1536, h⟩ else noReg

/-- The result of a command comes: its registers are written, and they are pending no more (R140, R336). -/
def State.giveResult (s : State) (w id : Nat) (ws : Writes) : State :=
  s.updWarp w fun x => { (x.apply ws) with pend := x.pend.filter fun p => p.id != id }

/-- A `macc.rd` performed; lanes of helper threads raise no flags (R59). -/
def State.maccRead (s : State) (c : MatCmd) (reg row col mask : Nat) (rt : MaccRt) (rnd : Rnd) : MaccEnd :=
  let l := s.launchOf c.warp
  let b := s.block c.blk
  let d := regOfId reg
  let give (s : State) (f : Nat → Nat) : State :=
    s.giveResult c.warp c.id (Writes.concat ((lanesOf mask).map fun i => regWrites d (rdRegs rt) i (f i)))
  if !(decide (row < l.accrows) && (col == 0 || col == 32 || col == 64)) then ⟨give s fun _ => 0, 0x11, none, some 0x11⟩
  else if (lanesOf mask).any fun i => b.poisoned.contains (96 * row + col + i) then ⟨give s fun _ => 0, 1, none, some 0x20⟩
  else
    let val (i : Nat) : Nat × Nat := rdValue rt rnd (b.cell row (col + i))
    let fl := (lanesOf (mDiff mask (s.warp c.warp).allHelpers)).foldl (fun a i => a ||| (val i).2) 0
    ⟨(give s fun i => (val i).1).updWarp c.warp fun w => { w with mflags := w.mflags ||| fl }, 0, none, none⟩

/-! ### `mqctl` performed (R340) -/

/-- A `cpy.meta` of the block on queue [q] runs. -/
def State.metaRuns (s : State) (core blk q : Nat) : Bool :=
  (s.core core).copyq.any fun c => c.blk == blk && c.kind == 6 && cpdMq c.desc == q && c.running && c.goesOn

/-- The queues of a block freed. -/
def State.freeMq (s : State) (core blk q : Nat) : State :=
  match (s.block blk).mqs.find? fun x => x.1 == q with
  | none => s
  | some (_, p) =>
    ((s.setMq blk q []).updBlock blk fun b => { b with mqs := sdel b.mqs q }).updCore core fun c => { c with freeMqs := insertNat p c.freeMqs }

/-- The value of an `mqctl` and its effect; none while a release waits. -/
def State.mqControl (s : State) (core blk v q : Nat) : Option (Nat × State) :=
  let held := s.holdsMq blk q
  match v with
  | 0 =>
    if held then some (1, s)
    else
      match (s.core core).freeMqs with
      | [] => some (2, s)
      | p :: r => some (0, (s.updCore core fun c => { c with freeMqs := r }).updBlock blk fun b => { b with mqs := sins b.mqs q p })
  | 1 => if s.metaRuns core blk q then none else if held then some (0, s.freeMq core blk q) else some (1, s)
  | _ => some (if held then 128 + (s.mqEntries blk q).length else 0, s)

/-! ### Completion (R303, R322, R341) -/

/-- What the rows of a copy's `macc.ld` read, row by row (R337). -/
def State.maccImages (s : State) (c : MatCmd) : List (List Byte × Option (Option EngFail)) :=
  match c.kind with
  | .ld data scale _ n fmt raw _ =>
    match (s.launchOf c.warp).maccSlot fmt raw with
    | some k => (List.range n).map fun i => let y := s.ldImage c.eng data scale k i; (y.1, y.2.2)
    | none => []
  | _ => []

/-- The first row whose images differ; a row at which the first copy meets a conflict is its own error. -/
def cutAt (a b : List (List Byte × Option (Option EngFail))) : Option Nat :=
  (List.range (max a.length b.length)).find? fun i =>
    let x := a.getD i ([], none)
    chunksDiffer x (b.getD i ([], none)) && !(x.2.any fun f => f.any fun h => h.hit.isSome)

/-- A command as its completion finds it: an `mmac` and a `macc.st` have done their work, another is performed whole; none while it
waits. -/
def State.maccRun (s : State) (core : Nat) (c : MatCmd) (cut : Option Nat) : Option MaccEnd :=
  let l := s.launchOf c.warp
  match c.kind with
  | .mmac _ | .st _ _ _ _ _ _ => some ⟨s, c.err.getD 0, none, none⟩
  | .ld data scale row n fmt raw add =>
    match l.maccSlot fmt raw with
    | none => some ⟨s, 4, none, none⟩
    | some k =>
      if l.rowsOk row n && l.imageOk data scale n k then
        if s.pieceShort core c.blk then none else s.maccRows n cut fun s i => s.maccLdRow c.eng data scale row k add i
      else some ⟨s, 4, none, none⟩
  | .zero row n =>
    if l.rowsOk row n then
      some ⟨s.setCells c.blk ((List.range (96 * n)).map fun k => (96 * row + k, 0)), 0, none, none⟩
    else some ⟨s, 4, none, none⟩
  | .rd reg row col mask rt rnd => some (s.maccRead c reg row col mask rt rnd)
  | .mq v q reg =>
    (s.mqControl core c.blk v q).map fun y =>
      ⟨y.2.giveResult c.warp c.id (match reg with | some r => regWrites (regOfId r) 1 0 y.1 | none => Writes.none), 0, none, none⟩

/-- The kind of a command in `mstat.err` (R341). -/
def MatKind.code : MatKind → Nat
  | .mmac _ => 0
  | .st _ _ _ _ _ _ => 1
  | .ld _ _ _ _ _ _ _ => 2
  | .zero _ _ => 3
  | .rd _ _ _ _ _ _ => 4
  | .mq _ _ _ => 5

/-- The record of a failed command (R323, R341). -/
def Warp.recordFail (w : Warp) (c : MatCmd) (err : Nat) : Warp :=
  if err = 0 then w
  else
    { w with
      merr := some (err % 256, c.kind.code)
      mcont := match c.kind with
        | .mmac m => some (contBlock m (if c.running && c.next != 0 then c.next else if mpbRes m then mpbNext m else 0))
        | _ => w.mcont }

/-- The stop of a `macc.rd`, taken in the region that the warp executes (R336). It takes the place of a stop of that same region, whose
words run again after it; behind another stop it waits until that one's handler has returned (notes/assumptions/104.md). -/
def State.rdStop (s : State) (w : Nat) (st : Stop) : State :=
  let x := s.warp w
  let same (y : Stop) : Bool := x.hold != .goisto && !y.gone && (y.discard || (!y.rgn && x.region.issued != 0 && y.cause != 0x05))
  match x.stop with
  | none => s.takeStop w st
  | some y => if same y then s.takeStop w st else (s.updWarp w fun z => { z with later := z.later ++ [st] }).deliverStop w

/-- The virtual address of the completion word of a matrix command, 0 for none (R319). -/
def MatCmd.cbwVa (c : MatCmd) : Nat := match c.kind with | .mmac m => m.getD 4 0 | _ => 0

/-- The command leaves the queue: completion word, record, credit, and the stop that it gives its warp. -/
def State.matEnds (s : State) (core : Nat) (c : MatCmd) (r : MaccEnd) (released : Bool) : State :=
  let s := s.updCore core fun q => { q with matq := q.matq.filter fun x => x.id != c.id }
  let s := match r.fail with | some f => s.engStop c.eng c.pc c.rpc f | none => s
  let s := s.endOnWord c.eng c.pc c.rpc c.cbwVa c.cbw r.err
  let s := s.updWarp c.warp fun w => w.recordFail c r.err
  let s := s.endCommand c.warp c.id .t released
  match r.stop with
  | none => s
  | some cause => s.rdStop c.warp (regionStop cause (match c.kind with | .rd _ _ _ m _ _ => m | _ => 0) 0 c.pc [])

/-- The engine's command is ready to complete. -/
def MatCmd.ended (c : MatCmd) : Bool :=
  match c.kind with
  | .mmac m => c.err.isSome || (c.running && decide (mpbKb m ≤ c.next))
  | .st _ _ _ n _ _ => c.err.isSome || (c.running && decide (n ≤ c.next))
  | _ => true

/-- The completion of the engine's command. -/
def State.matComplete (s : State) (core : Nat) : State :=
  match s.currentMat core with
  | none => s
  | some c =>
    if !c.ended then s
    else
      let (ready, s) := s.readyToEnd c.warp core c.cbwVa c.cbw
      if !ready then s
      else
        match (if (s.launchOf c.warp).rdnt then s.twinMat c.warp else none) with
        | none =>
          match s.maccRun core c none with
          | some r => if (s.launchOf c.warp).rdnt then s else r.s.matEnds core c r c.cbw.isSome
          | none => s
        | some (core2, c2) =>
          let a := s.maccImages c
          let b := s.maccImages c2
          if (a ++ b).any fun x => x.2 == some none then s
          else
            let cut := cutAt a b
            match s.maccRun core c cut with
            | none => s
            | some r =>
              match (r.s.matEnds core c r c.cbw.isSome).maccRun core2 c2 cut with
              | some r2 => r2.s.matEnds core2 c2 { r2 with err := if r.err = 0 then r2.err else r.err } c.cbw.isSome
              | none => s

def execMatrixCommandComplete (core : Nat) (s : State) : Out := ok (s.matComplete core)

/-! ### The commands at issue (R325 to R331, R339) -/

/-- Commands of resident blocks in a matrix queue (R322). -/
def State.matRoom (s : State) (core : Nat) : Bool :=
  decide (((s.core core).matq.filter fun c => (s.block c.blk).state == .resident && (s.block c.blk).core == core).length < 16)

/-- A command queued, its registers pending where it has any, and the word's end. -/
def State.queueMat (s : State) (x : Issue) (f : Foot) (kind : MatKind) (full : List Nat) : Out :=
  let (id, s) := s.newCommand x.w .t
  let w := s.warp x.w
  let c : MatCmd := ⟨id, x.w, w.block, kind, x.pc, w.region.entryPc x.mask, false, none, 0, 0, false, [], none, none, [], x.word⟩
  let s := s.updCore (s.blockOf x.w).core fun k => { k with matq := k.matq ++ [c] }
  let s := if f.writes.isEmpty then s else
    s.updWarp x.w fun w => { w with pend := w.pend ++ [⟨id, f.writes, Writes.none, false, none⟩] }
  ok (s.finish x f full x.next true)

def execMmac (g : Guard) (a : Reg) (s : State) : Out :=
  let f := foot (guardIds g ++ regIds 1 a) []
  s.engineWord g f .t fun s x l =>
    s.withBlock x g l a 4 (s.matRoom (s.blockOf x.w).core) 7 fun s d => s.queueMat x f (.mmac d) []

/-- A scalar matrix command without a parameter block. -/
def State.maccWord (s : State) (g : Guard) (f : Foot) (full : List Nat) (kind : State → Issue → MatKind) : Out :=
  s.engineWord g f .t fun s x _ =>
    if !s.matRoom (s.blockOf x.w).core then ok (s.stallAt x.w 7) else s.queueMat x f (kind s x) full

/-- The offsets that `st` and `ld` name: data in the even register, scales in the odd one. -/
def State.maccPair (s : State) (x : Issue) (a : Reg) : Nat × Nat :=
  let v := s.src x ⟨a, .n64, 0⟩ 0
  (v % 2 ^ 32, v / 2 ^ 32)

def execMaccSt (g : Guard) (a b : Reg) (nr : Fin 64) (fmt : Fin 8) (raw : Bool) (s : State) : Out :=
  s.maccWord g (foot (guardIds g ++ regIds 2 a ++ regIds 1 b) []) [] fun s x =>
    .st (s.maccPair x a).1 (s.maccPair x a).2 (s.src x ⟨b, .n32, 0⟩ 0) (nr.val + 1) fmt.val raw

def execMaccLd (g : Guard) (a b : Reg) (nr : Fin 64) (fmt : Fin 8) (raw add : Bool) (s : State) : Out :=
  s.maccWord g (foot (guardIds g ++ regIds 2 a ++ regIds 1 b) []) [] fun s x =>
    .ld (s.maccPair x a).1 (s.maccPair x a).2 (s.src x ⟨b, .n32, 0⟩ 0) (nr.val + 1) fmt.val raw add

def execMaccZero (g : Guard) (b : Reg) (nr : Fin 64) (s : State) : Out :=
  s.maccWord g (foot (guardIds g ++ regIds 1 b) []) [] fun s x => .zero (s.src x ⟨b, .n32, 0⟩ 0) (nr.val + 1)

/-- `macc.rd`: its lane mask is that of the lanes that pass the guard, helper lanes included (R326). -/
def execMaccRd (g : Guard) (d b c : Reg) (rt : MaccRt) (rnd : Rnd) (s : State) : Out :=
  let f : Foot := { reads := guardIds g ++ regIds 1 b ++ regIds 1 c, writes := regIds (rdRegs rt) d
                    pend := true, replay := false, priv := false, pair := false }
  s.plainWord f fun s x =>
    if !(s.warp x.w).roomIn .t then ok (s.stallAt x.w 2)
    else if (s.warp x.w).older.isSome then ok (s.stallAt x.w 10)
    else
      let m := s.passing x g
      if mDiff m (s.warp x.w).allHelpers = 0 then ok ((s.countDone x.w .t).finish x f [] x.next true)
      else if !s.matRoom (s.blockOf x.w).core then ok (s.stallAt x.w 7)
      else
        s.queueMat x f (.rd (f.writes.headD 0) (s.src x ⟨b, .n32, 0⟩ 0) (s.src x ⟨c, .n32, 0⟩ 0) m rt rnd)
          (if (s.warp x.w).covers m then f.writes else [])

/-- An `mqctl`. -/
def State.mqWord (s : State) (g : Guard) (d : Reg) (v q : Nat) : Out :=
  let f : Foot := { reads := guardIds g, writes := regIds 1 d, pend := true, replay := false, priv := false, pair := false }
  s.maccWord g f f.writes fun _ _ => .mq v q f.writes.head?

def execMqctlClaim (g : Guard) (d : Reg) (q : Fin 4) (s : State) : Out := s.mqWord g d 0 q.val
def execMqctlRelease (g : Guard) (d : Reg) (q : Fin 4) (s : State) : Out := s.mqWord g d 1 q.val
def execMqctlQuery (g : Guard) (d : Reg) (q : Fin 4) (s : State) : Out := s.mqWord g d 2 q.val

/-! ### `mstat` (R341) -/

/-- The word of `mstat.err`. -/
def Warp.mstatWord (w : Warp) : Nat :=
  (match w.merr with | some (e, k) => e % 256 + k % 8 * 256 | none => 0) + (if w.mcont.isSome then 2048 else 0) + w.mflags % 128 * 4096

def execMstatErr (g : Guard) (d : Reg) (s : State) : Out :=
  s.scalarWord g d 1 [] fun s x => ((s.warp x.w).mstatWord, s)

def execMstatCont (g : Guard) (a : Reg) (s : State) : Out :=
  let f := foot (guardIds g ++ regIds 1 a) []
  s.plainWord f fun s x =>
    match s.memLanes x g false with
    | (l, false) :: _ =>
      let off := s.src x ⟨a, .n32, 0⟩ l
      match x.decide false [s.lookSp x.w (l, false) off 64 false true true] with
      | .stop st => ok (s.takeStop x.w st)
      | .park ns => ok (s.park x.w f.reads ns)
      | .fine looks =>
        let all := looks.filterMap Look.lane?
        let bs := ((s.warp x.w).mcont.getD (List.replicate 8 0)).flatMap (leBytes 8)
        s.spStoreGo x false 64 .data all
          (fun s => all.foldl (fun (acc : Option State) (y : Lane) => acc.bind fun s =>
            (s.spStoreBytes x .b256 .data y (bs.take 32)).bind fun s =>
              s.spStoreBytes x .b256 .data { y with va := y.va + 32, pa := y.pa + 32 } (bs.drop 32)) (some s))
          fun s => s.finish x f [] x.next false
    | _ => ok (s.finish x f [] x.next false)

def execMstatClr (g : Guard) (s : State) : Out :=
  let f := foot (guardIds g) []
  s.plainWord f fun s x =>
    let s := if s.acting x g false = 0 then s else s.updWarp x.w fun w => { w with region := { w.region with mclear := true } }
    ok (s.finish x f [] x.next false)

end Sys2Proof.Machine
end

