-- ==== Sys2Proof/Machine/Events.lean ====
section
/-!
DEFINITION. Events of cores and homes (spec/95): fetches, pending results, home accesses and commits, services, replicas and
shootdowns (spec/14 R272 to R275), staged and held requests (spec/23), stops, waits, watchdogs and link recovery (spec/27),
and the death of marks (spec/21 R369).
-/

namespace Sys2Proof.Machine

/-! ### Fetches and results (R98 to R100, R140) -/

/-- The line of the word that a warp issues next comes to its core, or its fetch stops or parks the lanes. -/
def execInstructionFetch (w : Nat) (s : State) : Out :=
  if !s.canIssue w || (s.warp w).hold != .none then ok s
  else
    match (s.warp w).choose with
    | none => ok s
    | some e =>
      match s.fetch w e.mask e.pc with
      | .word _ s => ok s
      | .stop st s => ok (s.takeStop w st)
      | .park n s => ok (s.park w [] [n])
      | .wait r s => ok (s.stallAt w r)

/-- The [k]-th pending result is written in every lane and `l` is credited (R140 to R142). -/
def execPendingResultWrite (w k : Nat) (s : State) : Out :=
  match (s.warp w).pend[k]? with
  | none => ok s
  | some p =>
    if !p.ready then ok s
    else
      ok ((s.updWarp w fun x => { (x.apply p.writes) with pend := x.pend.filter fun q => q.id != p.id }).credit w .l p.id)

/-! ### Homes (R153, R360, R364, R412) -/

/-- The address under which the order log keeps a request, if it does: an atomic, but no accumulate one, or an increment (R408). -/
def Req.logged (q : Req) : Option Nat :=
  match q.kind with
  | .atomic a => if a.cls == .accumulate || a.rmt.isSome then none else some a.va
  | .incr _ va _ _ _ => some va
  | .intent _ => none

/-- What replay lets a request do: one of a logged kind keeps the log's order (R412, R413). -/
def State.reqGate (s : State) (q : Req) : Gate :=
  match q.logged with
  | some va => s.gate (s.warp q.warp).launch va (s.blockOf q.warp).lin (s.warp q.warp).windex
  | none => .go

/-- A request taken out of the network. -/
def State.takeReq (s : State) (k : Nat) : State := { s with net := s.net.eraseIdx k }

/-- A request at its home: accepted, or its commit fails. -/
def State.atHome (s : State) (k : Nat) (q : Req) : State :=
  match (s.takeReq k).acceptReq q with
  | .ok s => s
  | .error (st, s) => s.failOlder q.warp st

/-- A request waits at its home for an alias, a mark's room or its line's (R361, R363, R372); one to another module does not. -/
def State.reqWaits (s : State) (q : Req) : Bool :=
  !(match q.kind with | .atomic a => a.rmt.isSome | _ => false) && s.homeWaits q.vi (s.warp q.warp).party q.kind.words

def execHomeAccess (k : Nat) (s : State) : Out :=
  match s.net[k]? with
  | none => ok s
  | some q =>
    if s.reqWaits q then ok s else
    let li := (s.warp q.warp).launch
    match q.logged, s.reqGate q with
    | some va, .hold => ok (s.noteHeld li va)
    | some va, .diverged => ok ((s.divergeUnless li va (s.blockOf q.warp).lin (s.warp q.warp).windex).atHome k q)
    | _, _ => ok (s.atHome k q)

/-- A sync unit's answer reaches a home, which keeps the end stamp of a closed interval (R360). -/
def execIntervalQueryAnswer (slice vi launch block warp interval : Nat) (s : State) : Out :=
  let p : Party := ⟨vi, launch, block, warp⟩
  if Config.slices ≤ slice then ok s
  else
    match s.intervalEnd p interval with
    | .open_ => ok s
    | .at_ e => ok { s with endCache := (p, interval, e) :: s.endCache.filter fun x => !(x.1 == p && x.2.1 == interval) }

/-- Everything that the commit of a warp's older region waits for has come, and that of the other copy of a redundant one (R446). -/
def State.bothReady (s : State) (w : Nat) : Bool :=
  s.commitReady w && (!(s.launchOf w).rdnt || match s.twinOf w with | some v => s.commitReady v | none => true)

/-- The other copy of a redundant warp. -/
def State.mate? (s : State) (w : Nat) : Option Nat := if (s.launchOf w).rdnt then s.twinOf w else none

/-- A comparison of copies that had to wait is made again (R446). -/
def State.retryCompare (s : State) (w : Nat) : State :=
  match (s.warp w).older with
  | some r => if (s.launchOf w).rdnt && !r.compared && r.failed.isNone then s.compareCopies w else s
  | none => s

/-- The commit of a warp's older region completes, with the other copy's where there is one (R153, R446); what has waited for that
follows. -/
def execRegionCommitComplete (w : Nat) (s : State) : Out :=
  let s := s.retryCompare w
  if s.secondary w || !s.bothReady w then ok s
  else
    match s.mate? w with
    | some v => ok ((((s.completeCommit w).completeCommit v).settle w).settle v)
    | none => ok ((s.completeCommit w).settle w)

/-- The stop after a failed commit, in which both regions in flight go: its own, or the deferred stop that waits, in its place, with the
entry of the region (R156, R489). -/
def State.commitStop (s : State) (w : Nat) (st : Stop) : State :=
  let s := s.discardBoth w 1
  match (s.warp w).deferred with
  | none => s.takeStop w { st with gone := true }
  | some d =>
    let e := (s.warp w).choose.or (s.warp w).pct.head?
    let lanes := match e with | some e => e.mask | none => 0
    let pc := match e with | some e => e.pc | none => 0
    let rec_ := if d.record.isEmpty then d.record else d.record.set 3 (pc / 8 % 2 ^ 54)
    (s.updWarp w fun y => { y with deferred := none }).takeStop w
      { d with lanes := lanes, discard := true, gone := true, counts := true, record := rec_ }

/-- A home or the map unit has rejected the older region: both regions in flight go and the warp stops; both copies of a
redundant warp fail alike (R154, R156, R446). A discard waits for results of committed matrix commands (R140). -/
def execRegionCommitFail (w : Nat) (s : State) : Out :=
  match s.commitFailed w with
  | none => ok s
  | some st =>
    match (s.mate? w).filter fun v => (s.warp v).older.isSome with
    | some v => ok (if (s.warp w).awaits || (s.warp v).awaits then s else (s.commitStop w st).commitStop v st)
    | none => ok (if (s.warp w).awaits then s else s.commitStop w st)

/-! ### The L2 and HBM4 (R262, R268, R371 to R373, R448, R451) -/

/-- The handle of an interface whose range holds a line (R267). -/
def State.handleFor (s : State) (line : Nat) : Option (Nat × Nat) :=
  (List.range s.vis.length).findSome? fun vi =>
    ((s.vi vi).handles.find? fun h => (List.range ((h.2.base % 64 + h.2.len + 63) / 64)).any fun k =>
      s.paOf vi (h.2.base / 64 * 64 + 64 * k) .probe == some (64 * line)).map fun h => (vi, h.1)

/-- The interface for which a fill that no request names is counted: that of the handle that holds the line, else that of its marks; the
model's choice (notes/assumptions/86.md). -/
def State.fillVi (s : State) (line : Nat) : Option Nat :=
  ((s.handleFor line).map Prod.fst).or ((s.marks.find? fun m => m.line == line).map fun m => m.vi)

/-- A read of HBM4 counted, with the error that it has found and corrected (R471). -/
def State.countFill (s : State) (line : Nat) (chk : LineCheck) : State :=
  match s.fillVi line with
  | some vi => (s.count vi unitHbm 0 1).count vi unitHbm 2 (if chk == .corrected then 1 else 0)
  | none => s

/-- The room for a line, made by a victim among the lines of its slice that are named, if any (R268, R372). -/
def State.roomAmong (s : State) (line : Nat) (set : List Nat) : Option State :=
  let vs := s.victimsOf (set.filter fun l => lineSlice l == lineSlice line)
  if vs.isEmpty then s.lineRoom line else s.evictFirst vs

/-- A line comes from HBM4 to its slice (R373): a victim of its set leaves, its marks are restored, it is marked with the handle that holds
it (R267), and what cannot be corrected is poisoned (R451). [set]: the lines of the set when it is full. Where no victim's marks can be
spilled, it waits (R372). -/
def execHbmFill (pa : Nat) (set : List Nat) (chk : LineCheck) (marksLost : Bool) (s : State) : Out :=
  let line := pa / 64
  if Config.memBytes ≤ pa || s.present line then ok s
  else
    match s.roomAmong line set with
    | none => ok s
    | some s =>
      let s := (s.restoreLine line).countFill line chk
      let s := { s with l2 := ⟨line, s.handleFor line⟩ :: s.l2 }
      ok (if chk == .uncorrectable || marksLost then s.poisonLine line else s)

/-! ### Uncorrectable errors on the chip (R431, R451) -/

/-- A region-dirty copy is lost: its region is discarded and re-entered, which counts, and past the limit the stop 0x22 is taken
instead (R157); a discard waits for results of committed matrix commands (R140). -/
def State.loseRegion (s : State) (w : Nat) : State :=
  if (s.warp w).awaits then s
  else
    let s := (s.discardRegion w 1).updWarp w fun x => { x with stop := x.stop.filter Stop.stands }
    let x := s.warp w
    if x.reentry + 1 ≤ (s.launchOf w).reentry then
      s.updWarp w fun x => { x with reentry := x.reentry + 1, reentries := min 0xFFFF (x.reentries + 1) }
    else s.takeStop w { Stop.blank with cause := 0x22, rgn := true, discard := true, gone := true, lanes := x.live, counts := true }

/-- A committed-dirty copy is lost: its line is poisoned at its home (R451); the secondary copy of a block sends none (R445). -/
def State.loseCopy (s : State) (w line : Nat) : State :=
  let s := s.updWarp w fun x => { x with dirty := x.dirty.filter fun d => !(d.state == .committed && d.line == line) }
  if s.secondary w then s else s.poisonLine line

/-- An uncorrectable error in a memory of the chip (R451). One that strikes a line of a commit under way does nothing yet: the model's
choice (notes/assumptions/35.md). -/
def State.upset (s : State) (u : Upset) : State :=
  match u with
  | .line pa => if s.present (pa / 64) then s.poisonLine (pa / 64) else s
  | .copy w line =>
    match ((s.warp w).dirty.find? fun d => d.line == line).map DirtyLine.state with
    | some .region => s.loseRegion w
    | some .committed => s.loseCopy w line
    | _ => s
  | .word b off =>
    if (s.spEntry b (off / 4096)).p then
      s.updPage b (off / 4096) fun p => { p with poison := mOr p.poison (2 ^ (off % 4096 / 4)) }
    else s
  | .cell b row col =>
    if (s.block b).state == .resident && decide (row < (s.launch (s.block b).launch).accrows) && decide (col < 96) then
      s.updBlock b fun x => { x with poisoned := if x.poisoned.contains (96 * row + col) then x.poisoned else (96 * row + col) :: x.poisoned }
    else s
  | .warp w =>
    let x := s.warp w
    if x.live == 0 || (s.blockOf w).state != .resident then s
    else
      let s := if x.region.issued = 0 then s else s.discardRegion w 1
      s.endUnresolved w { Stop.blank with cause := 0x20, rgn := true, discard := true, gone := true, lanes := (s.warp w).live }

/-! ### Services (R91, R93, R135, R271) -/

/-- Parked lanes become ready. -/
def Warp.unpark (w : Warp) (lanes : Nat) : Warp :=
  let f (e : PctEntry) : List PctEntry :=
    if e.state == .parked then
      [{ e with mask := mDiff e.mask lanes }, { e with mask := mAnd e.mask lanes, state := .ready, on := .none }].filter fun x => x.mask != 0
    else [e]
  { w with pct := w.pct.flatMap f }.merge

/-- The lanes that some needs name. -/
def needLanes (ns : List Need) : Nat := ns.foldl (fun (m : Nat) n => mOr m n.lanes) 0

/-- A service has come to its end for the needs of a warp that satisfy a test: their lanes that wait for no other one are ready. -/
def State.finishNeeds (s : State) (w : Nat) (f : Need → Bool) : State :=
  s.updWarp w fun x =>
    let left := x.needs.filter fun n => !f n
    { x with needs := left }.unpark (mDiff (needLanes (x.needs.filter f)) (needLanes left))

/-- The parked entry that leaves a service which has failed for some needs: the one that holds the lowest of their lanes; none while a
stop of the warp is pending or a handler of other lanes runs (R135, R424; notes/assumptions/109.md). -/
def Warp.leaver (x : Warp) (ns : List Need) : Option PctEntry :=
  ((lowLane (needLanes ns)).bind fun l => x.pct.find? fun e => e.state == .parked && bit e.mask l).filter fun e =>
    x.stop.isNone && (match x.trap with | some t => mAnd t.sub e.mask != 0 | none => true)

/-- A failure of the service for some needs does something to the warp now: a word that waits finds it, or lanes leave. -/
def Warp.feels (x : Warp) (ns : List Need) : Bool := (ns.any fun n => n.lanes == 0) || (x.leaver ns).isSome

/-- A service has failed for needs of a warp: a word that waits for it finds the cause, and the lanes that parked together leave it with one
region stop, which names those for which it has failed (R93, R135, R173, R421). -/
def State.failNeeds (s : State) (w : Nat) (ns : List Need) (cause : Nat) (record : Need → List Nat) : State :=
  let told (m : Need) : Need := if m.lanes == 0 && ns.contains m then { m with failed := some (cause, record m) } else m
  let s := s.updWarp w fun x => { x with needs := x.needs.map told }
  match (s.warp w).leaver ns with
  | none => s
  | some e =>
    let mine := ns.filter fun n => mAnd n.lanes e.mask != 0
    match mine.find? fun n => lowLane (needLanes mine) == lowLane n.lanes with
    | none => s
    | some n =>
      (s.updWarp w fun x =>
        { x with
          needs := x.needs.filter fun m => mAnd m.lanes e.mask == 0
          pct := x.pct.map fun y => if y = e then y.free else y }).takeStop w
        (regionStop cause (needLanes mine) n.addr n.fpc (record n))

/-- A need for a page of a block. -/
def Need.isPage (n : Need) (b p : Nat) : Bool := n.failed.isNone && (match n.what with | .page c q => c == b && q == p | _ => false)

/-- The warps that wait for a page. -/
def State.pageWaiters (s : State) (b p : Nat) : List Nat :=
  (List.range s.warps.length).filter fun w => (s.warp w).needs.any fun n => n.isPage b p

/-- The record of a need whose page service has met a conflict: it names the parked warp, with KIND 10 (R93). -/
def State.needRecord (s : State) (w : Nat) (n : Need) (e : SpFail) : List Nat :=
  match e.conflict with
  | none => []
  | some c =>
    let rpc := match (s.warp w).pct.find? fun y => mAnd y.mask n.lanes != 0 with | some y => y.pc | none => n.fpc
    s.raceRecord (s.warp w).party 10 false false false n.fpc rpc e.addr c

/-- The needs of a warp for a page. -/
def State.pageNeeds (s : State) (b p w : Nat) : List Need := (s.warp w).needs.filter fun n => n.isPage b p

/-- Every need of a warp for a page fails. -/
def State.failPage (s : State) (b p : Nat) (e : SpFail) (w : Nat) : State :=
  s.failNeeds w (s.pageNeeds b p w) e.cause fun n => s.needRecord w n e

/-- What a conflict that a window fill has met counts and does to the other party; the first warp that waits is the faulting one
(R93, R376). -/
def State.fillConflict (s : State) (b p w : Nat) (e : SpFail) : State :=
  match e.conflict with
  | none => s
  | some c =>
    let x := s.warp w
    let pc := match x.needs.find? fun n => n.isPage b p with | some n => n.fpc | none => 0
    (s.count x.vi unitHome 4 1).pairStop x.party (s.intervalOf x.party).1 10 false pc e.addr c

/-- The service of a page for every warp that waits for it (R91, R93). -/
def execServicePage (b p : Nat) (s : State) : Out :=
  let ws := s.pageWaiters b p
  if ws.isEmpty then ok s
  else
    let fail (s : State) (e : SpFail) : State :=
      match ws.filter fun v => (s.warp v).feels (s.pageNeeds b p v) with
      | [] => s
      | v :: vs => (v :: vs).foldl (fun (s : State) v => s.failPage b p e v) (s.fillConflict b p v e)
    if (s.block b).state != .resident then ok (fail s ⟨0x14, 0, none⟩)
    else if s.fillShort b p || s.fillWaits b p then ok s
    else
      match s.service b p with
      | .ok s => ok (ws.foldl (fun (s : State) v => s.finishNeeds v fun n => n.isPage b p) s)
      | .error e => ok (fail s e)

/-- The use that a need codes. -/
def useOf (k : Nat) : Use := match k with | 0 => .read | 1 => .write | 2 => .exec | _ => .both

/-- What a walk from the root comes to for a need: ready, a cause, or a replica that must come or go first. -/
def State.needWalk (s : State) (w : Nat) (va k : Nat) : Option (Option Nat) :=
  let vi := (s.warp w).vi
  let die := (s.blockOf w).core / Config.dieCores
  match s.walkTree vi va with
  | .invalid => some (some 0x13)
  | .malformed => some none
  | .leaf pte base size =>
    match s.useEntry vi die va ⟨vi, base, size, pte, s.pageBase pte die⟩ (useOf k) true with
    | .service => none
    | _ => some none

/-- Bilral walks the tree again for the translations that a warp waits for (R271): valid entries ready their lanes, an entry
still invalid fails them, and one whose replica must be made or collapsed waits (R273). -/
def execTranslationService (w : Nat) (s : State) : Out :=
  let walked := (s.warp w).needs.filterMap fun n => match n.what with
    | .page _ _ => none
    | .xlat va k => if n.failed.isSome then none else (s.needWalk w va k).map fun r => (n, r)
  let good := (walked.filter fun y => y.2.isNone).map Prod.fst
  ok ((s.finishNeeds w fun m => good.contains m).failNeeds w ((walked.filter fun y => y.2.isSome).map Prod.fst) 0x13 fun _ => [])

/-! ### Replicas and shootdowns (R272 to R275) -/

/-- Memory with [n] bytes at [src] copied to [dst]. -/
def Memory.copy (m : Memory) (src dst n : Nat) : Memory :=
  let cells := (m.filter fun c => decide (src ≤ c.1) && decide (c.1 < src + n)).map fun (c : Host.Cell) => (dst + (c.1 - src), c.2)
  Memory.writeCells (m.filter fun c => !(decide (dst ≤ c.1) && decide (c.1 < dst + n))) cells

/-- A write to a page is under way: a dirty copy that is not committed, a request, a buffered atomic, or a completion word that a
command will change. -/
def State.writesTo (s : State) (vi base size pa : Nat) : Bool :=
  let here (a : Nat) : Bool := decide (pa ≤ a) && decide (a < pa + size)
  (s.warps.any fun w => w.vi == vi && ((w.dirty.any fun d => d.state != .committed && d.inRange base size) ||
    (w.region.atoms.any fun a => a.rmt.isNone && here a.pa) ||
    (match w.older with | some o => o.atoms.any fun a => a.rmt.isNone && here a.pa | none => false))) ||
  ((s.net ++ s.cores.flatMap fun c => c.port).any fun q => q.vi == vi && q.kind.words.any here) ||
  (s.cores.any fun c => (c.copyq.any fun x => match x.cbw with | some a => here a | none => false) ||
    c.matq.any fun x => match x.cbw with | some a => here a | none => false)

/-- Bilral copies a duplicated page to a die and publishes the copy in its replica record at [rec], under a shootdown of the page
that also writes dirty copies back (R272 to R274). -/
def execReplicaCreate (vi va die pa rec_ : Nat) (s : State) : Out :=
  match s.leafAt vi va with
  | none => ok s
  | some (at_, pte, base, size) =>
    let home := bits pte 50 49
    let repl := bit pte 51
    let rec_ := if repl then pteAddr pte else rec_
    let bad := !bit pte 48 || decide (Config.dies ≤ die) || die == home || pa % size != 0 || dieOf pa != die ||
      rec_ % 256 != 0 || decide (Config.memBytes < pa + size) || decide (Config.memBytes < rec_ + 64) || (repl && (s.replica pte die).isSome) ||
      s.writesTo vi base size (s.pageBase pte home)
    if bad then ok s
    else
      let s := s.shootAll vi base size true
      let src := s.pageBase pte home
      let m := s.mem.copy src pa size
      let m := if repl then m else
        (m.writeBytes rec_ (List.replicate 64 0)).writeBytes (rec_ + 8 * home) (leBytes 8 (src + 1))
      let m := m.writeBytes (rec_ + 8 * die) (leBytes 8 (pa + 1))
      let e := if repl then pte else pte - pteAddr pte + rec_ + 2 ^ 51
      ok { s with mem := m.writeBytes at_ (leBytes 8 e) }

def execReplicaCollapse (vi va : Nat) (s : State) : Out := ok (s.collapse vi va)

/-- An initiator sends a range to every agent (R274). -/
def execShootdown (vi va len : Nat) (wb : Bool) (s : State) : Out :=
  ok { s with shoot := s.shoot ++ [⟨vi, va, len, wb, agents⟩] }

/-- An agent removes what overlaps and acknowledges; with the last acknowledgement the shootdown completes (R274). -/
def execShootdownAck (k agent : Nat) (s : State) : Out :=
  match s.shoot[k]? with
  | none => ok s
  | some h =>
    if !h.left.contains agent then ok s
    else
      let s := s.agentDrops h.vi h.va h.len h.wb agent
      let left := h.left.filter fun a => a != agent
      ok { s with shoot := if left.isEmpty then s.shoot.eraseIdx k else s.shoot.set k { h with left := left } }

/-! ### Waits on words (R309, R397) -/

/-- A warp held in `cbw.wait` reads its word again. -/
def execCbwWaitReread (w : Nat) (s : State) : Out :=
  if !s.canIssue w then ok s
  else
    match (s.warp w).hold with
    | .word (.cbwWait g d a) x => ({ s with cur := some x }).cbwForm ⟨g, d, a, false, true⟩
    | _ => ok s

/-- A warp held in `waitw` reads its word again. -/
def execWaitwReread (w : Nat) (s : State) : Out :=
  if !s.canIssue w then ok s
  else
    match (s.warp w).hold with
    | .word (.waitw g d base b c w64 sg sc) x => execWaitw g d base b c w64 sg sc { s with cur := some x }
    | _ => ok s

/-- The sleep of a warp runs out and it is ready again (R177); its single-step stop follows (R180). -/
def execSleepExpiry (w : Nat) (s : State) : Out :=
  match (s.warp w).hold with
  | .sleep t x =>
    if s.clock < t then ok s
    else ok ((s.updWarp w fun y => { y with hold := .none, stall := 0 }).stepStop x (s.warp w).stepping)
  | _ => ok s

/-! ### The floor (R358, R363, R369, R370) -/

/-- The start stamps of the intervals of a record that are open: the current one of a warp that has not exited, and those whose end stamp
is still to come (R347). -/
def IntRec.opens (r : IntRec) : List Nat :=
  (if r.status == .exited then [] else [r.start]) ++ (r.past.filter fun q => !q.busy.isEmpty).map fun q => q.s

/-- The least start stamp of an open interval of a resident or saved warp, [t] when none is open. -/
def State.openFloor (s : State) (t : Nat) : Nat :=
  ((s.recs.filter fun r => r.party.launch != 0).flatMap IntRec.opens).foldl
    (fun (acc : Option Nat) x => some (match acc with | some y => min x y | none => x)) none |>.getD t

/-- The last end stamp of a record. -/
def IntRec.lastEnd (r : IntRec) : Nat := match r.past.head? with | some q => q.e | none => 0

/-- The alias of a party whose launch has ended, its last end stamp below the floor by more than the guard (R363). -/
def State.aliasDead (s : State) (f : Nat) (a : Alias) : Bool :=
  a.party.launch != 0 &&
    match s.launches.find? fun l => l.vi == a.party.vi % 64 && l.num == a.party.launch with
    | some l => l.state == .ended && decide (l.lastEnd + 8 < f)
    | none => true

/-- The sync units broadcast the floor, once in each microsecond; records of exited warps and aliases of ended launches that it passes are
freed (R363, R369). -/
def execFloorBroadcast (s : State) : Out :=
  if s.devTime / 1000 ≤ s.lastFloor then ok s else
  let f := s.openFloor s.clock
  let dead (r : IntRec) : Bool := r.status == .exited && !anyBusy r.past && decide (r.lastEnd + 8 < f)
  let gone := s.recs.filter dead
  ok { s.freeAliases (s.aliasDead f) with
    lastFloor := s.devTime / 1000
    floors := (s.clock, f) :: s.floors.take 1
    recs := s.recs.filter fun r => !dead r
    endCache := s.endCache.filter fun x => gone.all fun r => r.party != x.1 }

/-! ### Deterministic execution and replay (R401 to R414) -/

/-- The warp whose commit carries an update. -/
def State.updWarpOf (s : State) (u : AccUpd) : Option Nat :=
  (List.range s.warps.length).find? fun w =>
    (s.warp w).launch == u.launch && (s.blockOf w).lin == u.req.block && (s.warp w).windex == u.req.warp && !s.secondary w &&
    (match (s.warp w).older with | some r => r.atoms.contains u.req | none => false)

/-- The update's commit has no other request left. -/
def State.updDue (s : State) (u : AccUpd) : Bool :=
  match s.updWarpOf u with
  | none => true
  | some w => match (s.warp w).older with | some r => r.failed.isNone && !s.reqsLeft w r.seq | none => true

/-- The update reaches its home and is buffered, deferred, or still not accepted (R404, R406). -/
def State.updArrives (s : State) (u : AccUpd) : State :=
  if !s.updDue u then s
  else
    match s.arriveUpd u with
    | none => s
    | some t => { t with waiting := t.waiting.erase u }

def execHoldingBufferArrive (k : Nat) (s : State) : Out :=
  match s.waiting[k]? with
  | none => ok s
  | some u => ok (s.updArrives u)

/-- The home walks the pages of the deferred area again, and takes the waiting updates in their order (R406). -/
def execDeferAreaRetry (l : Nat) (s : State) : Out :=
  ok ((s.waiting.filter fun u => u.launch == l).foldl (fun (s : State) u => s.updArrives u) s)

/-- The bytes of a staged write-back by page. -/
def Staged.pages (e : Staged) : List (List (Nat × Byte × Bool)) :=
  (List.range (e.bytes.length / 4096)).map fun k => (e.bytes.drop (4096 * k)).take 4096

/-- One page of a write-back performed; what is written whole is dirty no more (R293). -/
def State.flushChunk (s : State) (b pc : Nat) (bs : List (Nat × Byte × Bool)) : State × Option FlushFail :=
  let (s, e) := s.releaseBytes b pc bs
  (if e.isSome then s else s.flushDone b bs, e)

/-- A staged window write-back is performed (R293, R401). -/
def State.flushStaged (s : State) (e : Staged) : State :=
  let s := { s with staged := s.staged.filter fun x => x.id != e.id }
  let r := e.pages.foldl (fun (acc : State × Option FlushFail) bs =>
    let (t, x) := acc.1.flushChunk e.block e.iss.pc bs
    (t, acc.2.or x)) (s.openW63 e.block, none)
  let s := r.1.advanceParty (s.partyOf e.block 63) 16
  if (s.warp e.warp).ended then s else s.flushStop e.warp e.iss.pc r.2

/-- A held request whose turn in the log's order has come is released, and a staged write-back whose turn has come is
performed (R401, R412). -/
def execReplayRelease (k : Nat) (s : State) : Out :=
  match s.staged.find? fun e => e.id == k with
  | none => ok s
  | some e =>
    if !e.bytes.isEmpty then
      ok (if ((s.launch e.launch).det && !s.stagedFirst e.launch k) || s.flushHeld e.block e.vas then s else s.flushStaged e)
    else if e.released || (s.launch e.launch).det then ok s
    else
      match s.replayGate e.iss e.vas with
      | .hold => ok s
      | _ => ok { s with staged := s.staged.map fun x => if x.id == k then { x with released := true } else x }

/-- The next expected requester of an address has not arrived within the replay window (R413). -/
def execReplayWindowExpiry (l va : Nat) (s : State) : Out :=
  let g := (s.launch l).log
  let pos := sget g.done va 0
  match g.since.find? fun x => x.1 == va, (g.seqOf va)[pos]? with
  | some (_, t), some o =>
    if !(s.launch l).replaying || decide (s.devTime < t + (s.launch l).rpwin) then ok s
    else if (s.staged.any fun e => e.launch == l && e.vas.contains va && (s.block e.block).lin == o.block && (s.warp e.warp).windex == o.warp) then ok s
    else ok (s.diverge l 1 va pos (requester o.block o.warp) (2 ^ 64 - 1))
  | _, _ => ok s

/-! ### Stops (R423, R430, R432, R489) -/

def execStopDelivery (w : Nat) (s : State) : Out := ok (s.deliverStop w)

/-- The deferred stop of a warp that waits in a word, or that stands at a region boundary (R489). -/
def execDeferredStopDelivery (w : Nat) (s : State) : Out :=
  let x := s.warp w
  if x.deferred.isNone || x.stop.isSome || x.live == 0 then ok s
  else
    match x.hold with
    | .word _ i => ok ((s.updWarp w fun y => { y with hold := .none, recover := none }).deliverDeferred w i.pc i.mask)
    | .none =>
      if x.older.isSome || x.region.issued != 0 then ok s
      else
        match x.choose with
        | some e => ok (s.deliverDeferred w e.pc e.mask)
        | none => ok s
    | _ => ok s

/-- The region stop that ends a wait of any kind with a cause, for every lane of the warp (R432, R433). -/
def State.expire (s : State) (w cause : Nat) : State :=
  let x := s.warp w
  let s := match x.hold with
    | .staged _ => s.dropStaged w
    | _ => s
  let s := s.updWarp w fun y => { y with hold := .none, recover := none }
  s.takeStop w (regionStop cause x.live 0 (match x.pct.head? with | some e => e.pc | none => 0) [])

/-- The count of a warp has reached LAUNCH.WDOG (R432). A warp that `goisto` holds is not stopped, a DESIGN CHOICE
(notes/assumptions/99.md). -/
def execWatchdogExpiry (w : Nat) (s : State) : Out :=
  let x := s.warp w
  if x.live == 0 || x.hold == .goisto || (x.stop.any fun st => st.cause == 0x23) || x.recover.isSome || (s.blockOf w).state != .resident || (s.vi x.vi).frozen then ok s
  else if x.wdog < (s.launchOf w).wdogNs then ok s
  else ok (s.expire w 0x23)

/-- A warp that `goisto` holds goes on as by `trapret` (R430). -/
def State.goistoGo (s : State) (w : Nat) (st : Stop) : State :=
  (s.updWarp w fun y =>
    { (y.place (mAnd st.sub y.live) st.rpc .ready .none).merge with
      stop := none, hold := .none, stall := 0, bpskip := if st.hwbp && st.rpc == st.pc then some (st.sub, st.rpc) else none }).nextStop w

/-- What `goisto` does through Bilral: it sets DBGCTL.STEP, or a warp held at a breakpoint or single step goes on, or ends as by an
unresolved stop (R180, R430). -/
def execGoistoResume (w : Nat) (act : GoistoAct) (s : State) : Out :=
  match act with
  | .step b => ok (s.updWarp w fun x => { x with dbgctl := if b then 1 else 0 })
  | .resume =>
    match (s.warp w).hold, (s.warp w).stop with
    | .goisto, some st => ok (s.goistoGo w st)
    | _, _ => ok s
  | .finish =>
    match (s.warp w).hold, (s.warp w).stop with
    | .goisto, some st => ok (s.unresolved w st)
    | _, _ => ok s

/-! ### Links (R433, R480, R482) -/

/-- The module whose word a warp waits on. -/
def State.waitsOn (s : State) (w : Nat) : Option Nat :=
  match (s.warp w).hold with
  | .word (.waitw g _ base _ _ _ _ sc) x =>
    match s.memLanes x g false with
    | y :: _ =>
      match (s.lookGlobal w y (s.ea x (baseReg base) 0 64 y.1) 4 .read (sc == .sys)).1 with
      | .far m _ => some m
      | _ => none
    | [] => none
  | _ => none

/-- The warps held on words across a port. -/
def State.warpsAcross (s : State) (port : Nat) : List Nat :=
  (List.range s.warps.length).filter fun w => match s.waitsOn w with | some m => m % 8 == port | none => false

def State.updPort (s : State) (p : Nat) (f : Port → Port) : State :=
  { s with ports := sset s.ports p (f (sget s.ports p ⟨none, false⟩)) ⟨none, false⟩ }

/-- A port reports link recovery, and the warps that wait across it stop counting (R433). -/
def execLinkRecoveryReport (port : Nat) (s : State) : Out :=
  if 8 ≤ port || (sget s.ports port ⟨none, false⟩).failed then ok s
  else
    let s := s.updPort port fun p => { p with recovering := p.recovering.or (some s.devTime) }
    ok ((s.warpsAcross port).foldl (fun (s : State) w => s.updWarp w fun x => { x with recover := x.recover.or (some s.devTime) }) s)

/-- The link has recovered, and the warps count on (R433). -/
def execLinkRecovered (port : Nat) (s : State) : Out :=
  if 8 ≤ port then ok s
  else
    let s := s.updPort port fun p => { p with recovering := none }
    ok ((s.warpsAcross port).foldl (fun (s : State) w => s.updWarp w fun x => { x with recover := none }) s)

/-- The link has failed, or recovery has lasted 100 ms: peer lost (R433). -/
def execLinkRecoveryTimeout (w : Nat) (s : State) : Out :=
  match (s.warp w).recover, s.waitsOn w with
  | some t, some m => if s.portFailed m || decide (t + 100000000 ≤ s.devTime) then ok (s.expire w 0x24) else ok s
  | _, _ => ok s

/-- A scale-up port fails: the copy commands that use it fail with error 5 at their next access (R303, R482). -/
def execScaleupPortFailure (port : Nat) (s : State) : Out :=
  if 8 ≤ port then ok s else ok (s.updPort port fun _ => ⟨none, true⟩)

/-- A Culvert beat fails its check and is resent; after 16 failures the link is down and the module is reported failed (R480). -/
def execCulvertBeatFail (a b : Nat) (s : State) : Out :=
  if a == b || decide (Config.dies ≤ a) || decide (Config.dies ≤ b) then ok s
  else
    let k := linkOf a b
    let x := sget s.links k ⟨0, false⟩
    let n := x.fails + 1
    ok { s with links := sset s.links k ⟨n, x.down || decide (16 < n)⟩ ⟨0, false⟩
                moduleFailed := s.moduleFailed || decide (16 < n) }

end Sys2Proof.Machine
end

