-- ==== Sys2Proof/Machine/Headgate.lean ====
section
/-!
DEFINITION. The Headgate and the end of the work: eligibility and choice (spec/04 R73, R75), placement, local queues and work
stealing (spec/05 R80 to R88, spec/29 R444), the start of a block (R84), and exit records, retirement and launch end
(spec/31 R456 to R459).
-/

namespace Sys2Proof.Machine

/-! ### Eligibility (R73) -/

/-- The word of a dependence as the Headgate reads it: ready, not ready, or the launch is cancelled with a first error. -/
inductive Dep where
  | ready
  | waits
  | cancel (err : Nat)
  deriving DecidableEq, Repr

/-- The word at a dependence's address. A page that has become another module's cancels with 0x15, a DESIGN CHOICE
(notes/assumptions/97.md). -/
def State.depWord (s : State) (vi va : Nat) : Dep :=
  match s.freshXlate 0 vi va .read false with
  | .ok pa =>
    let d := if (s.ctrOffset vi va).isSome then 0 else s.dword pa
    if 2 ≤ cbwStatus d then .cancel 0 else if cbwCount d = 0 then .ready else .waits
  | .cause c => .cancel c
  | _ => .cancel 0x12

/-- The dependences of a launch together: the first that cancels, else the first that waits. -/
def State.deps (s : State) (l : Launch) : Dep :=
  let ds := (List.range l.ndep).map fun n => s.depWord l.vi (l.dep n)
  match ds.find? fun d => d != .ready && d != .waits with
  | some d => d
  | none => if ds.contains .waits then .waits else .ready

/-- A launch leaves its queue. -/
def State.dequeue (s : State) (li : Nat) : State :=
  s.updVi (s.launch li).vi fun v => { v with queues := v.queues.map fun q => q.filter fun k => k != li }

/-- A launch is cancelled: status 3, its count decremented (R73, R66). -/
def State.cancelLaunch (s : State) (li err : Nat) : State :=
  let l := s.launch li
  ((s.hostCbw l.vi l.cbw fun d => cbwEnd d 3 err true).dequeue li).updLaunch li fun l => { l with state := .ended, eligible := none }

/-- The Headgate has read a launch's dependence words with acquires of the host party (R73, R364). -/
def State.markDeps (s : State) (l : Launch) : State :=
  (List.range l.ndep).foldl (fun (s : State) n =>
    match s.paOf l.vi (l.dep n) .read with
    | some pa => s.hostMark l.vi (l.dep n) 2 .acquire false [pa, pa + 4]
    | none => s) s

/-- The launch may have blocks dispatched: its VI is neither frozen nor in reset, and no pre-emption holds it (R73, R435). -/
def State.mayDispatch (s : State) (l : Launch) : Bool := !(s.vi l.vi).frozen && !(s.vi l.vi).resetting && !l.stopped

/-- The head of a queue looked at again. -/
def State.refreshHead (s : State) (li : Nat) : State :=
  let l := s.launch li
  let d : Dep := if l.next = 0 then s.deps l else .ready
  match d with
  | .cancel e => s.cancelLaunch li e
  | .waits => s.updLaunch li fun l => { l with eligible := none }
  | .ready =>
    if !s.mayDispatch l then s.updLaunch li fun l => { l with eligible := none }
    else if l.eligible.isSome then s
    else (if l.next = 0 then s.markDeps l else s).updLaunch li fun l => { l with eligible := some s.devTime }

/-- The heads of a VI's queues, with their queue numbers. -/
def Vi.heads (v : Vi) : List (Nat × Nat) :=
  ((List.range v.queues.length).zip v.queues).filterMap fun x => x.2.head?.map fun li => (x.1, li)

/-- The VI has an eligible launch. -/
def State.hasEligible (s : State) (v : Vi) : Bool := v.heads.any fun x => (s.launch x.2).eligible.isSome

/-- The least VTIME among the VIs that have eligible launches and had them before. -/
def State.leastVtime (s : State) : Option Nat :=
  (s.vis.filter fun v => v.eligible && s.hasEligible v).foldl (fun (acc : Option Nat) v => some (match acc with | some x => min x v.vtime | none => v.vtime)) none

/-- A VI gains an eligible launch, or has none left (R75). -/
def State.refreshVi (s : State) (v : Nat) : State :=
  let has := s.hasEligible (s.vi v)
  if has == (s.vi v).eligible then s
  else
    let least := s.leastVtime
    s.updVi v fun y => { y with eligible := has, vtime := if has then max y.vtime (least.getD 0) else y.vtime }

/-- Every head looked at again, then the VIs. -/
def State.refresh (s : State) : State :=
  let heads := s.vis.flatMap fun v => if v.resetting then [] else v.heads.map Prod.snd
  let s := heads.foldl State.refreshHead s
  (List.range s.vis.length).foldl State.refreshVi s

/-! ### The choice (R75) -/

/-- An eligible launch at the head of its queue, with its effective priority. -/
structure Cand where
  vi : Nat
  q : Nat
  li : Nat
  level : Nat
  deriving DecidableEq, Repr

/-- min(7, LAUNCH.PRIO + ⌊a / 1 ms⌋). -/
def State.effective (s : State) (l : Launch) : Nat :=
  min 7 (l.prio + (s.devTime - max (l.eligible.getD 0) l.lastDisp) / 1000000)

def State.cands (s : State) : List Cand :=
  (List.range s.vis.length).flatMap fun v =>
    (s.vi v).heads.filterMap fun x =>
      let l := s.launch x.2
      if l.eligible.isSome && s.mayDispatch l then some ⟨v, x.1, x.2, s.effective l⟩ else none

/-- The element of least key, the first on a tie. -/
def leastBy {α : Type} (key : α → Nat) (xs : List α) : Option α :=
  xs.foldl (fun (acc : Option α) x => match acc with | some y => if key x < key y then some x else some y | none => some x) none

/-- choose_launch. -/
def State.chooseLaunch (s : State) (cs : List Cand) : Option Cand :=
  [7, 6, 5, 4, 3, 2, 1, 0].findSome? fun level =>
    let c := cs.filter fun x => x.level == level
    (leastBy (fun (x : Cand) => (s.vi x.vi).vtime) c).bind fun w =>
      leastBy (fun (x : Cand) => (x.q + 63 - (s.vi x.vi).lastq) % 64) (c.filter fun x => x.vi == w.vi)

/-! ### Placement (R81, R83, R87, R88, R444) -/

/-- Cores where blocks of a VI may be placed: enabled cores of its partition, no cluster under test (R452). -/
def State.usable (s : State) (vi : Nat) : List Nat := (s.partition vi).filter fun c => !(sget s.clusters (c / 8) noCluster).testing

/-- Warps resident on a core. -/
def State.residentWarps (s : State) (c : Nat) : Nat :=
  (s.warps.filter fun w => !w.ended && (s.block w.block).state == .resident && (s.block w.block).core == c).length

/-- A block of a launch fits a core now, beside [n] more of them. -/
def State.fitsNow (s : State) (l : Launch) (c n : Nat) : Bool :=
  ((List.range (n + 1)).foldl (fun (u : Used) _ => u.add l) (s.used c)).within

/-- The fitting core with the fewest resident warps, the lowest on a tie. [done]: the cores and metadata queues of the members
placed before; [mq]: the metadata queues that the member holds (R340). -/
def State.bestCore (s : State) (l : Launch) (cs : List Nat) (done : List (Nat × Nat)) (mq : Nat) : Option Nat :=
  let n (c : Nat) : Nat := (done.filter fun x => x.1 == c).length
  let held (c : Nat) : Nat := done.foldl (fun (a : Nat) x => if x.1 == c then a + x.2 else a) 0
  leastBy (fun c => s.residentWarps c + n c * l.nwarps)
    (cs.filter fun c => s.fitsNow l c (n c) && decide (held c + mq ≤ (s.core c).freeMqs.length))

/-- Cores for members with those metadata queues, one after the other. -/
def State.placeMany (s : State) (l : Launch) (cs : List Nat) : List Nat → List (Nat × Nat) → Option (List Nat)
  | [], done => some (done.map Prod.fst)
  | mq :: r, done =>
    match s.bestCore l cs done mq with
    | none => none
    | some c => s.placeMany l cs r (done ++ [(c, mq)])

/-- Free warp slots of some cores. -/
def State.freeWarps (s : State) (cs : List Nat) : Nat :=
  cs.foldl (fun (a : Nat) c => a + (Config.warpSlots - (s.used c).slots.foldl (fun (x : Nat) y => x + y) 0)) 0

/-- Cores for a gang (R87, R88): the die with the most free warp slots among those that hold it, else dies as its span allows. -/
def State.placeGang (s : State) (l : Launch) (cs mqs : List Nat) : Option (List Nat) :=
  let on (ds : List Nat) : Option (List Nat) := s.placeMany l (onDies ds cs) mqs []
  if mqs.length = 1 then s.placeMany l cs mqs [] else
  let dies := (List.range Config.dies).filter fun d => (on [d]).isSome
  match leastBy (fun d => Config.cores * Config.warpSlots - s.freeWarps (onDies [d] cs)) dies with
  | some d => on [d]
  | none => if l.span then l.dieSets.findSome? on else none

/-- Cores for the members of a gang and, in redundant execution, for their secondaries: in clusters without a primary of the
gang, on other dies where they can be (R444). -/
def State.placeCopies (s : State) (l : Launch) (mqs mqs2 : List Nat) : Option (List Nat × List Nat) :=
  let cs := s.usable l.vi
  match s.placeGang l cs mqs with
  | none => none
  | some p =>
    if !l.rdnt then some (p, [])
    else
      let away := cs.filter fun c => p.all fun k => k / 8 != c / 8
      let far := away.filter fun c => p.all fun k => k / Config.dieCores != c / Config.dieCores
      ((s.placeGang l far mqs2).or (s.placeGang l away mqs2)).map fun q => (p, q)

/-! ### Blocks and their start (R84, R90, R297, R317) -/

/-- The map of a block at its start: window pages carry WIN, their index and WR. -/
def Launch.startMap (l : Launch) : Sparse SpEntry :=
  (List.range l.nwin).foldl (fun (m : Sparse SpEntry) k =>
    let d := l.win k
    (List.range (winPages d)).foldl (fun (m : Sparse SpEntry) p =>
      sins m (winPage d + p) { SpEntry.empty with win := true, wr := winWr d, winix := k }) m) []

/-- Warp [i] of a block as it starts. -/
def Launch.newWarp (l : Launch) (li b lin copy i : Nat) : Warp :=
  let w : Warp := { Warp.blank with
    vi := l.vi, launch := li, block := b, windex := i, party := ⟨l.vi + 64 * copy, l.num, lin, i⟩
    present := l.presentLanes i, helpers := mAnd (l.helperLanes i) (l.presentLanes i), ended := false
    pct := [⟨l.entry, l.presentLanes i, .ready, .none, 0⟩] }
  (w.setS 0 (BitVec.ofNat 32 l.param)).setS 1 (BitVec.ofNat 32 (l.param / 2 ^ 32))

/-- The block has run on the core's cluster; blocks of redundant launches are not listed (R453). -/
def State.noteRan (s : State) (c li lin : Nat) : State :=
  let k := sget s.clusters (c / 8) noCluster
  if (s.launch li).rdnt || k.ran.contains (li, lin) then s
  else { s with clusters := sins s.clusters (c / 8) { k with ran := k.ran ++ [(li, lin)] } }

/-- The instruction-cache lines filled before a launch's acceptance go (R99). -/
def Core.dropFetched (k : Core) (accepted : Nat) : Core := { k with ic := k.ic.filter fun y => decide (accepted ≤ y.t) }

/-- A block's accumulator units on its core (R82). -/
def State.giveUnits (s : State) (b c n : Nat) : State :=
  let us := (s.core c).freeUnits.take n
  (s.updCore c fun k => { k with freeUnits := k.freeUnits.drop n }).updBlock b fun x => { x with units := us }

/-- A block starts on a core (R84). -/
def State.startBlock (s : State) (b c : Nat) : State :=
  let x := s.block b
  let l := s.launch x.launch
  let s := (s.updCore c fun k => k.dropFetched l.accepted).giveUnits b c (l.accrows / 64)
  let s := s.updBlock b fun y => { y with state := .resident, core := c, map := l.startMap }
  let s := { s with warps := s.warps ++ (List.range l.nwarps).map fun i =>
    { l.newWarp x.launch b x.lin x.copy i with lastIssue := (s.core c).cycles.getD (i % 4) 0 } }
  let s := s.updLaunch x.launch fun y => { y with started := if y.started.contains x.lin then y.started else x.lin :: y.started }
  s.noteRan c x.launch x.lin

/-- The Weir tracks at most 64 deterministic launches at once (R399). -/
def State.weirRoom (s : State) (li : Nat) : Bool :=
  let l := s.launch li
  !l.det || l.next != 0 ||
    decide ((s.launches.filter fun k => k.det && k.state == .running).length < 64)

/-- A block of a VI is in a scope. -/
def scopeCovers (sc : PreemptScope) (li lin : Nat) : Bool :=
  match sc with
  | .blocks l bs => l == li && bs.contains lin
  | .launch l => l == li
  | .vi => true

/-- The gang of a block of a launch has a member in a scope (R24). -/
def Launch.inScope (l : Launch) (sc : PreemptScope) (li lin : Nat) : Bool :=
  let g := max 1 l.gang
  (List.range g).any fun k => scopeCovers sc li (lin / g * g + k)

/-- The block is in the scope of a pre-emption that is under way (R435). -/
def State.inScope (s : State) (li lin : Nat) : Bool :=
  s.preempts.any fun p => p.vi == (s.launch li).vi && (s.launch li).inScope p.scope li lin

/-- The next block of a launch: the lowest that has come back from a local queue, else the next in order. -/
def State.nextBlock (s : State) (li : Nat) : Option Nat :=
  let l := s.launch li
  match leastBy id (l.returned.filter fun n => !s.inScope li n) with
  | some n => some n
  | none => if l.next < l.nblocks && !s.inScope li l.next then some l.next else none

/-- The queued record of a block that came back, or a new one. -/
def State.blockRecord (s : State) (li lin copy : Nat) : Nat × State :=
  match (List.range s.blocks.length).find? fun b =>
      (s.block b).launch == li && (s.block b).lin == lin && (s.block b).copy == copy && (s.block b).state == .queued with
  | some b => (b, s)
  | none =>
    let l := s.launch li
    (s.blocks.length, { s with blocks := s.blocks ++ [{ Block.blank with vi := l.vi, launch := li, lin := lin, copy := copy, state := .queued }] })

/-- Blocks of a launch count as dispatched (R75, R83). -/
def State.dispatched (s : State) (li : Nat) (lins : List Nat) : State :=
  let s := s.updLaunch li fun l =>
    { l with state := .running, lastDisp := s.devTime, returned := l.returned.filter fun n => !lins.contains n
             next := lins.foldl (fun (a : Nat) n => max a (n + 1)) l.next }
  let l := s.launch li
  let s := s.updVi l.vi fun v => { v with vtime := v.vtime + 65536 / max 1 v.cfg.share * lins.length, lastq := l.queue }
  if l.nblocks ≤ l.next && l.returned.isEmpty then s.dequeue li else s

/-- The core to which one block is sent (R83). -/
def State.queueCore (s : State) (l : Launch) : Option Nat :=
  let cs := s.usable l.vi
  match leastBy s.residentWarps (cs.filter fun c => s.fitsNow l c 0 && (s.core c).queue.isEmpty) with
  | some c => some c
  | none => leastBy (fun c => (s.core c).queue.length) (cs.filter fun c => decide ((s.core c).queue.length < 4))

/-- What `%gangspan` reads for the members of a gang on some cores (R89). -/
def Launch.spanOf (l : Launch) (cs : List Nat) : Nat :=
  if (dedup (cs.map fun c => c / Config.dieCores)).length ≤ 1 then 0 else if l.far then 2 else 1

/-- Members of a gang started together, with their secondaries (R24, R87, R444). -/
def State.startGang (s : State) (li : Nat) (lins p q : List Nat) : State :=
  let put (s : State) (copy : Nat) (xs : List (Nat × Nat)) : State := xs.foldl (fun (s : State) x =>
    let (b, s) := s.blockRecord li x.1 copy
    (s.startBlock b x.2).updBlock b fun y => { y with span := (s.launch li).spanOf (xs.map Prod.snd) }) s
  let s := put s 0 (lins.zip p)
  let s := put s 1 (lins.zip q)
  let at_ (s : State) (copy lin : Nat) : Option Nat := (List.range s.blocks.length).find? fun b =>
    (s.block b).launch == li && (s.block b).lin == lin && (s.block b).copy == copy && (s.block b).state == .resident
  if q.isEmpty then s
  else lins.foldl (fun (s : State) lin =>
    match at_ s 0 lin, at_ s 1 lin with
    | some b, some c => (s.updBlock b fun x => { x with twin := some c }).updBlock c fun x => { x with twin := some b }
    | _, _ => s) s

/-- The next block or gang of a launch placed, none when it cannot be placed at this moment. -/
def State.place (s : State) (li : Nat) : Option State :=
  let l := s.launch li
  if !s.weirRoom li then none
  else
    match s.nextBlock li with
    | none => none
    | some lin =>
      if l.gang ≤ 1 && !l.rdnt then
        match s.queueCore l with
        | none => none
        | some c =>
          let (b, s) := s.blockRecord li lin 0
          some (((s.updBlock b fun x => { x with core := c }).updCore c fun k => { k with queue := k.queue ++ [b] }).dispatched li [lin])
      else
        let lins := (List.range (max 1 l.gang)).map fun k => lin + k
        let none_ := lins.map fun _ => 0
        (s.placeCopies l none_ none_).map fun x => (s.startGang li lins x.1 x.2).dispatched li lins

/-- The choice made again with a launch left out, as long as the chosen one cannot be placed. -/
def State.dispatchOne (s : State) : Nat → List Cand → State
  | 0, _ => s
  | fuel + 1, cs =>
    match s.chooseLaunch cs with
    | none => s
    | some c =>
      match s.place c.li with
      | some t => t
      | none => s.dispatchOne fuel (cs.filter fun x => x.li != c.li)

def execHeadgateDispatch (s : State) : Out :=
  let s := s.refresh
  let cs := s.cands
  ok (s.dispatchOne cs.length cs)

/-! ### Local queues (R84 to R86) -/

/-- A queued block may start on a core now. -/
def State.mayStart (s : State) (b c : Nat) : Bool :=
  let x := s.block b
  let l := s.launch x.launch
  s.mayDispatch l && !s.inScope x.launch x.lin && !(sget s.clusters (c / 8) noCluster).testing && s.fitsNow l c 0 &&
    (!l.det || decide (x.lin ≤ leastFree l.started l.started.length 0))

/-- The core starts the head of its local queue. -/
def State.startHead (s : State) (c : Nat) : State :=
  match (s.core c).queue with
  | [] => s
  | b :: r => if s.mayStart b c then (s.updCore c fun k => { k with queue := r }).startBlock b c else s

def execBlockStart (core : Nat) (s : State) : Out := ok (s.startHead core)

/-- The victim list of a thief (R85). -/
def victims (c : Nat) : List Nat :=
  let all := (List.range Config.cores).filter fun v => v != c
  (all.filter fun v => v / 8 == c / 8) ++ (all.filter fun v => v / 8 != c / 8 && v / Config.dieCores == c / Config.dieCores) ++
    all.filter fun v => v / Config.dieCores != c / Config.dieCores

/-- The thief may take the head block of a core. -/
def State.stealable (s : State) (c v : Nat) : Bool :=
  match (s.core v).queue with
  | [] => false
  | b :: _ =>
    let l := s.launch (s.block b).launch
    (s.core c).queue.isEmpty && (s.usable l.vi).contains c && s.fitsNow l c 0 && s.mayDispatch l

/-- The thieves of a cycle (R85). -/
def State.thieves (s : State) : List Nat := (List.range s.cores.length).filter fun c => (victims c).any fun v => s.stealable c v

/-- The victims that thieves are granted in one cycle, by thief: each victim grants the lowest thief that asks it, and a thief that
loses asks its next one, so a thief gets the first of its list that no lower thief gets (R86). -/
def State.grants (s : State) (thieves : List Nat) : List (Nat × Nat) :=
  thieves.foldl (fun done c =>
    match (victims c).find? fun v => s.stealable c v && !(done.any fun x => x.2 == v) with
    | some v => done ++ [(c, v)]
    | none => done) []

/-- One cycle of work stealing: every core that meets the condition asks, and the thieves take their blocks, which then start on them. The
cores that the event names change nothing, since R85 leaves none out. -/
def execWorkSteal (_thieves : List Nat) (s : State) : Out :=
  ok ((s.grants s.thieves).foldl (fun (s : State) x =>
    match (s.core x.2).queue with
    | [] => s
    | b :: r =>
      let s := (s.updCore x.2 fun k => { k with queue := r }).updCore x.1 fun k => { k with queue := [b] }
      (s.updBlock b fun y => { y with core := x.1 }).startHead x.1) s)

/-! ### The end of a warp (R456, R457) -/

/-- The launch of a party has an end stamp that late (R363). -/
def State.noteEnd (s : State) (p : Party) : State :=
  { s with launches := s.launches.map fun l =>
      if l.vi == p.vi % 64 && l.num == p.launch then { l with lastEnd := max l.lastEnd s.clock } else l }

/-- The last interval of a party closes and its record is an exited one (R346, R358). -/
def State.exitRec (s : State) (p : Party) : State :=
  (s.updRec p fun r => { (r.close s.clock s.clock) with status := .exited }).noteEnd p

/-- A record with no end stamp still to come: what commands are left are complete now. -/
def IntRec.settleAll (r : IntRec) (e : Nat) : IntRec :=
  { r with busy := [], past := r.past.map fun q => if q.busy.isEmpty then q else { q with e := max q.e e, busy := [] } }

/-- A party ends with its commands dropped: its last end stamp is now (R79, R443). -/
def State.dropRec (s : State) (p : Party) : State := (s.updRec p fun r => r.settleAll s.clock).exitRec p

/-- The exit record. -/
def State.exitRecord (s : State) (w : Nat) : List Nat :=
  let x := s.warp w
  let l := s.launchOf w
  let c := (s.blockOf w).core
  let f (b : Bool) (n : Nat) := if b then 2 ^ n else 0
  s.frameOf w 0x10 x.reentries ++
    [if l.sigOn then x.sig else 0, x.icount, x.commits % 2 ^ 32 * 2 ^ 32 + x.splits % 2 ^ 32, x.firstIssue.getD 0, s.devTime,
      f x.stop.isSome 9 + f l.sigOn 8 + c / Config.dieCores * 64 + c % Config.dieCores]

/-- What the end of a warp declares for its block in deterministic mode, once another warp has declared (R398). -/
def State.declareOnExit (s : State) (w : Nat) : State :=
  let b := (s.warp w).block
  if (s.blockWarps b).any fun v => (s.warp v).declared then s.declare w else s

def execWarpExitRecord (w : Nat) (s : State) : Out :=
  let x := s.warp w
  if s.warps.length ≤ w || x.ended || x.live != 0 || x.older.isSome || (s.blockOf w).state != .resident then ok s
  else if x.counter .c != 0 || x.counter .t != 0 then ok (s.stallAt w 2)
  else
    let s := s.writeBackAll w
    let s := s.emitWarp w (s.exitRecord w)
    let s := (s.exitRec x.party).updWarp w fun y => { y with ended := true }
    ok (s.declareOnExit w)

/-! ### Retirement (R458) -/

/-- The exit flush: in deterministic mode and in replay it waits for its turn; a failure ends the launch with its cause (R293). -/
def State.exitFlush (s : State) (b : Nat) : Option State :=
  let x := s.block b
  let l := s.launch x.launch
  let s := s.applyHeld b
  if (s.dirtyWindows b).isEmpty then some s
  else if (l.det && (decide (l.ord < x.lin) || s.releasesLeft x.launch)) || (s.staged.any fun e => e.block == b) || s.flushHeld b (s.flushVas b) then none
  else
    let (s, e) := s.flushWindows b 0
    match e with
    | none => some s
    | some e =>
      let s := if e.record.isEmpty then s else s.emit x.vi e.record
      some (s.failLaunch x.launch e.cause)

/-- The units and metadata queues of a block that leaves its core (R458, R435); a queue that it goes on holding is bound to none,
written 4. -/
def State.leaveCore (s : State) (b : Nat) : State :=
  let x := s.block b
  let s := s.updCore x.core fun c =>
    { c with freeUnits := c.freeUnits ++ x.units, freeMqs := (x.mqs.filter fun q => decide (q.2 < 4)).foldl (fun (a : List Nat) q => insertNat q.2 a) c.freeMqs }
  s.updBlock b fun y => { y with units := [], mqs := y.mqs.map fun q => (q.1, 4) }

/-- What a block holds is freed, and it is retired. -/
def State.freeBlock (s : State) (b : Nat) : State :=
  let s := s.updCore (s.block b).core fun c => { c with remote := c.remote.filter fun r => r.blk != b }
  ((s.freePages b).leaveCore b).updBlock b fun y =>
    { y with state := .retired, area := none, mqs := [], mqData := [], acc := [], poisoned := [], heldAcc := [] }

/-- The Weir records a retirement: RET and ORD may advance (R399, R401, R404). -/
def State.noteRetired (s : State) (li lin : Nat) : State :=
  let s := s.updLaunch li fun l => { l with retired := if l.retired.contains lin then l.retired else lin :: l.retired }
  if (s.launch li).det then (s.applyBelowRet li).releaseStaged li else s

def execBlockRetire (b : Nat) (s : State) : Out :=
  let x := s.block b
  let bs := b :: x.twin.toList
  if x.state != .resident || x.copy != 0 || !(bs.all fun c => (s.blockWarps c).all fun w => (s.warp w).ended) then ok s
  else
    match s.exitFlush b with
    | none => ok s
    | some s =>
      let s := s.exitRec (s.partyOf b 63)
      ok ((bs.foldl State.freeBlock s).noteRetired x.launch x.lin)

/-! ### Launch end (R459, R72) -/

/-- The launch that a record of the Flume names, 0 for none. -/
def FlumeRec.launchNum (r : FlumeRec) : Nat := r.words.headD 0 % 2 ^ 32

/-- The types of records that name a launch. -/
def FlumeRec.named (r : FlumeRec) : Bool := [1, 2, 3, 4, 0x10, 0x11, 0x12, 0x13, 0x20].contains (bits (r.words.headD 0) 63 56)

/-- Every block has retired or failed, and no record, staged access or request of the launch is left. -/
def State.launchDone (s : State) (li : Nat) : Bool :=
  let l := s.launch li
  l.state == .running && decide (l.nblocks ≤ l.retired.length) && !(s.staged.any fun e => e.launch == li) &&
    !(s.flume.any fun r => r.vi == l.vi && r.named && r.launchNum == l.num)

def execLaunchEnd (li : Nat) (s : State) : Out :=
  if !s.launchDone li then ok s
  else
    let s := if (s.launch li).defersAcc then s.applyPhase li else s
    let s := s.closeLog li
    let l := s.launch li
    let s := s.hostCbw l.vi l.cbw fun d => cbwEnd d (if l.failed = 0 then 1 else 4) l.failed true
    let s := s.updLaunch li fun l => { l with state := .ended }
    ok (if l.irq then s.updVi l.vi fun v => { v with msix := v.msix + 1 } else s)

end Sys2Proof.Machine
end

