-- ==== Sys2Proof/Machine/Module.lean ====
section
/-!
DEFINITION. The module around the work: the Levee (spec/05 R95, R96), power and cooling (R97, spec/34 R487), scrubbing and the
strong code (spec/29 R449, R450), the Flume (spec/31 R463, R464), breakpoints (R466), device time (R468), counters and samples
(spec/32 R469 to R475), what other modules send (spec/20 R357), power-on, attestation and updates (spec/34 R484 to R488).
-/

namespace Sys2Proof.Machine

/-! ### The Levee (R95, R96) -/

/-- The bytes of a refill. -/
def State.refillOf (s : State) (vi : Nat) : Nat := (s.vi vi).cfg.share * 64 * 1024 / 256

/-- The VIs whose partitions contain a core. -/
def State.visOn (s : State) (c : Nat) : List Nat :=
  (List.range s.vis.length).filter fun v => (s.vi v).configured && (s.vi v).cfg.partition.contains c

/-- A VI has a request waiting at the port of a core or in the core: one at the port, a warp held for tokens, or an engine
command under way. -/
def State.portWaits (s : State) (c vi : Nat) : Bool :=
  let k := s.core c
  (k.port.any fun q => q.vi == vi) ||
  (s.warps.any fun w => w.vi == vi && w.stall == 9 && !w.ended && (s.block w.block).core == c && (s.block w.block).state == .resident) ||
  (k.copyq.any fun x => x.handed && (s.block x.blk).vi == vi && (s.block x.blk).state == .resident) ||
  (k.matq.any fun x => x.handed && (s.block x.blk).vi == vi && (s.block x.blk).state == .resident)

/-- The extra bytes that the VIs without requests leave to one with requests. -/
def State.extraOf (s : State) (vs ps : List Nat) (v : Nat) : Nat :=
  let spare := (vs.filter fun u => !ps.contains u).foldl (fun (a : Nat) u => a + s.refillOf u) 0
  let shares := ps.foldl (fun (a : Nat) u => a + (s.vi u).cfg.share) 0
  if ps.contains v then spare * (s.vi v).cfg.share / max 1 shares else 0

/-- The buckets of a core after a refill. -/
def State.refillCore (s : State) (c : Nat) : State :=
  let vs := s.visOn c
  let ps := vs.filter fun v => s.portWaits c v
  vs.foldl (fun (t : State) v =>
    let r := s.refillOf v
    let full : Int := min (s.tokens c v + (r + s.extraOf vs ps v)) (2 * r)
    t.updCore c fun k => { k with tokens := sset k.tokens v full 0 }) s

/-- The refill of the next multiple of 1,024 that the ordering clock has reached. -/
def execLeveeRefill (s : State) : Out :=
  if s.clock / 1024 ≤ s.lastRefill then ok s
  else
    let cs := dedup (s.vis.flatMap fun v => if v.configured then v.cfg.partition else [])
    ok { cs.foldl State.refillCore s with lastRefill := s.lastRefill + 1 }

/-- In a cycle in which the port is free it grants the next VI after the last one served that holds a line's tokens; its oldest request
leaves. -/
def execPortSend (core : Nat) (s : State) : Out :=
  let k := s.core core
  if s.clock < k.portAt then ok s
  else
    let able := dedup ((k.port.filter fun q => decide (64 ≤ s.tokens core q.vi)).map fun q => q.vi)
    match leastBy k.portRank able with
    | none => ok s
    | some v =>
      match k.port.findIdx? fun q => q.vi == v with
      | none => ok s
      | some i =>
        match k.port[i]? with
        | none => ok s
        | some q => ok { (s.spend core v 1).updCore core fun k => { k with port := k.port.eraseIdx i } with net := s.net ++ [q] }

/-! ### Power and cooling (R97, R487) -/

/-- The matrix engine's credit under an allowance. -/
def creditOf (g : Nat) : Nat := 1200 * g / 256

/-- A grant to a core; the cores of a die past its temperature limit get 32. -/
def State.grant (s : State) (c g : Nat) : State :=
  let g := if s.hot.contains (c / Config.dieCores) then 32 else max 32 (min 256 g)
  s.updCore c fun k => { k with grant := g, credit := creditOf g, lastGrant := s.devTime }

/-- The grant of a microsecond to every core; a core that the arbiter names no allowance for has the least one. -/
def execPowerGrant (gs : List Nat) (s : State) : Out :=
  if s.devTime / 1000 ≤ s.lastGrantAt then ok s
  else
    ok { (List.range s.cores.length).foldl (fun (s : State) c => s.grant c (gs.getD c 32)) s with lastGrantAt := s.devTime / 1000 }

/-- No grant has come for 4 µs: the core uses G = 32, once each 1 µs, until one comes. -/
def execPowerGrantTimeout (core : Nat) (s : State) : Out :=
  if s.devTime < (s.core core).lastGrant + 4000 then ok s
  else ok (s.updCore core fun k => { k with grant := 32, credit := creditOf 32, lastGrant := s.devTime - 3000 })

def execThermalLimit (die : Nat) (limit : Bool) (s : State) : Out :=
  if Config.dies ≤ die then ok s
  else if !limit then ok { s with hot := s.hot.filter fun d => d != die }
  else
    let s := { s with hot := if s.hot.contains die then s.hot else die :: s.hot }
    ok { s with cores := (s.cores.zip (List.range s.cores.length)).map fun x =>
      if x.2 / Config.dieCores = die then { x.1 with grant := 32, credit := min x.1.credit (creditOf 32) } else x.1 }

/-! ### Scrubbing and the strong code (R449, R450) -/

def noBank : Bank := ⟨0, .normal⟩

def State.bank (s : State) (b : Nat) : Bank := sget s.banks b noBank
def State.setBank (s : State) (b : Nat) (x : Bank) : State := { s with banks := sset s.banks b x noBank }

/-- SCRUB.THRESH of the configuration record (R484). -/
def State.scrubThresh (s : State) : Nat := bits (s.cfg.getD 6 0) 31 0

/-- The scrubber reads a line: a corrected error counts for its bank in this pass over the memory, and a bank that reaches the
threshold is to be vacated; what cannot be corrected is poisoned. -/
def execScrubLine (pa : Nat) (chk : LineCheck) (s : State) : Out :=
  if Config.memBytes ≤ pa then ok s
  else
    let line := pa / 64
    let s := if line < s.scrubLine then { s with banks := s.banks.map fun x => (x.1, { x.2 with errors := 0 }) } else s
    let s := { s with scrubLine := line }
    match chk with
    | .clean => ok s
    | .uncorrectable => ok (s.poisonLine line)
    | .corrected =>
      let b := pa / bankBytes
      let x := s.bank b
      let n := x.errors + 1
      ok (s.setBank b ⟨n, if x.code == .normal && decide (s.scrubThresh ≤ n) then .vacating s.devTime else x.code⟩)

/-- The driver has moved every page away: the scrubber encodes the bank anew, and its spilled marks go to the overflow area. -/
def execVacateAck (bank : Nat) (s : State) : Out :=
  match (s.bank bank).code with
  | .vacating t =>
    if t + 1000000000 < s.devTime then ok s
    else
      let lines := (s.sides.map Prod.fst).filter fun l => 64 * l / bankBytes = bank
      ok (lines.foldl (fun (s : State) l => let t := s.restoreLine l; (t.spillLine l true).getD t)
        (s.setBank bank { s.bank bank with code := .strong }))
  | _ => ok s

/-- No acknowledgement within 1 s: the bank stays on the normal code. -/
def execVacateTimeout (bank : Nat) (s : State) : Out :=
  match (s.bank bank).code with
  | .vacating t => if s.devTime < t + 1000000000 then ok s else ok (s.setBank bank { s.bank bank with code := .normal })
  | _ => ok s

/-! ### The Flume (R460 to R465) -/

/-- The warp that a record names: launch, block, warp index. -/
def FlumeRec.warpKey (r : FlumeRec) : Option (Nat × Nat × Nat) :=
  let d (k : Nat) : Nat := r.words.getD k 0
  let ty := bits (d 0) 63 56
  if ty = 1 ∨ ty = 3 then some (d 0 % 2 ^ 32, d 1, bits (d 2) 63 58)
  else if [0x10, 0x11, 0x12, 0x13, 0x20].contains ty then some (d 0 % 2 ^ 32, d 1, bits (d 0) 55 50)
  else none

/-- The size of the record area. -/
def Vi.trbArea (v : Vi) : Nat := v.cfg.trbSize - 4096

/-- The header of a trace buffer as the device holds it. -/
def State.writeHeader (s : State) (vi : Nat) : State :=
  let v := s.vi vi
  [(0, v.trbHead), (2, v.lost), (3, v.trbArea), (4, (if s.ptpStepped then 2 else 0) + if s.ptpLocked then 1 else 0)].foldl
    (fun (s : State) x => s.storeDw vi (v.cfg.trbBase + 8 * x.1) x.2) s

/-- The header translates with write permission. -/
def State.headerOk (s : State) (vi : Nat) : Bool := decide (8192 ≤ (s.vi vi).cfg.trbSize) && (s.paOf vi (s.vi vi).cfg.trbBase .write).isSome

/-- The bytes that a record takes in the record area. -/
def recordBytes (ws : List Nat) : Nat := (8 * ws.length + 31) / 32 * 32

/-- A record written at the head of a VI's trace buffer, after a pad where it would cross the end; or dropped whole. -/
def State.writeRecord (s : State) (vi : Nat) (ws : List Nat) : State :=
  if !s.headerOk vi then s
  else
    let v := s.vi vi
    let area := v.trbArea
    let len := recordBytes ws
    let off := v.trbHead % area
    let pad := if area < off + len then area - off else 0
    let at_ := v.trbHead + pad
    let va (k : Nat) : Nat := v.cfg.trbBase + 4096 + (at_ + 8 * k) % area
    let used := v.trbHead - s.loadDw vi (v.cfg.trbBase + 8)
    let writable := ((List.range ws.length).all fun k => (s.paOf vi (va k) .write).isSome) &&
      (pad = 0 || (s.paOf vi (v.cfg.trbBase + 4096 + off) .write).isSome)
    if area < used + pad + len || !writable then (s.updVi vi fun v => { v with lost := v.lost + 1 }).writeHeader vi
    else
      let s := if pad = 0 then s else s.storeDw vi (v.cfg.trbBase + 4096 + off) 0
      let s := ((List.range ws.length).zip ws).foldl (fun (s : State) x => s.storeDw vi (va x.1) x.2) s
      (s.updVi vi fun v => { v with trbHead := at_ + len }).writeHeader vi

/-- A record of spec/32 (R473 to R475), which the rate of R476 bounds. -/
def FlumeRec.profiling (r : FlumeRec) : Bool := [0x20, 0x21, 0x22].contains (bits (r.words.getD 0 0) 63 56)

/-- A sample record (R475). -/
def FlumeRec.sample (r : FlumeRec) : Bool := bits (r.words.getD 0 0) 63 56 == 0x20

/-- The bytes of records of spec/32 that the Flume may still write in this microsecond: 40.96 GB/s (R476). -/
def State.rateLeft (s : State) : Nat := 40960 - if s.rateAt = s.devTime / 1000 then s.rateUsed else 0

/-- [n] of those bytes are written. -/
def State.spendRate (s : State) (n : Nat) : State :=
  { s with rateAt := s.devTime / 1000, rateUsed := (if s.rateAt = s.devTime / 1000 then s.rateUsed else 0) + n }

/-- The [k]-th record handed over is written, unless one of the same warp comes before it (R465); in excess of the rate a
sample is dropped and counted, and another record of spec/32 waits (R476). -/
def execFlumeRecordWrite (k : Nat) (s : State) : Out :=
  match s.flume[k]? with
  | none => ok s
  | some r =>
    if r.warpKey.isSome && (s.flume.take k).any fun q => q.vi == r.vi && q.warpKey == r.warpKey then ok s
    else
      let s' := { s with flume := s.flume.eraseIdx k }
      if !r.profiling || !s.headerOk r.vi then ok (s'.writeRecord r.vi r.words)
      else if s.rateLeft < recordBytes r.words then
        ok (if r.sample then (s'.updVi r.vi fun v => { v with lost := v.lost + 1 }).writeHeader r.vi else s)
      else
        let t := s'.writeRecord r.vi r.words
        ok (if (t.vi r.vi).trbHead = (s.vi r.vi).trbHead then t else t.spendRate (recordBytes r.words))

/-! ### Breakpoints (R466) -/

def execBreakpointSet (vi : Nat) (n : Fin 16) (bpc bpf bpb : DWord) (s : State) : Out :=
  let c := bpc.toNat
  let f := bpf.toNat
  let b := bpb.toNat
  if bits c 59 57 != 0 || bits c 2 0 != 0 || bits f 25 0 != 0 || bit b 63 then ok s
  else ok (s.updVi vi fun v => { v with bpc := sset v.bpc n.val c 0, bpf := sset v.bpf n.val f 0, bpb := sset v.bpb n.val b 0 })

/-! ### Device time (R468) -/

/-- Every configured VI's header tells the state of device time. -/
def State.tellTime (s : State) : State :=
  (List.range s.vis.length).foldl (fun (s : State) v => if (s.vi v).configured && s.headerOk v then s.writeHeader v else s) s

/-- The 1588 clock locks: device time is stepped once, forward, before any launch. -/
def execPtpLock (t : Nat) (s : State) : Out :=
  let s' := { s with ptpLocked := true }
  let t := t % 2 ^ 64
  if s.ptpStepped || !s.launches.isEmpty || decide (t < s.devTime) then ok s'.tellTime
  else
    let s' := { s' with ptpStepped := true, devTime := t, lastFloor := t / 1000, lastTick := t / 2 ^ s.tickExp, lastGrantAt := t / 1000,
                        cores := s.cores.map (fun (k : Core) => { k with lastGrant := t }) }
    ok s'.tellTime

def execIeee1588LockLoss (s : State) : Out := ok ({ s with ptpLocked := false } : State).tellTime

/-! ### Counters (R469 to R474) -/

def execCselWrite (vi n : Nat) (v : DWord) (s : State) : Out := ok (if n < 64 then s.writeCsel vi n v.toNat else s)

def execCctlWrite (vi : Nat) (v : DWord) (s : State) : Out := ok (s.writeCctl vi v.toNat)

def execClostWrite (vi : Nat) (v : DWord) (s : State) : Out := ok (s.writeClost vi v.toNat)

/-- The series record of a VI at a tick (R473). -/
def Vi.series (v : Vi) (time : Nat) : List Nat :=
  let g := v.ctr.group
  [0x21 * 2 ^ 56 + g * 2 ^ 52, time, v.ctr.sliceStart, 0] ++ (List.range 16).map fun i =>
    let n := 16 * g + i
    (if bit v.ctr.ovf n then 2 ^ 63 else 0) + (if bit v.ctr.clost n then 2 ^ 62 else 0) + sget v.ctr.counts n 0

/-- A VI at a tick: its series record, and the next group (R472). -/
def State.tickVi (s : State) (time vi : Nat) : State :=
  let v := s.vi vi
  if 4 ≤ v.ctr.group then s
  else
    (s.emit vi (v.series time)).updVi vi fun y =>
      { y with ctr := { y.ctr with group := nextGroup (bits y.ctr.cctl 3 0) y.ctr.group, sliceStart := time } }

/-- The next tick that device time has reached; ticks at which no VI has an active group are passed over. -/
def execCounterTick (s : State) : Out :=
  let k := s.tickExp
  if k < 10 || decide (s.devTime / 2 ^ k ≤ s.lastTick) then ok s
  else if s.vis.all fun v => 4 ≤ v.ctr.group then ok { s with lastTick := s.devTime / 2 ^ k }
  else
    let n := s.lastTick + 1
    ok { (List.range s.vis.length).foldl (fun (s : State) v => s.tickVi (n * 2 ^ k) v) s with lastTick := n }

/-! ### Samples (R475) -/

/-- A request of an engine command of a warp is held at the port for want of tokens (R96). -/
def State.engineHeld (s : State) (w : Nat) : Bool :=
  let c := (s.blockOf w).core
  decide (s.tokens c (s.warp w).vi < 64) &&
    (((s.core c).copyq.any fun q => q.warp == w && q.running) || (s.core c).matq.any fun q => q.warp == w && q.ended && q.cbw.isSome)

/-- The stall reason of a warp: the highest that holds. -/
def State.stallReason (s : State) (w : Nat) : Nat :=
  let x := s.warp w
  let f (b : Bool) (n : Nat) : Nat := if b then n else 0
  let idle := !(x.pct.any PctEntry.ready)
  max (max x.stall (max (f (s.vi x.vi).frozen 15) (f x.trap.isSome 14)))
    (max (f (match x.hold with | .sleep _ _ => true | _ => false) 13)
      (max (f (idle && x.pct.any fun e => e.state == .parked) 5)
        (max (f (idle && x.pct.any fun e => e.state == .waiting) 3) (max (f x.reentering 11) (f (s.engineHeld w) 9)))))

/-- The warp of a section, section w mod 4 of a core. -/
def State.inSection (s : State) (c sec w : Nat) : Bool :=
  let x := s.warp w
  !x.ended && (s.block x.block).state == .resident && (s.block x.block).core == c && x.windex % 4 == sec

/-- The least sampling exponent of the VIs that sample, none when no VI does. -/
def State.sampleExp (s : State) : Option Nat :=
  (s.vis.filter fun v => bit v.ctr.cctl 4).foldl (fun (acc : Option Nat) v =>
    let m := bits v.ctr.cctl 12 8
    some (match acc with | some x => min x m | none => m)) none

/-- One step of the 16-bit Fibonacci generator with taps 16, 14, 13 and 11. -/
def lfsrStep (l : Nat) : Nat :=
  let b := (if bit l 0 then 1 else 0) + (if bit l 2 then 1 else 0) + (if bit l 3 then 1 else 0) + (if bit l 5 then 1 else 0)
  l / 2 + b % 2 * 2 ^ 15

/-- The warp has issued a word in cycle [n] of its section. -/
def Warp.issuedIn (x : Warp) (n : Nat) : Bool := x.firstIssue.isSome && x.lastIssue == n

/-- The warp that a sample of a section takes: the one that has issued in this cycle, with true, else the oldest resident one. -/
def State.sampled (s : State) (core sec : Nat) : Option (Nat × Bool) :=
  let ws := (List.range s.warps.length).filter fun w => s.inSection core sec w
  match ws.find? fun w => (s.warp w).issuedIn ((s.core core).cycles.getD sec 0) with
  | some w => some (w, true)
  | none => ws.head?.map fun w => (w, false)

/-- The sample record of a warp: of the word that it has issued in this cycle, with reason 0, or of where it stands; which of the two
the PC is, R475 leaves open (notes/assumptions/55.md). -/
def State.sampleRecord (s : State) (w : Nat) (now : Bool) : List Nat :=
  let x := s.warp w
  let (pc, lanes) := if now then x.lastWord else
    match x.choose.or x.pct.head? with
    | some e => (e.pc, e.mask)
    | none => (0, 0)
  s.frameOf w 0x20 ((if now then 0 else s.stallReason w) * 2 ^ 12 + popc lanes) ++ [pc % 2 ^ 57, s.devTime]

/-- A section's sampling interval runs out: a warp is sampled, and the next interval drawn. -/
def execPcSample (core sec : Nat) (s : State) : Out :=
  let k := s.core core
  match s.sampleExp with
  | none => ok s
  | some m =>
    if 4 ≤ sec || decide (s.clock < k.nextSample.getD sec 0) then ok s
    else
      let l := k.lfsr.getD sec 0
      let s := match s.sampled core sec with
        | some (w, now) => if bit (s.vi (s.warp w).vi).ctr.cctl 4 then s.emit (s.warp w).vi (s.sampleRecord w now) else s
        | none => s
      ok (s.updCore core fun c =>
        { c with lfsr := c.lfsr.set sec (lfsrStep l)
                 nextSample := c.nextSample.set sec (s.clock + 2 ^ m - 2 ^ (m - 2) + l % 2 ^ (m - 1)) })

/-! ### Other modules (R357) -/

/-- A copy write or a system-scope atomic of another module, performed at home without marks; what an atomic finds goes back. -/
def execRemoteArrival (pa : Nat) (op : RemoteOp) (s : State) : Out :=
  match op with
  | .copyWrite bs => if Config.memBytes < pa + bs.length then ok s else ok { s with mem := s.mem.writeBytes pa bs }
  | .atomic op ty b c =>
    if Config.memBytes < pa + ty.bytes then ok s
    else
      let (old, s) := s.atomAt pa op ty b.toNat c.toNat
      ok { s with sent := s.sent ++ [[pa, old]] }

/-! ### Configuration, power-on, attestation and updates (R484 to R488) -/

/-- A configuration record is valid: signed, and every field in range. -/
def FlashSlot.valid (r : FlashSlot) : Bool :=
  let d (k : Nat) : Nat := r.words.getD k 0
  let ones (k : Nat) : Nat := ((List.range 44).filter fun i => bit (d k) i).length
  r.good && r.words.length == 16 && r.words.all (fun x => decide (x < 2 ^ 64)) && bits (d 0) 63 16 == 0x4346_4731_0001 &&
  [1, 2, 3, 4].all (fun k => bits (d k) 63 44 == 0 && ones k == 40) && bits (d 5) 63 30 == 0 &&
  decide (1000 ≤ bits (d 5) 23 8) && decide (bits (d 5) 23 8 ≤ 2800) && decide (bits (d 5) 7 0 ≤ 7) && bits (d 7) 31 5 == 0 &&
  decide (10 ≤ bits (d 7) 4 0) && decide (bits (d 7) 4 0 ≤ 24) && (List.range 8).all fun k => d (8 + k) == 0

/-- The valid record with the higher sequence number. -/
def chooseRecord (fs : List FlashSlot) : Option FlashSlot :=
  leastBy (fun (r : FlashSlot) => 2 ^ 16 - bits (r.words.headD 0) 15 0) (fs.filter FlashSlot.valid)

/-- Power-on or a module reset: the reset state with what flash holds, then the steps of R488; without a valid record the module
stays in recovery. -/
def execPowerOn (s : State) : Out :=
  let t := { State.reset with flash := s.flash, agenda := s.agenda, freeCtr := s.freeCtr, nextId := s.nextId }
  match chooseRecord s.flash with
  | none => ok { t with boot := .recovery }
  | some r => ok { t with boot := .ready, cfg := r.words, measured := r.words }

/-- The identity key signs the measurement chain; the signature leaves for the management controller (R485). -/
def execAttestationRequest (nonce : Nat) (s : State) : Out :=
  if s.boot == .off then ok s else ok { s with sent := s.sent ++ [[2 ^ 64, nonce, Config.attestation s.measured nonce]] }

/-- An update goes to the slot that is not in use, for the next reset (R486). -/
def execFirmwareUpdate (rec_ : List DWord) (signed : Bool) (s : State) : Out :=
  let words := rec_.map BitVec.toNat
  let used := s.flash.findIdx fun f => f.words == s.cfg
  let slot := if used = 0 then 1 else 0
  ok { s with flash := s.flash.set slot ⟨words, signed⟩ }

end Sys2Proof.Machine
end

