-- ==== Sys2Proof/Machine/SaveArea.lean ====
section
/-!
DEFINITION. The save area of a block (spec/28 R438 to R441): the chunks of a block that is saved, as dwords before encryption, and
their tags. Where the spec gives a value no place or layout, the dword is a free value (notes/assumptions/12.md).
-/

namespace Sys2Proof.Machine

/-- A chunk of 512 dwords, zero where none is given. -/
def chunkOf (ds : List Nat) : List Nat := ds.take 512 ++ List.replicate (512 - ds.length) 0

/-- Dwords cut into chunks. -/
def chunksOf (n : Nat) (ds : List Nat) : List (List Nat) := (List.range n).map fun k => chunkOf ((ds.drop (512 * k)).take 512)

/-- Dwords of little-endian 32-bit words. -/
def dwordsOf (ws : List Nat) : List Nat := (List.range ((ws.length + 1) / 2)).map fun k => ws.getD (2 * k) 0 + 2 ^ 32 * ws.getD (2 * k + 1) 0

/-- Words placed at a byte offset of a row of words. -/
def placeWords (ws : List Nat) (at_ : Nat) (xs : List Nat) : List Nat :=
  ws.take (at_ / 4) ++ List.replicate (at_ / 4 - ws.length) 0 ++ xs ++ ws.drop (at_ / 4 + xs.length)

def wordsOfDwords (ds : List Nat) : List Nat := ds.flatMap fun d => [d % 2 ^ 32, d / 2 ^ 32 % 2 ^ 32]

/-! ### The header chunk (R440) -/

/-- A barrier: EXP and ARR, a zero dword, and the mask by threads. -/
def NBar.saved (x : NBar) : List Nat :=
  [x.exp % 2 ^ 11 * 2 ^ 32 + x.arr % 2 ^ 11, 0] ++ (List.range 16).map fun k => x.mask / 2 ^ (64 * k) % 2 ^ 64

/-- The matrix and copy commands that a block holds, in queue order. -/
def State.matOf (s : State) (b : Nat) : List MatCmd := (s.core (s.block b).core).matq.filter fun q => q.blk == b
def State.copiesOf (s : State) (b : Nat) : List CopyCmd := (s.core (s.block b).core).copyq.filter fun q => q.blk == b

def State.headerChunk (s : State) (b chunks : Nat) : List Nat :=
  let x := s.block b
  let l := s.launch x.launch
  let mq := x.mqs.foldl (fun (a : Nat) q => a + 2 ^ q.1) 0
  [0x5356_4131 * 2 ^ 32 + 2 ^ 16 + chunks % 2 ^ 16, l.num % 2 ^ 32 * 2 ^ 32, x.lin % 2 ^ 63,
    l.nwarps % 64 * 2 ^ 32 + mq % 16 * 2 ^ 28 + (s.matOf b).length % 32 * 2 ^ 23 + (s.copiesOf b).length % 64 * 2 ^ 17 + l.accrows % 2 ^ 10,
    s.devTime, x.saves % 2 ^ 32 * 2 ^ 32, 0, 0] ++
    (List.range 16).flatMap (fun k => (x.bars.getD k NBar.idle).saved) ++ x.gbar.saved

/-! ### A warp's chunk (R439, R129) -/

def EState.code : EState → Nat
  | .ready => 0
  | .waiting => 1
  | .parked => 2

/-- An entry of the PC table. -/
def PctEntry.saved (e : PctEntry) : List Nat :=
  let rv := match e.on with | .rcv n => 2 ^ 29 + n % 8 * 2 ^ 26 | _ => 0
  [e.pc % 2 ^ 57, e.mask % 2 ^ 32 * 2 ^ 32 + e.state.code * 2 ^ 30 + rv + min e.age 4096 * 2 ^ 12]

/-- WS.CTL: its fields are named without their places in it. -/
def State.ctlWords (s : State) (w : Nat) : List Nat :=
  let x := s.warp w
  let fields := [x.fpstat, x.fptrap, x.dbgctl, if x.trap.isSome then 1 else 0, x.part, (s.intervalOf x.party).1, x.reentry,
    x.counter .l, x.counter .s, x.counter .c, x.counter .t, x.sig, x.icount, x.mflags, match x.stop with | some st => st.cause | none => 0]
  (List.range 8).flatMap fun k => wordsOfDwords [Config.savedDword fields k]

def State.warpChunk (s : State) (w : Nat) : List Nat :=
  let x := s.warp w
  let pend := (x.pend.flatMap fun p => p.regs).take 64
  let rows : List (Nat × List Nat) :=
    [(0, (List.range 256).map fun n => (x.s n).toNat), (1024, wordsOfDwords ((x.pct.take 32).flatMap PctEntry.saved)),
      (1536, (List.range 7).map fun n => sget x.preds n 0), (1568, s.ctlWords w), (1632, x.rcv.flatMap fun r => [r.exp, r.arr]),
      (1696, wordsOfDwords ((List.range 32).map fun l => sget x.draws l 0)), (1952, (List.range 32).map fun l => sget x.accs l 0),
      (2080, ((List.range 277).map fun k => sget x.hist k 0) ++ [if x.nonfin then 1 else 0]), (3192, pend ++ [0xFFFF_FFFF])]
  dwordsOf (rows.foldl (fun (ws : List Nat) r => placeWords ws r.1 r.2) [])

/-! ### The other chunks (R438) -/

/-- The vector registers of a warp, lane-major. -/
def State.vectorDwords (s : State) (w : Nat) : List Nat :=
  let x := s.warp w
  let n := (s.launchOf w).vregs
  dwordsOf ((List.range 32).flatMap fun l => (List.range n).map fun r => (x.v r l).toNat)

/-- The accumulator rows, a cell in 16 bytes (R48). -/
def State.accDwords (s : State) (b : Nat) : List Nat :=
  (List.range (96 * (s.launch (s.block b).launch).accrows)).flatMap fun k =>
    let c := ((s.block b).cell (k / 96) (k % 96)).toNat
    [c % 2 ^ 64, c / 2 ^ 64 % 2 ^ 16]

def State.mapDwords (s : State) (b : Nat) : List Nat :=
  dwordsOf ((List.range (s.launch (s.block b).launch).sppages).map fun p => (s.spEntry b p).word)

/-- The entries of a held metadata queue, oldest first. -/
def State.queueDwords (s : State) (b q : Nat) : List Nat :=
  (sget (s.block b).mqData q []).flatMap fun e => (List.range 32).map fun k => leNat ((e.drop (8 * k)).take 8)

/-- The entry of a waiting `macc` or `mqctl`: its word, what it read at issue, and its kind (R455). -/
def MatCmd.entry (c : MatCmd) (alo ahi row mask kind : Nat) : List Nat :=
  [c.word.toNat, ahi % 2 ^ 32 * 2 ^ 32 + alo % 2 ^ 32, row % 2 ^ 32, mask % 2 ^ 32, 0, 0, 0, kind * 2 ^ 56]

/-- A matrix command as it is saved: an `mmac` by its parameter block (R438, R455). -/
def MatCmd.saved (c : MatCmd) : List Nat :=
  match c.kind with
  | .mmac m => (m ++ List.replicate 8 0).take 8
  | .st data scale row _ _ _ => c.entry data scale row 0 1
  | .ld data scale row _ _ _ _ => c.entry data scale row 0 1
  | .zero row _ => c.entry 0 0 row 0 1
  | .rd _ row col mask _ _ => c.entry col 0 row mask 1
  | .mq _ _ _ => c.entry 0 0 0 0 2

def State.commandDwords (s : State) (b : Nat) : List Nat :=
  (s.matOf b).flatMap MatCmd.saved ++ (s.copiesOf b).flatMap fun c => (c.desc ++ List.replicate 8 0).take 8

/-- The save area of a block as it is saved. -/
def State.saveArea (s : State) (b : Nat) : SaveArea :=
  let x := s.block b
  let l := s.launch x.launch
  let ws := s.blockWarps b
  let per := (128 * l.vregs + 4095) / 4096
  let rest :=
    ws.map (fun w => chunkOf (s.warpChunk w)) ++ ws.flatMap (fun w => chunksOf per (s.vectorDwords w)) ++
    chunksOf (24 * (l.accrows / 64)) (s.accDwords b) ++ chunksOf ((l.sppages + 1023) / 1024) (s.mapDwords b) ++
    x.mqs.flatMap (fun q => chunksOf 4 (s.queueDwords b q.1)) ++ [chunkOf (s.commandDwords b)]
  let chunks := chunkOf (s.headerChunk b (rest.length + 1)) :: rest
  ⟨chunks, ((List.range chunks.length).zip chunks).map fun c => Config.saveTag [l.num, x.lin, x.saves, c.1] c.2⟩

end Sys2Proof.Machine
end

