-- ==== Sys2Proof/Machine/Preempt.lean ====
section
/-!
DEFINITION. Pre-emption and restore (spec/28 R435 to R443), and the in-field test that drains a cluster (spec/29 R452, R453).
A saved block keeps its state in `State.blocks` and `State.warps`, beside its save area (notes/assumptions/12.md).
-/

namespace Sys2Proof.Machine

/-! ### The request (R435) -/

/-- The blocks of a VI in a scope; a gang goes together (R24). -/
def State.scopeBlocks (s : State) (vi : Nat) (sc : PreemptScope) (st : BlockState) : List Nat :=
  (List.range s.blocks.length).filter fun b =>
    let x := s.block b
    x.state == st && x.vi == vi && (s.launch x.launch).inScope sc x.launch x.lin

/-- A block in a local queue goes back to the Headgate unstarted, its launch to the front of its queue when it had left it. -/
def State.returnBlock (s : State) (b : Nat) : State :=
  let x := s.block b
  let s := s.updCore x.core fun c => { c with queue := c.queue.filter fun k => k != b }
  let s := s.updLaunch x.launch fun l => { l with returned := if l.returned.contains x.lin then l.returned else x.lin :: l.returned }
  let q := (s.launch x.launch).queue
  s.updVi x.vi fun v =>
    let held := v.queues.any fun k => k.contains x.launch
    { v with queues := if held then v.queues else (List.range 64).map fun k => (if k = q then [x.launch] else []) ++ v.queues.getD k [] }

/-- What acknowledges: 4 for the Headgate; for block b, 8b its warps, 8b + 1 its matrix commands, 8b + 2 its copy commands, 8b + 3
its scratchpad (R437). -/
def ackCodes (bs : List Nat) : List Nat := 4 :: bs.flatMap fun b => [8 * b, 8 * b + 1, 8 * b + 2, 8 * b + 3]

/-- Pre-emption of a scope is requested: its queued blocks go back, its started blocks are to stop, and it dispatches nothing. -/
def State.requestPreempt (s : State) (vi : Nat) (sc : PreemptScope) (freeze : Bool) : State :=
  let busy := s.preempts.flatMap fun p => p.blocks
  let bs := (s.scopeBlocks vi sc .resident).filter fun b => !busy.contains b
  let queued := (s.scopeBlocks vi sc .queued).filter fun b => (s.core (s.block b).core).queue.contains b
  let s := queued.foldl State.returnBlock s
  let s := if freeze then s else
    { s with launches := ((List.range s.launches.length).zip s.launches).map fun x =>
      match sc with
      | .blocks _ _ => x.2
      | _ => if x.2.vi = vi && scopeCovers sc x.1 0 && x.2.state != .ended then { x.2 with stopped := true, eligible := none } else x.2 }
  { s with preempts := s.preempts ++ [⟨vi, sc, bs, ackCodes bs, freeze⟩] }

def execPreemptionRequest (vi : Nat) (scope : PreemptScope) (s : State) : Out := ok (s.requestPreempt vi scope false)

/-! ### The stopping points and the save (R435, R436) -/

/-- A warp stops at its region boundary: the executing region is discarded with an undelivered stop of its words, parked entries are ready
again, waits in words are given up; a staged access and a stop without a handler stand (R401, R423, R430, R436). -/
def State.saveWarp (s : State) (w : Nat) : State :=
  let x := s.warp w
  if x.ended || x.live == 0 then s
  else
    match x.hold with
    | .staged _ => s.writeBackAll w
    | .goisto => s.writeBackAll w
    | _ =>
      let s := if x.region.issued = 0 then s.drain w else
        (s.discardRegion w 4).updWarp w fun y => { y with stop := y.stop.filter Stop.stands }
      let s := s.writeBackAll w
      s.updWarp w fun y =>
        { (y.dropSync.unparkAll.merge) with
          hold := .none, needs := [], recover := none, fbuf := [], pins := [], bounding := false, stall := if y.stall = 0 then 0 else 11 }

/-- The matrix commands of a block: a running `mmac` becomes its continuation block (R321). -/
def State.saveMat (s : State) (b : Nat) : State :=
  s.updCore (s.block b).core fun c => { c with matq := c.matq.map fun q =>
    if q.blk == b && q.running then
      match q.kind with
      | .mmac m => { q with kind := .mmac (contBlock m q.next), running := false, next := 0, idx := [], stalled := none, old := [] }
      | _ => q
    else q }

/-- A descriptor from chunk [n] on: CPD.RES = 1 and CPD.NEXT = n. -/
def contDesc (d : List Nat) (n : Nat) : List Nat := (d.take 8).set 2 (n % 2 ^ 20 * 2 ^ 44 + 2 ^ 43 + d.getD 2 0 % 2 ^ 43)

/-- The copy commands of a block: a running one becomes its continuation descriptor. The continuation of a `meta` keeps the entries of its
queue that it has been promised (notes/assumptions/105.md). -/
def State.saveCopies (s : State) (b : Nat) : State :=
  s.updCore (s.block b).core fun c => { c with copyq := c.copyq.map fun q =>
    if q.blk == b && q.running then
      (if q.kind = 6 then { q with desc := contDesc q.desc q.next } else { q with desc := contDesc q.desc q.next, running := false, next := 0 })
    else q }

/-- The interval records of a block's warps that have not exited, and of its window party, in a state. -/
def State.setRecs (s : State) (b : Nat) (st : PartyState) : State :=
  let ps := (List.range 64).map fun i => s.partyOf b i
  { s with recs := s.recs.map fun r => if ps.contains r.party && r.status != .exited then { r with status := st } else r }

/-- A block whose every unit has acknowledged is saved: its place on the core is free (R437). -/
def State.saveBlock (s : State) (b : Nat) : State :=
  if (s.block b).state != .resident then s
  else
    let s := s.updBlock b fun x => { x with saves := x.saves + 1 }
    let area := s.saveArea b
    ((s.leaveCore b).setRecs b .saved).updBlock b fun x => { x with state := .saved, area := some area }

/-- The part of a unit of a block saved, none while the unit cannot stop yet: a commit in progress, a command about to end, and for the
scratchpad the units that use it. -/
def State.savePart (s : State) (p : Preempt) (unit : Nat) : Option State :=
  let b := unit / 8
  if unit = 4 ∨ (s.block b).state ≠ .resident then some s
  else
    match unit % 8 with
    | 0 => if (s.blockWarps b).any fun w => (s.warp w).older.isSome then none else some ((s.blockWarps b).foldl State.saveWarp s)
    | 1 => if (s.matOf b).any MatCmd.finishing then none else some (s.saveMat b)
    | 2 => if (s.copiesOf b).any CopyCmd.over_ then none else some (s.saveCopies b)
    | _ => if [0, 1, 2].any fun k => p.left.contains (8 * b + k) then none else some (s.evictBlock b)

/-- A unit's acknowledgement; with the last one the pre-emption is complete. -/
def execPreemptAck (k unit : Nat) (s : State) : Out :=
  match s.preempts[k]? with
  | none => ok s
  | some p =>
    if !p.left.contains unit then ok s
    else
      match s.savePart p unit with
      | none => ok s
      | some s =>
        let left := p.left.filter fun u => u != unit
        if left.isEmpty then ok (p.blocks.foldl State.saveBlock { s with preempts := s.preempts.eraseIdx k })
        else ok { s with preempts := s.preempts.set k { p with left := left } }

/-! ### Restore (R442) -/

/-- A queue with a block's commands behind those already handed over. -/
def requeue {α : Type} (xs mine : List α) (handed : α → Bool) : List α := xs.filter handed ++ mine ++ xs.filter fun x => !handed x

/-- The commands and remote marks of a block move to another core. -/
def State.moveCommands (s : State) (b c : Nat) : State :=
  let o := s.core (s.block b).core
  let cs := o.copyq.filter fun q => q.blk == b
  let ms := o.matq.filter fun q => q.blk == b
  let rs := o.remote.filter fun r => r.blk == b
  let s := s.updCore (s.block b).core fun k =>
    { k with copyq := k.copyq.filter (fun q => q.blk != b), matq := k.matq.filter (fun q => q.blk != b)
             remote := k.remote.filter fun r => r.blk != b }
  s.updCore c fun k =>
    { k with copyq := requeue k.copyq cs (fun q => q.handed), matq := requeue k.matq ms (fun q => q.handed), remote := rs ++ k.remote }

/-- The metadata queues that a block holds bound to free ones of a core (R340). -/
def State.bindMqs (s : State) (b c : Nat) : State :=
  (s.block b).mqs.foldl (fun (s : State) q =>
    match (s.core c).freeMqs with
    | [] => s
    | p :: r => (s.updCore c fun k => { k with freeMqs := r }).updBlock b fun x => { x with mqs := sins x.mqs q.1 p }) s

/-- A saved block on a core again. -/
def State.restoreBlock (s : State) (b c : Nat) : State :=
  let x := s.block b
  let l := s.launch x.launch
  let s := (s.moveCommands b c).updCore c fun k => k.dropFetched l.accepted
  let s := ((s.giveUnits b c (l.accrows / 64)).bindMqs b c).setRecs b .resident
  let s := s.updBlock b fun y => { y with state := .resident, core := c, area := none }
  let s := (s.blockWarps b).foldl (fun (s : State) w =>
    if (s.warp w).trap.isSome then
      match s.service b (trapPage (s.warp w).windex) with
      | .ok s => s
      | .error _ => s
    else s) s
  s.noteRan c x.launch x.lin

/-- The saved blocks of a gang, primaries or secondaries, by linear index. -/
def State.savedGang (s : State) (li g copy : Nat) : List Nat :=
  let n := max 1 (s.launch li).gang
  ((List.range n).filterMap fun k => (List.range s.blocks.length).find? fun b =>
    (s.block b).launch == li && (s.block b).lin == g * n + k && (s.block b).copy == copy && (s.block b).state == .saved)

/-! ### A failed restore (R443) -/

/-- The completion words that the commands of a block have incremented: virtual and physical address. -/
def State.cbwsOf (s : State) (b : Nat) : List (Nat × Nat) :=
  ((s.copiesOf b).filterMap fun q => q.cbw.map fun pa => (q.desc.getD 7 0, pa)) ++
    (s.matOf b).filterMap fun q => q.cbw.map fun pa => ((match q.kind with | .mmac m => m.getD 4 0 | _ => 0), pa)

/-- The commands of a block leave their queues. -/
def State.dropCommands (s : State) (b : Nat) : State :=
  s.updCore (s.block b).core fun k =>
    { k with copyq := k.copyq.filter (fun q => q.blk != b), matq := k.matq.filter fun q => q.blk != b }

/-- The commands of a block end with STATUS 5 and ERR 0x31 as releases of the host party. -/
def State.failCommands (s : State) (b : Nat) : State :=
  (s.cbwsOf b).foldl (fun (s : State) x =>
    ({ s with mem := s.mem.writeBytes x.2 (leBytes 8 (cbwEnd (s.dword x.2) 5 0x31 true)) }).hostMark (s.block b).vi x.1 3 .release true
      [x.2, x.2 + 4]) (s.dropCommands b)

/-- Nothing is left of a warp. -/
def Warp.gone (x : Warp) : Warp :=
  { x with
    ended := true, exited := x.present, pct := [], stop := none, deferred := none, later := [], hold := .none, trap := none, holds := []
    needs := [], pend := [], region := { Region.blank with seq := x.region.seq + 1 }, older := none, dirty := [], opsL := [], opsS := []
    opsC := [], opsT := [], sync := none, bounding := false, reentering := false, pins := [], forwarded := [] }

/-- The warp leaves the overflow buffer of its core (R152). -/
def State.leaveOverflow (s : State) (w : Nat) : State :=
  if (s.coreOf w).ovfWarp == some w then s.updCore (s.blockOf w).core fun c => { c with ovfWarp := none } else s

/-- The warps of a block are gone: their records are exited ones, and nothing of them is left. -/
def State.dropWarps (s : State) (b : Nat) : State :=
  let s := (List.range 64).foldl (fun (s : State) i =>
    match s.rec? (s.partyOf b i) with
    | some r => if r.status == .exited then s else s.dropRec (s.partyOf b i)
    | none => s) s
  (s.blockWarps b).foldl (fun (s : State) w => ((s.dropStaged w).leaveOverflow w).updWarp w Warp.gone) s

/-- The restore-integrity record of a block. -/
def State.integrityRecord (s : State) (b why chunk : Nat) : List Nat :=
  [4 * 2 ^ 56 + why % 256 * 2 ^ 48 + (s.launch (s.block b).launch).num % 2 ^ 32, (s.block b).lin, chunk % 2 ^ 16, s.devTime, 0, 0, 0, 0]

/-- A block whose restore has failed. -/
def State.failBlock (s : State) (b why chunk : Nat) : State :=
  let x := s.block b
  let s := (s.dropWarps b).failCommands b
  let s := if x.copy = 0 then s.emit x.vi (s.integrityRecord b why chunk) else s
  let s := (s.freeBlock b).updBlock b fun y => { y with failed := 0x31 }
  if x.copy = 0 then (s.failLaunch x.launch 0x31).noteRetired x.launch x.lin else s

/-- A restore of a gang; [bad]: the block, by linear index, whose chunk fails, that chunk, and why. Before the end of a pre-emption of the
gang it does nothing, and stands to be made (R437). -/
def execRestore (vi launch gang : Nat) (bad : Option (Nat × Nat × Nat)) (s : State) : Out :=
  let l := s.launch launch
  if s.launches.length ≤ launch || l.vi != vi || (s.vi vi).frozen || (s.vi vi).resetting || s.inScope launch (gang * max 1 l.gang) then ok s
  else
    let s := s.updLaunch launch fun l => { l with stopped := false }
    let ps := s.savedGang launch gang 0
    let qs := s.savedGang launch gang 1
    let need (b : Nat) : Nat := (s.block b).mqs.length
    if ps.isEmpty then ok s
    else
      match bad with
      | some (lin, chunk, why) =>
        ok ((ps ++ qs).foldl (fun (s : State) b => s.failBlock b why (if (s.block b).lin = lin then chunk else 0xFFFF)) s)
      | none =>
        match s.placeCopies l (ps.map need) (qs.map need) with
        | none => ok s
        | some (cs, ds) =>
          let put (s : State) (bs cs : List Nat) : State := (bs.zip cs).foldl (fun (s : State) x =>
            (s.restoreBlock x.1 x.2).updBlock x.1 fun y => { y with span := l.spanOf cs }) s
          ok (put (put s ps cs) qs ds)

/-! ### The in-field test (R452, R453) -/

def State.cluster (s : State) (k : Nat) : Cluster := sget s.clusters k noCluster
def State.setCluster (s : State) (k : Nat) (x : Cluster) : State := { s with clusters := sins s.clusters k x }

/-- The blocks on a cluster, resident or in its local queues. -/
def State.onCluster (s : State) (k : Nat) : List Nat :=
  (List.range s.blocks.length).filter fun b =>
    (s.block b).core / 8 == k &&
      ((s.block b).state == .resident || ((s.block b).state == .queued && (s.core (s.block b).core).queue.contains b))

/-- A cluster is drained for its test: one at a time, suspect clusters first. -/
def execFieldTestStart (cluster : Nat) (s : State) : Out :=
  let x := s.cluster cluster
  let waits := (List.range (Config.cores / 8)).any fun k => (s.cluster k).suspect && !(s.cluster k).removed
  if Config.cores / 8 ≤ cluster || x.removed || (s.clusters.any fun c => c.2.testing) || (waits && !x.suspect) then ok s
  else
    let s := s.setCluster cluster { x with testing := true }
    let bs := s.onCluster cluster
    ok ((dedup (bs.map fun b => (s.block b).launch)).foldl (fun (s : State) li =>
      s.requestPreempt (s.launch li).vi (.blocks li ((bs.filter fun b => (s.block b).launch == li).map fun b => (s.block b).lin)) false) s)

/-- The suspect record of a VI, none without entries. -/
def State.suspectRecord (s : State) (k vi : Nat) : Option (List Nat) :=
  let x := s.cluster k
  let es := x.ran.filter fun e => (s.launch e.1).vi == vi
  if es.isEmpty then none
  else some ([5 * 2 ^ 56 + k / 5 * 2 ^ 48 + k % 5 * 2 ^ 45 + es.length % 2 ^ 32, x.lastPass, s.devTime, 0, 0, 0, 0, 0] ++
    es.flatMap fun e => [(s.launch e.1).num % 2 ^ 32 * 2 ^ 32 + (if (s.launch e.1).state == .ended then 0 else 1), e.2])

/-- The test of a drained cluster passes, or the cluster is removed from every partition. -/
def execFieldTestResult (cluster : Nat) (pass : Bool) (s : State) : Out :=
  let x := s.cluster cluster
  if !x.testing || !(s.onCluster cluster).isEmpty then ok s
  else if pass then ok (s.setCluster cluster { x with testing := false, suspect := false, lastPass := s.devTime, ran := [] })
  else
    let s := (List.range s.vis.length).foldl (fun (s : State) v =>
      match s.suspectRecord cluster v with
      | some ws => s.emit v ws
      | none => s) s
    let s := s.setCluster cluster { x with testing := false, suspect := false, removed := true, ran := [] }
    ok { s with cores := (s.cores.zip (List.range s.cores.length)).map fun c => if c.2 / 8 = cluster then { c.1 with enabled := false } else c.1 }

end Sys2Proof.Machine
end

