-- ==== Sys2Proof/Machine/Host.lean ====
section
/-!
DEFINITION. The virtual interfaces as the host and Bilral see them: the mailbox and its commands (spec/04 R65 to R68, R71, R74),
freezing, thaw and reset (R77 to R79, spec/34 R481), and the configuration of an interface (R62 to R64, spec/05 R93, spec/28 R438,
spec/31 R463).
-/

namespace Sys2Proof.Machine

/-! ### Freezing (R77, R78) -/

/-- A violation freezes a VI: the first one is recorded, nothing more is dispatched, and the blocks are saved as for
pre-emption. -/
def State.freeze (s : State) (vi cause : Nat) : State :=
  if (s.vi vi).frozen then s
  else (s.updVi vi fun v => { v with frozen := true, cause := cause }).requestPreempt vi .vi true

/-- The interfaces exist once the module has booted. -/
def State.viUp (s : State) (vi : Nat) : Bool := s.boot == .ready && decide (vi < s.vis.length)

def execFreezeRequest (vi : Nat) (s : State) : Out := ok (if s.viUp vi then s.freeze vi 0x80 else s)

/-- A thaw clears MBXSTAT and empties the FIFO; the saved blocks can be restored. -/
def execThaw (vi : Nat) (s : State) : Out :=
  ok (if (s.vi vi).frozen then s.updVi vi fun v => { v with frozen := false, cause := 0, fifo := [] } else s)

/-! ### The mailbox window (R65, R66) -/

def fifoBytes : Nat := 16384

/-- A write to the window: appended in the aperture, a violation elsewhere. Of several rules that one write breaks, cause 4 is taken before
2 and 2 before 3, a DESIGN CHOICE (notes/assumptions/95.md). -/
def execMbxApertureWrite (vi off : Nat) (bytes : List Byte) (s : State) : Out :=
  let v := s.vi vi
  if !s.viUp vi then ok s
  else if 0x8000 < off + max 1 bytes.length then ok (s.freeze vi 4)
  else if v.frozen || v.resetting then ok s
  else if off % 8 ≠ 0 ∨ bytes.length % 8 ≠ 0 then ok (s.freeze vi 2)
  else if fifoBytes < v.fifo.length + bytes.length then ok (s.freeze vi 3)
  else ok (s.updVi vi fun v => { v with fifo := v.fifo ++ bytes })

/-- A write to BAR0 outside the aperture (R481). -/
def execBar0RegisterWrite (vi off : Nat) (s : State) : Out := ok (if s.viUp vi && decide (0x8000 ≤ off) then s.freeze vi 4 else s)

/-- The 8 bytes of the window at a multiple of 8. What a read of the FIFO aperture returns, and what the read buffer holds beyond the last
READ's data, the spec does not say: they read 0, a DESIGN CHOICE (notes/assumptions/95.md). -/
def State.mailboxDword (s : State) (vi off : Nat) : Nat :=
  let v := s.vi vi
  if off = 0x8000 then fifoBytes - v.fifo.length
  else if off = 0x8008 then v.applied
  else if off = 0x8010 then v.cause * 256 + if v.frozen then 1 else 0
  else if off = 0x8018 then v.lastNum
  else if off = 0x8020 then v.rdDone
  else if 0x9000 ≤ off ∧ off < 0xA000 then leNat ((List.range 8).map fun k => v.rdBuf.getD (off - 0x9000 + k) 0)
  else 0

/-- What a naturally aligned host read of [n] bytes of the window, 4 or 8, returns (R65). -/
def State.mailboxRead (s : State) (vi off n : Nat) : Nat := s.mailboxDword vi (off / 8 * 8) / 2 ^ (8 * (off % 8)) % 2 ^ (8 * n)

/-! ### Commands (R66, R67) -/

/-- What stands at the head of a command FIFO: no whole command, a violation, or a command with its queue and payload. -/
inductive MbxHead where
  | none
  | bad (cause : Nat)
  | command (op queue : Nat) (payload : List Byte)
  deriving DecidableEq, Repr

/-- CMD.LEN fits the command. -/
def cmdLenOk (op len : Nat) : Bool :=
  match op with
  | 1 => len == 256
  | 2 => decide (16 ≤ len) && decide (len ≤ 4104) && len % 8 == 0
  | 3 => len == 16
  | _ => len == 0

def Vi.head (v : Vi) : MbxHead :=
  if v.fifo.length < 8 then .none
  else
    let h := leNat (v.fifo.take 8)
    let op := bits h 7 0
    let len := bits h 28 16
    if op = 0 ∨ 4 < op ∨ bits h 15 14 ≠ 0 ∨ bits h 63 29 ≠ 0 then .bad 1
    else if !cmdLenOk op len then .bad 2
    else if v.fifo.length < 8 + len then .none
    else .command op (bits h 13 8) ((v.fifo.drop 8).take len)

/-- A command has been applied: it leaves the FIFO. -/
def State.applied (s : State) (vi : Nat) (payload : List Byte) : State :=
  s.updVi vi fun v => { v with fifo := v.fifo.drop (8 + payload.length), applied := (v.applied + 1) % 2 ^ 64 }

/-- The mailbox engine applies the command at the head when it is of the kind named. -/
def State.applyHead (s : State) (vi op : Nat) (f : Nat → List Byte → Out) : Out :=
  let v := s.vi vi
  if !s.viUp vi || !v.configured || v.frozen || v.resetting then ok s
  else
    match v.head with
    | .none => ok s
    | .bad c => ok (s.freeze vi c)
    | .command o q p => if o = op then f q p else ok s

/-- Dword [k] of a payload. -/
def payloadDw (p : List Byte) (k : Nat) : Nat := leNat ((p.drop (8 * k)).take 8)

def execLaunch (vi : Nat) (s : State) : Out :=
  s.applyHead vi 1 fun q p =>
    let rcd := (List.range 32).map fun k => payloadDw p k
    if decide (1024 ≤ s.waitingLaunches vi) || s.moduleFailed then ok s
    else if (s.cbwUnusable vi (rcd.getD 9 0)).isSome then ok (s.freeze vi 6)
    else
      let (n, s) := s.accept vi q rcd
      ok ((s.applied vi p).updVi vi fun v => { v with lastNum := n })

/-- The data of a WRITE or READ of [n] bytes is laid as R66 says. -/
def hostSpan (a n : Nat) : Bool := a % 8 == 0 && n % 8 == 0 && decide (8 ≤ n) && decide (a % 4096 + n ≤ 4096)

/-- The launches of a VI that are accepted and have not ended. -/
def State.openLaunches (s : State) (vi : Nat) : List Nat :=
  (List.range s.launches.length).filter fun li => (s.launch li).vi == vi && (s.launch li).state != .ended

/-- Addresses of the lines of a span. -/
def spanLines (a n : Nat) : List Nat := (List.range ((a % 64 + n + 63) / 64)).map fun k => a / 64 * 64 + 64 * k

/-- A replay launch keeps the host party's request for its turn (R412). -/
def State.hostHeld (s : State) (vi a n : Nat) : Option (Nat × Nat) :=
  ((s.openLaunches vi).flatMap fun li => (spanLines a n).map fun va => (li, va)).find? fun x => s.gate x.1 x.2 hostBlock 0 == .hold

/-- A WRITE of bytes at [va], whose physical address is [pa]: a release of the host party, checked on all its words before any
byte is written (R356). -/
def State.hostWrite (s : State) (vi va pa : Nat) (bs : List Byte) : Except (Nat × Conflict × State) State :=
  let s := s.openHost vi
  let a := s.hostAccess vi .release true
  let words := wordsOf pa bs.length
  match s.homeConflict vi a none words with
  | some (p, c) => .error (va + (p - pa), c, s)
  | none =>
    let lines := spanLines va bs.length
    let s := lines.foldl (fun (s : State) l => s.reach 0 vi l (pa + l - va)) s
    let s := { s.recordWords vi a words with mem := s.mem.writeBytes pa bs }
    let s := s.advanceParty (hostParty vi) 16
    .ok ((s.openLaunches vi).foldl (fun (s : State) li => lines.foldl (fun (s : State) l => s.logLine li l (pa + l - va) hostBlock 0) s) s)

def execWrite (vi : Nat) (s : State) : Out :=
  s.applyHead vi 2 fun _ p =>
    let va := payloadDw p 0
    let data := p.drop 8
    if !hostSpan va data.length then ok (s.freeze vi 2)
    else
      match s.ctrOffset vi va with
      | some off =>
        let s := (List.range (data.length / 8)).foldl (fun (s : State) k => s.writeCtr vi (off + 8 * k) (payloadDw p (k + 1))) s
        ok (s.applied vi p)
      | none =>
        match s.hostHeld vi va data.length with
        | some (li, l) => ok (s.noteHeld li l)
        | none =>
          match if canonical va then s.writeAt vi va else (none, s) with
          | (none, _) => ok (s.freeze vi 5)
          | (some pa, s) =>
            if s.homeWaits vi (hostParty vi) (wordsOf pa data.length) then ok s
            else
              match s.hostWrite vi va pa data with
              | .ok s => ok (s.applied vi p)
              | .error (at_, c, s) =>
                let s := (s.count vi unitHome 4 1).pairStop (hostParty vi) (s.intervalOf (hostParty vi)).1 3 false 0 at_ c
                ok ((s.emit vi (s.raceRecord (hostParty vi) 3 false false false 0 0 at_ c)).freeze vi 7)

/-- A READ: its data stands in the read buffer, which holds nothing else (notes/assumptions/95.md). -/
def execRead (vi : Nat) (s : State) : Out :=
  s.applyHead vi 3 fun _ p =>
    let va := payloadDw p 0
    let n := payloadDw p 1
    let finish (bs : List Byte) : Out :=
      ok ((s.applied vi p).updVi vi fun v => { v with rdBuf := bs, rdDone := (v.rdDone + 1) % 2 ^ 64 })
    if !hostSpan va n then ok (s.freeze vi 2)
    else
      match s.ctrOffset vi va with
      | some off => finish ((List.range (n / 8)).flatMap fun k => leBytes 8 (s.readCtr vi (off + 8 * k)))
      | none =>
        match if canonical va then s.paOf vi va .read else none with
        | none => ok (s.freeze vi 5)
        | some pa => finish (s.mem.readBytes pa n)

/-- Every launch of a queue with no dispatched block is cancelled, the first one first. -/
def execQflush (vi : Nat) (s : State) : Out :=
  s.applyHead vi 4 fun q p =>
    let ls := ((s.vi vi).queues.getD q []).filter fun li => (s.launch li).next = 0
    ok ((ls.foldl (fun (s : State) li => s.cancelLaunch li 0) s).applied vi p)

/-! ### Reset of a VI (R79) -/

/-- Every party of a VI but the host's closes its last interval. -/
def State.closeParties (s : State) (vi : Nat) : State :=
  let ps := (s.recs.filter fun r => r.party.vi % 64 == vi && r.party.launch != 0 && r.status != .exited).map fun r => r.party
  ps.foldl State.dropRec s

/-- The requests, accesses and updates of a VI under way are dropped, unperformed. -/
def State.dropTraffic (s : State) (vi : Nat) : State :=
  let mine (li : Nat) : Bool := (s.launch li).vi == vi
  { s with
    net := s.net.filter fun q => q.vi != vi
    staged := s.staged.filter fun e => !mine e.launch
    holding := s.holding.filter fun u => !mine u.launch
    waiting := s.waiting.filter fun u => !mine u.launch
    preempts := s.preempts.filter fun p => p.vi != vi
    l2 := s.l2.map fun e => match e.handle with | some h => if h.1 = vi then { e with handle := none } else e | none => e
    cores := s.cores.map fun c =>
      { c with
        port := c.port.filter fun q => q.vi != vi
        queue := c.queue.filter fun b => (s.block b).vi != vi
        copyq := c.copyq.filter fun q => (s.block q.blk).vi != vi
        matq := c.matq.filter fun q => (s.block q.blk).vi != vi } }

/-- A launch discarded: its completion word is not written, and its number names it no more. -/
def Launch.discard (l : Launch) : Launch :=
  { l with
    num := 0, state := .ended, eligible := none, returned := [], defAddrs := [], defUsed := 0, defUpds := [], typed := []
    log := { l.log with state := .off, ops := [], expect := [] } }

/-- The interface as a reset leaves it: the registers of R65, the launch number, queues, handles, breakpoints and counters at their
reset values; its configuration and trace buffer stand. -/
def Vi.afterReset (v : Vi) : Vi :=
  { Vi.reset with
    configured := v.configured, cfg := v.cfg, vtime := v.vtime, lastq := v.lastq, trbHead := v.trbHead, lost := v.lost
    msix := v.msix, resetting := true }

/-- What a VI runs ends, written back and dropped. -/
def State.endWork (s : State) (vi : Nat) : State :=
  let bs := (List.range s.blocks.length).filter fun b => (s.block b).vi == vi && (s.block b).state != .retired
  let s := bs.foldl (fun (s : State) b => (s.blockWarps b).foldl (fun (s : State) w => s.writeBackAll w) s) s
  let s := (s.closeParties vi).dropTraffic vi
  let s := bs.foldl (fun (s : State) b => (s.dropWarps b).freeBlock b) s
  { s with launches := s.launches.map fun (l : Launch) => if l.vi = vi then l.discard else l }

def State.resetVi (s : State) (vi : Nat) : State := (s.endWork vi).updVi vi Vi.afterReset

def execViReset (vi : Nat) (s : State) : Out := ok (if s.viUp vi then s.resetVi vi else s)

/-- A function level reset; that of the physical function resets every VI (R481). -/
def execFunctionLevelReset (vi : Nat) (s : State) : Out :=
  if !s.viUp vi then ok s
  else if vi = 0 then
    let s := (List.range s.vis.length).foldl State.endWork s
    ok ((List.range s.vis.length).foldl (fun (s : State) v => s.updVi v Vi.afterReset) s)
  else ok (s.resetVi vi)

/-- Every unit has acknowledged: the marks and records of what the VI ran are dead, and the mailbox accepts commands again. -/
def execViResetComplete (vi : Nat) (s : State) : Out :=
  if !(s.vi vi).resetting then ok s
  else
    let mine (p : Party) : Bool := p.vi % 64 == vi && p.launch != 0
    let s := { s.freeAliases (fun a => mine a.party) with
      clock := s.clock + 16
      recs := s.recs.filter fun r => !mine r.party
      marks := s.marks.filter fun m => m.vi != vi
      endCache := s.endCache.filter fun e => !mine e.1 }
    ok (s.updVi vi fun v => { v with resetting := false })

/-! ### Configuration (R62 to R64, R93, R438, R463) -/

/-- The share in use on a core with a new configuration of a VI. -/
def State.shareOn (s : State) (vi : Nat) (cfg : ViConfig) (c : Nat) : Nat :=
  (List.range s.vis.length).foldl (fun (a : Nat) v =>
    let k := if v = vi then some cfg else if (s.vi v).configured then some (s.vi v).cfg else none
    match k with
    | some k => if k.partition.contains c then a + k.share else a
    | none => a) 0

/-- The key ranges of other VIs are apart from the new one. -/
def State.keysApart (s : State) (vi : Nat) (cfg : ViConfig) : Bool :=
  (List.range s.vis.length).all fun v =>
    let k := (s.vi v).cfg
    v == vi || !(s.vi v).configured || k.keyCount == 0 || cfg.keyCount == 0 ||
      decide (k.keyBase + k.keyCount ≤ cfg.keyBase) || decide (cfg.keyBase + cfg.keyCount ≤ k.keyBase)

/-- Chunks of a save area that one block can need at most, for a core filled by it (R438). -/
def coreSaveChunks : Nat := 32 + 4 * Config.sectionSlots + 256 + 8 * 24 + 32 * 4 + 4 * 4 + 32

/-- Bilral accepts a configuration. -/
def State.configOk (s : State) (vi : Nat) (cfg : ViConfig) : Bool :=
  let n := cfg.partition.length
  decide (1 ≤ n) && (cfg.partition.all fun c => decide (c < Config.cores)) && (dedup cfg.partition).length == n &&
  decide (1 ≤ cfg.share) && decide (cfg.share ≤ 256) && (cfg.partition.all fun c => decide (s.shareOn vi cfg c ≤ 256)) &&
  s.keysApart vi cfg && decide (cfg.keyBase + cfg.keyCount ≤ 4096) && decide (384 * n ≤ cfg.spbkSlots) &&
  decide (n * coreSaveChunks * 4128 ≤ cfg.saveSize) && cfg.trbBase % 4096 == 0 && cfg.trbSize % 4096 == 0 && decide (8192 ≤ cfg.trbSize)

/-- The configuration of a VI is set, or refused; its shares of a core's Levee begin empty. -/
def execViConfigure (vi : Nat) (cfg : ViConfig) (s : State) : Out :=
  if !s.viUp vi || !s.configOk vi cfg then ok s
  else
    let old := (s.vi vi).cfg
    let same := (s.vi vi).configured && old.trbBase == cfg.trbBase && old.trbSize == cfg.trbSize
    let s := s.updVi vi fun v =>
      { v with configured := true, cfg := cfg, trbHead := if same then v.trbHead else 0, lost := if same then v.lost else 0 }
    let s := { s with cores := s.cores.map fun (c : Core) => { c with tokens := sset c.tokens vi 0 0 } }
    ok (if s.headerOk vi then s.writeHeader vi else s)

end Sys2Proof.Machine
end

