-- ==== Sys2Proof/Machine/Dispatch.lean ====
section
/-!
DEFINITION. The dispatch of instructions and events to their meanings: one arm for every constructor of `Instr`.
-/

namespace Sys2Proof.Machine

/-- What each operation of spec/opcode_table.json does. -/
def exec (i : Instr) (s : State) : Host.Outcome State Fault Refusal :=
  match i with
  | .nop g => Sys2Proof.Machine.execNop g s
  | .bra g off => Sys2Proof.Machine.execBra g off s
  | .brx g a => Sys2Proof.Machine.execBrx g a s
  | .call g d off => Sys2Proof.Machine.execCall g d off s
  | .ret g a => Sys2Proof.Machine.execRet g a s
  | .exit g => Sys2Proof.Machine.execExit g s
  | .rcvSet g b => Sys2Proof.Machine.execRcvSet g b s
  | .rcvWait g b => Sys2Proof.Machine.execRcvWait g b s
  | .regionBegin g => Sys2Proof.Machine.execRegionBegin g s
  | .regionQuery g d => Sys2Proof.Machine.execRegionQuery g d s
  | .wait g l r0 c t => Sys2Proof.Machine.execWait g l r0 c t s
  | .trap g n => Sys2Proof.Machine.execTrap g n s
  | .brk g n => Sys2Proof.Machine.execBrk g n s
  | .trapret g => Sys2Proof.Machine.execTrapret g s
  | .rinj g d e => Sys2Proof.Machine.execRinj g d e s
  | .sleep g a => Sys2Proof.Machine.execSleep g a s
  | .electBr g off => Sys2Proof.Machine.execElectBr g off s
  | .sysRd g d n => Sys2Proof.Machine.execSysRd g d n s
  | .sysWr g n a => Sys2Proof.Machine.execSysWr g n a s
  | .clkDev g d => Sys2Proof.Machine.execClkDev g d s
  | .clkOrd g d => Sys2Proof.Machine.execClkOrd g d s
  | .rng g d k => Sys2Proof.Machine.execRng g d k s
  | .rngX4 g d k => Sys2Proof.Machine.execRngX4 g d k s
  | .rngF32 g d k => Sys2Proof.Machine.execRngF32 g d k s
  | .perfRd g d n => Sys2Proof.Machine.execPerfRd g d n s
  | .perfClr g n => Sys2Proof.Machine.execPerfClr g n s
  | .tmark g n a => Sys2Proof.Machine.execTmark g n a s
  | .finfo g d n => Sys2Proof.Machine.execFinfo g d n s
  | .lnch g d a q => Sys2Proof.Machine.execLnch g d a q s
  | .add g d a b ty sat => Sys2Proof.Machine.execAdd g d a b ty sat s
  | .sub g d a b ty sat => Sys2Proof.Machine.execSub g d a b ty sat s
  | .mulLo g d a b ty sat => Sys2Proof.Machine.execMulLo g d a b ty sat s
  | .mulHi g d a b ty => Sys2Proof.Machine.execMulHi g d a b ty s
  | .mulWide g d a b ty => Sys2Proof.Machine.execMulWide g d a b ty s
  | .madLo g d a b c ty sat => Sys2Proof.Machine.execMadLo g d a b c ty sat s
  | .madHi g d a b c ty => Sys2Proof.Machine.execMadHi g d a b c ty s
  | .madWide g d a b c ty => Sys2Proof.Machine.execMadWide g d a b c ty s
  | .min g d a b ty => Sys2Proof.Machine.execMin g d a b ty s
  | .max g d a b ty => Sys2Proof.Machine.execMax g d a b ty s
  | .abs g d a ty sat => Sys2Proof.Machine.execAbs g d a ty sat s
  | .neg g d a ty sat => Sys2Proof.Machine.execNeg g d a ty sat s
  | .and g d a b ty => Sys2Proof.Machine.execAnd g d a b ty s
  | .or g d a b ty => Sys2Proof.Machine.execOr g d a b ty s
  | .xor g d a b ty => Sys2Proof.Machine.execXor g d a b ty s
  | .not g d a ty => Sys2Proof.Machine.execNot g d a ty s
  | .shl g d a b ty => Sys2Proof.Machine.execShl g d a b ty s
  | .shr g d a b ty => Sys2Proof.Machine.execShr g d a b ty s
  | .sha g d a b ty => Sys2Proof.Machine.execSha g d a b ty s
  | .rot g d a b ty => Sys2Proof.Machine.execRot g d a b ty s
  | .bfe g d a b ty => Sys2Proof.Machine.execBfe g d a b ty s
  | .bfi g d a b c => Sys2Proof.Machine.execBfi g d a b c s
  | .popc g d a ty => Sys2Proof.Machine.execPopc g d a ty s
  | .clz g d a ty => Sys2Proof.Machine.execClz g d a ty s
  | .ctz g d a ty => Sys2Proof.Machine.execCtz g d a ty s
  | .brev g d a ty => Sys2Proof.Machine.execBrev g d a ty s
  | .bsel g d a b c => Sys2Proof.Machine.execBsel g d a b c s
  | .sel g d a b ty p neg => Sys2Proof.Machine.execSel g d a b ty p neg s
  | .cmp g p a b ty cond comb => Sys2Proof.Machine.execCmp g p a b ty cond comb s
  | .mov g d a ty => Sys2Proof.Machine.execMov g d a ty s
  | .movi g d imm => Sys2Proof.Machine.execMovi g d imm s
  | .moviS64 g d imm => Sys2Proof.Machine.execMoviS64 g d imm s
  | .moviZ64 g d imm => Sys2Proof.Machine.execMoviZ64 g d imm s
  | .adda g d a b ty k => Sys2Proof.Machine.execAdda g d a b ty k s
  | .addc g d a b p v => Sys2Proof.Machine.execAddc g d a b p v s
  | .fadd g d a b ty rnd sat => Sys2Proof.Machine.execFadd g d a b ty rnd sat s
  | .fsub g d a b ty rnd sat => Sys2Proof.Machine.execFsub g d a b ty rnd sat s
  | .fmul g d a b ty rnd sat => Sys2Proof.Machine.execFmul g d a b ty rnd sat s
  | .ffma g d a b c ty rnd sat => Sys2Proof.Machine.execFfma g d a b c ty rnd sat s
  | .fmin g d a b ty nan => Sys2Proof.Machine.execFmin g d a b ty nan s
  | .fmax g d a b ty nan => Sys2Proof.Machine.execFmax g d a b ty nan s
  | .fcmp g p a b ty cond comb => Sys2Proof.Machine.execFcmp g p a b ty cond comb s
  | .fclass g d a ty => Sys2Proof.Machine.execFclass g d a ty s
  | .frnd g d a ty rnd => Sys2Proof.Machine.execFrnd g d a ty rnd s
  | .fscale g d a b ty rnd sat => Sys2Proof.Machine.execFscale g d a b ty rnd sat s
  | .rcp g d a ty rnd => Sys2Proof.Machine.execRcp g d a ty rnd s
  | .rsq g d a ty => Sys2Proof.Machine.execRsq g d a ty s
  | .sqrt g d a ty rnd => Sys2Proof.Machine.execSqrt g d a ty rnd s
  | .ex2 g d a => Sys2Proof.Machine.execEx2 g d a s
  | .lg2 g d a => Sys2Proof.Machine.execLg2 g d a s
  | .sin g d a => Sys2Proof.Machine.execSin g d a s
  | .cos g d a => Sys2Proof.Machine.execCos g d a s
  | .tanh g d a => Sys2Proof.Machine.execTanh g d a s
  | .hfma2 g d a b c ty rnd sat => Sys2Proof.Machine.execHfma2 g d a b c ty rnd sat s
  | .hadd2 g d a b ty rnd sat => Sys2Proof.Machine.execHadd2 g d a b ty rnd sat s
  | .hmul2 g d a b ty rnd sat => Sys2Proof.Machine.execHmul2 g d a b ty rnd sat s
  | .cvt g d a dt st e rnd sat => Sys2Proof.Machine.execCvt g d a dt st e rnd sat s
  | .cvtef g d r a dt st rnd sat => Sys2Proof.Machine.execCvtef g d r a dt st rnd sat s
  | .cvtmx g d r0 a el k => Sys2Proof.Machine.execCvtmx g d r0 a el k s
  | .cvtmxAcc g a => Sys2Proof.Machine.execCvtmxAcc g a s
  | .cvtmxRep g d el k => Sys2Proof.Machine.execCvtmxRep g d el k s
  | .cvtmxClr g => Sys2Proof.Machine.execCvtmxClr g s
  | .pack g d a dt st rnd sat => Sys2Proof.Machine.execPack g d a dt st rnd sat s
  | .unpk g d a dt st => Sys2Proof.Machine.execUnpk g d a dt st s
  | .dot4 g d a b c st rnd sat => Sys2Proof.Machine.execDot4 g d a b c st rnd sat s
  | .dot8 g d a b c rnd sat => Sys2Proof.Machine.execDot8 g d a b c rnd sat s
  | .shfl g m d a b ty ok => Sys2Proof.Machine.execShfl g m d a b ty ok s
  | .voteSome g p q qn => Sys2Proof.Machine.execVoteSome g p q qn s
  | .voteEvery g p q qn => Sys2Proof.Machine.execVoteEvery g p q qn s
  | .voteSame g p a ty => Sys2Proof.Machine.execVoteSame g p a ty s
  | .voteBits g d q qn => Sys2Proof.Machine.execVoteBits g d q qn s
  | .voteCnt g d q qn => Sys2Proof.Machine.execVoteCnt g d q qn s
  | .redux g op d a ty rnd sat => Sys2Proof.Machine.execRedux g op d a ty rnd sat s
  | .scan g op d a ty excl rnd sat => Sys2Proof.Machine.execScan g op d a ty excl rnd sat s
  | .matchAny g d a ty fp => Sys2Proof.Machine.execMatchAny g d a ty fp s
  | .matchAll g d p a ty fp => Sys2Proof.Machine.execMatchAll g d p a ty fp s
  | .qswp g m d a ty => Sys2Proof.Machine.execQswp g m d a ty s
  | .qbc g d a ty j => Sys2Proof.Machine.execQbc g d a ty j s
  | .rdfst g d a ty => Sys2Proof.Machine.execRdfst g d a ty s
  | .part g w => Sys2Proof.Machine.execPart g w s
  | .lmask g k d => Sys2Proof.Machine.execLmask g k d s
  | .elect g d p => Sys2Proof.Machine.execElect g d p s
  | .pairWord x y => Sys2Proof.Machine.execPairWord x y s
  | .ld g d base off size hint => Sys2Proof.Machine.execLd g d base off size hint s
  | .ldAcq g d base off w64 scope => Sys2Proof.Machine.execLdAcq g d base off w64 scope s
  | .st g d base off size hint => Sys2Proof.Machine.execSt g d base off size hint s
  | .stRel g d base off w64 scope => Sys2Proof.Machine.execStRel g d base off w64 scope s
  | .ldsp g d base off rmt size => Sys2Proof.Machine.execLdsp g d base off rmt size s
  | .ldspAcq g d base off w64 => Sys2Proof.Machine.execLdspAcq g d base off w64 s
  | .ldspCnt g d base off rmt => Sys2Proof.Machine.execLdspCnt g d base off rmt s
  | .stsp g d base off rmt size => Sys2Proof.Machine.execStsp g d base off rmt size s
  | .stspRel g d base off w64 => Sys2Proof.Machine.execStspRel g d base off w64 s
  | .stspCnt g d base off rmt => Sys2Proof.Machine.execStspCnt g d base off rmt s
  | .ldc g d base off size => Sys2Proof.Machine.execLdc g d base off size s
  | .prefL1 g base off => Sys2Proof.Machine.execPrefL1 g base off s
  | .prefL2 g base off => Sys2Proof.Machine.execPrefL2 g base off s
  | .prefEvict g base off => Sys2Proof.Machine.execPrefEvict g base off s
  | .spmapFlush g => Sys2Proof.Machine.execSpmapFlush g s
  | .spmapQuery g d a => Sys2Proof.Machine.execSpmapQuery g d a s
  | .residBind g d a b h p => Sys2Proof.Machine.execResidBind g d a b h p s
  | .residUnbind g d h => Sys2Proof.Machine.execResidUnbind g d h s
  | .atom g d base b c op ty scope => Sys2Proof.Machine.execAtom g d base b c op ty scope s
  | .atomsp g d base b c op ty rmt => Sys2Proof.Machine.execAtomsp g d base b c op ty rmt s
  | .fence g scope => Sys2Proof.Machine.execFence g scope s
  | .fencePath g const fetch => Sys2Proof.Machine.execFencePath g const fetch s
  | .fenceXlat g scope => Sys2Proof.Machine.execFenceXlat g scope s
  | .barJoin g a n => Sys2Proof.Machine.execBarJoin g a n s
  | .barPost g a n => Sys2Proof.Machine.execBarPost g a n s
  | .gbarJoin g => Sys2Proof.Machine.execGbarJoin g s
  | .gbarPost g => Sys2Proof.Machine.execGbarPost g s
  | .wsync g a => Sys2Proof.Machine.execWsync g a s
  | .waitw g d base b cond w64 signed scope => Sys2Proof.Machine.execWaitw g d base b cond w64 signed scope s
  | .odone g => Sys2Proof.Machine.execOdone g s
  | .cpyG2s g a => Sys2Proof.Machine.execCpyG2s g a s
  | .cpyS2g g a => Sys2Proof.Machine.execCpyS2g g a s
  | .cpyG2g g a => Sys2Proof.Machine.execCpyG2g g a s
  | .cpyGather g a => Sys2Proof.Machine.execCpyGather g a s
  | .cpyBcast g a => Sys2Proof.Machine.execCpyBcast g a s
  | .cpyFill g a => Sys2Proof.Machine.execCpyFill g a s
  | .cpyMeta g a => Sys2Proof.Machine.execCpyMeta g a s
  | .cbwWait g d a => Sys2Proof.Machine.execCbwWait g d a s
  | .cbwTest g d a => Sys2Proof.Machine.execCbwTest g d a s
  | .cbwReset g d a => Sys2Proof.Machine.execCbwReset g d a s
  | .mmac g a => Sys2Proof.Machine.execMmac g a s
  | .maccSt g a b nr fmt raw => Sys2Proof.Machine.execMaccSt g a b nr fmt raw s
  | .maccLd g a b nr fmt raw add => Sys2Proof.Machine.execMaccLd g a b nr fmt raw add s
  | .maccZero g b nr => Sys2Proof.Machine.execMaccZero g b nr s
  | .maccRd g d b c rt rnd => Sys2Proof.Machine.execMaccRd g d b c rt rnd s
  | .mqctlClaim g d q => Sys2Proof.Machine.execMqctlClaim g d q s
  | .mqctlRelease g d q => Sys2Proof.Machine.execMqctlRelease g d q s
  | .mqctlQuery g d q => Sys2Proof.Machine.execMqctlQuery g d q s
  | .mstatErr g d => Sys2Proof.Machine.execMstatErr g d s
  | .mstatCont g a => Sys2Proof.Machine.execMstatCont g a s
  | .mstatClr g => Sys2Proof.Machine.execMstatClr g s
  | .instructionFetch w => Sys2Proof.Machine.execInstructionFetch w s
  | .pendingResultWrite w k => Sys2Proof.Machine.execPendingResultWrite w k s
  | .homeAccess k => Sys2Proof.Machine.execHomeAccess k s
  | .intervalQueryAnswer slice vi launch block warp interval => Sys2Proof.Machine.execIntervalQueryAnswer slice vi launch block warp interval s
  | .regionCommitComplete w => Sys2Proof.Machine.execRegionCommitComplete w s
  | .regionCommitFail w => Sys2Proof.Machine.execRegionCommitFail w s
  | .hbmFill pa set chk marksLost => Sys2Proof.Machine.execHbmFill pa set chk marksLost s
  | .servicePage b p => Sys2Proof.Machine.execServicePage b p s
  | .translationService w => Sys2Proof.Machine.execTranslationService w s
  | .replicaCreate vi va die pa rec => Sys2Proof.Machine.execReplicaCreate vi va die pa rec s
  | .replicaCollapse vi va => Sys2Proof.Machine.execReplicaCollapse vi va s
  | .shootdown vi va len wb => Sys2Proof.Machine.execShootdown vi va len wb s
  | .shootdownAck k agent => Sys2Proof.Machine.execShootdownAck k agent s
  | .mbxApertureWrite vi off bytes => Sys2Proof.Machine.execMbxApertureWrite vi off bytes s
  | .bar0RegisterWrite vi off => Sys2Proof.Machine.execBar0RegisterWrite vi off s
  | .launch vi => Sys2Proof.Machine.execLaunch vi s
  | .write vi => Sys2Proof.Machine.execWrite vi s
  | .read vi => Sys2Proof.Machine.execRead vi s
  | .qflush vi => Sys2Proof.Machine.execQflush vi s
  | .freezeRequest vi => Sys2Proof.Machine.execFreezeRequest vi s
  | .thaw vi => Sys2Proof.Machine.execThaw vi s
  | .viReset vi => Sys2Proof.Machine.execViReset vi s
  | .functionLevelReset vi => Sys2Proof.Machine.execFunctionLevelReset vi s
  | .viResetComplete vi => Sys2Proof.Machine.execViResetComplete vi s
  | .viConfigure vi cfg => Sys2Proof.Machine.execViConfigure vi cfg s
  | .headgateDispatch => Sys2Proof.Machine.execHeadgateDispatch s
  | .blockStart core => Sys2Proof.Machine.execBlockStart core s
  | .workSteal thieves => Sys2Proof.Machine.execWorkSteal thieves s
  | .leveeRefill => Sys2Proof.Machine.execLeveeRefill s
  | .portSend core => Sys2Proof.Machine.execPortSend core s
  | .powerGrant gs => Sys2Proof.Machine.execPowerGrant gs s
  | .powerGrantTimeout core => Sys2Proof.Machine.execPowerGrantTimeout core s
  | .thermalLimit die limit => Sys2Proof.Machine.execThermalLimit die limit s
  | .copyChunk core k => Sys2Proof.Machine.execCopyChunk core k s
  | .copyComplete core k => Sys2Proof.Machine.execCopyComplete core k s
  | .matrixKblock core => Sys2Proof.Machine.execMatrixKblock core s
  | .matrixCommandComplete core => Sys2Proof.Machine.execMatrixCommandComplete core s
  | .sparseStallTimeout core => Sys2Proof.Machine.execSparseStallTimeout core s
  | .waitwReread w => Sys2Proof.Machine.execWaitwReread w s
  | .cbwWaitReread w => Sys2Proof.Machine.execCbwWaitReread w s
  | .floorBroadcast => Sys2Proof.Machine.execFloorBroadcast s
  | .holdingBufferArrive k => Sys2Proof.Machine.execHoldingBufferArrive k s
  | .deferAreaRetry l => Sys2Proof.Machine.execDeferAreaRetry l s
  | .replayRelease k => Sys2Proof.Machine.execReplayRelease k s
  | .replayWindowExpiry l va => Sys2Proof.Machine.execReplayWindowExpiry l va s
  | .stopDelivery w => Sys2Proof.Machine.execStopDelivery w s
  | .deferredStopDelivery w => Sys2Proof.Machine.execDeferredStopDelivery w s
  | .watchdogExpiry w => Sys2Proof.Machine.execWatchdogExpiry w s
  | .linkRecoveryReport port => Sys2Proof.Machine.execLinkRecoveryReport port s
  | .linkRecoveryTimeout w => Sys2Proof.Machine.execLinkRecoveryTimeout w s
  | .goistoResume w act => Sys2Proof.Machine.execGoistoResume w act s
  | .breakpointSet vi n bpc bpf bpb => Sys2Proof.Machine.execBreakpointSet vi n bpc bpf bpb s
  | .preemptionRequest vi scope => Sys2Proof.Machine.execPreemptionRequest vi scope s
  | .preemptAck k unit => Sys2Proof.Machine.execPreemptAck k unit s
  | .restore vi launch gang bad => Sys2Proof.Machine.execRestore vi launch gang bad s
  | .scrubLine pa chk => Sys2Proof.Machine.execScrubLine pa chk s
  | .vacateAck bank => Sys2Proof.Machine.execVacateAck bank s
  | .vacateTimeout bank => Sys2Proof.Machine.execVacateTimeout bank s
  | .fieldTestStart cluster => Sys2Proof.Machine.execFieldTestStart cluster s
  | .fieldTestResult cluster pass => Sys2Proof.Machine.execFieldTestResult cluster pass s
  | .culvertBeatFail a b => Sys2Proof.Machine.execCulvertBeatFail a b s
  | .scaleupPortFailure port => Sys2Proof.Machine.execScaleupPortFailure port s
  | .remoteArrival pa op => Sys2Proof.Machine.execRemoteArrival pa op s
  | .warpExitRecord w => Sys2Proof.Machine.execWarpExitRecord w s
  | .blockRetire b => Sys2Proof.Machine.execBlockRetire b s
  | .launchEnd l => Sys2Proof.Machine.execLaunchEnd l s
  | .flumeRecordWrite k => Sys2Proof.Machine.execFlumeRecordWrite k s
  | .counterTick => Sys2Proof.Machine.execCounterTick s
  | .pcSample core sec => Sys2Proof.Machine.execPcSample core sec s
  | .cselWrite vi n v => Sys2Proof.Machine.execCselWrite vi n v s
  | .cctlWrite vi v => Sys2Proof.Machine.execCctlWrite vi v s
  | .clostWrite vi v => Sys2Proof.Machine.execClostWrite vi v s
  | .ptpLock t => Sys2Proof.Machine.execPtpLock t s
  | .powerOn => Sys2Proof.Machine.execPowerOn s
  | .attestationRequest nonce => Sys2Proof.Machine.execAttestationRequest nonce s
  | .firmwareUpdate rec signed => Sys2Proof.Machine.execFirmwareUpdate rec signed s
  | .sleepExpiry w => Sys2Proof.Machine.execSleepExpiry w s
  | .linkRecovered port => Sys2Proof.Machine.execLinkRecovered port s
  | .ieee1588LockLoss => Sys2Proof.Machine.execIeee1588LockLoss s

end Sys2Proof.Machine
end

