-- ==== Sys2Proof/Machine/Sched.lean ====
section
/-!
DEFINITION. What happens when no turn is named (notes/assumptions/6.md): the passing of time (spec/00 R6), the warps' order of
issue (spec/07 R132), and the work that may be due.
-/

namespace Sys2Proof.Machine

/-! ### Time -/

/-- Nanoseconds of device time pass for the watchdogs of the resident warps (R432, R433). -/
def Warp.wait (x : Warp) (ns : Nat) : Warp := if x.recover.isSome then x else { x with wdog := x.wdog + ns }

/-- The oldest resident warp of a VI in every section of every core. -/
def State.oldest (s : State) (vi : Nat) : List Nat :=
  (List.range s.warps.length).filter fun w =>
    let x := s.warp w
    let c := (s.block x.block).core
    x.vi == vi && s.inSection c x.windex w && (List.range w).all fun v => !((s.warp v).vi == vi && s.inSection c x.windex v)

/-- Section cycles by the stall reason of the oldest resident warp (R471), for the VIs that count anything. -/
def State.countStalls (s : State) (cycles : Nat) : State :=
  ((List.range s.vis.length).filter fun v => !(s.vi v).ctr.csel.isEmpty).foldl (fun (s : State) v =>
    (s.oldest v).foldl (fun (s : State) w => s.count v unitSection (0x10 + s.stallReason w) cycles) s) s

/-- What time does: device time, the watchdogs, the counters of cycles, and a new run of link failures (R480). -/
def State.elapse (s : State) (cycles ns : Nat) : State :=
  let s := s.countStalls cycles
  let s := { s with warps := s.warps.map fun (x : Warp) =>
    if x.ended || x.live == 0 || !((s.block x.block).state == BlockState.resident) || (s.vi x.vi).frozen then x else x.wait ns }
  { s with devTime := s.devTime + ns, links := s.links.map fun (k : Nat × Link) => (k.1, if k.2.down then k.2 else { k.2 with fails := 0 }) }

/-- Time passes, and issue cycles of every section with it. -/
def State.pass (s : State) (cycles ns : Nat) : State :=
  (({ s with clock := s.clock + cycles, cores := s.cores.map fun (k : Core) => { k with cycles := k.cycles.map fun n => n + cycles } } : State)).elapse
    cycles ns

/-- Time passes up to the next refill of R95 or microsecond of device time, and what is left of it after what is due then. -/
def State.passTo (s : State) (cycles ns : Nat) : State :=
  let c := min cycles (1024 - s.clock % 1024)
  let n := min ns (1000 - s.devTime % 1000)
  let s := s.pass c n
  if c = cycles ∧ n = ns then s else { s with agenda := .pass (cycles - c) (ns - n) :: s.agenda }

/-- Device time and the ordering clock are 64-bit counts (R6). -/
def State.wrapTime (s : State) : State :=
  if s.clock < 2 ^ 64 && s.devTime < 2 ^ 64 then s
  else
    let clock := s.clock % 2 ^ 64
    let time := s.devTime % 2 ^ 64
    { s with
      clock := clock, devTime := time, lastRefill := min s.lastRefill (clock / 1024), lastFloor := min s.lastFloor (time / 1000)
      lastTick := min s.lastTick (time / 2 ^ s.tickExp), lastGrantAt := min s.lastGrantAt (time / 1000) }

/-- The time that the step from [s] to [t] takes: 5 ns of device time for 6 cycles of the ordering clock, when the step has not set
device time itself. -/
def State.timed (s t : State) : State :=
  (if t.devTime != s.devTime then t else t.elapse (t.clock - s.clock) (t.clock * 5 / 6 - s.clock * 5 / 6)).wrapTime

/-! ### Warps (R132) -/

/-- The warps of the section of warp [w], by age. One of a block that is not resident stands by itself, and only while an access of it is
staged (R401). -/
def State.mates (s : State) (w : Nat) : List Nat :=
  if (s.blockOf w).state == .resident then
    (List.range s.warps.length).filter fun v => s.inSection (s.blockOf w).core ((s.warp w).windex % 4) v
  else match (s.warp w).hold with
    | .staged _ => [w]
    | _ => []

/-- A warp put among others that have waited as long or longer. -/
def State.putLate (s : State) (xs : List Nat) (w : Nat) : List Nat :=
  (xs.takeWhile fun v => decide ((s.warp v).lastIssue ≤ (s.warp w).lastIssue)) ++
    w :: xs.dropWhile fun v => decide ((s.warp v).lastIssue ≤ (s.warp w).lastIssue)

/-- The warps of the section of warp [w] in their order of issue: those that have not issued for 64 of its cycles, the longest wait
first, then the others by age. -/
def State.order (s : State) (w : Nat) : List Nat :=
  let late (v : Nat) : Bool := decide ((s.warp v).lastIssue + 64 ≤ s.sectionCycle w)
  ((s.mates w).filter late).foldl s.putLate [] ++ (s.mates w).filter fun v => !late v

/-- One more issue cycle of the section of warp [w]; one that is not resident has no section. -/
def State.tickSection (s : State) (w : Nat) : State :=
  if (s.blockOf w).state != .resident then s else
  let sec := (s.warp w).windex % 4
  s.updCore (s.blockOf w).core fun k => { k with cycles := k.cycles.set sec (k.cycles.getD sec 0 + 1) }

/-- One warp of every section that has any, the sections with the fewest issue cycles first. -/
def State.sections (s : State) : List Nat :=
  ((List.range s.warps.length).filter fun w => (s.mates w).head? == some w).foldl (fun xs w =>
    (xs.takeWhile fun v => decide (s.sectionCycle v ≤ s.sectionCycle w)) ++
      w :: xs.dropWhile fun v => decide (s.sectionCycle v ≤ s.sectionCycle w)) []

/-! ### Work that may be due -/

/-- Numbers below the length of a list. -/
def places {α : Type} (xs : List α) : List Nat := List.range xs.length

/-- The events of one warp. -/
def State.warpEvents (s : State) (w : Nat) : List Instr :=
  let x := s.warp w
  ((places x.pend).map fun k => Instr.pendingResultWrite w k) ++
  (if x.older.isSome then [.regionCommitComplete w, .regionCommitFail w] else []) ++
  (x.needs.flatMap fun n => match n.what with | .page b p => [Instr.servicePage b p] | .xlat _ _ => [Instr.translationService w]) ++
  (if x.stop.isSome then [.stopDelivery w] else []) ++ (if x.deferred.isSome then [.deferredStopDelivery w] else []) ++
  (match x.hold with
    | .sleep _ _ => [.sleepExpiry w]
    | .word _ _ => [.waitwReread w, .cbwWaitReread w, .linkRecoveryTimeout w]
    | _ => []) ++
  (if !x.ended && x.live == 0 then [.warpExitRecord w] else []) ++ [.watchdogExpiry w]

/-- The events of one core. -/
def State.coreEvents (s : State) (c : Nat) : List Instr :=
  let k := s.core c
  (if k.port.isEmpty then [] else [.portSend c]) ++
  (k.copyq.flatMap fun q => [Instr.copyChunk c q.id, .copyComplete c q.id]) ++
  (if k.matq.isEmpty then [] else
    [.powerGrantTimeout c, .matrixKblock c, .matrixCommandComplete c, .sparseStallTimeout c]) ++
  (if k.queue.isEmpty then [] else [.blockStart c]) ++
  (if s.sampleExp.isSome then (List.range 4).map fun q => Instr.pcSample c q else [])

/-- The events of one launch. -/
def State.launchEvents (s : State) (li : Nat) : List Instr :=
  let l := s.launch li
  if l.state != .running then []
  else .launchEnd li :: .deferAreaRetry li :: l.log.since.map fun x => Instr.replayWindowExpiry li x.1

/-- The gangs that wait to be restored. -/
def State.restores (s : State) : List Instr :=
  (s.blocks.filter fun b => b.state == .saved && b.copy == 0 && !(s.launch b.launch).stopped).map fun b =>
    Instr.restore b.vi b.launch (b.lin / max 1 (s.launch b.launch).gang) none

/-- The events of one VI. -/
def State.viEvents (s : State) (v : Nat) : List Instr :=
  (if (s.vi v).resetting then [.viResetComplete v] else []) ++
  (if (s.vi v).fifo.isEmpty then [] else [.launch v, .write v, .read v, .qflush v])

/-- Every event that can be due, in the order in which they are tried. -/
def State.dueEvents (s : State) : List Instr :=
  if s.boot == .off then [.powerOn]
  else
    ((places s.net).map fun k => Instr.homeAccess k) ++ (places s.cores).flatMap s.coreEvents ++
    (if s.cores.any fun k => !k.queue.isEmpty then [.workSteal []] else []) ++
    ((places s.waiting).map fun k => Instr.holdingBufferArrive k) ++ (places s.warps).flatMap s.warpEvents ++
    (s.staged.map fun e => Instr.replayRelease e.id) ++
    ((places s.preempts).flatMap fun k => (s.preempts.getD k ⟨0, .vi, [], [], false⟩).left.map fun u => Instr.preemptAck k u) ++
    ((places s.shoot).flatMap fun k => (s.shoot.getD k ⟨0, 0, 0, false, []⟩).left.map fun a => Instr.shootdownAck k a) ++
    ((places s.blocks).map fun b => Instr.blockRetire b) ++ (places s.launches).flatMap s.launchEvents ++
    ((places s.flume).map fun k => Instr.flumeRecordWrite k) ++ s.restores ++
    (if s.vis.any fun v => !v.queues.isEmpty then [.headgateDispatch] else []) ++ (places s.vis).flatMap s.viEvents ++
    (s.banks.map fun b => Instr.vacateTimeout b.1)

/-- What the clocks make due now, before any turn: a refill of R95, a broadcast of R369, a tick of R472. -/
def State.clockDue (s : State) : Option Instr :=
  if s.boot == .off then none
  else if s.lastRefill < s.clock / 1024 then some .leveeRefill
  else if s.lastFloor < s.devTime / 1000 then some .floorBroadcast
  else if 10 ≤ s.tickExp && s.lastTick < s.devTime / 2 ^ s.tickExp then some .counterTick
  else none

/-- A re-read of a word that a warp waits on is due when it ends the wait; any other event when it changes something. -/
def useful (s t : State) (i : Instr) : Bool :=
  match i with
  | .waitwReread w => (t.warp w).hold != (s.warp w).hold
  | .cbwWaitReread w => (t.warp w).hold != (s.warp w).hold
  | _ => t != s

/-- The turn that comes when nothing is due and no warp can go on: 50 ns pass. -/
def idleTurn : Turn := .pass 60 50

end Sys2Proof.Machine
end

