-- ==== Sys2Proof/Machine/Step.lean ====
section
/-!
DEFINITION. The step: what the clocks make due, else the next turn of the agenda or, when it names none, the first work that is due, else
the next word of a warp, else time passing (notes/assumptions/6.md); and the placing of a word for the host.
-/

namespace Sys2Proof.Machine

/-- An outcome with the issue context cleared and the time that it took. -/
def finishStep (s : State) (o : Host.Outcome State Fault Refusal) : Host.Outcome State Fault Refusal :=
  match o with
  | .next t => .next (State.timed s { t with cur := none })
  | .fault r => .fault r
  | .refused r => .refused r

/-- What an issue cycle comes to: whether a word has gone on, and the outcome. -/
abbrev Cycle : Type := Bool × Host.Outcome State Fault Refusal

/-- The first warp of a list that can go on issues; those of [late] wait for a fetched line or for the pipeline, with their reason, and the
others before it keep the reason for which they wait (R132). -/
def issueFrom (s : State) (late : List (Nat × Nat)) : List Nat → Cycle
  | [] => (false, .next s)
  | w :: r =>
    match late.find? fun x => x.1 == w && (x.2 == 6 || x.2 == 12) with
    | some x => issueFrom (s.stallAt w x.2) late r
    | none =>
      match s.turnOf w with
      | .wait s => issueFrom s late r
      | .done s => (true, .next s)
      | .run i s =>
        match exec i s with
        | .next t => if (t.warp w).stall = 0 then (true, .next t) else issueFrom { t with cur := none } late r
        | o => (true, o)

/-- An issue cycle of the section of warp [w]. -/
def issueTurn (w : Nat) (late : List (Nat × Nat)) (s : State) : Cycle :=
  let s := s.tickSection w
  issueFrom s late (s.order w)

/-- The word of a warp can go on now. -/
def goesOn (s : State) (w : Nat) : Bool :=
  match s.turnOf w with
  | .wait _ => false
  | .done _ => true
  | .run i s => match exec i s with | .next t => (t.warp w).stall == 0 | _ => true

/-- One named turn. An event turn names an event of spec/95; one that names an instruction word, which is issued by a warp and
not by itself, does nothing. Time does not pass while a warp can go on, since its section issues in every cycle (R132). -/
def turn (t : Turn) (s : State) : Host.Outcome State Fault Refusal :=
  match t with
  | .issue w late => (issueTurn w late s).2
  | .event i => if i.isWord then .next s else exec i s
  | .error u => .next (s.upset u)
  | .pass c n => .next (if (List.range s.warps.length).any (goesOn s) then s else s.passTo c n)

/-- The first of some events that does something. -/
def firstDue (s : State) : List Instr → Option (Host.Outcome State Fault Refusal)
  | [] => none
  | i :: r =>
    match exec i s with
    | .next t => if useful s t i then some (.next t) else firstDue s r
    | o => some o

/-- The first section in which a word goes on issues; when there is none, time passes. -/
def firstSection (s : State) : List Nat → Host.Outcome State Fault Refusal
  | [] => turn idleTurn s
  | w :: r =>
    match issueTurn w [] s with
    | (false, .next t) => firstSection t r
    | (_, o) => o

/-- The turn that comes by itself. -/
def auto (s : State) : Host.Outcome State Fault Refusal :=
  match firstDue s s.dueEvents with
  | some o => o
  | none => firstSection s s.sections

/-- One step of the machine. -/
def step (s : State) : Host.Outcome State Fault Refusal :=
  match s.clockDue with
  | some i => finishStep s (exec i s)
  | none =>
    match s.agenda with
    | t :: r => finishStep s (turn t { s with agenda := r })
    | [] => finishStep s (auto s)

/-- The state with a word where `step` fetches its next instruction (notes/assumptions/6.md). -/
def State.withFetchWord (s : State) (nbits w : Nat) : State :=
  s.placeWord (leBytes 8 (w % 2 ^ min nbits 64))

end Sys2Proof.Machine
end

