-- ==== Sys2Proof/Safety.lean ====
section
/-!
DEFINITION. The terms in which statements speak: what counts as a safe run, when nothing stands in the way of a word at issue
(spec/06 R126, spec/07 R136, R140, R141, spec/08 R148, R149), what a word writes (spec/06 R102, R104, R106, spec/03 R59, R52), and
what it leaves alone.
-/

namespace Sys2Proof.Machine

/-! ### Safe runs -/

/-- The memory is in its canonical form. -/
def State.memoryOk (s : State) : Prop := s.mem.wf = true

/-- The step answers a next state. -/
def Safe (s : State) : Prop := ∃ t, step s = .next t

/-! ### A word that acts -/

/-- The word writes a register that its region reads from before it, itself counted (R147 to R149). -/
def State.clobbers (s : State) (x : Issue) (f : Foot) : Bool := f.writes.any ((s.warp x.w).region.liveIn f.reads)

/-- A first word that clobbers what it reads: a region of its own (R149). -/
def Alone (s : State) (x : Issue) (f : Foot) : Prop := (s.warp x.w).region.issued = 0 ∧ s.clobbers x f = true

/-- Nothing stops, holds or splits the word at issue before it acts. -/
structure Ready (s : State) (x : Issue) (f : Foot) : Prop where
  cur : s.cur = some x
  warp : x.w < s.warps.length
  stop : (s.warp x.w).stop = none
  hold : (s.warp x.w).hold = .none
  twin : s.twinBusy x.w = false
  legal : s.illegal x f = none
  board : (s.warp x.w).scoreboard f = false
  bound : s.boundWaits x.w = false
  held : (s.warp x.w).heldFor x f = false
  whole : s.clobbers x f = true → (s.warp x.w).region.issued = 0
  deferred : (s.warp x.w).deferred = none ∨ (s.warp x.w).region.issued ≠ 0
  older : ∀ o, (s.warp x.w).older = some o → s.clobbers x f = false ∧ f.writes.any (o.liveIn []) = false

/-- The region that begins holds nothing yet, and its commit will have nothing to wait for. -/
structure Fresh (s : State) (w : Nat) : Prop where
  atoms : (s.warp w).region.atoms = []
  spAtoms : (s.warp w).region.spAtoms = []
  cmds : (s.warp w).region.cmds = []
  stores : (s.warp w).region.stores = []
  recs : (s.warp w).region.recs = []
  clears : (s.warp w).region.clears = []
  evicts : (s.warp w).region.evicts = []
  ctrStores : (s.warp w).region.ctrStores = []
  flush : (s.warp w).region.flush = none
  odone : (s.warp w).region.odone = false
  mclear : (s.warp w).region.mclear = false
  failed : (s.warp w).region.failed = none
  lines : ∀ d ∈ (s.warp w).dirty, d.state = .committed
  sent : s.reqsLeft w (s.warp w).region.seq = false
  single : (s.launchOf w).rdnt = false
  ovf : (s.coreOf w).ovfWarp ≠ some w

/-- The word acts and no stop follows it: no single step, no re-injection; a region of its own is fresh. -/
structure Calm (s : State) (x : Issue) (f : Foot) : Prop extends Ready s x f where
  step : (s.warp x.w).stepping = false
  given : x.given = none
  fresh : Alone s x f → Fresh s x.w

/-- A lane's flags count: those of helper lanes do not, nor a scalar word's where all its active lanes are helpers (R59). -/
def State.counts (s : State) (x : Issue) (vec : Bool) (l : Nat) : Bool :=
  if vec then !bit (s.warp x.w).allHelpers l else mDiff x.active (s.warp x.w).allHelpers != 0

/-- The warp's launch runs live and alone: neither redundant, deterministic, recorded nor replayed (R401, R408, R412, R445). -/
structure Live (s : State) (w : Nat) : Prop where
  rdnt : (s.launchOf w).rdnt = false
  det : (s.launchOf w).det = false
  recording : (s.launchOf w).recording = false
  replaying : (s.launchOf w).replaying = false
  primary : s.secondary w = false

/-- No lane that counts raises an enabled flag (R61). -/
def Quiet (s : State) (x : Issue) (vec : Bool) (flags : List (Nat × Nat)) : Prop :=
  ∀ o ∈ flags, s.counts x vec o.1 = true → mAnd o.2 (s.warp x.w).enables = 0

/-- In every set of the L1 of core [c] dirty copies leave [n] ways: a copy that comes takes the place of no dirty one (R152, R264,
R265). -/
def Roomy (s : State) (c n : Nat) : Prop := ∀ set, s.waysUsed c set + (s.committedIn c set).length + n ≤ Config.l1Ways

/-! ### What a word writes -/

/-- A destination: the lanes that write, the register, how many registers, and the value by lane. -/
abbrev Dest := Nat × Reg × Nat × (Nat → Nat)

/-- Vector register [r] of lane [l] after destinations are written in order. -/
def vAfter (r l : Nat) (old : Word) : List Dest → Word
  | [] => old
  | (m, .v k, n, val) :: ds =>
    vAfter r l (if k.val ≤ r ∧ r < k.val + n ∧ bit m l = true then BitVec.ofNat 32 (val l >>> (32 * (r - k.val))) else old) ds
  | _ :: ds => vAfter r l old ds

/-- Scalar register [r] after destinations are written in order, each from the lowest of its lanes. -/
def sAfter (r : Nat) (old : Word) : List Dest → Word
  | [] => old
  | (m, .s k, n, val) :: ds =>
    sAfter r (match lowLane m with
      | some l => if k.val ≤ r ∧ r < k.val + n then BitVec.ofNat 32 (val l >>> (32 * (r - k.val))) else old
      | none => old) ds
  | _ :: ds => sAfter r old ds

/-- The registers of [b] are those of [a] but for the destinations; `%zero` is no register. -/
structure Wrote (a b : Warp) (ds : List Dest) : Prop where
  v : ∀ r l, l < 32 → b.v r l = vAfter r l (a.v r l) ds
  s : ∀ r, b.s r = sAfter r (a.s r) ds

/-- A predicate written: the lanes, its number and its value by lane. -/
abbrev PDest := Nat × Nat × (Nat → Bool)

/-- The predicates of [b] are those of [a] but for one written; p7 reads 1 (R102). -/
def WroteP (a b : Warp) (p : Option PDest) : Prop :=
  ∀ q l, l < 32 → b.p q l = match p with
    | some (m, k, val) => if q = k ∧ q ≠ 7 ∧ bit m l = true then val l else a.p q l
    | none => a.p q l

/-- A lane stands ready at a PC. -/
def Warp.standsAt (w : Warp) (l pc : Nat) : Prop :=
  ∃ e, w.pct.find? (fun e => bit e.mask l) = some e ∧ e.pc = pc ∧ e.state = .ready ∧ e.on = .none

/-- A lane waits at a PC on a condition. -/
def Warp.waitsAt (w : Warp) (l pc : Nat) (on : WaitOn) : Prop :=
  ∃ e, w.pct.find? (fun e => bit e.mask l) = some e ∧ e.pc = pc ∧ e.state = .waiting ∧ e.on = on

/-- Every living lane of the word's subgroup stands ready at the PC that [dst] gives it. -/
def Lands (s t : State) (x : Issue) (dst : Nat → Nat) : Prop :=
  ∀ l, l < 32 → bit x.mask l = true → bit (s.warp x.w).live l = true → (t.warp x.w).standsAt l (dst l)

/-! ### What a word leaves alone -/

/-- The frame of a word that is part of its region: the clock goes one cycle on, counters count, the first issue opens an
interval record, and of the warp only what is listed can differ, besides what [g] says; with a region of its own, also what its
commit changes. -/
structure Apart (s t : State) (x : Issue) (own : Prop) (g : Warp → Warp) : Prop where
  rest : t = { s with warps := t.warps, clock := s.clock + 1, nextId := t.nextId, vis := t.vis, recs := t.recs, flume := t.flume }
  size : t.warps.length = s.warps.length
  others : ∀ v, v ≠ x.w → t.warp v = s.warp v
  vis : ∀ v, t.vi v = { s.vi v with ctr := (t.vi v).ctr }
  recs : ∃ rs, t.recs = s.recs ++ rs
  flume : ∃ fs, t.flume = s.flume ++ fs
  mem : ∀ a, t.mem.read a = s.mem.read a
  warp : t.warp x.w = { g (s.warp x.w) with
    vregs := (t.warp x.w).vregs, sregs := (t.warp x.w).sregs, preds := (t.warp x.w).preds, fpstat := (t.warp x.w).fpstat
    draws := (t.warp x.w).draws, pend := (t.warp x.w).pend, region := (t.warp x.w).region, pct := (t.warp x.w).pct, icount := (t.warp x.w).icount
    stall := 0, bpskip := none, reentering := false, lastIssue := s.sectionCycle x.w, lastWord := (x.pc, x.active), firstIssue := (t.warp x.w).firstIssue
    commits := (t.warp x.w).commits, wdog := (t.warp x.w).wdog, reentry := (t.warp x.w).reentry
    holds := (t.warp x.w).holds, pins := (t.warp x.w).pins }
  kept : ¬ own → (t.warp x.w).commits = (g (s.warp x.w)).commits ∧ (t.warp x.w).wdog = (g (s.warp x.w)).wdog ∧
    (t.warp x.w).reentry = (g (s.warp x.w)).reentry ∧ (t.warp x.w).holds = (g (s.warp x.w)).holds ∧ (t.warp x.w).pins = (g (s.warp x.w)).pins
  ended : own → (t.warp x.w).region = { Region.blank with seq := (s.warp x.w).region.seq + 1 } ∧
    (t.warp x.w).commits = ((g (s.warp x.w)).commits + 1) % 2 ^ 32 ∧ (t.warp x.w).wdog = 0

/-- What every word that acts does besides its results: flags, and draws in the lanes [dm]; its lanes go where [dst] says;
and nothing else. -/
structure Acts (s t : State) (x : Issue) (f : Foot) (vec : Bool) (flags : List (Nat × Nat)) (dm draws : Nat) (g : Warp → Warp)
    (dst : Nat → Nat) : Prop where
  fpstat : ∀ k, bit (t.warp x.w).fpstat k =
    (bit (g (s.warp x.w)).fpstat k || flags.any fun o => s.counts x vec o.1 && bit o.2 k)
  drawn : ∀ l, sget (t.warp x.w).draws l 0 =
    if draws ≠ 0 ∧ l < 32 ∧ bit dm l = true then (sget (s.warp x.w).draws l 0 + draws) % 2 ^ 54 else sget (s.warp x.w).draws l 0
  next : Lands s t x dst
  apart : Apart s t x (Alone s x f) g

/-- A word whose results are written at once; its lanes go on to the next word unless [dst] says otherwise (R98). -/
structure Gives (s t : State) (x : Issue) (f : Foot) (vec : Bool) (ds : List Dest) (p : Option PDest) (flags : List (Nat × Nat))
    (dm draws : Nat) (g : Warp → Warp := id) (dst : Nat → Nat := fun _ => nextPc x.pc) : Prop extends
    Acts s t x f vec flags dm draws g dst where
  regs : Wrote (s.warp x.w) (t.warp x.w) ds
  preds : WroteP (s.warp x.w) (t.warp x.w) p
  pend : (t.warp x.w).pend = (s.warp x.w).pend ∧ t.nextId = s.nextId

/-- A word whose results are pending: they stand in the scoreboard, ready, to be written (R140). -/
structure Pends (s t : State) (x : Issue) (f : Foot) (vec : Bool) (ds : List Dest) (p : Option PDest) (flags : List (Nat × Nat))
    (dm draws : Nat) (g : Warp → Warp := id) : Prop extends Acts s t x f vec flags dm draws g fun _ => nextPc x.pc where
  regs : Wrote (s.warp x.w) (t.warp x.w) []
  preds : WroteP (s.warp x.w) (t.warp x.w) none
  pend : ∃ e, (t.warp x.w).pend = (s.warp x.w).pend ++ [e] ∧ e.ready = true ∧ e.regs = f.writes ∧
    ∀ a : Warp, Wrote a (a.apply e.writes) ds ∧ WroteP a (a.apply e.writes) p

/-! ### What the memory system keeps -/

/-- [t] is [s] but for what the memory system keeps: memory, translations, caches, tokens, marks, scratchpad pages with their map
entries, the values that stores have replaced before matrix commands in flight (R324), handles and counters. -/
structure Near (s t : State) : Prop where
  rest : t = { s with mem := t.mem, cores := t.cores, vis := t.vis, blocks := t.blocks, l2 := t.l2, marks := t.marks, aliases := t.aliases
                      sides := t.sides, walk := t.walk, freeCtr := t.freeCtr, flume := t.flume }
  mats : ∀ c, (t.core c).matq.map (fun q => { q with old := [] }) = (s.core c).matq.map fun q => { q with old := [] }
  size : t.blocks.length = s.blocks.length
  core : ∀ c, t.core c = { s.core c with
    tlb := (t.core c).tlb, clean := (t.core c).clean, cc := (t.core c).cc, ic := (t.core c).ic, tokens := (t.core c).tokens
    portAt := (t.core c).portAt, lastVi := (t.core c).lastVi, rg := (t.core c).rg, frames := (t.core c).frames, remote := (t.core c).remote, matq := (t.core c).matq }
  vi : ∀ v, t.vi v = { s.vi v with ctr := (t.vi v).ctr, handles := (t.vi v).handles, slots := (t.vi v).slots }
  block : ∀ b, t.block b = { s.block b with map := (t.block b).map }

/-- The same bytes at every address of memory and at every offset of every block's scratchpad. -/
def SameBytes (s t : State) : Prop := (∀ a, t.mem.read a = s.mem.read a) ∧ ∀ b o, t.spByte b o = s.spByte b o

/-- The byte of a scratchpad stands in a frame, or nowhere but as 0: not in a backing slot (R92, R93). -/
def State.spInside (s : State) (b o : Nat) : Prop :=
  (∃ f ∈ (s.core (s.block b).core).frames, f.2.blk = b ∧ f.2.pg = o / 4096) ∨ (s.spEntry b (o / 4096)).b = false

/-- Every byte of a scratchpad stays, in a backing slot as far as the memory of that slot does (R93). -/
def SpStays (s t : State) : Prop :=
  ∀ b o, (s.spInside b o ∨ ∀ k, k < slotBytes →
      let a := s.slotAt (s.block b).vi (s.spEntry b (o / 4096)).slot + k
      t.mem.read a = s.mem.read a) → t.spByte b o = s.spByte b o

/-- Nothing waits for a boundary of a warp: none of its lanes leaves a completed barrier, none of its arrivals waits for the next phase. -/
def Unwaited (s : State) (w : Nat) : Prop :=
  (s.warp w).leavings = [] ∧ (∀ n, ∀ a ∈ ((s.block (s.warp w).block).bar n).later, a.w ≠ w) ∧
    ∀ a ∈ (s.block (s.warp w).block).gbar.later, a.w ≠ w

/-! ### What an engine finds (R305, R323) -/

/-- An engine reads a scratchpad byte of its block at once: its word is not held, its page is in its frame, no mark of another forbids it,
and it is not poisoned. -/
def EngReads (s : State) (e : EngOf) (off : Nat) : Prop :=
  s.spWordsHeld e.blk [off / 4 * 4] = false ∧ (s.spEntry e.blk (off / 4096)).p = true ∧ s.engSpConflict e e.blk off false = none ∧
    s.spPoisoned e.blk off = false

/-- An engine writes a scratchpad byte of its block at once. -/
def EngWrites (s : State) (e : EngOf) (off : Nat) : Prop :=
  s.spWordsHeld e.blk [off / 4 * 4] = false ∧ (s.spEntry e.blk (off / 4096)).p = true ∧
    ((s.spEntry e.blk (off / 4096)).win = true → (s.spEntry e.blk (off / 4096)).wr = true) ∧ s.engSpConflict e e.blk off true = none

/-- The scratchpad offsets that k-block [q] reads: of every row its scale, where it has one, and its elements (R312, R319). -/
def blockReads (m : List Nat) (g : Geometry) (idx : List Nat) (q : Nat) : List Nat :=
  let row (scaled : Bool) (sc off n : Nat) : List Nat := (if scaled then [sc] else []) ++ (List.range n).map fun k => off + k
  ((List.range (mpbM m)).flatMap fun i =>
    let r := operandRow m idx i
    row (g.sa.scale == 1) (mpbAsc m + r * mpbScp m + q) (mpbA m + r * mpbAp m + q * g.na) g.na) ++
  (List.range (mpbN m)).flatMap fun j =>
    row (g.sb.scale == 1) (mpbBsc m + j * mpbScp m + q) (mpbB m + j * mpbBp m + q * g.nb) g.nb

/-! ### Bytes stored -/

/-- Bytes stored one after another at physical addresses: what they leave at an address. -/
def storedAt (xs : List (Nat × List Byte)) (a : Nat) : Option Byte :=
  xs.foldl (fun o y => if y.1 ≤ a ∧ a < y.1 + y.2.length then y.2[a - y.1]? else o) none

/-- Bytes stored one after another in scratchpads; those of the trap area in its page (R287, R425). -/
def State.spStored (s : State) (w : Nat) (xs : List (Lane × List Byte)) : State :=
  xs.foldl (fun s y => if y.1.inTrap then s.trapStore w y.1.pa y.2 else s.spWriteBytes y.1.blk y.1.pa y.2) s

/-! ### Closing words (R145, R346, R489, R490) -/

/-- A closing word performed is credited: the operation that has counted it since its issue, else one numbered [n]; services that it
asked for and its pins are gone (R141, R142, R188, R419). -/
def Warp.credited (w : Warp) (k : Counter) (n : Nat) : Warp :=
  let mark (id : Nat) (o : CntOp) : CntOp := if o.id == id then { o with done := true } else o
  let w := match w.sync with
    | some (j, id) => { (w.setOps j (popDone ((w.ops j).map (mark id)))) with sync := none }
    | none => w.setOps k (popDone (w.ops k ++ [(⟨n, w.region.seq, true⟩ : CntOp)]))
  { w with needs := w.needs.filter fun (y : Need) => y.lanes != 0, pins := [] }

/-- A closing word at issue whose region has committed: nothing is left to wait for, and it is performed. -/
structure Performing (s : State) (x : Issue) : Prop where
  cur : s.cur = some x
  warp : x.w < s.warps.length
  hold : (s.warp x.w).hold = .commit x
  older : (s.warp x.w).older = none
  handed : s.handed x.w = []
  deferred : (s.warp x.w).deferred = none
  step : (s.warp x.w).stepping = false
  known : (s.rec? (s.warp x.w).party).isSome = true

/-- What a closing word performed does besides its effect on bytes: its destinations, its lanes, its counts. With [back] the warp's
committed copies go home; with [adv] it is a synchronisation access, its interval closes and the next one opens 16 cycles later. Of
other warps nothing changes, and beside warps only what the memory system keeps. -/
structure Closes (s t : State) (x : Issue) (ds : List Dest) (back adv : Bool) (g : Warp → Warp := id)
    (dst : Nat → Nat := fun _ => nextPc x.pc) : Prop where
  regs : Wrote (s.warp x.w) (t.warp x.w) ds
  preds : WroteP (s.warp x.w) (t.warp x.w) none
  next : Lands s t x dst
  others : ∀ v, v ≠ x.w → t.warp v = s.warp v
  warp : t.warp x.w = { g (s.warp x.w) with
    vregs := (t.warp x.w).vregs, sregs := (t.warp x.w).sregs, preds := (t.warp x.w).preds, pct := (t.warp x.w).pct
    icount := (t.warp x.w).icount, lastIssue := (t.warp x.w).lastIssue, lastWord := (t.warp x.w).lastWord, stall := 0, hold := .none, bpskip := none, reentering := false
    dirty := if back then (s.warp x.w).dirty.filter (fun d => d.state != .committed) else (g (s.warp x.w)).dirty
    constSeen := if adv then [] else (g (s.warp x.w)).constSeen }
  clock : t.clock = s.clock + if adv then 17 else 1
  interval : ∀ p, (t.intervalOf p).1 =
    if adv = true ∧ p = (s.warp x.w).party then ((s.intervalOf p).1 + 1) % intervalMod else (s.intervalOf p).1
  around : Near { s with warps := t.warps, clock := t.clock, recs := t.recs, nextId := t.nextId } t

/-! ### Words that compute lane by lane (R106, R107, R140, R203) -/

/-- The destinations of an ALU word in the lanes [m]. -/
def Alu.dests (k : Alu) (m : Nat) (val : Nat → Nat) : List Dest := [(m, k.d, k.dn, val), (m, k.e, k.en, fun l => val l >>> (32 * k.dn))]

/-- The predicate that an ALU word writes; a scalar word writes every active lane, with its one value unless it is a compare (R203). -/
def Alu.pred (k : Alu) (x : Issue) (m : Nat) (p : Nat → Bool) : Option PDest :=
  k.pout.map fun q => (predLanes x k.vec m, q, fun l => p (if k.vec || k.laneP then l else (lowLane m).getD 0))

/-- Where nothing stands in the way and no enabled flag is raised, [i] completes: each of its lanes computes [f], and the results
are written at once or stand pending. -/
def Computes (i : Instr) (k : Alu) (f : LaneFn) : Prop :=
  ∀ (s : State) (x : Issue), Calm s x k.foot →
    let m := s.acting x k.g k.vec
    let out := s.laneOut x (srcsFrom 0 k.srcs) f
    let flags := (lanesOf m).map fun l => (l, (out l).flags)
    Quiet s x k.vec flags →
    ∃ t, exec i s = .next t ∧
      if k.pend then Pends s t x k.foot k.vec (k.dests m fun l => (out l).val) (k.pred x m fun l => (out l).p) flags m k.draws
      else Gives s t x k.foot k.vec (k.dests m fun l => (out l).val) (k.pred x m fun l => (out l).p) flags m k.draws

/-! ### Words of lanes working together (R240, R241) -/

/-- Where nothing stands in the way and no enabled flag is raised, [i] completes: of the lanes [m], each receives a value or misses
one, and a predicate; the results are pending (R140). -/
def Shares (i : Instr) (k : Cross) (m : CrossIn → Nat) (val : CrossIn → Nat → Option Nat) (fl : CrossIn → Nat → Nat)
    (p : CrossIn → Nat → Bool) : Prop :=
  ∀ (s : State) (x : Issue), Calm s x k.foot →
    let c := s.crossIn x k
    let flags := (lanesOf (m c)).map fun l => (l, fl c l)
    Quiet s x (!isScalarReg k.d) flags →
    ∃ t, exec i s = .next t ∧
      Pends s t x k.foot (!isScalarReg k.d) [(maskOf fun l => bit (m c) l && (val c l).isSome, k.d, k.dn, fun l => (val c l).getD 0)]
        (k.pout.map fun q => (m c, q, p c)) flags 0 0

/-- A scalar result of [n] registers in the word's one lane: written where the guard passes (R102, R106). -/
def oneDest (s : State) (x : Issue) (g : Guard) (d : Reg) (n v : Nat) : List Dest :=
  if s.acting x g false = 0 then [] else [(1, d, n, fun _ => v)]

end Sys2Proof.Machine
end

