-- ==== Sys2Proof/Certificates/Slice0/Obligations.lean ====
section
/-!
DEFINITION. The statements about the machine that the provers prove.
-/

open Sys2Proof Sys2Proof.Machine

/-! ### Integer words (spec/10) -/

/-- R193 to R197: the arithmetic words complete, each lane's result finished by R193 in its type: the exact value wrapped, or with
saturation clamped with SATF; `hi` and `wide` forms take the product exactly. -/
def Obligations.IntegerArithmetic : Prop :=
  ∀ (g : Guard) (d a b c : Reg) (t : Ty) (sat : Bool),
    Computes (.add g d a b t sat) (aluOf g d t.regs [(a, t), (b, t)]) (fun v _ _ => .of (intOp2 t sat (· + ·) (v 0) (v 1))) ∧
    Computes (.sub g d a b t sat) (aluOf g d t.regs [(a, t), (b, t)]) (fun v _ _ => .of (intOp2 t sat (· - ·) (v 0) (v 1))) ∧
    Computes (.mulLo g d a b t sat) (aluOf g d t.regs [(a, t), (b, t)])
      (fun v _ _ => .of (intFinish t (intVal t (v 0) * intVal t (v 1)) sat)) ∧
    Computes (.mulHi g d a b t) (aluOf g d t.regs [(a, t), (b, t)])
      (fun v _ _ => .val_ (wrap t.width (intVal t (v 0) * intVal t (v 1) / 2 ^ t.width))) ∧
    Computes (.mulWide g d a b t) (aluOf g d 2 [(a, t), (b, t)]) (fun v _ _ => .val_ (wrap 64 (intVal t (v 0) * intVal t (v 1)))) ∧
    Computes (.madLo g d a b c t sat) (aluOf g d t.regs [(a, t), (b, t), (c, t)])
      (fun v _ _ => .of (intFinish t (intVal t (v 0) * intVal t (v 1) + intVal t (v 2)) sat)) ∧
    Computes (.madHi g d a b c t) (aluOf g d t.regs [(a, t), (b, t), (c, t)])
      (fun v _ _ => .of (intFinish t (intVal t (wrap t.width (intVal t (v 0) * intVal t (v 1) / 2 ^ t.width)) + intVal t (v 2)) false)) ∧
    Computes (.madWide g d a b c t) (aluOf g d 2 [(a, t), (b, t), (c, if t.signed then .i64 else .n64)])
      (fun v _ _ => .of (intFinish (if t.signed then .i64 else .n64)
        (intVal t (v 0) * intVal t (v 1) + intVal (if t.signed then .i64 else .n64) (v 2)) false)) ∧
    Computes (.min g d a b t) (aluOf g d t.regs [(a, t), (b, t)])
      (fun v _ _ => .of (intOp2 t false (fun x y => if x ≤ y then x else y) (v 0) (v 1))) ∧
    Computes (.max g d a b t) (aluOf g d t.regs [(a, t), (b, t)])
      (fun v _ _ => .of (intOp2 t false (fun x y => if y ≤ x then x else y) (v 0) (v 1))) ∧
    Computes (.abs g d a t sat) (aluOf g d t.regs [(a, t)]) (fun v _ _ => .of (intOp2 t sat (fun x _ => (x.natAbs : Int)) (v 0) 0)) ∧
    Computes (.neg g d a t sat) (aluOf g d t.regs [(a, t)]) (fun v _ _ => .of (intOp2 t sat (fun x _ => -x) (v 0) 0))

/-- R198 to R207: the bitwise, shift and field words complete with their values, and so do `sel`, `cmp`, the moves, `adda` and `addc`:
`cmp` writes its predicate in every active lane, combined with its old value where the word says so, and `addc` its carry. -/
def Obligations.BitsSelectsAndMoves : Prop :=
  (∀ (g : Guard) (d a b c : Reg) (t : Ty),
     Computes (.and g d a b t) (aluOf g d t.regs [(a, t), (b, t)]) (fun v _ _ => .val_ (v 0 &&& v 1)) ∧
     Computes (.or g d a b t) (aluOf g d t.regs [(a, t), (b, t)]) (fun v _ _ => .val_ (v 0 ||| v 1)) ∧
     Computes (.xor g d a b t) (aluOf g d t.regs [(a, t), (b, t)]) (fun v _ _ => .val_ (v 0 ^^^ v 1)) ∧
     Computes (.not g d a t) (aluOf g d t.regs [(a, t)]) (fun v _ _ => .val_ (2 ^ t.width - 1 - v 0 % 2 ^ t.width)) ∧
     Computes (.shl g d a b t) (aluOf g d t.regs [(a, t), (b, .n32)])
       (fun v _ _ => .val_ (if v 1 < t.width then v 0 * 2 ^ v 1 % 2 ^ t.width else 0)) ∧
     Computes (.shr g d a b t) (aluOf g d t.regs [(a, t), (b, .n32)])
       (fun v _ _ => .val_ (if v 1 < t.width then v 0 / 2 ^ v 1 else 0)) ∧
     Computes (.sha g d a b t) (aluOf g d t.regs [(a, t), (b, .n32)])
       (fun v _ _ => .val_ (wrap t.width
         ((if bit (v 0) (t.width - 1) then (v 0 : Int) - 2 ^ t.width else v 0) / 2 ^ min (v 1) (t.width - 1)))) ∧
     Computes (.rot g d a b t) (aluOf g d t.regs [(a, t), (b, .n32)])
       (fun v _ _ => .val_ (v 0 * 2 ^ (v 1 % t.width) % 2 ^ t.width + v 0 / 2 ^ (t.width - v 1 % t.width))) ∧
     Computes (.bfe g d a b t) (aluOf g d 1 [(a, t), (b, .n32)]) (fun v _ _ => .val_ (bfeVal t (v 0) (v 1))) ∧
     Computes (.bfi g d a b c) (aluOf g d 1 [(a, .b32), (b, .b32), (c, .b32)]) (fun v _ _ => .val_ (bfiVal (v 0) (v 1) (v 2))) ∧
     Computes (.popc g d a t) (aluOf g d 1 [(a, t)]) (fun v _ _ => .val_ ((bitsOf t.width (v 0)).filter id).length) ∧
     Computes (.clz g d a t) (aluOf g d 1 [(a, t)]) (fun v _ _ => .val_ ((bitsOf t.width (v 0)).reverse.takeWhile not).length) ∧
     Computes (.ctz g d a t) (aluOf g d 1 [(a, t)]) (fun v _ _ => .val_ ((bitsOf t.width (v 0)).takeWhile not).length) ∧
     Computes (.brev g d a t) (aluOf g d t.regs [(a, t)]) (fun v _ _ => .val_ (brevVal t.width (v 0))) ∧
     Computes (.bsel g d a b c) (aluOf g d 1 [(a, .b32), (b, .b32), (c, .b32)]) (fun v _ _ => .val_ (bselVal (v 0) (v 1) (v 2)))) ∧
  (∀ (g : Guard) (d a b : Reg) (t : Ty) (p : Fin 8) (neg : Bool) (cond : Cond) (comb : Comb) (imm : BitVec 32) (k : Fin 7)
       (m : CarryMode),
     Computes (.sel g d a b t p neg) { aluOf g d t.regs [(a, t), (b, t)] with pin := [p.val] }
       (fun v q _ => .val_ (if q p.val != neg then v 0 else v 1)) ∧
     Computes (.cmp g p a b t cond comb)
       ⟨g, noReg, 0, noReg, 0, [(a, t), (b, t)], if comb = .none then [] else [p.val], some p.val, true, 0, false⟩
       (fun v q _ =>
         let r := condHolds cond (intVal t (v 0)) (intVal t (v 1))
         ⟨0, 0, match comb with | .none => r | .and => r && q p.val | .or => r || q p.val⟩) ∧
     Computes (.mov g d a t) (aluOf g d t.regs [(a, t)]) (fun v _ _ => .val_ (v 0)) ∧
     Computes (.movi g d imm) (aluOf g d 1 []) (fun _ _ _ => .val_ imm.toNat) ∧
     Computes (.moviS64 g d imm) (aluOf g d 2 []) (fun _ _ _ => .val_ (wrap 64 imm.toInt)) ∧
     Computes (.moviZ64 g d imm) (aluOf g d 2 []) (fun _ _ _ => .val_ imm.toNat) ∧
     Computes (.adda g d a b t k) (aluOf g d 2 [(a, .n64), (b, t)])
       (fun v _ _ => .val_ (wrap 64 ((v 0 : Int) + wrap 64 (intVal t (v 1)) * 2 ^ k.val))) ∧
     Computes (.addc g d a b p m)
       ⟨g, d, 1, noReg, 0, [(a, .n32), (b, .n32)], if carryReads m then [p.val] else [], some p.val, false, 0, false⟩
       (fun v q _ =>
         let c : Int := if carryReads m && q p.val then 1 else 0
         let x : Int := match m with
           | .add | .add0 => (v 0 : Int) + v 1 + c
           | .sub | .sub0 => (v 0 : Int) - v 1 - c
         ⟨wrap 32 x, 0, decide (x < 0 ∨ 2 ^ 32 ≤ x)⟩))

/-! ### Floating point (spec/11, spec/12) -/

/-- R212 to R220, R140: the floating-point words complete: one rounding of the exact result in the type's format with the word's mode,
flags raised with it, a draw taken only in mode `rs`; `fcmp` writes a predicate, `fclass` a class mask; the special functions complete
with their results pending in the scoreboard. Readings of the model itself here: notes/assumptions/8.md. -/
def Obligations.FloatArithmeticAndFunctions : Prop :=
  (∀ (g : Guard) (d a b c : Reg) (t : Ty) (r : Rnd) (sat nan : Bool) (p : Fin 8) (cond : FCond) (comb : Comb),
     let k (srcs : List (Reg × Ty)) : Alu := { aluOf g d t.regs srcs with draws := if r = .rs then 1 else 0 }
     Computes (.fadd g d a b t r sat) (k [(a, t), (b, t)]) (fun v _ u => .of (fAdd (tyFmt t) (fv t (v 0)) (fv t (v 1)) r sat (u 0))) ∧
     Computes (.fsub g d a b t r sat) (k [(a, t), (b, t)])
       (fun v _ u => .of (fAdd (tyFmt t) (fv t (v 0)) (fv t (v 1)).flip r sat (u 0))) ∧
     Computes (.fmul g d a b t r sat) (k [(a, t), (b, t)]) (fun v _ u => .of (fMul (tyFmt t) (fv t (v 0)) (fv t (v 1)) r sat (u 0))) ∧
     Computes (.ffma g d a b c t r sat) (k [(a, t), (b, t), (c, t)])
       (fun v _ u => .of (fFma (tyFmt t) (fv t (v 0)) (fv t (v 1)) (fv t (v 2)) r sat (u 0))) ∧
     Computes (.fmin g d a b t nan) (aluOf g d t.regs [(a, t), (b, t)]) (fun v _ _ => .of (fMinMax (tyFmt t) false nan (v 0) (v 1))) ∧
     Computes (.fmax g d a b t nan) (aluOf g d t.regs [(a, t), (b, t)]) (fun v _ _ => .of (fMinMax (tyFmt t) true nan (v 0) (v 1))) ∧
     Computes (.fcmp g p a b t cond comb)
       ⟨g, noReg, 0, noReg, 0, [(a, t), (b, t)], if comb = .none then [] else [p.val], some p.val, true, 0, false⟩
       (fun v q _ =>
         let r := fCompare (tyFmt t) cond (v 0) (v 1)
         ⟨0, r.2, match comb with | .none => r.1 | .and => r.1 && q p.val | .or => r.1 || q p.val⟩) ∧
     Computes (.fclass g d a t) (aluOf g d 1 [(a, t)]) (fun v _ _ => .val_ (fClass (tyFmt t) (v 0 % 2 ^ t.width))) ∧
     Computes (.frnd g d a t r) (k [(a, t)]) (fun v _ u => .of (fRound (tyFmt t) (v 0) r (u 0))) ∧
     Computes (.fscale g d a b t r sat) (k [(a, t), (b, .i32)])
       (fun v _ u => .of (fScale (tyFmt t) (fv t (v 0)) (intVal .i32 (v 1)) r sat (u 0)))) ∧
  (∀ (g : Guard) (d a : Reg) (t : Ty) (r : Rnd),
     let k (t : Ty) (n : Nat) : Alu := { aluOf g d t.regs [(a, t)] with draws := n, pend := true }
     let n := if r = .rs then 1 else 0
     Computes (.rcp g d a t r) (k t n) (fun v _ u => .of (fRcp (tyFmt t) (fv t (v 0)) r (u 0))) ∧
     Computes (.rsq g d a t) (k t 0) (fun v _ _ => .of (fRsq (tyFmt t) (t == .f64) (v 0))) ∧
     Computes (.sqrt g d a t r) (k t n) (fun v _ u => .of (fSqrt (tyFmt t) (fv t (v 0)) r (u 0))) ∧
     Computes (.ex2 g d a) (k .f32 0) (fun v _ _ => .of (fEx2 (v 0))) ∧
     Computes (.lg2 g d a) (k .f32 0) (fun v _ _ => .of (fLg2 (v 0))) ∧
     Computes (.sin g d a) (k .f32 0) (fun v _ _ => .of (fSin (v 0))) ∧
     Computes (.cos g d a) (k .f32 0) (fun v _ _ => .of (fCos (v 0))) ∧
     Computes (.tanh g d a) (k .f32 0) (fun v _ _ => .of (fTanh (v 0))))

/-- R221, R227 to R238: the packed words, the conversions, packing and the packed dot products complete; `cvtef` writes the value and
its residual. Readings of the model itself here: notes/assumptions/106.md. -/
def Obligations.PackedAndConverted : Prop :=
  ∀ (g : Guard) (d e a b c : Reg) (t dt st : Ty) (j : Fin 8) (r : Rnd) (sat : Bool),
    let two (srcs : List (Reg × Ty)) : Alu := { aluOf g d 1 srcs with draws := if r = .rs then 2 else 0 }
    let one (srcs : List (Reg × Ty)) : Alu := { aluOf g d 1 srcs with draws := if r = .rs then 1 else 0 }
    Computes (.hfma2 g d a b c t r sat) (two [(a, t), (b, t), (c, t)])
      (fun v _ u => .of (joinElems t ([0, 1].map fun i => fFma (tyFmt t) (fe t i (v 0)) (fe t i (v 1)) (fe t i (v 2)) r sat (u i)))) ∧
    Computes (.hadd2 g d a b t r sat) (two [(a, t), (b, t)])
      (fun v _ u => .of (joinElems t ([0, 1].map fun i => fAdd (tyFmt t) (fe t i (v 0)) (fe t i (v 1)) r sat (u i)))) ∧
    Computes (.hmul2 g d a b t r sat) (two [(a, t), (b, t)])
      (fun v _ u => .of (joinElems t ([0, 1].map fun i => fMul (tyFmt t) (fe t i (v 0)) (fe t i (v 1)) r sat (u i)))) ∧
    Computes (.cvt g d a dt st j r sat)
      { aluOf g d dt.regs [(a, st)] with draws := if (dt.isInt && st.isInt) || (dt.isFloat && st.isFloat && decide (st.width < dt.width)) then 0 else if r = .rs then 1 else 0 }
      (fun v _ u => .of (convert dt st (if st.perReg = 1 then v 0 else elem st j.val (v 0)) r sat (u 0))) ∧
    ((Instr.cvtef g d e a dt st r sat).wf = true →
      Computes (.cvtef g d e a dt st r sat) { one [(a, st)] with e := e, en := st.regs }
        (fun v _ u =>
          let y := convertResidual dt st (v 0) r sat (u 0)
          ⟨y.1 % 2 ^ 32 + 2 ^ 32 * y.2.1, y.2.2, false⟩)) ∧
    Computes (.pack g d a dt st r sat)
      { aluOf g d 1 ((List.range dt.perReg).map fun i => (regAdd a i, st)) with
        draws := if dt.isInt then 0 else if r = .rs then dt.perReg else 0 }
      (fun v _ u => .of (joinElems dt ((List.range dt.perReg).map fun i => convert dt st (v i) r sat (u i)))) ∧
    Computes (.unpk g d a dt st) (aluOf g d st.perReg [(a, st)])
      (fun v _ _ => .of (joinElems .b32 ((List.range st.perReg).map fun i => convert dt st (elem st i (v 0)) .rn false 0))) ∧
    (st.isInt = true → Computes (.dot4 g d a b c st r sat) (aluOf g d 1 [(a, st), (b, st), (c, if st.signed then .i32 else .n32)])
      (fun v _ _ => .of (dotInt st (v 0) (v 1) (v 2) sat))) ∧
    (st.isInt = false → Computes (.dot4 g d a b c st r sat) (one [(a, st), (b, st), (c, .f32)])
      (fun v _ u => .of (dotFloat st (v 0) (v 1) (v 2) r sat (u 0)))) ∧
    Computes (.dot8 g d a b c r sat) (one [(a, .e2m1), (b, .e2m1), (c, .f32)])
      (fun v _ u => .of (dotFloat .e2m1 (v 0) (v 1) (v 2) r sat (u 0)))

/-! ### Lanes working together (spec/13) -/

/-- R240 to R254: the cross-lane words complete: each contributing lane receives what its tile's contributing or voting lanes give; a
scalar destination takes the tile of the lowest voting lane, for a vote or a reduction with no contributing lane that of an empty set. Readings of the model itself here: notes/assumptions/14.md. -/
def Obligations.CrossLaneWords : Prop :=
  ∀ (g : Guard) (d a b : Reg) (t : Ty) (p q : Fin 8) (qn : Bool) (sm : ShflMode) (ok : Option (Fin 8)) (op : RedOp) (r : Rnd)
      (sat excl fp : Bool) (qm : QuadMode) (j : Fin 4),
    let all : CrossIn → Nat := fun c => c.con
    let low : CrossIn → Nat := fun c => if isScalarReg d then (if bit c.con c.low then 2 ^ c.low else 0) else c.con
    let one : CrossIn → Nat := fun c => if isScalarReg d then (if c.off then 0 else 2 ^ c.low) else c.con
    let none_ : CrossIn → Nat → Nat := fun _ _ => 0
    let no : CrossIn → Nat → Bool := fun _ _ => false
    let quiet : CrossIn → Nat → Option Nat := fun _ _ => none
    (isScalarReg d = false → Shares (.shfl g sm d a b t ok) (shflOp g d a b t ok) all
      (fun c l => (shflLane sm c.width l (c.src 1 l)).bind fun k => if bit c.con k then some (c.src 0 k) else none) none_
      (fun c l => match shflLane sm c.width l (c.src 1 l) with | some k => bit c.con k | none => false)) ∧
    Shares (.voteSome g p q qn) (voteOp g p q) all quiet none_ (fun c l => c.vBits q.val qn l != 0) ∧
    Shares (.voteEvery g p q qn) (voteOp g p q) all quiet none_ (fun c l => mDiff (c.votes l) (c.vBits q.val qn l) == 0) ∧
    Shares (.voteSame g p a t) (sameOp g p a t) all quiet none_
      (fun c l => match lanesOf (c.votes l) with | [] => true | k :: r => r.all fun m => c.src 0 m == c.src 0 k) ∧
    Shares (.voteBits g d q qn) (countVoteOp g d q) one (fun c l => some (c.vBits q.val qn l)) none_ no ∧
    Shares (.voteCnt g d q qn) (countVoteOp g d q) one (fun c l => some (popc (c.vBits q.val qn l))) none_ no ∧
    Shares (.redux g op d a t r sat) (reduxOp g d a t) one
      (fun c l => some (reduce op t ((lanesOf (c.votes l)).map (c.src 0)) r sat).1)
      (fun c l => if (lanesOf (c.votes l)).head? == some l then (reduce op t ((lanesOf (c.votes l)).map (c.src 0)) r sat).2 else 0) no ∧
    (isScalarReg d = false → Shares (.scan g op d a t excl r sat) (reduxOp g d a t) all
      (fun c l => some (reduce op t
        (((lanesOf (c.votes l)).filter fun k => if excl then decide (k < l) else decide (k ≤ l)).map (c.src 0)) r sat).1)
      (fun c l => (reduce op t
        (((lanesOf (c.votes l)).filter fun k => if excl then decide (k < l) else decide (k ≤ l)).map (c.src 0)) r sat).2) no) ∧
    (isScalarReg d = false → Shares (.matchAny g d a t fp) (matchAnyOp g d a t) all
      (fun c l => some (if bit c.vote l then c.matches_ t fp l else 0)) none_ no) ∧
    (isScalarReg d = false → Shares (.matchAll g d p a t fp) (matchAllOp g d p a t) all
      (fun c l => some (if ((lanesOf (c.votes l)).all fun k => c.matches_ t fp k == c.votes l) && bit c.vote l then c.votes l else 0)) none_
      (fun c l => ((lanesOf (c.votes l)).all fun k => c.matches_ t fp k == c.votes l) && c.votes l != 0)) ∧
    (isScalarReg d = false → Shares (.qswp g qm d a t) (quadOp g d a t) all
      (fun c l => some (c.src 0 (if bit c.con (qswpLane qm l) then qswpLane qm l else l))) none_ no) ∧
    (isScalarReg d = false → Shares (.qbc g d a t j) (quadOp g d a t) all
      (fun c l => some (c.src 0 (if bit c.con (l / 4 * 4 + j.val) then l / 4 * 4 + j.val else l))) none_ no) ∧
    Shares (.rdfst g d a t) (quadOp g d a t) low (fun c _ => some (c.src 0 c.low)) none_ no ∧
    (isScalarReg d = false → Shares (.elect g d p) (electOp g d p) all
      (fun c l => some ((lowLane (c.votes l)).getD 32)) none_ (fun c l => lowLane (c.votes l) == some l))

/-! ### Pair words, block quantisation and random draws -/

/-- R117 to R123, R140: a pair word completes: both slots read their sources from before it and write their destinations, each in the
lanes its guard admits; with a special function in slot B the whole word is pending. -/
def Obligations.PairWords : Prop :=
  ∀ (y z : Slot) (s : State) (x : Issue), Calm s x (pairFoot y z) →
    let val (k : Slot) (i l : Nat) : Nat × Nat := slotVal k (if k.op.unary then 0 else s.src x ⟨slotReg k.d, .b32, i⟩ l)
      (s.src x ⟨slotReg k.a, .b32, if k.op.unary then i else i + 1⟩ l)
    let flags (k : Slot) (i : Nat) : List (Nat × Nat) :=
      if k.op = .nop then []
      else ((lanesOf (s.slotLanes x k)).filter fun l => !(slotVec k && bit (s.warp x.w).allHelpers l)).map fun l => (l, (val k i l).2)
    let dest (k : Slot) (i : Nat) : Dest := (s.slotLanes x k, slotReg k.d, if k.op = .nop then 0 else 1, fun l => (val k i l).1)
    let j := if y.op = .nop then 0 else if y.op.unary then 1 else 2
    Quiet s x false (flags y 0 ++ flags z j) →
    ∃ t, exec (.pairWord y z) s = .next t ∧
      if slotPending z.op then
        Pends s t x (pairFoot y z) false [dest y 0, dest z j] none (flags y 0 ++ flags z j) 0 0
      else Gives s t x (pairFoot y z) false [dest y 0, dest z j] none (flags y 0 ++ flags z j) 0 0

/-- R232 to R234, R52, R182, R183: `cvtmx` scales the block of its lanes that are no helpers by the launch's format slot and leaves the
narrowed values and, whatever lanes pass, the scale pending; `cvtmx.acc` adds its lanes to the histogram, `cvtmx.rep` writes the scale of the histogram,
`cvtmx.clr` empties it. The `rng` words complete: each acting lane writes its next draws of the word's stream and consumes them. -/
def Obligations.QuantisationAndDraws : Prop :=
  (∀ (g : Guard) (d sc a : Reg) (el : Ty) (k : Fin 8) (y : SlotWord) (s : State) (x : Issue),
     let val (l : Nat) : FVal := decFloat fmtF32 (s.src x ⟨a, .f32, 0⟩ l)
     let act := s.passing x g
     let blk := mDiff act (s.warp x.w).allHelpers
     ((Instr.cvtmx g d sc a el k).wf = true → s.slotFor x el k.val = some y → Calm s x (cvtmxFoot g d sc a) →
       let scale := if y.scale = 1 then blockScale ((lanesOf blk).map val) y.hist y.pct (emaxOf y.elem) else 0x7F
       let q (l : Nat) : Nat × Nat := narrowSlot (val l) y scale (s.drawWord x l y.stream 0)
       let flags := (if y.scale == 1 && scale == 0xFF && act != 0 then [((lowLane blk).getD 0, flNV)] else []) ++
         (lanesOf act).map fun l => (l, (q l).2)
       Quiet s x true flags →
       ∃ t, exec (.cvtmx g d sc a el k) s = .next t ∧
         Pends s t x (cvtmxFoot g d sc a) true
           [(act, d, 1, fun l => (q l).1), (if guardNever g then 0 else 1, sc, 1, fun _ => scale)] none flags act (if y.rnd = .rs then 1 else 0)) ∧
     (Calm s x (foot (guardIds g ++ regIds 1 a) []) →
       ∃ t, exec (.cvtmxAcc g a) s = .next t ∧
         Gives s t x (foot (guardIds g ++ regIds 1 a) []) false [] none [] 0 0 fun w =>
           { w with hist := ((lanesOf blk).foldl (fun h l => histAdd h (val l)) (w.hist, w.nonfin)).1
                    nonfin := ((lanesOf blk).foldl (fun h l => histAdd h (val l)) (w.hist, w.nonfin)).2 }) ∧
     (s.slotFor x el k.val = some y → Calm s x (foot (guardIds g) (regIds 1 d)) →
       ∃ t, exec (.cvtmxRep g d el k) s = .next t ∧
         Gives s t x (foot (guardIds g) (regIds 1 d)) false (oneDest s x g d 1 (histScale (s.warp x.w).hist (s.warp x.w).nonfin y)) none
           [] 0 0) ∧
     (Calm s x (foot (guardIds g) []) →
       ∃ t, exec (.cvtmxClr g) s = .next t ∧
         Gives s t x (foot (guardIds g) []) false [] none [] 0 0 fun w =>
           if s.acting x g false = 0 then w else { w with hist := [], nonfin := false })) ∧
  (∀ (g : Guard) (d : Reg) (k : Fin 4) (s : State) (x : Issue),
     let act := s.acting x g d.isVector
     let draw (l n : Nat) : Nat := s.drawWord x l k.val n
     (Calm s x (foot (guardIds g) (regIds 1 d)) →
       (∃ t, exec (.rng g d k) s = .next t ∧
         Gives s t x (foot (guardIds g) (regIds 1 d)) d.isVector [(act, d, 1, fun l => draw l 0)] none [] act 1) ∧
       ∃ t, exec (.rngF32 g d k) s = .next t ∧
         Gives s t x (foot (guardIds g) (regIds 1 d)) d.isVector [(act, d, 1, fun l => rngFloat (draw l 0))] none [] act 1) ∧
     (Calm s x (foot (guardIds g) (regIds 4 d)) →
       ∃ t, exec (.rngX4 g d k) s = .next t ∧
         Gives s t x (foot (guardIds g) (regIds 4 d)) d.isVector
           [(act, d, 4, fun l => draw l 0 + draw l 1 * 2 ^ 32 + draw l 2 * 2 ^ 64 + draw l 3 * 2 ^ 96)] none [] act 4))

/-! ### Words that read or mark their warp (spec/08, spec/09, spec/15) -/

/-- R175, R176, R179, R184 to R187, R255, R256, R292, R293, R341, R398: the words that read a register of the warp, a lane mask or an
entry of the scratchpad map complete with that value; `part` sets the partition width. The words that only mark their region complete;
what they ask for stands in the region until it commits; `region begin` ends its region, and `nop` does nothing. -/
def Obligations.WarpReadsAndMarks : Prop :=
  (∀ (g : Guard) (d a : Reg) (kind : MaskKind) (w : Fin 5) (n : BitVec 12) (m : BitVec 8) (s : State) (x : Issue),
     let part := (s.warp x.w).part
     (Calm s x (foot (guardIds g) []) →
       ∃ t, exec (.part g w) s = .next t ∧ Gives s t x (foot (guardIds g) []) false [] none [] 0 0 fun y =>
         if s.acting x g false = 0 then y else { y with part := 2 ^ (w.val + 1) }) ∧
     (let k := aluOf g d 1 [(.sp .lane, .n32)]
      Calm s x k.foot → ∃ t, exec (.lmask g kind d) s = .next t ∧
       Gives s t x k.foot k.vec (k.dests (s.acting x g k.vec) fun l => lmaskVal kind (s.src x ⟨.sp .lane, .n32, 0⟩ l) part) none
         ((lanesOf (s.acting x g k.vec)).map fun l => (l, 0)) (s.acting x g k.vec) 0) ∧
     (Calm s x (foot (guardIds g) (regIds 1 d)) →
       (∃ t, exec (.sysRd g d n) s = .next t ∧
         Gives s t x (foot (guardIds g) (regIds 1 d)) false
           [(s.acting x g d.isVector, d, 1, fun l => s.sysReg x.w n.toNat l)] none [] 0 0) ∧
       (∃ t, exec (.regionQuery g d) s = .next t ∧
         Gives s t x (foot (guardIds g) (regIds 1 d)) false (oneDest s x g d 1 (s.warp x.w).regionWord) none [] 0 0) ∧
       ∃ t, exec (.mstatErr g d) s = .next t ∧
         Gives s t x (foot (guardIds g) (regIds 1 d)) false (oneDest s x g d 1 (s.warp x.w).mstatWord) none [] 0 0) ∧
     (Calm s x (foot (guardIds g ++ regIds 1 a) (regIds 1 d)) →
       ∃ t, exec (.spmapQuery g d a) s = .next t ∧
         Gives s t x (foot (guardIds g ++ regIds 1 a) (regIds 1 d)) false
           (oneDest s x g d 1 (if s.src x ⟨a, .n32, 0⟩ 0 < (s.launchOf x.w).sppages then
             (s.spEntry (s.warp x.w).block (s.src x ⟨a, .n32, 0⟩ 0)).word else 0)) none [] 0 0) ∧
     (let f : Foot := { foot (guardIds g) (regIds 1 d) with priv := true }
      Calm s x f →
       ∃ t, exec (.finfo g d m) s = .next t ∧
         Gives s t x f false (oneDest s x g d 1 (frameItem (s.trapDword x.w) m.toNat)) none [] 0 0)) ∧
  (∀ (g : Guard) (a : Reg) (n : Fin 64) (m : BitVec 16) (s : State) (x : Issue),
     let f := foot (guardIds g) []
     let on := s.acting x g false ≠ 0
     let r := (s.warp x.w).region
     (Calm s x f →
       (∃ t, exec (.nop g) s = .next t ∧ Gives s t x f false [] none [] 0 0) ∧
       (∃ t, exec (.perfClr g n) s = .next t ∧ Gives s t x f false [] none [] 0 0 ∧
         (on → (t.warp x.w).region.clears = r.clears ++ [n.val])) ∧
       (∃ t, exec (.odone g) s = .next t ∧ Gives s t x f false [] none [] 0 0 ∧ (on → (t.warp x.w).region.odone = true)) ∧
       (∃ t, exec (.mstatClr g) s = .next t ∧ Gives s t x f false [] none [] 0 0 ∧ (on → (t.warp x.w).region.mclear = true)) ∧
       (s.lateStop x x.active = none → ∃ t, exec (.spmapFlush g) s = .next t ∧ Gives s t x f false [] none [] 0 0 ∧
         (on → (t.warp x.w).region.flush = some x.pc)) ∧
       (Fresh s x.w → (s.warp x.w).older = none → ∃ t, exec (.regionBegin g) s = .next t ∧ Apart s t x True id ∧
         Lands s t x fun _ => nextPc x.pc)) ∧
     (Calm s x (foot (guardIds g ++ regIds 1 a) []) →
       ∃ t, exec (.tmark g m a) s = .next t ∧ Gives s t x (foot (guardIds g ++ regIds 1 a) []) false [] none [] 0 0 ∧
         (on → (t.warp x.w).region.recs = r.recs ++ [(0, m.toNat, s.src x ⟨a, .n32, 0⟩ 0, 0)])))

/-! ### Control (spec/09) -/

/-- R163 to R168, R415, R416: the branches complete: lanes that take one stand at its target, the others at the next word; a taken branch
is folded into the path signature where the launch asks for it and noted in the region of an armed block; `call` writes its return
address. Targets of `brx` and `ret` are words inside the address space. -/
def Obligations.ControlFlow : Prop :=
  ∀ (g : Guard) (d a : Reg) (off : BitVec 30) (s : State) (x : Issue),
    let pass := s.passing x g
    let target := wrap 64 ((x.pc : Int) + 8 * off.toInt)
    let src (l : Nat) : Nat := s.src x ⟨a, .n64, 0⟩ l
    let goes (m : Nat) (l : Nat) : Nat := if bit m l then target else nextPc x.pc
    let signed (m : Nat) (w : Warp) : Warp := if mAnd m x.mask ≠ 0 ∧ (s.launchOf x.w).sigOn = true then
      { w with sig := crcBytes w.sig (byteList 8 x.pc ++ byteList 4 m) } else w
    let noted (m : Nat) (t : State) : Prop := mAnd m x.mask ≠ 0 → (s.launchOf x.w).armed.contains (s.blockOf x.w).lin = true →
      (t.warp x.w).region.recs = (s.warp x.w).region.recs ++ [(1, x.pc, m, (s.warp x.w).icount)]
    (let f := foot (guardIds g) []
     let one := match lowLane (mDiff pass (s.warp x.w).allHelpers) with | some l => 2 ^ l | none => 0
     Calm s x f →
      (∃ t, exec (.bra g off) s = .next t ∧ Gives s t x f false [] none [] 0 0 (signed pass) (goes pass) ∧ noted pass t) ∧
      ∃ t, exec (.electBr g off) s = .next t ∧ Gives s t x f false [] none [] 0 0 (signed one) (goes one) ∧ noted one t) ∧
    (let f := foot (guardIds g ++ regIds 2 a) []
     let away := maskOf fun l => bit pass l && src l != nextPc x.pc
     let dst (l : Nat) : Nat := if bit pass l then src l else nextPc x.pc
     Calm s x f → (∀ l, l < 32 → bit pass l = true → bit x.mask l = true → src l % 8 = 0 ∧ canonical (src l) = true) →
      (∃ t, exec (.brx g a) s = .next t ∧ Gives s t x f false [] none [] 0 0 (signed away) dst ∧ noted away t) ∧
      ∃ t, exec (.ret g a) s = .next t ∧ Gives s t x f false [] none [] 0 0 (signed away) dst ∧ noted away t) ∧
    (let f := foot (guardIds g) (regIds 2 d)
     let act := s.acting x g d.isVector
     let m := if d.isVector then act else if act = 0 then 0 else x.active
     Calm s x f → ¬ Alone s x f →
      ∃ t, exec (.call g d off) s = .next t ∧
        Gives s t x f false [(act, d, 2, fun _ => nextPc x.pc)] none [] 0 0 (signed m) (goes m) ∧ noted m t)

/-! ### Waits within a warp (spec/07, spec/09) -/

/-- R177, R181, R134, R174: `wait` goes on where the counters are at most what it asks, or nothing passes, and else leaves everything as
it is and holds its warp; `sleep` keeps the warp from issuing for a number of cycles. `rcv.set` sets what a barrier expects, clears what
has arrived and leaves no lane waiting there, unless its guard never passes (R36); `rcv.wait` adds its lanes: when those arrived and those exited cover what is expected, all
are released and the barrier is empty, else those expected wait. -/
def Obligations.WaitsWithinAWarp : Prop :=
  (∀ (g : Guard) (a : Reg) (l k c n : BitVec 4) (s : State) (x : Issue),
     let on := s.acting x g false ≠ 0
     let met := (s.warp x.w).atMost .l l = true ∧ (s.warp x.w).atMost .s k = true ∧ (s.warp x.w).atMost .c c = true ∧ (s.warp x.w).atMost .t n = true
     (let f := foot (guardIds g) []
      Calm s x f →
       ((on → met) → ∃ t, exec (.wait g l k c n) s = .next t ∧ Gives s t x f false [] none [] 0 0) ∧
       (on → ¬ met → ∃ t, exec (.wait g l k c n) s = .next t ∧ t.clock = s.clock ∧ (∀ v, v ≠ x.w → t.warp v = s.warp v) ∧
         t.warp x.w = { s.warp x.w with
           stall := 2, firstIssue := (t.warp x.w).firstIssue, region := { (s.warp x.w).region with
             entry := (t.warp x.w).region.entry, inTrap := (t.warp x.w).region.inTrap } })) ∧
     (let f := foot (guardIds g ++ regIds 1 a) []
      let cycles := s.src x ⟨a, .n32, 0⟩ 0
      Calm s x f → ∃ t, exec (.sleep g a) s = .next t ∧ Gives s t x f false [] none [] 0 0 fun w =>
        if on ∧ cycles ≠ 0 then { w with hold := .sleep (s.clock + cycles) x } else w)) ∧
  (∀ (g : Guard) (b : Fin 8) (s : State) (x : Issue),
     let f := foot (guardIds g) []
     let w := s.warp x.w
     let m := mAnd (s.passing x g) x.mask
     let r := w.rcvAt b.val
     let arr := mOr r.arr m
     let whole := (r.exp ≠ 0 ∨ arr ≠ 0) ∧ mDiff (mDiff r.exp arr) w.exited = 0
     b.val < w.rcv.length → Calm s x f →
     (∃ t, exec (.rcvSet g b) s = .next t ∧
       Gives s t x f false [] none [] 0 0 (fun y => if guardNever g then y else { y with rcv := y.rcv.set b.val ⟨m, 0⟩ }) ∧
       (guardNever g = false → ∀ e ∈ (t.warp x.w).pct, e.state = .waiting → e.on ≠ .rcv b.val)) ∧
     ∃ t, exec (.rcvWait g b) s = .next t ∧
       Apart s t x False (fun y => { y with rcv := y.rcv.set b.val (if whole then ⟨0, 0⟩ else ⟨r.exp, arr⟩) }) ∧
       Wrote w (t.warp x.w) [] ∧ WroteP w (t.warp x.w) none ∧ (t.warp x.w).fpstat = w.fpstat ∧
       (∀ l, l < 32 → bit x.mask l = true → bit w.live l = true →
         if bit m l = true ∧ bit r.exp l = true ∧ ¬ whole then (t.warp x.w).waitsAt l (nextPc x.pc) (.rcv b.val)
         else (t.warp x.w).standsAt l (nextPc x.pc)) ∧
       (whole → ∀ e ∈ (t.warp x.w).pct, e.state = .waiting → e.on ≠ .rcv b.val))

/-! ### Words that reach beside their warp -/

/-- R184, R295, R296, R387: `perf.rd` reads a counter of the warp's interface; `resid.bind` binds a range to a handle where it is in order
and the quota holds it, `resid.unbind` frees a handle; `fence.path` empties the constant cache and the fetched words that it names. -/
def Obligations.CountersHandlesAndPaths : Prop :=
  ∀ (g : Guard) (d a b : Reg) (n : Fin 64) (h : BitVec 8) (p : Fin 8) (const fetch : Bool) (s : State) (x : Issue),
    let v := (s.warp x.w).vi
    let on := s.acting x g false ≠ 0
    (let f := foot (guardIds g) (regIds 2 d)
     Calm s x f → Live s x.w → ∃ t, exec (.perfRd g d n) s = .next t ∧
      Gives s t x f false [(s.acting x g d.isVector, d, 2, fun _ => s.perfRead v n.val)] none [] 0 0) ∧
    (let f := foot (guardIds g ++ (regIds 2 a ++ regIds 2 b)) (regIds 1 d)
     let base := s.src x ⟨a, .n64, 0⟩ 0
     let len := s.src x ⟨b, .n64, 2⟩ 0
     let others := (s.vi v).handles.foldl (fun (t : Nat) y => if y.1 = h.toNat then t else t + y.2.len) 0
     let status := if bindOk base len = false then 2 else if (s.vi v).cfg.resq < others + len then 1 else 0
     Calm s x f → Live s x.w → v < s.vis.length → ∃ m t, exec (.residBind g d a b h p) s = .next t ∧ Near s m ∧ SameBytes s m ∧
      Gives m t x f false (oneDest s x g d 1 status) none [] 0 0 ∧
      ∀ k, (m.vi k).handles = if k = v ∧ on ∧ status = 0 then sins (sdel (s.vi v).handles h.toNat) h.toNat ⟨base, len, p.val⟩ else (s.vi k).handles) ∧
    (let f := foot (guardIds g) (regIds 1 d)
     Calm s x f → Live s x.w → v < s.vis.length → ∃ m t, exec (.residUnbind g d h) s = .next t ∧ Near s m ∧ SameBytes s m ∧
      Gives m t x f false (oneDest s x g d 1 0) none [] 0 0 ∧
      ∀ k, (m.vi k).handles = if k = v ∧ on then sdel (s.vi v).handles h.toNat else (s.vi k).handles) ∧
    (let f := foot (guardIds g) []
     let c := (s.blockOf x.w).core
     Calm s x f → ∃ m t, exec (.fencePath g const fetch) s = .next t ∧ Near s m ∧ SameBytes s m ∧
      Gives m t x f false [] none [] 0 0 (fun w => if on ∧ fetch = true then { w with fbuf := [] } else w) ∧
      (on → const = true → (m.core c).cc = []) ∧ (on → fetch = true → (m.core c).ic = []))

/-- R290, R291: the prefetch words complete: the lines that their lanes name and may read come into the L2, where their slices have room,
with `pref.l1` also as clean copies into the core's L1, where their sets have room; what `pref.evict` names stands in its region until that
commits. No byte changes. -/
def Obligations.Prefetches : Prop :=
  ∀ (g : Guard) (base : MemBase) (off : BitVec 24) (s : State) (x : Issue),
    let f := foot (guardIds g ++ baseIds base) []
    let b := s.begin_ x.w
    let core := (s.blockOf x.w).core
    let ls := s.memLanes x g (isVec noReg [baseReg base])
    let found := b.prefLines x base off ls
    let lines := found.1
    let inL2 (m : State) : Prop :=
      (∀ y ∈ lines, (s.l2.filter fun e => lineSlice e.line == lineSlice y.2).length + lines.length ≤ Config.sliceLines) →
      ∀ y ∈ lines, ∃ e ∈ m.l2, e.line = y.2
    let inL1 (m : State) : Prop := ∀ y ∈ lines, core < s.cores.length →
      s.waysUsed core (l1Set y.2) + (s.committedIn core (l1Set y.2)).length + (lines.filter fun z => l1Set z.2 == l1Set y.2).length ≤ Config.l1Ways →
      ((m.coreOf x.w).cleanAt (s.warp x.w).vi y.2).isSome = true
    Calm s x f →
      ((lines = [] ∨ s.portShort x.w = false) → found.2.afterEvict x.w (lines.map Prod.snd) = none →
        (Roomy s core 1 → ∃ m t, exec (.prefL1 g base off) s = .next t ∧ Near s m ∧ SameBytes s m ∧ Gives m t x f false [] none [] 0 0 ∧
          inL2 m ∧ inL1 m) ∧
        ∃ m t, exec (.prefL2 g base off) s = .next t ∧ Near s m ∧ SameBytes s m ∧ Gives m t x f false [] none [] 0 0 ∧ inL2 m) ∧
      ∃ m t, exec (.prefEvict g base off) s = .next t ∧ Near s m ∧ SameBytes s m ∧ Gives m t x f false [] none [] 0 0 ∧
        (t.warp x.w).region.evicts = (s.warp x.w).region.evicts ++ (b.prefLines x base off (ls.filter fun y => !y.2)).1.map Prod.fst

/-! ### Loads and stores (spec/15) -/

/-- R277 to R280, R289, R139: `ld` and `ldc` complete where every lane that is no helper translates and meets no mark or poison, and
their homes, their port and their L1 sets have room: each lane's registers are pending with the bytes at its address as the warp reads them, a helper lane's with the same or 0; no byte changes. -/
def Obligations.GlobalLoads : Prop :=
  ∀ (g : Guard) (d : Reg) (base : MemBase) (off : BitVec 24) (z : Size) (hint const : Bool) (s : State) (x : Issue),
    let k : LoadW := ⟨g, d, base, off, z, hint && !const, const⟩
    let ls := s.memLanes x g k.vec
    let look (s : State) (y : Nat × Bool) : Look × State := s.lookGlobal x.w y (s.ea x (baseReg base) off 64 y.1) z.bytes .read false
    let own := (s.begin_ x.w).lookAll (ls.filter fun y => !y.2) look
    let help := own.2.lookAll (ls.filter fun y => y.2) look
    let u := help.2
    let mem := (own.1.filterMap Look.lane?).filter fun a => !u.onCounters x.w a.va
    let all := (own.1 ++ help.1).filterMap Look.lane?
    let val (l : Nat) : Nat := match all.find? fun a => a.lane == l with
      | some a => if ls.contains (l, true) && u.poisonedLoad x.w const z.bytes a then 0 else u.loadValue x.w k a
      | none => 0
    let i : Instr := if const then .ldc g d base off z else .ld g d base off z hint
    let q : Nat × Nat := (s.nextId, (s.warp x.w).region.seq)
    let asked := if const then u.constAsked x.w z.bytes mem
      else u.askedLines x.w (mem.flatMap fun a => a.bytes z.bytes) (mem.flatMap fun a => u.loadMarks x.w false z.bytes mem a)
    Calm s x k.foot → (s.warp x.w).roomIn .l = true → (∀ y ∈ own.1, y.lane?.isSome = true) →
    u.afterEvict x.w (mem.map fun a => a.pa / 64) = none →
    (s.secondary x.w = true ∨
      (u.globalConflicts x.w (u.access x.w .data false) none (mem.map fun a => (a, u.loadMarks x.w const z.bytes mem a)) = [] ∧
        u.homesWait x.w (asked.map fun l => 64 * l) = false)) →
    (∀ a ∈ mem, u.poisonedLoad x.w const z.bytes a = false) → (asked = [] ∨ s.portShort x.w = false) →
    (const = true ∨ hint = true ∨ Roomy s (s.blockOf x.w).core 1) →
    ∃ m t, exec i s = .next t ∧ Near s m ∧ SameBytes s m ∧
      let g' (w : Warp) : Warp := { w with
        opsL := popDone (w.opsL ++ [⟨q.1, q.2, ls.isEmpty⟩]), constSeen := if const then (t.warp x.w).constSeen else w.constSeen }
      if ls = [] then Acts m t x k.foot k.vec [] 0 0 g' (fun _ => nextPc x.pc) ∧ Wrote (s.warp x.w) (t.warp x.w) [] ∧
        WroteP (s.warp x.w) (t.warp x.w) none ∧ (t.warp x.w).pend = (s.warp x.w).pend
      else Pends m t x k.foot k.vec [(laneMask (ls.map Prod.fst), d, z.regs, val)] none [] 0 0 g'

/-- R286, R287, R139: `ldsp` and `ldsp.cnt` complete where every lane that is no helper reaches a present page and meets no mark or
poison: each lane's registers are pending with the bytes at its offset; no byte changes. -/
def Obligations.ScratchpadLoads : Prop :=
  ∀ (g : Guard) (d base : Reg) (off : BitVec 24) (rmt : Bool) (z : Size) (cnt : Bool) (s : State) (x : Issue),
    let k : SpLoadW := ⟨g, d, base, off, rmt, if cnt then .b32 else z, cnt⟩
    let b := s.begin_ x.w
    let ls := s.memLanes x g k.vec
    let looks := b.spLooks x g k.vec base off k.size.bytes rmt (!cnt) false
    let all := looks.1.filterMap Look.lane?
    let live := (all.filter fun a => !a.inTrap).map fun a => (a, k.size.bytes)
    let val (l : Nat) : Nat :=
      (((b.spValues x.w k.size ls all (looks.2.filterMap Look.lane?)).find? fun y => y.1 == l).map Prod.snd).getD 0
    let i : Instr := if cnt then .ldspCnt g d base off rmt else .ldsp g d base off rmt z
    Calm s x k.foot → (s.warp x.w).roomIn .l = true → (∀ y ∈ looks.1, y.lane?.isSome = true) → b.spHeld live = false →
    b.spConflicts x.w (spClass cnt) false live = [] → (∀ y ∈ live, b.spPoison k.size.bytes y.1 = false) →
    ∃ m t, exec i s = .next t ∧ Near s m ∧ SameBytes s m ∧
      let g' (w : Warp) : Warp := { w with opsL := popDone (w.opsL ++ [⟨s.nextId, w.region.seq, ls.isEmpty⟩]) }
      if ls = [] then Acts m t x k.foot k.vec [] 0 0 g' (fun _ => nextPc x.pc) ∧ Wrote (s.warp x.w) (t.warp x.w) [] ∧
        WroteP (s.warp x.w) (t.warp x.w) none ∧ (t.warp x.w).pend = (s.warp x.w).pend
      else Pends m t x k.foot k.vec [(laneMask (ls.map Prod.fst), d, k.size.regs, val)] none [] 0 0 g'

/-- R277 to R281, R151: `st` completes where its lanes translate and its lines have room: the warp then reads the stored bytes, the last
lane's where two meet, and every other byte as before, but from home where a clean copy has made room; home is written only with what the warp held committed of those lines. A 64-bit
store to the counter page stands in the region until it commits. Readings of the model itself here: notes/assumptions/43.md. -/
def Obligations.GlobalStores : Prop :=
  ∀ (g : Guard) (d : Reg) (base : MemBase) (off : BitVec 24) (z : Size) (hint : Bool) (s : State) (x : Issue) (as : List Lane),
    let f := foot (guardIds g ++ baseIds base ++ regIds z.regs d) []
    let vec := isVec noReg [d, baseReg base]
    let P := (s.begin_ x.w).lookAll ((s.memLanes x g vec).filter fun y => !y.2) fun s y =>
      s.lookGlobal x.w y (s.ea x (baseReg base) off 64 y.1) z.bytes .write false
    let mem := as.filter fun a => !s.onCounters x.w a.va
    let new := s.newLines x.w (dedup (mem.map fun a => a.pa / 64))
    let held (pa : Nat) : Prop := ∃ c ∈ (s.warp x.w).dirty, c.line = pa / 64 ∧ c.state = .committed
    let stored := mem.map fun a => (a.pa, s.dataOf x d z a.lane)
    Calm s x f → Live s x.w → (s.warp x.w).roomIn .s = true → P.1 = as.map .fine → s.noWay x.w new = [] →
    P.2.afterEvict x.w (dedup (mem.map fun a => a.pa / 64)) = none → Roomy s (s.blockOf x.w).core new.length →
    ((s.warp x.w).region.issued = 0 ∨ (s.warp x.w).regionLines + new.length ≤ 64) →
    (∀ a ∈ mem, (s.warp x.w).committingAt (a.pa / 64) = false ∧ a.pa % z.bytes = 0) →
    (∀ c ∈ (s.warp x.w).dirty, ∀ y ∈ c.bytes, y.1 < 64) →
    ((s.warp x.w).firstIssue = none ∨ (s.rec? (s.warp x.w).party).isSome = true) →
    ∃ m t, exec (.st g d base off z hint) s = .next t ∧ Near s m ∧
      Acts m t x f vec [] 0 0 (fun w => { w with
        dirty := (t.warp x.w).dirty, opsS := popDone (w.opsS ++ [⟨s.nextId, w.region.seq, as.isEmpty⟩]) }) (fun _ => nextPc x.pc) ∧
      Wrote (s.warp x.w) (t.warp x.w) [] ∧ WroteP (s.warp x.w) (t.warp x.w) none ∧ (t.warp x.w).pend = (s.warp x.w).pend ∧
      (t.warp x.w).region.stores = (s.warp x.w).region.stores ++ (if as = [] then [] else [s.nextId]) ∧
      (t.warp x.w).region.ctrStores = (s.warp x.w).region.ctrStores ++ (if z = .b64 then as.filterMap fun a =>
        (s.ctrOffset (s.warp x.w).vi a.va).map fun o => (o, leNat (s.dataOf x d z a.lane)) else []) ∧
      (∀ pa b, storedAt stored pa = some b → t.loadByte x.w pa = b) ∧
      (∀ pa, storedAt stored pa = none → ¬ held pa → t.loadByte x.w pa = s.loadByte x.w pa ∨
        (s.ownByte x.w pa = false ∧ (t.coreOf x.w).cleanAt (s.warp x.w).vi (pa / 64) = none ∧ t.loadByte x.w pa = s.mem.read pa)) ∧
      (∀ pa, ¬ held pa → t.mem.read pa = s.mem.read pa) ∧ SpStays s t

/-- R286 to R288, R341: `stsp`, `stsp.cnt` and `mstat.cont` complete where their lanes reach present pages, meet no mark or poison and
need no split: their bytes stand in the scratchpads that they name, and no byte of memory changes. -/
def Obligations.ScratchpadStores : Prop :=
  ∀ (g : Guard) (d base : Reg) (off : BitVec 24) (rmt : Bool) (z : Size) (cnt : Bool) (s : State) (x : Issue) (as : List Lane),
    let b := s.begin_ x.w
    let r := (s.warp x.w).region
    let room (ws : Nat) : Prop := ∀ a ∈ as, (a.inTrap = true ∧ (s.spEntry (s.warp x.w).block (trapPage (s.warp x.w).windex)).p = true) ∨ a.blk = (s.warp x.w).block ∨
      (s.core (s.block a.blk).core).remote.length + ws * as.length ≤ 256
    let free (n : Nat) (c : AccClass) : Prop :=
      let live := as.filter fun a => !a.inTrap
      b.spHeld (live.map fun a => (a, n)) = false ∧ b.spConflicts x.w c true (live.map fun a => (a, n)) = [] ∧
      (∀ a ∈ live, b.spPoison n a = false) ∧ (r.issued ≠ 0 → live ≠ [] → r.spFull = false ∧ ∀ a ∈ live, r.readBefore a n = false)
    (s.warp x.w).older = none →
    (let z := if cnt then .b32 else z
     let f := foot (guardIds g ++ regIds 1 base ++ regIds z.regs d) []
     let vec := isVec noReg [d, base]
     Calm s x f → (s.warp x.w).roomIn .s = true → (b.spLooks x g vec base off z.bytes rmt (!cnt) true).1 = as.map .fine →
     free z.bytes (spClass cnt) → room 8 →
     ∃ m t, exec (if cnt then .stspCnt g d base off rmt else .stsp g d base off rmt z) s = .next t ∧ Near s m ∧
      Acts m t x f vec [] 0 0 (fun w => { w with opsS := popDone (w.opsS ++ [⟨s.nextId, w.region.seq, true⟩]) }) (fun _ => nextPc x.pc) ∧
      Wrote (s.warp x.w) (t.warp x.w) [] ∧ WroteP (s.warp x.w) (t.warp x.w) none ∧ (t.warp x.w).pend = (s.warp x.w).pend ∧
      (∀ a, t.mem.read a = s.mem.read a) ∧
      ∀ c o, t.spByte c o = (s.spStored x.w (as.map fun a => (a, s.dataOf x d z a.lane))).spByte c o) ∧
    (let f := foot (guardIds g ++ regIds 1 base) []
     let bs := ((s.warp x.w).mcont.getD (List.replicate 8 0)).flatMap (leBytes 8)
     Calm s x f →
     (∀ l h, (s.memLanes x g false).head? = some (l, h) → h = false →
       b.lookSp x.w (l, false) (s.src x ⟨base, .n32, 0⟩ l) 64 false true true = .fine (as.headD ⟨0, false, 0, 0, 0⟩) ∧ as.length = 1) →
     free 64 .data → room 16 →
     ∃ m t, exec (.mstatCont g base) s = .next t ∧ Near s m ∧ Gives m t x f false [] none [] 0 0 ∧ (∀ a, t.mem.read a = s.mem.read a) ∧
      ∀ c o, t.spByte c o = if (s.memLanes x g false).any (fun y => !y.2) = true
        then (s.spStored x.w (as.flatMap fun a => [(a, bs.take 32), ({ a with pa := a.pa + 32 }, bs.drop 32)])).spByte c o
        else s.spByte c o)

/-! ### Synchronisation (spec/15 R283, R288, spec/22) -/

/-- R283, R346, R265: `ld.acq` and `st.rel` performed where their lanes translate and meet no mark or poison: the warp's committed copies
go home first; the load's lanes take the bytes that then stand at home, a helper lane the same or 0; the store's bytes stand at home, the
last lane's where two meet; and the warp's interval advances. Readings of the model itself here: notes/assumptions/81.md. -/
def Obligations.AcquireAndRelease : Prop :=
  ∀ (g : Guard) (d : Reg) (base : MemBase) (off : BitVec 24) (w64 : Bool) (scope : Scope) (s : State) (x : Issue) (as : List Lane),
    let z := wideSize w64
    let p := s.updWarp x.w fun y => { y with hold := .none }
    let looks (vec : Bool) (u : Use) := p.syncLooks x g vec base off z.bytes u
    let mem := as.filter fun a => !s.onCounters x.w a.va
    Performing s x → Live s x.w →
    (let vec := isVec d [baseReg base]
     let P := looks vec .read
     let v := P.2.2.writeBackAll x.w
     let ls := s.memLanes x g vec
     let all := mem ++ (P.2.1.filterMap Look.lane?).filter fun y => !v.poisonedFor (v.blockOf x.w).core y.pa && !s.onCounters x.w y.va
     let val (l : Nat) : Nat := match all.find? fun a => a.lane == l with | some a => leNat (v.mem.readBytes a.pa z.bytes) | none => 0
     P.1 = as.map .fine → (mem = [] ∨ s.portShort x.w = false) → P.2.2.homesWait x.w (Lane.words z.bytes mem) = false →
     v.globalConflicts x.w (v.access x.w .acquire false) none (mem.map fun a => (a, wordsOf a.pa z.bytes)) = [] →
     (∀ a ∈ mem, v.poisonedFor (v.blockOf x.w).core a.pa = false) →
     ∃ t, exec (.ldAcq g d base off w64 scope) s = .next t ∧
      Closes s t x [(laneMask (ls.map Prod.fst), d, z.regs, val)] true (!ls.isEmpty) (fun w => w.credited .l s.nextId) ∧
      (∀ a, t.mem.read a = (s.writeBackAll x.w).mem.read a) ∧ SpStays s t) ∧
    (let vec := isVec noReg [d, baseReg base]
     let P := looks vec .write
     let v := P.2.2.writeBackAll x.w
     P.1 = as.map .fine → (mem = [] ∨ s.portShort x.w = false) → P.2.2.homesWait x.w (Lane.words z.bytes mem) = false →
     s.flushPending x.w = false → v.globalConflicts x.w (v.access x.w .release true) none (mem.map fun a => (a, wordsOf a.pa z.bytes)) = [] →
     ∃ t, exec (.stRel g d base off w64 scope) s = .next t ∧
      Closes s t x [] true (!as.isEmpty) (fun w => w.credited .s s.nextId) ∧
      (∀ a, t.mem.read a =
        (storedAt (mem.map fun y => (y.pa, s.dataOf x d z y.lane)) a).getD ((s.writeBackAll x.w).mem.read a)) ∧ SpStays s t)

/-- R288, R346: `ldsp.acq` and `stsp.rel` performed where their lanes reach present pages and meet no mark or poison: the load's lanes take
the bytes at their offsets, the store's bytes stand in the scratchpad, and the warp's interval advances. -/
def Obligations.ScratchpadAcquireAndRelease : Prop :=
  ∀ (g : Guard) (d base : Reg) (off : BitVec 24) (w64 : Bool) (s : State) (x : Issue) (as : List Lane),
    let z := wideSize w64
    let looks (vec write : Bool) := s.spLooks x g vec base off z.bytes false false write
    let xs := as.map fun a => (a, z.bytes)
    let back (t : State) : Prop := ∀ a, t.mem.read a = (if as = [] then s else s.writeBackAll x.w).mem.read a
    Performing s x → Live s x.w → s.spHeld xs = false → (∀ a ∈ as, s.spPoison z.bytes a = false) →
    (let vec := isVec d [base]
     let P := looks vec false
     let ls := s.memLanes x g vec
     let val (l : Nat) : Nat := (((s.spValues x.w z ls as (P.2.filterMap Look.lane?)).find? fun y => y.1 == l).map Prod.snd).getD 0
     P.1 = as.map .fine → s.spConflicts x.w .acquire false xs = [] →
     ∃ t, exec (.ldspAcq g d base off w64) s = .next t ∧
      Closes s t x [(laneMask (ls.map Prod.fst), d, z.regs, val)] (!ls.isEmpty) (!ls.isEmpty) (fun w => w.credited .l s.nextId) ∧
      (∀ a, t.mem.read a = (if ls = [] then s else s.writeBackAll x.w).mem.read a) ∧ SpStays s t) ∧
    (let vec := isVec noReg [d, base]
     (looks vec true).1 = as.map .fine → s.spConflicts x.w .release true xs = [] →
     ∃ t, exec (.stspRel g d base off w64) s = .next t ∧
      Closes s t x [] (!as.isEmpty) (!as.isEmpty) (fun w => w.credited .s s.nextId) ∧ back t ∧
      SpStays (as.foldl (fun (u : State) a => u.spWriteBytes a.blk a.pa (s.dataOf x d z a.lane)) s) t)

/-- R381 to R385, R403: an atomic without return of a relaxed class completes by standing in its region, one request for each lane that
performs it; nothing is changed at its word before the commit. -/
def Obligations.RelaxedAtomics : Prop :=
  ∀ (g : Guard) (d : Reg) (b c : Reg) (op : AtomOp) (ty : AtomTy) (s : State) (x : Issue) (as : List Lane),
    let r := (s.warp x.w).region
    let fits := r.issued = 0 ∨ (s.warp x.w).buffered + as.length ≤ 32
    let acc (cls : AccClass) (w : Warp) : Warp := if cls == .accumulate then w.countAccs (as.map Lane.lane) else w
    let ops (n : Bool) (w : Warp) : List CntOp := popDone (w.opsS ++ [⟨s.nextId, w.region.seq, n⟩])
    (s.warp x.w).roomIn .s = true → fits →
    (∀ (base : MemBase) (scope : Scope),
      let k : AtomW := ⟨g, d, base, b, c, op, ty, scope⟩
      let kept := as.filter fun a => !s.onCounters x.w a.va
      let P := (s.begin_ x.w).atomLooks x k
      k.cls ≠ .exchange → Calm s x k.foot → P.1 = as.map .fine → P.2.afterEvict x.w (as.map fun a => a.pa / 64) = none →
      ∃ m t, exec (.atom g d base b c op ty scope) s = .next t ∧ Near s m ∧ SameBytes s m ∧
        Acts m t x k.foot k.vec [] 0 0 (fun w => { acc k.cls w with opsS := ops kept.isEmpty w }) (fun _ => nextPc x.pc) ∧
        Wrote (s.warp x.w) (t.warp x.w) [] ∧ WroteP (s.warp x.w) (t.warp x.w) none ∧ (t.warp x.w).pend = (s.warp x.w).pend ∧
        (t.warp x.w).region.atoms = r.atoms ++ kept.map fun a => s.atomReq x k (none, a)) ∧
    ∀ (base : Reg) (rmt : Bool),
      let k : AtomSp := ⟨g, d, base, b, c, op, ty, rmt⟩
      k.cls ≠ .exchange → Calm s x k.foot → (s.begin_ x.w).atomSpLooks x k = as.map .fine →
      ∃ t, exec (.atomsp g d base b c op ty rmt) s = .next t ∧
        Acts s t x k.foot k.vec [] 0 0 (fun w => { acc k.cls w with opsS := ops as.isEmpty w, pins := (t.warp x.w).pins })
          (fun _ => nextPc x.pc) ∧
        Wrote (s.warp x.w) (t.warp x.w) [] ∧ WroteP (s.warp x.w) (t.warp x.w) none ∧ (t.warp x.w).pend = (s.warp x.w).pend ∧
        (∀ a ∈ as, a.inTrap = false → (a.blk, a.pa / 4096) ∈ (t.warp x.w).pins) ∧
        (t.warp x.w).region.spAtoms = r.spAtoms ++ as.map fun a => s.atomSpReq x k a

/-- R381 to R384, R346: an exchange-class atomic performed where its lanes translate, or reach present pages, and meet no mark or poison:
its lanes change their words in order, each takes the old value, and the warp's interval advances. Readings of the model itself here:
notes/assumptions/81.md. -/
def Obligations.ExchangeAtomics : Prop :=
  ∀ (g : Guard) (d : Reg) (b c : Reg) (op : AtomOp) (ty : AtomTy) (s : State) (x : Issue) (as : List Lane),
    let p := s.updWarp x.w fun y => { y with hold := .none }
    let args (l : Nat) := s.atomArgs x op ty b c l
    let done (w : Warp) : Warp := w.credited .l s.nextId
    Performing s x → Live s x.w →
    (∀ (base : MemBase) (scope : Scope),
      let k : AtomW := ⟨g, d, base, b, c, op, ty, scope⟩
      let n := ty.bytes
      let mem := as.filter fun a => !s.onCounters x.w a.va
      let P := p.atomLooks x k
      let v := P.2.writeBackAll x.w
      let run := as.foldl (fun (acc : List (Nat × Nat) × State) a =>
        let y := if s.onCounters x.w a.va then (0, acc.2) else acc.2.atomAt a.pa op ty (args a.lane).1 (args a.lane).2
        (acc.1 ++ [(a.lane, y.1)], y.2)) ([], v)
      k.cls = .exchange → P.1 = as.map .fine → (as = [] ∨ s.portShort x.w = false) → P.2.homesWait x.w (Lane.words n mem) = false →
      s.flushPending x.w = false →
      v.globalConflicts x.w (v.access x.w .exchange true) (some ty) (mem.map fun a => (a, wordsOf a.pa n)) = [] →
      (∀ a ∈ mem, v.poisonedFor (v.blockOf x.w).core a.pa = false) →
      ∃ t, exec (.atom g d base b c op ty scope) s = .next t ∧
        Closes s t x [(laneMask (as.map Lane.lane), d, ty.regs, fun l => ((run.1.find? fun y => y.1 == l).map Prod.snd).getD 0)] true
          (!as.isEmpty) done ∧
        (∀ a, t.mem.read a = run.2.mem.read a) ∧ SpStays s t) ∧
    ∀ (base : Reg) (rmt : Bool),
      let k : AtomSp := ⟨g, d, base, b, c, op, ty, rmt⟩
      let xs := as.map fun a => (a, 4)
      let run := as.foldl (fun (acc : List (Nat × Nat) × State) a =>
        let old := leNat ((List.range 4).map fun i => acc.2.spSeen a.blk (a.pa + i))
        (acc.1 ++ [(a.lane, old)],
          (acc.2.spTook a.blk).spWriteBytes a.blk a.pa (leBytes 4 (atomNew op ty old (args a.lane).1 (args a.lane).2)))) ([], s)
      k.cls = .exchange → s.atomSpLooks x k = as.map .fine → s.spHeld xs = false → s.spConflicts x.w .exchange true xs = [] →
      (∀ a ∈ as, s.spPoison 4 a = false) →
      ∃ t, exec (.atomsp g d base b c op ty rmt) s = .next t ∧
        Closes s t x [(laneMask (as.map Lane.lane), d, 1, fun l => ((run.1.find? fun y => y.1 == l).map Prod.snd).getD 0)] (!as.isEmpty)
          (!as.isEmpty) done ∧
        (∀ a, t.mem.read a = (if as = [] then s else s.writeBackAll x.w).mem.read a) ∧ SpStays run.2 t

/-- R386, R389, R265, R346, R178, R58, R181: a fence performed sends the warp's committed copies home and advances its interval; one whose
guard fails does neither. `sys.wr` performed writes FPSTAT, FPTRAP or DBGCTL, its reserved bits left out, and no other register; `clk.dev`
and `clk.ord` write the device time and the ordering clock in their lanes. -/
def Obligations.FencesRegistersAndClocks : Prop :=
  (∀ (g : Guard) (scope : Scope) (s : State) (x : Issue) (i : Instr),
     let on := s.acting x g false ≠ 0
     i = .fence g scope ∨ i = .fenceXlat g scope → Performing s x →
     ∃ t, exec i s = .next t ∧ Closes s t x [] (decide on) (decide on) ∧
       (∀ a, t.mem.read a = (if on then s.writeBackAll x.w else s).mem.read a) ∧ SpStays s t) ∧
  (∀ (g : Guard) (d a : Reg) (n : BitVec 12) (s : State) (x : Issue),
     Performing s x →
     (let v := s.src x ⟨a, .n32, 0⟩ 0
      (n = 2 → (s.warp x.w).trap.isSome = true) → ∃ t, exec (.sysWr g n a) s = .next t ∧ SameBytes s t ∧ Closes s t x [] false false fun w =>
       if s.acting x g false = 0 then w
       else if n = 0 then { w with fpstat := mAnd v 0x7F } else if n = 1 then { w with fptrap := mAnd v 0x5F }
       else if n = 2 then { w with dbgctl := mAnd v 1 } else w) ∧
     (Live s x.w →
       (∃ t, exec (.clkDev g d) s = .next t ∧ SameBytes s t ∧
         Closes s t x [(s.acting x g d.isVector, d, 2, fun _ => s.devTime)] false false) ∧
       ∃ t, exec (.clkOrd g d) s = .next t ∧ SameBytes s t ∧
         Closes s t x [(s.acting x g d.isVector, d, 2, fun _ => s.clock)] false false))

/-! ### Barriers and waits (spec/22 R391 to R397, spec/17 R309) -/

/-- R391, R393, R395, R346: the lanes of a barrier word performed arrive, and the warp's interval advances; while the barrier lacks
arrivals those of `bar.join`, `gbar.join` and `wsync` wait, those of a `post` go on, and no other warp changes. A `wsync` that all its
lanes have reached releases them. Where no lane passes a barrier word does nothing, and a `wsync` only advances the interval. Readings of the model itself here: notes/assumptions/21.md. -/
def Obligations.BarrierArrivals : Prop :=
  ∀ (g : Guard) (a : Reg) (b : Fin 16) (post : Bool) (s : State) (x : Issue),
    let blk := (s.warp x.w).block
    let w := s.warp x.w
    let m := mAnd (s.passing x g) x.mask
    let mine := m * 2 ^ (32 * w.windex)
    let n := s.src x ⟨a, .n32, 0⟩ 0
    let frame (t : State) : Prop := Wrote w (t.warp x.w) [] ∧ WroteP w (t.warp x.w) none ∧ (t.warp x.w).fpstat = w.fpstat ∧
      (t.warp x.w).hold = .none ∧ (∀ v, v ≠ x.w → t.warp v = s.warp v) ∧ t.launches = s.launches ∧ t.clock = s.clock + 17 ∧
      (t.intervalOf w.party).1 = ((s.intervalOf w.party).1 + 1) % intervalMod ∧
      (∀ pa, t.mem.read pa = (s.writeBackAll x.w).mem.read pa) ∧ SpStays s t
    let goes (t : State) (wait : Bool) (on : WaitOn) : Prop := ∀ l, l < 32 → bit x.mask l = true → bit w.live l = true →
      if bit m l = true ∧ wait = true then (t.warp x.w).waitsAt l (nextPc x.pc) on else (t.warp x.w).standsAt l (nextPc x.pc)
    Performing s x → w.stop = none → w.block < s.blocks.length →
    (m = 0 →
      (∃ t, exec (if post then .barPost g a b else .barJoin g a b) s = .next t ∧ SameBytes s t ∧ Closes s t x [] false false) ∧
      (∃ t, exec (if post then .gbarPost g else .gbarJoin g) s = .next t ∧ SameBytes s t ∧ Closes s t x [] false false) ∧
      ∃ t, exec (.wsync g a) s = .next t ∧ Closes s t x [] (!guardNever g) (!guardNever g) ∧
        (∀ pa, t.mem.read pa = (if guardNever g then s else s.writeBackAll x.w).mem.read pa) ∧ SpStays s t) ∧
    (m ≠ 0 →
    (let y := (s.block blk).bar b.val
     let z : NBar := { y with exp := if y.arr = 0 then n else y.exp, arr := y.arr + popc m, mask := mOr y.mask mine
                              join := if post then y.join else mOr y.join mine }
     b.val < (s.block blk).bars.length → n ≤ (s.launchOf x.w).threads → (y.arr = 0 ∨ n = y.exp) →
     mAnd m (s.lanesIn x.w y.mask) = 0 → z.done (s.liveThreads blk) = false →
     ∃ t, exec (if post then .barPost g a b else .barJoin g a b) s = .next t ∧ frame t ∧ (t.block blk).bar b.val = z ∧
      goes t (!post) (.bar b.val)) ∧
    (let y := (s.block blk).gbar
     let z : NBar := { y with exp := if y.arr = 0 then 0 else y.exp, arr := y.arr + popc m, mask := mOr y.mask mine
                              join := if post then y.join else mOr y.join mine }
     mAnd m (s.lanesIn x.w y.mask) = 0 →
     (∃ c ∈ s.gangOf blk, mDiff (s.liveThreads c) (if c = blk then z.mask else (s.block c).gbar.mask) ≠ 0) →
     ∃ t, exec (if post then .gbarPost g else .gbarJoin g) s = .next t ∧ frame t ∧ (t.block blk).gbar = z ∧ goes t (!post) .gbar) ∧
    (let exp := if n = 0 then w.live else mAnd n w.live
     let mask := if w.wsyncArr = 0 then exp else w.wsyncMask
     let whole := mDiff (mDiff mask (mOr w.wsyncArr m)) w.exited = 0
     mDiff m exp = 0 → (w.wsyncArr = 0 ∨ exp = mAnd w.wsyncMask w.live) →
     ∃ t, exec (.wsync g a) s = .next t ∧ frame t ∧ goes t (!decide whole) .wsync ∧ (t.warp x.w).wsyncMask = (if whole then 0 else mask) ∧
      (t.warp x.w).wsyncArr = if whole then 0 else mOr w.wsyncArr m))

/-- R396, R397, R309, R306: `waitw` and the `cbw` words performed read their word at home after the warp's committed copies went there:
where the condition holds, or for `cbw.test` and `cbw.reset` always, its value goes into the destination and the interval advances, a word
whose COUNT is 0 being cleared by `cbw.reset`; else the warp waits at the word. Readings of the model itself here:
notes/assumptions/75.md. -/
def Obligations.WaitingWords : Prop :=
  ∀ (g : Guard) (d b : Reg) (s : State) (x : Issue) (l : Nat) (y : Lane),
    let p := s.updWarp x.w fun y => { y with hold := .none }
    let done (w : Warp) : Warp := { w.credited .l s.nextId with recover := none }
    let free (v : State) (n : Nat) (cls : AccClass) (wr : Bool) : Prop :=
      v.globalConflicts x.w (v.access x.w cls wr) none [(y, wordsOf y.pa n)] = [] ∧ v.poisonedFor (v.blockOf x.w).core y.pa = false
    let waits (t : State) (i : Instr) : Prop := (t.warp x.w).hold = .word i x ∧ (∀ v, v ≠ x.w → t.warp v = s.warp v) ∧
      t.clock = s.clock ∧ Wrote (s.warp x.w) (t.warp x.w) [] ∧ (t.warp x.w).pct = (s.warp x.w).pct ∧
      (∀ a, t.mem.read a = (s.writeBackAll x.w).mem.read a) ∧ SpStays s t
    Performing s x → Live s x.w → s.portShort x.w = false → s.memLanes x g false = [(l, false)] → s.onCounters x.w y.va = false → y.helper = false →
    (∀ (base : MemBase) (cond : Cond) (w64 signed : Bool) (scope : Scope),
      let k : WaitW := ⟨g, d, base, b, cond, w64, signed, scope⟩
      let P := p.waitwLook x k (l, false)
      let v := P.2.writeBackAll x.w
      let val := leNat (v.mem.readBytes y.pa k.size.bytes)
      P.1 = .fine y → P.2.homesWait x.w (wordsOf y.pa k.size.bytes) = false → (k.cls = .acquire ∨ s.flushPending x.w = false) →
      free v k.size.bytes k.cls (k.cls == .exchange) →
      ∃ t, exec (.waitw g d base b cond w64 signed scope) s = .next t ∧
        if condHolds cond (intVal k.ty val) (intVal k.ty (s.src x ⟨b, k.ty, 0⟩ 0)) = true then
          Closes s t x [(1, d, k.size.regs, fun _ => val)] true true done ∧
          (∀ a, t.mem.read a = (s.writeBackAll x.w).mem.read a) ∧ SpStays s t
        else waits t k.instr) ∧
    ∀ (reset wait : Bool), (reset = true → wait = false) →
      let k : CbwW := ⟨g, d, b, reset, wait⟩
      let P := p.cbwLook x b k.use (l, false)
      let v := P.2.writeBackAll x.w
      let val := v.dword y.pa
      P.1 = .fine y → P.2.homesWait x.w (wordsOf y.pa 8) = false → (reset = false ∨ s.flushPending x.w = false) → free v 8 k.cls reset →
      ∃ t, exec (if wait then .cbwWait g d b else if reset then .cbwReset g d b else .cbwTest g d b) s = .next t ∧
        if wait = true ∧ cbwCount val ≠ 0 then waits t (.cbwWait g d b)
        else Closes s t x [(1, d, 2, fun _ => val)] true true done ∧ SpStays s t ∧
          ∀ a, t.mem.read a = if reset = true ∧ cbwCount val = 0 ∧ y.pa ≤ a ∧ a < y.pa + 8 then 0 else (s.writeBackAll x.w).mem.read a

/-! ### Launches, exits, stops and the return (spec/09, spec/27) -/

/-- R188, R71: `lnch` performed reads the four lines of its record at home, the warp's committed copies there first, and gives what its acceptance answers,
its interval advancing; with helper lanes only it gives 0 and launches nothing. -/
def Obligations.LaunchWord : Prop :=
  ∀ (g : Guard) (d a : Reg) (q : Fin 64) (s : State) (x : Issue) (ls : List Lane),
    let p := s.updWarp x.w fun y => { y with hold := .none }
    let on := s.acting x g false ≠ 0
    Performing s x →
    (¬ on → ∃ t, exec (.lnch g d a q) s = .next t ∧ SameBytes s t ∧ Closes s t x [] false false) ∧
    (on → s.someThread x = false → ∃ t, exec (.lnch g d a q) s = .next t ∧ SameBytes s t ∧
      Closes s t x [(1, d, 1, fun _ => 0)] false false) ∧
    (on → s.someThread x = true → Live s x.w → (s.warp x.w).launch < s.launches.length →
     let P := p.lnchLook x a
     let v := P.2.writeBackAll x.w
     let rcd := ls.flatMap fun y => (List.range 8).map fun k => v.dword (y.pa + 8 * k)
     let acc := v.accept (s.warp x.w).vi q.val rcd
     P.1 = ls.map .fine → s.moduleFailed = false → s.waitingLaunches (s.warp x.w).vi < 1024 → s.flushPending x.w = false →
     (∀ y ∈ ls, v.poisonedFor (v.blockOf x.w).core y.pa = false) → v.cbwUnusable (s.warp x.w).vi (rcd.getD 9 0) = none →
     ∃ t, exec (.lnch g d a q) s = .next t ∧ Wrote (s.warp x.w) (t.warp x.w) [(1, d, 1, fun _ => acc.1)] ∧
      WroteP (s.warp x.w) (t.warp x.w) none ∧ Lands s t x (fun _ => nextPc x.pc) ∧ (t.warp x.w).hold = .none ∧
      (∀ w, w ≠ x.w → t.warp w = acc.2.warp w) ∧ t.launches = acc.2.launches ∧
      (∀ k, (t.vi k).queues = (acc.2.vi k).queues ∧ (t.vi k).numbers = (acc.2.vi k).numbers) ∧
      (t.intervalOf (s.warp x.w).party).1 = ((acc.2.intervalOf (s.warp x.w).party).1 + 1) % intervalMod ∧
      (∀ pa, t.mem.read pa = acc.2.mem.read pa) ∧ SpStays s t)

/-- R169, R138, R134: the lanes of `exit` performed leave the PC table and are exited; the others go on; no register changes. Where no lane is at
a barrier of the warp, its block or its gang, nothing else does, but that a reconvergence barrier all of whose lanes have exited is cleared. -/
def Obligations.LaneExit : Prop :=
  ∀ (g : Guard) (s : State) (x : Issue),
    let m := mAnd (s.passing x g) x.mask
    let w := s.warp x.w
    Performing s x →
    (m = 0 → ∃ t, exec (.exit g) s = .next t ∧ SameBytes s t ∧ Closes s t x [] false false) ∧
    (m ≠ 0 → w.trap = none → w.stop = none → w.rcv.length = 8 → (∀ r ∈ w.rcv, r.arr = 0) → w.wsyncArr = 0 →
     (∀ y ∈ (s.block w.block).bars, y.arr = 0) → (∀ c ∈ s.gangOf w.block, (s.block c).gbar.arr = 0) →
     ∃ t, exec (.exit g) s = .next t ∧ SameBytes s t ∧ (t.warp x.w).exited = mOr w.exited m ∧
      (∀ e ∈ (t.warp x.w).pct, mAnd e.mask m = 0) ∧
      (∀ l, l < 32 → bit x.mask l = true → bit w.live l = true → bit m l = false → (t.warp x.w).standsAt l (nextPc x.pc)) ∧
      Wrote w (t.warp x.w) [] ∧ WroteP w (t.warp x.w) none ∧ (∀ v, v ≠ x.w → t.warp v = s.warp v) ∧ t.launches = s.launches ∧
      t.blocks = s.blocks ∧ t.clock = s.clock + 1 ∧
      t.warp x.w = { w with
        exited := (t.warp x.w).exited, pct := (t.warp x.w).pct, icount := (t.warp x.w).icount, lastIssue := (t.warp x.w).lastIssue, lastWord := (t.warp x.w).lastWord
        rcv := w.rcv.map fun r => if mDiff r.exp (mOr w.exited m) = 0 then ⟨0, 0⟩ else r
        stall := 0, hold := .none, bpskip := none, reentering := false })

/-- R170, R171, R420, R424 to R426, R430: `trap` and `brk` stop their subgroup, the one at the next word and the other at itself: with a
handler, trap mode is entered, its frame in the trap area, the subgroup at the handler; `brk` without one holds its warp for goisto. -/
def Obligations.StopWords : Prop :=
  ∀ (g : Guard) (n : BitVec 16) (s : State) (x : Issue),
    let w := s.warp x.w
    let m := s.passing x g
    let enters (t : State) (cause rpc h : Nat) : Prop :=
      (t.warp x.w).trap = some ⟨x.mask, none, none⟩ ∧ (t.warp x.w).stop = none ∧ (t.warp x.w).hold = .none ∧
      (∀ l, l < 32 → bit x.mask l = true → (t.warp x.w).standsAt l h) ∧ Wrote w (t.warp x.w) [] ∧ WroteP w (t.warp x.w) none ∧
      (t.warp x.w).fpstat = w.fpstat ∧ (∀ v, v ≠ x.w → t.warp v = s.warp v) ∧ (∀ a, t.mem.read a = s.mem.read a) ∧
      t.trapDword x.w 0 / 2 ^ 56 = cause ∧ t.trapDword x.w 0 % 2 ^ 32 = m ∧ t.trapDword x.w 1 = x.pc % 2 ^ 57 ∧
      t.trapDword x.w 2 = rpc % 2 ^ 57 ∧ t.trapDword x.w 4 = n.toNat * 2 ^ 32 + x.mask ∧ t.trapDword x.w 5 = s.devTime % 2 ^ 64
    let able : Prop := w.region.issued = 0 ∧ w.live ≠ 0 ∧ w.trap = none ∧ s.inPlace x.w = true ∧ m < 2 ^ 32 ∧ x.mask < 2 ^ 32 ∧
      (s.blockOf x.w).core < s.cores.length ∧ (s.spEntry w.block (trapPage w.windex)).p = true ∧
      ∃ f ∈ (s.coreOf x.w).frames, f.2.blk = w.block ∧ f.2.pg = trapPage w.windex
    (Calm s x (foot (guardIds g) []) →
      (m = 0 → ∃ t, exec (.brk g n) s = .next t ∧ Gives s t x (foot (guardIds g) []) false [] none [] 0 0) ∧
      (m ≠ 0 → able → w.older = none →
        (∀ h, (s.launchOf x.w).trap = some h → ∃ t, exec (.brk g n) s = .next t ∧ enters t 0x04 x.pc h) ∧
        ((s.launchOf x.w).trap = none → ∃ t, exec (.brk g n) s = .next t ∧ (t.warp x.w).hold = .goisto ∧
          (t.warp x.w).stop = some { (x.stop 0x04 m) with code := n.toNat } ∧ (t.warp x.w).pct = w.pct ∧
          Wrote w (t.warp x.w) [] ∧ ∀ v, v ≠ x.w → t.warp v = s.warp v))) ∧
    (Performing s x →
      (m = 0 → ∃ t, exec (.trap g n) s = .next t ∧ SameBytes s t ∧ Closes s t x [] false false) ∧
      (m ≠ 0 → able → ∀ h, (s.launchOf x.w).trap = some h → ∃ t, exec (.trap g n) s = .next t ∧ enters t 0x06 (nextPc x.pc) h))

/-- R172, R173, R425, R157: `trapret` performed with no entry of the replay queue valid leaves trap mode: the handler's lanes stand at the
frame's resume PC, a return to the region's entry counts a re-entry where the stop counts, and the trap area goes to its backing slot.
Readings of the model itself here: notes/assumptions/72.md. -/
def Obligations.TrapReturn : Prop :=
  ∀ (g : Guard) (s : State) (x : Issue) (c : TrapCtx),
    let w := s.warp x.w
    let rpc := s.trapDword x.w 2 % 2 ^ 57
    let e := s.spEntry w.block (trapPage w.windex)
    let vi := (s.block w.block).vi
    let slot := s.slotAt vi (if e.b then e.slot else s.newSlot vi)
    let counts : Prop := c.counts = some (signVa rpc)
    Performing s x → w.stop = none → w.trap = some c → w.later = [] →
    (s.acting x g false = 0 → ∃ t, exec (.trapret g) s = .next t ∧ SameBytes s t ∧ Closes s t x [] false false) ∧
    (s.acting x g false ≠ 0 → s.replayValid x.w = 0 → rpc % 8 = 0 → (¬ counts ∨ w.reentry + 1 ≤ (s.launchOf x.w).reentry) →
     ∃ t, exec (.trapret g) s = .next t ∧ (t.warp x.w).trap = none ∧ (t.warp x.w).hold = .none ∧
      (∀ l, l < 32 → bit c.sub l = true → bit w.live l = true → (t.warp x.w).standsAt l (signVa rpc)) ∧
      (t.warp x.w).reentry = w.reentry + (if counts ∧ mAnd c.sub w.live ≠ 0 then 1 else 0) ∧
      Wrote w (t.warp x.w) [] ∧ WroteP w (t.warp x.w) none ∧ (t.warp x.w).fpstat = w.fpstat ∧
      (∀ v, v ≠ x.w → t.warp v = s.warp v) ∧ ∀ a, (a < slot ∨ slot + slotBytes ≤ a) → t.mem.read a = s.mem.read a)

/-- R172, R428: `rinj` gives 0 for an entry of the replay queue that is not valid, and the cause that an entry performed anew finds; an
entry performed leaves the queue and gives 0: a special function's result is then pending anew, its lanes and captured operands those of
the entry. Readings of the model itself here: notes/assumptions/71.md. -/
def Obligations.Reinjection : Prop :=
  ∀ (g : Guard) (d : Reg) (e : Fin 8) (s : State) (x : Issue),
    let f := { foot (guardIds g) (regIds 1 d) with priv := true }
    let needs (w : Warp) : Warp := { w with needs := w.needs.filter fun n => n.lanes != 0 }
    let b := s.begin_ x.w
    Calm s x f →
    (s.acting x g false = 0 → ∃ t, exec (.rinj g d e) s = .next t ∧ Gives s t x f false [] none [] 0 0) ∧
    (s.acting x g false ≠ 0 → bit (s.replayValid x.w) e.val = false → ∃ t, exec (.rinj g d e) s = .next t ∧
      Gives s t x f false [(1, d, 1, fun _ => 0)] none [] 0 0 needs) ∧
    (s.acting x g false ≠ 0 → bit (s.replayValid x.w) e.val = true →
      (∀ st u, b.reinject x.w e.val = .stop st u → ∃ t, exec (.rinj g d e) s = .next t ∧
        Gives s t x f false [(1, d, 1, fun _ => st.cause)] none [] 0 0 needs) ∧
      ∀ u, b.reinject x.w e.val = .done u → ∃ t, exec (.rinj g d e) s = .next t ∧
        Wrote (u.warp x.w) (t.warp x.w) [(1, d, 1, fun _ => 0)] ∧ (∀ a, t.mem.read a = u.mem.read a) ∧
        ∀ c o, t.spByte c o = u.spByte c o) ∧
    (s.acting x g false ≠ 0 → bit (s.replayValid x.w) e.val = true →
      let w := s.warp x.w
      let r := s.replayAt x.w e.val
      let y : Issue := ⟨x.w, r.mask, r.mask, r.pc, r.word, some r.src⟩
      let anew (i : Instr) (k : Alu) (fn : LaneFn) : Prop :=
        let m := b.acting y k.g k.vec
        let out := b.laneOut y (srcsFrom 0 k.srcs) fn
        decode r.word = .ok i → w.scoreboard k.foot = false → Quiet b y k.vec ((lanesOf m).map fun l => (l, (out l).flags)) →
        (s.spEntry w.block (trapPage w.windex)).p = true → (s.blockOf x.w).core < s.cores.length →
        (∃ f ∈ (s.coreOf x.w).frames, f.2.blk = w.block ∧ f.2.pg = trapPage w.windex) →
        ∃ t, exec (.rinj g d e) s = .next t ∧ t.replayValid x.w = clearBit (s.replayValid x.w) e.val ∧
          Wrote w (t.warp x.w) [(1, d, 1, fun _ => 0)] ∧ WroteP w (t.warp x.w) none ∧ Lands s t x (fun _ => nextPc x.pc) ∧
          ∃ p, (t.warp x.w).pend = w.pend ++ [p] ∧ p.ready = true ∧ p.regs = k.foot.writes ∧
            ∀ a : Warp, Wrote a (a.apply p.writes) (k.dests m fun l => (out l).val)
      ∀ (g' : Guard) (d' a' : Reg) (ty : Ty) (r' : Rnd),
        anew (.rcp g' d' a' ty r') (sfAlu (.rcp r') g' d' a' ty) (sfFn (.rcp r') ty) ∧
        anew (.rsq g' d' a' ty) (sfAlu .rsq g' d' a' ty) (sfFn .rsq ty) ∧
        anew (.sqrt g' d' a' ty r') (sfAlu (.sqrt r') g' d' a' ty) (sfFn (.sqrt r') ty) ∧
        anew (.ex2 g' d' a') (sfAlu .ex2 g' d' a' .f32) (sfFn .ex2 .f32) ∧ anew (.lg2 g' d' a') (sfAlu .lg2 g' d' a' .f32) (sfFn .lg2 .f32) ∧
        anew (.sin g' d' a') (sfAlu .sin g' d' a' .f32) (sfFn .sin .f32) ∧ anew (.cos g' d' a') (sfAlu .cos g' d' a' .f32) (sfFn .cos .f32) ∧
        anew (.tanh g' d' a') (sfAlu .tanh g' d' a' .f32) (sfFn .tanh .f32))

/-! ### Engine commands at issue (spec/17 R298 to R302, spec/18 R325 to R331, R339) -/

/-- R301, R302, R325, R329, R153, R155: a copy or `mmac` word whose lane hands over, whose 64-byte block is present and meets no mark or
poison, and whose queue has a place, completes: the queue holds its command with the dwords of its block, its counter counts it, and its
region ends; with no completion word to count up the command is handed over at once. Helper lanes and a guard that fails queue nothing.
Readings of the model itself here: notes/assumptions/28.md. -/
def Obligations.EngineCommandsQueue : Prop :=
  ∀ (g : Guard) (a : Reg) (kind : Nat) (s : State) (x : Issue),
    let f := foot (guardIds g ++ regIds 1 a) []
    let w := s.warp x.w
    let core := (s.blockOf x.w).core
    let b := s.begin_ x.w
    let i : Instr := match kind with
      | 0 => .cpyG2s g a | 1 => .cpyS2g g a | 2 => .cpyG2g g a | 3 => .cpyGather g a | 4 => .cpyBcast g a | 5 => .cpyFill g a
      | 6 => .cpyMeta g a | _ => .mmac g a
    let frame (t : State) : Prop := Wrote w (t.warp x.w) [] ∧ WroteP w (t.warp x.w) none ∧ (t.warp x.w).fpstat = w.fpstat ∧
      (t.warp x.w).pend = w.pend ∧ (∀ v, v ≠ x.w → t.warp v = s.warp v) ∧ t.launches = s.launches ∧ SpStays s t
    Calm s x f → Fresh s x.w → s.secondary x.w = false → w.older = none → w.roomIn (if kind < 7 then .c else .t) = true →
    core < s.cores.length →
    ((∀ l, (s.memLanes x g false).head? = some l → l.2 = true) →
      ∃ t, exec i s = .next t ∧ frame t ∧ Lands s t x (fun _ => nextPc x.pc) ∧ (t.core core).copyq = (s.core core).copyq ∧
        (t.core core).matq = (s.core core).matq ∧ ∀ a, t.mem.read a = s.mem.read a) ∧
    (∀ l (y : Lane), (s.memLanes x g false).head? = some (l, false) →
      b.lookSp x.w (l, false) (s.src x ⟨a, .n32, 0⟩ l) 64 false false false = .fine y → b.spHeld [(y, 64)] = false →
      b.spConflicts x.w .data false [(y, 64)] = [] → b.spPoison 64 y = false →
      (if kind < 7 then s.copyRoom core else s.matRoom core) = true →
      let bs := b.spRead x.w y 64
      let d := (List.range 8).map fun k => leNat ((bs.drop (8 * k)).take 8)
      let va := d.getD (if kind < 7 then 7 else 4) 0
      let uncounted := va = 0 ∨ (s.ctrOffset w.vi va).isSome = true ∨ s.paOf w.vi va .write = none
      (va = 0 ∨ ∃ z, (b.lookGlobal x.w (l, false) va 8 .write false).1 = .fine z) →
      (s.paOf w.vi va .write = none → (s.writeBackAll x.w).paOf w.vi va .write = none) →
      (∀ q ∈ (s.core core).copyq, q.id ≠ s.nextId) →
      (∀ q ∈ (s.core core).matq, q.id ≠ s.nextId ∧
        (q.handed = true → q.blk = w.block → q.warp ≠ x.w → rowsOverlap q.kind.rows (MatKind.mmac d).rows = false)) →
      ∃ t, exec i s = .next t ∧ frame t ∧ Lands s t x (fun _ => nextPc x.pc) ∧
        (if kind < 7 then (t.warp x.w).opsC = popDone (w.opsC ++ [⟨s.nextId, w.region.seq, false⟩])
          else (t.warp x.w).opsT = popDone (w.opsT ++ [⟨s.nextId, w.region.seq, false⟩])) ∧
        (if kind < 7 then
          (∃ q ∈ (t.core core).copyq, q.id = s.nextId ∧ q.warp = x.w ∧ q.blk = w.block ∧ q.kind = kind ∧ q.desc = d ∧ q.pc = x.pc ∧
            q.running = false ∧ (uncounted → q.handed = true)) ∧
          ∀ q ∈ (s.core core).copyq, q ∈ (t.core core).copyq
        else
          (∃ q ∈ (t.core core).matq, q.id = s.nextId ∧ q.warp = x.w ∧ q.blk = w.block ∧ q.kind = .mmac d ∧ q.pc = x.pc ∧
            q.running = false ∧ (uncounted → q.handed = true)) ∧
          ∀ q ∈ (s.core core).matq, q ∈ (t.core core).matq) ∧
        ∀ a, t.mem.read a = if uncounted then (s.writeBackAll x.w).mem.read a else s.mem.read a)

/-- R326 to R328, R331, R339, R340, R140: a `macc` or `mqctl` word completes: the matrix queue holds its command, handed over at once, with
its operands; the registers that it will write are pending until then, and none is written now. -/
def Obligations.MatrixCommandsQueue : Prop :=
  ∀ (g : Guard) (d a b c : Reg) (nr : Fin 64) (fmt : Fin 8) (raw add : Bool) (rt : MaccRt) (rnd : Rnd) (qn : Fin 4) (s : State) (x : Issue),
    let w := s.warp x.w
    let core := (s.blockOf x.w).core
    let row (r : Reg) := s.src x ⟨r, .n32, 0⟩ 0
    let pair := s.src x ⟨a, .n64, 0⟩ 0
    let pends (f : Foot) : Foot := { f with pend := true }
    let queues (i : Instr) (f : Foot) (k : MatKind) : Prop :=
      Calm s x f → (∀ q ∈ (s.core core).matq, q.handed = true → q.blk = w.block → q.warp ≠ x.w → rowsOverlap q.kind.rows k.rows = false) →
      ∃ t, exec i s = .next t ∧ Lands s t x (fun _ => nextPc x.pc) ∧
        Wrote w (t.warp x.w) [] ∧ WroteP w (t.warp x.w) none ∧ (t.warp x.w).fpstat = w.fpstat ∧
        (t.warp x.w).opsT = popDone (w.opsT ++ [⟨s.nextId, w.region.seq, false⟩]) ∧
        (t.warp x.w).pend = w.pend ++ (if f.writes = [] then [] else [⟨s.nextId, f.writes, Writes.none, false, none⟩]) ∧
        (∃ q ∈ (t.core core).matq, q.id = s.nextId ∧ q.warp = x.w ∧ q.blk = w.block ∧ q.kind = k ∧ q.pc = x.pc ∧ q.handed = true ∧
          q.running = false) ∧
        (∀ q ∈ (s.core core).matq, q ∈ (t.core core).matq) ∧ (∀ v, v ≠ x.w → t.warp v = s.warp v) ∧ t.launches = s.launches ∧
        (∀ a, t.mem.read a = (s.writeBackAll x.w).mem.read a) ∧ SpStays s t
    Fresh s x.w → w.older = none → w.roomIn .t = true → core < s.cores.length → s.matRoom core = true →
    (∀ q ∈ (s.core core).matq, q.id ≠ s.nextId) →
    (∀ q ∈ (s.core core).copyq, q.id ≠ s.nextId) →
    (∀ l, (s.memLanes x g false).head? = some (l, false) →
      queues (.maccSt g a b nr fmt raw) (foot (guardIds g ++ regIds 2 a ++ regIds 1 b) [])
        (.st (pair % 2 ^ 32) (pair / 2 ^ 32) (row b) (nr.val + 1) fmt.val raw) ∧
      queues (.maccLd g a b nr fmt raw add) (foot (guardIds g ++ regIds 2 a ++ regIds 1 b) [])
        (.ld (pair % 2 ^ 32) (pair / 2 ^ 32) (row b) (nr.val + 1) fmt.val raw add) ∧
      queues (.maccZero g b nr) (foot (guardIds g ++ regIds 1 b) []) (.zero (row b) (nr.val + 1)) ∧
      queues (.mqctlClaim g d qn) (pends (foot (guardIds g) (regIds 1 d))) (.mq 0 qn.val (regIds 1 d).head?) ∧
      queues (.mqctlRelease g d qn) (pends (foot (guardIds g) (regIds 1 d))) (.mq 1 qn.val (regIds 1 d).head?) ∧
      queues (.mqctlQuery g d qn) (pends (foot (guardIds g) (regIds 1 d))) (.mq 2 qn.val (regIds 1 d).head?)) ∧
    (mDiff (s.passing x g) w.allHelpers ≠ 0 →
      let ws := regIds (match rt with | .f32 => 1 | .f64 => 2 | .a80 => 4) d
      queues (.maccRd g d b c rt rnd) (pends (foot (guardIds g ++ regIds 1 b ++ regIds 1 c) ws))
        (.rd (ws.headD 0) (row b) (row c) (s.passing x g) rt rnd))

/-! ### Events of warps, homes and cores (spec/95, spec/06 R98, spec/07 R135, R140, spec/08 R153, R154) -/

/-- R99, R100, R140 to R142, R177: the line of the word that a warp issues next comes into its fetch buffer; a result that has come is
written in every lane of its registers, is pending no more and is credited to `l`; and a sleep that has run out leaves the warp ready,
one that has not goes on. -/
def Obligations.FetchesResultsAndSleep : Prop :=
  ∀ (s : State) (w : Nat),
    let x := s.warp w
    let core := (s.blockOf w).core
    (∀ (e : PctEntry) (pa : Nat), s.canIssue w = true → x.hold = .none → x.choose = some e → canonical e.pc = true →
      (s.translate core x.vi e.pc .exec false).1 = .ok pa →
      (s.translate core x.vi e.pc .exec false).2.poisonedFor core pa = false → s.fetchWaits w pa = none →
      ∃ t, exec (.instructionFetch w) s = .next t ∧ (∃ l ∈ (t.warp w).fbuf, l.line = pa / 64) ∧
        (∀ v, t.warp v = { s.warp v with fbuf := if v = w then (t.warp w).fbuf else (s.warp v).fbuf }) ∧
        Near { s with warps := t.warps } t ∧ ∀ a, t.mem.read a = s.mem.read a) ∧
    (∀ (k : Nat) (p : Pend), x.pend[k]? = some p → p.ready = true →
      ∃ t, exec (.pendingResultWrite w k) s = .next t ∧ t = { s with warps := t.warps } ∧ (∀ v, v ≠ w → t.warp v = s.warp v) ∧
        t.warp w = { (x.apply p.writes) with
          pend := x.pend.filter fun q => q.id != p.id
          opsL := popDone (x.opsL.map fun o => if o.id == p.id then { o with done := true } else o) }) ∧
    (∀ (c : Nat) (i : Issue), x.hold = .sleep c i → c ≤ s.clock → x.stepping = false →
      ∃ t, exec (.sleepExpiry w) s = .next t ∧ t = { s with warps := t.warps } ∧ (∀ v, v ≠ w → t.warp v = s.warp v) ∧
        t.warp w = { x with hold := .none, stall := 0 }) ∧
    (∀ (c : Nat) (i : Issue), x.hold = .sleep c i → s.clock < c → exec (.sleepExpiry w) s = .next s)

/-- R96, R153, R360, R364: the port sends the oldest request of the interface that comes next and holds a line's tokens; at its home a
request without conflict leaves its writer in every word's mark, memory being still as it was, while one with a conflict fails its region
with the cause that R364 gives, and one that needs an alias, a mark's room or its line's waits; and a home keeps the end stamp of a closed interval that it asked for. Readings of the model itself here:
notes/assumptions/40.md. -/
def Obligations.PortAndHomes : Prop :=
  ∀ (s : State),
    (∀ (c i : Nat) (q : Req), let k := s.core c
      k.port[i]? = some q → (∀ (j : Nat) (p : Req), j < i → k.port[j]? = some p → p.vi ≠ q.vi) → 64 ≤ s.tokens c q.vi → k.portAt ≤ s.clock →
      (∀ p ∈ k.port, 64 ≤ s.tokens c p.vi → p.vi ≠ q.vi → (q.vi + 63 - k.lastVi) % 64 < (p.vi + 63 - k.lastVi) % 64) →
      ∃ t, exec (.portSend c) s = .next t ∧ t = { s with cores := t.cores, net := s.net ++ [q] } ∧
        (t.core c).port = k.port.eraseIdx i ∧ (t.core c).lastVi = q.vi ∧ t.tokens c q.vi = s.tokens c q.vi - 64 ∧
        (t.core c).portAt = s.clock + 1 ∧ ∀ d, d ≠ c → t.core d = s.core d) ∧
    (∀ (k : Nat) (q : Req),
      let a := s.access q.warp q.kind.cls true
      s.net[k]? = some q → s.reqGate q = .go → s.reqWaits q = false → (∀ r, q.kind = .atomic r → r.rmt = none) → (∀ m ∈ s.marks, m.words.length = 16) →
      (s.homeConflict q.vi a q.kind.ty q.kind.words = none → (∀ r, q.kind = .atomic r → s.poisonedFor q.core r.pa = false) →
        ∃ t, exec (.homeAccess k) s = .next t ∧ t.net = s.net.eraseIdx k ∧ t.mem = s.mem ∧ t.warps = s.warps ∧ t.recs = s.recs ∧
          ∀ p ∈ q.kind.words, (t.markAt q.vi p).writer = some (a.party, a.int, a.cls)) ∧
      (∀ (pa : Nat) (c : Conflict) (r : Region), s.homeConflict q.vi a q.kind.ty q.kind.words = some (pa, c) →
        (s.warp q.warp).older = some r → r.failed = none →
        ∃ t, exec (.homeAccess k) s = .next t ∧ t.net = s.net.eraseIdx k ∧ t.mem = s.mem ∧ t.marks = s.marks ∧
          ∃ o st, (t.warp q.warp).older = some o ∧ o.failed = some st ∧ st.cause = c.cause ∧ st.discard = true ∧
            st.addr = (q.kind.origin pa).1)) ∧
    (∀ (k : Nat) (q : Req), s.net[k]? = some q → s.reqWaits q = true → exec (.homeAccess k) s = .next s) ∧
    (∀ (slice vi launch block warp interval e : Nat), slice < Config.slices →
      s.intervalEnd ⟨vi, launch, block, warp⟩ interval = .at_ e →
      ∃ t, exec (.intervalQueryAnswer slice vi launch block warp interval) s = .next t ∧ t = { s with endCache := t.endCache } ∧
        (⟨vi, launch, block, warp⟩, interval, e) ∈ t.endCache)

/-- R153, R154, R156, R318, R378, R385, R446: once every home has accepted what a region sends, its commit completes, in a redundant launch
with the other copy's: the region is no longer in flight, the commit is counted, the watchdog starts anew, no line is committing, and its
buffered atomics have changed their words in order; a commit that a home or a check has rejected ends both regions in flight with nothing
of them left, and the stop of its cause is taken, once results of committed matrix commands have come. -/
def Obligations.RegionCommits : Prop :=
  ∀ (s : State) (w : Nat) (r : Region),
    let x := s.warp w
    x.older = some r →
    (r.compared = true → r.failed = none → s.reqsLeft w r.seq = false → r.cmds = [] → (∀ a ∈ r.spAtoms, a.blk = x.block) →
      (s.launchOf w).det = false → s.commitReady w = true) ∧
    (s.commitReady w = true → s.secondary w = false → r.flush = none → Unwaited s w →
      ((s.launchOf w).rdnt = true → ∃ v o, s.twinOf w = some v ∧ s.commitReady v = true ∧ Unwaited s v ∧ (s.warp v).older = some o ∧ o.flush = none) →
      ∃ t, exec (.regionCommitComplete w) s = .next t ∧ (t.warp w).older = none ∧ (t.warp w).commits = (x.commits + 1) % 2 ^ 32 ∧
        (t.warp w).wdog = 0 ∧ (∀ d ∈ (t.warp w).dirty, d.state ≠ .committing) ∧ (t.warp w).region = x.region ∧
        Wrote x (t.warp w) [] ∧ WroteP x (t.warp w) none ∧ (t.warp w).fpstat = x.fpstat ∧
        ((s.launchOf w).rdnt = true → ∀ v, s.twinOf w = some v → (t.warp v).older = none)) ∧
    (s.commitReady w = true → s.secondary w = false → Unwaited s w → r.flush = none → r.cmds = [] → r.evicts = [] →
      (s.launchOf w).rdnt = false → (s.launchOf w).det = false → (s.launchOf w).mode = 0 →
      (∀ q ∈ r.atoms, q.rmt = none ∧ s.ctrOffset x.vi q.va = none) →
      (∀ d ∈ x.dirty, d.state = .committing → d.nt = false ∧ d.ovf = false) →
      ∃ t, exec (.regionCommitComplete w) s = .next t ∧
        (∀ a, t.mem.read a = (r.atoms.foldl (fun m q => m.writeBytes q.pa (leBytes q.ty.bytes
          (atomNew q.op q.ty (leNat (m.readBytes q.pa q.ty.bytes)) q.b q.c))) s.mem).read a) ∧
        ∀ b o, (s.spInside b o ∨ ∀ k, k < slotBytes → let a := s.slotAt (s.block b).vi (s.spEntry b (o / 4096)).slot + k
            t.mem.read a = s.mem.read a) →
          t.spByte b o = (r.spAtoms.foldl (fun u q => (u.spTook q.blk).spWriteBytes q.blk q.off (leBytes 4
          (atomNew q.op q.ty (leNat ((List.range 4).map fun k => u.spSeen q.blk (q.off + k))) q.b q.c))) s).spByte b o) ∧
    (s.commitReady w = false → (s.launchOf w).rdnt = false → exec (.regionCommitComplete w) s = .next s) ∧
    (∀ st, r.failed = some st → s.commitFailed w = some st) ∧
    (∀ st, s.commitFailed w = some st → (s.launchOf w).rdnt = false →
      (x.awaits = true → exec (.regionCommitFail w) s = .next s) ∧
      (x.awaits = false →
        ∃ t, exec (.regionCommitFail w) s = .next t ∧ (t.warp w).older = none ∧ (∀ d ∈ (t.warp w).dirty, d.state = .committed) ∧
          (t.warp w).region.atoms = [] ∧ (t.warp w).region.spAtoms = [] ∧ (t.warp w).region.cmds = [])) ∧
    (s.commitFailed w = none → exec (.regionCommitFail w) s = .next s)

/-! ### The memory system's events (spec/14, spec/21 R371 to R373, spec/29 R449 to R453) -/

/-- R262, R267, R268, R371 to R373, R449 to R453: a line from HBM4 is in its slice, marked with the handle that holds it, with its marks
restored (a compact mark names its party's interval as the writer of all 16 words), the first victim of its set leaving when that is full
and the fill waiting when no victim's marks can be spilled; it is poisoned where it could not be corrected or its marks are lost; the
scrubber poisons such a line and counts a corrected error for its bank, which is to be vacated at the threshold; and a bank takes the
strong code with the driver's word within a second, its lines' marks out of the side bits, or keeps the normal one. No byte of memory
changes. The test of a cluster, one at a time and suspect ones first, asks that every block resident there be saved, and places nothing
there meanwhile; a cluster that passes is no longer suspect and its list of blocks is empty; one that fails is removed, its cores taken
from use. An uncorrectable error on the chip poisons the line of its home for a line or a committed-dirty copy, discards and re-enters the
region of a region-dirty copy, poisons a word of a scratchpad or a cell of an accumulator store, and ends a warp whose registers it strikes
with cause 0x20. Readings of the model itself here: notes/assumptions/35.md, notes/assumptions/54.md, notes/assumptions/87.md. -/
def Obligations.Reliability : Prop :=
  (∀ (s : State) (r : List Turn) (u : Upset), s.clockDue = none → s.agenda = .error u :: r →
     step s = .next (State.timed s { ({ s with agenda := r } : State).upset u with cur := none })) ∧
  (∀ (s : State) (w b off pa : Nat),
     let x := s.warp w
     (s.present (pa / 64) = true →
       (s.upset (.line pa)).mem = s.mem ∧ ∀ l, l ∈ (s.upset (.line pa)).poison ↔ l ∈ s.poison ∨ l = pa / 64) ∧
     ((s.spEntry b (off / 4096)).p = true → (s.block b).core < s.cores.length →
       (∃ f ∈ (s.core (s.block b).core).frames, f.2.blk = b ∧ f.2.pg = off / 4096) →
       ∀ o, (s.upset (.word b off)).spPoisoned b o = (s.spPoisoned b o || decide (o / 4 = off / 4))) ∧
     (∀ row col, (s.block b).state = .resident → b < s.blocks.length → row < (s.launch (s.block b).launch).accrows → col < 96 →
       ∀ k, k ∈ ((s.upset (.cell b row col)).block b).poisoned ↔ k ∈ (s.block b).poisoned ∨ k = 96 * row + col) ∧
     (∀ d, x.dirty.find? (fun d => d.line == pa / 64) = some d →
       let t := s.upset (.copy w (pa / 64))
       (d.state = .committed → s.secondary w = false →
         (∀ l, l ∈ t.poison ↔ l ∈ s.poison ∨ l = pa / 64) ∧ t.mem = s.mem ∧
         ∀ e ∈ (t.warp w).dirty, e.line = pa / 64 → e.state ≠ .committed) ∧
       (d.state = .region → x.awaits = false → x.reentry + 1 ≤ (s.launchOf w).reentry →
         (t.warp w).reentry = x.reentry + 1 ∧ t.mem = s.mem ∧ ∀ e ∈ (t.warp w).dirty, e.state ≠ .region) ∧
       (d.state = .committing → t = s)) ∧
     (x.live ≠ 0 → (s.blockOf w).state = .resident → w < s.warps.length → x.launch < s.launches.length →
       let t := s.upset (.warp w)
       (t.warp w).live = 0 ∧ (t.launch x.launch).failed = if (s.launch x.launch).failed = 0 then 0x20 else (s.launch x.launch).failed)) ∧
  (∀ (s : State) (pa : Nat),
     let line := pa / 64
     (∀ (set : List Nat) (chk : LineCheck) (lost : Bool), pa < Config.memBytes → s.present line = false →
       (s.roomAmong line set = none → exec (.hbmFill pa set chk lost) s = .next s) ∧
       ∀ u, s.roomAmong line set = some u →
         ∃ t, exec (.hbmFill pa set chk lost) s = .next t ∧ t.mem = s.mem ∧ t.side line = 0 ∧ t.marks = (u.restoreLine line).marks ∧
           t.l2 = ⟨line, u.handleFor line⟩ :: u.l2 ∧
           ∀ l, l ∈ t.poison ↔ l ∈ s.poison ∨ (l = line ∧ (chk = .uncorrectable ∨ lost = true))) ∧
     (∀ (set : List Nat), (s.l2.filter fun y => lineSlice y.line == lineSlice line).length < Config.sliceLines →
       s.victimsOf (set.filter fun l => lineSlice l == lineSlice line) = [] → s.roomAmong line set = some s) ∧
     (∀ (set : List Nat) (e : L2Line) (r : List L2Line), s.victimsOf (set.filter fun l => lineSlice l == lineSlice line) = e :: r →
       e.handle = none → ∀ v, s.dropLine e.line = some v → s.roomAmong line set = some v ∧ v.l2 = s.l2.filter fun y => y.line != e.line) ∧
     (∀ (p : Party) (r : IntRec) (num i : Nat) (k : AccClass), s.side line = sideWord num i k → num < 2 ^ 20 → (k = .data ∨ k = .accumulate) →
       s.aliasParty (lineSlice line) num = some p → s.rec? p = some r → ∀ q, q / 64 = line →
       ((s.restoreLine line).markAt (p.vi % 64) q).writer = some (p, nearInterval r.cur (i % 1024), k)) ∧
     (∀ chk, pa < Config.memBytes →
       let b := pa / bankBytes
       let errors := if line < s.scrubLine then 0 else (s.bank b).errors
       ∃ t, exec (.scrubLine pa chk) s = .next t ∧ t.mem = s.mem ∧ t.scrubLine = line ∧
         (∀ l, l ∈ t.poison ↔ l ∈ s.poison ∨ (l = line ∧ chk = .uncorrectable)) ∧
         (t.bank b).errors = (if chk = .corrected then errors + 1 else errors) ∧
         (t.bank b).code = if chk = .corrected ∧ (s.bank b).code = .normal ∧ s.scrubThresh ≤ errors + 1 then .vacating s.devTime
           else (s.bank b).code) ∧
     (∀ b since, (s.bank b).code = .vacating since →
       (s.devTime ≤ since + 10 ^ 9 → ∃ t, exec (.vacateAck b) s = .next t ∧ (t.bank b).code = .strong ∧ t.mem = s.mem ∧
         ∀ l, 64 * l / bankBytes = b → t.side l = 0) ∧
       (since + 10 ^ 9 ≤ s.devTime → ∃ t, exec (.vacateTimeout b) s = .next t ∧ (t.bank b).code = .normal ∧
         (t.bank b).errors = (s.bank b).errors ∧ t.mem = s.mem) ∧
       (s.devTime < since + 10 ^ 9 → exec (.vacateTimeout b) s = .next s))) ∧
  (∀ (s : State) (k : Nat),
     let x := s.cluster k
     (k < Config.cores / 8 → x.removed = false → (∀ c ∈ s.clusters, c.2.testing = false) →
       (x.suspect = true ∨ ∀ j, j < Config.cores / 8 → (s.cluster j).suspect = true → (s.cluster j).removed = true) →
       ∃ t, exec (.fieldTestStart k) s = .next t ∧ (t.cluster k).testing = true ∧ (∀ c, c / 8 = k → ∀ v, c ∉ t.usable v) ∧
         ∀ b, b < s.blocks.length → (s.block b).state = .resident → (s.block b).core / 8 = k →
           (s.block b).vi = (s.launch (s.block b).launch).vi → ∃ p ∈ t.preempts, b ∈ p.blocks) ∧
     (x.testing = true → s.onCluster k = [] →
       (∃ t, exec (.fieldTestResult k true) s = .next t ∧
         t.cluster k = { x with testing := false, suspect := false, lastPass := s.devTime, ran := [] } ∧ t.cores = s.cores) ∧
       ∃ t, exec (.fieldTestResult k false) s = .next t ∧ (t.cluster k).removed = true ∧ (t.cluster k).testing = false ∧
         ∀ c, c < s.cores.length → (t.core c).enabled = if c / 8 = k then false else (s.core c).enabled) ∧
     (x.testing = false → ∀ p, exec (.fieldTestResult k p) s = .next s))

/-- R91, R93, R135, R271: the service of a scratchpad page that has no copy gives a zero page in a free frame, and of a translation that is
now valid gives nothing but its use; the lanes that wait for it and for nothing else are parked no more. A translation still invalid stops its lanes with cause
0x13. -/
def Obligations.Services : Prop :=
  ∀ (s : State) (w : Nat) (n : Need),
    let x := s.warp w
    let unparked (t : State) : Prop := n ∉ (t.warp w).needs ∧ ∀ e ∈ (t.warp w).pct, e.state = .parked → ∀ l, bit e.mask l = true →
      bit n.lanes l = true → ∃ m ∈ (t.warp w).needs, bit m.lanes l = true
    n ∈ x.needs → n.failed = none →
    (∀ b p, n.what = .page b p →
      let blk := s.block b
      let fs := (s.core blk.core).frames
      b < s.blocks.length → blk.state = .resident → blk.core < s.cores.length →
      (s.spEntry b p).p = false → (s.spEntry b p).b = false → (s.spEntry b p).win = false → fs.length < 384 →
      (∀ f ∈ fs, ¬ (f.2.blk = b ∧ f.2.pg = p)) → s.framesOf blk.vi + 1 ≤ s.freeSlots blk.vi →
      ∃ t, exec (.servicePage b p) s = .next t ∧ unparked t ∧ (t.spEntry b p).p = true ∧ t.mem = s.mem ∧
        ∀ c o, t.spByte c o = if c = b ∧ o / 4096 = p then 0 else s.spByte c o) ∧
    (∀ va use, n.what = .xlat va use → x.needs = [n] →
      let die := (s.blockOf w).core / Config.dieCores
      (∀ pte base size, s.walkTree x.vi va = .leaf pte base size →
        s.useEntry x.vi die va ⟨x.vi, base, size, pte, s.pageBase pte die⟩ (useOf use) true ≠ .service →
        ∃ t, exec (.translationService w) s = .next t ∧ t = { s with warps := t.warps } ∧ unparked t) ∧
      (s.walkTree x.vi va = .invalid → n.lanes ≠ 0 → x.stop = none → x.older.isSome = true →
        ∃ t st, exec (.translationService w) s = .next t ∧ unparked t ∧ (t.warp w).stop = some st ∧ st.cause = 0x13 ∧
          st.lanes = n.lanes ∧ st.addr = n.addr ∧ st.discard = true))

/-- R272 to R274: making a replica copies every byte of the page, as it stands once dirty copies are home, and publishes copy and primary
in the replica record, which the leaf entry then names; a write collapses the page to its primary copy, no core keeping a translation of
it; a shootdown is sent to every agent, and an agent that acknowledges keeps no translation that overlaps it, nor, where it writes back, a
committed copy; with the last one it is over. Readings of the model itself here: notes/assumptions/45.md. -/
def Obligations.ReplicasAndShootdowns : Prop :=
  ∀ (s : State) (vi va : Nat),
    (∀ at_ pte base size, s.leafAt vi va = some (at_, pte, base, size) →
      let home := bits pte 50 49
      (∀ die pa rec_, s.memoryOk → bit pte 48 = true → bit pte 51 = false → die < Config.dies → die ≠ home → pa % size = 0 → dieOf pa = die →
        rec_ % 256 = 0 → pa + size ≤ Config.memBytes → rec_ + 64 ≤ Config.memBytes → s.writesTo vi base size (s.pageBase pte home) = false →
        (pa + size ≤ rec_ ∨ rec_ + 64 ≤ pa) → (pa + size ≤ at_ ∨ at_ + 8 ≤ pa) → (rec_ + 64 ≤ at_ ∨ at_ + 8 ≤ rec_) →
        ∃ t, exec (.replicaCreate vi va die pa rec_) s = .next t ∧
          (∀ i, i < size → t.mem.read (pa + i) = (s.shootAll vi base size true).mem.read (s.pageBase pte home + i)) ∧
          t.dword (rec_ + 8 * home) = s.pageBase pte home + 1 ∧ t.dword (rec_ + 8 * die) = pa + 1 ∧
          t.dword at_ = pte - pteAddr pte + rec_ + 2 ^ 51) ∧
      (bit pte 51 = true →
        ∃ t, exec (.replicaCollapse vi va) s = .next t ∧
          t.dword at_ = (pte - 2 ^ 51 - pteAddr pte + (s.replica pte home).getD 0) % 2 ^ 64 ∧
          (∀ c, c < Config.cores → c < s.cores.length → ∀ e ∈ (t.core c).tlb, e.overlaps vi base size = false) ∧
          ∀ a, (a < at_ ∨ at_ + 8 ≤ a) → t.mem.read a = s.mem.read a) ∧
      (bit pte 51 = false → exec (.replicaCollapse vi va) s = .next s)) ∧
    (∀ len wb, ∃ t, exec (.shootdown vi va len wb) s = .next t ∧ t = { s with shoot := s.shoot ++ [⟨vi, va, len, wb, agents⟩] }) ∧
    (∀ (k agent : Nat) (h : Shoot), s.shoot[k]? = some h → agent ∈ h.left →
      let left := h.left.filter fun a => a != agent
      ∃ t, exec (.shootdownAck k agent) s = .next t ∧
        t.shoot = (if left = [] then s.shoot.eraseIdx k else s.shoot.set k { h with left := left }) ∧
        (agent < Config.cores → agent < s.cores.length → ∀ e ∈ (t.core agent).tlb, e.overlaps h.vi h.va h.len = false) ∧
        (Config.cores ≤ agent → ∀ e ∈ t.walk, e.1 = agent - Config.cores → e.2.overlaps h.vi h.va h.len = false) ∧
        (agent < Config.cores → h.wb = true → ∀ w, w < s.warps.length → (s.warp w).vi = h.vi → (s.blockOf w).core = agent →
          (s.blockOf w).state = .resident → ∀ d ∈ (t.warp w).dirty, d.state = .committed → d.inRange h.va h.len = false) ∧
        (h.wb = false → t.mem = s.mem))

/-! ### The host and the interfaces (spec/04, spec/34 R481) -/

/-- R65, R66, R77, R78, R481: bytes written to the mailbox aperture are appended to the FIFO; past the aperture, not in whole dwords, or with
no room, and at any other address of BAR0, they freeze the interface, as Bilral's request does: MBXSTAT then holds the first cause,
nothing is written and every resident block is to be saved. A frozen interface drops what is written, and a thaw clears MBXSTAT and the FIFO. -/
def Obligations.MailboxAndFreeze : Prop :=
  ∀ (s : State) (vi off : Nat) (bytes : List Byte),
    let v := s.vi vi
    let frozen (t : State) (cause : Nat) : Prop := (t.vi vi).frozen = true ∧ (t.vi vi).cause = cause ∧
      t.mailboxRead vi 0x8010 8 = cause * 256 + 1 ∧ t.mailboxRead vi 0x8010 4 = (cause * 256 + 1) % 2 ^ 32 ∧ (t.vi vi).fifo = v.fifo ∧ t.mem = s.mem ∧
      ∀ b, b < s.blocks.length → (s.block b).vi = vi → (s.block b).state = .resident → ∃ p ∈ t.preempts, b ∈ p.blocks
    s.viUp vi = true →
    (v.frozen = false →
      (v.resetting = false → off + max 1 bytes.length ≤ 0x8000 → off % 8 = 0 → bytes.length % 8 = 0 →
        v.fifo.length + bytes.length ≤ fifoBytes →
        ∃ t, exec (.mbxApertureWrite vi off bytes) s = .next t ∧ t = { s with vis := t.vis } ∧ (∀ k, k ≠ vi → t.vi k = s.vi k) ∧
          t.vi vi = { v with fifo := v.fifo ++ bytes } ∧ t.mailboxRead vi 0x8000 8 = fifoBytes - (v.fifo.length + bytes.length)) ∧
      (0x8000 < off + max 1 bytes.length → ∃ t, exec (.mbxApertureWrite vi off bytes) s = .next t ∧ frozen t 4) ∧
      (v.resetting = false → off + max 1 bytes.length ≤ 0x8000 →
        (off % 8 ≠ 0 ∨ bytes.length % 8 ≠ 0 → ∃ t, exec (.mbxApertureWrite vi off bytes) s = .next t ∧ frozen t 2) ∧
        (off % 8 = 0 → bytes.length % 8 = 0 → fifoBytes < v.fifo.length + bytes.length →
          ∃ t, exec (.mbxApertureWrite vi off bytes) s = .next t ∧ frozen t 3)) ∧
      (0x8000 ≤ off → ∃ t, exec (.bar0RegisterWrite vi off) s = .next t ∧ frozen t 4) ∧
      (∃ t, exec (.freezeRequest vi) s = .next t ∧ frozen t 0x80) ∧ exec (.thaw vi) s = .next s) ∧
    (v.frozen = true →
      exec (.mbxApertureWrite vi off bytes) s = .next s ∧ exec (.bar0RegisterWrite vi off) s = .next s ∧
      exec (.freezeRequest vi) s = .next s ∧
      ∃ t, exec (.thaw vi) s = .next t ∧ t = { s with vis := t.vis } ∧ (∀ k, k ≠ vi → t.vi k = s.vi k) ∧
        t.vi vi = { v with frozen := false, cause := 0, fifo := [] } ∧ t.mailboxRead vi 0x8010 8 = 0)

/-- R66 to R68, R71, R356: the command at the head of a FIFO is applied and leaves it, counted: `launch` accepts its record under the next
number; `write` puts its data at home as a release of the host; `read` fills the read buffer; `qflush` ends the undispatched launches of
its queue. A command that breaks the mailbox's rules freezes the interface instead. Readings of the model itself here:
notes/assumptions/47.md, notes/assumptions/48.md. -/
def Obligations.MailboxCommands : Prop :=
  ∀ (s : State) (vi op q : Nat) (p : List Byte),
    let v := s.vi vi
    let gone (t : State) : Prop := (t.vi vi).fifo = v.fifo.drop (8 + p.length) ∧ (t.vi vi).applied = (v.applied + 1) % 2 ^ 64
    let va := payloadDw p 0
    let data := p.drop 8
    let n := payloadDw p 1
    let rcd := (List.range 32).map fun k => payloadDw p k
    s.viUp vi = true → v.configured = true → v.frozen = false → v.resetting = false →
    (v.head = .command op q p →
      (op = 1 → s.waitingLaunches vi < 1024 → s.moduleFailed = false → s.cbwUnusable vi (rcd.getD 9 0) = none →
        ∃ t, exec (.launch vi) s = .next t ∧ gone t ∧ (t.vi vi).lastNum = (s.accept vi q rcd).1 ∧
          t.launches = (s.accept vi q rcd).2.launches ∧ t.mem = (s.accept vi q rcd).2.mem ∧
          (t.vi vi).queues = ((s.accept vi q rcd).2.vi vi).queues) ∧
      (op = 2 → hostSpan va data.length = true → s.ctrOffset vi va = none → canonical va = true →
        (∀ l ∈ s.launches, l.vi = vi → l.replaying = false) →
        ∀ pa, (s.writeAt vi va).1 = some pa → (s.writeAt vi va).2.homeWaits vi (hostParty vi) (wordsOf pa data.length) = false →
        let u := (s.writeAt vi va).2.openHost vi
        u.homeConflict vi (u.hostAccess vi .release true) none (wordsOf pa data.length) = none →
        ∃ t, exec (.write vi) s = .next t ∧ gone t ∧
          (∀ a, t.mem.read a = if pa ≤ a ∧ a < pa + data.length then data.getD (a - pa) 0 else u.mem.read a) ∧
          (t.intervalOf (hostParty vi)).1 = ((u.intervalOf (hostParty vi)).1 + 1) % intervalMod) ∧
      (op = 3 → hostSpan va n = true → s.ctrOffset vi va = none → canonical va = true → ∀ pa, s.paOf vi va .read = some pa →
        ∃ t, exec (.read vi) s = .next t ∧ gone t ∧ (t.vi vi).rdBuf = s.mem.readBytes pa n ∧
          (t.vi vi).rdDone = (v.rdDone + 1) % 2 ^ 64 ∧ t = { s with vis := t.vis }) ∧
      (op = 4 → ∃ t, exec (.qflush vi) s = .next t ∧ gone t ∧
        ∀ li ∈ v.queues.getD q [], (s.launch li).next = 0 → (t.launch li).state = .ended)) ∧
    (∀ c, v.head = .bad c → exec (.launch vi) s = .next (s.freeze vi c) ∧ exec (.write vi) s = .next (s.freeze vi c) ∧
      exec (.read vi) s = .next (s.freeze vi c) ∧ exec (.qflush vi) s = .next (s.freeze vi c)) ∧
    (v.head = .command 2 q p → hostSpan va data.length = false → exec (.write vi) s = .next (s.freeze vi 2)) ∧
    (v.head = .command 3 q p → hostSpan va n = false → exec (.read vi) s = .next (s.freeze vi 2)) ∧
    (v.head = .none → exec (.launch vi) s = .next s ∧ exec (.write vi) s = .next s ∧ exec (.read vi) s = .next s ∧
      exec (.qflush vi) s = .next s)

/-- R62 to R64, R79, R481: a reset of an interface retires its blocks, ends its launches, drops its requests and leaves its registers,
queues, handles, breakpoints and counters at their reset values, its configuration standing; a function level reset does so, of the
physical function for every interface; it is complete with no mark and no record left of what ran; and a configuration that Bilral accepts
is set, with empty buckets. Readings of the model itself here: notes/assumptions/46.md, notes/assumptions/50.md. -/
def Obligations.InterfaceResets : Prop :=
  ∀ (s : State) (vi : Nat),
    let cleared (t : State) (v : Nat) : Prop := t.vi v = (s.vi v).afterReset ∧ (∀ b, (s.block b).vi = v → (t.block b).state = .retired) ∧
      (∀ l ∈ t.launches, l.vi = v → l.state = .ended) ∧ (∀ q ∈ t.net, q.vi ≠ v) ∧ ∀ p ∈ t.preempts, p.vi ≠ v
    (s.viUp vi = true →
      (∃ t, exec (.viReset vi) s = .next t ∧ cleared t vi) ∧
      (∃ t, exec (.functionLevelReset vi) s = .next t ∧ cleared t vi ∧ (vi = 0 → ∀ v, v < s.vis.length → cleared t v)) ∧
      (∀ cfg, s.configOk vi cfg = true →
        ∃ t, exec (.viConfigure vi cfg) s = .next t ∧ (t.vi vi).configured = true ∧ (t.vi vi).cfg = cfg ∧
          ∀ c, t.tokens c vi = 0) ∧
      (∀ cfg, s.configOk vi cfg = false → exec (.viConfigure vi cfg) s = .next s)) ∧
    ((s.vi vi).resetting = true →
      ∃ t, exec (.viResetComplete vi) s = .next t ∧ t.vi vi = { s.vi vi with resetting := false } ∧ (∀ m ∈ t.marks, m.vi ≠ vi) ∧
        (∀ r ∈ t.recs, r.party.vi % 64 = vi → r.party.launch = 0) ∧ t.mem = s.mem)

/-! ### The Headgate, the Levee and power (spec/04 R75, spec/05, spec/34 R487) -/

/-- R75, R83 to R86, R12 to R14, R90, R144: the Headgate dispatches the next block of the launch that it chooses: where that is no gang, the
block stands last in the local queue of the core that R83 names, its launch runs, and the interface's VTIME goes on by its share; with no
choice it only looks at the queues again. The head of a core's local queue that may start becomes resident there, its warps at the entry
with the launch's present lanes, the parameter address in s0 and s1; one that may not stays. In a cycle of work stealing every core that
finds a victim asks; a thief gets the first of its list that qualifies and that no lower thief gets, and takes its head block. -/
def Obligations.BlocksAreDispatched : Prop :=
  (∀ (s : State),
     let u := s.refresh
     (∀ (c : Cand) (lin k : Nat),
       let l := u.launch c.li
       u.chooseLaunch u.cands = some c → u.weirRoom c.li = true → u.nextBlock c.li = some lin → l.gang ≤ 1 → l.rdnt = false →
       u.queueCore l = some k → k < u.cores.length → l.vi = c.vi →
       ∃ t b, exec .headgateDispatch s = .next t ∧ (t.block b).launch = c.li ∧ (t.block b).lin = lin ∧ (t.block b).copy = 0 ∧
         (t.block b).state = .queued ∧ (t.block b).core = k ∧ (t.core k).queue = (u.core k).queue ++ [b] ∧
         (t.launch c.li).state = .running ∧ (t.launch c.li).next = max l.next (lin + 1) ∧ lin ∉ (t.launch c.li).returned ∧
         (t.vi c.vi).vtime = (u.vi c.vi).vtime + 65536 / max 1 (u.vi c.vi).cfg.share ∧ t.warps = u.warps) ∧
     (u.chooseLaunch u.cands = none → exec .headgateDispatch s = .next u)) ∧
  (∀ (s : State) (c b : Nat) (r : List Nat),
     let x := s.block b
     let l := s.launch x.launch
     c < s.cores.length → b < s.blocks.length →
     ((s.core c).queue = b :: r →
       (s.mayStart b c = true →
         ∃ t, exec (.blockStart c) s = .next t ∧ (t.core c).queue = r ∧ (t.block b).state = .resident ∧ (t.block b).core = c ∧
           t.warps.length = s.warps.length + l.nwarps ∧ (∀ w, w < s.warps.length → t.warp w = s.warp w) ∧ t.mem = s.mem ∧
           ∀ i, i < l.nwarps →
             let w := t.warp (s.warps.length + i)
             w.block = b ∧ w.windex = i ∧ w.present = l.presentLanes i ∧ w.ended = false ∧ w.party = ⟨l.vi + 64 * x.copy, l.num, x.lin, i⟩ ∧
             w.pct = [⟨l.entry, l.presentLanes i, .ready, .none, 0⟩] ∧ w.s 0 = BitVec.ofNat 32 l.param ∧
             w.s 1 = BitVec.ofNat 32 (l.param / 2 ^ 32)) ∧
       (s.mayStart b c = false → exec (.blockStart c) s = .next s)) ∧
     ((s.core c).queue = [] → exec (.blockStart c) s = .next s)) ∧
  (∀ (s : State) (named : List Nat), (∀ u v, ∀ b ∈ (s.core u).queue, b ∈ (s.core v).queue → u = v) →
     (∀ c, c ∈ s.thieves ↔ c < s.cores.length ∧ ∃ v ∈ victims c, s.stealable c v = true) ∧
     (∀ c ∈ s.thieves, ∀ v, (c, v) ∈ s.grants s.thieves ↔
       (victims c).find? (fun u => s.stealable c u && !((s.grants s.thieves).any fun x => decide (x.1 < c) && x.2 == u)) = some v) ∧
     ∃ t, exec (.workSteal named) s = .next t ∧ ∀ c v b r, (c, v) ∈ s.grants s.thieves → (s.core v).queue = b :: r → b < s.blocks.length →
       (t.core v).queue = r ∧ (t.block b).core = c ∧ ((t.block b).state = .resident ∨ (t.core c).queue = [b]))

/-- R95 to R97, R487: a refill, due at each multiple of 1,024 of the ordering clock, gives every interface on a core its bytes and what the
idle ones leave it, up to twice its own; each microsecond a grant between 32 and 256 gives every core its allowance and the engine's credit,
32 on a die past its limit; without one for 4 µs the core uses 32; and a die that passes its limit is held to 32 at once. Readings of the
model itself here: notes/assumptions/108.md. -/
def Obligations.LeveeAndPower : Prop :=
  ∀ (s : State),
    (s.lastRefill < s.clock / 1024 →
      ∃ t, exec .leveeRefill s = .next t ∧ t = { s with cores := t.cores, lastRefill := s.lastRefill + 1 } ∧
        ∀ c v, c < s.cores.length → v < s.vis.length → (s.vi v).configured = true → c ∈ (s.vi v).cfg.partition →
          t.tokens c v = min (s.tokens c v +
            (s.refillOf v + s.extraOf (s.visOn c) ((s.visOn c).filter fun u => s.portWaits c u) v)) (2 * s.refillOf v)) ∧
    (s.clock / 1024 ≤ s.lastRefill → exec .leveeRefill s = .next s) ∧
    (∀ gs, s.lastGrantAt < s.devTime / 1000 →
      ∃ t, exec (.powerGrant gs) s = .next t ∧ t = { s with cores := t.cores, lastGrantAt := s.devTime / 1000 } ∧
      ∀ c, c < s.cores.length →
        let a := if c / Config.dieCores ∈ s.hot then 32 else max 32 (min 256 (gs.getD c 32))
        t.core c = { s.core c with grant := a, credit := 1200 * a / 256, lastGrant := s.devTime }) ∧
    (∀ gs, s.devTime / 1000 ≤ s.lastGrantAt → exec (.powerGrant gs) s = .next s) ∧
    (∀ c, c < s.cores.length →
      ((s.core c).lastGrant + 4000 ≤ s.devTime →
        ∃ t, exec (.powerGrantTimeout c) s = .next t ∧ (t.core c).grant = 32 ∧ (t.core c).credit = 150 ∧ t = { s with cores := t.cores }) ∧
      (s.devTime < (s.core c).lastGrant + 4000 → exec (.powerGrantTimeout c) s = .next s)) ∧
    (∀ die, die < Config.dies →
      (∃ t, exec (.thermalLimit die true) s = .next t ∧ die ∈ t.hot ∧ t = { s with cores := t.cores, hot := t.hot } ∧
        ∀ c, c < s.cores.length → t.core c = if c / Config.dieCores = die then
          { s.core c with grant := 32, credit := min (s.core c).credit 150 } else s.core c) ∧
      ∃ t, exec (.thermalLimit die false) s = .next t ∧ t = { s with hot := s.hot.filter fun d => d != die })

/-! ### The engines at work (spec/17 R299 to R307, spec/18 R312 to R341) -/

/-- R299, R300, R302 to R307, R346: byte by byte a copy command puts at its destination what its source holds: of a scratchpad page that
is in its frame, of global memory at home; a fill puts the bytes of its pattern. The command that a copy engine works on for a warp starts
where its descriptor is valid, performs its chunk where nothing fails, as a fill of pages in their frames does, and goes on to the next;
once all are done, or one has failed, it leaves the queue, its counter is credited, and its completion word, if it has counted one, counts
down with status 5 and the first error where it failed: at once where the warp stands at a boundary, the port takes a line, the home
has room and replay does not hold it for the order of its log. Readings of the model itself here: notes/assumptions/42.md,
notes/assumptions/68.md, notes/assumptions/90.md. -/
def Obligations.CopyEngine : Prop :=
  (∀ (s : State) (e : EngOf) (d : List Nat) (t : Nat) (u : State),
     let core := (s.block e.blk).core
     let ga := cpdGlobal d (d.getD 0 0) t
     let gb := cpdSecond d (d.getD 1 0) t % 2 ^ 64
     let sp := cpdSecond d (cpdSpa d) t
     let pat := BitVec.ofNat 8 (d.getD 1 0 >>> (8 * (cpdIndex d t 0 % 8)))
     let there (b : Nat) : Prop := (s.spEntry b (sp / 4096)).p = true ∧
       ∃ f ∈ (s.core (s.block b).core).frames, f.2.blk = b ∧ f.2.pg = sp / 4096
     s.secondary e.w = false → core < s.cores.length →
     (∀ pa, s.engWhere e ga .read = .ok (.home pa) →
       (there e.blk → s.copyByte e 0 d t = (u, none) → u.spByte e.blk sp = s.mem.read pa) ∧
       ((∀ m ∈ s.bcastBlocks e.blk (cpdMask d), there m) → s.copyByte e 4 d t = (u, none) →
         ∀ m ∈ s.bcastBlocks e.blk (cpdMask d), u.spByte m sp = s.mem.read pa) ∧
       ∀ pb, s.engWhere e gb .write = .ok (.home pb) → s.vacated pb = false → s.copyByte e 2 d t = (u, none) → u.mem.read pb = s.mem.read pa) ∧
     (∀ pa, s.engWhere e (cpdGather d t) .read = .ok (.home pa) → there e.blk → s.copyByte e 3 d t = (u, none) →
       u.spByte e.blk sp = s.mem.read pa) ∧
     (∀ pa, s.engWhere e ga .write = .ok (.home pa) → s.vacated pa = false →
       (there e.blk → s.copyByte e 1 d t = (u, none) →
         u.mem.read pa ∈ s.spByte e.blk sp :: ((e.old.filter fun x => x.1 == sp).map Prod.snd ++ s.spOlds e.blk sp)) ∧
       (cpdFdst d = true → s.copyByte e 5 d t = (u, none) → u.mem.read pa = pat)) ∧
     (cpdFdst d = false → there e.blk → s.copyByte e 5 d t = (u, none) → u.spByte e.blk sp = pat)) ∧
  (∀ (s : State) (w core : Nat),
     let x := s.warp w
     (∀ va, s.readyToEnd w core va none = (true, s)) ∧
     ∀ va pa, s.portBusy core x.vi = false → s.homeWaits x.vi x.party [pa, pa + 4] = false →
       (s.gate x.launch va (s.blockOf w).lin x.windex = .hold → s.readyToEnd w core va (some pa) = (false, s.noteHeld x.launch va)) ∧
       (s.gate x.launch va (s.blockOf w).lin x.windex ≠ .hold → x.region.issued = 0 → x.older = none →
         s.readyToEnd w core va (some pa) = (true, s))) ∧
  (∀ (s : State) (core : Nat) (c : CopyCmd),
     let e : EngOf := ⟨c.warp, c.blk, c.int, []⟩
     let offs := (chunkOrder c.desc c.next).map fun t => cpdSecond c.desc (cpdSpa c.desc) t
     s.copyAt core c.id = some c → (s.launchOf c.warp).rdnt = false →
     (∀ u, s.chunkDue core c = true → c.running = true → s.chunk e c.kind c.desc c.next = (u, none) →
       (∃ q ∈ (u.core core).copyq, q.id = c.id) →
       ∃ t, exec (.copyChunk core c.id) s = .next t ∧ t.mem = u.mem ∧ (∀ b o, t.spByte b o = u.spByte b o) ∧
         ∃ q ∈ (t.core core).copyq, q.id = c.id ∧ ∃ y ∈ (u.core core).copyq, y.id = c.id ∧ q = { y with next := y.next + 1 }) ∧
     (s.chunkDue core c = true → c.running = true → c.kind = 5 → cpdFdst c.desc = false → (∀ o ∈ offs, EngWrites s e o) →
       ∃ t, exec (.copyChunk core c.id) s = .next t ∧ t.mem = s.mem ∧ { c with next := c.next + 1 } ∈ (t.core core).copyq ∧
         ∀ b o, (b ≠ c.blk ∨ o ∉ offs) → t.spByte b o = s.spByte b o) ∧
     (s.chunkDue core c = true → c.running = false → (s.launchOf c.warp).cpdInvalid c.kind c.desc = true →
       ∃ t, exec (.copyChunk core c.id) s = .next t ∧ t.mem = s.mem ∧ { c with running := true, err := some 4 } ∈ (t.core core).copyq) ∧
     (s.chunkDue core c = true → c.running = false → (s.launchOf c.warp).cpdInvalid c.kind c.desc = false → c.kind ≠ 3 → c.kind ≠ 6 →
       ∃ t, exec (.copyChunk core c.id) s = .next t ∧ t.mem = s.mem ∧
         { c with running := true, next := if cpdRes c.desc then cpdNext c.desc else 0 } ∈ (t.core core).copyq) ∧
     (c.over_ = true → s.engineRuns core c.blk true = true → s.secondary c.warp = false →
       ((s.core core).firstCopy c.warp).map CopyCmd.id = some c.id →
       (∀ u, s.readyToEnd c.warp core (c.desc.getD 7 0) c.cbw = (false, u) → exec (.copyComplete core c.id) s = .next u) ∧
       ∀ u, s.readyToEnd c.warp core (c.desc.getD 7 0) c.cbw = (true, u) → Unwaited u c.warp →
         ∃ t, exec (.copyComplete core c.id) s = .next t ∧ (∀ q ∈ (t.core core).copyq, q.id ≠ c.id) ∧
           (t.warp c.warp).opsC = popDone ((u.warp c.warp).opsC.map fun o => if o.id == c.id then { o with done := true } else o) ∧
           (∀ pa, c.cbw = some pa → (∀ d ∈ (u.warp c.warp).dirty, d.state ≠ .committed) →
             u.gate (u.warp c.warp).launch (c.desc.getD 7 0) (u.blockOf c.warp).lin (u.warp c.warp).windex = .go →
             t.dword pa = cbwEnd (u.dword pa) (if c.err.getD 0 = 0 then 0 else 5) (c.err.getD 0) true ∧
             ∀ a, (a < pa ∨ pa + 8 ≤ a) → t.mem.read a = u.mem.read a) ∧
           (c.desc.getD 7 0 = 0 → c.cbw = none → t.mem = s.mem)))

/-- R310, R312, R313, R316, R319 to R323, R97: an `mmac` whose parameter block is valid starts; one k-block of it, where its clocks are left
of the engine's credit, gives every cell of its tile the sum that R313 names of what it has read, and it goes on to the next one, as it
does where the scratchpad bytes that it reads are free; without the credit it waits; one whose parameter block is not valid fails with
error 4. A `macc.st` stores its next row where its bytes are free. The engine's work waits for the port where it may fill a window page, the
model's choice (notes/assumptions/33.md). -/
def Obligations.MatrixKBlocks : Prop :=
  ∀ (s : State) (core : Nat) (c : MatCmd),
    let b := s.block c.blk
    s.currentMat core = some c → c.err = none → (s.launchOf c.warp).rdnt = false → c.blk < s.blocks.length → s.pieceShort core c.blk = false →
    (∀ m, c.kind = .mmac m → c.running = false →
      ((s.launchOf c.warp).geometry m = none →
        ∃ t, exec (.matrixKblock core) s = .next t ∧ t.mem = s.mem ∧ { c with running := true, err := some 4, stalled := none } ∈ (t.core core).matq) ∧
      ∀ g, (s.launchOf c.warp).geometry m = some g → (mpbSparse m = true → s.holdsMq c.blk (mpbMq m) = true) → mpbOp m ≠ 2 →
        (s.launchOf c.warp).operandsFit m g [] = true →
        ∃ t, exec (.matrixKblock core) s = .next t ∧ t.mem = s.mem ∧
          { c with running := true, next := if mpbRes m then mpbNext m else 0, idx := [] } ∈ (t.core core).matq) ∧
    (∀ m g, c.kind = .mmac m → c.running = true → c.next < mpbKb m → (s.launchOf c.warp).geometry m = some g → s.starved c = false →
      let entry := if mpbSparse m then (s.mqEntries c.blk (mpbMq m)).headD [] else []
      let v := ((s.payCredit core g.clocks).popEntry c m).2
      ((s.core core).credit < g.clocks → exec (.matrixKblock core) s = .next s) ∧
      (g.clocks ≤ (s.core core).credit → (mpbSparse m = true → mqeBad entry (mpbM m) = false) →
        ((∀ i j, i < mpbM m → j < mpbN m → 96 * (mpbRow0 m + i) + j ∉ b.poisoned) ∨ (mpbAcc m = false ∧ c.next = 0)) →
        ((∀ off ∈ blockReads m g c.idx c.next, EngReads s c.eng off) →
          ∃ t, exec (.matrixKblock core) s = .next t ∧ t.mem = s.mem ∧ (t.core core).credit = (s.core core).credit - g.clocks ∧
            { c with next := c.next + 1, stalled := none } ∈ (t.core core).matq) ∧
        ∀ o u, v.operands c.eng m g c.idx entry c.next = (o, u, none) →
          ∃ t, exec (.matrixKblock core) s = .next t ∧ t.mem = u.mem ∧
            (mpbN m ≤ 96 → ∀ i j, i < mpbM m → j < mpbN m → (t.block c.blk).cell (mpbRow0 m + i) j =
              cellAfter (if c.next = 0 ∧ mpbAcc m = false then none else some (b.cell (mpbRow0 m + i) j))
                (o.a.getD i []) (o.b.getD j [])) ∧
            (mpbN m ≤ 96 → ∀ r j, j < 96 → (r < mpbRow0 m ∨ mpbRow0 m + mpbM m ≤ r ∨ mpbN m ≤ j) → (t.block c.blk).cell r j = b.cell r j) ∧
            (t.core core).credit = (s.core core).credit - g.clocks)) ∧
    (∀ data scale row n fmt raw k, c.kind = .st data scale row n fmt raw → c.running = true → c.next < n →
      (s.launchOf c.warp).maccSlot fmt raw = some k → b.rowPoisoned (row + c.next) = false →
      let image := s.stImage c.blk (row + c.next) k
      let xs := imageAt data scale k c.next image.1 image.2.1
      (∀ y ∈ xs, EngWrites s c.eng y.1) →
      ∃ t, exec (.matrixKblock core) s = .next t ∧ t.mem = s.mem ∧ (∃ q ∈ (t.core core).matq, q.id = c.id ∧ q.next = c.next + 1) ∧
        ∀ d o, t.spByte d o = (xs.foldl (fun (u : State) y => u.spWriteBytes c.blk y.1 [y.2]) s).spByte d o)

/-- R303, R312, R317, R322, R323, R332, R336, R340, R341, R346: a matrix command that is done leaves the queue and its counter is credited; a
`macc.zero` has put +0 in its rows and lifted their poison, an `mqctl` has given its answer, a `macc.rd` its cells, rounded, or a stop of
cause 0x11 where there is no such row; an `mmac` has counted its completion word down; a failed one is recorded, one that succeeds is not;
one whose decrement cannot be performed yet waits; a sparse command that has stalled for the watchdog period fails with error 6. Readings of
the model itself here: notes/assumptions/42.md, notes/assumptions/68.md, notes/assumptions/90.md. -/
def Obligations.MatrixEngine : Prop :=
  ∀ (s : State) (core : Nat) (c : MatCmd),
     let x := s.warp c.warp
     let gone (u t : State) : Prop := (∀ q ∈ (t.core core).matq, q.id ≠ c.id) ∧
       (t.warp c.warp).opsT = popDone ((u.warp c.warp).opsT.map fun o => if o.id == c.id then { o with done := true } else o)
     ((s.core core).matq.find? (fun c => c.handed && s.engineRuns core c.blk false && s.starved c &&
         (match c.stalled with | some t => decide (t + (s.launchOf c.warp).wdogNs ≤ s.devTime) | none => false)) = some c →
       ∃ t, exec (.sparseStallTimeout core) s = .next t ∧ t = { s with cores := t.cores } ∧
         { c with err := some 6, stalled := none } ∈ (t.core core).matq) ∧
     (s.currentMat core = some c → c.ended = true → (s.launchOf c.warp).rdnt = false → c.warp < s.warps.length → c.blk < s.blocks.length →
     (∀ u, s.readyToEnd c.warp core c.cbwVa c.cbw = (false, u) → exec (.matrixCommandComplete core) s = .next u) ∧
     (∀ row n, c.kind = .zero row n → c.cbw = none → Unwaited s c.warp →
       (row + n ≤ (s.launchOf c.warp).accrows →
         ∃ t, exec (.matrixCommandComplete core) s = .next t ∧ gone s t ∧ (t.warp c.warp).merr = x.merr ∧
           ∀ r j, j < 96 → (t.block c.blk).cell r j = (if row ≤ r ∧ r < row + n then 0 else (s.block c.blk).cell r j) ∧
             (row ≤ r → r < row + n → 96 * r + j ∉ (t.block c.blk).poisoned)) ∧
       ((s.launchOf c.warp).accrows < row + n →
         ∃ t, exec (.matrixCommandComplete core) s = .next t ∧ gone s t ∧ (t.warp c.warp).merr = some (4, 3) ∧
           (t.block c.blk).acc = (s.block c.blk).acc)) ∧
     (∀ q r, c.kind = .mq 2 q (some r) → c.cbw = none → r < 1792 → Unwaited s c.warp →
       ∃ t, exec (.matrixCommandComplete core) s = .next t ∧ gone s t ∧
         (∀ p ∈ (t.warp c.warp).pend, p.id ≠ c.id) ∧
         (t.warp c.warp).region = x.region ∧ Wrote x (t.warp c.warp)
           [(1, regOfId r, 1, fun _ => if s.holdsMq c.blk q then 128 + (s.mqEntries c.blk q).length else 0)]) ∧
     (∀ reg row col mask rt rnd, c.kind = .rd reg row col mask rt rnd → c.cbw = none → reg + rdRegs rt ≤ 1536 → Unwaited s c.warp →
       (row < (s.launchOf c.warp).accrows → (col = 0 ∨ col = 32 ∨ col = 64) →
         (∀ i, i < 32 → bit mask i = true → 96 * row + col + i ∉ (s.block c.blk).poisoned) →
         ∃ t, exec (.matrixCommandComplete core) s = .next t ∧ gone s t ∧ (∀ p ∈ (t.warp c.warp).pend, p.id ≠ c.id) ∧
           Wrote x (t.warp c.warp) [(mask, regOfId reg, rdRegs rt, fun i => (rdValue rt rnd ((s.block c.blk).cell row (col + i))).1)]) ∧
       ((s.launchOf c.warp).accrows ≤ row → x.stop = none → x.older.isSome = true →
         ∃ t st, exec (.matrixCommandComplete core) s = .next t ∧ gone s t ∧ (t.warp c.warp).stop = some st ∧ st.cause = 0x11 ∧
           st.discard = true ∧ st.lanes = mask)) ∧
     (∀ m u, c.kind = .mmac m → s.readyToEnd c.warp core c.cbwVa c.cbw = (true, u) → Unwaited u c.warp →
       ∃ t, exec (.matrixCommandComplete core) s = .next t ∧ gone u t ∧
         (∀ pa, c.cbw = some pa → (∀ d ∈ (u.warp c.warp).dirty, d.state ≠ .committed) →
           u.gate (u.warp c.warp).launch c.cbwVa (u.blockOf c.warp).lin (u.warp c.warp).windex = .go →
           t.dword pa = cbwEnd (u.dword pa) (if c.err.getD 0 = 0 then 0 else 5) (c.err.getD 0) true) ∧
         (c.err.getD 0 = 0 → (t.warp c.warp).merr = (u.warp c.warp).merr) ∧
         ∀ n, c.err = some n → n ≠ 0 → (t.warp c.warp).merr = some (n % 256, 0)))

/-! ### Waits, the floor and the Weir (spec/17 R309, spec/21 R369, R370, spec/22 R397, spec/23 R401 to R413) -/

/-- R309, R397: a warp that waits in a word reads it again at its home: where `cbw.wait` finds COUNT 0, or `waitw` its condition, the
value is in the destination, the wait is over and the interval advances; else it waits on. Readings of the model itself here:
notes/assumptions/103.md. -/
def Obligations.WordsReadAgain : Prop :=
  ∀ (g : Guard) (d b : Reg) (s : State) (x : Issue) (l : Nat) (y : Lane),
    let w := x.w
    let u : State := { s with cur := some x }
    let free (v : State) (n : Nat) (cls : AccClass) (wr : Bool) : Prop :=
      v.globalConflicts w (v.access w cls wr) none [(y, wordsOf y.pa n)] = [] ∧ v.poisonedFor (v.blockOf w).core y.pa = false
    let over_ (t : State) (n val : Nat) : Prop := (t.warp w).hold = .none ∧ Wrote (s.warp w) (t.warp w) [(1, d, n, fun _ => val)] ∧
      Lands s t x (fun _ => nextPc x.pc) ∧ (t.intervalOf (s.warp w).party).1 = ((s.intervalOf (s.warp w).party).1 + 1) % intervalMod
    let on (t : State) : Prop := (t.warp w).hold = (s.warp w).hold ∧ Wrote (s.warp w) (t.warp w) [] ∧
      (t.intervalOf (s.warp w).party).1 = (s.intervalOf (s.warp w).party).1
    s.canIssue w = true → Live s w → s.memLanes x g false = [(l, false)] → y.helper = false → (s.rec? (s.warp w).party).isSome = true →
    s.onCounters w y.va = false → (s.warp w).stepping = false → u.portShort w = false →
    ((s.warp w).hold = .word (.cbwWait g d b) x →
      let P := u.cbwLook x b .read (l, false)
      let v := P.2.writeBackAll w
      P.1 = .fine y → P.2.homesWait w (wordsOf y.pa 8) = false → free v 8 .acquire false →
      ∃ t, exec (.cbwWaitReread w) s = .next t ∧
        if cbwCount (v.dword y.pa) = 0 then over_ t 2 (v.dword y.pa) else on t) ∧
    (∀ (base : MemBase) (cond : Cond) (w64 signed : Bool) (scope : Scope),
      (s.warp w).hold = .word (.waitw g d base b cond w64 signed scope) x →
      let k : WaitW := ⟨g, d, base, b, cond, w64, signed, scope⟩
      let P := u.waitwLook x k (l, false)
      let v := P.2.writeBackAll w
      let val := leNat (v.mem.readBytes y.pa k.size.bytes)
      P.1 = .fine y → P.2.homesWait w (wordsOf y.pa k.size.bytes) = false → free v k.size.bytes k.cls (k.cls == .exchange) →
      ∃ t, exec (.waitwReread w) s = .next t ∧
        if condHolds cond (intVal k.ty val) (intVal k.ty (s.src x ⟨b, k.ty, 0⟩ 0)) = true then over_ t k.size.regs val else on t)

/-- R363, R369, R370, R401, R404, R406, R412, R413: once a microsecond the floor is broadcast: it is no later than the start of any open
interval of a warp, it is kept with the one before it, and a record goes only when its warp has exited and the floor has passed it. An
ordered update that reaches its home is held there in its order, waiting no more, and so is one that the deferred area takes up again; a
request whose turn in the log has come is released, and a staged write-back whose turn has come is performed; and a requester that the log
expects and that has not come within the window makes its launch diverge. Readings of the model itself here: notes/assumptions/39.md. -/
def Obligations.FloorsAndOrderedRequests : Prop :=
  (∀ (s : State),
     let f := s.openFloor s.clock
     (∀ r ∈ s.recs, r.status ≠ .exited → r.party.launch ≠ 0 → f ≤ r.start) ∧
     (∀ r ∈ s.recs, r.party.launch ≠ 0 → ∀ q ∈ r.past, q.busy ≠ [] → f ≤ q.s) ∧
     (s.lastFloor < s.devTime / 1000 →
       ∃ t, exec .floorBroadcast s = .next t ∧ t.floors = (s.clock, f) :: s.floors.take 1 ∧ t.lastFloor = s.devTime / 1000 ∧
         (∀ r, r ∈ t.recs ↔ r ∈ s.recs ∧ ¬ (r.status = .exited ∧ anyBusy r.past = false ∧ r.lastEnd + 8 < f)) ∧
         (∀ a, a ∈ t.aliases ↔ a ∈ s.aliases ∧ s.aliasDead f a = false) ∧ t.marks = s.marks ∧ t.mem = s.mem) ∧
     (s.devTime / 1000 ≤ s.lastFloor → exec .floorBroadcast s = .next s)) ∧
  (∀ (s : State),
     (∀ (u : AccUpd), s.updDue u = true → u.req.pa ∉ (s.launch u.launch).defAddrs → s.slotsHeld (sliceOf u.req.pa) < 16 →
       let held (t : State) : Prop := t = { s with holding := insertUpd u s.holding, waiting := s.waiting.erase u }
       (∀ k, s.waiting[k]? = some u → ∃ t, exec (.holdingBufferArrive k) s = .next t ∧ held t) ∧
       ((s.waiting.filter fun v => v.launch == u.launch) = [u] → ∃ t, exec (.deferAreaRetry u.launch) s = .next t ∧ held t)) ∧
     (∀ (k : Nat) (e : Staged), s.staged.find? (fun x => x.id == k) = some e →
       (e.bytes = [] → e.released = false → (s.launch e.launch).det = false → s.replayGate e.iss e.vas ≠ .hold →
         ∃ t, exec (.replayRelease k) s = .next t ∧ t = { s with staged := t.staged } ∧ { e with released := true } ∈ t.staged) ∧
       (e.bytes = [] → e.released = false → (s.launch e.launch).det = false → s.replayGate e.iss e.vas = .hold →
         exec (.replayRelease k) s = .next s) ∧
       (e.bytes ≠ [] → ((s.launch e.launch).det = true → s.stagedFirst e.launch k = true) → s.flushHeld e.block e.vas = false →
         ∃ t, exec (.replayRelease k) s = .next t ∧ ∀ x ∈ t.staged, x.id ≠ k)) ∧
     (∀ (l va since : Nat) (o : LogOp),
       let y := s.launch l
       let g := y.log
       g.since.find? (fun x => x.1 == va) = some (va, since) → (g.seqOf va)[sget g.done va 0]? = some o → y.replaying = true →
       since + y.rpwin ≤ s.devTime →
       (∀ e ∈ s.staged, e.launch = l → va ∈ e.vas → (s.block e.block).lin = o.block → (s.warp e.warp).windex ≠ o.warp) →
       ∃ t h fs, exec (.replayWindowExpiry l va) s = .next t ∧ (t.launch l).log.diverged = true ∧
         t.flume = s.flume ++ [⟨y.vi, [2 * 2 ^ 56 + 1 * 2 ^ 48 + y.num % 2 ^ 32, va, sget g.done va 0, requester o.block o.warp, 2 ^ 64 - 1,
           s.devTime, h, 0]⟩] ++ fs))

/-! ### Stops, waits that end, and links (spec/27, spec/34 R480, R482) -/

/-- R423 to R428, R430, R489, R432, R433, R430: a pending stop is delivered: with a handler and its warp outside trap mode, the trap area
holds the frame of R426, the warp is in trap mode and the subgroup stands at the handler; with none, or in trap mode, every lane has
exited and the launch has failed with the cause. A warp whose older region has not committed waits. A stop that waits for a boundary
becomes the warp's stop there; a wait of the watchdog period ends in the stop 0x23 and one across a failed port in 0x24, for every lane,
each then delivered as any other; `goisto` sets a warp's single stepping, and a warp that it holds at a breakpoint goes on where its stop
says, or ends (R180). Readings of the model itself here:
notes/assumptions/20.md. -/
def Obligations.StopsAndWaits : Prop :=
  (∀ (s : State) (w : Nat) (st : Stop),
     let x := s.warp w
     let e := x.entryOf (if st.rgn then st.lanes else st.sub)
     let sub := if st.rgn then (match e with | some e => e.mask | none => 0) else st.sub
     let rq := if st.rgn then [] else x.withdrawn.map Prod.snd
     let frame := frameDwords st st.pc st.rpc sub (2 ^ rq.length - 1) s.devTime
     x.stop = some st → w < s.warps.length →
     (x.older.isSome = true → exec (.stopDelivery w) s = .next s) ∧
     (x.older = none → x.live ≠ 0 → x.hold ≠ .goisto → s.inPlace w = true → st.discard = false →
       (st.rgn = true ∨ x.region.issued = 0) →
       (∀ h, (s.launchOf w).trap = some h → x.trap = none → (s.blockOf w).core < s.cores.length →
         (s.spEntry x.block (trapPage x.windex)).p = true →
         (∃ f ∈ (s.coreOf w).frames, f.2.blk = x.block ∧ f.2.pg = trapPage x.windex) →
         ∃ t, exec (.stopDelivery w) s = .next t ∧ (t.warp w).stop = none ∧ (t.warp w).hold = .none ∧
           (t.warp w).trap = some ⟨sub, if st.counts then some st.rpc else none, if st.hwbp then some st.pc else none⟩ ∧
           (∀ l, l < 32 → bit sub l = true → (t.warp w).standsAt l h) ∧
           (∀ k, k < 16 → t.trapDword w k = frame.getD k 0 % 2 ^ 64) ∧
           Wrote x (t.warp w) [] ∧ WroteP x (t.warp w) none ∧ (∀ v, v ≠ w → t.warp v = s.warp v) ∧ t.mem = s.mem ∧
           t.launches = s.launches) ∧
       ((s.launchOf w).trap = none → st.cause ≠ 0x04 → st.cause ≠ 0x05 → x.launch < s.launches.length →
         ∃ t, exec (.stopDelivery w) s = .next t ∧ (t.warp w).exited = x.present ∧ (t.warp w).pct = [] ∧
           (t.launch x.launch).failed = if (s.launchOf w).failed = 0 then st.cause else (s.launchOf w).failed) ∧
       ((s.launchOf w).trap = none → x.trap = none → (st.cause = 0x04 ∨ st.cause = 0x05) →
         ∃ t, exec (.stopDelivery w) s = .next t ∧ (t.warp w).hold = .goisto ∧ (t.warp w).pct = x.pct ∧
           (t.warp w).stop = some { st with sub := sub }))) ∧
  (∀ (s : State) (w : Nat),
     let x := s.warp w
     let pc0 := match x.pct.head? with | some e => e.pc | none => 0
     let q : State := match x.hold with
       | .staged k => { s with staged := s.staged.filter fun e => e.id != k }
       | _ => s
     let ends (cause : Nat) : Host.Outcome State Fault Refusal := exec (.stopDelivery w) (q.updWarp w fun y =>
       { y with hold := .none, recover := none, stop := some (regionStop cause x.live 0 pc0 []), stall := 10 })
     let late (st : Stop) (pc m : Nat) : Host.Outcome State Fault Refusal := exec (.stopDelivery w) (s.updWarp w fun y =>
       { y with hold := .none, recover := if x.hold = .none then y.recover else none, deferred := none, stall := 10
                stop := some { st with pc := pc, rpc := pc, lanes := m, sub := m
                                       record := if st.record.isEmpty then st.record else st.record.set 3 (pc / 8 % 2 ^ 54) } })
     w < s.warps.length →
     (∀ st, x.deferred = some st → x.stop = none → x.live ≠ 0 →
       (∀ e, x.hold = .none → x.older = none → x.region.issued = 0 → x.choose = some e →
         exec (.deferredStopDelivery w) s = late st e.pc e.mask) ∧
       ∀ i y, x.hold = .word i y → exec (.deferredStopDelivery w) s = late st y.pc y.mask) ∧
     (x.deferred = none → exec (.deferredStopDelivery w) s = .next s) ∧
     (x.live ≠ 0 → x.hold ≠ .goisto → x.recover = none → (s.blockOf w).state = .resident → (s.vi x.vi).frozen = false →
       (∀ st, x.stop = some st → st.cause ≠ 0x23) →
       ((s.launchOf w).wdogNs ≤ x.wdog → exec (.watchdogExpiry w) s = ends 0x23) ∧
       (x.wdog < (s.launchOf w).wdogNs → exec (.watchdogExpiry w) s = .next s)) ∧
     (x.recover.isSome = true → exec (.watchdogExpiry w) s = .next s) ∧
     (∀ since m, x.recover = some since → s.waitsOn w = some m →
       (s.portFailed m = true ∨ since + 10 ^ 8 ≤ s.devTime → exec (.linkRecoveryTimeout w) s = ends 0x24) ∧
       (s.portFailed m = false → s.devTime < since + 10 ^ 8 → exec (.linkRecoveryTimeout w) s = .next s)) ∧
     (∀ b, exec (.goistoResume w (.step b)) s = .next (s.updWarp w fun y => { y with dbgctl := if b then 1 else 0 })) ∧
     (x.hold ≠ .goisto → exec (.goistoResume w .resume) s = .next s ∧ exec (.goistoResume w .finish) s = .next s) ∧
     (∀ st, x.hold = .goisto → x.stop = some st →
       (x.later = [] → ∃ t, exec (.goistoResume w .resume) s = .next t ∧ (t.warp w).hold = .none ∧ (t.warp w).stop = none ∧
         (∀ l, l < 32 → bit st.sub l = true → bit x.live l = true → ∃ e ∈ (t.warp w).pct, bit e.mask l = true ∧ e.pc = st.rpc ∧ e.state = .ready) ∧
         (t.warp w).bpskip = (if st.hwbp = true ∧ st.rpc = st.pc then some (st.sub, st.rpc) else none) ∧
         t = { s with warps := t.warps }) ∧
       ∃ t, exec (.goistoResume w .finish) s = .next t ∧ (t.warp w).exited = x.present ∧ (t.warp w).pct = []))

/-- R303, R433, R480, R482, R357, R384, R468, R485, R486, R488: a port in recovery holds the count of every warp that waits across it,
from the first report until it has recovered; a failed port stays failed; and a Culvert link is down, its module reported failed, after 16
resends. What another module writes or changes stands at home, and an atomic's old value goes back; device time is stepped at the first
lock alone, before any launch and never back; power-on boots with the record of flash that is valid, and without one stays in recovery; a
measurement is signed over its nonce; and an update goes to the slot that is not in use. Readings of the model itself here:
notes/assumptions/9.md, notes/assumptions/56.md, notes/assumptions/57.md, notes/assumptions/60.md. -/
def Obligations.LinksAndModule : Prop :=
  (∀ (s : State) (p : Nat),
     let y := sget s.ports p ⟨none, false⟩
     (p < 8 →
       (y.failed = false → ∃ t, exec (.linkRecoveryReport p) s = .next t ∧ t = { s with ports := t.ports, warps := t.warps } ∧
         sget t.ports p ⟨none, false⟩ = { y with recovering := y.recovering.or (some s.devTime) } ∧
         ∀ w, t.warp w = if s.waitsOn w |>.any (fun m => m % 8 == p) then
           { s.warp w with recover := (s.warp w).recover.or (some s.devTime) } else s.warp w) ∧
       (y.failed = true → exec (.linkRecoveryReport p) s = .next s) ∧
       (∃ t, exec (.linkRecovered p) s = .next t ∧ t = { s with ports := t.ports, warps := t.warps } ∧
         sget t.ports p ⟨none, false⟩ = { y with recovering := none } ∧
         ∀ w, t.warp w = if s.waitsOn w |>.any (fun m => m % 8 == p) then { s.warp w with recover := none } else s.warp w) ∧
       ∃ t, exec (.scaleupPortFailure p) s = .next t ∧ t = { s with ports := t.ports } ∧ (∀ m, m % 8 = p → t.portFailed m = true) ∧
         ∀ m, m % 8 ≠ p → t.portFailed m = s.portFailed m) ∧
     (∀ a b, a < Config.dies → b < Config.dies → a ≠ b →
       let k := linkOf a b
       let z := sget s.links k ⟨0, false⟩
       ∃ t, exec (.culvertBeatFail a b) s = .next t ∧ t = { s with links := t.links, moduleFailed := t.moduleFailed } ∧
         sget t.links k ⟨0, false⟩ = ⟨z.fails + 1, z.down || decide (16 ≤ z.fails)⟩ ∧
         t.moduleFailed = (s.moduleFailed || decide (16 ≤ z.fails)))) ∧
  (∀ (s : State),
     (∀ pa bs, pa + bs.length ≤ Config.memBytes → ∃ t, exec (.remoteArrival pa (.copyWrite bs)) s = .next t ∧
       t = { s with mem := t.mem } ∧ ∀ a, t.mem.read a = if pa ≤ a ∧ a < pa + bs.length then bs.getD (a - pa) 0 else s.mem.read a) ∧
     (∀ pa op ty (b c : DWord), pa + ty.bytes ≤ Config.memBytes →
       let old := leNat (s.mem.readBytes pa ty.bytes)
       ∃ t, exec (.remoteArrival pa (.atomic op ty b c)) s = .next t ∧ t = { s with mem := t.mem, sent := s.sent ++ [[pa, old]] } ∧
         t.mem = s.mem.writeBytes pa (leBytes ty.bytes (atomNew op ty old b.toNat c.toNat))) ∧
     (∀ at_, ∃ t, exec (.ptpLock at_) s = .next t ∧ t.ptpLocked = true ∧
       (if s.ptpStepped = false ∧ s.launches = [] ∧ s.devTime ≤ at_ % 2 ^ 64 then t.devTime = at_ % 2 ^ 64 ∧ t.ptpStepped = true
         else t.devTime = s.devTime ∧ t.ptpStepped = s.ptpStepped) ∧ t.warps = s.warps) ∧
     (∃ t, exec .ieee1588LockLoss s = .next t ∧ t.ptpLocked = false ∧ t.devTime = s.devTime ∧ t.warps = s.warps) ∧
     (∃ t, exec .powerOn s = .next t ∧ t.flash = s.flash ∧ t.warps = [] ∧ t.launches = [] ∧ t.mem = [] ∧ t.vis = State.reset.vis ∧
       (∀ r, chooseRecord s.flash = some r → t.boot = .ready ∧ t.cfg = r.words) ∧ (chooseRecord s.flash = none → t.boot = .recovery)) ∧
     (∀ nonce, s.boot ≠ .off → ∃ t, exec (.attestationRequest nonce) s = .next t ∧
       t = { s with sent := s.sent ++ [[2 ^ 64, nonce, Config.attestation s.measured nonce]] }) ∧
     (∀ (rcd : List DWord) (ok_ : Bool), s.flash.length = 2 →
       ∃ t, exec (.firmwareUpdate rcd ok_) s = .next t ∧ t = { s with flash := t.flash } ∧ t.flash.length = 2 ∧
         ∃ k, k < 2 ∧ (∀ f, s.flash[k]? = some f → f.words = s.cfg → ∃ e, s.flash[1 - k]? = some e ∧ e.words = s.cfg) ∧
           t.flash[k]? = some ⟨rcd.map BitVec.toNat, ok_⟩ ∧ t.flash[1 - k]? = s.flash[1 - k]?))

/-! ### Pre-emption (spec/28) -/

/-- R435 to R437, R24, R442, R443: a pre-emption asks every resident block of its scope, gangs whole, to stop, sends the queued ones back,
and stops the dispatch of the launches that it names; the unit that acknowledges is left no more; and with the last acknowledgement the
blocks are saved, each with its save area. A restore before the end of a pre-emption of its gang does nothing; after it, it puts the saved
block of a launch on a core that has room for it, its warps as they were saved; with a chunk that fails, the block is failed, its warps
gone and its launch failed with cause 0x31. Readings of the model
itself here: notes/assumptions/12.md, notes/assumptions/63.md. -/
def Obligations.SavesAndRestores : Prop :=
  (∀ (s : State),
     (∀ (vi : Nat) (sc : PreemptScope),
       ∃ t, exec (.preemptionRequest vi sc) s = .next t ∧ t.mem = s.mem ∧ t.warps = s.warps ∧
         (∀ b, b < s.blocks.length → (s.block b).state = .resident → (s.block b).vi = vi →
           scopeCovers sc (s.block b).launch (s.block b).lin = true → ∃ p ∈ t.preempts, b ∈ p.blocks) ∧
         (∀ li, sc = .launch li → li < s.launches.length → (s.launch li).vi = vi → (s.launch li).state ≠ .ended →
           (t.launch li).stopped = true ∧ (t.launch li).eligible = none) ∧
         ∀ b ∈ s.scopeBlocks vi sc .queued, b ∈ (s.core (s.block b).core).queue → (s.block b).core < s.cores.length →
           b ∉ (t.core (s.block b).core).queue) ∧
     (∀ (k unit : Nat) (p : Preempt) (u : State), s.preempts[k]? = some p → unit ∈ p.left → s.savePart p unit = some u →
       (p.left.filter (fun v => v != unit) ≠ [] →
         ∃ t, exec (.preemptAck k unit) s = .next t ∧ t = { u with preempts := u.preempts.set k { p with left := p.left.filter fun v => v != unit } }) ∧
       (p.left = [unit] → u.blocks.length = s.blocks.length →
         ∃ t, exec (.preemptAck k unit) s = .next t ∧ t.preempts = u.preempts.eraseIdx k ∧ t.warps = u.warps ∧ t.mem = u.mem ∧
           ∀ b ∈ p.blocks, b < s.blocks.length → (u.block b).state = .resident →
             (t.block b).state = .saved ∧ (t.block b).saves = (u.block b).saves + 1 ∧ (t.block b).area.isSome = true)) ∧
     (∀ (k unit : Nat) (p : Preempt), s.preempts[k]? = some p → unit ∈ p.left → s.savePart p unit = none →
       exec (.preemptAck k unit) s = .next s)) ∧
  (∀ (s : State) (vi li g b c : Nat),
     let l := s.launch li
     let u := s.updLaunch li fun y => { y with stopped := false }
     let need := (s.block b).mqs.length
     (s.inScope li (g * max 1 l.gang) = true → ∀ bad, exec (.restore vi li g bad) s = .next s) ∧
     (li < s.launches.length → l.vi = vi → (s.vi vi).frozen = false → (s.vi vi).resetting = false → b < s.blocks.length →
     s.inScope li (g * max 1 l.gang) = false → s.savedGang li g 0 = [b] → s.savedGang li g 1 = [] → (s.block b).launch = li → (s.block b).copy = 0 →
     (u.placeCopies l [need] [] = some ([c], []) →
       ∃ t, exec (.restore vi li g none) s = .next t ∧ (t.block b).state = .resident ∧ (t.block b).core = c ∧ (t.block b).area = none ∧
         (t.launch li).stopped = false ∧
         ((∀ w, w < s.warps.length → (s.warp w).block = b → (s.warp w).trap = none) → t.mem = s.mem ∧ t.warps = s.warps)) ∧
     (u.placeCopies l [need] [] = none → exec (.restore vi li g none) s = .next u) ∧
     (∀ bad, ∃ t, exec (.restore vi li g (some bad)) s = .next t ∧ (t.block b).state = .retired ∧ (t.block b).failed = 0x31 ∧
       (t.launch li).failed = (if l.failed = 0 then 0x31 else l.failed) ∧ (s.block b).lin ∈ (t.launch li).retired ∧
       ∀ w, w < s.warps.length → (s.warp w).block = b → (t.warp w).ended = true)))

/-! ### Records, breakpoints, counters and time (spec/31, spec/32) -/

/-- R463 to R465, R476, R466, R469, R470, R472 to R475: the Flume takes a record that stands behind none of the same warp: where the area
has room the head moves past it and its pad, else the record is lost and counted; in excess of 40.96 GB/s in a microsecond a sample is
lost and counted, and another record of spec/32 waits. A breakpoint whose reserved bits are zero is set; a write of CSEL selects a listed
event and clears its count, one of CCTL starts the lowest enabled group, one of CLOST clears ones; a tick emits each counting interface's
series and turns to the next group; and a sample is taken of the warp that issued in the cycle, else of the section's oldest one, its
generator stepped once. Readings of the model
itself here: notes/assumptions/55.md, notes/assumptions/58.md, notes/assumptions/59.md, notes/assumptions/78.md. -/
def Obligations.RecordsAndCounters : Prop :=
  (∀ (s : State) (k : Nat) (r : FlumeRec),
     let v := s.vi r.vi
     let area := v.trbArea
     let len := (8 * r.words.length + 31) / 32 * 32
     let off := v.trbHead % area
     let pad := if area < off + len then area - off else 0
     let va (n : Nat) : Nat := v.cfg.trbBase + 4096 + (v.trbHead + pad + 8 * n) % area
     let used := v.trbHead - s.loadDw r.vi (v.cfg.trbBase + 8)
     let writable : Prop := (∀ n, n < r.words.length → s.paOf r.vi (va n) .write ≠ none) ∧
       (pad ≠ 0 → s.paOf r.vi (v.cfg.trbBase + 4096 + off) .write ≠ none)
     let ty := bits (r.words.getD 0 0) 63 56
     let rated : Prop := ty = 0x20 ∨ ty = 0x21 ∨ ty = 0x22
     let spent := if s.rateAt = s.devTime / 1000 then s.rateUsed else 0
     let full : Prop := rated ∧ 40960 < spent + len
     s.flume[k]? = some r → r.vi < s.vis.length → s.headerOk r.vi = true →
     ((r.warpKey = none ∨ ∀ q ∈ s.flume.take k, q.vi = r.vi → q.warpKey ≠ r.warpKey) →
       (full → ty ≠ 0x20 → exec (.flumeRecordWrite k) s = .next s) ∧
       (¬ full ∨ ty = 0x20 → ∃ t fs, exec (.flumeRecordWrite k) s = .next t ∧ t.flume = s.flume.eraseIdx k ++ fs ∧ t.warps = s.warps ∧
         (¬ full → used + pad + len ≤ area → writable →
           (t.vi r.vi).trbHead = v.trbHead + pad + len ∧ (t.vi r.vi).lost = v.lost ∧
           (rated → t.rateAt = s.devTime / 1000 ∧ t.rateUsed = spent + len)) ∧
         (full ∨ area < used + pad + len ∨ ¬ writable →
           (t.vi r.vi).trbHead = v.trbHead ∧ (t.vi r.vi).lost = v.lost + 1 ∧ t.rateUsed = s.rateUsed))) ∧
     (r.warpKey ≠ none → (∃ q ∈ s.flume.take k, q.vi = r.vi ∧ q.warpKey = r.warpKey) → exec (.flumeRecordWrite k) s = .next s)) ∧
  (∀ (s : State) (vi : Nat),
     let y := (s.vi vi).ctr
     let only (t : State) : Prop := t = { s with vis := t.vis } ∧ ∀ k, k ≠ vi → t.vi k = s.vi k
     (vi < s.vis.length →
       (∀ (n : Fin 16) (c f b : DWord),
         let legal := bits c.toNat 59 57 = 0 ∧ bits c.toNat 2 0 = 0 ∧ bits f.toNat 25 0 = 0 ∧ bit b.toNat 63 = false
         (legal → ∃ t, exec (.breakpointSet vi n c f b) s = .next t ∧ only t ∧ sget (t.vi vi).bpc n.val 0 = c.toNat ∧
           sget (t.vi vi).bpf n.val 0 = f.toNat ∧ sget (t.vi vi).bpb n.val 0 = b.toNat ∧
           ∀ k, k ≠ n.val → sget (t.vi vi).bpc k 0 = sget (s.vi vi).bpc k 0) ∧
         (¬ legal → exec (.breakpointSet vi n c f b) s = .next s)) ∧
       (∀ (n : Nat) (v : DWord), n < 64 →
         let e := v.toNat
         (bit e 63 = true → listedEvent (bits e 59 56) (bits e 55 48) = false → exec (.cselWrite vi n v) s = .next s) ∧
         (bit e 63 = false ∨ listedEvent (bits e 59 56) (bits e 55 48) = true →
           ∃ t, exec (.cselWrite vi n v) s = .next t ∧ only t ∧ t.readCtr vi (8 * n) = bits e 63 63 * 2 ^ 63 + bits e 59 48 * 2 ^ 48 ∧
             sget (t.vi vi).ctr.counts n 0 = 0 ∧ bit (t.vi vi).ctr.ovf n = false)) ∧
       (∀ v : DWord, let e := v.toNat
         (bits e 12 8 < 10 ∨ 20 < bits e 12 8 → exec (.cctlWrite vi v) s = .next s) ∧
         (10 ≤ bits e 12 8 → bits e 12 8 ≤ 20 → ∃ t, exec (.cctlWrite vi v) s = .next t ∧ only t ∧
           t.readCtr vi 0x200 = bits e 12 8 * 256 + bits e 4 0 ∧
           ((t.vi vi).ctr.group, (t.vi vi).ctr.sliceStart) =
             if y.group < 4 ∧ bit e y.group = true then (y.group, y.sliceStart) else (lowGroup (bits e 3 0), s.devTime))) ∧
       ∀ v : DWord, ∃ t, exec (.clostWrite vi v) s = .next t ∧ only t ∧
         ∀ n, n < 64 → bit (t.readCtr vi 0x208) n = (bit (s.readCtr vi 0x208) n && !bit v.toNat n)) ∧
     (10 ≤ s.tickExp → s.lastTick < s.devTime / 2 ^ s.tickExp → (∃ k, k < s.vis.length ∧ (s.vi k).ctr.group < 4) →
       ∃ t, exec .counterTick s = .next t ∧ t.lastTick = s.lastTick + 1 ∧ t.mem = s.mem ∧
         ∀ k, k < s.vis.length → (s.vi k).ctr.group < 4 →
           (t.vi k).ctr.group = nextGroup (bits (s.vi k).ctr.cctl 3 0) (s.vi k).ctr.group ∧
           (t.vi k).ctr.sliceStart = (s.lastTick + 1) * 2 ^ s.tickExp ∧
           ⟨k, (s.vi k).series ((s.lastTick + 1) * 2 ^ s.tickExp)⟩ ∈ t.flume) ∧
     (∀ (c sec m : Nat),
       let k := s.core c
       s.sampleExp = some m → sec < 4 → c < s.cores.length → k.lfsr.length = 4 → k.nextSample.length = 4 → k.nextSample.getD sec 0 ≤ s.clock →
       ∃ t, exec (.pcSample c sec) s = .next t ∧ (t.core c).lfsr.getD sec 0 = lfsrStep (k.lfsr.getD sec 0) ∧
         (t.core c).nextSample.getD sec 0 = s.clock + 2 ^ m - 2 ^ (m - 2) + k.lfsr.getD sec 0 % 2 ^ (m - 1) ∧
         t.flume = match s.sampled c sec with
           | some (w, now) => if bit (s.vi (s.warp w).vi).ctr.cctl 4 then s.flume ++ [⟨(s.warp w).vi, s.sampleRecord w now⟩] else s.flume
           | none => s.flume)) ∧
  (∀ (s : State) (c sec w : Nat), s.inSection c sec w = true → w < s.warps.length →
     ((s.warp w).issuedIn ((s.core c).cycles.getD sec 0) = true →
       (∀ v, v < s.warps.length → v ≠ w → s.inSection c sec v = true → (s.warp v).issuedIn ((s.core c).cycles.getD sec 0) = false) →
       s.sampled c sec = some (w, true)) ∧
     ((∀ v, v < s.warps.length → s.inSection c sec v = true → (s.warp v).issuedIn ((s.core c).cycles.getD sec 0) = false) →
       (∀ v, v < w → s.inSection c sec v = false) → s.sampled c sec = some (w, false)))

/-! ### The end of the work (spec/31 R456 to R459) -/

/-- R456 to R459, R72: a warp whose lanes have all exited and whose commands have completed ends with its exit record; a block whose warps
have all ended retires, its place on the core free; and a launch of which nothing is left ends, its completion word at status 1, or 4
with its first cause, its count down, and its interrupt raised where it asks for one. -/
def Obligations.EndsOfWork : Prop :=
  ∀ (s : State),
    (∀ w, let x := s.warp w
      w < s.warps.length → x.ended = false → x.live = 0 → x.older = none → (s.blockOf w).state = .resident → s.secondary w = false →
      (x.opsC = [] → x.opsT = [] →
        ∃ t, exec (.warpExitRecord w) s = .next t ∧ (t.warp w).ended = true ∧ (t.warp w).dirty.all (fun d => d.state != .committed) = true ∧
          (∀ r ∈ t.recs, r.party = x.party → r.status = .exited) ∧ (∀ v, v ≠ w → (t.warp v).ended = (s.warp v).ended) ∧
          (∀ a, t.mem.read a = (s.writeBackAll w).mem.read a) ∧ ⟨x.vi, (s.writeBackAll w).exitRecord w⟩ ∈ t.flume) ∧
      (x.opsC ≠ [] ∨ x.opsT ≠ [] → ∃ t, exec (.warpExitRecord w) s = .next t ∧ (t.warp w).ended = false ∧ (t.warp w).stall = 2)) ∧
    (∀ b, let x := s.block b
      b < s.blocks.length → x.state = .resident → x.copy = 0 → x.twin = none → x.launch < s.launches.length →
      x.heldAcc = [] → s.dirtyWindows b = [] → (s.launch x.launch).det = false →
      ((∀ w, (s.warp w).block = b → (s.warp w).ended = true) →
        ∃ t, exec (.blockRetire b) s = .next t ∧ (t.block b).state = .retired ∧ x.lin ∈ (t.launch x.launch).retired ∧
          (x.core < s.cores.length → ∀ f ∈ (t.core x.core).frames, f.2.blk ≠ b) ∧ (t.block b).acc = [] ∧ t.mem = s.mem ∧ t.warps = s.warps) ∧
      ((∃ w, w < s.warps.length ∧ (s.warp w).block = b ∧ (s.warp w).ended = false) → exec (.blockRetire b) s = .next s)) ∧
    (∀ li, let l := s.launch li
      li < s.launches.length → l.vi < s.vis.length → l.defersAcc = false → l.recording = false →
      (s.launchDone li = true → ∀ pa, s.ctrOffset l.vi l.cbw = none → (s.writeAt l.vi l.cbw).1 = some pa →
        let u := (s.writeAt l.vi l.cbw).2
        ∃ t, exec (.launchEnd li) s = .next t ∧ (t.launch li).state = .ended ∧
          (t.vi l.vi).msix = (if l.irq then (s.vi l.vi).msix + 1 else (s.vi l.vi).msix) ∧
          t.dword pa = cbwEnd (u.dword pa) (if l.failed = 0 then 1 else 4) l.failed true) ∧
      (s.launchDone li = false → exec (.launchEnd li) s = .next s))

/-! ### Words and their decoding (spec/06) -/

/-- R98, R101 to R117: words of the manual's own examples decode to the instructions that it writes beside them. -/
def Obligations.WordsDecode : Prop :=
  let g : Guard := ⟨7, false⟩
  let p0 : Guard := ⟨0, false⟩
  decode 0x3B70_1400_B02C_1007 = .ok (.ffma ⟨3, true⟩ (.v 10) (.v 2) (.s 5) (.v 7) .f32 .rz false) ∧
  decode 0x8402_01A0_3C0B_7090 = .ok (.pairWord ⟨.add, 0, 8, 13, 0, 0⟩ ⟨.fmul, 0, 22, 450, 2, 0⟩) ∧
  decode 0x08E0_0000_0000_F0FF = .ok (.wait g 15 0 15 15) ∧
  decode 0x1300_0800_0000_0000 = .ok (.rng p0 (.v 4) 0) ∧
  decode 0x33E0_1181_3808_A000 = .ok (.adda g (.v 8) (.s 4) (.sp .lane) .n32 2) ∧
  decode 0x34E0_0C00_0018_9100 = .ok (.addc g (.v 6) (.v 0) (.v 3) 1 .add0) ∧
  decode 0x3AE0_0C00_0004_6000 = .ok (.fmul g (.v 6) (.v 0) (.v 0) .f32 .ro false) ∧
  decode 0x51E0_0400_401E_0008 = .ok (.cvtef g (.v 2) (.v 3) (.v 1) .e4m3 .f32 .rn false) ∧
  decode 0x5C00_0800_4004_1900 = .ok (.matchAll p0 (.v 4) 1 (.v 1) .f32 true) ∧
  decode 0x5FEC_2000_8007_8000 = .ok (.rdfst g (.s 16) (.v 2) .b32) ∧
  decode 0x64E0_0980_8000_2012 = .ok (.ldAcq g (.v 4) (.s 1) 0x40 false .dev) ∧
  decode 0x67E0_0A00_C000_4024 = .ok (.stsp g (.v 5) (.v 3) 0x100 true .b32) ∧
  decode 0x69E0_0B80_F01C_0D26 = .ok (.atom g (.v 5) (.s 1) (.sp .lane) (.s 6) .cas .n32 .dev) ∧
  decode 0x6FE0_0182_4005_0000 = .ok (.cpyFill g (.s 9)) ∧
  decode 0x70EC_0D81_0000_0000 = .ok (.cbwWait g (.s 6) (.s 4)) ∧
  decode 0x77E0_0181_3E00_4000 = .ok (.maccSt g (.s 4) (.imm 64) 0 2 false) ∧
  decode 0x77E0_11F0_3E03_0000 = .ok (.maccRd g (.v 8) (.imm 64) (.imm 64) .f32 .rn)

/-- R98 to R126: the encoder's word of a well-formed instruction decodes to that instruction, with every operand; and a word that decodes
is the word of the instruction that it decodes to, which is well formed: no field and no reserved bit is dropped. -/
def Obligations.DecodeAndEncodeAgree : Prop :=
  (∀ (i : Instr) (w : DWord), i.wf = true → encode i = some w → decode w = .ok i) ∧
  ∀ (i : Instr) (w : DWord), decode w = .ok i → i.wf = true ∧ encode i = some w

/-! ### Turns -/

/-- R98 to R100, R126, R131, R132, R401, R466: in an issue cycle the warps of a section are tried in their order, and one that its lateness
or its wait keeps back leaves the cycle to the next. The turn of a warp that may issue runs the instruction to which the 8 bytes at its
chosen PC decode, for the lanes that stand there; a word that does not decode, that meets a breakpoint or that lies in a poisoned line
stops them. A word that waits, or whose staged access may be performed, goes on as itself; an event's turn is its meaning; and what a clock
makes due comes first. Readings of the model itself here: notes/assumptions/6.md, notes/assumptions/7.md. -/
def Obligations.StepRunsDecoded : Prop :=
  (∀ (s : State) (r : List Turn),
     let q := { s with agenda := r }
     (∀ i, s.clockDue = some i → step s = finishStep s (exec i s)) ∧
     (s.clockDue = none →
       (∀ w late, s.agenda = .issue w late :: r →
         step s = finishStep s (issueFrom (q.tickSection w) late ((q.tickSection w).order w)).2) ∧
       ∀ i, s.agenda = .event i :: r → i.isWord = false → step s = finishStep s (exec i q))) ∧
  (∀ (p : State) (late : List (Nat × Nat)) (v : Nat) (os : List Nat),
     let q := if p.inPlace v = true then p.settle v else p
     let x := q.warp v
     let core := (q.blockOf v).core
     let done (t : State) : Prop := issueFrom p late (v :: os) = (true, .next t)
     let runs (i : Instr) (u : State) : Prop := issueFrom p late (v :: os) =
       match exec i u with
       | .next t => if (t.warp v).stall = 0 then (true, .next t) else issueFrom { t with cur := none } late os
       | o => (true, o)
     (∀ z ∈ late, z.1 = v → z.2 ≠ 6 ∧ z.2 ≠ 12) →
     (∀ (e : PctEntry) (pa : Nat), q.canIssue v = true → x.hold = .none → x.choose = some e → canonical e.pc = true → pa % 8 = 0 →
       let tr := q.translate core x.vi e.pc .exec false
       let held := tr.2.heldLines v core (pa / 64)
       let word := wordOfBytes (q.mem.readBytes pa 8)
       let iss : Issue := ⟨v, x.activeOf e.mask, e.mask, e.pc, word, none⟩
       tr.1 = .ok pa →
       (tr.2.poisonedFor core pa = false → (∀ l ∈ held, (l.bytes.drop (pa % 64)).take 8 = q.mem.readBytes pa 8) →
         (held = [] → q.fetchWaits v pa = none) →
         ∃ u, Near { q with warps := u.warps } u ∧ SameBytes q u ∧
           (∀ y, u.warp y = { q.warp y with fbuf := if y = v then (u.warp v).fbuf else (q.warp y).fbuf }) ∧
           (q.breakpoint v e.mask e.pc = none →
             (∀ i, decode word = .ok i → runs i { u with cur := some iss }) ∧
             ∀ k, decode word = .error k → done (u.takeStop v (iss.stop k.cause iss.active))) ∧
           ∀ n, q.breakpoint v e.mask e.pc = some n → done (u.takeStop v { (iss.stop 0x04 iss.active) with hwbp := true, code := n })) ∧
       (tr.2.poisonedFor core pa = true → held = [] → q.fetchWaits v pa = none →
         ∃ u, Near q u ∧ SameBytes q u ∧ done (u.takeStop v (regionStop 0x20 e.mask e.pc e.pc [])))) ∧
     (∀ (y : Issue) (i : Instr), q.canIssue v = true → x.hold = .commit y → decode y.word = .ok i → runs i { q with cur := some y }) ∧
     (∀ (k : Nat) (e : Staged), x.hold = .staged k → q.staged.find? (fun z => z.id == k) = some e →
       e.released = true ∨ q.inPlace v = true → runs e.ins { q with cur := some e.iss })) ∧
  ∀ (p : State) (late : List (Nat × Nat)) (v n : Nat) (os : List Nat), late.find? (fun z => z.1 == v && (z.2 == 6 || z.2 == 12)) = some (v, n) →
    issueFrom p late (v :: os) = issueFrom (p.stallAt v n) late os

/-- R145, R153: a closing word that needs no check, at issue in a region that holds nothing, ends its region, which commits, and is then
performed. -/
def Obligations.ClosingWordsEndTheirRegion : Prop :=
  ∀ (g : Guard) (d a : Reg) (n : BitVec 16) (m : BitVec 12) (b : Fin 16) (sc : Scope) (s : State) (x : Issue),
    let w := s.warp x.w
    let closes (f : Foot) (i : Instr) : Prop :=
      Calm s x f → ∃ t, exec i s = exec i t ∧ Performing t x ∧ SameBytes s t ∧
        t = { s with warps := t.warps, vis := t.vis, recs := t.recs, flume := t.flume } ∧ (∀ v, v ≠ x.w → t.warp v = s.warp v) ∧
        t.warp x.w = { w with
          hold := .commit x, region := { Region.blank with seq := w.region.seq + 1 }, commits := (w.commits + 1) % 2 ^ 32, wdog := 0
          reentry := (t.warp x.w).reentry, holds := (t.warp x.w).holds, pins := [], pct := (t.warp x.w).pct
          firstIssue := (t.warp x.w).firstIssue }
    let plain := foot (guardIds g) []
    let reads := foot (guardIds g ++ regIds 1 a) []
    Fresh s x.w → w.older = none → s.handed x.w = [] → w.deferred = none →
    (w.firstIssue = none ∨ (s.rec? w.party).isSome = true) →
    closes plain (.exit g) ∧ closes plain (.trap g n) ∧ closes { plain with priv := true } (.trapret g) ∧
    closes { reads with priv := m == 2 } (.sysWr g m a) ∧ closes (foot (guardIds g) (regIds 2 d)) (.clkDev g d) ∧
    closes (foot (guardIds g) (regIds 2 d)) (.clkOrd g d) ∧ closes plain (.fence g sc) ∧ closes plain (.fenceXlat g sc) ∧
    closes reads (.barJoin g a b) ∧ closes reads (.barPost g a b) ∧ closes plain (.gbarJoin g) ∧ closes plain (.gbarPost g) ∧
    closes reads (.wsync g a)

/-- Every step answers a next state, in which no word is at issue. Every instruction completes: a word that is at issue, and an event in every
state, answers a next state. Readings of the model itself here: notes/assumptions/6.md. -/
def Obligations.EveryStepAnswers : Prop :=
  (∀ s : State, ∃ t, step s = .next t ∧ t.cur = none) ∧
  ∀ (i : Instr) (s : State), (i.isWord = true → ∃ x, s.cur = some x) → ∃ t, exec i s = .next t

/-! ### Reset and what every step keeps -/

/-- R65, R466, R470, R475, R488: after reset no interface is configured, nothing is launched, the mailbox, breakpoint and counter registers
read as at reset and the sampling generators hold their seeds. Memory that nothing has written reads 0, the model's own choice
(notes/assumptions/4.md), and it is in its canonical form. -/
def Obligations.ResetState : Prop :=
  let s := State.reset
  (∀ v, v < 64 → (s.vi v).configured = false ∧
    (∀ n, n = 4 ∨ n = 8 → s.mailboxRead v 0x8000 n = 16384 ∧ s.mailboxRead v 0x8008 n = 0 ∧ s.mailboxRead v 0x8010 n = 0 ∧
      s.mailboxRead v 0x8018 n = 0 ∧ s.mailboxRead v 0x8020 n = 0 ∧ ∀ o, 0x9000 ≤ o → o < 0xA000 → s.mailboxRead v o n = 0) ∧
    (∀ n, n < 16 → sget (s.vi v).bpc n 0 = 0 ∧ sget (s.vi v).bpf n 0 = 0 ∧ sget (s.vi v).bpb n 0 = 0) ∧
    ∀ n, n < 64 → s.readCtr v (8 * n) = 0) ∧
  s.launches = [] ∧ s.blocks = [] ∧ s.warps = [] ∧ s.marks = [] ∧ s.recs = [] ∧ s.devTime = 0 ∧ s.ptpStepped = false ∧ s.boot = .off ∧
  s.cores.length = 160 ∧
  (∀ c k, c < 160 → k < 4 → (s.core c).lfsr.getD k 0 = Nat.xor 0xACE1 (c / 40 * 160 + c % 40 * 4 + k)) ∧
  (∀ a, s.mem.read a = 0) ∧ s.memoryOk

/-- Every step keeps the memory in its canonical form: addresses rising, no byte listed that reads as an unlisted one. -/
def Obligations.StepKeepsMemoryCanonical : Prop := ∀ s t : State, s.memoryOk → step s = .next t → t.memoryOk

/-- R64: on every core the shares of the interfaces whose partitions contain it are at most 256 together: every step keeps that, it holds
at reset, and a configuration that would break it is refused. -/
def Obligations.SharesStayWithin256 : Prop :=
  let sum (s : State) (c : Nat) (but : Option Nat) : Nat := (((List.range s.vis.length).filter fun v =>
    some v != but && (s.vi v).configured && (s.vi v).cfg.partition.contains c).map fun v => (s.vi v).cfg.share).sum
  (∀ s t : State, (∀ c, sum s c none ≤ 256) → step s = .next t → ∀ c, sum t c none ≤ 256) ∧
  (∀ c, sum State.reset c none ≤ 256) ∧
  ∀ (s : State) (vi : Nat) (cfg : ViConfig), vi < s.vis.length → (∃ c ∈ cfg.partition, 256 < sum s c (some vi) + cfg.share) →
    exec (.viConfigure vi cfg) s = .next s

/-- R261: memory is 1,536 GiB in 16 stacks, four to a die; a line's home slice is that of its stack which the address bits give, and every
word of the line has the same one. -/
def Obligations.HomeSlices : Prop :=
  Config.memBytes = 1536 * 2 ^ 30 ∧
  ∀ pa, pa < Config.memBytes →
    stackOf pa = pa / (96 * 2 ^ 30) ∧ stackOf pa < 16 ∧ dieOf pa = stackOf pa / 4 ∧
    sliceOf pa = 16 * stackOf pa + Nat.xor (pa / 2 ^ 6 % 16) (Nat.xor (pa / 2 ^ 10 % 16) (pa / 2 ^ 14 % 16)) ∧ sliceOf pa < 256 ∧
    ∀ pb, pb / 64 = pa / 64 → sliceOf pb = sliceOf pa
end

