-- ==== Sys2Proof/Laws/Bits.lean ====
section
/-!
SUPPORT. Bits and lane masks: what a bit of a combination, of a list of lanes and of a mask computed lane by lane is.
-/

namespace Sys2Proof.Machine

theorem bit_eq_testBit (x n : Nat) : bit x n = x.testBit n := by
  rw [Bool.eq_iff_iff, Nat.testBit_eq_decide_div_mod_eq]
  simp only [bit, Nat.shiftRight_eq_div_pow, beq_iff_eq, decide_eq_true_eq]

theorem bit_mAnd (a b l : Nat) : bit (mAnd a b) l = (bit a l && bit b l) := by
  simp only [bit_eq_testBit, mAnd]; exact Nat.testBit_and a b l
theorem bit_mOr (a b l : Nat) : bit (mOr a b) l = (bit a l || bit b l) := by
  simp only [bit_eq_testBit, mOr]; exact Nat.testBit_or a b l
theorem bit_mDiff (a b l : Nat) : bit (mDiff a b) l = (bit a l && !bit b l) := by
  simp only [bit_eq_testBit, mDiff]
  rw [show Nat.xor (Nat.land a b) a = (a &&& b) ^^^ a from rfl, Nat.testBit_xor, Nat.testBit_and]
  cases a.testBit l <;> cases b.testBit l <;> rfl
theorem bit_zero_ (l : Nat) : bit 0 l = false := by simp [bit_eq_testBit]
theorem bit_two_pow (k l : Nat) : bit (2 ^ k) l = decide (k = l) := by
  rw [bit_eq_testBit, Nat.testBit_two_pow]

theorem eq_of_bits {a b : Nat} (h : ∀ k, bit a k = bit b k) : a = b :=
  Nat.eq_of_testBit_eq fun k => by rw [← bit_eq_testBit, ← bit_eq_testBit, h]

theorem mem_lanesOf {m l : Nat} : l ∈ lanesOf m ↔ l < 32 ∧ bit m l = true := by simp [lanesOf]

theorem foldMask_bit (f : Nat → Bool) (n : Nat) :
    ((List.range n).foldl (fun a l => if f l then a + 2 ^ l else a) 0) < 2 ^ n ∧
    ∀ l, bit ((List.range n).foldl (fun a l => if f l then a + 2 ^ l else a) 0) l = (decide (l < n) && f l) := by
  induction n with
  | zero => exact ⟨by simp, fun l => by simp [bit_eq_testBit]⟩
  | succ n ih =>
    simp only [List.range_succ, List.foldl_append, List.foldl_cons, List.foldl_nil]
    revert ih
    generalize (List.range n).foldl (fun a l => if f l then a + 2 ^ l else a) 0 = x
    rintro ⟨h1, h2⟩
    have hp : 2 ^ (n + 1) = 2 ^ n + 2 ^ n := by rw [Nat.pow_succ]; omega
    by_cases hf : f n = true
    · rw [if_pos hf]
      refine ⟨by omega, fun l => ?_⟩
      have e : x + 2 ^ n = 2 ^ n ||| x := by
        have := Nat.two_pow_add_eq_or_of_lt h1 1
        rw [Nat.mul_one] at this; omega
      rw [bit_eq_testBit, e, Nat.testBit_or, Nat.testBit_two_pow, ← bit_eq_testBit, h2]
      by_cases hl : n = l
      · subst hl; simp [hf]
      · have : decide (l < n + 1) = decide (l < n) := by rw [decide_eq_decide]; omega
        rw [this, show decide (n = l) = false by simpa using hl, Bool.false_or]
    · rw [if_neg hf]
      refine ⟨by omega, fun l => ?_⟩
      rw [h2]
      by_cases hl : n = l
      · subst hl; simp [hf]
      · have : decide (l < n + 1) = decide (l < n) := by rw [decide_eq_decide]; omega
        rw [this]

theorem bit_maskOf (f : Nat → Bool) (l : Nat) : bit (maskOf f) l = (decide (l < 32) && f l) := (foldMask_bit f 32).2 l
theorem maskOf_lt (f : Nat → Bool) : maskOf f < 2 ^ 32 := (foldMask_bit f 32).1
theorem bit_laneMask (ls : List Nat) (l : Nat) : bit (laneMask ls) l = (decide (l < 32) && ls.contains l) := bit_maskOf _ l

theorem lowLane_some {m l : Nat} (h : lowLane m = some l) : l < 32 ∧ bit m l = true ∧ ∀ k < l, bit m k = false := by
  unfold lowLane at h
  have hm : l ∈ lanesOf m := List.mem_of_mem_head? h
  refine ⟨(mem_lanesOf.mp hm).1, (mem_lanesOf.mp hm).2, fun k hk => ?_⟩
  by_contra hc
  have hk32 : k < 32 := by have := (mem_lanesOf.mp hm).1; omega
  have hmem : k ∈ lanesOf m := mem_lanesOf.mpr ⟨hk32, by simpa using hc⟩
  have hs : (lanesOf m).Pairwise (· < ·) := (List.pairwise_lt_range (n := 32)).filter _
  clear hm
  revert h hs hmem
  generalize lanesOf m = xs
  intro h hmem hs
  cases xs with
  | nil => simp at h
  | cons y r =>
    simp only [List.head?_cons, Option.some.injEq] at h
    subst h
    rcases List.mem_cons.mp hmem with e | e
    · omega
    · have := (List.pairwise_cons.mp hs).1 k e; omega

theorem lowLane_none {m : Nat} (h : lowLane m = none) (l : Nat) (hl : l < 32) : bit m l = false := by
  by_contra hc
  have : l ∈ lanesOf m := mem_lanesOf.mpr ⟨hl, by simpa using hc⟩
  unfold lowLane at h
  rw [List.head?_eq_none_iff] at h
  rw [h] at this; cases this

theorem lanesOf_two_pow {l : Nat} (h : l < 32) : lanesOf (2 ^ l) = [l] := by
  simp only [lanesOf, bit_two_pow]
  interval_cases l <;> rfl
theorem lanesOf_zero : lanesOf 0 = [] := by decide

end Sys2Proof.Machine
end

