-- ==== Sys2Proof/Laws/State.lean ====
section
/-!
SUPPORT. What the updates of the state leave alone, field by field; reading and writing the parts of the state by number; sparse
maps and memory: a read after a write, and the canonical form that every write keeps (spec/14 R261).
-/

namespace Sys2Proof.Machine

@[simp] theorem State.updWarp_clock (s : State) (n : Nat) (f : Warp → Warp) : (s.updWarp n f).clock = s.clock := rfl
@[simp] theorem State.updWarp_devTime (s : State) (n : Nat) (f : Warp → Warp) : (s.updWarp n f).devTime = s.devTime := rfl
@[simp] theorem State.updWarp_ptpLocked (s : State) (n : Nat) (f : Warp → Warp) : (s.updWarp n f).ptpLocked = s.ptpLocked := rfl
@[simp] theorem State.updWarp_ptpStepped (s : State) (n : Nat) (f : Warp → Warp) : (s.updWarp n f).ptpStepped = s.ptpStepped := rfl
@[simp] theorem State.updWarp_boot (s : State) (n : Nat) (f : Warp → Warp) : (s.updWarp n f).boot = s.boot := rfl
@[simp] theorem State.updWarp_flash (s : State) (n : Nat) (f : Warp → Warp) : (s.updWarp n f).flash = s.flash := rfl
@[simp] theorem State.updWarp_cfg (s : State) (n : Nat) (f : Warp → Warp) : (s.updWarp n f).cfg = s.cfg := rfl
@[simp] theorem State.updWarp_measured (s : State) (n : Nat) (f : Warp → Warp) : (s.updWarp n f).measured = s.measured := rfl
@[simp] theorem State.updWarp_moduleFailed (s : State) (n : Nat) (f : Warp → Warp) : (s.updWarp n f).moduleFailed = s.moduleFailed := rfl
@[simp] theorem State.updWarp_cores (s : State) (n : Nat) (f : Warp → Warp) : (s.updWarp n f).cores = s.cores := rfl
@[simp] theorem State.updWarp_vis (s : State) (n : Nat) (f : Warp → Warp) : (s.updWarp n f).vis = s.vis := rfl
@[simp] theorem State.updWarp_launches (s : State) (n : Nat) (f : Warp → Warp) : (s.updWarp n f).launches = s.launches := rfl
@[simp] theorem State.updWarp_blocks (s : State) (n : Nat) (f : Warp → Warp) : (s.updWarp n f).blocks = s.blocks := rfl
@[simp] theorem State.updWarp_mem (s : State) (n : Nat) (f : Warp → Warp) : (s.updWarp n f).mem = s.mem := rfl
@[simp] theorem State.updWarp_poison (s : State) (n : Nat) (f : Warp → Warp) : (s.updWarp n f).poison = s.poison := rfl
@[simp] theorem State.updWarp_l2 (s : State) (n : Nat) (f : Warp → Warp) : (s.updWarp n f).l2 = s.l2 := rfl
@[simp] theorem State.updWarp_marks (s : State) (n : Nat) (f : Warp → Warp) : (s.updWarp n f).marks = s.marks := rfl
@[simp] theorem State.updWarp_recs (s : State) (n : Nat) (f : Warp → Warp) : (s.updWarp n f).recs = s.recs := rfl
@[simp] theorem State.updWarp_floors (s : State) (n : Nat) (f : Warp → Warp) : (s.updWarp n f).floors = s.floors := rfl
@[simp] theorem State.updWarp_aliases (s : State) (n : Nat) (f : Warp → Warp) : (s.updWarp n f).aliases = s.aliases := rfl
@[simp] theorem State.updWarp_sides (s : State) (n : Nat) (f : Warp → Warp) : (s.updWarp n f).sides = s.sides := rfl
@[simp] theorem State.updWarp_ovfRoom (s : State) (n : Nat) (f : Warp → Warp) : (s.updWarp n f).ovfRoom = s.ovfRoom := rfl
@[simp] theorem State.updWarp_endCache (s : State) (n : Nat) (f : Warp → Warp) : (s.updWarp n f).endCache = s.endCache := rfl
@[simp] theorem State.updWarp_net (s : State) (n : Nat) (f : Warp → Warp) : (s.updWarp n f).net = s.net := rfl
@[simp] theorem State.updWarp_staged (s : State) (n : Nat) (f : Warp → Warp) : (s.updWarp n f).staged = s.staged := rfl
@[simp] theorem State.updWarp_holding (s : State) (n : Nat) (f : Warp → Warp) : (s.updWarp n f).holding = s.holding := rfl
@[simp] theorem State.updWarp_waiting (s : State) (n : Nat) (f : Warp → Warp) : (s.updWarp n f).waiting = s.waiting := rfl
@[simp] theorem State.updWarp_banks (s : State) (n : Nat) (f : Warp → Warp) : (s.updWarp n f).banks = s.banks := rfl
@[simp] theorem State.updWarp_clusters (s : State) (n : Nat) (f : Warp → Warp) : (s.updWarp n f).clusters = s.clusters := rfl
@[simp] theorem State.updWarp_links (s : State) (n : Nat) (f : Warp → Warp) : (s.updWarp n f).links = s.links := rfl
@[simp] theorem State.updWarp_ports (s : State) (n : Nat) (f : Warp → Warp) : (s.updWarp n f).ports = s.ports := rfl
@[simp] theorem State.updWarp_hot (s : State) (n : Nat) (f : Warp → Warp) : (s.updWarp n f).hot = s.hot := rfl
@[simp] theorem State.updWarp_shoot (s : State) (n : Nat) (f : Warp → Warp) : (s.updWarp n f).shoot = s.shoot := rfl
@[simp] theorem State.updWarp_walk (s : State) (n : Nat) (f : Warp → Warp) : (s.updWarp n f).walk = s.walk := rfl
@[simp] theorem State.updWarp_preempts (s : State) (n : Nat) (f : Warp → Warp) : (s.updWarp n f).preempts = s.preempts := rfl
@[simp] theorem State.updWarp_flume (s : State) (n : Nat) (f : Warp → Warp) : (s.updWarp n f).flume = s.flume := rfl
@[simp] theorem State.updWarp_scrubLine (s : State) (n : Nat) (f : Warp → Warp) : (s.updWarp n f).scrubLine = s.scrubLine := rfl
@[simp] theorem State.updWarp_lastRefill (s : State) (n : Nat) (f : Warp → Warp) : (s.updWarp n f).lastRefill = s.lastRefill := rfl
@[simp] theorem State.updWarp_lastFloor (s : State) (n : Nat) (f : Warp → Warp) : (s.updWarp n f).lastFloor = s.lastFloor := rfl
@[simp] theorem State.updWarp_lastTick (s : State) (n : Nat) (f : Warp → Warp) : (s.updWarp n f).lastTick = s.lastTick := rfl
@[simp] theorem State.updWarp_lastGrantAt (s : State) (n : Nat) (f : Warp → Warp) : (s.updWarp n f).lastGrantAt = s.lastGrantAt := rfl
@[simp] theorem State.updWarp_rateAt (s : State) (n : Nat) (f : Warp → Warp) : (s.updWarp n f).rateAt = s.rateAt := rfl
@[simp] theorem State.updWarp_rateUsed (s : State) (n : Nat) (f : Warp → Warp) : (s.updWarp n f).rateUsed = s.rateUsed := rfl
@[simp] theorem State.updWarp_sent (s : State) (n : Nat) (f : Warp → Warp) : (s.updWarp n f).sent = s.sent := rfl
@[simp] theorem State.updWarp_nextId (s : State) (n : Nat) (f : Warp → Warp) : (s.updWarp n f).nextId = s.nextId := rfl
@[simp] theorem State.updWarp_freeCtr (s : State) (n : Nat) (f : Warp → Warp) : (s.updWarp n f).freeCtr = s.freeCtr := rfl
@[simp] theorem State.updWarp_agenda (s : State) (n : Nat) (f : Warp → Warp) : (s.updWarp n f).agenda = s.agenda := rfl
@[simp] theorem State.updWarp_cur (s : State) (n : Nat) (f : Warp → Warp) : (s.updWarp n f).cur = s.cur := rfl

@[simp] theorem State.updBlock_clock (s : State) (n : Nat) (f : Block → Block) : (s.updBlock n f).clock = s.clock := rfl
@[simp] theorem State.updBlock_devTime (s : State) (n : Nat) (f : Block → Block) : (s.updBlock n f).devTime = s.devTime := rfl
@[simp] theorem State.updBlock_ptpLocked (s : State) (n : Nat) (f : Block → Block) : (s.updBlock n f).ptpLocked = s.ptpLocked := rfl
@[simp] theorem State.updBlock_ptpStepped (s : State) (n : Nat) (f : Block → Block) : (s.updBlock n f).ptpStepped = s.ptpStepped := rfl
@[simp] theorem State.updBlock_boot (s : State) (n : Nat) (f : Block → Block) : (s.updBlock n f).boot = s.boot := rfl
@[simp] theorem State.updBlock_flash (s : State) (n : Nat) (f : Block → Block) : (s.updBlock n f).flash = s.flash := rfl
@[simp] theorem State.updBlock_cfg (s : State) (n : Nat) (f : Block → Block) : (s.updBlock n f).cfg = s.cfg := rfl
@[simp] theorem State.updBlock_measured (s : State) (n : Nat) (f : Block → Block) : (s.updBlock n f).measured = s.measured := rfl
@[simp] theorem State.updBlock_moduleFailed (s : State) (n : Nat) (f : Block → Block) : (s.updBlock n f).moduleFailed = s.moduleFailed := rfl
@[simp] theorem State.updBlock_cores (s : State) (n : Nat) (f : Block → Block) : (s.updBlock n f).cores = s.cores := rfl
@[simp] theorem State.updBlock_vis (s : State) (n : Nat) (f : Block → Block) : (s.updBlock n f).vis = s.vis := rfl
@[simp] theorem State.updBlock_launches (s : State) (n : Nat) (f : Block → Block) : (s.updBlock n f).launches = s.launches := rfl
@[simp] theorem State.updBlock_warps (s : State) (n : Nat) (f : Block → Block) : (s.updBlock n f).warps = s.warps := rfl
@[simp] theorem State.updBlock_mem (s : State) (n : Nat) (f : Block → Block) : (s.updBlock n f).mem = s.mem := rfl
@[simp] theorem State.updBlock_poison (s : State) (n : Nat) (f : Block → Block) : (s.updBlock n f).poison = s.poison := rfl
@[simp] theorem State.updBlock_l2 (s : State) (n : Nat) (f : Block → Block) : (s.updBlock n f).l2 = s.l2 := rfl
@[simp] theorem State.updBlock_marks (s : State) (n : Nat) (f : Block → Block) : (s.updBlock n f).marks = s.marks := rfl
@[simp] theorem State.updBlock_recs (s : State) (n : Nat) (f : Block → Block) : (s.updBlock n f).recs = s.recs := rfl
@[simp] theorem State.updBlock_floors (s : State) (n : Nat) (f : Block → Block) : (s.updBlock n f).floors = s.floors := rfl
@[simp] theorem State.updBlock_aliases (s : State) (n : Nat) (f : Block → Block) : (s.updBlock n f).aliases = s.aliases := rfl
@[simp] theorem State.updBlock_sides (s : State) (n : Nat) (f : Block → Block) : (s.updBlock n f).sides = s.sides := rfl
@[simp] theorem State.updBlock_ovfRoom (s : State) (n : Nat) (f : Block → Block) : (s.updBlock n f).ovfRoom = s.ovfRoom := rfl
@[simp] theorem State.updBlock_endCache (s : State) (n : Nat) (f : Block → Block) : (s.updBlock n f).endCache = s.endCache := rfl
@[simp] theorem State.updBlock_net (s : State) (n : Nat) (f : Block → Block) : (s.updBlock n f).net = s.net := rfl
@[simp] theorem State.updBlock_staged (s : State) (n : Nat) (f : Block → Block) : (s.updBlock n f).staged = s.staged := rfl
@[simp] theorem State.updBlock_holding (s : State) (n : Nat) (f : Block → Block) : (s.updBlock n f).holding = s.holding := rfl
@[simp] theorem State.updBlock_waiting (s : State) (n : Nat) (f : Block → Block) : (s.updBlock n f).waiting = s.waiting := rfl
@[simp] theorem State.updBlock_banks (s : State) (n : Nat) (f : Block → Block) : (s.updBlock n f).banks = s.banks := rfl
@[simp] theorem State.updBlock_clusters (s : State) (n : Nat) (f : Block → Block) : (s.updBlock n f).clusters = s.clusters := rfl
@[simp] theorem State.updBlock_links (s : State) (n : Nat) (f : Block → Block) : (s.updBlock n f).links = s.links := rfl
@[simp] theorem State.updBlock_ports (s : State) (n : Nat) (f : Block → Block) : (s.updBlock n f).ports = s.ports := rfl
@[simp] theorem State.updBlock_hot (s : State) (n : Nat) (f : Block → Block) : (s.updBlock n f).hot = s.hot := rfl
@[simp] theorem State.updBlock_shoot (s : State) (n : Nat) (f : Block → Block) : (s.updBlock n f).shoot = s.shoot := rfl
@[simp] theorem State.updBlock_walk (s : State) (n : Nat) (f : Block → Block) : (s.updBlock n f).walk = s.walk := rfl
@[simp] theorem State.updBlock_preempts (s : State) (n : Nat) (f : Block → Block) : (s.updBlock n f).preempts = s.preempts := rfl
@[simp] theorem State.updBlock_flume (s : State) (n : Nat) (f : Block → Block) : (s.updBlock n f).flume = s.flume := rfl
@[simp] theorem State.updBlock_scrubLine (s : State) (n : Nat) (f : Block → Block) : (s.updBlock n f).scrubLine = s.scrubLine := rfl
@[simp] theorem State.updBlock_lastRefill (s : State) (n : Nat) (f : Block → Block) : (s.updBlock n f).lastRefill = s.lastRefill := rfl
@[simp] theorem State.updBlock_lastFloor (s : State) (n : Nat) (f : Block → Block) : (s.updBlock n f).lastFloor = s.lastFloor := rfl
@[simp] theorem State.updBlock_lastTick (s : State) (n : Nat) (f : Block → Block) : (s.updBlock n f).lastTick = s.lastTick := rfl
@[simp] theorem State.updBlock_lastGrantAt (s : State) (n : Nat) (f : Block → Block) : (s.updBlock n f).lastGrantAt = s.lastGrantAt := rfl
@[simp] theorem State.updBlock_rateAt (s : State) (n : Nat) (f : Block → Block) : (s.updBlock n f).rateAt = s.rateAt := rfl
@[simp] theorem State.updBlock_rateUsed (s : State) (n : Nat) (f : Block → Block) : (s.updBlock n f).rateUsed = s.rateUsed := rfl
@[simp] theorem State.updBlock_sent (s : State) (n : Nat) (f : Block → Block) : (s.updBlock n f).sent = s.sent := rfl
@[simp] theorem State.updBlock_nextId (s : State) (n : Nat) (f : Block → Block) : (s.updBlock n f).nextId = s.nextId := rfl
@[simp] theorem State.updBlock_freeCtr (s : State) (n : Nat) (f : Block → Block) : (s.updBlock n f).freeCtr = s.freeCtr := rfl
@[simp] theorem State.updBlock_agenda (s : State) (n : Nat) (f : Block → Block) : (s.updBlock n f).agenda = s.agenda := rfl
@[simp] theorem State.updBlock_cur (s : State) (n : Nat) (f : Block → Block) : (s.updBlock n f).cur = s.cur := rfl

@[simp] theorem State.updLaunch_clock (s : State) (n : Nat) (f : Launch → Launch) : (s.updLaunch n f).clock = s.clock := rfl
@[simp] theorem State.updLaunch_devTime (s : State) (n : Nat) (f : Launch → Launch) : (s.updLaunch n f).devTime = s.devTime := rfl
@[simp] theorem State.updLaunch_ptpLocked (s : State) (n : Nat) (f : Launch → Launch) : (s.updLaunch n f).ptpLocked = s.ptpLocked := rfl
@[simp] theorem State.updLaunch_ptpStepped (s : State) (n : Nat) (f : Launch → Launch) : (s.updLaunch n f).ptpStepped = s.ptpStepped := rfl
@[simp] theorem State.updLaunch_boot (s : State) (n : Nat) (f : Launch → Launch) : (s.updLaunch n f).boot = s.boot := rfl
@[simp] theorem State.updLaunch_flash (s : State) (n : Nat) (f : Launch → Launch) : (s.updLaunch n f).flash = s.flash := rfl
@[simp] theorem State.updLaunch_cfg (s : State) (n : Nat) (f : Launch → Launch) : (s.updLaunch n f).cfg = s.cfg := rfl
@[simp] theorem State.updLaunch_measured (s : State) (n : Nat) (f : Launch → Launch) : (s.updLaunch n f).measured = s.measured := rfl
@[simp] theorem State.updLaunch_moduleFailed (s : State) (n : Nat) (f : Launch → Launch) : (s.updLaunch n f).moduleFailed = s.moduleFailed := rfl
@[simp] theorem State.updLaunch_cores (s : State) (n : Nat) (f : Launch → Launch) : (s.updLaunch n f).cores = s.cores := rfl
@[simp] theorem State.updLaunch_vis (s : State) (n : Nat) (f : Launch → Launch) : (s.updLaunch n f).vis = s.vis := rfl
@[simp] theorem State.updLaunch_blocks (s : State) (n : Nat) (f : Launch → Launch) : (s.updLaunch n f).blocks = s.blocks := rfl
@[simp] theorem State.updLaunch_warps (s : State) (n : Nat) (f : Launch → Launch) : (s.updLaunch n f).warps = s.warps := rfl
@[simp] theorem State.updLaunch_mem (s : State) (n : Nat) (f : Launch → Launch) : (s.updLaunch n f).mem = s.mem := rfl
@[simp] theorem State.updLaunch_poison (s : State) (n : Nat) (f : Launch → Launch) : (s.updLaunch n f).poison = s.poison := rfl
@[simp] theorem State.updLaunch_l2 (s : State) (n : Nat) (f : Launch → Launch) : (s.updLaunch n f).l2 = s.l2 := rfl
@[simp] theorem State.updLaunch_marks (s : State) (n : Nat) (f : Launch → Launch) : (s.updLaunch n f).marks = s.marks := rfl
@[simp] theorem State.updLaunch_recs (s : State) (n : Nat) (f : Launch → Launch) : (s.updLaunch n f).recs = s.recs := rfl
@[simp] theorem State.updLaunch_floors (s : State) (n : Nat) (f : Launch → Launch) : (s.updLaunch n f).floors = s.floors := rfl
@[simp] theorem State.updLaunch_aliases (s : State) (n : Nat) (f : Launch → Launch) : (s.updLaunch n f).aliases = s.aliases := rfl
@[simp] theorem State.updLaunch_sides (s : State) (n : Nat) (f : Launch → Launch) : (s.updLaunch n f).sides = s.sides := rfl
@[simp] theorem State.updLaunch_ovfRoom (s : State) (n : Nat) (f : Launch → Launch) : (s.updLaunch n f).ovfRoom = s.ovfRoom := rfl
@[simp] theorem State.updLaunch_endCache (s : State) (n : Nat) (f : Launch → Launch) : (s.updLaunch n f).endCache = s.endCache := rfl
@[simp] theorem State.updLaunch_net (s : State) (n : Nat) (f : Launch → Launch) : (s.updLaunch n f).net = s.net := rfl
@[simp] theorem State.updLaunch_staged (s : State) (n : Nat) (f : Launch → Launch) : (s.updLaunch n f).staged = s.staged := rfl
@[simp] theorem State.updLaunch_holding (s : State) (n : Nat) (f : Launch → Launch) : (s.updLaunch n f).holding = s.holding := rfl
@[simp] theorem State.updLaunch_waiting (s : State) (n : Nat) (f : Launch → Launch) : (s.updLaunch n f).waiting = s.waiting := rfl
@[simp] theorem State.updLaunch_banks (s : State) (n : Nat) (f : Launch → Launch) : (s.updLaunch n f).banks = s.banks := rfl
@[simp] theorem State.updLaunch_clusters (s : State) (n : Nat) (f : Launch → Launch) : (s.updLaunch n f).clusters = s.clusters := rfl
@[simp] theorem State.updLaunch_links (s : State) (n : Nat) (f : Launch → Launch) : (s.updLaunch n f).links = s.links := rfl
@[simp] theorem State.updLaunch_ports (s : State) (n : Nat) (f : Launch → Launch) : (s.updLaunch n f).ports = s.ports := rfl
@[simp] theorem State.updLaunch_hot (s : State) (n : Nat) (f : Launch → Launch) : (s.updLaunch n f).hot = s.hot := rfl
@[simp] theorem State.updLaunch_shoot (s : State) (n : Nat) (f : Launch → Launch) : (s.updLaunch n f).shoot = s.shoot := rfl
@[simp] theorem State.updLaunch_walk (s : State) (n : Nat) (f : Launch → Launch) : (s.updLaunch n f).walk = s.walk := rfl
@[simp] theorem State.updLaunch_preempts (s : State) (n : Nat) (f : Launch → Launch) : (s.updLaunch n f).preempts = s.preempts := rfl
@[simp] theorem State.updLaunch_flume (s : State) (n : Nat) (f : Launch → Launch) : (s.updLaunch n f).flume = s.flume := rfl
@[simp] theorem State.updLaunch_scrubLine (s : State) (n : Nat) (f : Launch → Launch) : (s.updLaunch n f).scrubLine = s.scrubLine := rfl
@[simp] theorem State.updLaunch_lastRefill (s : State) (n : Nat) (f : Launch → Launch) : (s.updLaunch n f).lastRefill = s.lastRefill := rfl
@[simp] theorem State.updLaunch_lastFloor (s : State) (n : Nat) (f : Launch → Launch) : (s.updLaunch n f).lastFloor = s.lastFloor := rfl
@[simp] theorem State.updLaunch_lastTick (s : State) (n : Nat) (f : Launch → Launch) : (s.updLaunch n f).lastTick = s.lastTick := rfl
@[simp] theorem State.updLaunch_lastGrantAt (s : State) (n : Nat) (f : Launch → Launch) : (s.updLaunch n f).lastGrantAt = s.lastGrantAt := rfl
@[simp] theorem State.updLaunch_rateAt (s : State) (n : Nat) (f : Launch → Launch) : (s.updLaunch n f).rateAt = s.rateAt := rfl
@[simp] theorem State.updLaunch_rateUsed (s : State) (n : Nat) (f : Launch → Launch) : (s.updLaunch n f).rateUsed = s.rateUsed := rfl
@[simp] theorem State.updLaunch_sent (s : State) (n : Nat) (f : Launch → Launch) : (s.updLaunch n f).sent = s.sent := rfl
@[simp] theorem State.updLaunch_nextId (s : State) (n : Nat) (f : Launch → Launch) : (s.updLaunch n f).nextId = s.nextId := rfl
@[simp] theorem State.updLaunch_freeCtr (s : State) (n : Nat) (f : Launch → Launch) : (s.updLaunch n f).freeCtr = s.freeCtr := rfl
@[simp] theorem State.updLaunch_agenda (s : State) (n : Nat) (f : Launch → Launch) : (s.updLaunch n f).agenda = s.agenda := rfl
@[simp] theorem State.updLaunch_cur (s : State) (n : Nat) (f : Launch → Launch) : (s.updLaunch n f).cur = s.cur := rfl

@[simp] theorem State.updCore_clock (s : State) (n : Nat) (f : Core → Core) : (s.updCore n f).clock = s.clock := rfl
@[simp] theorem State.updCore_devTime (s : State) (n : Nat) (f : Core → Core) : (s.updCore n f).devTime = s.devTime := rfl
@[simp] theorem State.updCore_ptpLocked (s : State) (n : Nat) (f : Core → Core) : (s.updCore n f).ptpLocked = s.ptpLocked := rfl
@[simp] theorem State.updCore_ptpStepped (s : State) (n : Nat) (f : Core → Core) : (s.updCore n f).ptpStepped = s.ptpStepped := rfl
@[simp] theorem State.updCore_boot (s : State) (n : Nat) (f : Core → Core) : (s.updCore n f).boot = s.boot := rfl
@[simp] theorem State.updCore_flash (s : State) (n : Nat) (f : Core → Core) : (s.updCore n f).flash = s.flash := rfl
@[simp] theorem State.updCore_cfg (s : State) (n : Nat) (f : Core → Core) : (s.updCore n f).cfg = s.cfg := rfl
@[simp] theorem State.updCore_measured (s : State) (n : Nat) (f : Core → Core) : (s.updCore n f).measured = s.measured := rfl
@[simp] theorem State.updCore_moduleFailed (s : State) (n : Nat) (f : Core → Core) : (s.updCore n f).moduleFailed = s.moduleFailed := rfl
@[simp] theorem State.updCore_vis (s : State) (n : Nat) (f : Core → Core) : (s.updCore n f).vis = s.vis := rfl
@[simp] theorem State.updCore_launches (s : State) (n : Nat) (f : Core → Core) : (s.updCore n f).launches = s.launches := rfl
@[simp] theorem State.updCore_blocks (s : State) (n : Nat) (f : Core → Core) : (s.updCore n f).blocks = s.blocks := rfl
@[simp] theorem State.updCore_warps (s : State) (n : Nat) (f : Core → Core) : (s.updCore n f).warps = s.warps := rfl
@[simp] theorem State.updCore_mem (s : State) (n : Nat) (f : Core → Core) : (s.updCore n f).mem = s.mem := rfl
@[simp] theorem State.updCore_poison (s : State) (n : Nat) (f : Core → Core) : (s.updCore n f).poison = s.poison := rfl
@[simp] theorem State.updCore_l2 (s : State) (n : Nat) (f : Core → Core) : (s.updCore n f).l2 = s.l2 := rfl
@[simp] theorem State.updCore_marks (s : State) (n : Nat) (f : Core → Core) : (s.updCore n f).marks = s.marks := rfl
@[simp] theorem State.updCore_recs (s : State) (n : Nat) (f : Core → Core) : (s.updCore n f).recs = s.recs := rfl
@[simp] theorem State.updCore_floors (s : State) (n : Nat) (f : Core → Core) : (s.updCore n f).floors = s.floors := rfl
@[simp] theorem State.updCore_aliases (s : State) (n : Nat) (f : Core → Core) : (s.updCore n f).aliases = s.aliases := rfl
@[simp] theorem State.updCore_sides (s : State) (n : Nat) (f : Core → Core) : (s.updCore n f).sides = s.sides := rfl
@[simp] theorem State.updCore_ovfRoom (s : State) (n : Nat) (f : Core → Core) : (s.updCore n f).ovfRoom = s.ovfRoom := rfl
@[simp] theorem State.updCore_endCache (s : State) (n : Nat) (f : Core → Core) : (s.updCore n f).endCache = s.endCache := rfl
@[simp] theorem State.updCore_net (s : State) (n : Nat) (f : Core → Core) : (s.updCore n f).net = s.net := rfl
@[simp] theorem State.updCore_staged (s : State) (n : Nat) (f : Core → Core) : (s.updCore n f).staged = s.staged := rfl
@[simp] theorem State.updCore_holding (s : State) (n : Nat) (f : Core → Core) : (s.updCore n f).holding = s.holding := rfl
@[simp] theorem State.updCore_waiting (s : State) (n : Nat) (f : Core → Core) : (s.updCore n f).waiting = s.waiting := rfl
@[simp] theorem State.updCore_banks (s : State) (n : Nat) (f : Core → Core) : (s.updCore n f).banks = s.banks := rfl
@[simp] theorem State.updCore_clusters (s : State) (n : Nat) (f : Core → Core) : (s.updCore n f).clusters = s.clusters := rfl
@[simp] theorem State.updCore_links (s : State) (n : Nat) (f : Core → Core) : (s.updCore n f).links = s.links := rfl
@[simp] theorem State.updCore_ports (s : State) (n : Nat) (f : Core → Core) : (s.updCore n f).ports = s.ports := rfl
@[simp] theorem State.updCore_hot (s : State) (n : Nat) (f : Core → Core) : (s.updCore n f).hot = s.hot := rfl
@[simp] theorem State.updCore_shoot (s : State) (n : Nat) (f : Core → Core) : (s.updCore n f).shoot = s.shoot := rfl
@[simp] theorem State.updCore_walk (s : State) (n : Nat) (f : Core → Core) : (s.updCore n f).walk = s.walk := rfl
@[simp] theorem State.updCore_preempts (s : State) (n : Nat) (f : Core → Core) : (s.updCore n f).preempts = s.preempts := rfl
@[simp] theorem State.updCore_flume (s : State) (n : Nat) (f : Core → Core) : (s.updCore n f).flume = s.flume := rfl
@[simp] theorem State.updCore_scrubLine (s : State) (n : Nat) (f : Core → Core) : (s.updCore n f).scrubLine = s.scrubLine := rfl
@[simp] theorem State.updCore_lastRefill (s : State) (n : Nat) (f : Core → Core) : (s.updCore n f).lastRefill = s.lastRefill := rfl
@[simp] theorem State.updCore_lastFloor (s : State) (n : Nat) (f : Core → Core) : (s.updCore n f).lastFloor = s.lastFloor := rfl
@[simp] theorem State.updCore_lastTick (s : State) (n : Nat) (f : Core → Core) : (s.updCore n f).lastTick = s.lastTick := rfl
@[simp] theorem State.updCore_lastGrantAt (s : State) (n : Nat) (f : Core → Core) : (s.updCore n f).lastGrantAt = s.lastGrantAt := rfl
@[simp] theorem State.updCore_rateAt (s : State) (n : Nat) (f : Core → Core) : (s.updCore n f).rateAt = s.rateAt := rfl
@[simp] theorem State.updCore_rateUsed (s : State) (n : Nat) (f : Core → Core) : (s.updCore n f).rateUsed = s.rateUsed := rfl
@[simp] theorem State.updCore_sent (s : State) (n : Nat) (f : Core → Core) : (s.updCore n f).sent = s.sent := rfl
@[simp] theorem State.updCore_nextId (s : State) (n : Nat) (f : Core → Core) : (s.updCore n f).nextId = s.nextId := rfl
@[simp] theorem State.updCore_freeCtr (s : State) (n : Nat) (f : Core → Core) : (s.updCore n f).freeCtr = s.freeCtr := rfl
@[simp] theorem State.updCore_agenda (s : State) (n : Nat) (f : Core → Core) : (s.updCore n f).agenda = s.agenda := rfl
@[simp] theorem State.updCore_cur (s : State) (n : Nat) (f : Core → Core) : (s.updCore n f).cur = s.cur := rfl

@[simp] theorem State.updVi_clock (s : State) (n : Nat) (f : Vi → Vi) : (s.updVi n f).clock = s.clock := rfl
@[simp] theorem State.updVi_devTime (s : State) (n : Nat) (f : Vi → Vi) : (s.updVi n f).devTime = s.devTime := rfl
@[simp] theorem State.updVi_ptpLocked (s : State) (n : Nat) (f : Vi → Vi) : (s.updVi n f).ptpLocked = s.ptpLocked := rfl
@[simp] theorem State.updVi_ptpStepped (s : State) (n : Nat) (f : Vi → Vi) : (s.updVi n f).ptpStepped = s.ptpStepped := rfl
@[simp] theorem State.updVi_boot (s : State) (n : Nat) (f : Vi → Vi) : (s.updVi n f).boot = s.boot := rfl
@[simp] theorem State.updVi_flash (s : State) (n : Nat) (f : Vi → Vi) : (s.updVi n f).flash = s.flash := rfl
@[simp] theorem State.updVi_cfg (s : State) (n : Nat) (f : Vi → Vi) : (s.updVi n f).cfg = s.cfg := rfl
@[simp] theorem State.updVi_measured (s : State) (n : Nat) (f : Vi → Vi) : (s.updVi n f).measured = s.measured := rfl
@[simp] theorem State.updVi_moduleFailed (s : State) (n : Nat) (f : Vi → Vi) : (s.updVi n f).moduleFailed = s.moduleFailed := rfl
@[simp] theorem State.updVi_cores (s : State) (n : Nat) (f : Vi → Vi) : (s.updVi n f).cores = s.cores := rfl
@[simp] theorem State.updVi_launches (s : State) (n : Nat) (f : Vi → Vi) : (s.updVi n f).launches = s.launches := rfl
@[simp] theorem State.updVi_blocks (s : State) (n : Nat) (f : Vi → Vi) : (s.updVi n f).blocks = s.blocks := rfl
@[simp] theorem State.updVi_warps (s : State) (n : Nat) (f : Vi → Vi) : (s.updVi n f).warps = s.warps := rfl
@[simp] theorem State.updVi_mem (s : State) (n : Nat) (f : Vi → Vi) : (s.updVi n f).mem = s.mem := rfl
@[simp] theorem State.updVi_poison (s : State) (n : Nat) (f : Vi → Vi) : (s.updVi n f).poison = s.poison := rfl
@[simp] theorem State.updVi_l2 (s : State) (n : Nat) (f : Vi → Vi) : (s.updVi n f).l2 = s.l2 := rfl
@[simp] theorem State.updVi_marks (s : State) (n : Nat) (f : Vi → Vi) : (s.updVi n f).marks = s.marks := rfl
@[simp] theorem State.updVi_recs (s : State) (n : Nat) (f : Vi → Vi) : (s.updVi n f).recs = s.recs := rfl
@[simp] theorem State.updVi_floors (s : State) (n : Nat) (f : Vi → Vi) : (s.updVi n f).floors = s.floors := rfl
@[simp] theorem State.updVi_aliases (s : State) (n : Nat) (f : Vi → Vi) : (s.updVi n f).aliases = s.aliases := rfl
@[simp] theorem State.updVi_sides (s : State) (n : Nat) (f : Vi → Vi) : (s.updVi n f).sides = s.sides := rfl
@[simp] theorem State.updVi_ovfRoom (s : State) (n : Nat) (f : Vi → Vi) : (s.updVi n f).ovfRoom = s.ovfRoom := rfl
@[simp] theorem State.updVi_endCache (s : State) (n : Nat) (f : Vi → Vi) : (s.updVi n f).endCache = s.endCache := rfl
@[simp] theorem State.updVi_net (s : State) (n : Nat) (f : Vi → Vi) : (s.updVi n f).net = s.net := rfl
@[simp] theorem State.updVi_staged (s : State) (n : Nat) (f : Vi → Vi) : (s.updVi n f).staged = s.staged := rfl
@[simp] theorem State.updVi_holding (s : State) (n : Nat) (f : Vi → Vi) : (s.updVi n f).holding = s.holding := rfl
@[simp] theorem State.updVi_waiting (s : State) (n : Nat) (f : Vi → Vi) : (s.updVi n f).waiting = s.waiting := rfl
@[simp] theorem State.updVi_banks (s : State) (n : Nat) (f : Vi → Vi) : (s.updVi n f).banks = s.banks := rfl
@[simp] theorem State.updVi_clusters (s : State) (n : Nat) (f : Vi → Vi) : (s.updVi n f).clusters = s.clusters := rfl
@[simp] theorem State.updVi_links (s : State) (n : Nat) (f : Vi → Vi) : (s.updVi n f).links = s.links := rfl
@[simp] theorem State.updVi_ports (s : State) (n : Nat) (f : Vi → Vi) : (s.updVi n f).ports = s.ports := rfl
@[simp] theorem State.updVi_hot (s : State) (n : Nat) (f : Vi → Vi) : (s.updVi n f).hot = s.hot := rfl
@[simp] theorem State.updVi_shoot (s : State) (n : Nat) (f : Vi → Vi) : (s.updVi n f).shoot = s.shoot := rfl
@[simp] theorem State.updVi_walk (s : State) (n : Nat) (f : Vi → Vi) : (s.updVi n f).walk = s.walk := rfl
@[simp] theorem State.updVi_preempts (s : State) (n : Nat) (f : Vi → Vi) : (s.updVi n f).preempts = s.preempts := rfl
@[simp] theorem State.updVi_flume (s : State) (n : Nat) (f : Vi → Vi) : (s.updVi n f).flume = s.flume := rfl
@[simp] theorem State.updVi_scrubLine (s : State) (n : Nat) (f : Vi → Vi) : (s.updVi n f).scrubLine = s.scrubLine := rfl
@[simp] theorem State.updVi_lastRefill (s : State) (n : Nat) (f : Vi → Vi) : (s.updVi n f).lastRefill = s.lastRefill := rfl
@[simp] theorem State.updVi_lastFloor (s : State) (n : Nat) (f : Vi → Vi) : (s.updVi n f).lastFloor = s.lastFloor := rfl
@[simp] theorem State.updVi_lastTick (s : State) (n : Nat) (f : Vi → Vi) : (s.updVi n f).lastTick = s.lastTick := rfl
@[simp] theorem State.updVi_lastGrantAt (s : State) (n : Nat) (f : Vi → Vi) : (s.updVi n f).lastGrantAt = s.lastGrantAt := rfl
@[simp] theorem State.updVi_rateAt (s : State) (n : Nat) (f : Vi → Vi) : (s.updVi n f).rateAt = s.rateAt := rfl
@[simp] theorem State.updVi_rateUsed (s : State) (n : Nat) (f : Vi → Vi) : (s.updVi n f).rateUsed = s.rateUsed := rfl
@[simp] theorem State.updVi_sent (s : State) (n : Nat) (f : Vi → Vi) : (s.updVi n f).sent = s.sent := rfl
@[simp] theorem State.updVi_nextId (s : State) (n : Nat) (f : Vi → Vi) : (s.updVi n f).nextId = s.nextId := rfl
@[simp] theorem State.updVi_freeCtr (s : State) (n : Nat) (f : Vi → Vi) : (s.updVi n f).freeCtr = s.freeCtr := rfl
@[simp] theorem State.updVi_agenda (s : State) (n : Nat) (f : Vi → Vi) : (s.updVi n f).agenda = s.agenda := rfl
@[simp] theorem State.updVi_cur (s : State) (n : Nat) (f : Vi → Vi) : (s.updVi n f).cur = s.cur := rfl

/-! ### The parts of the state by number -/

theorem getD_modify_same {α : Type} (xs : List α) (n : Nat) (f : α → α) (d : α) (h : n < xs.length) :
    (xs.modify n f).getD n d = f (xs.getD n d) := by
  simp [List.getD_eq_getElem?_getD, h]

theorem getD_modify_other {α : Type} (xs : List α) (n m : Nat) (f : α → α) (d : α) (h : m ≠ n) :
    (xs.modify n f).getD m d = xs.getD m d := by
  simp [List.getD_eq_getElem?_getD, Ne.symm h]

theorem State.updWarp_warp_same {s : State} {n : Nat} {f : Warp → Warp} (h : n < s.warps.length) :
    (s.updWarp n f).warp n = f (s.warp n) := getD_modify_same _ _ _ _ h
theorem State.updWarp_warp_other {s : State} {n m : Nat} {f : Warp → Warp} (h : m ≠ n) :
    (s.updWarp n f).warp m = s.warp m := getD_modify_other _ _ _ _ _ h
theorem State.updBlock_block_same {s : State} {n : Nat} {f : Block → Block} (h : n < s.blocks.length) :
    (s.updBlock n f).block n = f (s.block n) := getD_modify_same _ _ _ _ h
theorem State.updBlock_block_other {s : State} {n m : Nat} {f : Block → Block} (h : m ≠ n) :
    (s.updBlock n f).block m = s.block m := getD_modify_other _ _ _ _ _ h
theorem State.updLaunch_launch_same {s : State} {n : Nat} {f : Launch → Launch} (h : n < s.launches.length) :
    (s.updLaunch n f).launch n = f (s.launch n) := getD_modify_same _ _ _ _ h
theorem State.updLaunch_launch_other {s : State} {n m : Nat} {f : Launch → Launch} (h : m ≠ n) :
    (s.updLaunch n f).launch m = s.launch m := getD_modify_other _ _ _ _ _ h
theorem State.updCore_core_same {s : State} {n : Nat} {f : Core → Core} (h : n < s.cores.length) :
    (s.updCore n f).core n = f (s.core n) := getD_modify_same _ _ _ _ h
theorem State.updCore_core_other {s : State} {n m : Nat} {f : Core → Core} (h : m ≠ n) :
    (s.updCore n f).core m = s.core m := getD_modify_other _ _ _ _ _ h
theorem State.updVi_vi_same {s : State} {n : Nat} {f : Vi → Vi} (h : n < s.vis.length) :
    (s.updVi n f).vi n = f (s.vi n) := getD_modify_same _ _ _ _ h
theorem State.updVi_vi_other {s : State} {n m : Nat} {f : Vi → Vi} (h : m ≠ n) :
    (s.updVi n f).vi m = s.vi m := getD_modify_other _ _ _ _ _ h

@[simp] theorem State.updWarp_length (s : State) (n : Nat) (f : Warp → Warp) :
    (s.updWarp n f).warps.length = s.warps.length := by simp [State.updWarp]
@[simp] theorem State.updBlock_length (s : State) (n : Nat) (f : Block → Block) :
    (s.updBlock n f).blocks.length = s.blocks.length := by simp [State.updBlock]
@[simp] theorem State.updLaunch_length (s : State) (n : Nat) (f : Launch → Launch) :
    (s.updLaunch n f).launches.length = s.launches.length := by simp [State.updLaunch]
@[simp] theorem State.updCore_length (s : State) (n : Nat) (f : Core → Core) :
    (s.updCore n f).cores.length = s.cores.length := by simp [State.updCore]
@[simp] theorem State.updVi_length (s : State) (n : Nat) (f : Vi → Vi) :
    (s.updVi n f).vis.length = s.vis.length := by simp [State.updVi]

@[simp] theorem State.updWarp_block (s : State) (n b : Nat) (f : Warp → Warp) : (s.updWarp n f).block b = s.block b := rfl
@[simp] theorem State.updWarp_launch (s : State) (n b : Nat) (f : Warp → Warp) : (s.updWarp n f).launch b = s.launch b := rfl
@[simp] theorem State.updWarp_core (s : State) (n b : Nat) (f : Warp → Warp) : (s.updWarp n f).core b = s.core b := rfl
@[simp] theorem State.updWarp_vi (s : State) (n b : Nat) (f : Warp → Warp) : (s.updWarp n f).vi b = s.vi b := rfl
@[simp] theorem State.updBlock_warp (s : State) (n b : Nat) (f : Block → Block) : (s.updBlock n f).warp b = s.warp b := rfl
@[simp] theorem State.updBlock_launch (s : State) (n b : Nat) (f : Block → Block) : (s.updBlock n f).launch b = s.launch b := rfl
@[simp] theorem State.updBlock_core (s : State) (n b : Nat) (f : Block → Block) : (s.updBlock n f).core b = s.core b := rfl
@[simp] theorem State.updBlock_vi (s : State) (n b : Nat) (f : Block → Block) : (s.updBlock n f).vi b = s.vi b := rfl
@[simp] theorem State.updLaunch_warp (s : State) (n b : Nat) (f : Launch → Launch) : (s.updLaunch n f).warp b = s.warp b := rfl
@[simp] theorem State.updLaunch_block (s : State) (n b : Nat) (f : Launch → Launch) : (s.updLaunch n f).block b = s.block b := rfl
@[simp] theorem State.updLaunch_core (s : State) (n b : Nat) (f : Launch → Launch) : (s.updLaunch n f).core b = s.core b := rfl
@[simp] theorem State.updLaunch_vi (s : State) (n b : Nat) (f : Launch → Launch) : (s.updLaunch n f).vi b = s.vi b := rfl
@[simp] theorem State.updCore_warp (s : State) (n b : Nat) (f : Core → Core) : (s.updCore n f).warp b = s.warp b := rfl
@[simp] theorem State.updCore_block (s : State) (n b : Nat) (f : Core → Core) : (s.updCore n f).block b = s.block b := rfl
@[simp] theorem State.updCore_launch (s : State) (n b : Nat) (f : Core → Core) : (s.updCore n f).launch b = s.launch b := rfl
@[simp] theorem State.updCore_vi (s : State) (n b : Nat) (f : Core → Core) : (s.updCore n f).vi b = s.vi b := rfl
@[simp] theorem State.updVi_warp (s : State) (n b : Nat) (f : Vi → Vi) : (s.updVi n f).warp b = s.warp b := rfl
@[simp] theorem State.updVi_block (s : State) (n b : Nat) (f : Vi → Vi) : (s.updVi n f).block b = s.block b := rfl
@[simp] theorem State.updVi_launch (s : State) (n b : Nat) (f : Vi → Vi) : (s.updVi n f).launch b = s.launch b := rfl
@[simp] theorem State.updVi_core (s : State) (n b : Nat) (f : Vi → Vi) : (s.updVi n f).core b = s.core b := rfl

/-! ### Sparse maps -/

section Sparse
variable {β : Type}

theorem sget_sdel (m : Sparse β) (k j : Nat) (d : β) : sget (sdel m k) j d = if j = k then d else sget m j d := by
  induction m with
  | nil => simp [sdel, sget]
  | cons e r ih =>
    obtain ⟨i, v⟩ := e
    simp only [sdel]
    split
    · rw [ih]; simp only [sget]; split
      · rfl
      · rw [if_neg (by omega)]
    · simp only [sget]
      split
      · rw [if_neg (by omega)]
      · exact ih

theorem sget_sins (m : Sparse β) (k j : Nat) (x d : β) : sget (sins m k x) j d = if j = k then x else sget m j d := by
  induction m with
  | nil => simp only [sins, sget, eq_comm]
  | cons e r ih =>
    obtain ⟨i, v⟩ := e
    simp only [sins]
    split
    · simp only [sget]
      by_cases h : j = k
      · rw [if_pos (by omega), if_pos h]
      · rw [if_neg (by omega), if_neg h, if_neg (by omega)]
    · split
      · simp only [sget]
        by_cases h : j = k
        · rw [if_pos (by omega), if_pos h]
        · rw [if_neg (by omega), if_neg h]
      · simp only [sget]
        split
        · rw [if_neg (by omega)]
        · exact ih

theorem sget_sset [DecidableEq β] (m : Sparse β) (k j : Nat) (x d : β) :
    sget (sset m k x d) j d = if j = k then x else sget m j d := by
  unfold sset
  split
  · next h => rw [sget_sdel, h]
  · exact sget_sins m k j x d

theorem swfFrom_mono [DecidableEq β] {d : β} {m : Sparse β} {lo hi : Nat} (h : lo ≤ hi) (w : swfFrom d hi m = true) :
    swfFrom d lo m = true := by
  cases m with
  | nil => rfl
  | cons e r =>
    simp only [swfFrom, Bool.and_eq_true, decide_eq_true_eq] at w ⊢
    exact ⟨⟨by omega, w.1.2⟩, w.2⟩

theorem swfFrom_sdel [DecidableEq β] {d : β} {m : Sparse β} {lo : Nat} (k : Nat) (w : swfFrom d lo m = true) :
    swfFrom d lo (sdel m k) = true := by
  induction m generalizing lo with
  | nil => rfl
  | cons e r ih =>
    simp only [swfFrom, Bool.and_eq_true, decide_eq_true_eq] at w
    simp only [sdel]
    split
    · exact swfFrom_mono (by omega) (ih w.2)
    · simp only [swfFrom, Bool.and_eq_true, decide_eq_true_eq]
      exact ⟨w.1, ih w.2⟩

theorem swfFrom_sins [DecidableEq β] {d x : β} {m : Sparse β} {lo k : Nat} (hx : x ≠ d) (hk : lo ≤ k)
    (w : swfFrom d lo m = true) : swfFrom d lo (sins m k x) = true := by
  induction m generalizing lo with
  | nil => simp [sins, swfFrom, hx, hk]
  | cons e r ih =>
    simp only [swfFrom, Bool.and_eq_true, decide_eq_true_eq] at w
    simp only [sins]
    split
    · next h =>
      simp only [swfFrom, Bool.and_eq_true, decide_eq_true_eq]
      exact ⟨⟨hk, hx⟩, h ▸ w.2⟩
    · split
      · simp only [swfFrom, Bool.and_eq_true, decide_eq_true_eq]
        exact ⟨⟨hk, hx⟩, ⟨by omega, w.1.2⟩, w.2⟩
      · simp only [swfFrom, Bool.and_eq_true, decide_eq_true_eq]
        exact ⟨w.1, ih (by omega) w.2⟩

theorem swf_sset [DecidableEq β] {d : β} {m : Sparse β} (k : Nat) (x : β) (w : swf m d = true) : swf (sset m k x d) d = true := by
  unfold sset swf
  split
  · exact swfFrom_sdel k w
  · next h => exact swfFrom_sins h (Nat.zero_le k) w

theorem swfFrom_filter [DecidableEq β] {d : β} {m : Sparse β} {lo : Nat} (f : Nat × β → Bool) (w : swfFrom d lo m = true) :
    swfFrom d lo (m.filter f) = true := by
  induction m generalizing lo with
  | nil => rfl
  | cons e r ih =>
    simp only [swfFrom, Bool.and_eq_true, decide_eq_true_eq] at w
    simp only [List.filter]
    split
    · simp only [swfFrom, Bool.and_eq_true, decide_eq_true_eq]
      exact ⟨w.1, ih w.2⟩
    · exact swfFrom_mono (by omega) (ih w.2)
end Sparse

/-! ### Memory (R261) -/

theorem Memory.read_write (m : Memory) (a x : Nat) (b : BitVec 8) :
    (m.write a b).read x = if x = a then b else m.read x := sget_sset m a x b Memory.blank

theorem Memory.wf_write {m : Memory} (a : Nat) (b : BitVec 8) (w : m.wf = true) : (m.write a b).wf = true := swf_sset a b w

theorem Memory.read_writeBytes (m : Memory) (a : Nat) (bs : List (BitVec 8)) (x : Nat) :
    (m.writeBytes a bs).read x = if a ≤ x ∧ x < a + bs.length then bs.getD (x - a) 0 else m.read x := by
  induction bs generalizing m a with
  | nil => simp only [Memory.writeBytes, List.length_nil]; rw [if_neg (by omega)]
  | cons b r ih =>
    simp only [Memory.writeBytes]
    rw [ih, Memory.read_write]
    simp only [List.length_cons]
    by_cases h : x = a
    · subst h
      rw [if_neg (by omega), if_pos rfl, if_pos (by omega), Nat.sub_self]; rfl
    · by_cases g : a + 1 ≤ x ∧ x < a + 1 + r.length
      · rw [if_pos g, if_pos (by omega)]
        have : x - a = (x - (a + 1)) + 1 := by omega
        rw [this]; rfl
      · rw [if_neg g, if_neg h, if_neg (by omega)]

theorem Memory.wf_writeBytes {m : Memory} (a : Nat) (bs : List (BitVec 8)) (w : m.wf = true) : (m.writeBytes a bs).wf = true := by
  induction bs generalizing m a with
  | nil => exact w
  | cons b r ih => exact ih (a + 1) (Memory.wf_write a b w)

theorem Memory.wf_writeCells {m : Memory} (cs : List Host.Cell) (w : m.wf = true) : (m.writeCells cs).wf = true := by
  unfold Memory.writeCells
  induction cs generalizing m with
  | nil => exact w
  | cons c r ih => exact ih (Memory.wf_write c.1 c.2 w)

theorem Memory.read_writeCells_other (m : Memory) (cs : List Host.Cell) (x : Nat) (h : ∀ c ∈ cs, c.1 ≠ x) :
    (m.writeCells cs).read x = m.read x := by
  unfold Memory.writeCells
  induction cs generalizing m with
  | nil => rfl
  | cons c r ih =>
    rw [List.foldl_cons, ih _ fun d hd => h d (List.mem_cons_of_mem c hd), Memory.read_write,
      if_neg fun e => h c List.mem_cons_self e.symm]

theorem Memory.wf_copy {m : Memory} (src dst n : Nat) (w : m.wf = true) : (m.copy src dst n).wf = true :=
  Memory.wf_writeCells _ (swfFrom_filter _ w)

theorem leBytes_length (n x : Nat) : (leBytes n x).length = n := by simp [leBytes]

theorem leBytes_getD (n x k : Nat) (h : k < n) : (leBytes n x).getD k 0 = BitVec.ofNat 8 (x >>> (8 * k)) := by
  simp [leBytes, List.getD_eq_getElem?_getD, h]

theorem leNat_leBytes (n x : Nat) : leNat (leBytes n x) = x % 256 ^ n := by
  induction n generalizing x with
  | zero => simp [leBytes, leNat, Nat.mod_one]
  | succ n ih =>
    have h : leBytes (n + 1) x = BitVec.ofNat 8 x :: leBytes n (x >>> 8) := by
      simp only [leBytes, List.range_succ_eq_map, List.map_cons, List.map_map]
      refine congrArg₂ _ (by simp) (List.map_congr_left fun k _ => ?_)
      simp only [Function.comp, ← Nat.shiftRight_add]
      congr 2; omega
    rw [h]
    show (BitVec.ofNat 8 x).toNat + 256 * leNat (leBytes n (x >>> 8)) = _
    rw [ih, BitVec.toNat_ofNat, Nat.shiftRight_eq_div_pow, show (256 : Nat) ^ (n + 1) = 2 ^ 8 * 256 ^ n by rw [Nat.pow_succ, Nat.mul_comm]; rfl, Nat.mod_mul]
    rfl

/-- What memory holds where a number has been written (R43). -/
theorem Memory.readBytes_writeBytes (m : Memory) (a : Nat) (bs : List (BitVec 8)) :
    (m.writeBytes a bs).readBytes a bs.length = bs := by
  unfold Memory.readBytes
  refine List.ext_getElem? fun k => ?_
  by_cases h : k < bs.length
  · rw [List.getElem?_map, List.getElem?_range h]
    simp only [Option.map_some, Memory.read_writeBytes]
    rw [if_pos ⟨by omega, by omega⟩, Nat.add_sub_cancel_left, List.getD_eq_getElem?_getD, List.getElem?_eq_getElem h]
    rfl
  · rw [List.getElem?_eq_none (by simpa using h), List.getElem?_eq_none (by omega)]

end Sys2Proof.Machine
end

