-- ==== Sys2Proof/Laws/Steps.lean ====
section
/-!
SUPPORT. What the shared operations of a word that acts do, each said once: the checks before it, its reads, its writes, its end,
and the region of its own (spec/06 R102, R106, spec/07 R130, R131, spec/08 R147, R149, R153).
-/

namespace Sys2Proof.Machine

/-! ### A change to one warp -/

/-- [t] is [s] with [n] cycles gone, [k] numbers given out, one warp changed by [φ], counters counted and records added. -/
structure OneWarp (s t : State) (w n k : Nat) (φ : Warp → Warp) : Prop where
  rest : t = { s with warps := t.warps, clock := s.clock + n, nextId := s.nextId + k, vis := t.vis, recs := t.recs, flume := t.flume }
  size : t.warps.length = s.warps.length
  others : ∀ v, v ≠ w → t.warp v = s.warp v
  warp : t.warp w = φ (s.warp w)
  vis : ∀ v, t.vi v = { s.vi v with ctr := (t.vi v).ctr }
  recs : ∃ rs, t.recs = s.recs ++ rs
  flume : ∃ fs, t.flume = s.flume ++ fs

theorem OneWarp.refl (s : State) (w : Nat) : OneWarp s s w 0 0 id :=
  ⟨rfl, rfl, fun _ _ => rfl, rfl, fun _ => rfl, ⟨[], by simp⟩, ⟨[], by simp⟩⟩

theorem OneWarp.trans {s t u : State} {w n m k j : Nat} {φ ψ : Warp → Warp} (a : OneWarp s t w n k φ) (b : OneWarp t u w m j ψ) :
    OneWarp s u w (n + m) (k + j) (ψ ∘ φ) := by
  obtain ⟨rs, hr⟩ := a.recs
  obtain ⟨rs', hr'⟩ := b.recs
  obtain ⟨fs, hf⟩ := a.flume
  obtain ⟨fs', hf'⟩ := b.flume
  refine ⟨?_, b.size.trans a.size, fun v h => (b.others v h).trans (a.others v h), ?_, fun v => ?_, ⟨rs ++ rs', ?_⟩, ⟨fs ++ fs', ?_⟩⟩
  · have h := b.rest
    rw [a.rest] at h
    rw [h]
    simp [Nat.add_assoc]
  · rw [b.warp, a.warp]; rfl
  · rw [b.vis v, a.vis v]
  · rw [hr', hr, List.append_assoc]
  · rw [hf', hf, List.append_assoc]

theorem OneWarp.upd (s : State) {w : Nat} (φ : Warp → Warp) (h : w < s.warps.length) : OneWarp s (s.updWarp w φ) w 0 0 φ :=
  ⟨rfl, s.updWarp_length w φ, fun _ hv => State.updWarp_warp_other hv, State.updWarp_warp_same h, fun _ => rfl, ⟨[], by simp⟩,
    ⟨[], by simp⟩⟩

section OneWarpFacts
variable {s t : State} {w n k : Nat} {φ : Warp → Warp} (h : OneWarp s t w n k φ)
include h

theorem OneWarp.block (b : Nat) : t.block b = s.block b := by rw [h.rest]; rfl
theorem OneWarp.launch (b : Nat) : t.launch b = s.launch b := by rw [h.rest]; rfl
theorem OneWarp.core (b : Nat) : t.core b = s.core b := by rw [h.rest]; rfl
theorem OneWarp.devTime : t.devTime = s.devTime := by rw [h.rest]
theorem OneWarp.cur : t.cur = s.cur := by rw [h.rest]
theorem OneWarp.mem : t.mem = s.mem := by rw [h.rest]
theorem OneWarp.clock : t.clock = s.clock + n := by rw [h.rest]
theorem OneWarp.blocks : t.blocks = s.blocks := by rw [h.rest]
theorem OneWarp.launches : t.launches = s.launches := by rw [h.rest]
theorem OneWarp.cores : t.cores = s.cores := by rw [h.rest]

end OneWarpFacts

/-! ### Counters -/

/-- Counting changes counters and adds overflow records, and nothing else. -/
theorem State.count_small (s : State) (w vi unit ev k : Nat) : OneWarp s (s.count vi unit ev k) w 0 0 id := by
  unfold State.count
  split
  · exact .refl s w
  · generalize (s.vi vi).ctr.csel = es
    induction es generalizing s with
    | nil => exact .refl s w
    | cons e es ih =>
      simp only [List.foldl_cons]
      split
      · refine OneWarp.trans (n := 0) (k := 0) (φ := id) ?_ (ih _)
        have key : ∀ (u : State) (f : Vi → Vi), (∀ v, f v = { v with ctr := (f v).ctr }) → OneWarp u (u.updVi vi f) w 0 0 id := by
          intro u f hf
          refine ⟨rfl, rfl, fun _ _ => rfl, rfl, fun v => ?_, ⟨[], by simp⟩, ⟨[], by simp⟩⟩
          by_cases hv : v = vi
          · subst hv
            by_cases hl : v < u.vis.length
            · rw [State.updVi_vi_same hl, ← hf]
            · have : (u.updVi v f).vi v = u.vi v := by
                simp [State.vi, State.updVi, List.getD_eq_getElem?_getD, hl]
              rw [this]
          · rw [State.updVi_vi_other hv]
        have emit : ∀ (u : State) ws, OneWarp u (u.emit vi ws) w 0 0 id := fun u ws =>
          ⟨rfl, rfl, fun _ _ => rfl, rfl, fun _ => rfl, ⟨[], by simp [State.emit]⟩, ⟨[⟨vi, ws⟩], rfl⟩⟩
        split
        · exact key _ _ fun v => rfl
        · exact (emit s _).trans (key _ _ fun v => rfl)
      · exact ih s

/-! ### The checks before a word (R126, R136, R140, R141, R148, R149) -/

/-- What the first issue of a warp and of a region change in it. -/
def Warp.begun (w : Warp) (time : Nat) : Warp :=
  (if w.firstIssue.isSome then w else { w with firstIssue := some time }).openRegion

theorem State.begin_small (s : State) {w : Nat} (h : w < s.warps.length) :
    OneWarp s (s.begin_ w) w 0 0 fun x => x.begun s.devTime := by
  unfold State.begin_
  by_cases hf : (s.warp w).firstIssue.isSome = true
  · simp only [hf, if_true]
    have a := OneWarp.upd s (fun x => x.openRegion) h
    refine { a with warp := ?_ }
    rw [a.warp]; simp [Warp.begun, hf]
  · simp only [hf, if_false, Bool.false_eq_true]
    have key : ∀ u : State, OneWarp s u w 0 0 id →
        OneWarp s ((u.updWarp w fun x => { x with firstIssue := some s.devTime }).updWarp w fun x => x.openRegion) w 0 0
          fun x => x.begun s.devTime := by
      intro u hu
      have hl : w < u.warps.length := by rw [hu.size]; exact h
      have a := (hu.trans (OneWarp.upd u (fun x => { x with firstIssue := some s.devTime }) hl)).trans
        (OneWarp.upd _ (fun x => x.openRegion) (by simpa using hl))
      refine { a with warp := ?_ }
      rw [a.warp]
      simp [Warp.begun, hf]
    apply key
    unfold State.openRec
    split
    · exact .refl s w
    · exact ⟨rfl, rfl, fun _ _ => rfl, rfl, fun _ => rfl, ⟨_, rfl⟩, ⟨[], by simp⟩⟩

theorem State.enter_ready {s : State} {x : Issue} {f : Foot} (h : Ready s x f) : s.enter x f = .go (s.begin_ x.w) := by
  have hc : f.writes.any ((s.warp x.w).region.liveIn f.reads) = s.clobbers x f := rfl
  have hw : (s.clobbers x f && (s.warp x.w).region.issued != 0) = false := by
    cases hb : s.clobbers x f
    · rfl
    · simp [h.whole hb]
  have hd : ((s.warp x.w).deferred.isSome && (s.warp x.w).region.issued == 0) = false := by
    rcases h.deferred with hd | hd
    · simp [hd]
    · simp [hd]
  unfold State.enter
  simp only [h.stop, h.hold, h.twin, h.legal, h.board, h.bound, h.held, hc, hw, hd]
  simp only [Option.isSome_none, Bool.false_or, bne_self_eq_false, Bool.false_eq_true, if_false]
  split
  · rename_i o ho
    obtain ⟨h1, h2⟩ := h.older o ho
    simp [h1, h2]
  · rfl

/-! ### What a word reads does not depend on the start of its region -/

/-- Two states in which a word reads the same. -/
structure SameReads (s t : State) (w : Nat) : Prop where
  vregs : (t.warp w).vregs = (s.warp w).vregs
  sregs : (t.warp w).sregs = (s.warp w).sregs
  preds : (t.warp w).preds = (s.warp w).preds
  launch : (t.warp w).launch = (s.warp w).launch
  block : (t.warp w).block = (s.warp w).block
  windex : (t.warp w).windex = (s.warp w).windex
  part : (t.warp w).part = (s.warp w).part
  present : (t.warp w).present = (s.warp w).present
  exited : (t.warp w).exited = (s.warp w).exited
  helpers : (t.warp w).helpers = (s.warp w).helpers
  fptrap : (t.warp w).fptrap = (s.warp w).fptrap
  draws : (t.warp w).draws = (s.warp w).draws
  blocks : t.blocks = s.blocks
  launches : t.launches = s.launches

section Reads
variable {s t : State} {x : Issue} (h : SameReads s t x.w)
include h

theorem SameReads.blockOf : t.blockOf x.w = s.blockOf x.w := by simp [State.blockOf, State.block, h.block, h.blocks]
theorem SameReads.launchOf : t.launchOf x.w = s.launchOf x.w := by simp [State.launchOf, State.launch, h.launch, h.launches]
theorem SameReads.vreg (r l : Nat) : (t.warp x.w).v r l = (s.warp x.w).v r l := by simp [Warp.v, h.vregs]
theorem SameReads.sreg (r : Nat) : (t.warp x.w).s r = (s.warp x.w).s r := by simp [Warp.s, h.sregs]
theorem SameReads.preg (q l : Nat) : (t.warp x.w).p q l = (s.warp x.w).p q l := by simp [Warp.p, h.preds]
theorem SameReads.live : (t.warp x.w).live = (s.warp x.w).live := by simp [Warp.live, h.present, h.exited]
theorem SameReads.exitHelpers : (t.warp x.w).exitHelpers = (s.warp x.w).exitHelpers := by
  simp [Warp.exitHelpers, h.live, h.exited, h.present]
theorem SameReads.allHelpers : (t.warp x.w).allHelpers = (s.warp x.w).allHelpers := by
  simp [Warp.allHelpers, h.exitHelpers, h.helpers]
theorem SameReads.enables : (t.warp x.w).enables = (s.warp x.w).enables := by simp [Warp.enables, h.fptrap]

theorem SameReads.special (sp : Special) (l : Nat) : t.special x sp l = s.special x sp l := by
  have hb := h.blockOf
  have hl := h.launchOf
  simp only [State.special, hb, hl, h.windex, h.part, h.block, h.allHelpers]

theorem SameReads.src (a : Src) (l : Nat) : t.src x a l = s.src x a l := by
  have hr : ∀ n, t.regValue x a.r n l = s.regValue x a.r n l := fun n => by
    simp only [State.regValue, h.vreg, h.sreg, h.special]
  simp only [State.src]
  split
  · rfl
  · split <;> simp_all

theorem SameReads.passing (g : Guard) : t.passing x g = s.passing x g := by simp only [State.passing, h.preg]
theorem SameReads.acting (g : Guard) (vec : Bool) : t.acting x g vec = s.acting x g vec := by
  simp only [State.acting, h.passing]
theorem SameReads.drawWord (l st k : Nat) : t.drawWord x l st k = s.drawWord x l st k := by
  simp only [State.drawWord, h.draws, h.launchOf, h.blockOf, h.windex]
theorem SameReads.counts (vec : Bool) (l : Nat) : t.counts x vec l = s.counts x vec l := by
  simp only [State.counts, h.allHelpers]

end Reads

theorem Warp.begun_reads (w : Warp) (time : Nat) :
    w.begun time = { w with firstIssue := (w.begun time).firstIssue, region := (w.begun time).region } := by
  unfold Warp.begun Warp.openRegion
  split <;> split <;> rfl

theorem State.begin_reads (s : State) {w : Nat} (h : w < s.warps.length) : SameReads s (s.begin_ w) w := by
  have a := s.begin_small h
  have e : (s.begin_ w).warp w = (s.warp w).begun s.devTime := a.warp
  have r := (s.warp w).begun_reads s.devTime
  constructor <;> first | (rw [e, r]) | exact a.blocks | exact a.launches

/-! ### What a word writes (R102, R104, R106) -/

/-- The last of some writes to a key. -/
def lastWrite {β : Type} (k : Nat) (old : β) (xs : List (Nat × β)) : β := xs.foldl (fun o x => if x.1 = k then x.2 else o) old

theorem sget_foldl_sset {β : Type} [DecidableEq β] (d : β) (xs : List (Nat × β)) (m : Sparse β) (k : Nat) :
    sget (xs.foldl (fun m x => sset m x.1 x.2 d) m) k d = lastWrite k (sget m k d) xs := by
  induction xs generalizing m with
  | nil => rfl
  | cons x xs ih =>
    rw [List.foldl_cons, ih, sget_sset]
    simp [lastWrite, eq_comm]

theorem lastWrite_append {β : Type} (k : Nat) (old : β) (xs ys : List (Nat × β)) :
    lastWrite k old (xs ++ ys) = lastWrite k (lastWrite k old xs) ys := by simp [lastWrite]

theorem lastWrite_other {β : Type} (k : Nat) (old : β) (xs : List (Nat × β)) (h : ∀ x ∈ xs, x.1 ≠ k) : lastWrite k old xs = old := by
  induction xs with
  | nil => rfl
  | cons x xs ih =>
    have h1 := h x (by simp)
    simp only [lastWrite, List.foldl_cons, if_neg h1]
    exact ih fun y hy => h y (by simp [hy])

/-- The writes of a run of registers. -/
theorem lastWrite_range {β : Type} (key : Nat → Nat) (val : Nat → β) (n r c : Nat) (old : β)
    (hk : ∀ i, key i = r ↔ c + i = r) :
    lastWrite r old ((List.range n).map fun i => (key i, val i)) = if c ≤ r ∧ r < c + n then val (r - c) else old := by
  induction n with
  | zero => simp [lastWrite]
  | succ n ih =>
    rw [List.range_succ, List.map_append, lastWrite_append, ih]
    simp only [List.map_cons, List.map_nil, lastWrite, List.foldl_cons, List.foldl_nil, hk]
    by_cases h : c + n = r
    · subst h; simp
    · by_cases h2 : c ≤ r ∧ r < c + n
      · rw [if_neg h, if_pos h2, if_pos ⟨h2.1, by omega⟩]
      · rw [if_neg h, if_neg h2, if_neg (by omega)]

theorem Writes.append_v (a b : Writes) : (a.append b).v = a.v ++ b.v := rfl
theorem Writes.append_s (a b : Writes) : (a.append b).s = a.s ++ b.s := rfl
theorem Writes.append_p (a b : Writes) : (a.append b).p = a.p ++ b.p := rfl

theorem Writes.concat_v (ws : List Writes) : (Writes.concat ws).v = ws.flatMap (·.v) := by
  have : ∀ (ws : List Writes) (a : Writes), (ws.foldl Writes.append a).v = a.v ++ ws.flatMap (·.v) := by
    intro ws
    induction ws with
    | nil => simp
    | cons w ws ih => intro a; simp [ih, Writes.append]
  simp [Writes.concat, this, Writes.none]
theorem Writes.concat_s (ws : List Writes) : (Writes.concat ws).s = ws.flatMap (·.s) := by
  have : ∀ (ws : List Writes) (a : Writes), (ws.foldl Writes.append a).s = a.s ++ ws.flatMap (·.s) := by
    intro ws
    induction ws with
    | nil => simp
    | cons w ws ih => intro a; simp [ih, Writes.append]
  simp [Writes.concat, this, Writes.none]
theorem Writes.concat_p (ws : List Writes) : (Writes.concat ws).p = ws.flatMap (·.p) := by
  have : ∀ (ws : List Writes) (a : Writes), (ws.foldl Writes.append a).p = a.p ++ ws.flatMap (·.p) := by
    intro ws
    induction ws with
    | nil => simp
    | cons w ws ih => intro a; simp [ih, Writes.append]
  simp [Writes.concat, this, Writes.none]

/-- A destination but for its lanes. -/
abbrev LaneDest := Reg × Nat × (Nat → Nat)

/-- Destinations in the lanes [m]. -/
def inLanes (m : Nat) (ds : List LaneDest) : List Dest := ds.map fun d => (m, d)

/-- The writes of some destinations in a lane. -/
def laneWrites (ds : List LaneDest) (l : Nat) : Writes :=
  match ds with
  | [] => Writes.none
  | d :: ds => (regWrites d.1 d.2.1 l (d.2.2 l)).append (laneWrites ds l)

theorem laneWrites_key {ds : List LaneDest} {l : Nat} (hl : l < 32) : ∀ y ∈ (laneWrites ds l).v, y.1 % 32 = l := by
  induction ds with
  | nil => simp [laneWrites, Writes.none]
  | cons d ds ih =>
    intro y hy
    simp only [laneWrites, Writes.append, List.mem_append] at hy
    rcases hy with hy | hy
    · unfold regWrites at hy
      split at hy
      · simp only [List.mem_map, List.mem_range] at hy
        obtain ⟨i, -, rfl⟩ := hy
        simp; omega
      · simp at hy
      · simp [Writes.none] at hy
    · exact ih y hy

theorem laneWrites_v {ds : List LaneDest} {m r l : Nat} (hm : bit m l = true) (old : Word) :
    lastWrite (32 * r + l) old (laneWrites ds l).v = vAfter r l old (inLanes m ds) := by
  induction ds generalizing old with
  | nil => simp [laneWrites, Writes.none, lastWrite, vAfter, inLanes]
  | cons d ds ih =>
    obtain ⟨d, n, val⟩ := d
    simp only [laneWrites, Writes.append, lastWrite_append]
    cases d with
    | v k =>
      simp only [regWrites, inLanes, List.map_cons, vAfter, hm, and_true]
      rw [← inLanes, ← ih]
      congr 1
      induction n with
      | zero => simp [lastWrite]
      | succ n ih2 =>
        rw [List.range_succ, List.map_append, lastWrite_append, ih2]
        simp only [List.map_cons, List.map_nil, lastWrite, List.foldl_cons, List.foldl_nil]
        by_cases h : 32 * (k.val + n) + l = 32 * r + l
        · have h2 : k.val + n = r := by omega
          subst h2
          simp
        · by_cases h2 : k.val ≤ r ∧ r < k.val + n
          · rw [if_neg h, if_pos h2, if_pos ⟨h2.1, by omega⟩]
          · rw [if_neg h, if_neg h2, if_neg (by omega)]
    | s k => simp only [regWrites, inLanes, List.map_cons, vAfter]; rw [← inLanes, ← ih]; rfl
    | sp y => simp only [regWrites, inLanes, List.map_cons, vAfter, Writes.none]; rw [← inLanes, ← ih]; rfl
    | imm y => simp only [regWrites, inLanes, List.map_cons, vAfter, Writes.none]; rw [← inLanes, ← ih]; rfl

theorem vAfter_off {m r l : Nat} (hm : bit m l = false) (old : Word) (ds : List LaneDest) : vAfter r l old (inLanes m ds) = old := by
  induction ds generalizing old with
  | nil => rfl
  | cons d ds ih =>
    obtain ⟨d, n, val⟩ := d
    have := ih old
    unfold inLanes at this
    cases d <;> simp [inLanes, vAfter, hm, this]

theorem laneWrites_s {ds : List LaneDest} {m r l : Nat} (hm : lowLane m = some l) (old : Word) :
    lastWrite r old (laneWrites ds l).s = sAfter r old (inLanes m ds) := by
  induction ds generalizing old with
  | nil => simp [laneWrites, Writes.none, lastWrite, sAfter, inLanes]
  | cons d ds ih =>
    obtain ⟨d, n, val⟩ := d
    simp only [laneWrites, Writes.append, lastWrite_append]
    cases d with
    | s k =>
      simp only [regWrites, inLanes, List.map_cons, sAfter, hm]
      rw [← inLanes, ← ih]
      congr 1
      exact lastWrite_range (fun i => k.val + i) (fun i => BitVec.ofNat 32 (val l >>> (32 * i))) n r k.val old fun i => Iff.rfl
    | v k => simp only [regWrites, inLanes, List.map_cons, sAfter]; rw [← inLanes, ← ih]; rfl
    | sp y => simp only [regWrites, inLanes, List.map_cons, sAfter, Writes.none]; rw [← inLanes, ← ih]; rfl
    | imm y => simp only [regWrites, inLanes, List.map_cons, sAfter, Writes.none]; rw [← inLanes, ← ih]; rfl

theorem sAfter_off {m r : Nat} (hm : lowLane m = none) (old : Word) (ds : List LaneDest) : sAfter r old (inLanes m ds) = old := by
  induction ds generalizing old with
  | nil => rfl
  | cons d ds ih =>
    obtain ⟨d, n, val⟩ := d
    have := ih old
    unfold inLanes at this
    cases d <;> simp [inLanes, sAfter, hm, this]

/-- No destination is scalar. -/
def noScalar (ds : List LaneDest) : Bool := ds.all fun d => match d.1 with | .s _ => false | _ => true

theorem laneWrites_noScalar {ds : List LaneDest} (h : noScalar ds = true) (l : Nat) : (laneWrites ds l).s = [] := by
  induction ds with
  | nil => rfl
  | cons d ds ih =>
    obtain ⟨d, n, val⟩ := d
    simp only [noScalar, List.all_cons, Bool.and_eq_true] at h
    have := ih (by simpa [noScalar] using h.2)
    cases d <;> simp_all [laneWrites, Writes.append, regWrites, Writes.none]

theorem sAfter_noScalar {ds : List LaneDest} (h : noScalar ds = true) (m r : Nat) (old : Word) : sAfter r old (inLanes m ds) = old := by
  induction ds generalizing old with
  | nil => rfl
  | cons d ds ih =>
    obtain ⟨d, n, val⟩ := d
    simp only [noScalar, List.all_cons, Bool.and_eq_true] at h
    have := ih (by simpa [noScalar] using h.2)
    cases d <;> simp_all [inLanes, sAfter]

theorem Warp.setP_vregs (w : Warp) (n m x : Nat) : (w.setP n m x).vregs = w.vregs := rfl
theorem Warp.setP_sregs (w : Warp) (n m x : Nat) : (w.setP n m x).sregs = w.sregs := rfl

/-- Applying writes changes registers and predicates only. -/
theorem Warp.apply_shape (w : Warp) (ws : Writes) :
    w.apply ws = { w with vregs := (w.apply ws).vregs, sregs := (w.apply ws).sregs, preds := (w.apply ws).preds } := by
  unfold Warp.apply
  generalize ws.v.foldl _ _ = v
  generalize ws.s.foldl _ _ = s
  have : ∀ (ps : List (Nat × Nat × Nat)) (y : Warp), ps.foldl (fun a x => a.setP x.1 x.2.1 x.2.2) y =
      { y with preds := (ps.foldl (fun a x => a.setP x.1 x.2.1 x.2.2) y).preds } := by
    intro ps
    induction ps with
    | nil => intro y; rfl
    | cons p ps ih => intro y; rw [List.foldl_cons, ih]; rfl
  dsimp only
  rw [this]

theorem Warp.apply_vregs (w : Warp) (ws : Writes) : (w.apply ws).vregs = ws.v.foldl (fun m x => sset m x.1 x.2 0) w.vregs := by
  unfold Warp.apply
  generalize ws.v.foldl _ _ = v
  generalize ws.s.foldl _ _ = s
  have : ∀ (ps : List (Nat × Nat × Nat)) (y : Warp), (ps.foldl (fun a x => a.setP x.1 x.2.1 x.2.2) y).vregs = y.vregs := by
    intro ps
    induction ps with
    | nil => intro y; rfl
    | cons p ps ih => intro y; rw [List.foldl_cons, ih]; rfl
  dsimp only
  rw [this]

theorem Warp.apply_sregs (w : Warp) (ws : Writes) : (w.apply ws).sregs = ws.s.foldl (fun m x => sset m x.1 x.2 0) w.sregs := by
  unfold Warp.apply
  generalize ws.v.foldl _ _ = v
  have : ∀ (ps : List (Nat × Nat × Nat)) (y : Warp), (ps.foldl (fun a x => a.setP x.1 x.2.1 x.2.2) y).sregs = y.sregs := by
    intro ps
    induction ps with
    | nil => intro y; rfl
    | cons p ps ih => intro y; rw [List.foldl_cons, ih]; rfl
  dsimp only
  rw [this]

theorem Warp.apply_noP (w : Warp) (ws : Writes) (h : ws.p = []) : (w.apply ws).preds = w.preds := by
  simp [Warp.apply, h]

theorem Warp.apply_oneP (w : Warp) (ws : Writes) {p m x : Nat} (h : ws.p = [(p, m, x)]) :
    (w.apply ws).preds = (w.setP p m x).preds := by
  simp [Warp.apply, h, Warp.setP]

/-- The registers after the writes of some destinations in the lanes of [m], the lanes in their order: a scalar destination
only where at most one lane writes. -/
theorem Warp.apply_wrote (w : Warp) (ws : Writes) (m : Nat) (ds : List LaneDest)
    (hv : ws.v = (lanesOf m).flatMap fun l => (laneWrites ds l).v) (hs : ws.s = (lanesOf m).flatMap fun l => (laneWrites ds l).s)
    (one : noScalar ds = true ∨ ∃ l, m = 0 ∨ (l < 32 ∧ m = 2 ^ l)) : Wrote w (w.apply ws) (inLanes m ds) := by
  constructor
  · intro r l hl
    unfold Warp.v
    rw [Warp.apply_vregs, sget_foldl_sset, hv]
    have step : ∀ (ls : List Nat) (old : Word), (∀ k ∈ ls, k < 32) → ls.Nodup →
        lastWrite (32 * r + l) old (ls.flatMap fun l => (laneWrites ds l).v) =
          if l ∈ ls then lastWrite (32 * r + l) old (laneWrites ds l).v else old := by
      intro ls
      induction ls with
      | nil => intro old _ _; simp [lastWrite]
      | cons k ls ih =>
        intro old hk hn
        rw [List.flatMap_cons, lastWrite_append, ih _ (fun j hj => hk j (by simp [hj])) hn.of_cons]
        by_cases e : k = l
        · subst e
          have : k ∉ ls := (List.nodup_cons.mp hn).1
          simp [this]
        · have o : lastWrite (32 * r + l) old (laneWrites ds k).v = old := by
            apply lastWrite_other
            intro y hy hc
            have := laneWrites_key (hk k (by simp)) y hy
            omega
          rw [o]
          simp [Ne.symm e]
    rw [step _ _ (fun k hk => (mem_lanesOf.mp hk).1) (by unfold lanesOf; exact List.Nodup.filter _ List.nodup_range)]
    by_cases hm : bit m l = true
    · rw [if_pos (mem_lanesOf.mpr ⟨hl, hm⟩), laneWrites_v hm]
    · rw [if_neg (fun h => hm (mem_lanesOf.mp h).2), vAfter_off (by simpa using hm)]
  · intro r
    unfold Warp.s
    rw [Warp.apply_sregs, sget_foldl_sset, hs]
    rcases one with one | ⟨l, rfl | ⟨hl, rfl⟩⟩
    · rw [sAfter_noScalar one]
      have : ((lanesOf m).flatMap fun l => (laneWrites ds l).s) = [] := by simp [laneWrites_noScalar one]
      rw [this]; rfl
    · rw [sAfter_off (by decide)]; rfl
    · have hlow : lowLane (2 ^ l) = some l := by simp [lowLane, lanesOf_two_pow hl]
      rw [lanesOf_two_pow hl, List.flatMap_cons, List.flatMap_nil, List.append_nil, laneWrites_s hlow]

/-! ### Flags and draws (R58 to R61, R182) -/

theorem bit_orFlags (fl : List (Nat × Nat)) (k : Nat) : bit (orFlags fl) k = fl.any fun y => bit y.2 k := by
  have : ∀ (fl : List (Nat × Nat)) (a : Nat), bit (fl.foldl (fun a y => mOr a y.2) a) k = (bit a k || fl.any fun y => bit y.2 k) := by
    intro fl
    induction fl with
    | nil => simp
    | cons y fl ih => intro a; rw [List.foldl_cons, ih, bit_mOr, List.any_cons, Bool.or_assoc]
  rw [orFlags, this, bit_zero_, Bool.false_or]

/-- No enabled flag is raised: no trap. -/
theorem State.flagTrap_none {s : State} {x : Issue} {vec : Bool} {flags : List (Nat × Nat)} (h : Quiet s x vec flags) :
    s.flagTrap x vec flags = none := by
  unfold State.flagTrap
  have : ((s.raised x vec flags).filter fun y => mAnd y.2 (s.warp x.w).enables != 0) = [] := by
    rw [List.filter_eq_nil_iff]
    intro y hy
    unfold State.raised at hy
    have hc : y ∈ flags ∧ s.counts x vec y.1 = true := by
      cases vec
      · by_cases e : mDiff x.active (s.warp x.w).allHelpers = 0
        · simp [e] at hy
        · exact ⟨by simpa [e] using hy, by simp [State.counts, e]⟩
      · simp only [if_true, List.mem_filter] at hy
        exact ⟨hy.1, by simpa [State.counts] using hy.2⟩
    simp [h y hc.1 hc.2]
  simp [this]

theorem State.raised_any (s : State) (x : Issue) (vec : Bool) (flags : List (Nat × Nat)) (k : Nat) :
    bit (orFlags (s.raised x vec flags)) k = flags.any fun o => s.counts x vec o.1 && bit o.2 k := by
  rw [bit_orFlags]
  unfold State.raised
  cases vec
  · by_cases e : mDiff x.active (s.warp x.w).allHelpers = 0
    · simp [State.counts, e]
    · have e' : (mDiff x.active (s.warp x.w).allHelpers != 0) = true := by simpa using e
      simp [State.counts, e, e']
  · rw [if_pos rfl, List.any_filter]
    simp [State.counts]

theorem Warp.consume_draws (w : Warp) (act k l : Nat) : sget (w.consume act k).draws l 0 =
    if k ≠ 0 ∧ l < 32 ∧ bit act l = true then (sget w.draws l 0 + k) % 2 ^ 54 else sget w.draws l 0 := by
  unfold Warp.consume
  split
  · rename_i h; simp [h]
  · rename_i h
    have step : ∀ (ls : List Nat) (m : Sparse Nat), ls.Nodup →
        sget (ls.foldl (fun m l => sset m l ((sget m l 0 + k) % 2 ^ 54) 0) m) l 0 =
          if l ∈ ls then (sget m l 0 + k) % 2 ^ 54 else sget m l 0 := by
      intro ls
      induction ls with
      | nil => simp
      | cons j ls ih =>
        intro m hn
        have hj : j ∉ ls := (List.nodup_cons.mp hn).1
        rw [List.foldl_cons, ih _ hn.of_cons, sget_sset]
        by_cases e : l = j
        · subst e; simp [hj]
        · simp [e]
    dsimp only
    rw [step _ _ (by unfold lanesOf; exact List.Nodup.filter _ List.nodup_range)]
    simp [mem_lanesOf, h]

theorem Warp.consume_shape (w : Warp) (act k : Nat) : w.consume act k = { w with draws := (w.consume act k).draws } := by
  unfold Warp.consume; split <;> rfl

/-! ### The commit of a region of its own that holds nothing (R149, R153) -/

/-- The warp once a region that holds nothing has committed. -/
def Warp.committed (w : Warp) : Warp :=
  { (w.endHolds w.region) with
    older := none, region := { Region.blank with seq := w.region.seq + 1 }, commits := (w.commits + 1) % 2 ^ 32, wdog := 0
    reentry := if w.region.inTrap then w.reentry else 0, pins := [] }

theorem modify_same {α : Type} (xs : List α) (n : Nat) (f : α → α) (h : ∀ a, f a = a) : xs.modify n f = xs := by
  have : f = id := funext h
  rw [this, List.modify_id]

theorem State.updWarp_updWarp (s : State) (w : Nat) (f g : Warp → Warp) : (s.updWarp w f).updWarp w g = s.updWarp w (g ∘ f) := by
  simp [State.updWarp, List.modify_modify_eq]

theorem State.updWarp_congr {s : State} {w : Nat} {f g : Warp → Warp} (h : f (s.warp w) = g (s.warp w)) :
    s.updWarp w f = s.updWarp w g := by
  unfold State.updWarp
  congr 1
  apply List.ext_getElem?
  intro i
  simp only [List.getElem?_modify]
  by_cases e : w = i
  · subst e
    by_cases hl : w < s.warps.length
    · have : s.warps[w]? = some (s.warp w) := by simp [State.warp, List.getD_eq_getElem?_getD, hl]
      simp [this, h]
    · simp [hl]
  · simp [e]

theorem State.beginCommit_fresh {s : State} {w : Nat} (hw : w < s.warps.length) (h : Fresh s w) :
    s.beginCommit w = s.updWarp w fun x =>
      { x with older := some { (s.warp w).region with compared := true }, region := { Region.blank with seq := (s.warp w).region.seq + 1 } } := by
  have hd : (s.warp w).dirty.map (fun d => if d.state == .region then { d with state := .committing } else d) = (s.warp w).dirty := by
    conv_rhs => rw [← List.map_id (s.warp w).dirty]
    apply List.map_congr_left
    intro d hd
    simp [h.lines d hd]
  have hdc : (s.warp w).dirty.filter (fun d => d.state == .committing) = [] := by
    rw [List.filter_eq_nil_iff]
    intro d hd
    simp [h.lines d hd]
  have hc : s.commitChecks w (s.warp w).region = none := by
    simp [State.commitChecks, h.spAtoms, h.flush, State.overlapStop, h.cmds]
  have hr : s.retireRegion w = s.updWarp w fun x => { x with older := some (s.warp w).region
                                                             region := { Region.blank with seq := (s.warp w).region.seq + 1 } } := by
    unfold State.retireRegion
    apply State.updWarp_congr
    simp only [hd]
  have hs := h.single
  unfold State.beginCommit
  have hf : (s.warp w).region.flush.isSome = false := by rw [h.flush]; rfl
  simp only [hc, hf, Bool.false_eq_true, if_false, hr]
  have hl : ((s.updWarp w fun x => { x with older := some (s.warp w).region, region := { Region.blank with seq := (s.warp w).region.seq + 1 } }).launchOf w) =
      s.launchOf w := by
    unfold State.launchOf
    rw [State.updWarp_warp_same hw]; rfl
  simp only [hl, hs, Bool.false_eq_true, if_false]
  unfold State.sendReqs
  simp only [State.updWarp_warp_same hw, State.updWarp_updWarp]
  have hq : ∀ u : State, (u.warp w).dirty = (s.warp w).dirty → u.commitReqs w (s.warp w).region = [] := by
    intro u hu
    simp [State.commitReqs, hu, hdc, h.atoms, h.cmds]
  have ha : ∀ u : State, u.accUpdates w (s.warp w).region = [] := by
    intro u
    simp [State.accUpdates, h.atoms]
  rw [hq _ (by rw [State.updWarp_warp_same hw]; rfl)]
  simp only [ite_self, List.append_nil, ha]
  simp only [State.updCore]
  rw [modify_same _ _ _ fun a => rfl]
  rfl

theorem State.commitLines_none {s : State} {w : Nat} (hd : ∀ d ∈ (s.warp w).dirty, d.state = .committed)
    (ho : (s.coreOf w).ovfWarp ≠ some w) : s.commitLines w = s := by
  have f1 : (s.warp w).dirty.filter (fun d => d.state == .committing && d.bytes.length == 64) = [] := by
    rw [List.filter_eq_nil_iff]; intro d h; simp [hd d h]
  have f2 : (s.warp w).dirty.filter (fun d => d.state == .committing && (d.nt || d.ovf)) = [] := by
    rw [List.filter_eq_nil_iff]; intro d h; simp [hd d h]
  have f3 : (s.warp w).dirty.map (fun d => if d.state == .committing then { d with state := .committed } else d) = (s.warp w).dirty := by
    conv_rhs => rw [← List.map_id (s.warp w).dirty]
    apply List.map_congr_left
    intro d h; simp [hd d h]
  have u1 : (s.updWarp w fun x => { x with dirty := x.dirty.map fun d => if d.state == .committing then { d with state := .committed } else d }) = s := by
    rw [State.updWarp_congr (g := id) (by simp only [f3]; rfl)]
    simp [State.updWarp, List.modify_id]
  unfold State.commitLines
  have f2' : ∀ u : State, u.warps = s.warps →
      (u.warp w).dirty.filter (fun d => d.state == .committing && (d.nt || d.ovf)) = [] := fun u hu => by
    simp only [State.warp, hu]; exact f2
  simp only [f1, List.map_nil, List.contains_nil, Bool.not_false, List.filter_true]
  rw [f2]
  simp only [List.map_nil, List.contains_nil, u1]
  have wb : s.writeBack w (fun _ => false) = s := by
    unfold State.writeBack
    simp only [Bool.and_false, List.filter_false, List.foldl_nil, List.length_nil, Bool.not_false, List.filter_true]
    simp only [State.spend, if_true, ite_self]
    exact (State.updWarp_congr (g := id) rfl).trans (by simp [State.updWarp, List.modify_id])
  rw [wb]
  simp [ho]

theorem State.completeCommit_fresh {s : State} {w : Nat} (hw : w < s.warps.length) (h : Fresh s w) :
    (s.beginCommit w).completeCommit w = ((s.updWarp w Warp.committed).count (s.warp w).vi unitCore 0 1) := by
  rw [State.beginCommit_fresh hw h]
  generalize hr : ({ (s.warp w).region with compared := true } : Region) = r
  have e1 : r.spAtoms = [] := by rw [← hr]; exact h.spAtoms
  have e2 : r.atoms = [] := by rw [← hr]; exact h.atoms
  have e3 : r.stores = [] := by rw [← hr]; exact h.stores
  have e4 : r.cmds = [] := by rw [← hr]; exact h.cmds
  have e5 : r.recs = [] := by rw [← hr]; exact h.recs
  have e6 : r.clears = [] := by rw [← hr]; exact h.clears
  have e7 : r.ctrStores = [] := by rw [← hr]; exact h.ctrStores
  have e8 : r.evicts = [] := by rw [← hr]; exact h.evicts
  have e9 : r.flush = none := by rw [← hr]; exact h.flush
  have e10 : r.mclear = false := by rw [← hr]; exact h.mclear
  have e11 : r.odone = false := by rw [← hr]; exact h.odone
  unfold State.completeCommit
  rw [State.updWarp_warp_same hw]
  dsimp only
  simp only [State.commitSpAtoms, State.commitAtoms, e1, e2, List.foldl_nil, ite_self]
  rw [State.commitLines_none (by rw [State.updWarp_warp_same hw]; exact h.lines) (by
    have : ∀ φ : Warp → Warp, (φ (s.warp w)).block = (s.warp w).block → ((s.updWarp w φ).coreOf w) = s.coreOf w := by
      intro φ hφ; simp [State.coreOf, State.blockOf, State.updWarp_warp_same hw, hφ]
    rw [this _ rfl]; exact h.ovf)]
  simp only [e3, e4, List.foldl_nil, e5, State.commitRecs, e6, e7, e8, e9, e10, e11, Bool.false_eq_true, if_false]
  rw [State.updWarp_updWarp, State.updWarp_warp_same hw]
  have : (s.updWarp w ((fun x => { x.endHolds r with older := none, commits := (x.commits + 1) % 2 ^ 32, wdog := 0
                                                     reentry := if r.inTrap then x.reentry else 0
                                                     pins := x.pins.filter fun p => x.region.spAtoms.any fun a => (a.blk, a.off / 4096) == p }) ∘
      fun x => { x with older := some r, region := { Region.blank with seq := (s.warp w).region.seq + 1 } })) =
      s.updWarp w Warp.committed := by
    apply State.updWarp_congr
    rw [← hr]
    simp [Warp.committed, Warp.endHolds, Region.blank, Warp.parkedLanes]
  rw [this]
  rfl

theorem State.commitNow_fresh {s : State} {w : Nat} (hw : w < s.warps.length) (h : Fresh s w) :
    s.commitNow w = (s.updWarp w Warp.committed).count (s.warp w).vi unitCore 0 1 := by
  unfold State.commitNow
  have hl : ∀ φ : Warp → Warp, (φ (s.warp w)).launch = (s.warp w).launch → (s.updWarp w φ).launchOf w = s.launchOf w := fun φ hφ => by
    simp [State.launchOf, State.updWarp_warp_same hw, hφ]
  have hb : ∀ φ : Warp → Warp, (φ (s.warp w)).block = (s.warp w).block → (s.updWarp w φ).coreOf w = s.coreOf w := fun φ hφ => by
    simp [State.coreOf, State.blockOf, State.updWarp_warp_same hw, hφ]
  have hs := h.single
  have hsent := h.sent
  have c1 : (s.beginCommit w).launchOf w = s.launchOf w := by rw [State.beginCommit_fresh hw h]; exact hl _ rfl
  have c2 : (s.beginCommit w).commitReady w = true := by
    rw [State.beginCommit_fresh hw h]
    unfold State.commitReady
    rw [State.updWarp_warp_same hw]
    have hq : ∀ φ : Warp → Warp, (φ (s.warp w)).block = (s.warp w).block →
        (s.updWarp w φ).reqsLeft w (s.warp w).region.seq = false := fun φ hφ => by
      unfold State.reqsLeft at hsent ⊢
      rw [hb φ hφ]; exact hsent
    have ha : ∀ (u : State) (r : Region), r.atoms = [] → u.accUpdates w r = [] := by
      intro u r hr
      simp [State.accUpdates, hr]
    dsimp only
    have ho : ∀ (u : State) (r : Region), r.cmds = [] → u.overlapStop w r = none := by
      intro u r hr
      simp [State.overlapStop, hr]
    have hm : ∀ (u : State) (r : Region), r.spAtoms = [] → u.spAtomRoom w r = true := by
      intro u r hr
      simp [State.spAtomRoom, hr, dedup]
    rw [hq _ rfl, ha _ { (s.warp w).region with compared := true } h.atoms, ho _ { (s.warp w).region with compared := true } h.cmds,
      hm _ { (s.warp w).region with compared := true } h.spAtoms]
    simp [h.failed]
  simp only [c1, hs, c2, Bool.not_false, Bool.true_and, if_true]
  exact State.completeCommit_fresh hw h

/-! ### The end of a word (R98, R130, R147, R149) -/

theorem Warp.place_shape (w : Warp) (m pc : Nat) (st : EState) (on : WaitOn) :
    w.place m pc st on = { w with pct := (w.place m pc st on).pct } := by
  unfold Warp.place; split <;> rfl

theorem Warp.places_shape (live : Nat) (ms : List Move) (z : Warp) :
    ms.foldl (fun (y : Warp) m => y.place (mAnd m.mask live) m.pc m.st m.on) z =
      { z with pct := (ms.foldl (fun (y : Warp) m => y.place (mAnd m.mask live) m.pc m.st m.on) z).pct } := by
  induction ms generalizing z with
  | nil => rfl
  | cons m ms ih =>
    rw [List.foldl_cons, ih (z.place (mAnd m.mask live) m.pc m.st m.on)]
    rw [Warp.place_shape]

theorem Warp.proceed_shape (w : Warp) (x : Issue) (ms : List Move) : w.proceed x ms =
    { w with pct := (w.proceed x ms).pct, icount := (w.icount + 1) % 2 ^ 64, stall := 0, bpskip := none, reentering := false } := by
  have h : w.proceed x ms = (ms.foldl (fun (y : Warp) m => y.place (mAnd m.mask w.live) m.pc m.st m.on)
      { w.aged x.mask with icount := (w.icount + 1) % 2 ^ 64, stall := 0, bpskip := none, reentering := false }).merge := rfl
  rw [h, Warp.places_shape]
  rfl

/-- A lane occurs in a PC table only in entries that stand at a PC in a state. -/
def onlyAt (l pc : Nat) (st : EState) (on : WaitOn) (es : List PctEntry) : Prop :=
  ∀ e ∈ es, bit e.mask l = true → e.pc = pc ∧ e.state = st ∧ e.on = on

theorem mergeInto_only {w : Warp} {l pc : Nat} {st : EState} {on : WaitOn} {e : PctEntry}
    (he : bit e.mask l = true → e.pc = pc ∧ e.state = st ∧ e.on = on)
    (es : List PctEntry) (h : onlyAt l pc st on es) :
    onlyAt l pc st on (mergeInto w e es) ∧ (bit e.mask l = true ∨ (∃ f ∈ es, bit f.mask l = true) → ∃ f ∈ mergeInto w e es, bit f.mask l = true) := by
  induction es with
  | nil =>
    refine ⟨?_, ?_⟩
    · intro f hf; simp [mergeInto] at hf; subst hf; exact he
    · rintro (h1 | ⟨f, hf, _⟩)
      · exact ⟨e, by simp [mergeInto], h1⟩
      · simp at hf
  | cons f es ih =>
    obtain ⟨i1, i2⟩ := ih fun g hg => h g (by simp [hg])
    unfold mergeInto
    split
    · rename_i hm
      simp only [mergeable, Bool.and_eq_true, beq_iff_eq] at hm
      refine ⟨?_, ?_⟩
      · intro g hg hb
        rcases List.mem_cons.mp hg with rfl | hg
        · simp only [bit_mOr, Bool.or_eq_true] at hb
          rcases hb with hb | hb
          · exact h f (by simp) hb
          · obtain ⟨a, b, c⟩ := he hb
            exact ⟨by simp [hm.1.1.1.1.1, a], by simp [hm.1.1.2, b], by simp [hm.1.2, c]⟩
        · exact h g (by simp [hg]) hb
      · rintro (hb | ⟨g, hg, hb⟩)
        · exact ⟨_, List.mem_cons_self, by simp [bit_mOr, hb]⟩
        · rcases List.mem_cons.mp hg with rfl | hg
          · exact ⟨_, List.mem_cons_self, by simp [bit_mOr, hb]⟩
          · exact ⟨g, by simp [hg], hb⟩
    · refine ⟨?_, ?_⟩
      · intro g hg hb
        rcases List.mem_cons.mp hg with rfl | hg
        · exact h g (by simp) hb
        · exact i1 g hg hb
      · rintro (hb | ⟨g, hg, hb⟩)
        · obtain ⟨g, hg, hb⟩ := i2 (.inl hb)
          exact ⟨g, by simp [hg], hb⟩
        · rcases List.mem_cons.mp hg with rfl | hg
          · exact ⟨g, by simp, hb⟩
          · obtain ⟨g, hg, hb⟩ := i2 (.inr ⟨g, hg, hb⟩)
            exact ⟨g, by simp [hg], hb⟩

theorem Warp.merge_only {w : Warp} {l pc : Nat} {st : EState} {on : WaitOn} (h : onlyAt l pc st on w.pct) (hex : ∃ e ∈ w.pct, bit e.mask l = true) :
    onlyAt l pc st on w.merge.pct ∧ ∃ e ∈ w.merge.pct, bit e.mask l = true := by
  have step : ∀ (es acc : List PctEntry), onlyAt l pc st on es → onlyAt l pc st on acc →
      onlyAt l pc st on (es.foldl (fun acc e => mergeInto w e acc) acc) ∧
      ((∃ e ∈ es, bit e.mask l = true) ∨ (∃ e ∈ acc, bit e.mask l = true) →
        ∃ e ∈ es.foldl (fun acc e => mergeInto w e acc) acc, bit e.mask l = true) := by
    intro es
    induction es with
    | nil => intro acc _ ha; exact ⟨ha, fun h => by simpa using h⟩
    | cons e es ih =>
      intro acc he ha
      obtain ⟨m1, m2⟩ := mergeInto_only (w := w) (fun hb => he e (by simp) hb) acc ha
      obtain ⟨i1, i2⟩ := ih (mergeInto w e acc) (fun f hf => he f (by simp [hf])) m1
      refine ⟨i1, ?_⟩
      rintro (⟨f, hf, hb⟩ | hx)
      · rcases List.mem_cons.mp hf with rfl | hf
        · exact i2 (.inr (m2 (.inl hb)))
        · exact i2 (.inl ⟨f, hf, hb⟩)
      · exact i2 (.inr (m2 (.inr hx)))
  obtain ⟨e, he, hb⟩ := hex
  obtain ⟨a, b⟩ := step (w.pct.filter fun e => e.mask != 0) [] (fun f hf => h f (List.mem_filter.mp hf).1) (fun f hf => by simp at hf)
  refine ⟨a, b (.inl ⟨e, ?_, hb⟩)⟩
  rw [List.mem_filter]
  refine ⟨he, ?_⟩
  simp only [bne_iff_ne, ne_eq]
  intro hc
  rw [hc, bit_zero_] at hb
  exact absurd hb (by simp)

/-- The last of some moves that takes a lane. -/
def landing (l : Nat) (ms : List Move) : Option Move := ms.foldl (fun o m => if bit m.mask l then some m else o) none

/-- A lane stands where the last move that takes it says. -/
theorem Warp.proceed_lands (w : Warp) (x : Issue) (ms : List Move) {l pc : Nat} {st : EState} {on : WaitOn} {m : Move}
    (hl : bit w.live l = true) (h : landing l ms = some m) (hpc : m.pc = pc) (hst : m.st = st) (hon : m.on = on) :
    onlyAt l pc st on (w.proceed x ms).pct ∧ ∃ e ∈ (w.proceed x ms).pct, bit e.mask l = true := by
  let P (z : Warp) (o : Option Move) : Prop := ∀ m, o = some m →
    (∀ e ∈ z.pct, bit e.mask l = true → e.pc = m.pc ∧ e.state = m.st ∧ e.on = m.on) ∧ ∃ e ∈ z.pct, bit e.mask l = true
  have step : ∀ (ms : List Move) (z : Warp) (o : Option Move), P z o →
      P (ms.foldl (fun (y : Warp) m => y.place (mAnd m.mask w.live) m.pc m.st m.on) z)
        (ms.foldl (fun o m => if bit m.mask l then some m else o) o) := by
    intro ms
    induction ms with
    | nil => intro z o h; exact h
    | cons n ms ih =>
      intro z o hz
      rw [List.foldl_cons, List.foldl_cons]
      apply ih
      intro k hk
      by_cases hb : bit n.mask l = true
      · rw [if_pos hb] at hk
        obtain rfl : n = k := by simpa using hk
        have hz0 : mAnd n.mask w.live ≠ 0 := by
          intro hc
          have : bit (mAnd n.mask w.live) l = true := by simp [bit_mAnd, hb, hl]
          rw [hc, bit_zero_] at this
          exact absurd this (by simp)
        unfold Warp.place
        rw [if_neg hz0]
        constructor
        · intro e he hbe
          rcases List.mem_append.mp he with he | he
          · unfold takeLanes at he
            obtain ⟨he, -⟩ := List.mem_filter.mp he
            obtain ⟨f, -, rfl⟩ := List.mem_map.mp he
            simp [bit_mDiff, bit_mAnd, hb, hl] at hbe
          · simp only [List.mem_singleton] at he
            subst he
            exact ⟨rfl, rfl, rfl⟩
        · exact ⟨⟨n.pc, mAnd n.mask w.live, n.st, n.on, 0⟩, by simp, by simp [bit_mAnd, hb, hl]⟩
      · rw [if_neg hb] at hk
        obtain ⟨h1, e0, he0, hb0⟩ := hz k hk
        unfold Warp.place
        split
        · exact ⟨h1, e0, he0, hb0⟩
        · have hlb : bit (mAnd n.mask w.live) l = false := by simp [bit_mAnd, hb]
          constructor
          · intro e he hbe
            rcases List.mem_append.mp he with he | he
            · unfold takeLanes at he
              obtain ⟨he, -⟩ := List.mem_filter.mp he
              obtain ⟨f, hf, rfl⟩ := List.mem_map.mp he
              simp only [bit_mDiff, hlb, Bool.not_false, Bool.and_true] at hbe
              exact h1 f hf hbe
            · simp only [List.mem_singleton] at he
              subst he
              simp [hlb] at hbe
          · refine ⟨{ e0 with mask := mDiff e0.mask (mAnd n.mask w.live) }, ?_, by simp [bit_mDiff, hb0, hlb]⟩
            apply List.mem_append_left
            unfold takeLanes
            rw [List.mem_filter]
            refine ⟨List.mem_map.mpr ⟨e0, he0, rfl⟩, ?_⟩
            simp only [bne_iff_ne, ne_eq]
            intro hc
            have : bit (mDiff e0.mask (mAnd n.mask w.live)) l = true := by simp [bit_mDiff, hb0, hlb]
            rw [hc, bit_zero_] at this
            exact absurd this (by simp)
  have key := step ms { w.aged x.mask with icount := (w.icount + 1) % 2 ^ 64, stall := 0, bpskip := none, reentering := false } none
    (fun m hm => by simp at hm) m h
  have e : w.proceed x ms = (ms.foldl (fun (y : Warp) m => y.place (mAnd m.mask w.live) m.pc m.st m.on)
      { w.aged x.mask with icount := (w.icount + 1) % 2 ^ 64, stall := 0, bpskip := none, reentering := false }).merge := rfl
  rw [e]
  apply Warp.merge_only _ key.2
  intro f hf hb
  obtain ⟨k1, k2, k3⟩ := key.1 f hf hb
  exact ⟨k1.trans hpc, k2.trans hst, k3.trans hon⟩

/-- Every lane of a word that goes on lands at the next word (R98). -/
theorem landing_next {x : Issue} {l : Nat} (hm : bit x.mask l = true) :
    landing l x.next = some ⟨x.mask, nextPc x.pc, .ready, .none⟩ := by simp [landing, Issue.next, hm]

theorem lands_next {x : Issue} (w : Warp) (l : Nat) (_ : l < 32) (hm : bit x.mask l = true) (_ : bit w.live l = true) :
    ∃ m, landing l x.next = some m ∧ m.pc = nextPc x.pc ∧ m.st = .ready ∧ m.on = .none :=
  ⟨_, landing_next hm, rfl, rfl, rfl⟩

theorem standsAt_of_only {w : Warp} {l pc : Nat} (h : onlyAt l pc .ready .none w.pct) (hex : ∃ e ∈ w.pct, bit e.mask l = true) : w.standsAt l pc := by
  obtain ⟨e, he, hb⟩ := hex
  have : (w.pct.find? fun e => bit e.mask l).isSome := by
    rw [List.find?_isSome]; exact ⟨e, he, hb⟩
  obtain ⟨f, hf⟩ := Option.isSome_iff_exists.mp this
  have h1 := List.find?_some hf
  have h2 := List.mem_of_find?_eq_some hf
  exact ⟨f, hf, h f h2 h1⟩

/-- What stands in a warp when a word of its region has acted and its end is still to come: [φ] opened the region and changed
registers, predicates, flags, draws and pending results, besides what [g] says. -/
structure ActedOn (φ g : Warp → Warp) (w : Warp) (time : Nat) (own : Prop) : Prop where
  shape : φ w = { g w with vregs := (φ w).vregs, sregs := (φ w).sregs, preds := (φ w).preds, fpstat := (φ w).fpstat, draws := (φ w).draws
                           pend := (φ w).pend, region := (φ w).region, firstIssue := (w.begun time).firstIssue }
  issued : (φ w).region.issued = (w.begun time).region.issued
  readFirst : (φ w).region.readFirst = (w.begun time).region.readFirst
  written : (φ w).region.written = (w.begun time).region.written
  own : own → (φ w).region = (w.begun time).region

theorem ActedOn.plain {φ g : Warp → Warp} {w : Warp} {time : Nat} {own : Prop}
    (h : φ w = { g w with vregs := (φ w).vregs, sregs := (φ w).sregs, preds := (φ w).preds, fpstat := (φ w).fpstat, draws := (φ w).draws
                          pend := (φ w).pend, region := (w.begun time).region, firstIssue := (w.begun time).firstIssue }) :
    ActedOn φ g w time own := by
  have hr : (φ w).region = (w.begun time).region := by rw [h]
  exact ⟨by rw [hr]; exact h, by rw [hr], by rw [hr], by rw [hr], fun _ => hr⟩

/-- What a word may change of a warp besides, without touching how it ends. -/
structure Mild (g : Warp → Warp) (w : Warp) : Prop where
  launch : (g w).launch = w.launch
  block : (g w).block = w.block
  dirty : (g w).dirty = w.dirty
  dbg : (g w).dbgctl = w.dbgctl
  trap : (g w).trap = w.trap
  present : (g w).present = w.present
  exited : (g w).exited = w.exited
  older : (g w).older = w.older
  windex : (g w).windex = w.windex

theorem Mild.id (w : Warp) : Mild id w := ⟨rfl, rfl, rfl, rfl, rfl, rfl, rfl, rfl, rfl⟩

theorem Region.liveIn_eq (r : Region) (e : Snap) (t : Bool) (reads : List Nat) :
    ({ r with entry := e, inTrap := t } : Region).liveIn reads = r.liveIn reads := rfl

theorem Warp.begun_region (w : Warp) (time : Nat) :
    (w.begun time).region = { w.region with entry := (w.begun time).region.entry, inTrap := (w.begun time).region.inTrap } := by
  unfold Warp.begun Warp.openRegion; split <;> split <;> rfl

/-- The end of a word that is part of its region, or a region of its own that holds nothing else. -/
theorem State.finish_calm {s u : State} {x : Issue} {f : Foot} {φ g : Warp → Warp} {k : Nat} {bound : Bool} (c : Calm s x f)
    (a : OneWarp s u x.w 0 k φ) (hA : ActedOn φ g (s.warp x.w) s.devTime (Alone s x f ∨ bound = true)) (hg : Mild g (s.warp x.w)) (full : List Nat) (ms : List Move)
    (hB : bound = true → Fresh s x.w ∧ (s.warp x.w).older = none) :
    ∃ ψ, OneWarp s (u.finish x f full ms bound) x.w 1 k ψ ∧
      Apart s (u.finish x f full ms bound) x (Alone s x f ∨ bound = true) g ∧
      (ψ (s.warp x.w)).vregs = (φ (s.warp x.w)).vregs ∧ (ψ (s.warp x.w)).sregs = (φ (s.warp x.w)).sregs ∧
      (ψ (s.warp x.w)).preds = (φ (s.warp x.w)).preds ∧ (ψ (s.warp x.w)).fpstat = (φ (s.warp x.w)).fpstat ∧
      (ψ (s.warp x.w)).draws = (φ (s.warp x.w)).draws ∧ (ψ (s.warp x.w)).pend = (φ (s.warp x.w)).pend ∧
      (∀ l m, bit (s.warp x.w).live l = true → landing l ms = some m → m.st = .ready → m.on = .none →
        (ψ (s.warp x.w)).standsAt l m.pc) ∧
      (¬ (Alone s x f ∨ bound = true) → (ψ (s.warp x.w)).pct = (((φ (s.warp x.w)).track x f full).proceed x ms).pct) ∧
      (¬ (Alone s x f ∨ bound = true) → (ψ (s.warp x.w)).region = ((φ (s.warp x.w)).track x f full).region) := by
  have ha := hA.shape
  have hw := c.warp
  have hwu : x.w < u.warps.length := by rw [a.size]; exact hw
  have hu : u.warp x.w = φ (s.warp x.w) := a.warp
  have hstep : (u.warp x.w).stepping = false := by
    have : (u.warp x.w).stepping = (s.warp x.w).stepping := by
      rw [hu, ha]; simp only [Warp.stepping, hg.dbg, hg.trap]
    rw [this]; exact c.step
  have hlive : (u.warp x.w).live = (s.warp x.w).live := by
    rw [hu, ha]; simp only [Warp.live, hg.present, hg.exited]
  have hown : ((u.warp x.w).region.issued == 0 && f.writes.any ((u.warp x.w).region.liveIn f.reads)) = true ↔ Alone s x f := by
    have hrr := Warp.begun_region (s.warp x.w) s.devTime
    have h1 : (u.warp x.w).region.issued = (s.warp x.w).region.issued := by rw [hu, hA.issued, hrr]
    have h2 : ∀ ids, (u.warp x.w).region.liveIn ids = (s.warp x.w).region.liveIn ids := by
      intro ids
      funext i
      unfold Region.liveIn
      rw [hu, hA.readFirst, hA.written, hrr]
    rw [h1, h2]
    unfold Alone State.clobbers
    simp
  -- the word counted
  let w1 : Warp → Warp := fun w => (w.track x f full).proceed x ms
  have b1 : OneWarp s (u.updWarp x.w w1) x.w 0 k (w1 ∘ φ) := by
    have := a.trans (OneWarp.upd u w1 hwu)
    simpa using this
  let u1 := u.updWarp x.w w1
  let w2 : Warp → Warp := fun w => { w with lastIssue := u1.sectionCycle x.w, lastWord := (x.pc, x.active) }
  have hclk : u1.sectionCycle x.w = s.sectionCycle x.w := by
    unfold State.sectionCycle State.coreOf State.blockOf
    rw [b1.core, b1.block, b1.warp]
    simp only [Function.comp_apply, w1]
    rw [Warp.proceed_shape]
    show ((s.core (s.block (φ (s.warp x.w)).block).core).cycles).getD ((φ (s.warp x.w)).windex % 4) 0 = _
    rw [ha]
    show ((s.core (s.block (g (s.warp x.w)).block).core).cycles).getD ((g (s.warp x.w)).windex % 4) 0 = _
    rw [hg.block, hg.windex]
  have hw1 : x.w < u1.warps.length := by rw [b1.size]; exact hw
  have b2 : OneWarp s (u1.issueCounts x) x.w 1 k (w2 ∘ w1 ∘ φ) := by
    have b := b1.trans (OneWarp.upd u1 w2 hw1)
    have b' : OneWarp s ({ (u1.updWarp x.w w2) with clock := (u1.updWarp x.w w2).clock + 1 }) x.w 1 k (w2 ∘ w1 ∘ φ) := by
      refine ⟨?_, b.size, b.others, b.warp, b.vis, b.recs, b.flume⟩
      have h := b.rest
      simp only [Nat.add_zero] at h
      conv_lhs => rw [h]
    have b'' := b'.trans (State.count_small _ x.w (u1.warp x.w).vi unitSection 0 1)
    have b3 := b''.trans (State.count_small _ x.w (u1.warp x.w).vi unitSection 1 (popc x.active))
    simpa [State.issueCounts] using b3
  generalize hu2 : u1.issueCounts x = u2 at b2
  have hw2 : x.w < u2.warps.length := by rw [b2.size]; exact hw
  have h2 : u2.warp x.w = (w2 ∘ w1 ∘ φ) (s.warp x.w) := b2.warp
  -- the shape of the warp after the word is counted
  have shape : (w2 ∘ w1 ∘ φ) (s.warp x.w) = { φ (s.warp x.w) with
      pct := ((w2 ∘ w1 ∘ φ) (s.warp x.w)).pct, icount := ((w2 ∘ w1 ∘ φ) (s.warp x.w)).icount, stall := 0, bpskip := none, reentering := false
      lastIssue := s.sectionCycle x.w, lastWord := (x.pc, x.active), region := ((φ (s.warp x.w)).track x f full).region } := by
    simp only [Function.comp, w2, w1, hclk]
    rw [Warp.proceed_shape]
    rfl
  have stands : ∀ l m, bit (s.warp x.w).live l = true → landing l ms = some m → m.st = .ready → m.on = .none →
      onlyAt l m.pc .ready .none ((w2 ∘ w1 ∘ φ) (s.warp x.w)).pct ∧ ∃ e ∈ ((w2 ∘ w1 ∘ φ) (s.warp x.w)).pct, bit e.mask l = true := by
    intro l m hl g1 g3 g4
    have hll : ((φ (s.warp x.w)).track x f full).live = (s.warp x.w).live := by rw [← hu]; exact hlive
    exact Warp.proceed_lands ((φ (s.warp x.w)).track x f full) x ms (by rw [hll]; exact hl) g1 rfl g3 g4
  by_cases ho : Alone s x f ∨ bound = true
  · -- a region of its own
    obtain ⟨u3, hfin, b3⟩ : ∃ u3, u.finish x f full ms bound = u3.commitNow x.w ∧ OneWarp s u3 x.w 1 k (w2 ∘ w1 ∘ φ) := by
      have b3 := b2.trans (State.count_small u2 x.w (u2.warp x.w).vi unitCore 12 1)
      simp only [Nat.add_zero, Function.id_comp] at b3
      refine ⟨if (u.warp x.w).region.issued == 0 && f.writes.any ((u.warp x.w).region.liveIn f.reads) then
        u2.count (u2.warp x.w).vi unitCore 12 1 else u2, ?_, by split <;> assumption⟩
      unfold State.finish
      have hob : ((u.warp x.w).region.issued == 0 && f.writes.any ((u.warp x.w).region.liveIn f.reads) || bound) = true := by
        rcases ho with ho | ho
        · rw [hown.mpr ho]; rfl
        · rw [ho, Bool.or_true]
      simp only [hob, if_true]
      rw [show u.updWarp x.w (fun w => (w.track x f full).proceed x ms) = u1 from rfl, hu2]
      unfold State.stepStop
      simp [hstep]
    have hw3 : x.w < u3.warps.length := by rw [b3.size]; exact hw
    have h3 : u3.warp x.w = (w2 ∘ w1 ∘ φ) (s.warp x.w) := b3.warp
    have hr3 : (u3.warp x.w).region = ((φ (s.warp x.w)).track x f full).region := by rw [h3, shape]
    have hrφ : (φ (s.warp x.w)).region = ((s.warp x.w).begun s.devTime).region := hA.own ho
    have fr : Fresh s x.w := by
      rcases ho with ho | ho
      · exact c.fresh ho
      · exact (hB ho).1
    have hd3 : (u3.warp x.w).dirty = (s.warp x.w).dirty := by rw [h3, shape]; rw [ha]; exact hg.dirty
    have hl3 : u3.launchOf x.w = s.launchOf x.w := by
      unfold State.launchOf
      rw [b3.launch, h3, shape]
      rw [ha]
      exact congrArg _ hg.launch
    have hb3 : u3.coreOf x.w = s.coreOf x.w := by
      unfold State.coreOf State.blockOf
      rw [b3.core, b3.block, h3, shape]
      rw [ha]
      exact congrArg (fun b => s.core (s.block b).core) hg.block
    have f3 : Fresh u3 x.w := by
      have hrr := Warp.begun_region (s.warp x.w) s.devTime
      constructor
      all_goals first
        | (rw [hr3]; unfold Warp.track; dsimp only; rw [hrφ, hrr]; first | exact fr.atoms | exact fr.spAtoms | exact fr.cmds | exact fr.stores | exact fr.recs | exact fr.clears | exact fr.evicts | exact fr.ctrStores | exact fr.flush | exact fr.odone | exact fr.mclear | exact fr.failed)
        | skip
      · rw [hd3]; exact fr.lines
      · have hs := fr.sent
        unfold State.reqsLeft at hs ⊢
        rw [hb3]
        have : u3.net = s.net := by rw [b3.rest]
        rw [this]
        rw [hr3]
        unfold Warp.track; dsimp only; rw [hrφ, hrr]
        exact hs
      · rw [hl3]; exact fr.single
      · rw [hb3]; exact fr.ovf
    have hcn := State.commitNow_fresh hw3 f3
    have b4 := (b3.trans (OneWarp.upd u3 Warp.committed hw3)).trans
      (State.count_small (u3.updWarp x.w Warp.committed) x.w (u3.warp x.w).vi unitCore 0 1)
    rw [← hcn, ← hfin] at b4
    simp only [Nat.add_zero, Function.id_comp] at b4
    generalize hψ : Warp.committed ∘ w2 ∘ w1 ∘ φ = ψ at b4
    have shape4 : ψ (s.warp x.w) = { g (s.warp x.w) with
        vregs := (φ (s.warp x.w)).vregs, sregs := (φ (s.warp x.w)).sregs, preds := (φ (s.warp x.w)).preds
        fpstat := (φ (s.warp x.w)).fpstat, draws := (φ (s.warp x.w)).draws, pend := (φ (s.warp x.w)).pend
        region := (ψ (s.warp x.w)).region, pct := (ψ (s.warp x.w)).pct
        icount := (ψ (s.warp x.w)).icount, stall := 0, bpskip := none, reentering := false, lastIssue := s.sectionCycle x.w, lastWord := (x.pc, x.active)
        firstIssue := (ψ (s.warp x.w)).firstIssue, commits := (ψ (s.warp x.w)).commits, wdog := (ψ (s.warp x.w)).wdog
        reentry := (ψ (s.warp x.w)).reentry, holds := (ψ (s.warp x.w)).holds, pins := (ψ (s.warp x.w)).pins
        older := none } := by
      rw [← hψ]
      simp only [Function.comp_apply] at shape ⊢
      rw [shape]
      simp only [Warp.committed, Warp.endHolds]
      rw [ha]
    have holder : (g (s.warp x.w)).older = none := by
      rw [hg.older]
      rcases ho with ho | ho
      · by_contra hc
        obtain ⟨o, ho'⟩ := Option.ne_none_iff_exists'.mp hc
        exact absurd ho.2 (by rw [(c.older o ho').1]; simp)
      · exact (hB ho).2
    refine ⟨ψ, b4, ⟨?_, b4.size, b4.others, b4.vis, b4.recs, b4.flume, fun a => by rw [b4.mem], ?_, fun h => absurd ho h,
      fun _ => ?_⟩,
      by rw [shape4], by rw [shape4], by rw [shape4], by rw [shape4], by rw [shape4], by rw [shape4], ?_, ?_, ?_⟩
    · conv_lhs => rw [b4.rest]
      congr 1
      rw [b4.rest]
    · rw [b4.warp, shape4]
      rw [← holder]
    · rw [b4.warp, ← hψ]
      simp only [Function.comp_apply] at shape ⊢
      rw [shape]
      have hs : (φ (s.warp x.w)).region.seq = (s.warp x.w).region.seq := by
        rw [hrφ, Warp.begun_region]
      have hc : (φ (s.warp x.w)).commits = (g (s.warp x.w)).commits := by rw [ha]
      refine ⟨?_, ?_, ?_⟩
      · simp [Warp.committed, Warp.track, Warp.endHolds, hs]
      · simp only [Warp.committed, Warp.endHolds, hc]
      · rfl
    · intro l m h1 h2 h3 h4
      obtain ⟨p, q⟩ := stands l m h1 h2 h3 h4
      rw [← hψ]
      apply standsAt_of_only
      · intro e he hb
        simp only [Function.comp_apply, Warp.committed, Warp.endHolds, List.mem_map] at he
        obtain ⟨e', he', rfl⟩ := he
        by_cases hc : (e'.state == .waiting && e'.on == .service) = true
        · rw [if_pos hc] at hb ⊢
          exact ⟨(p e' he' hb).1, rfl, rfl⟩
        · rw [if_neg hc] at hb ⊢
          exact p e' he' hb
      · obtain ⟨e, he, hb⟩ := q
        simp only [Function.comp_apply, Warp.committed, Warp.endHolds, List.mem_map]
        refine ⟨_, ⟨e, he, rfl⟩, ?_⟩
        split <;> exact hb
    · exact fun h => absurd ho h
    · exact fun h => absurd ho h
  · have hfin : u.finish x f full ms bound = u2 := by
      have hn : ((u.warp x.w).region.issued == 0 && f.writes.any ((u.warp x.w).region.liveIn f.reads)) = false := by
        rw [Bool.eq_false_iff]; exact fun h => ho (.inl (hown.mp h))
      have hbf : bound = false := by
        rw [Bool.eq_false_iff]; exact fun h => ho (.inr h)
      unfold State.finish
      simp only [hn, hbf, Bool.or_false, Bool.false_eq_true, if_false]
      rw [show u.updWarp x.w (fun w => (w.track x f full).proceed x ms) = u1 from rfl, hu2]
      unfold State.stepStop
      simp [hstep]
    rw [hfin]
    generalize hψ : w2 ∘ w1 ∘ φ = ψ at b2 shape stands
    have shape4 : ψ (s.warp x.w) = { g (s.warp x.w) with
        vregs := (φ (s.warp x.w)).vregs, sregs := (φ (s.warp x.w)).sregs, preds := (φ (s.warp x.w)).preds
        fpstat := (φ (s.warp x.w)).fpstat, draws := (φ (s.warp x.w)).draws, pend := (φ (s.warp x.w)).pend
        region := (ψ (s.warp x.w)).region, pct := (ψ (s.warp x.w)).pct
        icount := (ψ (s.warp x.w)).icount, stall := 0, bpskip := none, reentering := false, lastIssue := s.sectionCycle x.w, lastWord := (x.pc, x.active)
        firstIssue := (ψ (s.warp x.w)).firstIssue } := by
      rw [shape]
      rw [ha]
    refine ⟨ψ, b2, ⟨?_, b2.size, b2.others, b2.vis, b2.recs, b2.flume, fun a => by rw [b2.mem], ?_, fun _ => ?_,
      fun h => absurd h ho⟩,
      by rw [shape4], by rw [shape4], by rw [shape4], by rw [shape4], by rw [shape4], by rw [shape4], ?_, ?_, ?_⟩
    · conv_lhs => rw [b2.rest]
      congr 1
      rw [b2.rest]
    · rw [b2.warp, shape4]
    · rw [b2.warp, shape4]; exact ⟨rfl, rfl, rfl, rfl, rfl⟩
    · intro l m h1 h2 h3 h4
      obtain ⟨p, q⟩ := stands l m h1 h2 h3 h4
      exact standsAt_of_only p q
    · intro _
      rw [← hψ]
      rfl
    · intro _
      rw [shape]

theorem Warp.setP_p (w : Warp) (n m v q l : Nat) : (w.setP n m v).p q l =
    if q = n ∧ q ≠ 7 ∧ bit m l = true then bit v l else w.p q l := by
  unfold Warp.setP Warp.p
  by_cases h7 : q = 7
  · simp [h7]
  · simp only [h7, if_false, sget_sset, ne_eq, not_false_eq_true, true_and]
    by_cases hn : q = n
    · subst hn
      simp only [if_true, true_and, bit_mOr, bit_mDiff, bit_mAnd]
      by_cases hm : bit m l = true
      · simp [hm]
      · simp [hm]
    · simp [hn]

theorem Warp.apply_wroteP (w : Warp) (ws : Writes) (p : Option PDest)
    (h : match p with
      | some (pm, q, val) => ∃ pv, ws.p = [(q, pm, pv)] ∧ ∀ l, l < 32 → bit pm l = true → bit pv l = val l
      | none => ws.p = []) : WroteP w (w.apply ws) p := by
  intro q l hl
  cases p with
  | none =>
    dsimp only at h ⊢
    unfold Warp.p
    rw [Warp.apply_noP w ws h]
  | some y =>
    obtain ⟨pm, n, val⟩ := y
    obtain ⟨pv, hp, hv⟩ := h
    have e : (w.apply ws).p q l = (w.setP n pm pv).p q l := by
      unfold Warp.p
      rw [Warp.apply_oneP w ws hp]
    rw [e, Warp.setP_p]
    dsimp only
    by_cases hc : q = n ∧ q ≠ 7 ∧ bit pm l = true
    · rw [if_pos hc, if_pos hc, hv l hl hc.2.2]
    · rw [if_neg hc, if_neg hc]

/-- What a result writes: destinations [ds] and a predicate. -/
def WritesOf (ws : Writes) (ds : List Dest) (p : Option PDest) : Prop :=
  ∀ a : Warp, Wrote a (a.apply ws) ds ∧ WroteP a (a.apply ws) p

theorem WritesOf.lanes {ws : Writes} {act : Nat} {ds : List LaneDest} {p : Option PDest}
    (v : ws.v = (lanesOf act).flatMap fun l => (laneWrites ds l).v) (s : ws.s = (lanesOf act).flatMap fun l => (laneWrites ds l).s)
    (h : match p with
      | some (pm, q, val) => ∃ pv, ws.p = [(q, pm, pv)] ∧ ∀ l, l < 32 → bit pm l = true → bit pv l = val l
      | none => ws.p = [])
    (one : noScalar ds = true ∨ ∃ l, act = 0 ∨ (l < 32 ∧ act = 2 ^ l)) : WritesOf ws (inLanes act ds) p :=
  fun a => ⟨Warp.apply_wrote a ws act ds v s one, Warp.apply_wroteP a ws p h⟩

/-- Flags, draws and registers written, and the end of the word: what a word that acts does. -/
theorem State.deposit_acts {s : State} {x : Issue} {f : Foot} {vec : Bool} {r : Result} {ds : List Dest}
    {p : Option PDest} (c : Calm s x f) (hq : Quiet s x vec r.flags) (hw : WritesOf r.ws ds p)
    (np : f.pend = false) : Gives s ((s.begin_ x.w).deposit x f vec r) x f vec ds p r.flags r.drawn r.draws := by
  have hl := c.warp
  have sr := s.begin_reads hl
  have b := s.begin_small hl
  have hlb : x.w < (s.begin_ x.w).warps.length := by rw [b.size]; exact hl
  have hq' : Quiet (s.begin_ x.w) x vec r.flags := by
    intro l h1 h2
    rw [sr.enables]
    exact hq l h1 (by rw [← sr.counts]; exact h2)
  have ht := State.flagTrap_none hq'
  let rf := orFlags ((s.begin_ x.w).raised x vec r.flags)
  let φ : Warp → Warp := fun w =>
    (Warp.consume { w.begun s.devTime with fpstat := mOr (w.begun s.devTime).fpstat rf } r.drawn r.draws).apply r.ws
  have e : (s.begin_ x.w).deposit x f vec r = ((((s.begin_ x.w).addFlags x vec r.flags).updWarp x.w fun w => w.consume r.drawn r.draws).updWarp
      x.w fun w => w.apply r.ws).finish x f r.full x.next false := by
    unfold State.deposit
    rw [ht]
    simp only [np, Bool.false_eq_true, if_false]
  have a : OneWarp s ((((s.begin_ x.w).addFlags x vec r.flags).updWarp x.w fun w => w.consume r.drawn r.draws).updWarp
      x.w fun w => w.apply r.ws) x.w 0 0 φ := by
    have a1 := b.trans (OneWarp.upd _ (fun w => { w with fpstat := mOr w.fpstat rf }) hlb)
    have a2 := a1.trans (OneWarp.upd _ (fun w => w.consume r.drawn r.draws) (by simpa using hlb))
    have a3 := a2.trans (OneWarp.upd _ (fun w => w.apply r.ws) (by simpa using hlb))
    exact a3
  have br := (s.warp x.w).begun_reads s.devTime
  generalize hW : (s.warp x.w).begun s.devTime = W at br
  let C := Warp.consume { W with fpstat := mOr W.fpstat rf } r.drawn r.draws
  have hφ : φ (s.warp x.w) = C.apply r.ws := by simp only [φ, C, hW]
  have hC : C = { W with fpstat := mOr W.fpstat rf, draws := C.draws } :=
    Warp.consume_shape _ _ _
  have ha : ActedOn φ id (s.warp x.w) s.devTime (Alone s x f ∨ false = true) := by
    apply ActedOn.plain
    rw [hφ, Warp.apply_shape, hC, hW, br]
    rfl
  obtain ⟨ψ, o, ap, g1, g2, g3, g4, g5, g6, g7, -⟩ := State.finish_calm (bound := false) c a ha (Mild.id _) r.full x.next (by simp)
  rw [e]
  generalize ((((s.begin_ x.w).addFlags x vec r.flags).updWarp x.w fun w => w.consume r.drawn r.draws).updWarp
      x.w fun w => w.apply r.ws).finish x f r.full x.next false = t at o ap
  have hap := Warp.apply_shape C r.ws
  have cv : ∀ q l, C.v q l = (s.warp x.w).v q l := fun q l => by rw [hC, br]; rfl
  have cs : ∀ q, C.s q = (s.warp x.w).s q := fun q => by rw [hC, br]; rfl
  have cp : ∀ q l, C.p q l = (s.warp x.w).p q l := fun q l => by rw [hC, br]; rfl
  have wr := (hw C).1
  have wp := (hw C).2
  refine { fpstat := ?_, drawn := ?_, next := ?_, apart := by simpa using ap, regs := ⟨?_, ?_⟩, preds := ?_, pend := ⟨?_, by rw [o.rest]; rfl⟩ }
  · intro k
    rw [o.warp, g4, hφ, hap]
    dsimp only
    rw [hC]
    dsimp only
    simp only [rf]
    rw [bit_mOr, State.raised_any, br]
    congr 2
    funext l
    rw [sr.counts]
  · intro l
    rw [o.warp, g5, hφ, hap]
    dsimp only
    rw [Warp.consume_draws, br]
  · intro l h1 h2 h3
    rw [o.warp]; exact g7 l _ h3 (landing_next h2) rfl rfl
  · intro q l hl
    rw [← cv, ← wr.v q l hl]
    unfold Warp.v
    rw [o.warp, g1, hφ]
  · intro q
    rw [← cs, ← wr.s q]
    unfold Warp.s
    rw [o.warp, g2, hφ]
  · intro q l hl
    have h := wp q l hl
    rw [cp] at h
    rw [← h]
    unfold Warp.p
    rw [o.warp, g3, hφ]
  · rw [o.warp, g6, hφ, hap]
    dsimp only
    rw [hC]
    dsimp only
    rw [br]

/-! ### ALU words (R102, R106, R140, R203) -/

theorem SameReads.laneOut {s t : State} {x : Issue} (h : SameReads s t x.w) (srcs : List Src) (f : LaneFn) (l : Nat) :
    t.laneOut x srcs f l = s.laneOut x srcs f l := by
  simp only [State.laneOut, h.src, h.preg, h.drawWord]

theorem SameReads.aluResult {s t : State} {x : Issue} (h : SameReads s t x.w) (k : Alu) (f : LaneFn) :
    t.aluResult x k f = s.aluResult x k f := by
  have hl : (t.warp x.w).covers = (s.warp x.w).covers := by funext m; simp only [Warp.covers, h.live]
  simp only [State.aluResult, h.laneOut, h.acting, hl]

/-- The scalar lane. -/
theorem State.acting_scalar (s : State) (x : Issue) (g : Guard) :
    ∃ l, s.acting x g false = 0 ∨ (l < 32 ∧ s.acting x g false = 2 ^ l) := by
  unfold State.acting
  simp only [Bool.false_eq_true, if_false]
  split
  · rename_i l hl
    refine ⟨l, ?_⟩
    split
    · exact .inr ⟨(lowLane_some hl).1, rfl⟩
    · exact .inl rfl
  · exact ⟨0, .inl rfl⟩

theorem isVec_scalar {d : Reg} {l : List Reg} (h : isVec d l = true) (n : Fin 256) : d ≠ .s n := by
  rintro rfl; simp [isVec] at h

theorem State.alu_writes (s : State) (x : Issue) (k : Alu) (f : LaneFn) (hE : k.vec = true → ∀ n, k.e ≠ .s n) :
    WritesOf (s.aluResult x k f).ws (k.dests (s.acting x k.g k.vec) fun l => (s.laneOut x (srcsFrom 0 k.srcs) f l).val)
      (k.pred x (s.acting x k.g k.vec) fun l => (s.laneOut x (srcsFrom 0 k.srcs) f l).p) := by
  let D (val : Nat → Nat) : List LaneDest := [(k.d, k.dn, val), (k.e, k.en, fun l => val l >>> (32 * k.dn))]
  have cv : ∀ (val : Nat → Nat) (ls : List Nat), (Writes.concat (ls.map fun l => (regWrites k.d k.dn l (val l)).append
      (regWrites k.e k.en l (val l >>> (32 * k.dn))))).v = ls.flatMap fun l => (laneWrites (D val) l).v := by
    intro val ls
    rw [Writes.concat_v, List.flatMap_map]
    congr 1
    funext l
    simp [laneWrites, D, Writes.append, Writes.none]
  have cs : ∀ (val : Nat → Nat) (ls : List Nat), (Writes.concat (ls.map fun l => (regWrites k.d k.dn l (val l)).append
      (regWrites k.e k.en l (val l >>> (32 * k.dn))))).s = ls.flatMap fun l => (laneWrites (D val) l).s := by
    intro val ls
    rw [Writes.concat_s, List.flatMap_map]
    congr 1
    funext l
    simp [laneWrites, D, Writes.append, Writes.none]
  have cp : ∀ (val : Nat → Nat) (ls : List Nat), (Writes.concat (ls.map fun l => (regWrites k.d k.dn l (val l)).append
      (regWrites k.e k.en l (val l >>> (32 * k.dn))))).p = [] := by
    intro val ls
    rw [Writes.concat_p, List.flatMap_map, List.flatMap_eq_nil_iff]
    intro l _
    simp only [Writes.append]
    cases k.d <;> cases k.e <;> rfl
  have hws : ∀ o : Option Nat, o = k.pout → (s.aluResult x k f).ws = (Writes.concat ((lanesOf (s.acting x k.g k.vec)).map fun l =>
      (regWrites k.d k.dn l (s.laneOut x (srcsFrom 0 k.srcs) f l).val).append
        (regWrites k.e k.en l ((s.laneOut x (srcsFrom 0 k.srcs) f l).val >>> (32 * k.dn))))).append
      (match (generalizing := true) o with
        | some p => predWrites p (predLanes x k.vec (s.acting x k.g k.vec))
            (maskOf fun l => bit (predLanes x k.vec (s.acting x k.g k.vec)) l &&
              (s.laneOut x (srcsFrom 0 k.srcs) f (if k.vec || k.laneP then l else (lowLane (s.acting x k.g k.vec)).getD 0)).p)
        | none => Writes.none) := by
    rintro o ho
    unfold State.aluResult
    rw [← ho]
    cases o <;> simp only [List.map_map, Function.comp_def]
  have hw := hws _ rfl
  refine WritesOf.lanes (ds := D fun l => (s.laneOut x (srcsFrom 0 k.srcs) f l).val) ?gv ?gs ?gp ?g1
  case gv =>
    rw [hw]
    rw [Writes.append_v, cv fun l => (s.laneOut x (srcsFrom 0 k.srcs) f l).val]
    cases k.pout <;> simp [predWrites, Writes.none]
  case gs =>
    rw [hw]
    rw [Writes.append_s, cs fun l => (s.laneOut x (srcsFrom 0 k.srcs) f l).val]
    cases k.pout <;> simp [predWrites, Writes.none]
  case g1 =>
    cases hv : k.vec
    · exact .inr (s.acting_scalar x k.g)
    · left
      have h1 : ∀ n, k.d ≠ .s n := isVec_scalar hv
      have h2 := hE hv
      cases hd : k.d <;> cases he : k.e <;> simp_all [noScalar, D]
  case gp =>
    rw [hw]
    rw [Writes.append_p, cp fun l => (s.laneOut x (srcsFrom 0 k.srcs) f l).val, List.nil_append]
    cases hp : k.pout with
    | none => simp [Alu.pred, hp, Writes.none]
    | some q =>
      simp only [Alu.pred, hp, Option.map_some]
      refine ⟨_, rfl, ?_⟩
      intro l hl hb
      rw [bit_maskOf]
      simp [hl, hb]

/-- The draw of a fresh number. -/
theorem OneWarp.fresh (s : State) (w : Nat) : OneWarp s { s with nextId := s.nextId + 1 } w 0 1 id :=
  ⟨rfl, rfl, fun _ _ => rfl, rfl, fun _ => rfl, ⟨[], by simp⟩, ⟨[], by simp⟩⟩

/-- A pending result stands last in the scoreboard. -/
theorem State.pend_small (s : State) (x : Issue) (f : Foot) (r : Result) (h : x.w < s.warps.length) :
    ∃ p : Pend, p.ready = true ∧ p.regs = f.writes ∧ p.writes = r.ws ∧
      OneWarp s (s.pend x f r true false) x.w 0 1 fun w => { w with pend := w.pend ++ [p] } := by
  have src : ∃ src, src = ({ s with nextId := s.nextId + 1 } : State).capture x r.srcs r.lanes := ⟨_, rfl⟩
  obtain ⟨src, hs⟩ := src
  refine ⟨⟨s.nextId, f.writes, r.ws, true, if f.replay then
    some ⟨x.word, x.pc, r.lanes, (src.foldl (fun (n : Nat) (y : Nat × Nat × Word) => max n (y.2.1 + 1)) 0), src⟩ else none⟩, rfl, rfl, rfl, ?_⟩
  unfold State.pend State.fresh
  simp only [Bool.false_eq_true, if_false]
  rw [← hs]
  exact (OneWarp.fresh s x.w).trans (OneWarp.upd { s with nextId := s.nextId + 1 } _ h)

/-- Flags, and results that are pending, and the end of the word (R140). -/
theorem State.deposit_pends {s : State} {x : Issue} {f : Foot} {vec : Bool} {r : Result} {ds : List Dest}
    {p : Option PDest} (c : Calm s x f) (hq : Quiet s x vec r.flags) (hw : WritesOf r.ws ds p)
    (np : f.pend = true) : Pends s ((s.begin_ x.w).deposit x f vec r) x f vec ds p r.flags r.drawn r.draws := by
  have hl := c.warp
  have sr := s.begin_reads hl
  have b := s.begin_small hl
  have hlb : x.w < (s.begin_ x.w).warps.length := by rw [b.size]; exact hl
  have hq' : Quiet (s.begin_ x.w) x vec r.flags := by
    intro l h1 h2
    rw [sr.enables]
    exact hq l h1 (by rw [← sr.counts]; exact h2)
  have ht := State.flagTrap_none hq'
  generalize hrf : orFlags ((s.begin_ x.w).raised x vec r.flags) = rf
  have a1 := b.trans (OneWarp.upd _ (fun w => { w with fpstat := mOr w.fpstat rf }) hlb)
  have a2 := a1.trans (OneWarp.upd _ (fun w => w.consume r.drawn r.draws) (by simpa using hlb))
  obtain ⟨pe, p1, p2, p3, p4⟩ := State.pend_small (((s.begin_ x.w).updWarp x.w fun w => { w with fpstat := mOr w.fpstat rf }).updWarp x.w
    fun w => w.consume r.drawn r.draws) x f r (by simpa using hlb)
  have a := a2.trans p4
  have e : (s.begin_ x.w).deposit x f vec r = ((((s.begin_ x.w).updWarp x.w fun w => { w with fpstat := mOr w.fpstat rf }).updWarp x.w
      fun w => w.consume r.drawn r.draws).pend x f r true false).finish x f r.full x.next false := by
    unfold State.deposit
    rw [ht]
    simp only [np, if_true]
    rw [← hrf]
    rfl
  rw [e]
  clear e
  generalize (((s.begin_ x.w).updWarp x.w fun w => { w with fpstat := mOr w.fpstat rf }).updWarp x.w
      fun w => w.consume r.drawn r.draws).pend x f r true false = u at a
  let φ : Warp → Warp := fun w =>
    let y := Warp.consume { w.begun s.devTime with fpstat := mOr (w.begun s.devTime).fpstat rf } r.drawn r.draws
    { y with pend := y.pend ++ [pe] }
  have a' : OneWarp s u x.w 0 1 φ := a
  clear a a1 a2 p4
  have br := (s.warp x.w).begun_reads s.devTime
  generalize hW : (s.warp x.w).begun s.devTime = W at br
  let C := Warp.consume { W with fpstat := mOr W.fpstat rf } r.drawn r.draws
  have hφ : φ (s.warp x.w) = { C with pend := C.pend ++ [pe] } := by simp only [φ, C, hW]
  have hC : C = { W with fpstat := mOr W.fpstat rf, draws := C.draws } := Warp.consume_shape _ _ _
  have ha : ActedOn φ id (s.warp x.w) s.devTime (Alone s x f ∨ false = true) := by
    apply ActedOn.plain
    rw [hφ, hC, hW, br]
    rfl
  obtain ⟨ψ, o, ap, g1, g2, g3, g4, g5, g6, g7, -⟩ := State.finish_calm (bound := false) c a' ha (Mild.id _) r.full x.next (by simp)
  generalize u.finish x f r.full x.next false = t at o ap
  rw [hφ] at g1 g2 g3 g4 g5 g6
  refine { fpstat := ?_, drawn := ?_, next := ?_, apart := by simpa using ap, regs := ⟨?_, ?_⟩, preds := ?_, pend := ⟨pe, ?_, p1, p2, ?_⟩ }
  · intro k
    rw [o.warp, g4]
    dsimp only
    rw [hC]
    dsimp only
    rw [bit_mOr, ← hrf, State.raised_any, br]
    congr 2
    funext l
    rw [sr.counts]
  · intro l
    rw [o.warp, g5]
    dsimp only
    simp only [C]
    rw [Warp.consume_draws, br]
  · intro l h1 h2 h3
    rw [o.warp]; exact g7 l _ h3 (landing_next h2) rfl rfl
  · intro q l hl
    unfold Warp.v
    rw [o.warp, g1]
    dsimp only
    rw [hC, br]
    rfl
  · intro q
    unfold Warp.s
    rw [o.warp, g2]
    dsimp only
    rw [hC, br]
    rfl
  · intro q l hl
    unfold Warp.p
    rw [o.warp, g3]
    dsimp only
    rw [hC, br]
  · rw [o.warp, g6]
    dsimp only
    rw [hC, br]
  · intro w
    rw [p3]
    exact hw w

/-- An ALU word. -/
theorem State.alu_runs {s : State} {x : Issue} (k : Alu) (f : LaneFn) (hE : k.vec = true → ∀ n, k.e ≠ .s n) (c : Calm s x k.foot) :
    let m := s.acting x k.g k.vec
    let out := s.laneOut x (srcsFrom 0 k.srcs) f
    let flags := (lanesOf m).map fun l => (l, (out l).flags)
    Quiet s x k.vec flags →
    ∃ t, s.alu k f = .next t ∧
      if k.pend then Pends s t x k.foot k.vec (k.dests m fun l => (out l).val) (k.pred x m fun l => (out l).p) flags m k.draws
      else Gives s t x k.foot k.vec (k.dests m fun l => (out l).val) (k.pred x m fun l => (out l).p) flags m k.draws := by
  dsimp only
  intro hq
  have sr := s.begin_reads c.warp
  have e : s.alu k f = .next ((s.begin_ x.w).deposit x k.foot k.vec (s.aluResult x k f)) := by
    unfold State.alu State.withIssue
    rw [c.cur]
    dsimp only
    rw [State.enter_ready c.toReady]
    dsimp only
    rw [sr.aluResult]
    rfl
  have hf : (s.aluResult x k f).flags = (lanesOf (s.acting x k.g k.vec)).map fun l => (l, (s.laneOut x (srcsFrom 0 k.srcs) f l).flags) := by
    unfold State.aluResult; simp [List.map_map, Function.comp_def]
  have hw := State.alu_writes s x k f hE
  rw [e]
  refine ⟨_, rfl, ?_⟩
  cases hp : k.pend
  · have := State.deposit_acts c (hf ▸ hq) hw hp
    rw [hf] at this
    exact this
  · have := State.deposit_pends c (hf ▸ hq) hw hp
    rw [hf] at this
    exact this

theorem State.alu_acts {i : Instr} (k : Alu) (f : LaneFn) (hi : ∀ s, exec i s = s.alu k f) (hE : k.vec = true → ∀ n, k.e ≠ .s n) :
    Computes i k f := by
  intro s x c
  dsimp only
  rw [hi]
  exact State.alu_runs k f hE c

end Sys2Proof.Machine
end

