-- ==== Sys2Proof/Laws/Words.lean ====
section
/-!
SUPPORT. What the words that are part of their region do, by their shape: words of lanes working together (spec/13 R240), words that
change their warp besides its registers (spec/09, spec/12, spec/15), and branches (R163 to R168).
-/

namespace Sys2Proof.Machine

/-! ### Words of lanes working together -/

theorem SameReads.crossIn {s t : State} {x : Issue} (h : SameReads s t x.w) (k : Cross) : t.crossIn x k = s.crossIn x k := by
  simp only [State.crossIn, h.passing, h.allHelpers, h.part, h.src, h.preg]

theorem SameReads.covers {s t : State} {x : Issue} (h : SameReads s t x.w) : (t.warp x.w).covers = (s.warp x.w).covers := by
  funext m; simp only [Warp.covers, h.live]

theorem SameReads.crossResult {s t : State} {x : Issue} (h : SameReads s t x.w) (k : Cross) (f : CrossFn) :
    t.crossResult x k f = s.crossResult x k f := by
  simp only [State.crossResult, h.crossIn, h.covers]

theorem lanesOf_filter (m : Nat) (p : Nat → Bool) : lanesOf (maskOf fun l => bit m l && p l) = (lanesOf m).filter p := by
  unfold lanesOf
  rw [List.filter_filter]
  apply List.filter_congr
  intro l hl
  rw [bit_maskOf, Bool.and_comm (p l)]
  simp [List.mem_range.mp hl]

/-- Writes that only some lanes make. -/
theorem concat_some {d : Reg} {n : Nat} (ls : List Nat) (val : Nat → Option Nat) (sel : Writes → List (Nat × Word))
    (hc : ∀ ws : List Writes, sel (Writes.concat ws) = ws.flatMap sel) (h0 : sel Writes.none = [])
    (ha : ∀ w, sel (w.append Writes.none) = sel w) :
    sel (Writes.concat (ls.map fun l => match val l with | some v => regWrites d n l v | none => Writes.none)) =
      (ls.filter fun l => (val l).isSome).flatMap fun l => sel (laneWrites [(d, n, fun l => (val l).getD 0)] l) := by
  rw [hc, List.flatMap_map]
  induction ls with
  | nil => rfl
  | cons l ls ih =>
    rw [List.flatMap_cons, ih, List.filter_cons]
    cases hv : val l with
    | none => simp [h0]
    | some v => simp [laneWrites, ha, hv]

theorem State.cross_acts {i : Instr} (k : Cross) (fn : CrossFn) {m : CrossIn → Nat} {val : CrossIn → Nat → Option Nat}
    {fl : CrossIn → Nat → Nat} {p : CrossIn → Nat → Bool} (hi : ∀ s, exec i s = s.cross k fn)
    (hfn : ∀ c, fn c = (lanesOf (m c)).map fun l => ⟨l, val c l, fl c l, p c l⟩)
    (one : isScalarReg k.d = true → ∀ c, ∃ l, m c = 0 ∨ (l < 32 ∧ m c = 2 ^ l)) : Shares i k m val fl p := by
  intro s x c
  dsimp only
  intro hq
  have sr := s.begin_reads c.warp
  have e : s.cross k fn = .next ((s.begin_ x.w).deposit x k.foot (!isScalarReg k.d) (s.crossResult x k fn)) := by
    unfold State.cross State.withIssue
    rw [c.cur]
    dsimp only
    rw [State.enter_ready c.toReady]
    dsimp only
    rw [sr.crossResult]
    rfl
  generalize hC : s.crossIn x k = C at hq ⊢
  have hf : (s.crossResult x k fn).flags = (lanesOf (m C)).map fun l => (l, fl C l) := by
    unfold State.crossResult
    simp [hC, hfn, List.map_map, Function.comp_def]
  have hws : (s.crossResult x k fn).ws = (Writes.concat ((lanesOf (m C)).map fun l =>
      match val C l with | some v => regWrites k.d k.dn l v | none => Writes.none)).append
      (match k.pout with
       | some q => predWrites q (laneMask (lanesOf (m C)))
          (maskOf fun l => ((lanesOf (m C)).map fun l => (⟨l, val C l, fl C l, p C l⟩ : CrossOut)).any fun o => o.lane == l && o.p)
       | none => Writes.none) := by
    unfold State.crossResult
    simp only [hC, hfn, List.map_map]
    congr 1
    cases k.pout with
    | none => rfl
    | some q => simp [Function.comp_def]
  have cp : ∀ ls : List Nat, (Writes.concat (ls.map fun l =>
      match val C l with | some v => regWrites k.d k.dn l v | none => Writes.none)).p = [] := by
    intro ls
    rw [Writes.concat_p, List.flatMap_map, List.flatMap_eq_nil_iff]
    intro l _
    cases val C l with
    | none => rfl
    | some v => cases k.d <;> rfl
  have hw : WritesOf (s.crossResult x k fn).ws
      [(maskOf fun l => bit (m C) l && (val C l).isSome, k.d, k.dn, fun l => (val C l).getD 0)]
      (k.pout.map fun q => (m C, q, p C)) := by
    intro a
    have hv := Warp.apply_wrote a (s.crossResult x k fn).ws (maskOf fun l => bit (m C) l && (val C l).isSome)
      [(k.d, k.dn, fun l => (val C l).getD 0)] ?_ ?_ ?_
    · refine ⟨hv, ?_⟩
      cases hp : k.pout with
      | none => exact Warp.apply_wroteP a _ none (by rw [hws, Writes.append_p, cp, hp]; rfl)
      | some q =>
        rw [Option.map_some]
        intro r l hl
        have e1 : (a.apply (s.crossResult x k fn).ws).p r l = (a.setP q (laneMask (lanesOf (m C)))
            (maskOf fun l => ((lanesOf (m C)).map fun l => (⟨l, val C l, fl C l, p C l⟩ : CrossOut)).any fun o => o.lane == l && o.p)).p r l := by
          unfold Warp.p
          rw [Warp.apply_oneP (h := by rw [hws, Writes.append_p, cp, hp]; rfl)]
        rw [e1, Warp.setP_p]
        dsimp only
        have e2 : bit (laneMask (lanesOf (m C))) l = bit (m C) l := by
          rw [bit_laneMask, Bool.eq_iff_iff]
          simp [mem_lanesOf, hl]
        rw [e2]
        by_cases hc : r = q ∧ r ≠ 7 ∧ bit (m C) l = true
        · rw [if_pos hc, if_pos hc, bit_maskOf, Bool.eq_iff_iff]
          simp only [hl, decide_true, Bool.true_and, List.any_map, List.any_eq_true, Function.comp_apply, Bool.and_eq_true, beq_iff_eq]
          constructor
          · rintro ⟨j, -, rfl, h⟩; exact h
          · intro h; exact ⟨l, mem_lanesOf.mpr ⟨hl, hc.2.2⟩, rfl, h⟩
        · rw [if_neg hc, if_neg hc]
    · rw [hws, Writes.append_v, lanesOf_filter, concat_some _ _ Writes.v Writes.concat_v rfl fun w => by simp [Writes.append, Writes.none]]
      cases k.pout <;> simp [predWrites, Writes.none]
    · rw [hws, Writes.append_s, lanesOf_filter, concat_some _ _ Writes.s Writes.concat_s rfl fun w => by simp [Writes.append, Writes.none]]
      cases k.pout <;> simp [predWrites, Writes.none]
    · by_cases hsc : isScalarReg k.d = true
      · right
        obtain ⟨l, h | ⟨hl, h⟩⟩ := one hsc C
        · exact ⟨l, .inl (eq_of_bits fun j => by rw [bit_maskOf, h]; simp [bit_zero_])⟩
        · rcases hb : (val C l).isSome
          · exact ⟨l, .inl (eq_of_bits fun j => by
              rw [bit_maskOf, h, bit_two_pow, bit_zero_]
              by_cases e : l = j
              · subst e; simp [hb]
              · simp [e])⟩
          · exact ⟨l, .inr ⟨hl, eq_of_bits fun j => by
              rw [bit_maskOf, h, bit_two_pow]
              by_cases e : l = j
              · subst e; simp [hb, hl]
              · simp [e]⟩⟩
      · left
        cases hd : k.d <;> simp_all [noScalar, isScalarReg]
  rw [hi, e]
  refine ⟨_, rfl, ?_⟩
  have := State.deposit_pends c (hf ▸ hq) hw rfl
  rw [hf] at this
  exact this

/-- The lanes that a destination takes: all that contribute, or for a scalar one the lowest voting one. -/
theorem forDst_lanes (c : CrossIn) (d : Reg) (f : Nat → CrossOut) (hf : ∀ l, (f l).lane = l) :
    c.forDst d ((lanesOf c.con).map f) =
      (lanesOf (if isScalarReg d then (if bit c.con c.low then 2 ^ c.low else 0) else c.con)).map f := by
  unfold CrossIn.forDst
  by_cases h : isScalarReg d = true
  · rw [if_pos h, if_pos h, List.filter_map]
    congr 1
    have : lanesOf (if bit c.con c.low then 2 ^ c.low else 0) = (lanesOf c.con).filter fun l => l == c.low := by
      unfold lanesOf
      rw [List.filter_filter]
      apply List.filter_congr
      intro l _
      by_cases hb : bit c.con c.low = true
      · rw [if_pos hb, bit_two_pow]
        by_cases e : l = c.low
        · subst e; simp [hb]
        · simp [e, Ne.symm e]
      · rw [if_neg hb, bit_zero_]
        by_cases e : l = c.low
        · subst e; simp [hb]
        · simp [e]
    rw [this]
    apply List.filter_congr
    intro l _
    simp [hf]
  · rw [if_neg h, if_neg h]

theorem forDst_one {d : Reg} (h : isScalarReg d = true) (c : CrossIn) :
    ∃ l, (if isScalarReg d then (if bit c.con c.low then 2 ^ c.low else 0) else c.con) = 0 ∨
      (l < 32 ∧ (if isScalarReg d then (if bit c.con c.low then 2 ^ c.low else 0) else c.con) = 2 ^ l) := by
  refine ⟨c.low, ?_⟩
  rw [if_pos h]
  by_cases hb : bit c.con c.low = true
  · rw [if_pos hb]; right
    refine ⟨?_, rfl⟩
    unfold CrossIn.low
    cases h1 : lowLane c.vote with
    | some l => simpa using (lowLane_some h1).1
    | none =>
      cases h2 : lowLane c.con with
      | some l => simpa using (lowLane_some h2).1
      | none => simp
  · rw [if_neg hb]; exact .inl rfl

/-! ### Words that change their warp (R98, R147) -/

/-- A word that changes its warp by [h] after its region began: what it leaves, and where. -/
theorem State.word_ends {s : State} {x : Issue} {f : Foot} {bound : Bool} (c : Calm s x f) (h g : Warp → Warp)
    (hA : ActedOn (fun w => h (w.begun s.devTime)) g (s.warp x.w) s.devTime (Alone s x f ∨ bound = true)) (hg : Mild g (s.warp x.w))
    (full : List Nat) (ms : List Move) (hB : bound = true → Fresh s x.w ∧ (s.warp x.w).older = none) (dst : Nat → Nat)
    (hm : ∀ l, l < 32 → bit x.mask l = true → bit (s.warp x.w).live l = true →
      ∃ m, landing l ms = some m ∧ m.pc = dst l ∧ m.st = .ready ∧ m.on = .none) {t : State}
    (ht : t = ((s.begin_ x.w).updWarp x.w h).finish x f full ms bound) :
    Apart s t x (Alone s x f ∨ bound = true) g ∧ Lands s t x dst ∧ t.nextId = s.nextId ∧
      (let W := h ((s.warp x.w).begun s.devTime)
       (t.warp x.w).vregs = W.vregs ∧ (t.warp x.w).sregs = W.sregs ∧ (t.warp x.w).preds = W.preds ∧ (t.warp x.w).fpstat = W.fpstat ∧
       (t.warp x.w).draws = W.draws ∧ (t.warp x.w).pend = W.pend ∧
       (¬ (Alone s x f ∨ bound = true) → (t.warp x.w).region = (W.track x f full).region)) := by
  subst ht
  have b := s.begin_small c.warp
  have a := b.trans (OneWarp.upd _ h (by rw [b.size]; exact c.warp))
  obtain ⟨ψ, o, ap, g1, g2, g3, g4, g5, g6, g7, -, g8⟩ := State.finish_calm (bound := bound) c a hA hg full ms hB
  refine ⟨ap, ?_, by rw [o.rest]; rfl, ?_⟩
  · intro l h1 h2 h3
    obtain ⟨m, m1, m2, m3, m4⟩ := hm l h1 h2 h3
    rw [o.warp, ← m2]; exact g7 l m h3 m1 m3 m4
  · dsimp only
    rw [o.warp]
    exact ⟨g1, g2, g3, g4, g5, g6, g8⟩

/-- What such a word writes. -/
theorem State.word_gives {s : State} {x : Issue} {f : Foot} (c : Calm s x f) (g : Warp → Warp) (ws : Writes)
    (hs : ∀ w, g w = { w with hist := (g w).hist, nonfin := (g w).nonfin, part := (g w).part, fbuf := (g w).fbuf
                              hold := (g w).hold, rcv := (g w).rcv, sig := (g w).sig })
    (hb : ∀ w w' : Warp, (g { w with firstIssue := w'.firstIssue, region := w'.region }) =
      { g w with firstIssue := w'.firstIssue, region := w'.region })
    {ds : List Dest} {p : Option PDest} (hw : WritesOf ws ds p) (full : List Nat) {t : State} (vec : Bool)
    (ht : t = ((s.begin_ x.w).updWarp x.w fun w => (g w).apply ws).finish x f full x.next false) :
    Gives s t x f vec ds p [] 0 0 g := by
  have br := (s.warp x.w).begun_reads s.devTime
  have e0 : g ((s.warp x.w).begun s.devTime) = { g (s.warp x.w) with
      firstIssue := ((s.warp x.w).begun s.devTime).firstIssue, region := ((s.warp x.w).begun s.devTime).region } := by
    rw [← hb, ← br]
  have ash := Warp.apply_shape (g ((s.warp x.w).begun s.devTime)) ws
  have hA : ActedOn (fun w => (g (w.begun s.devTime)).apply ws) g (s.warp x.w) s.devTime (Alone s x f ∨ false = true) := by
    apply ActedOn.plain
    dsimp only
    rw [ash, e0, hs (s.warp x.w)]
  have hg : Mild g (s.warp x.w) := by constructor <;> rw [hs]
  obtain ⟨ap, la, ni, g1, g2, g3, g4, g5, g6, -⟩ := State.word_ends (bound := false) c (fun w => (g w).apply ws) g hA hg full x.next
    (by simp) _ (lands_next _) ht
  have wr := (hw (g ((s.warp x.w).begun s.devTime))).1
  have wp := (hw (g ((s.warp x.w).begun s.devTime))).2
  have hv : ∀ q l, (g ((s.warp x.w).begun s.devTime)).v q l = (s.warp x.w).v q l := fun q l => by
    unfold Warp.v; rw [e0, hs]
  have hsr : ∀ q, (g ((s.warp x.w).begun s.devTime)).s q = (s.warp x.w).s q := fun q => by
    unfold Warp.s; rw [e0, hs]
  have hp : ∀ q l, (g ((s.warp x.w).begun s.devTime)).p q l = (s.warp x.w).p q l := fun q l => by
    unfold Warp.p; rw [e0, hs]
  refine { fpstat := ?_, drawn := ?_, next := la, apart := by simpa using ap, regs := ⟨?_, ?_⟩, preds := ?_, pend := ⟨?_, ni⟩ }
  · intro k
    rw [g4, ash]
    dsimp only
    rw [e0]
    simp
  · intro l
    rw [g5, ash]
    dsimp only
    rw [e0, hs]
    simp
  · intro q l hl
    rw [← hv, ← wr.v q l hl]
    unfold Warp.v
    rw [g1]
  · intro q
    rw [← hsr, ← wr.s q]
    unfold Warp.s
    rw [g2]
  · intro q l hl
    have h := wp q l hl
    rw [hp] at h
    rw [← h]
    unfold Warp.p
    rw [g3]
  · rw [g6, ash]
    dsimp only
    rw [e0, hs]

theorem WritesOf.nothing : WritesOf Writes.none [] none := by
  intro a
  refine ⟨⟨?_, ?_⟩, ?_⟩
  · intro r l _; rfl
  · intro r; rfl
  · intro q l _; rfl

/-- A destination written with one value in lanes; a scalar one in at most one lane. -/
theorem WritesOf.spread {d : Reg} {n act : Nat} {val : Nat → Nat} (one : (∀ k, d ≠ .s k) ∨ ∃ l, act = 0 ∨ (l < 32 ∧ act = 2 ^ l)) :
    WritesOf (Writes.concat ((lanesOf act).map fun l => regWrites d n l (val l))) [(act, d, n, val)] none := by
  refine WritesOf.lanes (ds := [(d, n, val)]) ?gv ?gs ?gp ?g1
  case gv =>
    rw [Writes.concat_v, List.flatMap_map]
    congr 1
    funext l
    simp [laneWrites, Writes.append, Writes.none]
  case gs =>
    rw [Writes.concat_s, List.flatMap_map]
    congr 1
    funext l
    simp [laneWrites, Writes.append, Writes.none]
  case gp =>
    rw [Writes.concat_p, List.flatMap_map, List.flatMap_eq_nil_iff]
    intro l _
    cases d <;> rfl
  case g1 =>
    rcases one with h | h
    · left
      cases d <;> simp_all [noScalar]
    · exact .inr h

/-- One register group written in lane 0. -/
theorem WritesOf.lane0 (d : Reg) (n v : Nat) : WritesOf (regWrites d n 0 v) [(1, d, n, fun _ => v)] none := by
  have h := WritesOf.spread (d := d) (n := n) (act := 1) (val := fun _ => v) (.inr ⟨0, .inr ⟨by decide, rfl⟩⟩)
  have e : Writes.concat ((lanesOf 1).map fun l => regWrites d n l v) = regWrites d n 0 v := by
    rw [show lanesOf 1 = [0] by decide]
    simp [Writes.concat, Writes.append, Writes.none]
  rw [← e]; exact h

/-- Destinations of two lots of writes, one after the other. -/
theorem vAfter_append (r l : Nat) (old : Word) (ds es : List Dest) : vAfter r l old (ds ++ es) = vAfter r l (vAfter r l old ds) es := by
  induction ds generalizing old with
  | nil => rfl
  | cons d ds ih =>
    obtain ⟨m, d, n, val⟩ := d
    cases d <;> simp only [List.cons_append, vAfter, ih]

theorem sAfter_append (r : Nat) (old : Word) (ds es : List Dest) : sAfter r old (ds ++ es) = sAfter r (sAfter r old ds) es := by
  induction ds generalizing old with
  | nil => rfl
  | cons d ds ih =>
    obtain ⟨m, d, n, val⟩ := d
    cases d <;> simp only [List.cons_append, sAfter, ih]

theorem WritesOf.append {a b : Writes} {ds es : List Dest} (ha : WritesOf a ds none) (hb : WritesOf b es none) (hp : a.p = []) (hq : b.p = []) :
    WritesOf (a.append b) (ds ++ es) none := by
  intro w
  have v : (w.apply (a.append b)).vregs = ((w.apply a).apply b).vregs := by
    rw [Warp.apply_vregs, Warp.apply_vregs, Warp.apply_vregs, Writes.append_v, List.foldl_append]
  have s : (w.apply (a.append b)).sregs = ((w.apply a).apply b).sregs := by
    rw [Warp.apply_sregs, Warp.apply_sregs, Warp.apply_sregs, Writes.append_s, List.foldl_append]
  have p : (w.apply (a.append b)).preds = w.preds := Warp.apply_noP _ _ (by rw [Writes.append_p, hp, hq]; rfl)
  refine ⟨⟨?_, ?_⟩, ?_⟩
  · intro r l hl
    rw [vAfter_append, ← (ha w).1.v r l hl, ← (hb (w.apply a)).1.v r l hl]
    unfold Warp.v; rw [v]
  · intro r
    rw [sAfter_append, ← (ha w).1.s r, ← (hb (w.apply a)).1.s r]
    unfold Warp.s; rw [s]
  · intro q l _
    unfold Warp.p; rw [p]

theorem Warp.track_region {a b : Warp} (h : a.region = b.region) (ht : a.trap = b.trap) (x : Issue) (f : Foot) (full : List Nat) :
    (a.track x f full).region = (b.track x f full).region := by
  simp only [Warp.track, h, ht]

/-- A word with no region of its own that writes registers, changes its warp by [g] and its region by [ρ], and whose lanes move. -/
theorem State.word_open {s : State} {x : Issue} {f : Foot} (c : Calm s x f) (na : ¬ Alone s x f) (g : Warp → Warp) (ρ : Region → Region)
    (ws : Writes)
    (hs : ∀ w, g w = { w with hist := (g w).hist, nonfin := (g w).nonfin, part := (g w).part, fbuf := (g w).fbuf
                              hold := (g w).hold, rcv := (g w).rcv, sig := (g w).sig })
    (hb : ∀ w w' : Warp, (g { w with firstIssue := w'.firstIssue, region := w'.region }) =
      { g w with firstIssue := w'.firstIssue, region := w'.region })
    (hρ : ∀ r, (ρ r).issued = r.issued ∧ (ρ r).readFirst = r.readFirst ∧ (ρ r).written = r.written)
    {ds : List Dest} {p : Option PDest} (hw : WritesOf ws ds p) (full : List Nat) (ms : List Move) (dst : Nat → Nat)
    (hm : ∀ l, l < 32 → bit x.mask l = true → bit (s.warp x.w).live l = true →
      ∃ m, landing l ms = some m ∧ m.pc = dst l ∧ m.st = .ready ∧ m.on = .none) {t : State} (vec : Bool)
    (ht : t = ((s.begin_ x.w).updWarp x.w fun w => ({ g w with region := ρ w.region } : Warp).apply ws).finish x f full ms false) :
    Gives s t x f vec ds p [] 0 0 g dst ∧
      (t.warp x.w).region =
        ({ (s.warp x.w).begun s.devTime with region := ρ ((s.warp x.w).begun s.devTime).region }.track x f full).region := by
  have br := (s.warp x.w).begun_reads s.devTime
  have e0 : g ((s.warp x.w).begun s.devTime) = { g (s.warp x.w) with
      firstIssue := ((s.warp x.w).begun s.devTime).firstIssue, region := ((s.warp x.w).begun s.devTime).region } := by
    rw [← hb, ← br]
  let G : Warp → Warp := fun w => { g w with region := ρ w.region }
  have ash := Warp.apply_shape (G ((s.warp x.w).begun s.devTime)) ws
  have hreg : ((G ((s.warp x.w).begun s.devTime)).apply ws).region = ρ ((s.warp x.w).begun s.devTime).region := by rw [ash]
  have hA : ActedOn (fun w => (G (w.begun s.devTime)).apply ws) g (s.warp x.w) s.devTime (Alone s x f ∨ false = true) := by
    refine ⟨?_, ?_, ?_, ?_, fun h => absurd h (by simpa using na)⟩
    · dsimp only
      rw [hreg, ash]
      dsimp only [G]
      rw [e0, hs (s.warp x.w)]
    · exact (congrArg Region.issued hreg).trans (hρ _).1
    · exact (congrArg Region.readFirst hreg).trans (hρ _).2.1
    · exact (congrArg Region.written hreg).trans (hρ _).2.2
  have hg : Mild g (s.warp x.w) := by constructor <;> rw [hs]
  obtain ⟨ap, la, ni, g1, g2, g3, g4, g5, g6, g7⟩ := State.word_ends (bound := false) c (fun w => (G w).apply ws) g hA hg full ms
    (by simp) dst hm ht
  have wr := (hw (G ((s.warp x.w).begun s.devTime))).1
  have wp := (hw (G ((s.warp x.w).begun s.devTime))).2
  have hv : ∀ q l, (G ((s.warp x.w).begun s.devTime)).v q l = (s.warp x.w).v q l := fun q l => by
    unfold Warp.v; dsimp only [G]; rw [e0, hs]
  have hsr : ∀ q, (G ((s.warp x.w).begun s.devTime)).s q = (s.warp x.w).s q := fun q => by
    unfold Warp.s; dsimp only [G]; rw [e0, hs]
  have hp : ∀ q l, (G ((s.warp x.w).begun s.devTime)).p q l = (s.warp x.w).p q l := fun q l => by
    unfold Warp.p; dsimp only [G]; rw [e0, hs]
  refine ⟨{ fpstat := ?_, drawn := ?_, next := la, apart := by simpa using ap, regs := ⟨?_, ?_⟩, preds := ?_, pend := ⟨?_, ni⟩ }, ?_⟩
  · intro k
    rw [g4, ash]
    dsimp only [G]
    rw [e0]
    simp
  · intro l
    rw [g5, ash]
    dsimp only [G]
    rw [e0, hs]
    simp
  · intro q l hl
    rw [← hv, ← wr.v q l hl]
    unfold Warp.v
    rw [g1]
  · intro q
    rw [← hsr, ← wr.s q]
    unfold Warp.s
    rw [g2]
  · intro q l hl
    have h := wp q l hl
    rw [hp] at h
    rw [← h]
    unfold Warp.p
    rw [g3]
  · rw [g6, ash]
    dsimp only [G]
    rw [e0, hs]
  · rw [g7 (by simpa using na)]
    refine Warp.track_region hreg ?_ x f full
    rw [ash]
    dsimp only [G]
    rw [e0, hs, br]

/-- A word that writes nothing forms no region of its own. -/
theorem not_alone {s : State} {x : Issue} {f : Foot} (hf : f.writes = []) : ¬ Alone s x f := by
  rintro ⟨-, h⟩
  simp [State.clobbers, hf] at h

/-- A word that only changes its region's effects: no registers. -/
theorem State.word_region {s : State} {x : Issue} {f : Foot} (c : Calm s x f) (hf : f.writes = []) (ρ : Region → Region)
    (hρ : ∀ r, (ρ r).issued = r.issued ∧ (ρ r).readFirst = r.readFirst ∧ (ρ r).written = r.written) {t : State} (vec : Bool)
    (ht : t = ((s.begin_ x.w).updWarp x.w fun w => { w with region := ρ w.region }).finish x f [] x.next false) :
    Gives s t x f vec [] none [] 0 0 ∧
      (t.warp x.w).region =
        ({ (s.warp x.w).begun s.devTime with region := ρ ((s.warp x.w).begun s.devTime).region }.track x f []).region :=
  State.word_open c (not_alone hf) id ρ Writes.none (fun _ => rfl) (fun _ _ => rfl) hρ WritesOf.nothing [] x.next _ (lands_next _) vec ht

/-- A plain word with nothing in its way runs. -/
theorem State.plainWord_ready {s : State} {x : Issue} {f : Foot} (c : Ready s x f) (run : State → Issue → Out) :
    s.plainWord f run = run (s.begin_ x.w) x := by
  unfold State.plainWord State.withIssue
  rw [c.cur]
  dsimp only
  rw [State.enter_ready c]

/-- A word that writes registers at once. -/
theorem State.word_writes {s : State} {x : Issue} {f : Foot} (c : Calm s x f) (ws : Writes) {ds : List Dest} {p : Option PDest} (hw : WritesOf ws ds p)
    (full : List Nat) (vec : Bool) :
    Gives s (((s.begin_ x.w).updWarp x.w fun w => w.apply ws).finish x f full x.next false) x f vec ds p [] 0 0 :=
  State.word_gives c id ws (fun _ => rfl) (fun _ _ => rfl) hw full vec rfl

theorem State.updWarp_id (s : State) (w : Nat) : s.updWarp w id = s := by
  unfold State.updWarp
  rw [modify_same s.warps w id fun _ => rfl]

/-- A word that writes nothing. -/
theorem State.word_nothing {s : State} {x : Issue} {f : Foot} (c : Calm s x f) (full : List Nat) (vec : Bool) :
    Gives s ((s.begin_ x.w).finish x f full x.next false) x f vec [] none [] 0 0 := by
  have := State.word_writes c Writes.none WritesOf.nothing full vec
  rwa [show (s.begin_ x.w).updWarp x.w (fun w => w.apply Writes.none) = s.begin_ x.w from State.updWarp_id _ _] at this

theorem State.oneDest_ws (s : State) (x : Issue) (g : Guard) (d : Reg) (n v : Nat) :
    WritesOf (if s.acting x g false = 0 then Writes.none else regWrites d n 0 v) (oneDest s x g d n v) none := by
  unfold oneDest
  split
  · exact WritesOf.nothing
  · exact WritesOf.lane0 d n v

/-- A scalar word whose result is written at issue. -/
theorem State.scalarWord_gives {s : State} {x : Issue} (g : Guard) (d : Reg) (n : Nat) (reads : List Nat) (val : State → Issue → Nat × State)
    (c : Calm s x (foot (guardIds g ++ reads) (regIds n d))) (v : Nat) (hv : val (s.begin_ x.w) x = (v, s.begin_ x.w)) :
    ∃ t, s.scalarWord g d n reads val = .next t ∧
      Gives s t x (foot (guardIds g ++ reads) (regIds n d)) false (oneDest s x g d n v) none [] 0 0 := by
  have e : s.scalarWord g d n reads val = .next (((s.begin_ x.w).updWarp x.w fun w => w.apply
      (if s.acting x g false = 0 then Writes.none else regWrites d n 0 v)).finish x (foot (guardIds g ++ reads) (regIds n d))
      (if s.acting x g false = 0 then [] else regIds n d) x.next false) := by
    unfold State.scalarWord State.withIssue
    rw [c.cur]
    dsimp only
    rw [State.enter_ready c.toReady]
    dsimp only
    rw [(s.begin_reads c.warp).acting, hv]
    split
    · rw [show (s.begin_ x.w).updWarp x.w (fun w => w.apply Writes.none) = s.begin_ x.w from State.updWarp_id _ _]; rfl
    · rfl
  exact ⟨_, e, State.word_writes c _ (State.oneDest_ws s x g d n v) _ _⟩

theorem State.acting_one (s : State) (x : Issue) (g : Guard) (d : Reg) : (∀ k, d ≠ .s k) ∨ ∃ l, s.acting x g d.isVector = 0 ∨ (l < 32 ∧ s.acting x g d.isVector = 2 ^ l) := by
  cases h : d.isVector
  · exact .inr (s.acting_scalar x g)
  · left; rintro k rfl; simp [Reg.isVector] at h

theorem SameReads.spread {s t : State} {x : Issue} (h : SameReads s t x.w) (g : Guard) (d : Reg) (n : Nat) (val : Nat → Nat) :
    (t.spread x g d n val) = (s.spread x g d n val) := by
  unfold State.spread
  dsimp only
  rw [h.acting, h.covers]


/-- The start of a word touches warps and interval records alone. -/
theorem State.begin_shape (s : State) (w : Nat) : s.begin_ w = { s with warps := (s.begin_ w).warps, recs := (s.begin_ w).recs } := by
  unfold State.begin_ State.openRec
  dsimp only
  split
  · rfl
  · split <;> rfl

theorem State.sysReg_begin {s : State} {w : Nat} (h : w < s.warps.length) (n l : Nat) : (s.begin_ w).sysReg w n l = s.sysReg w n l := by
  have sr := s.begin_reads h
  have e : (s.begin_ w).warp w = (s.warp w).begun s.devTime := (s.begin_small h).warp
  have br := (s.warp w).begun_reads s.devTime
  have ho : (s.begin_ w).launchOf w = s.launchOf w := SameReads.launchOf (x := ⟨w, 0, 0, 0, 0, none⟩) sr
  have hb : (s.begin_ w).blockOf w = s.blockOf w := SameReads.blockOf (x := ⟨w, 0, 0, 0, 0, none⟩) sr
  have hi : (s.begin_ w).intervalOf (s.warp w).party = s.intervalOf (s.warp w).party := by
    unfold State.begin_ State.intervalOf State.openRec State.rec?
    dsimp only
    by_cases hf : (s.warp w).firstIssue.isSome = true
    · simp only [hf, if_true]; rfl
    · simp only [hf, if_false, Bool.false_eq_true]
      cases hr : s.recs.find? fun r => r.party == (s.warp w).party with
      | some r => simp [hr, State.updWarp]
      | none => simp [hr, State.updWarp, List.find?_append]
  unfold State.sysReg State.wmode State.secondary
  rw [e, ho, hb, br]
  dsimp only
  rw [hi]

/-- What the start of its region keeps of a region. -/
theorem Warp.begun_effects (w : Warp) (time : Nat) :
    (w.begun time).region = { w.region with entry := (w.begun time).region.entry, inTrap := (w.begun time).region.inTrap } :=
  Warp.begun_region w time

/-! ### What holds of every entry of a PC table -/

/-- Every entry's state and wait satisfy [Q]. -/
def allAt (Q : EState → WaitOn → Prop) (es : List PctEntry) : Prop := ∀ e ∈ es, Q e.state e.on

theorem mergeInto_all {Q : EState → WaitOn → Prop} {w : Warp} {e : PctEntry} (he : Q e.state e.on) (es : List PctEntry) (h : allAt Q es) :
    allAt Q (mergeInto w e es) := by
  induction es with
  | nil => intro f hf; simp [mergeInto] at hf; subst hf; exact he
  | cons g es ih =>
    unfold mergeInto
    split
    · intro f hf
      rcases List.mem_cons.mp hf with rfl | hf
      · exact h g (by simp)
      · exact h f (by simp [hf])
    · intro f hf
      rcases List.mem_cons.mp hf with rfl | hf
      · exact h _ (by simp)
      · exact ih (fun f hf => h f (by simp [hf])) f hf

theorem Warp.merge_all {Q : EState → WaitOn → Prop} {w : Warp} (h : allAt Q w.pct) : allAt Q w.merge.pct := by
  have : ∀ (es acc : List PctEntry), allAt Q es → allAt Q acc → allAt Q (es.foldl (fun acc e => mergeInto w e acc) acc) := by
    intro es
    induction es with
    | nil => intro acc _ h; exact h
    | cons e es ih => intro acc h1 h2; exact ih _ (fun f hf => h1 f (by simp [hf])) (mergeInto_all (h1 e (by simp)) acc h2)
  exact this _ [] (fun e he => h e (List.mem_filter.mp he).1) (fun e he => by simp at he)

theorem Warp.place_all {Q : EState → WaitOn → Prop} {w : Warp} (h : allAt Q w.pct) (m pc : Nat) {st : EState} {on : WaitOn} (hq : Q st on) :
    allAt Q (w.place m pc st on).pct := by
  unfold Warp.place
  split
  · exact h
  · intro e he
    rcases List.mem_append.mp he with he | he
    · unfold takeLanes at he
      obtain ⟨f, hf, rfl⟩ := List.mem_map.mp (List.mem_filter.mp he).1
      exact h f hf
    · simp only [List.mem_singleton] at he
      subst he; exact hq

theorem Warp.proceed_all {Q : EState → WaitOn → Prop} {w : Warp} (h : allAt Q w.pct) (x : Issue) (ms : List Move)
    (hm : ∀ m ∈ ms, Q m.st m.on) : allAt Q (w.proceed x ms).pct := by
  apply Warp.merge_all
  have step : ∀ (ms : List Move) (z : Warp), allAt Q z.pct → (∀ m ∈ ms, Q m.st m.on) →
      allAt Q (ms.foldl (fun (y : Warp) m => y.place (mAnd m.mask w.live) m.pc m.st m.on) z).pct := by
    intro ms
    induction ms with
    | nil => intro z h _; exact h
    | cons m ms ih => intro z h hm; exact ih _ (Warp.place_all h _ _ (hm m (by simp))) (fun n hn => hm n (by simp [hn]))
  apply step ms _ ?_ hm
  intro e he
  simp only [Warp.aged, List.mem_map] at he
  obtain ⟨f, hf, rfl⟩ := he
  split
  · exact h f hf
  · repeat' split
    all_goals exact h f hf

theorem waitsAt_of_only {w : Warp} {l pc : Nat} {on : WaitOn} (h : onlyAt l pc .waiting on w.pct) (hex : ∃ e ∈ w.pct, bit e.mask l = true) : w.waitsAt l pc on := by
  obtain ⟨e, he, hb⟩ := hex
  have : (w.pct.find? fun e => bit e.mask l).isSome := by
    rw [List.find?_isSome]; exact ⟨e, he, hb⟩
  obtain ⟨f, hf⟩ := Option.isSome_iff_exists.mp this
  have h1 := List.find?_some hf
  have h2 := List.mem_of_find?_eq_some hf
  exact ⟨f, hf, h f h2 h1⟩

end Sys2Proof.Machine
end

