-- ==== Sys2Proof/Laws/Beside.lean ====
section
/-!
SUPPORT. Words whose effects reach the memory system beside their warp: what each operation of the memory system can change, and the
end of such a word.
-/

namespace Sys2Proof.Machine

theorem Near.refl (s : State) : Near s s := ⟨rfl, fun _ => rfl, rfl, fun _ => rfl, fun _ => rfl, fun _ => rfl⟩

theorem Near.trans {s t u : State} (a : Near s t) (b : Near t u) : Near s u := by
  refine ⟨?_, fun c => (b.mats c).trans (a.mats c), b.size.trans a.size, fun c => ?_, fun v => ?_, fun k => ?_⟩
  · have h := b.rest
    rw [a.rest] at h
    exact h
  · rw [b.core, a.core]
  · rw [b.vi, a.vi]
  · rw [b.block, a.block]

section NearFacts
variable {s t : State} (n : Near s t)
include n
theorem Near.warps : t.warps = s.warps := by rw [n.rest]
theorem Near.warp (w : Nat) : t.warp w = s.warp w := by unfold State.warp; rw [n.warps]
theorem Near.launches : t.launches = s.launches := by rw [n.rest]
theorem Near.launch (l : Nat) : t.launch l = s.launch l := by unfold State.launch; rw [n.launches]
theorem Near.clock : t.clock = s.clock := by rw [n.rest]
theorem Near.devTime : t.devTime = s.devTime := by rw [n.rest]
theorem Near.recs : t.recs = s.recs := by rw [n.rest]
theorem Near.nextId : t.nextId = s.nextId := by rw [n.rest]
theorem Near.cur : t.cur = s.cur := by rw [n.rest]
theorem Near.net : t.net = s.net := by rw [n.rest]
theorem Near.launchOf (w : Nat) : t.launchOf w = s.launchOf w := by unfold State.launchOf; rw [n.warp, n.launch]
theorem Near.blockWarps (b : Nat) : t.blockWarps b = s.blockWarps b := by
  unfold State.blockWarps; simp only [n.warps, n.warp]
theorem Near.blockOf (w : Nat) : t.blockOf w = { s.blockOf w with map := (t.blockOf w).map } := by
  unfold State.blockOf; rw [n.warp]; exact n.block _
theorem Near.coreNo (w : Nat) : (t.blockOf w).core = (s.blockOf w).core := by rw [n.blockOf]
theorem Near.secondary (w : Nat) : t.secondary w = s.secondary w := by unfold State.secondary; rw [n.blockOf]
theorem Near.twinOf (w : Nat) : t.twinOf w = s.twinOf w := by
  unfold State.twinOf; rw [n.blockOf]; simp only [n.blockWarps, n.warp]
theorem Near.twinBusy (w : Nat) : t.twinBusy w = s.twinBusy w := by
  unfold State.twinBusy; rw [n.twinOf]; simp only [n.warp]
theorem Near.clobbers (x : Issue) (f : Foot) : t.clobbers x f = s.clobbers x f := by unfold State.clobbers; rw [n.warp]
theorem Near.alone (x : Issue) (f : Foot) : Alone t x f ↔ Alone s x f := by unfold Alone; rw [n.warp, n.clobbers]
theorem Near.coreOf (w : Nat) : (t.coreOf w).port = (s.coreOf w).port ∧ (t.coreOf w).ovfWarp = (s.coreOf w).ovfWarp := by
  unfold State.coreOf; rw [n.core, n.coreNo]; exact ⟨rfl, rfl⟩
theorem Near.reqsLeft (w q : Nat) : t.reqsLeft w q = s.reqsLeft w q := by
  unfold State.reqsLeft; rw [n.net, (n.coreOf w).1]

theorem Near.rec? (p : Party) : t.rec? p = s.rec? p := by unfold State.rec?; rw [n.recs]
theorem Near.handed (w : Nat) : t.handed w = s.handed w := by unfold State.handed; rw [n.warp, n.rec?]
theorem Near.boundWaits (w : Nat) : t.boundWaits w = s.boundWaits w := by unfold State.boundWaits; rw [n.warp, n.handed]

theorem Near.ready {x : Issue} {f : Foot} (c : Ready s x f) : Ready t x f := by
  refine ⟨by rw [n.cur]; exact c.cur, by rw [n.warps]; exact c.warp, by rw [n.warp]; exact c.stop, by rw [n.warp]; exact c.hold,
    by rw [n.twinBusy]; exact c.twin, ?_, by rw [n.warp]; exact c.board, by rw [n.boundWaits]; exact c.bound, by rw [n.warp]; exact c.held, ?_, by rw [n.warp]; exact c.deferred, ?_⟩
  · have h := c.legal
    unfold State.illegal at h ⊢
    rw [n.launchOf, n.warp]; exact h
  · rw [n.clobbers, n.warp]; exact c.whole
  · intro o ho
    rw [n.warp] at ho
    rw [n.clobbers]; exact c.older o ho

theorem Near.fresh {w : Nat} (c : Fresh s w) : Fresh t w := by
  have hw := n.warp w
  exact ⟨by rw [hw]; exact c.atoms, by rw [hw]; exact c.spAtoms, by rw [hw]; exact c.cmds, by rw [hw]; exact c.stores, by rw [hw]; exact c.recs,
    by rw [hw]; exact c.clears, by rw [hw]; exact c.evicts, by rw [hw]; exact c.ctrStores, by rw [hw]; exact c.flush,
    by rw [hw]; exact c.odone, by rw [hw]; exact c.mclear, by rw [hw]; exact c.failed, by rw [hw]; exact c.lines,
    by rw [hw, n.reqsLeft]; exact c.sent, by rw [n.launchOf]; exact c.single, by rw [(n.coreOf w).2]; exact c.ovf⟩

theorem Near.calm {x : Issue} {f : Foot} (c : Calm s x f) : Calm t x f :=
  ⟨n.ready c.toReady, by rw [n.warp]; exact c.step, c.given, fun h => n.fresh (c.fresh ((n.alone x f).mp h))⟩

end NearFacts

/-! ### What the operations of the memory system change -/

/-- Only translations, caches, tokens, marks, handles and counters differ: every byte stays, of memory and of every scratchpad. -/
structure Still (s t : State) : Prop where
  rest : t = { s with cores := t.cores, vis := t.vis, l2 := t.l2, marks := t.marks, aliases := t.aliases, sides := t.sides
                      walk := t.walk, freeCtr := t.freeCtr, flume := t.flume }
  core : ∀ c, t.core c = { s.core c with
    tlb := (t.core c).tlb, clean := (t.core c).clean, cc := (t.core c).cc, ic := (t.core c).ic, tokens := (t.core c).tokens
    portAt := (t.core c).portAt, lastVi := (t.core c).lastVi, rg := (t.core c).rg }
  vi : ∀ v, t.vi v = { s.vi v with ctr := (t.vi v).ctr, handles := (t.vi v).handles }

theorem Still.refl (s : State) : Still s s := ⟨rfl, fun _ => rfl, fun _ => rfl⟩

theorem Still.trans {s t u : State} (a : Still s t) (b : Still t u) : Still s u := by
  refine ⟨?_, fun c => ?_, fun v => ?_⟩
  · have h := b.rest
    rw [a.rest] at h
    exact h
  · rw [b.core, a.core]
  · rw [b.vi, a.vi]

theorem Still.near {s t : State} (a : Still s t) : Near s t := by
  have hb : t.blocks = s.blocks := by rw [a.rest]
  have hm : t.mem = s.mem := by rw [a.rest]
  refine ⟨?_, fun c => by rw [a.core], by rw [hb], fun c => ?_, fun v => ?_, fun k => ?_⟩
  · conv_lhs => rw [a.rest]
    rw [hb, hm]
  · rw [a.core]
  · rw [a.vi]
  · unfold State.block; rw [hb]

theorem Still.mem {s t : State} (a : Still s t) : t.mem = s.mem := by rw [a.rest]
theorem Still.blocks {s t : State} (a : Still s t) : t.blocks = s.blocks := by rw [a.rest]
theorem Still.bytes {s t : State} (a : Still s t) : SameBytes s t := by
  refine ⟨fun x => by rw [a.mem], fun b o => ?_⟩
  unfold State.spByte State.page State.readSlot State.slotAt State.spEntry State.block
  rw [a.mem, a.blocks, a.core, a.vi]

theorem SameBytes.refl (s : State) : SameBytes s s := ⟨fun _ => rfl, fun _ _ => rfl⟩

theorem Still.updCore (s : State) (c : Nat) (f : Core → Core) (h : ∀ k : Core, f k = { k with
    tlb := (f k).tlb, clean := (f k).clean, cc := (f k).cc, ic := (f k).ic, tokens := (f k).tokens
    portAt := (f k).portAt, lastVi := (f k).lastVi, rg := (f k).rg }) :
    Still s (s.updCore c f) := by
  refine ⟨rfl, fun k => ?_, fun _ => rfl⟩
  by_cases e : k = c
  · subst e
    by_cases hl : k < s.cores.length
    · rw [State.updCore_core_same hl]; exact h _
    · have : (s.updCore k f).core k = s.core k := by
        unfold State.updCore State.core
        simp [List.getD_eq_getElem?_getD, hl]
      rw [this]
  · rw [State.updCore_core_other e]

theorem Still.updVi (s : State) (c : Nat) (f : Vi → Vi) (h : ∀ k : Vi, f k = { k with ctr := (f k).ctr, handles := (f k).handles }) :
    Still s (s.updVi c f) := by
  refine ⟨rfl, fun _ => rfl, fun k => ?_⟩
  by_cases e : k = c
  · subst e
    by_cases hl : k < s.vis.length
    · rw [State.updVi_vi_same hl]; exact h _
    · have : (s.updVi k f).vi k = s.vi k := by
        unfold State.updVi State.vi
        simp [List.getD_eq_getElem?_getD, hl]
      rw [this]
  · rw [State.updVi_vi_other e]

theorem State.updCore_keeps {α : Type} (s : State) (v : Nat) (f : Core → Core) (P : Core → α) (h : ∀ y, P (f y) = P y) (k : Nat) :
    P ((s.updCore v f).core k) = P (s.core k) := by
  by_cases e : k = v
  · subst e
    by_cases hl : k < s.cores.length
    · rw [State.updCore_core_same hl]; exact h _
    · have : (s.updCore k f).core k = s.core k := by
        unfold State.updCore State.core
        simp [List.getD_eq_getElem?_getD, hl]
      rw [this]
  · rw [State.updCore_core_other e]

/-- A core changed where the memory system keeps something. -/
theorem Near.updCore (s : State) (c : Nat) (f : Core → Core) (h : ∀ k : Core, f k = { k with
    tlb := (f k).tlb, clean := (f k).clean, cc := (f k).cc, ic := (f k).ic, tokens := (f k).tokens
    portAt := (f k).portAt, lastVi := (f k).lastVi, rg := (f k).rg, frames := (f k).frames, remote := (f k).remote }) :
    Near s (s.updCore c f) := by
  refine ⟨rfl, fun k => ?_, rfl, fun k => ?_, fun _ => rfl, fun _ => rfl⟩
  · rw [State.updCore_keeps s c f Core.matq fun y => by rw [h]]
  by_cases e : k = c
  · subst e
    by_cases hl : k < s.cores.length
    · rw [State.updCore_core_same hl]
      have e : (f (s.core k)).matq = (s.core k).matq := by rw [h]
      rw [e]; exact h _
    · have : (s.updCore k f).core k = s.core k := by
        unfold State.updCore State.core
        simp [List.getD_eq_getElem?_getD, hl]
      rw [this]
  · rw [State.updCore_core_other e]

theorem Near.updVi (s : State) (c : Nat) (f : Vi → Vi) (h : ∀ k : Vi, f k = { k with
    ctr := (f k).ctr, handles := (f k).handles, slots := (f k).slots }) : Near s (s.updVi c f) := by
  refine ⟨rfl, fun _ => rfl, rfl, fun _ => rfl, fun k => ?_, fun _ => rfl⟩
  by_cases e : k = c
  · subst e
    by_cases hl : k < s.vis.length
    · rw [State.updVi_vi_same hl]; exact h _
    · have : (s.updVi k f).vi k = s.vi k := by
        unfold State.updVi State.vi
        simp [List.getD_eq_getElem?_getD, hl]
      rw [this]
  · rw [State.updVi_vi_other e]

theorem Near.setSpEntry (s : State) (c p : Nat) (e : SpEntry) : Near s (s.setSpEntry c p e) := by
  unfold State.setSpEntry
  refine ⟨rfl, fun _ => rfl, s.updBlock_length c _, fun _ => rfl, fun _ => rfl, fun k => ?_⟩
  by_cases e : k = c
  · subst e
    by_cases hl : k < s.blocks.length
    · rw [State.updBlock_block_same hl]
    · have : ∀ f, (s.updBlock k f).block k = s.block k := fun f => by
        unfold State.updBlock State.block
        simp [List.getD_eq_getElem?_getD, hl]
      rw [this]
  · rw [State.updBlock_block_other e]

theorem Still.emit (s : State) (vi : Nat) (ws : List Nat) : Still s (s.emit vi ws) := ⟨rfl, fun _ => rfl, fun _ => rfl⟩
theorem Still.l2 (s : State) (xs : List L2Line) : Still s { s with l2 := xs } := ⟨rfl, fun _ => rfl, fun _ => rfl⟩
theorem Still.marks (s : State) (xs : List LineMarks) : Still s { s with marks := xs } := ⟨rfl, fun _ => rfl, fun _ => rfl⟩
theorem Still.aliases (s : State) (xs : List Alias) : Still s { s with aliases := xs } := ⟨rfl, fun _ => rfl, fun _ => rfl⟩
theorem Still.sides (s : State) (xs : Sparse Nat) : Still s { s with sides := xs } := ⟨rfl, fun _ => rfl, fun _ => rfl⟩
theorem Still.walk (s : State) (xs : List (Nat × TlbEntry)) : Still s { s with walk := xs } := ⟨rfl, fun _ => rfl, fun _ => rfl⟩
theorem Still.freeCtr (s : State) (n : Nat) : Still s { s with freeCtr := n } := ⟨rfl, fun _ => rfl, fun _ => rfl⟩

theorem Still.foldl {α : Type} (f : State → α → State) (h : ∀ s a, Still s (f s a)) (xs : List α) (s : State) : Still s (xs.foldl f s) := by
  induction xs generalizing s with
  | nil => exact .refl s
  | cons a xs ih => exact (h s a).trans (ih _)

theorem Still.count (s : State) (vi unit ev k : Nat) : Still s (s.count vi unit ev k) := by
  unfold State.count
  split
  · exact .refl s
  · refine Still.foldl _ (fun s e => ?_) _ s
    dsimp only
    split
    · refine Still.trans ?_ (Still.updVi _ _ _ fun _ => rfl)
      split
      · exact .refl s
      · exact .emit s _ _
    · exact .refl s

theorem Still.putMarks (s : State) (l : LineMarks) : Still s (s.putMarks l) := .marks s _

theorem Still.fitMarks (s : State) (slice : Nat) : Still s (s.fitMarks slice) := by
  unfold State.fitMarks
  dsimp only
  split
  · exact .refl s
  · split
    · exact (Still.putMarks s _).trans (.count _ _ _ _ _)
    · exact .refl s

theorem Still.setMarks (s : State) (l : LineMarks) : Still s (s.setMarks l) := (Still.putMarks s _).trans (.fitMarks _ _)
theorem Still.setMarkAt (s : State) (vi pa : Nat) (m : WordMark) : Still s (s.setMarkAt vi pa m) := .setMarks s _

theorem Still.alias_ (s : State) (pa : Nat) (p : Party) : Still s (s.alias_ pa p) := by
  unfold State.alias_; split
  · exact .refl s
  · exact .aliases s _

theorem Still.recordWords (s : State) (vi : Nat) (a : Access) (pas : List Nat) : Still s (s.recordWords vi a pas) :=
  Still.foldl _ (fun s pa => (Still.alias_ s pa a.party).trans (.setMarkAt _ _ _ _)) pas s

theorem Still.setSide (s : State) (line n : Nat) : Still s (s.setSide line n) := .sides s _

theorem Still.restoreLine (s : State) (line : Nat) : Still s (s.restoreLine line) := by
  unfold State.restoreLine
  dsimp only
  split
  · split
    · split
      · exact (Still.setSide s _ _).trans (.setMarks _ _)
      · exact .setSide s _ _
    · exact .setSide s _ _
  · exact (Still.setSide s _ _).trans (Still.foldl _ (fun s l => Still.setMarks s l) _ _)

theorem Still.unbind (s : State) (vi h : Nat) : Still s (s.unbind vi h) := (Still.l2 s _).trans (.updVi _ _ _ fun _ => rfl)

theorem Still.demote (s : State) (vi h : Nat) : Still s (s.demote vi h) := by
  unfold State.demote
  split
  · exact .l2 s _
  · split
    · exact .unbind s _ _
    · exact .updVi s _ _ fun _ => rfl

theorem Still.countSpill (s : State) (line : Nat) (p : Spill) : Still s (s.countSpill line p) := by
  cases p with
  | nothing => exact .refl s
  | side _ => exact .count s _ _ _ _
  | overflow ls => exact .foldl _ (fun s l => .count s _ _ _ _) ls s

theorem Still.spillLine {s t : State} {line : Nat} {strong : Bool} (h : s.spillLine line strong = some t) : Still s t := by
  unfold State.spillLine at h
  dsimp only at h
  split at h
  · cases h; exact (Still.marks s _).trans (.setSide _ _ _)
  · cases h; exact (Still.marks s _).trans (.setSide _ _ _)
  · split at h
    · cases h; exact (Still.marks s _).trans (.setSide _ _ _)
    · cases h

theorem Still.dropLine {s t : State} {line : Nat} (h : s.dropLine line = some t) : Still s t := by
  unfold State.dropLine at h
  obtain ⟨u, hu, rfl⟩ := Option.map_eq_some_iff.mp h
  exact ((Still.countSpill s _ _).trans (.spillLine hu)).trans (.l2 _ _)

theorem Still.evictFirst {s t : State} {es : List L2Line} (h : s.evictFirst es = some t) : Still s t := by
  induction es with
  | nil => cases h
  | cons e r ih =>
    unfold State.evictFirst at h
    split at h
    · next u hu =>
      cases h
      refine (Still.dropLine hu).trans ?_
      split
      · exact .demote _ _ _
      · exact .refl _
    · exact ih h

/-- Room for a line in its slice costs other lines, with their marks, and no byte (R262, R268, R372). -/
theorem Still.lineRoom {s t : State} {line : Nat} (h : s.lineRoom line = some t) : Still s t := by
  unfold State.lineRoom at h
  split at h
  · cases h; exact .refl s
  · exact .evictFirst h

theorem Still.touch (s : State) (vi va pa : Nat) : Still s (s.touch vi va pa) := by
  unfold State.touch
  dsimp only
  split
  · exact (Still.count s vi unitHome 0 1).trans (.l2 _ _)
  · have h1 := ((Still.count s vi unitHome 0 1).trans (Still.count _ vi unitHome 1 1)).trans (Still.count _ vi unitHbm 0 1)
    generalize (((s.count vi unitHome 0 1).count vi unitHome 1 1).count vi unitHbm 0 1) = u at h1 ⊢
    have h2 : Still s ((u.lineRoom (pa / 64)).getD u) := by
      cases h : u.lineRoom (pa / 64) with
      | none => exact h1
      | some t => exact h1.trans (.lineRoom h)
    generalize (u.lineRoom (pa / 64)).getD u = v at h2 ⊢
    refine Still.trans ?_ ((Still.restoreLine _ _).trans (.l2 _ _))
    split
    · exact h2.trans (.count _ _ _ _ _)
    · exact h2

theorem Still.crossDies (s : State) (d e vi : Nat) : Still s (s.crossDies d e vi) := by
  unfold State.crossDies
  split
  · exact .refl s
  · exact (Still.freeCtr s _).trans (.count _ _ _ _ _)

theorem Still.reach (s : State) (c vi va pa : Nat) : Still s (s.reach c vi va pa) := (Still.crossDies s _ _ _).trans (.touch _ _ _ _)

theorem Still.usePort (s : State) (c n : Nat) : Still s (s.usePort c n) := by
  unfold State.usePort
  split
  · exact .refl s
  · exact .updCore s c _ fun _ => rfl

theorem Still.spend (s : State) (c vi n : Nat) : Still s (s.spend c vi n) := by
  unfold State.spend
  split
  · exact .refl s
  · exact (Still.usePort s c n).trans (.updCore _ c _ fun _ => rfl)

/-! ### Ways of the L1 (R152, R264, R265) -/

section Ways
variable {s t : State} (n : Near s t)
include n
theorem Near.waysUsed (c set : Nat) : t.waysUsed c set = s.waysUsed c set := by
  unfold State.waysUsed
  rw [n.warps]
  congr 1
  funext k w
  rw [n.block]
theorem Near.committedIn (c set : Nat) : t.committedIn c set = s.committedIn c set := by
  unfold State.committedIn
  rw [n.warps]
  congr 1
  funext w
  rw [n.warp, n.blockOf]
theorem Near.roomy {c k : Nat} (h : Roomy s c k) : Roomy t c k := fun set => by
  rw [n.waysUsed, n.committedIn]; exact h set
end Ways

/-- Where dirty copies leave a way, the way that a set frees is a clean copy's. -/
theorem Still.makeWay {s : State} {c : Nat} (h : Roomy s c 1) (set : Nat) : Still s (s.makeWay c set) := by
  unfold State.makeWay
  split
  · exact .refl s
  · next hf =>
    split
    · exact .updCore s c _ fun _ => rfl
    · next hn =>
      exfalso
      have h1 : ((s.core c).clean.filter fun l => l1Set l.line == set) = [] := List.getLast?_eq_none_iff.mp hn
      have h2 := h set
      simp only [State.waysFull, h1, List.length_nil, Nat.add_zero, Bool.not_eq_eq_eq_not, Bool.not_true, decide_eq_false_iff_not,
        Nat.not_le] at hf
      omega

theorem Still.fillClean {s : State} {w : Nat} (h : Roomy s (s.blockOf w).core 1) (line : Nat) : Still s (s.fillClean w line) := by
  unfold State.fillClean
  dsimp only
  have h1 := (Still.count s (s.warp w).vi unitCore 16 1).trans (Still.updCore (s.count (s.warp w).vi unitCore 16 1) (s.blockOf w).core
    (fun k => { k with clean := k.clean.filter fun x => !(x.vi == (s.warp w).vi && x.line == line) }) fun _ => rfl)
  have h2 := h1.trans (Still.makeWay (h1.near.roomy h) (l1Set line))
  split
  · exact h2
  · exact h2.trans (.updCore _ _ _ fun _ => rfl)

theorem Still.register (s : State) (w line : Nat) (wr : Bool) (f : CleanLine → CleanLine) : Still s (s.register w line wr f) :=
  .updCore s _ _ fun _ => rfl
theorem Still.registerRead (s : State) (w line : Nat) : Still s (s.registerRead w line) := .register s w line false _

theorem Still.keepXlat (s : State) (c die : Nat) (e : TlbEntry) : Still s (s.keepXlat c die e) :=
  (Still.updCore s c _ fun _ => rfl).trans (.walk _ _)

theorem Still.translate (s : State) (c vi va : Nat) (u : Use) (sysOk : Bool) : Still s (s.translate c vi va u sysOk).2 := by
  unfold State.translate
  split
  · exact .refl s
  · dsimp only
    have h : ∀ b : Bool, Still s (if b then { s with freeCtr := s.freeCtr + 1 } else s) := fun b => by
      split
      · exact .freeCtr s _
      · exact .refl s
    split
    · exact h _
    · have k : ∀ (b b' : Bool) (e : TlbEntry) (n : Nat), Still s ((if b' = true then (if b = true then { s with freeCtr := s.freeCtr + 1 } else s)
          else (if b = true then { s with freeCtr := s.freeCtr + 1 } else s).usePort c n).keepXlat c (c / Config.dieCores) e) := fun b b' e n => by
        have hb := h b
        generalize (if b = true then { s with freeCtr := s.freeCtr + 1 } else s) = v at hb ⊢
        refine hb.trans (Still.trans ?_ (.keepXlat _ _ _ _))
        split
        · exact .refl v
        · exact .usePort v _ _
      split
      · exact k _ _ _ _
      · exact h _

theorem Still.lookGlobal (s : State) (w : Nat) (y : Nat × Bool) (va n : Nat) (u : Use) (sysOk : Bool) :
    Still s (s.lookGlobal w y va n u sysOk).2 := by
  unfold State.lookGlobal
  split
  · exact .refl s
  · exact .translate s _ _ _ _ _

theorem Still.lookAll (s : State) (xs : List (Nat × Bool)) (f : State → Nat × Bool → Look × State) (h : ∀ s y, Still s (f s y).2) :
    Still s (s.lookAll xs f).2 := by
  unfold State.lookAll
  have : ∀ (acc : List Look × State), Still s acc.2 → Still s (xs.foldl (fun (acc : List Look × State) y =>
      ((acc.1 ++ [(f acc.2 y).1], (f acc.2 y).2) : List Look × State)) acc).2 := by
    induction xs with
    | nil => intro acc h; exact h
    | cons y xs ih => intro acc ha; exact ih _ (ha.trans (h _ _))
  exact this ([], s) (.refl s)

theorem Still.blockCore {s t : State} (a : Still s t) (w : Nat) : (t.blockOf w).core = (s.blockOf w).core := a.near.coreNo w

theorem Still.fillCleans {s : State} {w : Nat} (h : Roomy s (s.blockOf w).core 1) (ls : List Nat) :
    Still s (ls.foldl (fun (s : State) l => s.fillClean w l) s) := by
  induction ls generalizing s with
  | nil => exact .refl s
  | cons l ls ih =>
    have h1 := Still.fillClean h l
    refine h1.trans (ih ?_)
    rw [h1.blockCore]
    exact h1.near.roomy h

/-- What a data load does beside its warp costs no byte, where clean copies can make room for those that it fills. -/
theorem Still.loadEffects {s : State} {w : Nat} (h : Roomy s (s.blockOf w).core 1) (vps : List (Nat × Nat)) (nt : Bool) : Still s (s.loadEffects w vps nt) := by
  unfold State.loadEffects
  dsimp only
  have h1 := (Still.spend s (s.blockOf w).core (s.warp w).vi
    (s.askedLines w (vps.map Prod.snd) (s.markWords w (vps.map Prod.snd))).length).trans
    (Still.foldl (fun (s_1 : State) l => s_1.reach (s.blockOf w).core (s.warp w).vi (((vps.find? fun x => x.2 / 64 == l).map Prod.fst).getD 0) (64 * l))
      (fun s l => Still.reach s _ _ _ _) (s.askedLines w (vps.map Prod.snd) (s.markWords w (vps.map Prod.snd))) _)
  refine Still.trans ?_ (Still.foldl _ (fun s l => ?_) _ _)
  · generalize List.foldl (fun (s_1 : State) l => s_1.reach (s.blockOf w).core (s.warp w).vi _ _) _ _ = u at h1 ⊢
    have h2 : Still s (if u.secondary w = true then u else
        u.recordWords (s.warp w).vi (s.access w AccClass.data false) (s.markWords w (vps.map Prod.snd))) := by
      split
      · exact h1
      · exact h1.trans (.recordWords _ _ _ _)
    split
    · exact h2
    · refine h2.trans (Still.fillCleans ?_ _)
      rw [h2.blockCore]
      exact h2.near.roomy h
  · split
    · exact .registerRead s w l
    · exact .refl s

/-! ### A word whose effects reach beside its warp -/

/-! ### The same bytes -/

theorem SameBytes.trans {s t u : State} (a : SameBytes s t) (b : SameBytes t u) : SameBytes s u :=
  ⟨fun x => (b.1 x).trans (a.1 x), fun x o => (b.2 x o).trans (a.2 x o)⟩
theorem SameBytes.symm {s t : State} (a : SameBytes s t) : SameBytes t s := ⟨fun x => (a.1 x).symm, fun x o => (a.2 x o).symm⟩

theorem sameBytes_of {s t : State} (m : t.mem = s.mem) (b : ∀ k, t.block k = s.block k) (c : ∀ k, (t.core k).frames = (s.core k).frames)
    (v : ∀ k, (t.vi k).slots = (s.vi k).slots) (g : ∀ k, (t.vi k).cfg = (s.vi k).cfg) : SameBytes s t := by
  refine ⟨fun x => by rw [m], fun k o => ?_⟩
  unfold State.spByte State.page State.readSlot State.slotAt State.spEntry
  rw [m, b, c, v, g]

theorem OneWarp.bytes {s t : State} {w n k : Nat} {φ : Warp → Warp} (o : OneWarp s t w n k φ) : SameBytes s t :=
  sameBytes_of o.mem o.block (fun c => by rw [o.core]) (fun c => by rw [o.vis]) fun c => by rw [o.vis]

/-- [v] of interface [k] after one interface is changed. -/
theorem State.updVi_field {α : Type} (s : State) (v : Nat) (f : Vi → Vi) (P : Vi → α) (k : Nat) (hv : v < s.vis.length) :
    P ((s.updVi v f).vi k) = if k = v then P (f (s.vi v)) else P (s.vi k) := by
  by_cases e : k = v
  · subst e; rw [if_pos rfl, State.updVi_vi_same hv]
  · rw [if_neg e, State.updVi_vi_other e]

theorem State.updVi_keeps {α : Type} (s : State) (v : Nat) (f : Vi → Vi) (P : Vi → α) (h : ∀ y, P (f y) = P y) (k : Nat) :
    P ((s.updVi v f).vi k) = P (s.vi k) := by
  by_cases e : k = v
  · subst e
    by_cases hl : k < s.vis.length
    · rw [State.updVi_vi_same hl]; exact h _
    · have : (s.updVi k f).vi k = s.vi k := by
        unfold State.updVi State.vi
        simp [List.getD_eq_getElem?_getD, hl]
      rw [this]
  · rw [State.updVi_vi_other e]

/-! ### A launch that runs live (R401, R408, R412, R445) -/

theorem live_forward {s : State} {w : Nat} (h : (s.launchOf w).rdnt = false) (ws : Writes) : s.forward w ws = s := by
  unfold State.forward; simp [h]

theorem live_performed {s : State} {w : Nat} (h : Live s w) {l : Nat} (o : LogOp) (hl : l = (s.warp w).launch) : s.logPerformed l o = s := by
  subst hl
  have h1 := h.recording
  have h2 := h.replaying
  unfold State.launchOf at h1 h2
  unfold State.logPerformed
  simp [h1, h2]

theorem live_logged {s : State} {w : Nat} (h : Live s w) (l b i src k n v : Nat) (hl : l = (s.warp w).launch) :
    s.loggedValue l b i src k n v = (v, s) := by
  have h2 := h.replaying
  unfold State.loggedValue
  subst hl
  unfold State.launchOf at h2
  simp [h2, live_performed h]

theorem Live.begun {s : State} {w : Nat} (h : Live s w) (hw : w < s.warps.length) : Live (s.begin_ w) w := by
  have sr := s.begin_reads hw
  have e : (s.begin_ w).launchOf w = s.launchOf w := by simp [State.launchOf, State.launch, sr.launch, sr.launches]
  have e2 : (s.begin_ w).blockOf w = s.blockOf w := by simp [State.blockOf, State.block, sr.block, sr.blocks]
  exact ⟨by rw [e]; exact h.rdnt, by rw [e]; exact h.det, by rw [e]; exact h.recording, by rw [e]; exact h.replaying,
    by unfold State.secondary; rw [e2]; exact h.primary⟩

theorem Live.near {s t : State} {w : Nat} (h : Live s w) (n : Near s t) : Live t w :=
  ⟨by rw [n.launchOf]; exact h.rdnt, by rw [n.launchOf]; exact h.det, by rw [n.launchOf]; exact h.recording,
    by rw [n.launchOf]; exact h.replaying, by rw [n.secondary]; exact h.primary⟩

/-- [u] is [s] after a word has changed its warp by [φ], and what the memory system keeps. -/
def Ran (s u : State) (w k : Nat) (φ : Warp → Warp) : Prop := ∃ m, Near s m ∧ OneWarp m u w 0 k φ

theorem Ran.of_one {s u : State} {w k : Nat} {φ : Warp → Warp} (h : OneWarp s u w 0 k φ) : Ran s u w k φ := ⟨s, .refl s, h⟩

theorem Ran.begun {s : State} {w : Nat} (h : w < s.warps.length) : Ran s (s.begin_ w) w 0 fun x => x.begun s.devTime := .of_one (s.begin_small h)

theorem Ran.near {s u v : State} {w k : Nat} {φ : Warp → Warp} (h : Ran s u w k φ) (n : Near u v) : Ran s v w k φ := by
  obtain ⟨m, a, o⟩ := h
  refine ⟨{ v with warps := m.warps, recs := m.recs, nextId := m.nextId, clock := m.clock }, a.trans ⟨?_, fun c => ?_, ?_, fun c => ?_, fun i => ?_, fun b => ?_⟩,
    ⟨?_, ?_, ?_, ?_, fun _ => rfl, ?_, ⟨[], by simp⟩⟩⟩
  · have h1 := n.rest
    rw [o.rest] at h1
    conv_lhs => rw [h1]
  · show (v.core c).matq.map _ = _
    rw [n.mats, o.core]
  · show v.blocks.length = _
    rw [n.size, o.blocks]
  · show v.core c = _
    rw [n.core, o.core]; rfl
  · show v.vi i = _
    rw [n.vi, o.vis]; rfl
  · show v.block b = _
    rw [n.block, o.block]; rfl
  · have h1 := n.rest
    have h2 := o.clock
    have h3 : u.nextId = m.nextId + k := by rw [o.rest]
    conv_lhs => rw [h1]
    simp only [h2, h3]
    conv_rhs => rw [h1]
  · rw [n.warps]; exact o.size
  · intro i hi; rw [n.warp]; exact o.others i hi
  · rw [n.warp]; exact o.warp
  · obtain ⟨rs, h⟩ := o.recs
    exact ⟨rs, by rw [n.recs]; exact h⟩

theorem Ran.upd {s u : State} {w k : Nat} {φ : Warp → Warp} (h : Ran s u w k φ) (hw : w < s.warps.length) (ψ : Warp → Warp) :
    Ran s (u.updWarp w ψ) w k (ψ ∘ φ) := by
  obtain ⟨m, a, o⟩ := h
  exact ⟨m, a, o.trans (OneWarp.upd u ψ (by rw [o.size, a.warps]; exact hw))⟩

theorem Ran.one {s u v : State} {w k j : Nat} {φ ψ : Warp → Warp} (h : Ran s u w k φ) (o' : OneWarp u v w 0 j ψ) : Ran s v w (k + j) (ψ ∘ φ) := by
  obtain ⟨m, a, o⟩ := h
  exact ⟨m, a, o.trans o'⟩

/-- The end of a word whose effects reach beside its warp. -/
theorem Ran.finish {s u : State} {x : Issue} {f : Foot} {φ g : Warp → Warp} {k : Nat} {bound : Bool} (c : Calm s x f) (r : Ran s u x.w k φ)
    (hA : ActedOn φ g (s.warp x.w) s.devTime (Alone s x f ∨ bound = true)) (hg : Mild g (s.warp x.w))
    (hf : (φ (s.warp x.w)).fpstat = (g (s.warp x.w)).fpstat) (hd : (φ (s.warp x.w)).draws = (s.warp x.w).draws)
    (full : List Nat) (ms : List Move) (hB : bound = true → Fresh s x.w ∧ (s.warp x.w).older = none) (dst : Nat → Nat)
    (hm : ∀ l, l < 32 → bit x.mask l = true → bit (s.warp x.w).live l = true →
      ∃ m, landing l ms = some m ∧ m.pc = dst l ∧ m.st = .ready ∧ m.on = .none) (vec : Bool) {t : State} (ht : t = u.finish x f full ms bound) :
    ∃ m, Near s m ∧ OneWarp m u x.w 0 k φ ∧ m.nextId = s.nextId ∧ t.nextId = s.nextId + k ∧
      Apart m t x (Alone s x f ∨ bound = true) g ∧ (bound = false → Acts m t x f vec [] 0 0 g dst) ∧
      (t.warp x.w).vregs = (φ (s.warp x.w)).vregs ∧ (t.warp x.w).sregs = (φ (s.warp x.w)).sregs ∧
      (t.warp x.w).preds = (φ (s.warp x.w)).preds ∧ (t.warp x.w).pend = (φ (s.warp x.w)).pend ∧ Lands m t x dst ∧
      (¬ (Alone s x f ∨ bound = true) → (t.warp x.w).region = ((φ (s.warp x.w)).track x f full).region) ∧
      (¬ (Alone s x f ∨ bound = true) → (t.warp x.w).pct = (((φ (s.warp x.w)).track x f full).proceed x ms).pct) := by
  subst ht
  obtain ⟨m, n, o⟩ := r
  have hw := n.warp x.w
  have hal := n.alone x f
  have c' := n.calm c
  obtain ⟨ψ, o', ap, g1, g2, g3, g4, g5, g6, g7, g8, g9⟩ := State.finish_calm (bound := bound) (s := m) (g := g) (φ := φ) c' o
    (by rw [hw, n.devTime, hal]; exact hA) (by rw [hw]; exact hg) full ms
    (fun h => by rw [hw]; exact ⟨n.fresh (hB h).1, (hB h).2⟩)
  rw [hal] at ap g8 g9
  have la : Lands m (u.finish x f full ms bound) x dst := by
    intro l h1 h2 h3
    rw [hw] at h3
    obtain ⟨mv, m1, m2, m3, m4⟩ := hm l h1 h2 h3
    rw [o'.warp, ← m2]; exact g7 l mv (by rw [hw]; exact h3) m1 m3 m4
  rw [hw] at g1 g2 g3 g4 g5 g6 g8 g9
  have ow := o'.warp
  rw [hw] at ow
  refine ⟨m, n, o, n.nextId, by rw [o'.rest]; show m.nextId + k = _; rw [n.nextId], ap, fun hb => ?_, by rw [ow, g1], by rw [ow, g2], by rw [ow, g3], by rw [ow, g6], la,
    fun h => by rw [ow]; exact g9 h, fun h => by rw [ow]; exact g8 h⟩
  subst hb
  refine ⟨fun j => ?_, fun l => ?_, la, ?_⟩
  · rw [ow, g4, hf, hw]; simp
  · rw [ow, g5, hd, hw]; simp
  · rw [hal]; simpa using ap

/-- Such a word with its results written. -/
theorem Ran.gives {s u : State} {x : Issue} {f : Foot} {φ g : Warp → Warp} {k : Nat} (c : Calm s x f) (r : Ran s u x.w k φ)
    (hA : ActedOn φ g (s.warp x.w) s.devTime (Alone s x f ∨ false = true)) (hg : Mild g (s.warp x.w))
    (hf : (φ (s.warp x.w)).fpstat = (g (s.warp x.w)).fpstat) (hd : (φ (s.warp x.w)).draws = (s.warp x.w).draws)
    {ws : Writes} {ds : List Dest} {p : Option PDest} (hw : WritesOf ws ds p)
    (hv : (φ (s.warp x.w)).vregs = ((s.warp x.w).apply ws).vregs) (hs : (φ (s.warp x.w)).sregs = ((s.warp x.w).apply ws).sregs)
    (hp : (φ (s.warp x.w)).preds = ((s.warp x.w).apply ws).preds) (he : (φ (s.warp x.w)).pend = (s.warp x.w).pend) (hk : k = 0)
    (full : List Nat) (ms : List Move) (dst : Nat → Nat)
    (hm : ∀ l, l < 32 → bit x.mask l = true → bit (s.warp x.w).live l = true →
      ∃ m, landing l ms = some m ∧ m.pc = dst l ∧ m.st = .ready ∧ m.on = .none) (vec : Bool) {t : State} (ht : t = u.finish x f full ms false) :
    ∃ m, Near s m ∧ OneWarp m u x.w 0 k φ ∧ Gives m t x f vec ds p [] 0 0 g dst ∧
      (¬ Alone s x f → (t.warp x.w).region = ((φ (s.warp x.w)).track x f full).region) := by
  obtain ⟨m, n, sb, mi, ni, -, ac, v, sr, pr, pe, la, rg, -⟩ := r.finish (bound := false) c hA hg hf hd full ms (by simp) dst hm vec ht
  refine ⟨m, n, sb, { toActs := ac rfl, regs := ⟨?_, ?_⟩, preds := ?_, pend := ⟨?_, ?_⟩ }, fun h => rg (by simpa using h)⟩
  · intro q l hl
    rw [n.warp, ← (hw (s.warp x.w)).1.v q l hl]
    unfold Warp.v; rw [v, hv]
  · intro q
    rw [n.warp, ← (hw (s.warp x.w)).1.s q]
    unfold Warp.s; rw [sr, hs]
  · intro q l hl
    have h := (hw (s.warp x.w)).2 q l hl
    rw [n.warp, ← h]
    unfold Warp.p; rw [pr, hp]
  · rw [pe, he, n.warp]
  · rw [ni, mi, hk]; rfl

/-- Such a word with its results pending. -/
theorem Ran.pends {s u : State} {x : Issue} {f : Foot} {φ g : Warp → Warp} {k : Nat} (c : Calm s x f) (r : Ran s u x.w k φ)
    (hA : ActedOn φ g (s.warp x.w) s.devTime (Alone s x f ∨ false = true)) (hg : Mild g (s.warp x.w))
    (hf : (φ (s.warp x.w)).fpstat = (g (s.warp x.w)).fpstat) (hd : (φ (s.warp x.w)).draws = (s.warp x.w).draws)
    {ws : Writes} {ds : List Dest} {p : Option PDest} (hw : WritesOf ws ds p)
    (hv : (φ (s.warp x.w)).vregs = (s.warp x.w).vregs) (hs : (φ (s.warp x.w)).sregs = (s.warp x.w).sregs)
    (hp : (φ (s.warp x.w)).preds = (s.warp x.w).preds) {e : Pend} (he : (φ (s.warp x.w)).pend = (s.warp x.w).pend ++ [e])
    (e1 : e.ready = true) (e2 : e.regs = f.writes) (e3 : e.writes = ws)
    (full : List Nat) (vec : Bool) {t : State} (ht : t = u.finish x f full x.next false) :
    ∃ m, Near s m ∧ OneWarp m u x.w 0 k φ ∧ Pends m t x f vec ds p [] 0 0 g ∧
      (¬ Alone s x f → (t.warp x.w).region = ((φ (s.warp x.w)).track x f full).region) := by
  obtain ⟨m, n, sb, mi, ni, -, ac, v, sr, pr, pe, la, rg, -⟩ := r.finish (bound := false) c hA hg hf hd full x.next (by simp) _ (lands_next _) vec ht
  refine ⟨m, n, sb, { toActs := ac rfl, regs := ⟨?_, ?_⟩, preds := ?_, pend := ⟨e, ?_, e1, e2, ?_⟩ }, fun h => rg (by simpa using h)⟩
  · intro q l _
    unfold Warp.v; rw [v, hv, n.warp]; rfl
  · intro q
    unfold Warp.s; rw [sr, hs, n.warp]; rfl
  · intro q l _
    show (t.warp x.w).p q l = (m.warp x.w).p q l
    unfold Warp.p; rw [pr, hp, n.warp]
  · rw [pe, he, n.warp]
  · intro a; rw [e3]; exact hw a

/-- A word with registers written at once and effects beside its warp. -/
theorem beside_gives {s u : State} {x : Issue} {f : Foot} (c : Calm s x f) (n : Near (s.begin_ x.w) u)
    (h : Warp → Warp) (hs : ∀ w, h w = { w with fbuf := (h w).fbuf }) (hb : ∀ w w' : Warp, (h { w with firstIssue := w'.firstIssue, region := w'.region }) =
      { h w with firstIssue := w'.firstIssue, region := w'.region })
    (ws : Writes) {ds : List Dest} {p : Option PDest} (hw : WritesOf ws ds p) (full : List Nat) (vec : Bool) :
    ∃ m, Near s m ∧ OneWarp m (u.updWarp x.w fun w => (h w).apply ws) x.w 0 0 (fun w => (h (w.begun s.devTime)).apply ws) ∧
      Gives m ((u.updWarp x.w fun w => (h w).apply ws).finish x f full x.next false) x f vec ds p [] 0 0 h := by
  have r := ((Ran.begun c.warp).near n).upd c.warp fun w => (h w).apply ws
  have br := (s.warp x.w).begun_reads s.devTime
  have e0 : h ((s.warp x.w).begun s.devTime) = { h (s.warp x.w) with
      firstIssue := ((s.warp x.w).begun s.devTime).firstIssue, region := ((s.warp x.w).begun s.devTime).region } := by
    rw [← hb, ← br]
  have ash := Warp.apply_shape (h ((s.warp x.w).begun s.devTime)) ws
  have hv : ∀ (P : Warp → Sparse Word), (P = Warp.vregs ∨ P = Warp.sregs) → P ((h ((s.warp x.w).begun s.devTime)).apply ws) = P ((s.warp x.w).apply ws) := by
    rintro P (rfl | rfl)
    · rw [Warp.apply_vregs, Warp.apply_vregs, e0, hs]
    · rw [Warp.apply_sregs, Warp.apply_sregs, e0, hs]
  have hp : ((h ((s.warp x.w).begun s.devTime)).apply ws).preds = ((s.warp x.w).apply ws).preds := by
    have : ∀ (ps : List (Nat × Nat × Nat)) (a b : Warp), a.preds = b.preds →
        (ps.foldl (fun a x => a.setP x.1 x.2.1 x.2.2) a).preds = (ps.foldl (fun a x => a.setP x.1 x.2.1 x.2.2) b).preds := by
      intro ps
      induction ps with
      | nil => intro a b h; exact h
      | cons q ps ih => intro a b h; exact ih _ _ (by dsimp only [Warp.setP]; rw [h])
    unfold Warp.apply
    apply this
    dsimp only
    rw [e0, hs]
  obtain ⟨m, m1, m2, m3, -⟩ := r.gives c (g := h) (by
      apply ActedOn.plain
      dsimp only [Function.comp_apply]
      rw [ash, e0]) (by constructor <;> rw [hs])
    (by dsimp only [Function.comp_apply]; rw [ash, e0]) (by dsimp only [Function.comp_apply]; rw [ash, e0, hs]) hw (hv _ (.inl rfl)) (hv _ (.inr rfl)) hp
    (by dsimp only [Function.comp_apply]; rw [ash, e0, hs]) rfl full x.next _ (lands_next _) vec rfl
  exact ⟨m, m1, m2, m3⟩

end Sys2Proof.Machine
end

