-- ==== Sys2Proof/Laws/PerInstr.lean ====
section
/-!
SUPPORT. The encoder and the decoder, constructor by constructor: the fields of the word that `encodeNat` writes are the fields
that the decoder reads (spec/06 R98 to R117 and the encoding tables of the chapters). One lemma per constructor of `Instr`; an
event of spec/95 has no word, so its lemma says nothing of it.
-/

namespace Sys2Proof.Laws.RoundTrip
open Sys2Proof

/-- The instruction that the fields of a word name, before the checks of R126 on its operands. -/
def fields (n : Nat) : Option Instr := if bit n 63 then decPair n else decFields n

/-- The fields of the word of a well-formed instruction name that instruction, and its opcode is not reserved. -/
def Statement (i : Instr) : Prop :=
  ∀ n, encodeNat i = some n → i.wf = true →
    n < 2 ^ 64 ∧ fields n = some i ∧ (bit n 63 = false → opReserved (bits n 62 56) = false)

theorem reg_lt (r : Reg) : r.num < 2048 := by
  rcases r with ⟨n, h⟩ | ⟨n, h⟩ | x | ⟨k, h⟩
  · show n < 2048; omega
  · show 1536 + n < 2048; omega
  · cases x <;> decide
  · show 1920 + k < 2048; omega
theorem base_lt (r : MemBase) : r.num < 1024 := by
  rcases r with ⟨n, h⟩ | ⟨n, h⟩ | _
  · show n < 1024; omega
  · show 768 + n < 1024; omega
  · decide
theorem ty_lt (t : Ty) : t.code < 16 := by cases t <;> decide
theorem reg_dec (r : Reg) : decReg r.num = some r := by
  rcases r with ⟨n, h⟩ | ⟨n, h⟩ | x | ⟨k, h⟩
  · show decReg n = _; unfold decReg; rw [dif_pos h]
  · show decReg (1536 + n) = _; unfold decReg
    rw [dif_neg (by omega), dif_pos (by omega)]
    simp only [Nat.add_sub_cancel_left]
  · cases x <;> rfl
  · show decReg (1920 + k) = _; unfold decReg
    rw [dif_neg (by omega), dif_neg (by omega), if_neg (by omega), if_neg (by omega), dif_pos (by omega)]
    simp only [Nat.add_sub_cancel_left]
theorem base_dec (r : MemBase) : decBase r.num = some r := by
  rcases r with ⟨n, h⟩ | ⟨n, h⟩ | _
  · show decBase n = _; unfold decBase; rw [dif_pos h]
  · show decBase (768 + n) = _; unfold decBase
    rw [dif_neg (by omega), dif_pos (by omega)]
    simp only [Nat.add_sub_cancel_left]
  · rfl
theorem ty_dec (t : Ty) : decTy t.code = some t := by cases t <;> rfl
theorem rnd_lt (x : Rnd) : x.code < 7 := by cases x <;> decide
theorem rnd_dec (x : Rnd) : decRnd x.code = some x := by cases x <;> rfl
theorem size_lt (x : Size) : x.code < 8 := by cases x <;> decide
theorem size_dec (x : Size) : decSize x.code = some x := by cases x <;> rfl
theorem scope_lt (x : Scope) : x.code < 4 := by cases x <;> decide
theorem scope_dec (x : Scope) : decScope x.code = some x := by cases x <;> rfl
theorem cond_lt (x : Cond) : x.code < 6 := by cases x <;> decide
theorem cond_dec (x : Cond) : decCond x.code = some x := by cases x <;> rfl
theorem fcond_lt (x : FCond) : x.code < 8 := by cases x <;> decide
theorem fcond_dec (x : FCond) : decFCond x.code = some x := by cases x <;> rfl
theorem comb_lt (x : Comb) : x.code < 3 := by cases x <;> decide
theorem comb_dec (x : Comb) : decComb x.code = some x := by cases x <;> rfl
theorem carry_lt (x : CarryMode) : x.code < 4 := by cases x <;> decide
theorem carry_dec (x : CarryMode) : decCarry x.code = some x := by cases x <;> rfl
theorem red_lt (x : RedOp) : x.code < 6 := by cases x <;> decide
theorem red_dec (x : RedOp) : decRedOp x.code = some x := by cases x <;> rfl
theorem shfl_lt (x : ShflMode) : x.code < 4 := by cases x <;> decide
theorem shfl_dec (x : ShflMode) : decShfl x.code = some x := by cases x <;> rfl
theorem quad_lt (x : QuadMode) : x.code < 3 := by cases x <;> decide
theorem quad_dec (x : QuadMode) : decQuad x.code = some x := by cases x <;> rfl
theorem mask_lt (x : MaskKind) : x.code < 6 := by cases x <;> decide
theorem mask_dec (x : MaskKind) : decMask x.code = some x := by cases x <;> rfl
theorem aop_lt (x : AtomOp) : x.code < 10 := by cases x <;> decide
theorem aop_dec (x : AtomOp) : decAtomOp x.code = some x := by cases x <;> rfl
theorem aty_lt (x : AtomTy) : x.code < 8 := by cases x <;> decide
theorem aty_dec (x : AtomTy) : decAtomTy x.code = some x := by cases x <;> rfl
theorem rt_lt (x : MaccRt) : x.code < 3 := by cases x <;> decide
theorem rt_dec (x : MaccRt) : decRt x.code = some x := by cases x <;> rfl
theorem slot_lt (x : SlotOp) : x.code < 30 := by cases x <;> decide
theorem slot_dec (x : SlotOp) : decSlotOp x.code = some x := by cases x <;> rfl
theorem spty_lt (x : AtomTy) : x.spCode < 4 := by cases x <;> decide
theorem bits_eq {x v hi lo : Nat} (k : Nat) (h : x / 2 ^ lo % 2 ^ k = v) (hk : hi + 1 - lo = k) : bits x hi lo = v := by
  subst hk; unfold bits; rw [Nat.shiftRight_eq_div_pow]; exact h
theorem bit_zero {x n : Nat} (h : bits x n n = 0) : bit x n = false := by
  simp only [bits, Nat.add_sub_cancel_left, pow_one] at h; simp [bit, h]
theorem bit_b2n {x n : Nat} {b : Bool} (h : bits x n n = b2n b) : bit x n = b := by
  simp only [bits, Nat.add_sub_cancel_left, pow_one] at h; simp [bit, h]; cases b <;> rfl
theorem b2n_lt (b : Bool) : b2n b < 2 := by cases b <;> decide

theorem full_lt {op body : Nat} {g : Guard} (ho : op < 128) (hb : body < 2 ^ 52) : encFull op g body < 2 ^ 63 := by
  have := g.p.isLt; have := b2n_lt g.neg; unfold encFull; omega
theorem full_op {op body : Nat} {g : Guard} (ho : op < 128) (hb : body < 2 ^ 52) : bits (encFull op g body) 62 56 = op := by
  have := g.p.isLt; have := b2n_lt g.neg; unfold encFull bits; rw [Nat.shiftRight_eq_div_pow]; omega
theorem full_low {op body hi lo : Nat} {g : Guard} (hb : body < 2 ^ 52) (hh : hi < 52) (hl : lo ≤ hi) :
    bits (encFull op g body) hi lo = bits body hi lo := by
  have hx : encFull op g body % 2 ^ 52 = body := by
    unfold encFull; omega
  unfold bits
  apply Nat.eq_of_testBit_eq
  intro i
  simp only [Nat.testBit_mod_two_pow, Nat.testBit_shiftRight]
  by_cases h : i < hi + 1 - lo
  · have : (encFull op g body % 2 ^ 52).testBit (lo + i) = (encFull op g body).testBit (lo + i) := by
      rw [Nat.testBit_mod_two_pow]; simp; omega
    rw [← this, hx]
  · simp [h]
theorem full_bit {op body n : Nat} {g : Guard} (hb : body < 2 ^ 52) (hh : n < 52) :
    bit (encFull op g body) n = bit body n := by
  have := full_low (op := op) (g := g) hb hh (le_refl n)
  simp only [bits, Nat.add_sub_cancel_left, pow_one] at this
  simp [bit, this]
theorem full_guard {op body : Nat} {g : Guard} (hb : body < 2 ^ 52) : decGuard (encFull op g body) = g := by
  obtain ⟨p, n⟩ := g
  have := p.isLt
  have h1 : bits (encFull op ⟨p, n⟩ body) 55 53 = p.val := by
    have := b2n_lt n; unfold encFull bits; rw [Nat.shiftRight_eq_div_pow]; simp only; omega
  have h2 : bit (encFull op ⟨p, n⟩ body) 52 = n := by
    unfold encFull bit; rw [Nat.shiftRight_eq_div_pow]
    cases n <;> simp [b2n] <;> omega
  simp [decGuard, h1, h2, fin]
/-- What a full-format word shows the decoder. -/
theorem full_word {op body n : Nat} {g : Guard} (e : encFull op g body = n) (ho : op < 128) (hb : body < 2 ^ 52) :
    n < 2 ^ 63 ∧ bits n 62 56 = op ∧ decGuard n = g ∧
    (∀ hi lo, hi < 52 → lo ≤ hi → bits n hi lo = bits body hi lo) ∧ (∀ k, k < 52 → bit n k = bit body k) := by
  subst e
  exact ⟨full_lt ho hb, full_op ho hb, full_guard hb, fun _ _ h l => full_low hb h l, fun _ h => full_bit hb h⟩

/-- The statement of a full-format word from its fields. -/
theorem of_fields {n op : Nat} {i : Instr} (hlt : n < 2 ^ 63) (ho : bits n 62 56 = op) (hr : opReserved op = false)
    (hf : decFields n = some i) : n < 2 ^ 64 ∧ fields n = some i ∧ (bit n 63 = false → opReserved (bits n 62 56) = false) := by
  have h63 : bit n 63 = false := by
    unfold bit; rw [Nat.shiftRight_eq_div_pow, Nat.div_eq_of_lt hlt]; rfl
  refine ⟨by omega, ?_, fun _ => ho ▸ hr⟩
  simp only [fields, h63]
  exact hf

section Groups
variable {n op : Nat} (h : bits n 62 56 = op)
include h
theorem in_control (b : op < 0x18) : decFields n = decControl op n := by
  simp only [decFields, h]; split_ifs <;> first | rfl | omega
theorem in_integer (a : 0x18 ≤ op) (b : op < 0x38) : decFields n = decInteger op n := by
  simp only [decFields, h]; split_ifs <;> first | rfl | omega
theorem in_float (a : 0x38 ≤ op) (b : op < 0x50) : decFields n = decFloat op n := by
  simp only [decFields, h]; split_ifs <;> first | rfl | omega
theorem in_convert (a : 0x50 ≤ op) (b : op < 0x58) : decFields n = decConvert op n := by
  simp only [decFields, h]; split_ifs <;> first | rfl | omega
theorem in_lanes (a : 0x58 ≤ op) (b : op < 0x63) : decFields n = decLanes op n := by
  simp only [decFields, h]; split_ifs <;> first | rfl | omega
theorem in_memory (a : 0x63 ≤ op) (b : op < 0x69) : decFields n = decMemory op n := by
  simp only [decFields, h]; split_ifs <;> first | rfl | omega
theorem in_sync (a : 0x69 ≤ op) (b : op < 0x6C) : decFields n = decSync op n := by
  simp only [decFields, h]; split_ifs <;> first | rfl | omega
theorem in_memory2 (a : 0x6C ≤ op) (b : op < 0x6F) : decFields n = decMemory op n := by
  simp only [decFields, h]; split_ifs <;> first | rfl | omega
theorem in_sync2 (a : 0x6F ≤ op) (b : op < 0x76) : decFields n = decSync op n := by
  simp only [decFields, h]; split_ifs <;> first | rfl | omega
theorem in_matrix (a : 0x76 ≤ op) : decFields n = decMatrix op n := by
  simp only [decFields, h]; split_ifs <;> first | rfl | omega
end Groups

/-- What a word of the ALU layout of R107 shows the decoder. -/
theorem alu_word {op d a b t v s c n : Nat} {g : Guard} (e : encFull op g (encAlu d a b t v s c) = n) (ho : op < 128)
    (hd : d < 2048) (ha : a < 2048) (hb : b < 2048) (ht : t < 16) (hv : v < 8) (hs : s < 2) (hc : c < 2048) :
    n < 2 ^ 63 ∧ bits n 62 56 = op ∧ decGuard n = g ∧ bits n 51 41 = d ∧ bits n 40 30 = a ∧ bits n 29 19 = b ∧
    bits n 18 15 = t ∧ bits n 14 12 = v ∧ bits n 11 11 = s ∧ (∀ hi lo, hi < 11 → lo ≤ hi → bits n hi lo = bits c hi lo) ∧
    (∀ k, k < 11 → bit n k = bit c k) ∧ bits n 10 0 = c := by
  have hl : encAlu d a b t v s c < 2 ^ 52 := by unfold encAlu; omega
  obtain ⟨h1, h2, h3, h4, h5⟩ := full_word e ho hl
  have low : ∀ hi lo, hi < 11 → lo ≤ hi → bits (encAlu d a b t v s c) hi lo = bits c hi lo := by
    intro hi lo hh hlo
    have hx : encAlu d a b t v s c % 2 ^ 11 = c := by unfold encAlu; omega
    generalize encAlu d a b t v s c = m at hx
    subst hx
    unfold bits
    apply Nat.eq_of_testBit_eq
    intro i
    simp only [Nat.testBit_mod_two_pow, Nat.testBit_shiftRight]
    by_cases h : i < hi + 1 - lo
    · have : lo + i < 11 := by omega
      simp [h, this]
    · simp [h]
  have low' : ∀ hi lo, hi < 11 → lo ≤ hi → bits n hi lo = bits c hi lo := fun hi lo a b => by
    rw [h4 hi lo (by omega) b, low hi lo a b]
  refine ⟨h1, h2, h3, ?_, ?_, ?_, ?_, ?_, ?_, low', ?_, ?_⟩
  · rw [h4 51 41 (by omega) (by omega)]; unfold encAlu bits; rw [Nat.shiftRight_eq_div_pow]; omega
  · rw [h4 40 30 (by omega) (by omega)]; unfold encAlu bits; rw [Nat.shiftRight_eq_div_pow]; omega
  · rw [h4 29 19 (by omega) (by omega)]; unfold encAlu bits; rw [Nat.shiftRight_eq_div_pow]; omega
  · rw [h4 18 15 (by omega) (by omega)]; unfold encAlu bits; rw [Nat.shiftRight_eq_div_pow]; omega
  · rw [h4 14 12 (by omega) (by omega)]; unfold encAlu bits; rw [Nat.shiftRight_eq_div_pow]; omega
  · rw [h4 11 11 (by omega) (by omega)]; unfold encAlu bits; rw [Nat.shiftRight_eq_div_pow]; omega
  · intro k hk
    have := low' k k hk (le_refl k)
    simp only [bits, Nat.add_sub_cancel_left, pow_one] at this
    simp only [bit, this]
  · rw [low' 10 0 (by omega) (by omega)]; unfold bits; rw [Nat.shiftRight_eq_div_pow]; omega


theorem nop (g) : Statement (.nop g) := by
  intro n he hw
  have he := Option.some.inj he
  obtain ⟨hlt, ho, hg, fc, fk⟩ := full_word he (by decide) (by omega)
  have h1 : bits n 51 0 = 0 := (fc 51 0 (by decide) (by decide)).trans (bits_eq 52 (by omega) rfl)
  clear he
  refine of_fields hlt ho rfl ?_
  rw [in_control ho (by decide)]
  simp [decControl, h1, hg, need]

theorem bra (g off) : Statement (.bra g off) := by
  intro n he hw
  have he := Option.some.inj he
  have := off.isLt
  obtain ⟨hlt, ho, hg, fc, fk⟩ := full_word he (by decide) (by omega)
  have h1 : bits n 29 0 = off.toNat := (fc 29 0 (by decide) (by decide)).trans (bits_eq 30 (by omega) rfl)
  have h2 : bits n 51 30 = 0 := (fc 51 30 (by decide) (by decide)).trans (bits_eq 22 (by omega) rfl)
  clear he
  refine of_fields hlt ho rfl ?_
  rw [in_control ho (by decide)]
  simp [decControl, h1, h2, hg, need]

theorem brx (g a) : Statement (.brx g a) := by
  intro n he hw
  have he := Option.some.inj he
  have := reg_lt a
  obtain ⟨hlt, ho, hg, fc, fk⟩ := full_word he (by decide) (by unfold encOwn; omega)
  have h1 : bits n 29 0 = 0 := (fc 29 0 (by decide) (by decide)).trans (bits_eq 30 (by unfold encOwn; omega) rfl)
  have h2 : bits n 40 30 = a.num := (fc 40 30 (by decide) (by decide)).trans (bits_eq 11 (by unfold encOwn; omega) rfl)
  have h3 : bits n 51 41 = 0 := (fc 51 41 (by decide) (by decide)).trans (bits_eq 11 (by unfold encOwn; omega) rfl)
  clear he
  refine of_fields hlt ho rfl ?_
  rw [in_control ho (by decide)]
  simp [decControl, fD, rA, fA, h1, h2, h3, hg, need, reg_dec]

theorem call (g d off) : Statement (.call g d off) := by
  intro n he hw
  have he := Option.some.inj he
  have := reg_lt d
  have := off.isLt
  obtain ⟨hlt, ho, hg, fc, fk⟩ := full_word he (by decide) (by omega)
  have h1 : bits n 29 0 = off.toNat := (fc 29 0 (by decide) (by decide)).trans (bits_eq 30 (by omega) rfl)
  have h2 : bits n 40 30 = 0 := (fc 40 30 (by decide) (by decide)).trans (bits_eq 11 (by omega) rfl)
  have h3 : bits n 51 41 = d.num := (fc 51 41 (by decide) (by decide)).trans (bits_eq 11 (by omega) rfl)
  clear he
  refine of_fields hlt ho rfl ?_
  rw [in_control ho (by decide)]
  simp [decControl, fA, rD, fD, h1, h2, h3, hg, need, reg_dec]

theorem ret (g a) : Statement (.ret g a) := by
  intro n he hw
  have he := Option.some.inj he
  have := reg_lt a
  obtain ⟨hlt, ho, hg, fc, fk⟩ := full_word he (by decide) (by unfold encOwn; omega)
  have h1 : bits n 29 0 = 0 := (fc 29 0 (by decide) (by decide)).trans (bits_eq 30 (by unfold encOwn; omega) rfl)
  have h2 : bits n 40 30 = a.num := (fc 40 30 (by decide) (by decide)).trans (bits_eq 11 (by unfold encOwn; omega) rfl)
  have h3 : bits n 51 41 = 0 := (fc 51 41 (by decide) (by decide)).trans (bits_eq 11 (by unfold encOwn; omega) rfl)
  clear he
  refine of_fields hlt ho rfl ?_
  rw [in_control ho (by decide)]
  simp [decControl, fD, rA, fA, h1, h2, h3, hg, need, reg_dec]

theorem exit (g) : Statement (.exit g) := by
  intro n he hw
  have he := Option.some.inj he
  obtain ⟨hlt, ho, hg, fc, fk⟩ := full_word he (by decide) (by omega)
  have h1 : bits n 51 0 = 0 := (fc 51 0 (by decide) (by decide)).trans (bits_eq 52 (by omega) rfl)
  clear he
  refine of_fields hlt ho rfl ?_
  rw [in_control ho (by decide)]
  simp [decControl, h1, hg, need]

theorem rcvSet (g b) : Statement (.rcvSet g b) := by
  intro n he hw
  have he := Option.some.inj he
  have := b.isLt
  obtain ⟨hlt, ho, hg, fc, fk⟩ := full_word he (by decide) (by unfold encOwn; omega)
  have h1 : bits n 15 3 = 0 := (fc 15 3 (by decide) (by decide)).trans (bits_eq 13 (by unfold encOwn; omega) rfl)
  have h2 : bits n 18 16 = 0 := (fc 18 16 (by decide) (by decide)).trans (bits_eq 3 (by unfold encOwn; omega) rfl)
  have h3 : bits n 2 0 = b.val := (fc 2 0 (by decide) (by decide)).trans (bits_eq 3 (by unfold encOwn; omega) rfl)
  have h4 : bits n 51 19 = 0 := (fc 51 19 (by decide) (by decide)).trans (bits_eq 33 (by unfold encOwn; omega) rfl)
  clear he
  refine of_fields hlt ho rfl ?_
  rw [in_control ho (by decide)]
  simp [decControl, fV, h1, h2, h3, h4, hg, need, fin]

theorem rcvWait (g b) : Statement (.rcvWait g b) := by
  intro n he hw
  have he := Option.some.inj he
  have := b.isLt
  obtain ⟨hlt, ho, hg, fc, fk⟩ := full_word he (by decide) (by unfold encOwn; omega)
  have h1 : bits n 15 3 = 0 := (fc 15 3 (by decide) (by decide)).trans (bits_eq 13 (by unfold encOwn; omega) rfl)
  have h2 : bits n 18 16 = 1 := (fc 18 16 (by decide) (by decide)).trans (bits_eq 3 (by unfold encOwn; omega) rfl)
  have h3 : bits n 2 0 = b.val := (fc 2 0 (by decide) (by decide)).trans (bits_eq 3 (by unfold encOwn; omega) rfl)
  have h4 : bits n 51 19 = 0 := (fc 51 19 (by decide) (by decide)).trans (bits_eq 33 (by unfold encOwn; omega) rfl)
  clear he
  refine of_fields hlt ho rfl ?_
  rw [in_control ho (by decide)]
  simp [decControl, fV, h1, h2, h3, h4, hg, need, fin]

theorem regionBegin (g) : Statement (.regionBegin g) := by
  intro n he hw
  have he := Option.some.inj he
  obtain ⟨hlt, ho, hg, fc, fk⟩ := full_word he (by decide) (by omega)
  have h1 : bits n 15 0 = 0 := (fc 15 0 (by decide) (by decide)).trans (bits_eq 16 (by omega) rfl)
  have h2 : bits n 18 16 = 0 := (fc 18 16 (by decide) (by decide)).trans (bits_eq 3 (by omega) rfl)
  have h3 : bits n 40 19 = 0 := (fc 40 19 (by decide) (by decide)).trans (bits_eq 22 (by omega) rfl)
  have h4 : bits n 51 41 = 0 := (fc 51 41 (by decide) (by decide)).trans (bits_eq 11 (by omega) rfl)
  clear he
  refine of_fields hlt ho rfl ?_
  rw [in_control ho (by decide)]
  simp [decControl, fD, fV, h1, h2, h3, h4, hg, need]

theorem regionQuery (g d) : Statement (.regionQuery g d) := by
  intro n he hw
  have he := Option.some.inj he
  have := reg_lt d
  obtain ⟨hlt, ho, hg, fc, fk⟩ := full_word he (by decide) (by unfold encOwn; omega)
  have h1 : bits n 15 0 = 0 := (fc 15 0 (by decide) (by decide)).trans (bits_eq 16 (by unfold encOwn; omega) rfl)
  have h2 : bits n 18 16 = 1 := (fc 18 16 (by decide) (by decide)).trans (bits_eq 3 (by unfold encOwn; omega) rfl)
  have h3 : bits n 40 19 = 0 := (fc 40 19 (by decide) (by decide)).trans (bits_eq 22 (by unfold encOwn; omega) rfl)
  have h4 : bits n 51 41 = d.num := (fc 51 41 (by decide) (by decide)).trans (bits_eq 11 (by unfold encOwn; omega) rfl)
  clear he
  refine of_fields hlt ho rfl ?_
  rw [in_control ho (by decide)]
  simp [decControl, fD, fV, rD, h1, h2, h3, h4, hg, need, reg_dec]

theorem wait (g l s c t) : Statement (.wait g l s c t) := by
  intro n he hw
  have he := Option.some.inj he
  have := l.isLt
  have := s.isLt
  have := c.isLt
  have := t.isLt
  obtain ⟨hlt, ho, hg, fc, fk⟩ := full_word he (by decide) (by omega)
  have h1 : bits n 11 8 = s.toNat := (fc 11 8 (by decide) (by decide)).trans (bits_eq 4 (by omega) rfl)
  have h2 : bits n 15 12 = l.toNat := (fc 15 12 (by decide) (by decide)).trans (bits_eq 4 (by omega) rfl)
  have h3 : bits n 3 0 = t.toNat := (fc 3 0 (by decide) (by decide)).trans (bits_eq 4 (by omega) rfl)
  have h4 : bits n 51 16 = 0 := (fc 51 16 (by decide) (by decide)).trans (bits_eq 36 (by omega) rfl)
  have h5 : bits n 7 4 = c.toNat := (fc 7 4 (by decide) (by decide)).trans (bits_eq 4 (by omega) rfl)
  clear he
  refine of_fields hlt ho rfl ?_
  rw [in_control ho (by decide)]
  simp [decControl, h1, h2, h3, h4, h5, hg, need]

theorem trap (g m) : Statement (.trap g m) := by
  intro n he hw
  have he := Option.some.inj he
  have := m.isLt
  obtain ⟨hlt, ho, hg, fc, fk⟩ := full_word he (by decide) (by omega)
  have h1 : bits n 15 0 = m.toNat := (fc 15 0 (by decide) (by decide)).trans (bits_eq 16 (by omega) rfl)
  have h2 : bits n 51 16 = 0 := (fc 51 16 (by decide) (by decide)).trans (bits_eq 36 (by omega) rfl)
  clear he
  refine of_fields hlt ho rfl ?_
  rw [in_control ho (by decide)]
  simp [decControl, h1, h2, hg, need]

theorem brk (g m) : Statement (.brk g m) := by
  intro n he hw
  have he := Option.some.inj he
  have := m.isLt
  obtain ⟨hlt, ho, hg, fc, fk⟩ := full_word he (by decide) (by omega)
  have h1 : bits n 15 0 = m.toNat := (fc 15 0 (by decide) (by decide)).trans (bits_eq 16 (by omega) rfl)
  have h2 : bits n 51 16 = 0 := (fc 51 16 (by decide) (by decide)).trans (bits_eq 36 (by omega) rfl)
  clear he
  refine of_fields hlt ho rfl ?_
  rw [in_control ho (by decide)]
  simp [decControl, h1, h2, hg, need]

theorem trapret (g) : Statement (.trapret g) := by
  intro n he hw
  have he := Option.some.inj he
  obtain ⟨hlt, ho, hg, fc, fk⟩ := full_word he (by decide) (by omega)
  have h1 : bits n 51 0 = 0 := (fc 51 0 (by decide) (by decide)).trans (bits_eq 52 (by omega) rfl)
  clear he
  refine of_fields hlt ho rfl ?_
  rw [in_control ho (by decide)]
  simp [decControl, h1, hg, need]

theorem rinj (g d e) : Statement (.rinj g d e) := by
  intro n he hw
  have he := Option.some.inj he
  have := reg_lt d
  have := e.isLt
  obtain ⟨hlt, ho, hg, fc, fk⟩ := full_word he (by decide) (by unfold encOwn; omega)
  have h1 : bits n 2 0 = e.val := (fc 2 0 (by decide) (by decide)).trans (bits_eq 3 (by unfold encOwn; omega) rfl)
  have h2 : bits n 40 3 = 0 := (fc 40 3 (by decide) (by decide)).trans (bits_eq 38 (by unfold encOwn; omega) rfl)
  have h3 : bits n 51 41 = d.num := (fc 51 41 (by decide) (by decide)).trans (bits_eq 11 (by unfold encOwn; omega) rfl)
  clear he
  refine of_fields hlt ho rfl ?_
  rw [in_control ho (by decide)]
  simp [decControl, rD, fD, h1, h2, h3, hg, need, fin, reg_dec]

theorem sleep (g a) : Statement (.sleep g a) := by
  intro n he hw
  have he := Option.some.inj he
  have := reg_lt a
  obtain ⟨hlt, ho, hg, fc, fk⟩ := full_word he (by decide) (by unfold encOwn; omega)
  have h1 : bits n 29 0 = 0 := (fc 29 0 (by decide) (by decide)).trans (bits_eq 30 (by unfold encOwn; omega) rfl)
  have h2 : bits n 40 30 = a.num := (fc 40 30 (by decide) (by decide)).trans (bits_eq 11 (by unfold encOwn; omega) rfl)
  have h3 : bits n 51 41 = 0 := (fc 51 41 (by decide) (by decide)).trans (bits_eq 11 (by unfold encOwn; omega) rfl)
  clear he
  refine of_fields hlt ho rfl ?_
  rw [in_control ho (by decide)]
  simp [decControl, fD, rA, fA, h1, h2, h3, hg, need, reg_dec]

theorem electBr (g off) : Statement (.electBr g off) := by
  intro n he hw
  have he := Option.some.inj he
  have := off.isLt
  obtain ⟨hlt, ho, hg, fc, fk⟩ := full_word he (by decide) (by omega)
  have h1 : bits n 29 0 = off.toNat := (fc 29 0 (by decide) (by decide)).trans (bits_eq 30 (by omega) rfl)
  have h2 : bits n 51 30 = 0 := (fc 51 30 (by decide) (by decide)).trans (bits_eq 22 (by omega) rfl)
  clear he
  refine of_fields hlt ho rfl ?_
  rw [in_control ho (by decide)]
  simp [decControl, h1, h2, hg, need]

theorem sysRd (g d m) : Statement (.sysRd g d m) := by
  intro n he hw
  have he := Option.some.inj he
  have := reg_lt d
  have := m.isLt
  obtain ⟨hlt, ho, hg, fc, fk⟩ := full_word he (by decide) (by unfold encOwn; omega)
  have h1 : bits n 11 0 = m.toNat := (fc 11 0 (by decide) (by decide)).trans (bits_eq 12 (by unfold encOwn; omega) rfl)
  have h2 : bits n 40 12 = 0 := (fc 40 12 (by decide) (by decide)).trans (bits_eq 29 (by unfold encOwn; omega) rfl)
  have h3 : bits n 51 41 = d.num := (fc 51 41 (by decide) (by decide)).trans (bits_eq 11 (by unfold encOwn; omega) rfl)
  clear he
  refine of_fields hlt ho rfl ?_
  rw [in_control ho (by decide)]
  simp [decControl, rD, fD, h1, h2, h3, hg, need, reg_dec]

theorem sysWr (g m a) : Statement (.sysWr g m a) := by
  intro n he hw
  have he := Option.some.inj he
  have := reg_lt a
  have := m.isLt
  obtain ⟨hlt, ho, hg, fc, fk⟩ := full_word he (by decide) (by unfold encOwn; omega)
  have h1 : bits n 11 0 = m.toNat := (fc 11 0 (by decide) (by decide)).trans (bits_eq 12 (by unfold encOwn; omega) rfl)
  have h2 : bits n 29 12 = 0 := (fc 29 12 (by decide) (by decide)).trans (bits_eq 18 (by unfold encOwn; omega) rfl)
  have h3 : bits n 40 30 = a.num := (fc 40 30 (by decide) (by decide)).trans (bits_eq 11 (by unfold encOwn; omega) rfl)
  have h4 : bits n 51 41 = 0 := (fc 51 41 (by decide) (by decide)).trans (bits_eq 11 (by unfold encOwn; omega) rfl)
  clear he
  refine of_fields hlt ho rfl ?_
  rw [in_control ho (by decide)]
  simp [decControl, fD, rA, fA, h1, h2, h3, h4, hg, need, reg_dec]

theorem clkDev (g d) : Statement (.clkDev g d) := by
  intro n he hw
  have he := Option.some.inj he
  have := reg_lt d
  obtain ⟨hlt, ho, hg, fc, fk⟩ := full_word he (by decide) (by unfold encOwn; omega)
  have h1 : bits n 15 0 = 0 := (fc 15 0 (by decide) (by decide)).trans (bits_eq 16 (by unfold encOwn; omega) rfl)
  have h2 : bits n 18 16 = 0 := (fc 18 16 (by decide) (by decide)).trans (bits_eq 3 (by unfold encOwn; omega) rfl)
  have h3 : bits n 40 19 = 0 := (fc 40 19 (by decide) (by decide)).trans (bits_eq 22 (by unfold encOwn; omega) rfl)
  have h4 : bits n 51 41 = d.num := (fc 51 41 (by decide) (by decide)).trans (bits_eq 11 (by unfold encOwn; omega) rfl)
  clear he
  refine of_fields hlt ho rfl ?_
  rw [in_control ho (by decide)]
  simp [decControl, fV, rD, fD, h1, h2, h3, h4, hg, need, reg_dec]

theorem clkOrd (g d) : Statement (.clkOrd g d) := by
  intro n he hw
  have he := Option.some.inj he
  have := reg_lt d
  obtain ⟨hlt, ho, hg, fc, fk⟩ := full_word he (by decide) (by unfold encOwn; omega)
  have h1 : bits n 15 0 = 0 := (fc 15 0 (by decide) (by decide)).trans (bits_eq 16 (by unfold encOwn; omega) rfl)
  have h2 : bits n 18 16 = 1 := (fc 18 16 (by decide) (by decide)).trans (bits_eq 3 (by unfold encOwn; omega) rfl)
  have h3 : bits n 40 19 = 0 := (fc 40 19 (by decide) (by decide)).trans (bits_eq 22 (by unfold encOwn; omega) rfl)
  have h4 : bits n 51 41 = d.num := (fc 51 41 (by decide) (by decide)).trans (bits_eq 11 (by unfold encOwn; omega) rfl)
  clear he
  refine of_fields hlt ho rfl ?_
  rw [in_control ho (by decide)]
  simp [decControl, fV, rD, fD, h1, h2, h3, h4, hg, need, reg_dec]

theorem rng (g d k) : Statement (.rng g d k) := by
  intro n he hw
  have he := Option.some.inj he
  have := reg_lt d
  have := k.isLt
  obtain ⟨hlt, ho, hg, fc, fk⟩ := full_word he (by decide) (by unfold encOwn; omega)
  have h1 : bits n 1 0 = k.val := (fc 1 0 (by decide) (by decide)).trans (bits_eq 2 (by unfold encOwn; omega) rfl)
  have h2 : bits n 15 2 = 0 := (fc 15 2 (by decide) (by decide)).trans (bits_eq 14 (by unfold encOwn; omega) rfl)
  have h3 : bits n 18 16 = 0 := (fc 18 16 (by decide) (by decide)).trans (bits_eq 3 (by unfold encOwn; omega) rfl)
  have h4 : bits n 40 19 = 0 := (fc 40 19 (by decide) (by decide)).trans (bits_eq 22 (by unfold encOwn; omega) rfl)
  have h5 : bits n 51 41 = d.num := (fc 51 41 (by decide) (by decide)).trans (bits_eq 11 (by unfold encOwn; omega) rfl)
  clear he
  refine of_fields hlt ho rfl ?_
  rw [in_control ho (by decide)]
  simp [decControl, fV, rD, fD, h1, h2, h3, h4, h5, hg, need, fin, reg_dec]

theorem rngX4 (g d k) : Statement (.rngX4 g d k) := by
  intro n he hw
  have he := Option.some.inj he
  have := reg_lt d
  have := k.isLt
  obtain ⟨hlt, ho, hg, fc, fk⟩ := full_word he (by decide) (by unfold encOwn; omega)
  have h1 : bits n 1 0 = k.val := (fc 1 0 (by decide) (by decide)).trans (bits_eq 2 (by unfold encOwn; omega) rfl)
  have h2 : bits n 15 2 = 0 := (fc 15 2 (by decide) (by decide)).trans (bits_eq 14 (by unfold encOwn; omega) rfl)
  have h3 : bits n 18 16 = 1 := (fc 18 16 (by decide) (by decide)).trans (bits_eq 3 (by unfold encOwn; omega) rfl)
  have h4 : bits n 40 19 = 0 := (fc 40 19 (by decide) (by decide)).trans (bits_eq 22 (by unfold encOwn; omega) rfl)
  have h5 : bits n 51 41 = d.num := (fc 51 41 (by decide) (by decide)).trans (bits_eq 11 (by unfold encOwn; omega) rfl)
  clear he
  refine of_fields hlt ho rfl ?_
  rw [in_control ho (by decide)]
  simp [decControl, fV, rD, fD, h1, h2, h3, h4, h5, hg, need, fin, reg_dec]

theorem rngF32 (g d k) : Statement (.rngF32 g d k) := by
  intro n he hw
  have he := Option.some.inj he
  have := reg_lt d
  have := k.isLt
  obtain ⟨hlt, ho, hg, fc, fk⟩ := full_word he (by decide) (by unfold encOwn; omega)
  have h1 : bits n 1 0 = k.val := (fc 1 0 (by decide) (by decide)).trans (bits_eq 2 (by unfold encOwn; omega) rfl)
  have h2 : bits n 15 2 = 0 := (fc 15 2 (by decide) (by decide)).trans (bits_eq 14 (by unfold encOwn; omega) rfl)
  have h3 : bits n 18 16 = 2 := (fc 18 16 (by decide) (by decide)).trans (bits_eq 3 (by unfold encOwn; omega) rfl)
  have h4 : bits n 40 19 = 0 := (fc 40 19 (by decide) (by decide)).trans (bits_eq 22 (by unfold encOwn; omega) rfl)
  have h5 : bits n 51 41 = d.num := (fc 51 41 (by decide) (by decide)).trans (bits_eq 11 (by unfold encOwn; omega) rfl)
  clear he
  refine of_fields hlt ho rfl ?_
  rw [in_control ho (by decide)]
  simp [decControl, fV, rD, fD, h1, h2, h3, h4, h5, hg, need, fin, reg_dec]

theorem perfRd (g d m) : Statement (.perfRd g d m) := by
  intro n he hw
  have he := Option.some.inj he
  have := reg_lt d
  have := m.isLt
  obtain ⟨hlt, ho, hg, fc, fk⟩ := full_word he (by decide) (by unfold encOwn; omega)
  have h1 : bits n 15 6 = 0 := (fc 15 6 (by decide) (by decide)).trans (bits_eq 10 (by unfold encOwn; omega) rfl)
  have h2 : bits n 18 16 = 0 := (fc 18 16 (by decide) (by decide)).trans (bits_eq 3 (by unfold encOwn; omega) rfl)
  have h3 : bits n 40 19 = 0 := (fc 40 19 (by decide) (by decide)).trans (bits_eq 22 (by unfold encOwn; omega) rfl)
  have h4 : bits n 5 0 = m.val := (fc 5 0 (by decide) (by decide)).trans (bits_eq 6 (by unfold encOwn; omega) rfl)
  have h5 : bits n 51 41 = d.num := (fc 51 41 (by decide) (by decide)).trans (bits_eq 11 (by unfold encOwn; omega) rfl)
  clear he
  refine of_fields hlt ho rfl ?_
  rw [in_control ho (by decide)]
  simp [decControl, fD, fV, rD, h1, h2, h3, h4, h5, hg, need, fin, reg_dec]

theorem perfClr (g m) : Statement (.perfClr g m) := by
  intro n he hw
  have he := Option.some.inj he
  have := m.isLt
  obtain ⟨hlt, ho, hg, fc, fk⟩ := full_word he (by decide) (by unfold encOwn; omega)
  have h1 : bits n 15 6 = 0 := (fc 15 6 (by decide) (by decide)).trans (bits_eq 10 (by unfold encOwn; omega) rfl)
  have h2 : bits n 18 16 = 1 := (fc 18 16 (by decide) (by decide)).trans (bits_eq 3 (by unfold encOwn; omega) rfl)
  have h3 : bits n 40 19 = 0 := (fc 40 19 (by decide) (by decide)).trans (bits_eq 22 (by unfold encOwn; omega) rfl)
  have h4 : bits n 5 0 = m.val := (fc 5 0 (by decide) (by decide)).trans (bits_eq 6 (by unfold encOwn; omega) rfl)
  have h5 : bits n 51 41 = 0 := (fc 51 41 (by decide) (by decide)).trans (bits_eq 11 (by unfold encOwn; omega) rfl)
  clear he
  refine of_fields hlt ho rfl ?_
  rw [in_control ho (by decide)]
  simp [decControl, fD, fV, h1, h2, h3, h4, h5, hg, need, fin]

theorem tmark (g m a) : Statement (.tmark g m a) := by
  intro n he hw
  have he := Option.some.inj he
  have := reg_lt a
  have := m.isLt
  obtain ⟨hlt, ho, hg, fc, fk⟩ := full_word he (by decide) (by unfold encOwn; omega)
  have h1 : bits n 15 0 = m.toNat := (fc 15 0 (by decide) (by decide)).trans (bits_eq 16 (by unfold encOwn; omega) rfl)
  have h2 : bits n 29 16 = 0 := (fc 29 16 (by decide) (by decide)).trans (bits_eq 14 (by unfold encOwn; omega) rfl)
  have h3 : bits n 40 30 = a.num := (fc 40 30 (by decide) (by decide)).trans (bits_eq 11 (by unfold encOwn; omega) rfl)
  have h4 : bits n 51 41 = 0 := (fc 51 41 (by decide) (by decide)).trans (bits_eq 11 (by unfold encOwn; omega) rfl)
  clear he
  refine of_fields hlt ho rfl ?_
  rw [in_control ho (by decide)]
  simp [decControl, fD, rA, fA, h1, h2, h3, h4, hg, need, reg_dec]

theorem finfo (g d m) : Statement (.finfo g d m) := by
  intro n he hw
  have he := Option.some.inj he
  have := reg_lt d
  have := m.isLt
  obtain ⟨hlt, ho, hg, fc, fk⟩ := full_word he (by decide) (by unfold encOwn; omega)
  have h1 : bits n 40 8 = 0 := (fc 40 8 (by decide) (by decide)).trans (bits_eq 33 (by unfold encOwn; omega) rfl)
  have h2 : bits n 51 41 = d.num := (fc 51 41 (by decide) (by decide)).trans (bits_eq 11 (by unfold encOwn; omega) rfl)
  have h3 : bits n 7 0 = m.toNat := (fc 7 0 (by decide) (by decide)).trans (bits_eq 8 (by unfold encOwn; omega) rfl)
  clear he
  refine of_fields hlt ho rfl ?_
  rw [in_control ho (by decide)]
  simp [decControl, rD, fD, h1, h2, h3, hg, need, reg_dec]

theorem lnch (g d a q) : Statement (.lnch g d a q) := by
  intro n he hw
  have he := Option.some.inj he
  have := reg_lt d
  have := reg_lt a
  have := q.isLt
  obtain ⟨hlt, ho, hg, fc, fk⟩ := full_word he (by decide) (by unfold encOwn; omega)
  have h1 : bits n 29 6 = 0 := (fc 29 6 (by decide) (by decide)).trans (bits_eq 24 (by unfold encOwn; omega) rfl)
  have h2 : bits n 40 30 = a.num := (fc 40 30 (by decide) (by decide)).trans (bits_eq 11 (by unfold encOwn; omega) rfl)
  have h3 : bits n 5 0 = q.val := (fc 5 0 (by decide) (by decide)).trans (bits_eq 6 (by unfold encOwn; omega) rfl)
  have h4 : bits n 51 41 = d.num := (fc 51 41 (by decide) (by decide)).trans (bits_eq 11 (by unfold encOwn; omega) rfl)
  clear he
  refine of_fields hlt ho rfl ?_
  rw [in_control ho (by decide)]
  simp [decControl, rD, rA, fD, fA, h1, h2, h3, h4, hg, need, fin, reg_dec]

theorem add (g d a b t s) : Statement (.add g d a b t s) := by
  intro n he hw
  have he := Option.some.inj he
  have := reg_lt d
  have := reg_lt a
  have := reg_lt b
  have := ty_lt t
  have := b2n_lt (s)
  obtain ⟨hlt, ho, hg, fd, fa, fb, ft, fv, fs, fc, fk, fz⟩ :=
    alu_word he (by decide) (by omega) (by omega) (by omega) (by omega) (by omega) (by omega) (by omega)
  have fs := bit_b2n fs
  clear he
  refine of_fields hlt ho rfl ?_
  rw [in_integer ho (by decide) (by decide)]
  simp [decInteger, dec3s, dec3, fC, fTy, fIV, fSat, rD, rA, rB, fD, fA, fB, fd, fa, fb, ft, fv, fz, fs, hg, need, reg_dec, ty_dec]

theorem sub (g d a b t s) : Statement (.sub g d a b t s) := by
  intro n he hw
  have he := Option.some.inj he
  have := reg_lt d
  have := reg_lt a
  have := reg_lt b
  have := ty_lt t
  have := b2n_lt (s)
  obtain ⟨hlt, ho, hg, fd, fa, fb, ft, fv, fs, fc, fk, fz⟩ :=
    alu_word he (by decide) (by omega) (by omega) (by omega) (by omega) (by omega) (by omega) (by omega)
  have fs := bit_b2n fs
  clear he
  refine of_fields hlt ho rfl ?_
  rw [in_integer ho (by decide) (by decide)]
  simp [decInteger, dec3s, dec3, fC, fTy, fIV, fSat, rD, rA, rB, fD, fA, fB, fd, fa, fb, ft, fv, fz, fs, hg, need, reg_dec, ty_dec]

theorem mulLo (g d a b t s) : Statement (.mulLo g d a b t s) := by
  intro n he hw
  have he := Option.some.inj he
  have := reg_lt d
  have := reg_lt a
  have := reg_lt b
  have := ty_lt t
  have := b2n_lt (s)
  obtain ⟨hlt, ho, hg, fd, fa, fb, ft, fv, fs, fc, fk, fz⟩ :=
    alu_word he (by decide) (by omega) (by omega) (by omega) (by omega) (by omega) (by omega) (by omega)
  have fs := bit_b2n fs
  clear he
  refine of_fields hlt ho rfl ?_
  rw [in_integer ho (by decide) (by decide)]
  simp [decInteger, decMul, dec3, fC, fTy, fIV, fSat, rD, rA, rB, fD, fA, fB, fd, fa, fb, ft, fv, fz, fs, hg, need, reg_dec, ty_dec]

theorem mulHi (g d a b t) : Statement (.mulHi g d a b t) := by
  intro n he hw
  have he := Option.some.inj he
  have := reg_lt d
  have := reg_lt a
  have := reg_lt b
  have := ty_lt t
  obtain ⟨hlt, ho, hg, fd, fa, fb, ft, fv, fs, fc, fk, fz⟩ :=
    alu_word he (by decide) (by omega) (by omega) (by omega) (by omega) (by omega) (by omega) (by omega)
  have fs : bit n 11 = false := bit_zero fs
  clear he
  refine of_fields hlt ho rfl ?_
  rw [in_integer ho (by decide) (by decide)]
  simp [decInteger, decMul, dec3, fC, fTy, fIV, fSat, rD, rA, rB, fD, fA, fB, fd, fa, fb, ft, fv, fz, fs, hg, need, reg_dec, ty_dec]

theorem mulWide (g d a b t) : Statement (.mulWide g d a b t) := by
  intro n he hw
  have he := Option.some.inj he
  have := reg_lt d
  have := reg_lt a
  have := reg_lt b
  have := ty_lt t
  obtain ⟨hlt, ho, hg, fd, fa, fb, ft, fv, fs, fc, fk, fz⟩ :=
    alu_word he (by decide) (by omega) (by omega) (by omega) (by omega) (by omega) (by omega) (by omega)
  have fs : bit n 11 = false := bit_zero fs
  clear he
  refine of_fields hlt ho rfl ?_
  rw [in_integer ho (by decide) (by decide)]
  simp [decInteger, decMul, dec3, fC, fTy, fIV, fSat, rD, rA, rB, fD, fA, fB, fd, fa, fb, ft, fv, fz, fs, hg, need, reg_dec, ty_dec]

theorem madLo (g d a b c t s) : Statement (.madLo g d a b c t s) := by
  intro n he hw
  have he := Option.some.inj he
  have := reg_lt d
  have := reg_lt a
  have := reg_lt b
  have := ty_lt t
  have := b2n_lt (s)
  have := reg_lt c
  obtain ⟨hlt, ho, hg, fd, fa, fb, ft, fv, fs, fc, fk, fz⟩ :=
    alu_word he (by decide) (by omega) (by omega) (by omega) (by omega) (by omega) (by omega) (by omega)
  have fs := bit_b2n fs
  clear he
  refine of_fields hlt ho rfl ?_
  rw [in_integer ho (by decide) (by decide)]
  simp [decInteger, decMad, dec4, fTy, fIV, fSat, rD, rA, rB, rC, fD, fA, fB, fC, fd, fa, fb, ft, fv, fz, fs, hg, reg_dec, ty_dec]

theorem madHi (g d a b c t) : Statement (.madHi g d a b c t) := by
  intro n he hw
  have he := Option.some.inj he
  have := reg_lt d
  have := reg_lt a
  have := reg_lt b
  have := ty_lt t
  have := reg_lt c
  obtain ⟨hlt, ho, hg, fd, fa, fb, ft, fv, fs, fc, fk, fz⟩ :=
    alu_word he (by decide) (by omega) (by omega) (by omega) (by omega) (by omega) (by omega) (by omega)
  have fs : bit n 11 = false := bit_zero fs
  clear he
  refine of_fields hlt ho rfl ?_
  rw [in_integer ho (by decide) (by decide)]
  simp [decInteger, decMad, dec4, fTy, fIV, fSat, rD, rA, rB, rC, fD, fA, fB, fC, fd, fa, fb, ft, fv, fz, fs, hg, reg_dec, ty_dec]

theorem madWide (g d a b c t) : Statement (.madWide g d a b c t) := by
  intro n he hw
  have he := Option.some.inj he
  have := reg_lt d
  have := reg_lt a
  have := reg_lt b
  have := ty_lt t
  have := reg_lt c
  obtain ⟨hlt, ho, hg, fd, fa, fb, ft, fv, fs, fc, fk, fz⟩ :=
    alu_word he (by decide) (by omega) (by omega) (by omega) (by omega) (by omega) (by omega) (by omega)
  have fs : bit n 11 = false := bit_zero fs
  clear he
  refine of_fields hlt ho rfl ?_
  rw [in_integer ho (by decide) (by decide)]
  simp [decInteger, decMad, dec4, fTy, fIV, fSat, rD, rA, rB, rC, fD, fA, fB, fC, fd, fa, fb, ft, fv, fz, fs, hg, reg_dec, ty_dec]

theorem min (g d a b t) : Statement (.min g d a b t) := by
  intro n he hw
  have he := Option.some.inj he
  have := reg_lt d
  have := reg_lt a
  have := reg_lt b
  have := ty_lt t
  obtain ⟨hlt, ho, hg, fd, fa, fb, ft, fv, fs, fc, fk, fz⟩ :=
    alu_word he (by decide) (by omega) (by omega) (by omega) (by omega) (by omega) (by omega) (by omega)
  have fs : bit n 11 = false := bit_zero fs
  clear he
  refine of_fields hlt ho rfl ?_
  rw [in_integer ho (by decide) (by decide)]
  simp [decInteger, dec3p, dec3, fC, fTy, fIV, fSat, rD, rA, rB, fD, fA, fB, fd, fa, fb, ft, fv, fz, fs, hg, need, reg_dec, ty_dec]

theorem max (g d a b t) : Statement (.max g d a b t) := by
  intro n he hw
  have he := Option.some.inj he
  have := reg_lt d
  have := reg_lt a
  have := reg_lt b
  have := ty_lt t
  obtain ⟨hlt, ho, hg, fd, fa, fb, ft, fv, fs, fc, fk, fz⟩ :=
    alu_word he (by decide) (by omega) (by omega) (by omega) (by omega) (by omega) (by omega) (by omega)
  have fs : bit n 11 = false := bit_zero fs
  clear he
  refine of_fields hlt ho rfl ?_
  rw [in_integer ho (by decide) (by decide)]
  simp [decInteger, dec3p, dec3, fC, fTy, fIV, fSat, rD, rA, rB, fD, fA, fB, fd, fa, fb, ft, fv, fz, fs, hg, need, reg_dec, ty_dec]

theorem abs (g d a t s) : Statement (.abs g d a t s) := by
  intro n he hw
  have he := Option.some.inj he
  have := reg_lt d
  have := reg_lt a
  have := ty_lt t
  have := b2n_lt (s)
  obtain ⟨hlt, ho, hg, fd, fa, fb, ft, fv, fs, fc, fk, fz⟩ :=
    alu_word he (by decide) (by omega) (by omega) (by omega) (by omega) (by omega) (by omega) (by omega)
  have fs := bit_b2n fs
  clear he
  refine of_fields hlt ho rfl ?_
  rw [in_integer ho (by decide) (by decide)]
  simp [decInteger, dec2, fB, fC, fTy, fIV, fSat, rD, rA, fD, fA, fd, fa, fb, ft, fv, fz, fs, hg, need, reg_dec, ty_dec]

theorem neg (g d a t s) : Statement (.neg g d a t s) := by
  intro n he hw
  have he := Option.some.inj he
  have := reg_lt d
  have := reg_lt a
  have := ty_lt t
  have := b2n_lt (s)
  obtain ⟨hlt, ho, hg, fd, fa, fb, ft, fv, fs, fc, fk, fz⟩ :=
    alu_word he (by decide) (by omega) (by omega) (by omega) (by omega) (by omega) (by omega) (by omega)
  have fs := bit_b2n fs
  clear he
  refine of_fields hlt ho rfl ?_
  rw [in_integer ho (by decide) (by decide)]
  simp [decInteger, dec2, fB, fC, fTy, fIV, fSat, rD, rA, fD, fA, fd, fa, fb, ft, fv, fz, fs, hg, need, reg_dec, ty_dec]

theorem and (g d a b t) : Statement (.and g d a b t) := by
  intro n he hw
  have he := Option.some.inj he
  have := reg_lt d
  have := reg_lt a
  have := reg_lt b
  have := ty_lt t
  obtain ⟨hlt, ho, hg, fd, fa, fb, ft, fv, fs, fc, fk, fz⟩ :=
    alu_word he (by decide) (by omega) (by omega) (by omega) (by omega) (by omega) (by omega) (by omega)
  have fs : bit n 11 = false := bit_zero fs
  clear he
  refine of_fields hlt ho rfl ?_
  rw [in_integer ho (by decide) (by decide)]
  simp [decInteger, dec3p, dec3, fC, fTy, fIV, fSat, rD, rA, rB, fD, fA, fB, fd, fa, fb, ft, fv, fz, fs, hg, need, reg_dec, ty_dec]

theorem or (g d a b t) : Statement (.or g d a b t) := by
  intro n he hw
  have he := Option.some.inj he
  have := reg_lt d
  have := reg_lt a
  have := reg_lt b
  have := ty_lt t
  obtain ⟨hlt, ho, hg, fd, fa, fb, ft, fv, fs, fc, fk, fz⟩ :=
    alu_word he (by decide) (by omega) (by omega) (by omega) (by omega) (by omega) (by omega) (by omega)
  have fs : bit n 11 = false := bit_zero fs
  clear he
  refine of_fields hlt ho rfl ?_
  rw [in_integer ho (by decide) (by decide)]
  simp [decInteger, dec3p, dec3, fC, fTy, fIV, fSat, rD, rA, rB, fD, fA, fB, fd, fa, fb, ft, fv, fz, fs, hg, need, reg_dec, ty_dec]

theorem xor (g d a b t) : Statement (.xor g d a b t) := by
  intro n he hw
  have he := Option.some.inj he
  have := reg_lt d
  have := reg_lt a
  have := reg_lt b
  have := ty_lt t
  obtain ⟨hlt, ho, hg, fd, fa, fb, ft, fv, fs, fc, fk, fz⟩ :=
    alu_word he (by decide) (by omega) (by omega) (by omega) (by omega) (by omega) (by omega) (by omega)
  have fs : bit n 11 = false := bit_zero fs
  clear he
  refine of_fields hlt ho rfl ?_
  rw [in_integer ho (by decide) (by decide)]
  simp [decInteger, dec3p, dec3, fC, fTy, fIV, fSat, rD, rA, rB, fD, fA, fB, fd, fa, fb, ft, fv, fz, fs, hg, need, reg_dec, ty_dec]

theorem not (g d a t) : Statement (.not g d a t) := by
  intro n he hw
  have he := Option.some.inj he
  have := reg_lt d
  have := reg_lt a
  have := ty_lt t
  obtain ⟨hlt, ho, hg, fd, fa, fb, ft, fv, fs, fc, fk, fz⟩ :=
    alu_word he (by decide) (by omega) (by omega) (by omega) (by omega) (by omega) (by omega) (by omega)
  have fs : bit n 11 = false := bit_zero fs
  clear he
  refine of_fields hlt ho rfl ?_
  rw [in_integer ho (by decide) (by decide)]
  simp [decInteger, dec2p, dec2, fB, fC, fTy, fIV, fSat, rD, rA, fD, fA, fd, fa, fb, ft, fv, fz, fs, hg, need, reg_dec, ty_dec]

theorem shl (g d a b t) : Statement (.shl g d a b t) := by
  intro n he hw
  have he := Option.some.inj he
  have := reg_lt d
  have := reg_lt a
  have := reg_lt b
  have := ty_lt t
  obtain ⟨hlt, ho, hg, fd, fa, fb, ft, fv, fs, fc, fk, fz⟩ :=
    alu_word he (by decide) (by omega) (by omega) (by omega) (by omega) (by omega) (by omega) (by omega)
  have fs : bit n 11 = false := bit_zero fs
  clear he
  refine of_fields hlt ho rfl ?_
  rw [in_integer ho (by decide) (by decide)]
  simp [decInteger, dec3p, dec3, fC, fTy, fIV, fSat, rD, rA, rB, fD, fA, fB, fd, fa, fb, ft, fv, fz, fs, hg, need, reg_dec, ty_dec]

theorem shr (g d a b t) : Statement (.shr g d a b t) := by
  intro n he hw
  have he := Option.some.inj he
  have := reg_lt d
  have := reg_lt a
  have := reg_lt b
  have := ty_lt t
  obtain ⟨hlt, ho, hg, fd, fa, fb, ft, fv, fs, fc, fk, fz⟩ :=
    alu_word he (by decide) (by omega) (by omega) (by omega) (by omega) (by omega) (by omega) (by omega)
  have fs : bit n 11 = false := bit_zero fs
  clear he
  refine of_fields hlt ho rfl ?_
  rw [in_integer ho (by decide) (by decide)]
  simp [decInteger, dec3p, dec3, fC, fTy, fIV, fSat, rD, rA, rB, fD, fA, fB, fd, fa, fb, ft, fv, fz, fs, hg, need, reg_dec, ty_dec]

theorem sha (g d a b t) : Statement (.sha g d a b t) := by
  intro n he hw
  have he := Option.some.inj he
  have := reg_lt d
  have := reg_lt a
  have := reg_lt b
  have := ty_lt t
  obtain ⟨hlt, ho, hg, fd, fa, fb, ft, fv, fs, fc, fk, fz⟩ :=
    alu_word he (by decide) (by omega) (by omega) (by omega) (by omega) (by omega) (by omega) (by omega)
  have fs : bit n 11 = false := bit_zero fs
  clear he
  refine of_fields hlt ho rfl ?_
  rw [in_integer ho (by decide) (by decide)]
  simp [decInteger, dec3p, dec3, fC, fTy, fIV, fSat, rD, rA, rB, fD, fA, fB, fd, fa, fb, ft, fv, fz, fs, hg, need, reg_dec, ty_dec]

theorem rot (g d a b t) : Statement (.rot g d a b t) := by
  intro n he hw
  have he := Option.some.inj he
  have := reg_lt d
  have := reg_lt a
  have := reg_lt b
  have := ty_lt t
  obtain ⟨hlt, ho, hg, fd, fa, fb, ft, fv, fs, fc, fk, fz⟩ :=
    alu_word he (by decide) (by omega) (by omega) (by omega) (by omega) (by omega) (by omega) (by omega)
  have fs : bit n 11 = false := bit_zero fs
  clear he
  refine of_fields hlt ho rfl ?_
  rw [in_integer ho (by decide) (by decide)]
  simp [decInteger, dec3p, dec3, fC, fTy, fIV, fSat, rD, rA, rB, fD, fA, fB, fd, fa, fb, ft, fv, fz, fs, hg, need, reg_dec, ty_dec]

theorem bfe (g d a b t) : Statement (.bfe g d a b t) := by
  intro n he hw
  have he := Option.some.inj he
  have := reg_lt d
  have := reg_lt a
  have := reg_lt b
  have := ty_lt t
  obtain ⟨hlt, ho, hg, fd, fa, fb, ft, fv, fs, fc, fk, fz⟩ :=
    alu_word he (by decide) (by omega) (by omega) (by omega) (by omega) (by omega) (by omega) (by omega)
  have fs : bit n 11 = false := bit_zero fs
  clear he
  refine of_fields hlt ho rfl ?_
  rw [in_integer ho (by decide) (by decide)]
  simp [decInteger, dec3p, dec3, fC, fTy, fIV, fSat, rD, rA, rB, fD, fA, fB, fd, fa, fb, ft, fv, fz, fs, hg, need, reg_dec, ty_dec]

theorem bfi (g d a b c) : Statement (.bfi g d a b c) := by
  intro n he hw
  have he := Option.some.inj he
  have := reg_lt d
  have := reg_lt a
  have := reg_lt b
  have := reg_lt c
  obtain ⟨hlt, ho, hg, fd, fa, fb, ft, fv, fs, fc, fk, fz⟩ :=
    alu_word he (by decide) (by omega) (by omega) (by omega) (by omega) (by omega) (by omega) (by omega)
  have fs : bit n 11 = false := bit_zero fs
  clear he
  refine of_fields hlt ho rfl ?_
  rw [in_integer ho (by decide) (by decide)]
  simp [decInteger, dec4, fTy, fIV, fSat, rD, rA, rB, rC, fD, fA, fB, fC, fd, fa, fb, ft, fv, fz, fs, hg, reg_dec, decTy]

theorem popc (g d a t) : Statement (.popc g d a t) := by
  intro n he hw
  have he := Option.some.inj he
  have := reg_lt d
  have := reg_lt a
  have := ty_lt t
  obtain ⟨hlt, ho, hg, fd, fa, fb, ft, fv, fs, fc, fk, fz⟩ :=
    alu_word he (by decide) (by omega) (by omega) (by omega) (by omega) (by omega) (by omega) (by omega)
  have fs : bit n 11 = false := bit_zero fs
  clear he
  refine of_fields hlt ho rfl ?_
  rw [in_integer ho (by decide) (by decide)]
  simp [decInteger, dec2p, dec2, fB, fC, fTy, fIV, fSat, rD, rA, fD, fA, fd, fa, fb, ft, fv, fz, fs, hg, need, reg_dec, ty_dec]

theorem clz (g d a t) : Statement (.clz g d a t) := by
  intro n he hw
  have he := Option.some.inj he
  have := reg_lt d
  have := reg_lt a
  have := ty_lt t
  obtain ⟨hlt, ho, hg, fd, fa, fb, ft, fv, fs, fc, fk, fz⟩ :=
    alu_word he (by decide) (by omega) (by omega) (by omega) (by omega) (by omega) (by omega) (by omega)
  have fs : bit n 11 = false := bit_zero fs
  clear he
  refine of_fields hlt ho rfl ?_
  rw [in_integer ho (by decide) (by decide)]
  simp [decInteger, dec2p, dec2, fB, fC, fTy, fIV, fSat, rD, rA, fD, fA, fd, fa, fb, ft, fv, fz, fs, hg, need, reg_dec, ty_dec]

theorem ctz (g d a t) : Statement (.ctz g d a t) := by
  intro n he hw
  have he := Option.some.inj he
  have := reg_lt d
  have := reg_lt a
  have := ty_lt t
  obtain ⟨hlt, ho, hg, fd, fa, fb, ft, fv, fs, fc, fk, fz⟩ :=
    alu_word he (by decide) (by omega) (by omega) (by omega) (by omega) (by omega) (by omega) (by omega)
  have fs : bit n 11 = false := bit_zero fs
  clear he
  refine of_fields hlt ho rfl ?_
  rw [in_integer ho (by decide) (by decide)]
  simp [decInteger, dec2p, dec2, fB, fC, fTy, fIV, fSat, rD, rA, fD, fA, fd, fa, fb, ft, fv, fz, fs, hg, need, reg_dec, ty_dec]

theorem brev (g d a t) : Statement (.brev g d a t) := by
  intro n he hw
  have he := Option.some.inj he
  have := reg_lt d
  have := reg_lt a
  have := ty_lt t
  obtain ⟨hlt, ho, hg, fd, fa, fb, ft, fv, fs, fc, fk, fz⟩ :=
    alu_word he (by decide) (by omega) (by omega) (by omega) (by omega) (by omega) (by omega) (by omega)
  have fs : bit n 11 = false := bit_zero fs
  clear he
  refine of_fields hlt ho rfl ?_
  rw [in_integer ho (by decide) (by decide)]
  simp [decInteger, dec2p, dec2, fB, fC, fTy, fIV, fSat, rD, rA, fD, fA, fd, fa, fb, ft, fv, fz, fs, hg, need, reg_dec, ty_dec]

theorem bsel (g d a b c) : Statement (.bsel g d a b c) := by
  intro n he hw
  have he := Option.some.inj he
  have := reg_lt d
  have := reg_lt a
  have := reg_lt b
  have := reg_lt c
  obtain ⟨hlt, ho, hg, fd, fa, fb, ft, fv, fs, fc, fk, fz⟩ :=
    alu_word he (by decide) (by omega) (by omega) (by omega) (by omega) (by omega) (by omega) (by omega)
  have fs : bit n 11 = false := bit_zero fs
  clear he
  refine of_fields hlt ho rfl ?_
  rw [in_integer ho (by decide) (by decide)]
  simp [decInteger, dec4, fTy, fIV, fSat, rD, rA, rB, rC, fD, fA, fB, fC, fd, fa, fb, ft, fv, fz, fs, hg, reg_dec, decTy]

theorem sel (g d a b t p m) : Statement (.sel g d a b t p m) := by
  intro n he hw
  have he := Option.some.inj he
  have := reg_lt d
  have := reg_lt a
  have := reg_lt b
  have := ty_lt t
  have := p.isLt
  have := b2n_lt (m)
  obtain ⟨hlt, ho, hg, fd, fa, fb, ft, fv, fs, fc, fk, fz⟩ :=
    alu_word he (by decide) (by omega) (by omega) (by omega) (by omega) (by omega) (by omega) (by omega)
  have fs : bit n 11 = false := bit_zero fs
  have h1 : bits n 10 8 = p.val := (fc 10 8 (by decide) (by decide)).trans (bits_eq 3 (by omega) rfl)
  have h2 : bits n 6 0 = 0 := (fc 6 0 (by decide) (by decide)).trans (bits_eq 7 (by omega) rfl)
  have h3 : bit n 7 = m := bit_b2n ((fc 7 7 (by decide) (by decide)).trans (bits_eq 1 (by omega) rfl))
  clear he
  refine of_fields hlt ho rfl ?_
  rw [in_integer ho (by decide) (by decide)]
  simp [decInteger, fTy, fIV, fSat, rD, rA, rB, fD, fA, fB, fd, fa, fb, ft, fv, fs, h1, h2, h3, hg, need, fin, reg_dec, ty_dec]

theorem cmp (g p a b t cc cb) : Statement (.cmp g p a b t cc cb) := by
  intro n he hw
  have he := Option.some.inj he
  have := reg_lt a
  have := reg_lt b
  have := ty_lt t
  have := cond_lt cc
  have := p.isLt
  have := comb_lt cb
  obtain ⟨hlt, ho, hg, fd, fa, fb, ft, fv, fs, fc, fk, fz⟩ :=
    alu_word he (by decide) (by omega) (by omega) (by omega) (by omega) (by omega) (by omega) (by omega)
  have fs : bit n 11 = false := bit_zero fs
  have h1 : bits n 10 8 = p.val := (fc 10 8 (by decide) (by decide)).trans (bits_eq 3 (by omega) rfl)
  have h2 : bits n 5 0 = 0 := (fc 5 0 (by decide) (by decide)).trans (bits_eq 6 (by omega) rfl)
  have h3 : bits n 7 6 = cb.code := (fc 7 6 (by decide) (by decide)).trans (bits_eq 2 (by omega) rfl)
  clear he
  refine of_fields hlt ho rfl ?_
  rw [in_integer ho (by decide) (by decide)]
  simp [decInteger, decCmp, fD, fTy, fIV, fSat, rA, rB, fA, fB, fd, fa, fb, ft, fv, fs, h1, h2, h3, hg, need, fin, comb_dec, cond_dec, reg_dec, ty_dec]

theorem mov (g d a t) : Statement (.mov g d a t) := by
  intro n he hw
  have he := Option.some.inj he
  have := reg_lt d
  have := reg_lt a
  have := ty_lt t
  obtain ⟨hlt, ho, hg, fd, fa, fb, ft, fv, fs, fc, fk, fz⟩ :=
    alu_word he (by decide) (by omega) (by omega) (by omega) (by omega) (by omega) (by omega) (by omega)
  have fs : bit n 11 = false := bit_zero fs
  clear he
  refine of_fields hlt ho rfl ?_
  rw [in_integer ho (by decide) (by decide)]
  simp [decInteger, dec2p, dec2, fB, fC, fTy, fIV, fSat, rD, rA, fD, fA, fd, fa, fb, ft, fv, fz, fs, hg, need, reg_dec, ty_dec]

theorem movi (g d i) : Statement (.movi g d i) := by
  intro n he hw
  have he := Option.some.inj he
  have := reg_lt d
  have := i.isLt
  obtain ⟨hlt, ho, hg, fc, fk⟩ := full_word he (by decide) (by omega)
  have h1 : bits n 31 0 = i.toNat := (fc 31 0 (by decide) (by decide)).trans (bits_eq 32 (by omega) rfl)
  have h2 : bits n 40 32 = 0 := (fc 40 32 (by decide) (by decide)).trans (bits_eq 9 (by omega) rfl)
  have h3 : bits n 51 41 = d.num := (fc 51 41 (by decide) (by decide)).trans (bits_eq 11 (by omega) rfl)
  clear he
  refine of_fields hlt ho rfl ?_
  rw [in_integer ho (by decide) (by decide)]
  simp [decInteger, rD, fD, h1, h2, h3, hg, reg_dec]

theorem moviS64 (g d i) : Statement (.moviS64 g d i) := by
  intro n he hw
  have he := Option.some.inj he
  have := reg_lt d
  have := i.isLt
  obtain ⟨hlt, ho, hg, fc, fk⟩ := full_word he (by decide) (by omega)
  have h1 : bits n 31 0 = i.toNat := (fc 31 0 (by decide) (by decide)).trans (bits_eq 32 (by omega) rfl)
  have h2 : bits n 40 32 = 1 := (fc 40 32 (by decide) (by decide)).trans (bits_eq 9 (by omega) rfl)
  have h3 : bits n 51 41 = d.num := (fc 51 41 (by decide) (by decide)).trans (bits_eq 11 (by omega) rfl)
  clear he
  refine of_fields hlt ho rfl ?_
  rw [in_integer ho (by decide) (by decide)]
  simp [decInteger, rD, fD, h1, h2, h3, hg, reg_dec]

theorem moviZ64 (g d i) : Statement (.moviZ64 g d i) := by
  intro n he hw
  have he := Option.some.inj he
  have := reg_lt d
  have := i.isLt
  obtain ⟨hlt, ho, hg, fc, fk⟩ := full_word he (by decide) (by omega)
  have h1 : bits n 31 0 = i.toNat := (fc 31 0 (by decide) (by decide)).trans (bits_eq 32 (by omega) rfl)
  have h2 : bits n 40 32 = 2 := (fc 40 32 (by decide) (by decide)).trans (bits_eq 9 (by omega) rfl)
  have h3 : bits n 51 41 = d.num := (fc 51 41 (by decide) (by decide)).trans (bits_eq 11 (by omega) rfl)
  clear he
  refine of_fields hlt ho rfl ?_
  rw [in_integer ho (by decide) (by decide)]
  simp [decInteger, rD, fD, h1, h2, h3, hg, reg_dec]

theorem adda (g d a b t k) : Statement (.adda g d a b t k) := by
  intro n he hw
  have he := Option.some.inj he
  have := reg_lt d
  have := reg_lt a
  have := reg_lt b
  have := ty_lt t
  have := k.isLt
  obtain ⟨hlt, ho, hg, fd, fa, fb, ft, fv, fs, fc, fk, fz⟩ :=
    alu_word he (by decide) (by omega) (by omega) (by omega) (by omega) (by omega) (by omega) (by omega)
  have fs : bit n 11 = false := bit_zero fs
  clear he
  refine of_fields hlt ho rfl ?_
  rw [in_integer ho (by decide) (by decide)]
  simp [decInteger, dec3, fC, fTy, fIV, fSat, rD, rA, rB, fD, fA, fB, fd, fa, fb, ft, fv, fz, fs, hg, need, reg_dec, ty_dec]

theorem addc (g d a b p v) : Statement (.addc g d a b p v) := by
  intro n he hw
  have he := Option.some.inj he
  have := reg_lt d
  have := reg_lt a
  have := reg_lt b
  have := carry_lt v
  have := p.isLt
  obtain ⟨hlt, ho, hg, fd, fa, fb, ft, fv, fs, fc, fk, fz⟩ :=
    alu_word he (by decide) (by omega) (by omega) (by omega) (by omega) (by omega) (by omega) (by omega)
  have fs : bit n 11 = false := bit_zero fs
  have h1 : bits n 10 8 = p.val := (fc 10 8 (by decide) (by decide)).trans (bits_eq 3 (by omega) rfl)
  have h2 : bits n 7 0 = 0 := (fc 7 0 (by decide) (by decide)).trans (bits_eq 8 (by omega) rfl)
  clear he
  refine of_fields hlt ho rfl ?_
  rw [in_integer ho (by decide) (by decide)]
  simp [decInteger, fTy, fIV, fSat, rD, rA, rB, fD, fA, fB, fd, fa, fb, ft, fv, fs, h1, h2, hg, need, fin, carry_dec, reg_dec]

theorem fadd (g d a b t r s) : Statement (.fadd g d a b t r s) := by
  intro n he hw
  have he := Option.some.inj he
  have := reg_lt d
  have := reg_lt a
  have := reg_lt b
  have := ty_lt t
  have := rnd_lt r
  have := b2n_lt (s)
  obtain ⟨hlt, ho, hg, fd, fa, fb, ft, fv, fs, fc, fk, fz⟩ :=
    alu_word he (by decide) (by omega) (by omega) (by omega) (by omega) (by omega) (by omega) (by omega)
  have fs := bit_b2n fs
  clear he
  refine of_fields hlt ho rfl ?_
  rw [in_float ho (by decide) (by decide)]
  simp [decFloat, dec3r, dec3, fC, fTy, fIV, fSat, rD, rA, rB, fD, fA, fB, fd, fa, fb, ft, fv, fz, fs, hg, need, reg_dec, rnd_dec, ty_dec]

theorem fsub (g d a b t r s) : Statement (.fsub g d a b t r s) := by
  intro n he hw
  have he := Option.some.inj he
  have := reg_lt d
  have := reg_lt a
  have := reg_lt b
  have := ty_lt t
  have := rnd_lt r
  have := b2n_lt (s)
  obtain ⟨hlt, ho, hg, fd, fa, fb, ft, fv, fs, fc, fk, fz⟩ :=
    alu_word he (by decide) (by omega) (by omega) (by omega) (by omega) (by omega) (by omega) (by omega)
  have fs := bit_b2n fs
  clear he
  refine of_fields hlt ho rfl ?_
  rw [in_float ho (by decide) (by decide)]
  simp [decFloat, dec3r, dec3, fC, fTy, fIV, fSat, rD, rA, rB, fD, fA, fB, fd, fa, fb, ft, fv, fz, fs, hg, need, reg_dec, rnd_dec, ty_dec]

theorem fmul (g d a b t r s) : Statement (.fmul g d a b t r s) := by
  intro n he hw
  have he := Option.some.inj he
  have := reg_lt d
  have := reg_lt a
  have := reg_lt b
  have := ty_lt t
  have := rnd_lt r
  have := b2n_lt (s)
  obtain ⟨hlt, ho, hg, fd, fa, fb, ft, fv, fs, fc, fk, fz⟩ :=
    alu_word he (by decide) (by omega) (by omega) (by omega) (by omega) (by omega) (by omega) (by omega)
  have fs := bit_b2n fs
  clear he
  refine of_fields hlt ho rfl ?_
  rw [in_float ho (by decide) (by decide)]
  simp [decFloat, dec3r, dec3, fC, fTy, fIV, fSat, rD, rA, rB, fD, fA, fB, fd, fa, fb, ft, fv, fz, fs, hg, need, reg_dec, rnd_dec, ty_dec]

theorem ffma (g d a b c t r s) : Statement (.ffma g d a b c t r s) := by
  intro n he hw
  have he := Option.some.inj he
  have := reg_lt d
  have := reg_lt a
  have := reg_lt b
  have := ty_lt t
  have := rnd_lt r
  have := b2n_lt (s)
  have := reg_lt c
  obtain ⟨hlt, ho, hg, fd, fa, fb, ft, fv, fs, fc, fk, fz⟩ :=
    alu_word he (by decide) (by omega) (by omega) (by omega) (by omega) (by omega) (by omega) (by omega)
  have fs := bit_b2n fs
  clear he
  refine of_fields hlt ho rfl ?_
  rw [in_float ho (by decide) (by decide)]
  simp [decFloat, dec4, fTy, fIV, fSat, rD, rA, rB, rC, fD, fA, fB, fC, fd, fa, fb, ft, fv, fz, fs, hg, reg_dec, rnd_dec, ty_dec]

theorem fmin (g d a b t m) : Statement (.fmin g d a b t m) := by
  intro n he hw
  have he := Option.some.inj he
  have := reg_lt d
  have := reg_lt a
  have := reg_lt b
  have := ty_lt t
  have := b2n_lt (m)
  obtain ⟨hlt, ho, hg, fd, fa, fb, ft, fv, fs, fc, fk, fz⟩ :=
    alu_word he (by decide) (by omega) (by omega) (by omega) (by omega) (by omega) (by omega) (by omega)
  have fs : bit n 11 = false := bit_zero fs
  clear he
  refine of_fields hlt ho rfl ?_
  rw [in_float ho (by decide) (by decide)]
  simp [decFloat, dec3, fC, fTy, fIV, fSat, rD, rA, rB, fD, fA, fB, fd, fa, fb, ft, fv, fz, fs, hg, need, reg_dec, ty_dec]
  cases m <;> simp [b2n]

theorem fmax (g d a b t m) : Statement (.fmax g d a b t m) := by
  intro n he hw
  have he := Option.some.inj he
  have := reg_lt d
  have := reg_lt a
  have := reg_lt b
  have := ty_lt t
  have := b2n_lt (m)
  obtain ⟨hlt, ho, hg, fd, fa, fb, ft, fv, fs, fc, fk, fz⟩ :=
    alu_word he (by decide) (by omega) (by omega) (by omega) (by omega) (by omega) (by omega) (by omega)
  have fs : bit n 11 = false := bit_zero fs
  clear he
  refine of_fields hlt ho rfl ?_
  rw [in_float ho (by decide) (by decide)]
  simp [decFloat, dec3, fC, fTy, fIV, fSat, rD, rA, rB, fD, fA, fB, fd, fa, fb, ft, fv, fz, fs, hg, need, reg_dec, ty_dec]
  cases m <;> simp [b2n]

theorem fcmp (g p a b t cc cb) : Statement (.fcmp g p a b t cc cb) := by
  intro n he hw
  have he := Option.some.inj he
  have := reg_lt a
  have := reg_lt b
  have := ty_lt t
  have := fcond_lt cc
  have := p.isLt
  have := comb_lt cb
  obtain ⟨hlt, ho, hg, fd, fa, fb, ft, fv, fs, fc, fk, fz⟩ :=
    alu_word he (by decide) (by omega) (by omega) (by omega) (by omega) (by omega) (by omega) (by omega)
  have fs : bit n 11 = false := bit_zero fs
  have h1 : bits n 10 8 = p.val := (fc 10 8 (by decide) (by decide)).trans (bits_eq 3 (by omega) rfl)
  have h2 : bits n 5 0 = 0 := (fc 5 0 (by decide) (by decide)).trans (bits_eq 6 (by omega) rfl)
  have h3 : bits n 7 6 = cb.code := (fc 7 6 (by decide) (by decide)).trans (bits_eq 2 (by omega) rfl)
  clear he
  refine of_fields hlt ho rfl ?_
  rw [in_float ho (by decide) (by decide)]
  simp [decFloat, decCmp, fD, fTy, fIV, fSat, rA, rB, fA, fB, fd, fa, fb, ft, fv, fs, h1, h2, h3, hg, need, fin, comb_dec, fcond_dec, reg_dec, ty_dec]

theorem fclass (g d a t) : Statement (.fclass g d a t) := by
  intro n he hw
  have he := Option.some.inj he
  have := reg_lt d
  have := reg_lt a
  have := ty_lt t
  obtain ⟨hlt, ho, hg, fd, fa, fb, ft, fv, fs, fc, fk, fz⟩ :=
    alu_word he (by decide) (by omega) (by omega) (by omega) (by omega) (by omega) (by omega) (by omega)
  have fs : bit n 11 = false := bit_zero fs
  clear he
  refine of_fields hlt ho rfl ?_
  rw [in_float ho (by decide) (by decide)]
  simp [decFloat, dec2p, dec2, fB, fC, fTy, fIV, fSat, rD, rA, fD, fA, fd, fa, fb, ft, fv, fz, fs, hg, need, reg_dec, ty_dec]

theorem frnd (g d a t r) : Statement (.frnd g d a t r) := by
  intro n he hw
  have he := Option.some.inj he
  have := reg_lt d
  have := reg_lt a
  have := ty_lt t
  have := rnd_lt r
  obtain ⟨hlt, ho, hg, fd, fa, fb, ft, fv, fs, fc, fk, fz⟩ :=
    alu_word he (by decide) (by omega) (by omega) (by omega) (by omega) (by omega) (by omega) (by omega)
  have fs : bit n 11 = false := bit_zero fs
  clear he
  refine of_fields hlt ho rfl ?_
  rw [in_float ho (by decide) (by decide)]
  simp [decFloat, dec2r, dec2, fB, fC, fTy, fIV, fSat, rD, rA, fD, fA, fd, fa, fb, ft, fv, fz, fs, hg, need, reg_dec, rnd_dec, ty_dec]

theorem fscale (g d a b t r s) : Statement (.fscale g d a b t r s) := by
  intro n he hw
  have he := Option.some.inj he
  have := reg_lt d
  have := reg_lt a
  have := reg_lt b
  have := ty_lt t
  have := rnd_lt r
  have := b2n_lt (s)
  obtain ⟨hlt, ho, hg, fd, fa, fb, ft, fv, fs, fc, fk, fz⟩ :=
    alu_word he (by decide) (by omega) (by omega) (by omega) (by omega) (by omega) (by omega) (by omega)
  have fs := bit_b2n fs
  clear he
  refine of_fields hlt ho rfl ?_
  rw [in_float ho (by decide) (by decide)]
  simp [decFloat, dec3r, dec3, fC, fTy, fIV, fSat, rD, rA, rB, fD, fA, fB, fd, fa, fb, ft, fv, fz, fs, hg, need, reg_dec, rnd_dec, ty_dec]

theorem rcp (g d a t r) : Statement (.rcp g d a t r) := by
  intro n he hw
  have he := Option.some.inj he
  have := reg_lt d
  have := reg_lt a
  have := ty_lt t
  have := rnd_lt r
  obtain ⟨hlt, ho, hg, fd, fa, fb, ft, fv, fs, fc, fk, fz⟩ :=
    alu_word he (by decide) (by omega) (by omega) (by omega) (by omega) (by omega) (by omega) (by omega)
  have fs : bit n 11 = false := bit_zero fs
  clear he
  refine of_fields hlt ho rfl ?_
  rw [in_float ho (by decide) (by decide)]
  simp [decFloat, dec2r, dec2, fB, fC, fTy, fIV, fSat, rD, rA, fD, fA, fd, fa, fb, ft, fv, fz, fs, hg, need, reg_dec, rnd_dec, ty_dec]

theorem rsq (g d a t) : Statement (.rsq g d a t) := by
  intro n he hw
  have he := Option.some.inj he
  have := reg_lt d
  have := reg_lt a
  have := ty_lt t
  obtain ⟨hlt, ho, hg, fd, fa, fb, ft, fv, fs, fc, fk, fz⟩ :=
    alu_word he (by decide) (by omega) (by omega) (by omega) (by omega) (by omega) (by omega) (by omega)
  have fs : bit n 11 = false := bit_zero fs
  clear he
  refine of_fields hlt ho rfl ?_
  rw [in_float ho (by decide) (by decide)]
  simp [decFloat, dec2p, dec2, fB, fC, fTy, fIV, fSat, rD, rA, fD, fA, fd, fa, fb, ft, fv, fz, fs, hg, need, reg_dec, ty_dec]

theorem sqrt (g d a t r) : Statement (.sqrt g d a t r) := by
  intro n he hw
  have he := Option.some.inj he
  have := reg_lt d
  have := reg_lt a
  have := ty_lt t
  have := rnd_lt r
  obtain ⟨hlt, ho, hg, fd, fa, fb, ft, fv, fs, fc, fk, fz⟩ :=
    alu_word he (by decide) (by omega) (by omega) (by omega) (by omega) (by omega) (by omega) (by omega)
  have fs : bit n 11 = false := bit_zero fs
  clear he
  refine of_fields hlt ho rfl ?_
  rw [in_float ho (by decide) (by decide)]
  simp [decFloat, dec2r, dec2, fB, fC, fTy, fIV, fSat, rD, rA, fD, fA, fd, fa, fb, ft, fv, fz, fs, hg, need, reg_dec, rnd_dec, ty_dec]

theorem ex2 (g d a) : Statement (.ex2 g d a) := by
  intro n he hw
  have he := Option.some.inj he
  have := reg_lt d
  have := reg_lt a
  obtain ⟨hlt, ho, hg, fd, fa, fb, ft, fv, fs, fc, fk, fz⟩ :=
    alu_word he (by decide) (by omega) (by omega) (by omega) (by omega) (by omega) (by omega) (by omega)
  have fs : bit n 11 = false := bit_zero fs
  clear he
  refine of_fields hlt ho rfl ?_
  rw [in_float ho (by decide) (by decide)]
  simp [decFloat, dec2f, dec2, fB, fC, fTy, fIV, fSat, rD, rA, fD, fA, fd, fa, fb, ft, fv, fz, fs, hg, need, reg_dec, decTy]

theorem lg2 (g d a) : Statement (.lg2 g d a) := by
  intro n he hw
  have he := Option.some.inj he
  have := reg_lt d
  have := reg_lt a
  obtain ⟨hlt, ho, hg, fd, fa, fb, ft, fv, fs, fc, fk, fz⟩ :=
    alu_word he (by decide) (by omega) (by omega) (by omega) (by omega) (by omega) (by omega) (by omega)
  have fs : bit n 11 = false := bit_zero fs
  clear he
  refine of_fields hlt ho rfl ?_
  rw [in_float ho (by decide) (by decide)]
  simp [decFloat, dec2f, dec2, fB, fC, fTy, fIV, fSat, rD, rA, fD, fA, fd, fa, fb, ft, fv, fz, fs, hg, need, reg_dec, decTy]

theorem sin (g d a) : Statement (.sin g d a) := by
  intro n he hw
  have he := Option.some.inj he
  have := reg_lt d
  have := reg_lt a
  obtain ⟨hlt, ho, hg, fd, fa, fb, ft, fv, fs, fc, fk, fz⟩ :=
    alu_word he (by decide) (by omega) (by omega) (by omega) (by omega) (by omega) (by omega) (by omega)
  have fs : bit n 11 = false := bit_zero fs
  clear he
  refine of_fields hlt ho rfl ?_
  rw [in_float ho (by decide) (by decide)]
  simp [decFloat, dec2f, dec2, fB, fC, fTy, fIV, fSat, rD, rA, fD, fA, fd, fa, fb, ft, fv, fz, fs, hg, need, reg_dec, decTy]

theorem cos (g d a) : Statement (.cos g d a) := by
  intro n he hw
  have he := Option.some.inj he
  have := reg_lt d
  have := reg_lt a
  obtain ⟨hlt, ho, hg, fd, fa, fb, ft, fv, fs, fc, fk, fz⟩ :=
    alu_word he (by decide) (by omega) (by omega) (by omega) (by omega) (by omega) (by omega) (by omega)
  have fs : bit n 11 = false := bit_zero fs
  clear he
  refine of_fields hlt ho rfl ?_
  rw [in_float ho (by decide) (by decide)]
  simp [decFloat, dec2f, dec2, fB, fC, fTy, fIV, fSat, rD, rA, fD, fA, fd, fa, fb, ft, fv, fz, fs, hg, need, reg_dec, decTy]

theorem tanh (g d a) : Statement (.tanh g d a) := by
  intro n he hw
  have he := Option.some.inj he
  have := reg_lt d
  have := reg_lt a
  obtain ⟨hlt, ho, hg, fd, fa, fb, ft, fv, fs, fc, fk, fz⟩ :=
    alu_word he (by decide) (by omega) (by omega) (by omega) (by omega) (by omega) (by omega) (by omega)
  have fs : bit n 11 = false := bit_zero fs
  clear he
  refine of_fields hlt ho rfl ?_
  rw [in_float ho (by decide) (by decide)]
  simp [decFloat, dec2f, dec2, fB, fC, fTy, fIV, fSat, rD, rA, fD, fA, fd, fa, fb, ft, fv, fz, fs, hg, need, reg_dec, decTy]

theorem hfma2 (g d a b c t r s) : Statement (.hfma2 g d a b c t r s) := by
  intro n he hw
  have he := Option.some.inj he
  have := reg_lt d
  have := reg_lt a
  have := reg_lt b
  have := ty_lt t
  have := rnd_lt r
  have := b2n_lt (s)
  have := reg_lt c
  obtain ⟨hlt, ho, hg, fd, fa, fb, ft, fv, fs, fc, fk, fz⟩ :=
    alu_word he (by decide) (by omega) (by omega) (by omega) (by omega) (by omega) (by omega) (by omega)
  have fs := bit_b2n fs
  clear he
  refine of_fields hlt ho rfl ?_
  rw [in_float ho (by decide) (by decide)]
  simp [decFloat, dec4, fTy, fIV, fSat, rD, rA, rB, rC, fD, fA, fB, fC, fd, fa, fb, ft, fv, fz, fs, hg, reg_dec, rnd_dec, ty_dec]

theorem hadd2 (g d a b t r s) : Statement (.hadd2 g d a b t r s) := by
  intro n he hw
  have he := Option.some.inj he
  have := reg_lt d
  have := reg_lt a
  have := reg_lt b
  have := ty_lt t
  have := rnd_lt r
  have := b2n_lt (s)
  obtain ⟨hlt, ho, hg, fd, fa, fb, ft, fv, fs, fc, fk, fz⟩ :=
    alu_word he (by decide) (by omega) (by omega) (by omega) (by omega) (by omega) (by omega) (by omega)
  have fs := bit_b2n fs
  clear he
  refine of_fields hlt ho rfl ?_
  rw [in_float ho (by decide) (by decide)]
  simp [decFloat, dec3r, dec3, fC, fTy, fIV, fSat, rD, rA, rB, fD, fA, fB, fd, fa, fb, ft, fv, fz, fs, hg, need, reg_dec, rnd_dec, ty_dec]

theorem hmul2 (g d a b t r s) : Statement (.hmul2 g d a b t r s) := by
  intro n he hw
  have he := Option.some.inj he
  have := reg_lt d
  have := reg_lt a
  have := reg_lt b
  have := ty_lt t
  have := rnd_lt r
  have := b2n_lt (s)
  obtain ⟨hlt, ho, hg, fd, fa, fb, ft, fv, fs, fc, fk, fz⟩ :=
    alu_word he (by decide) (by omega) (by omega) (by omega) (by omega) (by omega) (by omega) (by omega)
  have fs := bit_b2n fs
  clear he
  refine of_fields hlt ho rfl ?_
  rw [in_float ho (by decide) (by decide)]
  simp [decFloat, dec3r, dec3, fC, fTy, fIV, fSat, rD, rA, rB, fD, fA, fB, fd, fa, fb, ft, fv, fz, fs, hg, need, reg_dec, rnd_dec, ty_dec]

theorem cvt (g d a dt sy e r s) : Statement (.cvt g d a dt sy e r s) := by
  intro n he hw
  have he := Option.some.inj he
  have := reg_lt d
  have := reg_lt a
  have := ty_lt dt
  have := rnd_lt r
  have := b2n_lt (s)
  have := e.isLt
  have := ty_lt sy
  obtain ⟨hlt, ho, hg, fd, fa, fb, ft, fv, fs, fc, fk, fz⟩ :=
    alu_word he (by decide) (by omega) (by omega) (by omega) (by omega) (by omega) (by omega) (by omega)
  have fs := bit_b2n fs
  have h1 : bits n 10 7 = 0 := (fc 10 7 (by decide) (by decide)).trans (bits_eq 4 (by omega) rfl)
  have h2 : bits n 3 0 = sy.code := (fc 3 0 (by decide) (by decide)).trans (bits_eq 4 (by omega) rfl)
  have h3 : bits n 6 4 = e.val := (fc 6 4 (by decide) (by decide)).trans (bits_eq 3 (by omega) rfl)
  clear he
  refine of_fields hlt ho rfl ?_
  rw [in_convert ho (by decide) (by decide)]
  simp [decConvert, fB, fTy, fIV, fSat, rD, rA, fD, fA, fd, fa, fb, ft, fv, fs, h1, h2, h3, hg, need, fin, reg_dec, rnd_dec, ty_dec]

theorem cvtef (g d e a dt sy r s) : Statement (.cvtef g d e a dt sy r s) := by
  intro n he hw
  have he := Option.some.inj he
  have := reg_lt d
  have := reg_lt a
  have := reg_lt e
  have := ty_lt dt
  have := rnd_lt r
  have := b2n_lt (s)
  have := ty_lt sy
  obtain ⟨hlt, ho, hg, fd, fa, fb, ft, fv, fs, fc, fk, fz⟩ :=
    alu_word he (by decide) (by omega) (by omega) (by omega) (by omega) (by omega) (by omega) (by omega)
  have fs := bit_b2n fs
  have h1 : bits n 10 4 = 0 := (fc 10 4 (by decide) (by decide)).trans (bits_eq 7 (by omega) rfl)
  have h2 : bits n 3 0 = sy.code := (fc 3 0 (by decide) (by decide)).trans (bits_eq 4 (by omega) rfl)
  clear he
  refine of_fields hlt ho rfl ?_
  rw [in_convert ho (by decide) (by decide)]
  simp [decConvert, fTy, fIV, fSat, rD, rA, rB, fD, fA, fB, fd, fa, fb, ft, fv, fs, h1, h2, hg, need, reg_dec, rnd_dec, ty_dec]

theorem cvtmx (g d s a t k) : Statement (.cvtmx g d s a t k) := by
  intro n he hw
  have he := Option.some.inj he
  have := reg_lt d
  have := reg_lt a
  have := reg_lt s
  have := ty_lt t
  have := k.isLt
  obtain ⟨hlt, ho, hg, fd, fa, fb, ft, fv, fs, fc, fk, fz⟩ :=
    alu_word he (by decide) (by omega) (by omega) (by omega) (by omega) (by omega) (by omega) (by omega)
  have fs : bit n 11 = false := bit_zero fs
  have h1 : bits n 10 3 = 0 := (fc 10 3 (by decide) (by decide)).trans (bits_eq 8 (by omega) rfl)
  have h2 : bits n 2 0 = k.val := (fc 2 0 (by decide) (by decide)).trans (bits_eq 3 (by omega) rfl)
  clear he
  refine of_fields hlt ho rfl ?_
  rw [in_convert ho (by decide) (by decide)]
  simp [decConvert, fD, fA, fB, fTy, fIV, fSat, rD, rA, rB, fd, fa, fb, ft, fv, fs, h1, h2, hg, need, fin, reg_dec, ty_dec]

theorem cvtmxAcc (g a) : Statement (.cvtmxAcc g a) := by
  intro n he hw
  have he := Option.some.inj he
  have := reg_lt a
  obtain ⟨hlt, ho, hg, fd, fa, fb, ft, fv, fs, fc, fk, fz⟩ :=
    alu_word he (by decide) (by omega) (by omega) (by omega) (by omega) (by omega) (by omega) (by omega)
  have fs : bit n 11 = false := bit_zero fs
  have h1 : bits n 10 3 = 0 := (fc 10 3 (by decide) (by decide)).trans (bits_eq 8 (by omega) rfl)
  have h2 : bits n 2 0 = 0 := (fc 2 0 (by decide) (by decide)).trans (bits_eq 3 (by omega) rfl)
  clear he
  refine of_fields hlt ho rfl ?_
  rw [in_convert ho (by decide) (by decide)]
  simp [decConvert, fD, fA, fB, fTy, fIV, fSat, rA, fd, fa, fb, ft, fv, fs, h1, h2, hg, need, reg_dec, decTy]

theorem cvtmxRep (g d t k) : Statement (.cvtmxRep g d t k) := by
  intro n he hw
  have he := Option.some.inj he
  have := reg_lt d
  have := ty_lt t
  have := k.isLt
  obtain ⟨hlt, ho, hg, fd, fa, fb, ft, fv, fs, fc, fk, fz⟩ :=
    alu_word he (by decide) (by omega) (by omega) (by omega) (by omega) (by omega) (by omega) (by omega)
  have fs : bit n 11 = false := bit_zero fs
  have h1 : bits n 10 3 = 0 := (fc 10 3 (by decide) (by decide)).trans (bits_eq 8 (by omega) rfl)
  have h2 : bits n 2 0 = k.val := (fc 2 0 (by decide) (by decide)).trans (bits_eq 3 (by omega) rfl)
  clear he
  refine of_fields hlt ho rfl ?_
  rw [in_convert ho (by decide) (by decide)]
  simp [decConvert, fD, fA, fB, fTy, fIV, fSat, rD, fd, fa, fb, ft, fv, fs, h1, h2, hg, need, fin, reg_dec, ty_dec]

theorem cvtmxClr (g) : Statement (.cvtmxClr g) := by
  intro n he hw
  have he := Option.some.inj he
  obtain ⟨hlt, ho, hg, fd, fa, fb, ft, fv, fs, fc, fk, fz⟩ :=
    alu_word he (by decide) (by omega) (by omega) (by omega) (by omega) (by omega) (by omega) (by omega)
  have fs : bit n 11 = false := bit_zero fs
  have h1 : bits n 10 3 = 0 := (fc 10 3 (by decide) (by decide)).trans (bits_eq 8 (by omega) rfl)
  have h2 : bits n 2 0 = 0 := (fc 2 0 (by decide) (by decide)).trans (bits_eq 3 (by omega) rfl)
  clear he
  refine of_fields hlt ho rfl ?_
  rw [in_convert ho (by decide) (by decide)]
  simp [decConvert, fD, fA, fB, fTy, fIV, fSat, fd, fa, fb, ft, fv, fs, h1, h2, hg, need, decTy]

theorem pack (g d a dt sy r s) : Statement (.pack g d a dt sy r s) := by
  intro n he hw
  have he := Option.some.inj he
  have := reg_lt d
  have := reg_lt a
  have := ty_lt dt
  have := rnd_lt r
  have := b2n_lt (s)
  have := ty_lt sy
  obtain ⟨hlt, ho, hg, fd, fa, fb, ft, fv, fs, fc, fk, fz⟩ :=
    alu_word he (by decide) (by omega) (by omega) (by omega) (by omega) (by omega) (by omega) (by omega)
  have fs := bit_b2n fs
  have h1 : bits n 10 4 = 0 := (fc 10 4 (by decide) (by decide)).trans (bits_eq 7 (by omega) rfl)
  have h2 : bits n 3 0 = sy.code := (fc 3 0 (by decide) (by decide)).trans (bits_eq 4 (by omega) rfl)
  clear he
  refine of_fields hlt ho rfl ?_
  rw [in_convert ho (by decide) (by decide)]
  simp [decConvert, fB, fTy, fIV, fSat, rD, rA, fD, fA, fd, fa, fb, ft, fv, fs, h1, h2, hg, need, reg_dec, rnd_dec, ty_dec]

theorem unpk (g d a dt sy) : Statement (.unpk g d a dt sy) := by
  intro n he hw
  have he := Option.some.inj he
  have := reg_lt d
  have := reg_lt a
  have := ty_lt dt
  have := ty_lt sy
  obtain ⟨hlt, ho, hg, fd, fa, fb, ft, fv, fs, fc, fk, fz⟩ :=
    alu_word he (by decide) (by omega) (by omega) (by omega) (by omega) (by omega) (by omega) (by omega)
  have fs : bit n 11 = false := bit_zero fs
  have h1 : bits n 10 4 = 0 := (fc 10 4 (by decide) (by decide)).trans (bits_eq 7 (by omega) rfl)
  have h2 : bits n 3 0 = sy.code := (fc 3 0 (by decide) (by decide)).trans (bits_eq 4 (by omega) rfl)
  clear he
  refine of_fields hlt ho rfl ?_
  rw [in_convert ho (by decide) (by decide)]
  simp [decConvert, fB, fTy, fIV, fSat, rD, rA, fD, fA, fd, fa, fb, ft, fv, fs, h1, h2, hg, need, reg_dec, ty_dec]

theorem dot4 (g d a b c sy r s) : Statement (.dot4 g d a b c sy r s) := by
  intro n he hw
  have he := Option.some.inj he
  have := reg_lt d
  have := reg_lt a
  have := reg_lt b
  have := ty_lt sy
  have := rnd_lt r
  have := b2n_lt (s)
  have := reg_lt c
  obtain ⟨hlt, ho, hg, fd, fa, fb, ft, fv, fs, fc, fk, fz⟩ :=
    alu_word he (by decide) (by omega) (by omega) (by omega) (by omega) (by omega) (by omega) (by omega)
  have fs := bit_b2n fs
  clear he
  refine of_fields hlt ho rfl ?_
  rw [in_convert ho (by decide) (by decide)]
  simp [decConvert, dec4, fTy, fIV, fSat, rD, rA, rB, rC, fD, fA, fB, fC, fd, fa, fb, ft, fv, fz, fs, hg, reg_dec, rnd_dec, ty_dec]

theorem dot8 (g d a b c r s) : Statement (.dot8 g d a b c r s) := by
  intro n he hw
  have he := Option.some.inj he
  have := reg_lt d
  have := reg_lt a
  have := reg_lt b
  have := rnd_lt r
  have := b2n_lt (s)
  have := reg_lt c
  obtain ⟨hlt, ho, hg, fd, fa, fb, ft, fv, fs, fc, fk, fz⟩ :=
    alu_word he (by decide) (by omega) (by omega) (by omega) (by omega) (by omega) (by omega) (by omega)
  have fs := bit_b2n fs
  clear he
  refine of_fields hlt ho rfl ?_
  rw [in_convert ho (by decide) (by decide)]
  simp [decConvert, dec4, fTy, fIV, fSat, rD, rA, rB, rC, fD, fA, fB, fC, fd, fa, fb, ft, fv, fz, fs, hg, need, reg_dec, rnd_dec, decTy]

theorem shfl (g m d a b t ok) : Statement (.shfl g m d a b t ok) := by
  intro n he hw
  have he := Option.some.inj he
  have := reg_lt d
  have := reg_lt a
  have := reg_lt b
  have := ty_lt t
  have := shfl_lt m
  have := b2n_lt (ok.isSome)
  have := (ok.getD 0).isLt
  obtain ⟨hlt, ho, hg, fd, fa, fb, ft, fv, fs, fc, fk, fz⟩ :=
    alu_word he (by decide) (by omega) (by omega) (by omega) (by omega) (by omega) (by omega) (by omega)
  have fs := bit_b2n fs
  have h1 : bits n 10 8 = (ok.getD 0).val := (fc 10 8 (by decide) (by decide)).trans (bits_eq 3 (by omega) rfl)
  have h2 : bits n 7 0 = 0 := (fc 7 0 (by decide) (by decide)).trans (bits_eq 8 (by omega) rfl)
  clear he
  refine of_fields hlt ho rfl ?_
  rw [in_lanes ho (by decide) (by decide)]
  simp [decLanes, fTy, fIV, rD, rA, rB, fD, fA, fB, fd, fa, fb, ft, fv, fs, h1, h2, hg, need, fin, reg_dec, shfl_dec, ty_dec]
  cases ok <;> simp

theorem voteSome (g p q m) : Statement (.voteSome g p q m) := by
  intro n he hw
  have he := Option.some.inj he
  have := p.isLt
  have := q.isLt
  have := b2n_lt (m)
  obtain ⟨hlt, ho, hg, fd, fa, fb, ft, fv, fs, fc, fk, fz⟩ :=
    alu_word he (by decide) (by omega) (by omega) (by omega) (by omega) (by omega) (by omega) (by omega)
  have fs : bit n 11 = false := bit_zero fs
  have h1 : bits n 10 8 = p.val := (fc 10 8 (by decide) (by decide)).trans (bits_eq 3 (by omega) rfl)
  have h2 : bits n 3 0 = 0 := (fc 3 0 (by decide) (by decide)).trans (bits_eq 4 (by omega) rfl)
  have h3 : bit n 4 = m := bit_b2n ((fc 4 4 (by decide) (by decide)).trans (bits_eq 1 (by omega) rfl))
  have h4 : bits n 7 5 = q.val := (fc 7 5 (by decide) (by decide)).trans (bits_eq 3 (by omega) rfl)
  clear he
  refine of_fields hlt ho rfl ?_
  rw [in_lanes ho (by decide) (by decide)]
  simp [decLanes, fD, fA, fB, fTy, fIV, fd, fa, fb, ft, fv, fs, h1, h2, h3, h4, hg, need, fin]

theorem voteEvery (g p q m) : Statement (.voteEvery g p q m) := by
  intro n he hw
  have he := Option.some.inj he
  have := p.isLt
  have := q.isLt
  have := b2n_lt (m)
  obtain ⟨hlt, ho, hg, fd, fa, fb, ft, fv, fs, fc, fk, fz⟩ :=
    alu_word he (by decide) (by omega) (by omega) (by omega) (by omega) (by omega) (by omega) (by omega)
  have fs : bit n 11 = false := bit_zero fs
  have h1 : bits n 10 8 = p.val := (fc 10 8 (by decide) (by decide)).trans (bits_eq 3 (by omega) rfl)
  have h2 : bits n 3 0 = 0 := (fc 3 0 (by decide) (by decide)).trans (bits_eq 4 (by omega) rfl)
  have h3 : bit n 4 = m := bit_b2n ((fc 4 4 (by decide) (by decide)).trans (bits_eq 1 (by omega) rfl))
  have h4 : bits n 7 5 = q.val := (fc 7 5 (by decide) (by decide)).trans (bits_eq 3 (by omega) rfl)
  clear he
  refine of_fields hlt ho rfl ?_
  rw [in_lanes ho (by decide) (by decide)]
  simp [decLanes, fD, fA, fB, fTy, fIV, fd, fa, fb, ft, fv, fs, h1, h2, h3, h4, hg, need, fin]

theorem voteSame (g p a t) : Statement (.voteSame g p a t) := by
  intro n he hw
  have he := Option.some.inj he
  have := reg_lt a
  have := ty_lt t
  have := p.isLt
  obtain ⟨hlt, ho, hg, fd, fa, fb, ft, fv, fs, fc, fk, fz⟩ :=
    alu_word he (by decide) (by omega) (by omega) (by omega) (by omega) (by omega) (by omega) (by omega)
  have fs : bit n 11 = false := bit_zero fs
  have h1 : bits n 10 8 = p.val := (fc 10 8 (by decide) (by decide)).trans (bits_eq 3 (by omega) rfl)
  have h4 : bits n 7 0 = 0 := (fc 7 0 (by decide) (by decide)).trans (bits_eq 8 (by omega) rfl)
  clear he
  refine of_fields hlt ho rfl ?_
  rw [in_lanes ho (by decide) (by decide)]
  simp [decLanes, fD, fA, fB, fTy, fIV, rA, fd, fa, fb, ft, fv, fs, h1, h4, hg, need, fin, reg_dec, ty_dec]

theorem voteBits (g d q m) : Statement (.voteBits g d q m) := by
  intro n he hw
  have he := Option.some.inj he
  have := reg_lt d
  have := q.isLt
  have := b2n_lt (m)
  obtain ⟨hlt, ho, hg, fd, fa, fb, ft, fv, fs, fc, fk, fz⟩ :=
    alu_word he (by decide) (by omega) (by omega) (by omega) (by omega) (by omega) (by omega) (by omega)
  have fs : bit n 11 = false := bit_zero fs
  have h1 : bits n 10 8 = 0 := (fc 10 8 (by decide) (by decide)).trans (bits_eq 3 (by omega) rfl)
  have h2 : bits n 3 0 = 0 := (fc 3 0 (by decide) (by decide)).trans (bits_eq 4 (by omega) rfl)
  have h3 : bit n 4 = m := bit_b2n ((fc 4 4 (by decide) (by decide)).trans (bits_eq 1 (by omega) rfl))
  have h4 : bits n 7 5 = q.val := (fc 7 5 (by decide) (by decide)).trans (bits_eq 3 (by omega) rfl)
  clear he
  refine of_fields hlt ho rfl ?_
  rw [in_lanes ho (by decide) (by decide)]
  simp [decLanes, fD, fA, fB, fTy, fIV, rD, fd, fa, fb, ft, fv, fs, h1, h2, h3, h4, hg, need, fin, reg_dec]

theorem voteCnt (g d q m) : Statement (.voteCnt g d q m) := by
  intro n he hw
  have he := Option.some.inj he
  have := reg_lt d
  have := q.isLt
  have := b2n_lt (m)
  obtain ⟨hlt, ho, hg, fd, fa, fb, ft, fv, fs, fc, fk, fz⟩ :=
    alu_word he (by decide) (by omega) (by omega) (by omega) (by omega) (by omega) (by omega) (by omega)
  have fs : bit n 11 = false := bit_zero fs
  have h1 : bits n 10 8 = 0 := (fc 10 8 (by decide) (by decide)).trans (bits_eq 3 (by omega) rfl)
  have h2 : bits n 3 0 = 0 := (fc 3 0 (by decide) (by decide)).trans (bits_eq 4 (by omega) rfl)
  have h3 : bit n 4 = m := bit_b2n ((fc 4 4 (by decide) (by decide)).trans (bits_eq 1 (by omega) rfl))
  have h4 : bits n 7 5 = q.val := (fc 7 5 (by decide) (by decide)).trans (bits_eq 3 (by omega) rfl)
  clear he
  refine of_fields hlt ho rfl ?_
  rw [in_lanes ho (by decide) (by decide)]
  simp [decLanes, fD, fA, fB, fTy, fIV, rD, fd, fa, fb, ft, fv, fs, h1, h2, h3, h4, hg, need, fin, reg_dec]

theorem redux (g o d a t r s) : Statement (.redux g o d a t r s) := by
  intro n he hw
  have he := Option.some.inj he
  have := reg_lt d
  have := reg_lt a
  have := ty_lt t
  have := red_lt o
  have := rnd_lt r
  have := b2n_lt (s)
  obtain ⟨hlt, ho, hg, fc, fk⟩ := full_word he (by decide) (by unfold encAlu; omega)
  have h1 : bits n 11 9 = r.code := (fc 11 9 (by decide) (by decide)).trans (bits_eq 3 (by unfold encAlu; omega) rfl)
  have h2 : bits n 14 12 = o.code := (fc 14 12 (by decide) (by decide)).trans (bits_eq 3 (by unfold encAlu; omega) rfl)
  have h3 : bits n 18 15 = t.code := (fc 18 15 (by decide) (by decide)).trans (bits_eq 4 (by unfold encAlu; omega) rfl)
  have h4 : bits n 29 19 = 0 := (fc 29 19 (by decide) (by decide)).trans (bits_eq 11 (by unfold encAlu; omega) rfl)
  have h5 : bits n 40 30 = a.num := (fc 40 30 (by decide) (by decide)).trans (bits_eq 11 (by unfold encAlu; omega) rfl)
  have h6 : bits n 51 41 = d.num := (fc 51 41 (by decide) (by decide)).trans (bits_eq 11 (by unfold encAlu; omega) rfl)
  have h7 : bits n 6 0 = 0 := (fc 6 0 (by decide) (by decide)).trans (bits_eq 7 (by unfold encAlu; omega) rfl)
  have h8 : bit n 7 = false := bit_zero ((fc 7 7 (by decide) (by decide)).trans (bits_eq 1 (by unfold encAlu; omega) rfl))
  have h10 : bit n 8 = s := bit_b2n ((fc 8 8 (by decide) (by decide)).trans (bits_eq 1 (by unfold encAlu; omega) rfl))
  clear he
  refine of_fields hlt ho rfl ?_
  rw [in_lanes ho (by decide) (by decide)]
  simp [decLanes, decRed, fB, fTy, fIV, rD, rA, fD, fA, h1, h2, h3, h4, h5, h6, h7, h8, h10, hg, need, red_dec, reg_dec, rnd_dec, ty_dec]

theorem scan (g o d a t x r s) : Statement (.scan g o d a t x r s) := by
  intro n he hw
  have he := Option.some.inj he
  have := reg_lt d
  have := reg_lt a
  have := ty_lt t
  have := red_lt o
  have := rnd_lt r
  have := b2n_lt (s)
  have := b2n_lt (x)
  obtain ⟨hlt, ho, hg, fc, fk⟩ := full_word he (by decide) (by unfold encAlu; omega)
  have h1 : bits n 11 9 = r.code := (fc 11 9 (by decide) (by decide)).trans (bits_eq 3 (by unfold encAlu; omega) rfl)
  have h2 : bits n 14 12 = o.code := (fc 14 12 (by decide) (by decide)).trans (bits_eq 3 (by unfold encAlu; omega) rfl)
  have h3 : bits n 18 15 = t.code := (fc 18 15 (by decide) (by decide)).trans (bits_eq 4 (by unfold encAlu; omega) rfl)
  have h4 : bits n 29 19 = 0 := (fc 29 19 (by decide) (by decide)).trans (bits_eq 11 (by unfold encAlu; omega) rfl)
  have h5 : bits n 40 30 = a.num := (fc 40 30 (by decide) (by decide)).trans (bits_eq 11 (by unfold encAlu; omega) rfl)
  have h6 : bits n 51 41 = d.num := (fc 51 41 (by decide) (by decide)).trans (bits_eq 11 (by unfold encAlu; omega) rfl)
  have h7 : bits n 6 0 = 0 := (fc 6 0 (by decide) (by decide)).trans (bits_eq 7 (by unfold encAlu; omega) rfl)
  have h8 : bit n 7 = x := bit_b2n ((fc 7 7 (by decide) (by decide)).trans (bits_eq 1 (by unfold encAlu; omega) rfl))
  have h9 : bit n 8 = s := bit_b2n ((fc 8 8 (by decide) (by decide)).trans (bits_eq 1 (by unfold encAlu; omega) rfl))
  clear he
  refine of_fields hlt ho rfl ?_
  rw [in_lanes ho (by decide) (by decide)]
  simp [decLanes, decRed, fB, fTy, fIV, rD, rA, fD, fA, h1, h2, h3, h4, h5, h6, h7, h8, h9, hg, need, red_dec, reg_dec, rnd_dec, ty_dec]

theorem matchAny (g d a t fp) : Statement (.matchAny g d a t fp) := by
  intro n he hw
  have he := Option.some.inj he
  have := reg_lt d
  have := reg_lt a
  have := ty_lt t
  have := b2n_lt (fp)
  obtain ⟨hlt, ho, hg, fd, fa, fb, ft, fv, fs, fc, fk, fz⟩ :=
    alu_word he (by decide) (by omega) (by omega) (by omega) (by omega) (by omega) (by omega) (by omega)
  have fs := bit_b2n fs
  clear he
  refine of_fields hlt ho rfl ?_
  rw [in_lanes ho (by decide) (by decide)]
  simp [decLanes, decXl, fB, fTy, fIV, rD, rA, fD, fA, fd, fa, fb, ft, fv, fz, fs, hg, need, reg_dec, ty_dec]

theorem matchAll (g d p a t fp) : Statement (.matchAll g d p a t fp) := by
  intro n he hw
  have he := Option.some.inj he
  have := reg_lt d
  have := reg_lt a
  have := ty_lt t
  have := b2n_lt (fp)
  have := p.isLt
  obtain ⟨hlt, ho, hg, fd, fa, fb, ft, fv, fs, fc, fk, fz⟩ :=
    alu_word he (by decide) (by omega) (by omega) (by omega) (by omega) (by omega) (by omega) (by omega)
  have fs := bit_b2n fs
  have h1 : bits n 10 8 = p.val := (fc 10 8 (by decide) (by decide)).trans (bits_eq 3 (by omega) rfl)
  have h2 : bits n 7 0 = 0 := (fc 7 0 (by decide) (by decide)).trans (bits_eq 8 (by omega) rfl)
  clear he
  refine of_fields hlt ho rfl ?_
  rw [in_lanes ho (by decide) (by decide)]
  simp [decLanes, decXl, fB, fTy, fIV, rD, rA, fD, fA, fd, fa, fb, ft, fv, fs, h1, h2, hg, need, fin, reg_dec, ty_dec]

theorem qswp (g m d a t) : Statement (.qswp g m d a t) := by
  intro n he hw
  have he := Option.some.inj he
  have := reg_lt d
  have := reg_lt a
  have := ty_lt t
  have := quad_lt m
  obtain ⟨hlt, ho, hg, fd, fa, fb, ft, fv, fs, fc, fk, fz⟩ :=
    alu_word he (by decide) (by omega) (by omega) (by omega) (by omega) (by omega) (by omega) (by omega)
  have fs : bit n 11 = false := bit_zero fs
  have h2 : bits n 11 0 = 0 := (by rw [← he]; exact (full_low (by unfold encAlu; omega) (by decide) (by decide)).trans (bits_eq 12 (by unfold encAlu; omega) rfl))
  clear he
  refine of_fields hlt ho rfl ?_
  rw [in_lanes ho (by decide) (by decide)]
  simp [decLanes, decXl, fB, fTy, fIV, rD, rA, fD, fA, fd, fa, fb, ft, fv, h2, hg, need, quad_dec, reg_dec, ty_dec]

theorem qbc (g d a t j) : Statement (.qbc g d a t j) := by
  intro n he hw
  have he := Option.some.inj he
  have := reg_lt d
  have := reg_lt a
  have := ty_lt t
  have := j.isLt
  obtain ⟨hlt, ho, hg, fd, fa, fb, ft, fv, fs, fc, fk, fz⟩ :=
    alu_word he (by decide) (by omega) (by omega) (by omega) (by omega) (by omega) (by omega) (by omega)
  have fs : bit n 11 = false := bit_zero fs
  have h1 : bits n 1 0 = j.val := (fc 1 0 (by decide) (by decide)).trans (bits_eq 2 (by omega) rfl)
  have h3 : bits n 11 2 = 0 := (by rw [← he]; exact (full_low (by unfold encAlu; omega) (by decide) (by decide)).trans (bits_eq 10 (by unfold encAlu; omega) rfl))
  clear he
  refine of_fields hlt ho rfl ?_
  rw [in_lanes ho (by decide) (by decide)]
  simp [decLanes, decXl, fB, fTy, fIV, rD, rA, fD, fA, fd, fa, fb, ft, fv, h1, h3, hg, need, fin, reg_dec, ty_dec]

theorem rdfst (g d a t) : Statement (.rdfst g d a t) := by
  intro n he hw
  have he := Option.some.inj he
  have := reg_lt d
  have := reg_lt a
  have := ty_lt t
  obtain ⟨hlt, ho, hg, fd, fa, fb, ft, fv, fs, fc, fk, fz⟩ :=
    alu_word he (by decide) (by omega) (by omega) (by omega) (by omega) (by omega) (by omega) (by omega)
  have fs : bit n 11 = false := bit_zero fs
  have h2 : bits n 11 0 = 0 := (by rw [← he]; exact (full_low (by unfold encAlu; omega) (by decide) (by decide)).trans (bits_eq 12 (by unfold encAlu; omega) rfl))
  clear he
  refine of_fields hlt ho rfl ?_
  rw [in_lanes ho (by decide) (by decide)]
  simp [decLanes, decXl, fB, fTy, fIV, rD, rA, fD, fA, fd, fa, fb, ft, fv, h2, hg, need, reg_dec, ty_dec]

theorem part (g m) : Statement (.part g m) := by
  intro n he hw
  have he := Option.some.inj he
  have := m.isLt
  obtain ⟨hlt, ho, hg, fc, fk⟩ := full_word he (by decide) (by omega)
  have h2 : bits n 2 0 = m.val + 1 := (fc 2 0 (by decide) (by decide)).trans (bits_eq 3 (by omega) rfl)
  have h3 : bits n 51 3 = 0 := (fc 51 3 (by decide) (by decide)).trans (bits_eq 49 (by omega) rfl)
  clear he
  refine of_fields hlt ho rfl ?_
  rw [in_lanes ho (by decide) (by decide)]
  simp [decLanes, h2, h3, hg, need]

theorem lmask (g k d) : Statement (.lmask g k d) := by
  intro n he hw
  have he := Option.some.inj he
  have := reg_lt d
  have := mask_lt k
  obtain ⟨hlt, ho, hg, fd, fa, fb, ft, fv, fs, fc, fk, fz⟩ :=
    alu_word he (by decide) (by omega) (by omega) (by omega) (by omega) (by omega) (by omega) (by omega)
  have fs : bit n 11 = false := bit_zero fs
  have h2 : bits n 11 0 = 0 := (by rw [← he]; exact (full_low (by unfold encAlu; omega) (by decide) (by decide)).trans (bits_eq 12 (by unfold encAlu; omega) rfl))
  have h3 : bits n 40 15 = 0 := (by rw [← he]; exact (full_low (by unfold encAlu; omega) (by decide) (by decide)).trans (bits_eq 26 (by unfold encAlu; omega) rfl))
  clear he
  refine of_fields hlt ho rfl ?_
  rw [in_lanes ho (by decide) (by decide)]
  simp [decLanes, fIV, rD, fD, fd, fv, h2, h3, hg, need, mask_dec, reg_dec]

theorem elect (g d p) : Statement (.elect g d p) := by
  intro n he hw
  have he := Option.some.inj he
  have := reg_lt d
  have := p.isLt
  obtain ⟨hlt, ho, hg, fd, fa, fb, ft, fv, fs, fc, fk, fz⟩ :=
    alu_word he (by decide) (by omega) (by omega) (by omega) (by omega) (by omega) (by omega) (by omega)
  have fs : bit n 11 = false := bit_zero fs
  have h1 : bits n 10 8 = p.val := (fc 10 8 (by decide) (by decide)).trans (bits_eq 3 (by omega) rfl)
  have h2 : bits n 40 11 = 0 := (by rw [← he]; exact (full_low (by unfold encAlu; omega) (by decide) (by decide)).trans (bits_eq 30 (by unfold encAlu; omega) rfl))
  have h3 : bits n 7 0 = 0 := (fc 7 0 (by decide) (by decide)).trans (bits_eq 8 (by omega) rfl)
  clear he
  refine of_fields hlt ho rfl ?_
  rw [in_lanes ho (by decide) (by decide)]
  simp [decLanes, rD, fD, fd, h1, h2, h3, hg, need, fin, reg_dec]

theorem slot_bound (x : Slot) : encSlot x < 2 ^ 31 := by
  have := slot_lt x.op; have := x.g.isLt; have := x.d.isLt; have := x.a.isLt; have := x.ty.isLt; have := x.flags.isLt
  unfold encSlot; omega

theorem slot_read (x : Slot) : decSlot (encSlot x) = some x := by
  have := slot_lt x.op; have := x.g.isLt; have := x.d.isLt; have := x.a.isLt; have := x.ty.isLt; have := x.flags.isLt
  have h1 : bits (encSlot x) 30 25 = x.op.code := bits_eq 6 (by unfold encSlot; omega) rfl
  have h2 : bits (encSlot x) 24 23 = x.g.val := bits_eq 2 (by unfold encSlot; omega) rfl
  have h3 : bits (encSlot x) 22 14 = x.d.val := bits_eq 9 (by unfold encSlot; omega) rfl
  have h4 : bits (encSlot x) 13 5 = x.a.val := bits_eq 9 (by unfold encSlot; omega) rfl
  have h5 : bits (encSlot x) 4 2 = x.ty.val := bits_eq 3 (by unfold encSlot; omega) rfl
  have h6 : bits (encSlot x) 1 0 = x.flags.val := bits_eq 2 (by unfold encSlot; omega) rfl
  simp [decSlot, h1, h2, h3, h4, h5, h6, slot_dec, fin]

theorem pairWord (x y) : Statement (.pairWord x y) := by
  intro n he hw
  have he := Option.some.inj he
  have := slot_bound x
  have := slot_bound y
  have h1 : bits n 62 32 = encSlot x := bits_eq 31 (by omega) rfl
  have h2 : bits n 31 1 = encSlot y := bits_eq 31 (by omega) rfl
  have h3 : bit n 0 = false := bit_zero (bits_eq 1 (by omega) rfl)
  have h4 : bit n 63 = true := bit_b2n (b := true) (bits_eq 1 (by rw [b2n]; simp; omega) rfl)
  refine ⟨by omega, ?_, fun h => by rw [h4] at h; cases h⟩
  simp [fields, h4, decPair, h1, h2, h3, need, slot_read]

theorem ld (g d base off z h) : Statement (.ld g d base off z h) := by
  intro n he hw
  have he := Option.some.inj he
  have := reg_lt d
  have := base_lt base
  have := off.isLt
  have := size_lt z
  have := b2n_lt (h)
  obtain ⟨hlt, ho, hg, fc, fk⟩ := full_word he (by decide) (by unfold encMem; omega)
  have h1 : bit n 0 = h := bit_b2n ((fc 0 0 (by decide) (by decide)).trans (bits_eq 1 (by unfold encMem; omega) rfl))
  have h2 : bits n 3 1 = z.code := (fc 3 1 (by decide) (by decide)).trans (bits_eq 3 (by unfold encMem; omega) rfl)
  have h3 : bits n 30 7 = off.toNat := (fc 30 7 (by decide) (by decide)).trans (bits_eq 24 (by unfold encMem; omega) rfl)
  have h4 : bits n 40 31 = base.num := (fc 40 31 (by decide) (by decide)).trans (bits_eq 10 (by unfold encMem; omega) rfl)
  have h5 : bits n 51 41 = d.num := (fc 51 41 (by decide) (by decide)).trans (bits_eq 11 (by unfold encMem; omega) rfl)
  have h6 : bits n 6 4 = 0 := (fc 6 4 (by decide) (by decide)).trans (bits_eq 3 (by unfold encMem; omega) rfl)
  clear he
  refine of_fields hlt ho rfl ?_
  rw [in_memory ho (by decide) (by decide)]
  simp [decMemory, decMem, decMemBase, rD, fD, h1, h2, h3, h4, h5, h6, hg, base_dec, reg_dec, size_dec]

theorem ldAcq (g d base off w sc) : Statement (.ldAcq g d base off w sc) := by
  intro n he hw
  have he := Option.some.inj he
  have := reg_lt d
  have := base_lt base
  have := off.isLt
  have := b2n_lt (w)
  have := scope_lt sc
  obtain ⟨hlt, ho, hg, fc, fk⟩ := full_word he (by decide) (by unfold encMem; omega)
  have h1 : bits n 2 0 = sc.code := (fc 2 0 (by decide) (by decide)).trans (bits_eq 3 (by unfold encMem; omega) rfl)
  have h2 : bit n 3 = w := bit_b2n ((fc 3 3 (by decide) (by decide)).trans (bits_eq 1 (by unfold encMem; omega) rfl))
  have h3 : bits n 30 7 = off.toNat := (fc 30 7 (by decide) (by decide)).trans (bits_eq 24 (by unfold encMem; omega) rfl)
  have h4 : bits n 40 31 = base.num := (fc 40 31 (by decide) (by decide)).trans (bits_eq 10 (by unfold encMem; omega) rfl)
  have h5 : bits n 51 41 = d.num := (fc 51 41 (by decide) (by decide)).trans (bits_eq 11 (by unfold encMem; omega) rfl)
  have h6 : bits n 6 4 = 1 := (fc 6 4 (by decide) (by decide)).trans (bits_eq 3 (by unfold encMem; omega) rfl)
  clear he
  refine of_fields hlt ho rfl ?_
  rw [in_memory ho (by decide) (by decide)]
  simp [decMemory, decMem, decMemBase, rD, fD, h1, h2, h3, h4, h5, h6, hg, need, base_dec, reg_dec, scope_dec]

theorem st (g d base off z h) : Statement (.st g d base off z h) := by
  intro n he hw
  have he := Option.some.inj he
  have := reg_lt d
  have := base_lt base
  have := off.isLt
  have := size_lt z
  have := b2n_lt (h)
  obtain ⟨hlt, ho, hg, fc, fk⟩ := full_word he (by decide) (by unfold encMem; omega)
  have h1 : bit n 0 = h := bit_b2n ((fc 0 0 (by decide) (by decide)).trans (bits_eq 1 (by unfold encMem; omega) rfl))
  have h2 : bits n 3 1 = z.code := (fc 3 1 (by decide) (by decide)).trans (bits_eq 3 (by unfold encMem; omega) rfl)
  have h3 : bits n 30 7 = off.toNat := (fc 30 7 (by decide) (by decide)).trans (bits_eq 24 (by unfold encMem; omega) rfl)
  have h4 : bits n 40 31 = base.num := (fc 40 31 (by decide) (by decide)).trans (bits_eq 10 (by unfold encMem; omega) rfl)
  have h5 : bits n 51 41 = d.num := (fc 51 41 (by decide) (by decide)).trans (bits_eq 11 (by unfold encMem; omega) rfl)
  have h6 : bits n 6 4 = 0 := (fc 6 4 (by decide) (by decide)).trans (bits_eq 3 (by unfold encMem; omega) rfl)
  clear he
  refine of_fields hlt ho rfl ?_
  rw [in_memory ho (by decide) (by decide)]
  simp [decMemory, decMem, decMemBase, rD, fD, h1, h2, h3, h4, h5, h6, hg, base_dec, reg_dec, size_dec]

theorem stRel (g d base off w sc) : Statement (.stRel g d base off w sc) := by
  intro n he hw
  have he := Option.some.inj he
  have := reg_lt d
  have := base_lt base
  have := off.isLt
  have := b2n_lt (w)
  have := scope_lt sc
  obtain ⟨hlt, ho, hg, fc, fk⟩ := full_word he (by decide) (by unfold encMem; omega)
  have h1 : bits n 2 0 = sc.code := (fc 2 0 (by decide) (by decide)).trans (bits_eq 3 (by unfold encMem; omega) rfl)
  have h2 : bit n 3 = w := bit_b2n ((fc 3 3 (by decide) (by decide)).trans (bits_eq 1 (by unfold encMem; omega) rfl))
  have h3 : bits n 30 7 = off.toNat := (fc 30 7 (by decide) (by decide)).trans (bits_eq 24 (by unfold encMem; omega) rfl)
  have h4 : bits n 40 31 = base.num := (fc 40 31 (by decide) (by decide)).trans (bits_eq 10 (by unfold encMem; omega) rfl)
  have h5 : bits n 51 41 = d.num := (fc 51 41 (by decide) (by decide)).trans (bits_eq 11 (by unfold encMem; omega) rfl)
  have h6 : bits n 6 4 = 2 := (fc 6 4 (by decide) (by decide)).trans (bits_eq 3 (by unfold encMem; omega) rfl)
  clear he
  refine of_fields hlt ho rfl ?_
  rw [in_memory ho (by decide) (by decide)]
  simp [decMemory, decMem, decMemBase, rD, fD, h1, h2, h3, h4, h5, h6, hg, need, base_dec, reg_dec, scope_dec]

theorem ldsp (g d base off r z) : Statement (.ldsp g d base off r z) := by
  intro n he hw
  have he := Option.some.inj he
  have := reg_lt d
  have := reg_lt base
  have := off.isLt
  have := b2n_lt (r)
  have := size_lt z
  obtain ⟨hlt, ho, hg, fc, fk⟩ := full_word he (by decide) (by unfold encSp; omega)
  have h1 : bits n 2 0 = z.code := (fc 2 0 (by decide) (by decide)).trans (bits_eq 3 (by unfold encSp; omega) rfl)
  have h2 : bits n 29 6 = off.toNat := (fc 29 6 (by decide) (by decide)).trans (bits_eq 24 (by unfold encSp; omega) rfl)
  have h3 : bits n 4 3 = 0 := (fc 4 3 (by decide) (by decide)).trans (bits_eq 2 (by unfold encSp; omega) rfl)
  have h4 : bits n 40 30 = base.num := (fc 40 30 (by decide) (by decide)).trans (bits_eq 11 (by unfold encSp; omega) rfl)
  have h5 : bit n 5 = r := bit_b2n ((fc 5 5 (by decide) (by decide)).trans (bits_eq 1 (by unfold encSp; omega) rfl))
  have h6 : bits n 51 41 = d.num := (fc 51 41 (by decide) (by decide)).trans (bits_eq 11 (by unfold encSp; omega) rfl)
  clear he
  refine of_fields hlt ho rfl ?_
  rw [in_memory ho (by decide) (by decide)]
  simp [decMemory, decSp, rD, rA, fD, fA, h1, h2, h3, h4, h5, h6, hg, reg_dec, size_dec]

theorem ldspAcq (g d base off w) : Statement (.ldspAcq g d base off w) := by
  intro n he hw
  have he := Option.some.inj he
  have := reg_lt d
  have := reg_lt base
  have := off.isLt
  have := b2n_lt w
  obtain ⟨hlt, ho, hg, fc, fk⟩ := full_word he (by decide) (by unfold encSp; omega)
  have h1 : bits n 2 0 = 4 + b2n w := (fc 2 0 (by decide) (by decide)).trans (bits_eq 3 (by unfold encSp; omega) rfl)
  have h2 : bits n 29 6 = off.toNat := (fc 29 6 (by decide) (by decide)).trans (bits_eq 24 (by unfold encSp; omega) rfl)
  have h3 : bits n 4 3 = 1 := (fc 4 3 (by decide) (by decide)).trans (bits_eq 2 (by unfold encSp; omega) rfl)
  have h4 : bits n 40 30 = base.num := (fc 40 30 (by decide) (by decide)).trans (bits_eq 11 (by unfold encSp; omega) rfl)
  have h5 : bit n 5 = false := bit_zero ((fc 5 5 (by decide) (by decide)).trans (bits_eq 1 (by unfold encSp; omega) rfl))
  have h6 : bits n 51 41 = d.num := (fc 51 41 (by decide) (by decide)).trans (bits_eq 11 (by unfold encSp; omega) rfl)
  clear he
  refine of_fields hlt ho rfl ?_
  rw [in_memory ho (by decide) (by decide)]
  simp [decMemory, decSp, rD, rA, fD, fA, h1, h2, h3, h4, h5, h6, hg, need, reg_dec]
  cases w <;> simp [b2n, decSize]

theorem ldspCnt (g d base off r) : Statement (.ldspCnt g d base off r) := by
  intro n he hw
  have he := Option.some.inj he
  have := reg_lt d
  have := reg_lt base
  have := off.isLt
  have := b2n_lt (r)
  obtain ⟨hlt, ho, hg, fc, fk⟩ := full_word he (by decide) (by unfold encSp; omega)
  have h1 : bits n 2 0 = 4 := (fc 2 0 (by decide) (by decide)).trans (bits_eq 3 (by unfold encSp; omega) rfl)
  have h2 : bits n 29 6 = off.toNat := (fc 29 6 (by decide) (by decide)).trans (bits_eq 24 (by unfold encSp; omega) rfl)
  have h3 : bits n 4 3 = 3 := (fc 4 3 (by decide) (by decide)).trans (bits_eq 2 (by unfold encSp; omega) rfl)
  have h4 : bits n 40 30 = base.num := (fc 40 30 (by decide) (by decide)).trans (bits_eq 11 (by unfold encSp; omega) rfl)
  have h5 : bit n 5 = r := bit_b2n ((fc 5 5 (by decide) (by decide)).trans (bits_eq 1 (by unfold encSp; omega) rfl))
  have h6 : bits n 51 41 = d.num := (fc 51 41 (by decide) (by decide)).trans (bits_eq 11 (by unfold encSp; omega) rfl)
  clear he
  refine of_fields hlt ho rfl ?_
  rw [in_memory ho (by decide) (by decide)]
  simp [decMemory, decSp, rD, rA, fD, fA, h1, h2, h3, h4, h5, h6, hg, need, reg_dec, decSize]

theorem stsp (g d base off r z) : Statement (.stsp g d base off r z) := by
  intro n he hw
  have he := Option.some.inj he
  have := reg_lt d
  have := reg_lt base
  have := off.isLt
  have := b2n_lt (r)
  have := size_lt z
  obtain ⟨hlt, ho, hg, fc, fk⟩ := full_word he (by decide) (by unfold encSp; omega)
  have h1 : bits n 2 0 = z.code := (fc 2 0 (by decide) (by decide)).trans (bits_eq 3 (by unfold encSp; omega) rfl)
  have h2 : bits n 29 6 = off.toNat := (fc 29 6 (by decide) (by decide)).trans (bits_eq 24 (by unfold encSp; omega) rfl)
  have h3 : bits n 4 3 = 0 := (fc 4 3 (by decide) (by decide)).trans (bits_eq 2 (by unfold encSp; omega) rfl)
  have h4 : bits n 40 30 = base.num := (fc 40 30 (by decide) (by decide)).trans (bits_eq 11 (by unfold encSp; omega) rfl)
  have h5 : bit n 5 = r := bit_b2n ((fc 5 5 (by decide) (by decide)).trans (bits_eq 1 (by unfold encSp; omega) rfl))
  have h6 : bits n 51 41 = d.num := (fc 51 41 (by decide) (by decide)).trans (bits_eq 11 (by unfold encSp; omega) rfl)
  clear he
  refine of_fields hlt ho rfl ?_
  rw [in_memory ho (by decide) (by decide)]
  simp [decMemory, decSp, rD, rA, fD, fA, h1, h2, h3, h4, h5, h6, hg, reg_dec, size_dec]

theorem stspRel (g d base off w) : Statement (.stspRel g d base off w) := by
  intro n he hw
  have he := Option.some.inj he
  have := reg_lt d
  have := reg_lt base
  have := off.isLt
  have := b2n_lt w
  obtain ⟨hlt, ho, hg, fc, fk⟩ := full_word he (by decide) (by unfold encSp; omega)
  have h1 : bits n 2 0 = 4 + b2n w := (fc 2 0 (by decide) (by decide)).trans (bits_eq 3 (by unfold encSp; omega) rfl)
  have h2 : bits n 29 6 = off.toNat := (fc 29 6 (by decide) (by decide)).trans (bits_eq 24 (by unfold encSp; omega) rfl)
  have h3 : bits n 4 3 = 2 := (fc 4 3 (by decide) (by decide)).trans (bits_eq 2 (by unfold encSp; omega) rfl)
  have h4 : bits n 40 30 = base.num := (fc 40 30 (by decide) (by decide)).trans (bits_eq 11 (by unfold encSp; omega) rfl)
  have h5 : bit n 5 = false := bit_zero ((fc 5 5 (by decide) (by decide)).trans (bits_eq 1 (by unfold encSp; omega) rfl))
  have h6 : bits n 51 41 = d.num := (fc 51 41 (by decide) (by decide)).trans (bits_eq 11 (by unfold encSp; omega) rfl)
  clear he
  refine of_fields hlt ho rfl ?_
  rw [in_memory ho (by decide) (by decide)]
  simp [decMemory, decSp, rD, rA, fD, fA, h1, h2, h3, h4, h5, h6, hg, need, reg_dec]
  cases w <;> simp [b2n, decSize]

theorem stspCnt (g d base off r) : Statement (.stspCnt g d base off r) := by
  intro n he hw
  have he := Option.some.inj he
  have := reg_lt d
  have := reg_lt base
  have := off.isLt
  have := b2n_lt (r)
  obtain ⟨hlt, ho, hg, fc, fk⟩ := full_word he (by decide) (by unfold encSp; omega)
  have h1 : bits n 2 0 = 4 := (fc 2 0 (by decide) (by decide)).trans (bits_eq 3 (by unfold encSp; omega) rfl)
  have h2 : bits n 29 6 = off.toNat := (fc 29 6 (by decide) (by decide)).trans (bits_eq 24 (by unfold encSp; omega) rfl)
  have h3 : bits n 4 3 = 3 := (fc 4 3 (by decide) (by decide)).trans (bits_eq 2 (by unfold encSp; omega) rfl)
  have h4 : bits n 40 30 = base.num := (fc 40 30 (by decide) (by decide)).trans (bits_eq 11 (by unfold encSp; omega) rfl)
  have h5 : bit n 5 = r := bit_b2n ((fc 5 5 (by decide) (by decide)).trans (bits_eq 1 (by unfold encSp; omega) rfl))
  have h6 : bits n 51 41 = d.num := (fc 51 41 (by decide) (by decide)).trans (bits_eq 11 (by unfold encSp; omega) rfl)
  clear he
  refine of_fields hlt ho rfl ?_
  rw [in_memory ho (by decide) (by decide)]
  simp [decMemory, decSp, rD, rA, fD, fA, h1, h2, h3, h4, h5, h6, hg, need, reg_dec, decSize]

theorem ldc (g d base off z) : Statement (.ldc g d base off z) := by
  intro n he hw
  have he := Option.some.inj he
  have := reg_lt d
  have := base_lt base
  have := off.isLt
  have := size_lt z
  obtain ⟨hlt, ho, hg, fc, fk⟩ := full_word he (by decide) (by unfold encMem; omega)
  have h1 : bit n 0 = false := bit_zero ((fc 0 0 (by decide) (by decide)).trans (bits_eq 1 (by unfold encMem; omega) rfl))
  have h2 : bits n 3 1 = z.code := (fc 3 1 (by decide) (by decide)).trans (bits_eq 3 (by unfold encMem; omega) rfl)
  have h3 : bits n 30 7 = off.toNat := (fc 30 7 (by decide) (by decide)).trans (bits_eq 24 (by unfold encMem; omega) rfl)
  have h4 : bits n 40 31 = base.num := (fc 40 31 (by decide) (by decide)).trans (bits_eq 10 (by unfold encMem; omega) rfl)
  have h5 : bits n 51 41 = d.num := (fc 51 41 (by decide) (by decide)).trans (bits_eq 11 (by unfold encMem; omega) rfl)
  have h6 : bits n 6 4 = 0 := (fc 6 4 (by decide) (by decide)).trans (bits_eq 3 (by unfold encMem; omega) rfl)
  clear he
  refine of_fields hlt ho rfl ?_
  rw [in_memory ho (by decide) (by decide)]
  simp [decMemory, decMemBase, rD, fD, h1, h2, h3, h4, h5, h6, hg, need, base_dec, reg_dec, size_dec]

theorem prefL1 (g base off) : Statement (.prefL1 g base off) := by
  intro n he hw
  have he := Option.some.inj he
  have := base_lt base
  have := off.isLt
  obtain ⟨hlt, ho, hg, fc, fk⟩ := full_word he (by decide) (by unfold encMem; omega)
  have h1 : bit n 0 = false := bit_zero ((fc 0 0 (by decide) (by decide)).trans (bits_eq 1 (by unfold encMem; omega) rfl))
  have h2 : bits n 3 1 = 0 := (fc 3 1 (by decide) (by decide)).trans (bits_eq 3 (by unfold encMem; omega) rfl)
  have h3 : bits n 30 7 = off.toNat := (fc 30 7 (by decide) (by decide)).trans (bits_eq 24 (by unfold encMem; omega) rfl)
  have h4 : bits n 40 31 = base.num := (fc 40 31 (by decide) (by decide)).trans (bits_eq 10 (by unfold encMem; omega) rfl)
  have h5 : bits n 51 41 = 0 := (fc 51 41 (by decide) (by decide)).trans (bits_eq 11 (by unfold encMem; omega) rfl)
  have h6 : bits n 6 4 = 0 := (fc 6 4 (by decide) (by decide)).trans (bits_eq 3 (by unfold encMem; omega) rfl)
  clear he
  refine of_fields hlt ho rfl ?_
  rw [in_memory2 ho (by decide) (by decide)]
  simp [decMemory, decMemBase, fD, h1, h2, h3, h4, h5, h6, hg, need, base_dec]

theorem prefL2 (g base off) : Statement (.prefL2 g base off) := by
  intro n he hw
  have he := Option.some.inj he
  have := base_lt base
  have := off.isLt
  obtain ⟨hlt, ho, hg, fc, fk⟩ := full_word he (by decide) (by unfold encMem; omega)
  have h1 : bit n 0 = false := bit_zero ((fc 0 0 (by decide) (by decide)).trans (bits_eq 1 (by unfold encMem; omega) rfl))
  have h2 : bits n 3 1 = 1 := (fc 3 1 (by decide) (by decide)).trans (bits_eq 3 (by unfold encMem; omega) rfl)
  have h3 : bits n 30 7 = off.toNat := (fc 30 7 (by decide) (by decide)).trans (bits_eq 24 (by unfold encMem; omega) rfl)
  have h4 : bits n 40 31 = base.num := (fc 40 31 (by decide) (by decide)).trans (bits_eq 10 (by unfold encMem; omega) rfl)
  have h5 : bits n 51 41 = 0 := (fc 51 41 (by decide) (by decide)).trans (bits_eq 11 (by unfold encMem; omega) rfl)
  have h6 : bits n 6 4 = 0 := (fc 6 4 (by decide) (by decide)).trans (bits_eq 3 (by unfold encMem; omega) rfl)
  clear he
  refine of_fields hlt ho rfl ?_
  rw [in_memory2 ho (by decide) (by decide)]
  simp [decMemory, decMemBase, fD, h1, h2, h3, h4, h5, h6, hg, need, base_dec]

theorem prefEvict (g base off) : Statement (.prefEvict g base off) := by
  intro n he hw
  have he := Option.some.inj he
  have := base_lt base
  have := off.isLt
  obtain ⟨hlt, ho, hg, fc, fk⟩ := full_word he (by decide) (by unfold encMem; omega)
  have h1 : bit n 0 = false := bit_zero ((fc 0 0 (by decide) (by decide)).trans (bits_eq 1 (by unfold encMem; omega) rfl))
  have h2 : bits n 3 1 = 2 := (fc 3 1 (by decide) (by decide)).trans (bits_eq 3 (by unfold encMem; omega) rfl)
  have h3 : bits n 30 7 = off.toNat := (fc 30 7 (by decide) (by decide)).trans (bits_eq 24 (by unfold encMem; omega) rfl)
  have h4 : bits n 40 31 = base.num := (fc 40 31 (by decide) (by decide)).trans (bits_eq 10 (by unfold encMem; omega) rfl)
  have h5 : bits n 51 41 = 0 := (fc 51 41 (by decide) (by decide)).trans (bits_eq 11 (by unfold encMem; omega) rfl)
  have h6 : bits n 6 4 = 0 := (fc 6 4 (by decide) (by decide)).trans (bits_eq 3 (by unfold encMem; omega) rfl)
  clear he
  refine of_fields hlt ho rfl ?_
  rw [in_memory2 ho (by decide) (by decide)]
  simp [decMemory, decMemBase, fD, h1, h2, h3, h4, h5, h6, hg, need, base_dec]

theorem spmapFlush (g) : Statement (.spmapFlush g) := by
  intro n he hw
  have he := Option.some.inj he
  obtain ⟨hlt, ho, hg, fc, fk⟩ := full_word he (by decide) (by unfold encOwn; omega)
  have h1 : bits n 15 0 = 0 := (fc 15 0 (by decide) (by decide)).trans (bits_eq 16 (by unfold encOwn; omega) rfl)
  have h2 : bits n 18 16 = 0 := (fc 18 16 (by decide) (by decide)).trans (bits_eq 3 (by unfold encOwn; omega) rfl)
  have h3 : bits n 29 19 = 0 := (fc 29 19 (by decide) (by decide)).trans (bits_eq 11 (by unfold encOwn; omega) rfl)
  have h4 : bits n 40 30 = 0 := (fc 40 30 (by decide) (by decide)).trans (bits_eq 11 (by unfold encOwn; omega) rfl)
  have h5 : bits n 51 41 = 0 := (fc 51 41 (by decide) (by decide)).trans (bits_eq 11 (by unfold encOwn; omega) rfl)
  clear he
  refine of_fields hlt ho rfl ?_
  rw [in_memory2 ho (by decide) (by decide)]
  simp [decMemory, fD, fA, fV, h1, h2, h3, h4, h5, hg, need]

theorem spmapQuery (g d a) : Statement (.spmapQuery g d a) := by
  intro n he hw
  have he := Option.some.inj he
  have := reg_lt d
  have := reg_lt a
  obtain ⟨hlt, ho, hg, fc, fk⟩ := full_word he (by decide) (by unfold encOwn; omega)
  have h1 : bits n 15 0 = 0 := (fc 15 0 (by decide) (by decide)).trans (bits_eq 16 (by unfold encOwn; omega) rfl)
  have h2 : bits n 18 16 = 1 := (fc 18 16 (by decide) (by decide)).trans (bits_eq 3 (by unfold encOwn; omega) rfl)
  have h3 : bits n 29 19 = 0 := (fc 29 19 (by decide) (by decide)).trans (bits_eq 11 (by unfold encOwn; omega) rfl)
  have h4 : bits n 40 30 = a.num := (fc 40 30 (by decide) (by decide)).trans (bits_eq 11 (by unfold encOwn; omega) rfl)
  have h5 : bits n 51 41 = d.num := (fc 51 41 (by decide) (by decide)).trans (bits_eq 11 (by unfold encOwn; omega) rfl)
  clear he
  refine of_fields hlt ho rfl ?_
  rw [in_memory2 ho (by decide) (by decide)]
  simp [decMemory, fD, fA, fV, rD, rA, h1, h2, h3, h4, h5, hg, need, reg_dec]

theorem residBind (g d a b h p) : Statement (.residBind g d a b h p) := by
  intro n he hw
  have he := Option.some.inj he
  have := reg_lt d
  have := reg_lt a
  have := reg_lt b
  have := h.isLt
  have := p.isLt
  obtain ⟨hlt, ho, hg, fc, fk⟩ := full_word he (by decide) (by unfold encOwn; omega)
  have h1 : bits n 15 8 = h.toNat := (fc 15 8 (by decide) (by decide)).trans (bits_eq 8 (by unfold encOwn; omega) rfl)
  have h2 : bits n 18 16 = 0 := (fc 18 16 (by decide) (by decide)).trans (bits_eq 3 (by unfold encOwn; omega) rfl)
  have h3 : bits n 29 19 = b.num := (fc 29 19 (by decide) (by decide)).trans (bits_eq 11 (by unfold encOwn; omega) rfl)
  have h4 : bits n 4 0 = 0 := (fc 4 0 (by decide) (by decide)).trans (bits_eq 5 (by unfold encOwn; omega) rfl)
  have h5 : bits n 40 30 = a.num := (fc 40 30 (by decide) (by decide)).trans (bits_eq 11 (by unfold encOwn; omega) rfl)
  have h6 : bits n 51 41 = d.num := (fc 51 41 (by decide) (by decide)).trans (bits_eq 11 (by unfold encOwn; omega) rfl)
  have h7 : bits n 7 5 = p.val := (fc 7 5 (by decide) (by decide)).trans (bits_eq 3 (by unfold encOwn; omega) rfl)
  clear he
  refine of_fields hlt ho rfl ?_
  rw [in_memory2 ho (by decide) (by decide)]
  simp [decMemory, fA, fB, fV, rD, rA, rB, fD, h1, h2, h3, h4, h5, h6, h7, hg, need, fin, reg_dec]

theorem residUnbind (g d h) : Statement (.residUnbind g d h) := by
  intro n he hw
  have he := Option.some.inj he
  have := reg_lt d
  have := h.isLt
  obtain ⟨hlt, ho, hg, fc, fk⟩ := full_word he (by decide) (by unfold encOwn; omega)
  have h1 : bits n 15 8 = h.toNat := (fc 15 8 (by decide) (by decide)).trans (bits_eq 8 (by unfold encOwn; omega) rfl)
  have h2 : bits n 18 16 = 1 := (fc 18 16 (by decide) (by decide)).trans (bits_eq 3 (by unfold encOwn; omega) rfl)
  have h3 : bits n 29 19 = 0 := (fc 29 19 (by decide) (by decide)).trans (bits_eq 11 (by unfold encOwn; omega) rfl)
  have h4 : bits n 4 0 = 0 := (fc 4 0 (by decide) (by decide)).trans (bits_eq 5 (by unfold encOwn; omega) rfl)
  have h5 : bits n 40 30 = 0 := (fc 40 30 (by decide) (by decide)).trans (bits_eq 11 (by unfold encOwn; omega) rfl)
  have h6 : bits n 51 41 = d.num := (fc 51 41 (by decide) (by decide)).trans (bits_eq 11 (by unfold encOwn; omega) rfl)
  have h7 : bits n 7 5 = 0 := (fc 7 5 (by decide) (by decide)).trans (bits_eq 3 (by unfold encOwn; omega) rfl)
  clear he
  refine of_fields hlt ho rfl ?_
  rw [in_memory2 ho (by decide) (by decide)]
  simp [decMemory, fA, fB, fV, rD, fD, h1, h2, h3, h4, h5, h6, h7, hg, need, reg_dec]

theorem atom (g d base b c o t sc) : Statement (.atom g d base b c o t sc) := by
  intro n he hw
  have he := Option.some.inj he
  have := reg_lt d
  have := base_lt base
  have := reg_lt b
  have := reg_lt c
  have := aop_lt o
  have := aty_lt t
  have := scope_lt sc
  obtain ⟨hlt, ho, hg, fc, fk⟩ := full_word he (by decide) (by omega)
  have h1 : bits n 1 0 = sc.code := (fc 1 0 (by decide) (by decide)).trans (bits_eq 2 (by omega) rfl)
  have h2 : bits n 19 9 = c.num := (fc 19 9 (by decide) (by decide)).trans (bits_eq 11 (by omega) rfl)
  have h3 : bits n 30 20 = b.num := (fc 30 20 (by decide) (by decide)).trans (bits_eq 11 (by omega) rfl)
  have h4 : bits n 4 2 = t.code := (fc 4 2 (by decide) (by decide)).trans (bits_eq 3 (by omega) rfl)
  have h5 : bits n 40 31 = base.num := (fc 40 31 (by decide) (by decide)).trans (bits_eq 10 (by omega) rfl)
  have h6 : bits n 51 41 = d.num := (fc 51 41 (by decide) (by decide)).trans (bits_eq 11 (by omega) rfl)
  have h7 : bits n 8 5 = o.code := (fc 8 5 (by decide) (by decide)).trans (bits_eq 4 (by omega) rfl)
  clear he
  refine of_fields hlt ho rfl ?_
  rw [in_sync ho (by decide) (by decide)]
  simp [decSync, decMemBase, rD, fD, h1, h2, h3, h4, h5, h6, h7, hg, aop_dec, aty_dec, base_dec, reg_dec, scope_dec]

theorem atomsp (g d base b c o t r) : Statement (.atomsp g d base b c o t r) := by
  intro n he hw
  have he := Option.some.inj he
  have := reg_lt d
  have := reg_lt base
  have := reg_lt b
  have := reg_lt c
  have := aop_lt o
  have := spty_lt t
  have := b2n_lt (r)
  obtain ⟨hlt, ho, hg, fc, fk⟩ := full_word he (by decide) (by omega)
  have h1 : bit n 0 = false := bit_zero ((fc 0 0 (by decide) (by decide)).trans (bits_eq 1 (by omega) rfl))
  have h2 : bit n 1 = r := bit_b2n ((fc 1 1 (by decide) (by decide)).trans (bits_eq 1 (by omega) rfl))
  have h3 : bits n 18 8 = c.num := (fc 18 8 (by decide) (by decide)).trans (bits_eq 11 (by omega) rfl)
  have h4 : bits n 29 19 = b.num := (fc 29 19 (by decide) (by decide)).trans (bits_eq 11 (by omega) rfl)
  have h5 : bits n 3 2 = t.spCode := (fc 3 2 (by decide) (by decide)).trans (bits_eq 2 (by omega) rfl)
  have h6 : bits n 40 30 = base.num := (fc 40 30 (by decide) (by decide)).trans (bits_eq 11 (by omega) rfl)
  have h7 : bits n 51 41 = d.num := (fc 51 41 (by decide) (by decide)).trans (bits_eq 11 (by omega) rfl)
  have h8 : bits n 7 4 = o.code := (fc 7 4 (by decide) (by decide)).trans (bits_eq 4 (by omega) rfl)
  clear he
  refine of_fields hlt ho rfl ?_
  rw [in_sync ho (by decide) (by decide)]
  have hsp : decSpAtomTy t.spCode = some t := by
    simp only [Instr.wf] at hw; cases t <;> first | rfl | simp at hw
  simp [decSync, rD, rA, rB, fD, fA, fB, h1, h2, h3, h4, h5, h6, h7, h8, hg, need, aop_dec, reg_dec, hsp]

theorem fence (g sc) : Statement (.fence g sc) := by
  intro n he hw
  have he := Option.some.inj he
  have := scope_lt sc
  obtain ⟨hlt, ho, hg, fc, fk⟩ := full_word he (by decide) (by unfold encOwn; omega)
  have h1 : bits n 15 5 = 0 := (fc 15 5 (by decide) (by decide)).trans (bits_eq 11 (by unfold encOwn; omega) rfl)
  have h2 : bits n 18 16 = 0 := (fc 18 16 (by decide) (by decide)).trans (bits_eq 3 (by unfold encOwn; omega) rfl)
  have h3 : bits n 2 0 = sc.code := (fc 2 0 (by decide) (by decide)).trans (bits_eq 3 (by unfold encOwn; omega) rfl)
  have h6 : bits n 4 3 = 0 := (fc 4 3 (by decide) (by decide)).trans (bits_eq 2 (by unfold encOwn; omega) rfl)
  have h7 : bits n 51 19 = 0 := (fc 51 19 (by decide) (by decide)).trans (bits_eq 33 (by unfold encOwn; omega) rfl)
  clear he
  refine of_fields hlt ho rfl ?_
  rw [in_sync ho (by decide) (by decide)]
  simp [decSync, fV, h1, h2, h3, h6, h7, hg, need, scope_dec]

theorem fencePath (g c f) : Statement (.fencePath g c f) := by
  intro n he hw
  have he := Option.some.inj he
  have := b2n_lt (f)
  have := b2n_lt (c)
  obtain ⟨hlt, ho, hg, fc, fk⟩ := full_word he (by decide) (by unfold encOwn; omega)
  have h1 : bits n 15 5 = 0 := (fc 15 5 (by decide) (by decide)).trans (bits_eq 11 (by unfold encOwn; omega) rfl)
  have h2 : bits n 18 16 = 1 := (fc 18 16 (by decide) (by decide)).trans (bits_eq 3 (by unfold encOwn; omega) rfl)
  have h3 : bits n 2 0 = 0 := (fc 2 0 (by decide) (by decide)).trans (bits_eq 3 (by unfold encOwn; omega) rfl)
  have h4 : bit n 3 = c := bit_b2n ((fc 3 3 (by decide) (by decide)).trans (bits_eq 1 (by unfold encOwn; omega) rfl))
  have h5 : bit n 4 = f := bit_b2n ((fc 4 4 (by decide) (by decide)).trans (bits_eq 1 (by unfold encOwn; omega) rfl))
  have h6 : bits n 51 19 = 0 := (fc 51 19 (by decide) (by decide)).trans (bits_eq 33 (by unfold encOwn; omega) rfl)
  clear he
  refine of_fields hlt ho rfl ?_
  rw [in_sync ho (by decide) (by decide)]
  simp [decSync, fV, h1, h2, h3, h4, h5, h6, hg, need]

theorem fenceXlat (g sc) : Statement (.fenceXlat g sc) := by
  intro n he hw
  have he := Option.some.inj he
  have := scope_lt sc
  obtain ⟨hlt, ho, hg, fc, fk⟩ := full_word he (by decide) (by unfold encOwn; omega)
  have h1 : bits n 15 5 = 0 := (fc 15 5 (by decide) (by decide)).trans (bits_eq 11 (by unfold encOwn; omega) rfl)
  have h2 : bits n 18 16 = 2 := (fc 18 16 (by decide) (by decide)).trans (bits_eq 3 (by unfold encOwn; omega) rfl)
  have h3 : bits n 2 0 = sc.code := (fc 2 0 (by decide) (by decide)).trans (bits_eq 3 (by unfold encOwn; omega) rfl)
  have h6 : bits n 4 3 = 0 := (fc 4 3 (by decide) (by decide)).trans (bits_eq 2 (by unfold encOwn; omega) rfl)
  have h7 : bits n 51 19 = 0 := (fc 51 19 (by decide) (by decide)).trans (bits_eq 33 (by unfold encOwn; omega) rfl)
  clear he
  refine of_fields hlt ho rfl ?_
  rw [in_sync ho (by decide) (by decide)]
  simp [decSync, fV, h1, h2, h3, h6, h7, hg, need, scope_dec]

theorem barJoin (g a m) : Statement (.barJoin g a m) := by
  intro n he hw
  have he := Option.some.inj he
  have := reg_lt a
  have := m.isLt
  obtain ⟨hlt, ho, hg, fc, fk⟩ := full_word he (by decide) (by unfold encOwn; omega)
  have h1 : bits n 15 4 = 0 := (fc 15 4 (by decide) (by decide)).trans (bits_eq 12 (by unfold encOwn; omega) rfl)
  have h2 : bits n 18 16 = 0 := (fc 18 16 (by decide) (by decide)).trans (bits_eq 3 (by unfold encOwn; omega) rfl)
  have h3 : bits n 29 19 = 0 := (fc 29 19 (by decide) (by decide)).trans (bits_eq 11 (by unfold encOwn; omega) rfl)
  have h4 : bits n 3 0 = m.val := (fc 3 0 (by decide) (by decide)).trans (bits_eq 4 (by unfold encOwn; omega) rfl)
  have h5 : bits n 40 30 = a.num := (fc 40 30 (by decide) (by decide)).trans (bits_eq 11 (by unfold encOwn; omega) rfl)
  have h6 : bits n 51 41 = 0 := (fc 51 41 (by decide) (by decide)).trans (bits_eq 11 (by unfold encOwn; omega) rfl)
  clear he
  refine of_fields hlt ho rfl ?_
  rw [in_sync2 ho (by decide) (by decide)]
  simp [decSync, fD, fV, rA, fA, h1, h2, h3, h4, h5, h6, hg, need, fin, reg_dec]

theorem barPost (g a m) : Statement (.barPost g a m) := by
  intro n he hw
  have he := Option.some.inj he
  have := reg_lt a
  have := m.isLt
  obtain ⟨hlt, ho, hg, fc, fk⟩ := full_word he (by decide) (by unfold encOwn; omega)
  have h1 : bits n 15 4 = 0 := (fc 15 4 (by decide) (by decide)).trans (bits_eq 12 (by unfold encOwn; omega) rfl)
  have h2 : bits n 18 16 = 1 := (fc 18 16 (by decide) (by decide)).trans (bits_eq 3 (by unfold encOwn; omega) rfl)
  have h3 : bits n 29 19 = 0 := (fc 29 19 (by decide) (by decide)).trans (bits_eq 11 (by unfold encOwn; omega) rfl)
  have h4 : bits n 3 0 = m.val := (fc 3 0 (by decide) (by decide)).trans (bits_eq 4 (by unfold encOwn; omega) rfl)
  have h5 : bits n 40 30 = a.num := (fc 40 30 (by decide) (by decide)).trans (bits_eq 11 (by unfold encOwn; omega) rfl)
  have h6 : bits n 51 41 = 0 := (fc 51 41 (by decide) (by decide)).trans (bits_eq 11 (by unfold encOwn; omega) rfl)
  clear he
  refine of_fields hlt ho rfl ?_
  rw [in_sync2 ho (by decide) (by decide)]
  simp [decSync, fD, fV, rA, fA, h1, h2, h3, h4, h5, h6, hg, need, fin, reg_dec]

theorem gbarJoin (g) : Statement (.gbarJoin g) := by
  intro n he hw
  have he := Option.some.inj he
  obtain ⟨hlt, ho, hg, fc, fk⟩ := full_word he (by decide) (by unfold encOwn; omega)
  have h1 : bits n 15 0 = 0 := (fc 15 0 (by decide) (by decide)).trans (bits_eq 16 (by unfold encOwn; omega) rfl)
  have h2 : bits n 18 16 = 0 := (fc 18 16 (by decide) (by decide)).trans (bits_eq 3 (by unfold encOwn; omega) rfl)
  have h3 : bits n 51 19 = 0 := (fc 51 19 (by decide) (by decide)).trans (bits_eq 33 (by unfold encOwn; omega) rfl)
  clear he
  refine of_fields hlt ho rfl ?_
  rw [in_sync2 ho (by decide) (by decide)]
  simp [decSync, fV, h1, h2, h3, hg, need]

theorem gbarPost (g) : Statement (.gbarPost g) := by
  intro n he hw
  have he := Option.some.inj he
  obtain ⟨hlt, ho, hg, fc, fk⟩ := full_word he (by decide) (by unfold encOwn; omega)
  have h1 : bits n 15 0 = 0 := (fc 15 0 (by decide) (by decide)).trans (bits_eq 16 (by unfold encOwn; omega) rfl)
  have h2 : bits n 18 16 = 1 := (fc 18 16 (by decide) (by decide)).trans (bits_eq 3 (by unfold encOwn; omega) rfl)
  have h3 : bits n 51 19 = 0 := (fc 51 19 (by decide) (by decide)).trans (bits_eq 33 (by unfold encOwn; omega) rfl)
  clear he
  refine of_fields hlt ho rfl ?_
  rw [in_sync2 ho (by decide) (by decide)]
  simp [decSync, fV, h1, h2, h3, hg, need]

theorem wsync (g a) : Statement (.wsync g a) := by
  intro n he hw
  have he := Option.some.inj he
  have := reg_lt a
  obtain ⟨hlt, ho, hg, fc, fk⟩ := full_word he (by decide) (by unfold encOwn; omega)
  have h1 : bits n 29 0 = 0 := (fc 29 0 (by decide) (by decide)).trans (bits_eq 30 (by unfold encOwn; omega) rfl)
  have h2 : bits n 40 30 = a.num := (fc 40 30 (by decide) (by decide)).trans (bits_eq 11 (by unfold encOwn; omega) rfl)
  have h3 : bits n 51 41 = 0 := (fc 51 41 (by decide) (by decide)).trans (bits_eq 11 (by unfold encOwn; omega) rfl)
  clear he
  refine of_fields hlt ho rfl ?_
  rw [in_sync2 ho (by decide) (by decide)]
  simp [decSync, fD, rA, fA, h1, h2, h3, hg, need, reg_dec]

theorem waitw (g d base b cc w sg sc) : Statement (.waitw g d base b cc w sg sc) := by
  intro n he hw
  have he := Option.some.inj he
  have := reg_lt d
  have := base_lt base
  have := reg_lt b
  have := cond_lt cc
  have := b2n_lt (w)
  have := b2n_lt (sg)
  have := scope_lt sc
  obtain ⟨hlt, ho, hg, fc, fk⟩ := full_word he (by decide) (by omega)
  have h1 : bits n 11 0 = 0 := (fc 11 0 (by decide) (by decide)).trans (bits_eq 12 (by omega) rfl)
  have h2 : bits n 14 12 = sc.code := (fc 14 12 (by decide) (by decide)).trans (bits_eq 3 (by omega) rfl)
  have h3 : bit n 15 = sg := bit_b2n ((fc 15 15 (by decide) (by decide)).trans (bits_eq 1 (by omega) rfl))
  have h4 : bit n 16 = w := bit_b2n ((fc 16 16 (by decide) (by decide)).trans (bits_eq 1 (by omega) rfl))
  have h5 : bits n 19 17 = cc.code := (fc 19 17 (by decide) (by decide)).trans (bits_eq 3 (by omega) rfl)
  have h6 : bits n 30 20 = b.num := (fc 30 20 (by decide) (by decide)).trans (bits_eq 11 (by omega) rfl)
  have h7 : bits n 40 31 = base.num := (fc 40 31 (by decide) (by decide)).trans (bits_eq 10 (by omega) rfl)
  have h8 : bits n 51 41 = d.num := (fc 51 41 (by decide) (by decide)).trans (bits_eq 11 (by omega) rfl)
  clear he
  refine of_fields hlt ho rfl ?_
  rw [in_sync2 ho (by decide) (by decide)]
  simp [decSync, decMemBase, rD, fD, h1, h2, h3, h4, h5, h6, h7, h8, hg, need, cond_dec, base_dec, reg_dec, scope_dec]

theorem odone (g) : Statement (.odone g) := by
  intro n he hw
  have he := Option.some.inj he
  obtain ⟨hlt, ho, hg, fc, fk⟩ := full_word he (by decide) (by omega)
  have h1 : bits n 51 0 = 0 := (fc 51 0 (by decide) (by decide)).trans (bits_eq 52 (by omega) rfl)
  clear he
  refine of_fields hlt ho rfl ?_
  rw [in_sync2 ho (by decide) (by decide)]
  simp [decSync, h1, hg, need]

theorem cpyG2s (g a) : Statement (.cpyG2s g a) := by
  intro n he hw
  have he := Option.some.inj he
  have := reg_lt a
  obtain ⟨hlt, ho, hg, fc, fk⟩ := full_word he (by decide) (by unfold encOwn; omega)
  have h1 : bits n 15 0 = 0 := (fc 15 0 (by decide) (by decide)).trans (bits_eq 16 (by unfold encOwn; omega) rfl)
  have h2 : bits n 18 16 = 0 := (fc 18 16 (by decide) (by decide)).trans (bits_eq 3 (by unfold encOwn; omega) rfl)
  have h3 : bits n 29 19 = 0 := (fc 29 19 (by decide) (by decide)).trans (bits_eq 11 (by unfold encOwn; omega) rfl)
  have h4 : bits n 40 30 = a.num := (fc 40 30 (by decide) (by decide)).trans (bits_eq 11 (by unfold encOwn; omega) rfl)
  have h5 : bits n 51 41 = 0 := (fc 51 41 (by decide) (by decide)).trans (bits_eq 11 (by unfold encOwn; omega) rfl)
  clear he
  refine of_fields hlt ho rfl ?_
  rw [in_sync2 ho (by decide) (by decide)]
  simp [decSync, fD, fV, rA, fA, h1, h2, h3, h4, h5, hg, need, reg_dec]

theorem cpyS2g (g a) : Statement (.cpyS2g g a) := by
  intro n he hw
  have he := Option.some.inj he
  have := reg_lt a
  obtain ⟨hlt, ho, hg, fc, fk⟩ := full_word he (by decide) (by unfold encOwn; omega)
  have h1 : bits n 15 0 = 0 := (fc 15 0 (by decide) (by decide)).trans (bits_eq 16 (by unfold encOwn; omega) rfl)
  have h2 : bits n 18 16 = 1 := (fc 18 16 (by decide) (by decide)).trans (bits_eq 3 (by unfold encOwn; omega) rfl)
  have h3 : bits n 29 19 = 0 := (fc 29 19 (by decide) (by decide)).trans (bits_eq 11 (by unfold encOwn; omega) rfl)
  have h4 : bits n 40 30 = a.num := (fc 40 30 (by decide) (by decide)).trans (bits_eq 11 (by unfold encOwn; omega) rfl)
  have h5 : bits n 51 41 = 0 := (fc 51 41 (by decide) (by decide)).trans (bits_eq 11 (by unfold encOwn; omega) rfl)
  clear he
  refine of_fields hlt ho rfl ?_
  rw [in_sync2 ho (by decide) (by decide)]
  simp [decSync, fD, fV, rA, fA, h1, h2, h3, h4, h5, hg, need, reg_dec]

theorem cpyG2g (g a) : Statement (.cpyG2g g a) := by
  intro n he hw
  have he := Option.some.inj he
  have := reg_lt a
  obtain ⟨hlt, ho, hg, fc, fk⟩ := full_word he (by decide) (by unfold encOwn; omega)
  have h1 : bits n 15 0 = 0 := (fc 15 0 (by decide) (by decide)).trans (bits_eq 16 (by unfold encOwn; omega) rfl)
  have h2 : bits n 18 16 = 2 := (fc 18 16 (by decide) (by decide)).trans (bits_eq 3 (by unfold encOwn; omega) rfl)
  have h3 : bits n 29 19 = 0 := (fc 29 19 (by decide) (by decide)).trans (bits_eq 11 (by unfold encOwn; omega) rfl)
  have h4 : bits n 40 30 = a.num := (fc 40 30 (by decide) (by decide)).trans (bits_eq 11 (by unfold encOwn; omega) rfl)
  have h5 : bits n 51 41 = 0 := (fc 51 41 (by decide) (by decide)).trans (bits_eq 11 (by unfold encOwn; omega) rfl)
  clear he
  refine of_fields hlt ho rfl ?_
  rw [in_sync2 ho (by decide) (by decide)]
  simp [decSync, fD, fV, rA, fA, h1, h2, h3, h4, h5, hg, need, reg_dec]

theorem cpyGather (g a) : Statement (.cpyGather g a) := by
  intro n he hw
  have he := Option.some.inj he
  have := reg_lt a
  obtain ⟨hlt, ho, hg, fc, fk⟩ := full_word he (by decide) (by unfold encOwn; omega)
  have h1 : bits n 15 0 = 0 := (fc 15 0 (by decide) (by decide)).trans (bits_eq 16 (by unfold encOwn; omega) rfl)
  have h2 : bits n 18 16 = 3 := (fc 18 16 (by decide) (by decide)).trans (bits_eq 3 (by unfold encOwn; omega) rfl)
  have h3 : bits n 29 19 = 0 := (fc 29 19 (by decide) (by decide)).trans (bits_eq 11 (by unfold encOwn; omega) rfl)
  have h4 : bits n 40 30 = a.num := (fc 40 30 (by decide) (by decide)).trans (bits_eq 11 (by unfold encOwn; omega) rfl)
  have h5 : bits n 51 41 = 0 := (fc 51 41 (by decide) (by decide)).trans (bits_eq 11 (by unfold encOwn; omega) rfl)
  clear he
  refine of_fields hlt ho rfl ?_
  rw [in_sync2 ho (by decide) (by decide)]
  simp [decSync, fD, fV, rA, fA, h1, h2, h3, h4, h5, hg, need, reg_dec]

theorem cpyBcast (g a) : Statement (.cpyBcast g a) := by
  intro n he hw
  have he := Option.some.inj he
  have := reg_lt a
  obtain ⟨hlt, ho, hg, fc, fk⟩ := full_word he (by decide) (by unfold encOwn; omega)
  have h1 : bits n 15 0 = 0 := (fc 15 0 (by decide) (by decide)).trans (bits_eq 16 (by unfold encOwn; omega) rfl)
  have h2 : bits n 18 16 = 4 := (fc 18 16 (by decide) (by decide)).trans (bits_eq 3 (by unfold encOwn; omega) rfl)
  have h3 : bits n 29 19 = 0 := (fc 29 19 (by decide) (by decide)).trans (bits_eq 11 (by unfold encOwn; omega) rfl)
  have h4 : bits n 40 30 = a.num := (fc 40 30 (by decide) (by decide)).trans (bits_eq 11 (by unfold encOwn; omega) rfl)
  have h5 : bits n 51 41 = 0 := (fc 51 41 (by decide) (by decide)).trans (bits_eq 11 (by unfold encOwn; omega) rfl)
  clear he
  refine of_fields hlt ho rfl ?_
  rw [in_sync2 ho (by decide) (by decide)]
  simp [decSync, fD, fV, rA, fA, h1, h2, h3, h4, h5, hg, need, reg_dec]

theorem cpyFill (g a) : Statement (.cpyFill g a) := by
  intro n he hw
  have he := Option.some.inj he
  have := reg_lt a
  obtain ⟨hlt, ho, hg, fc, fk⟩ := full_word he (by decide) (by unfold encOwn; omega)
  have h1 : bits n 15 0 = 0 := (fc 15 0 (by decide) (by decide)).trans (bits_eq 16 (by unfold encOwn; omega) rfl)
  have h2 : bits n 18 16 = 5 := (fc 18 16 (by decide) (by decide)).trans (bits_eq 3 (by unfold encOwn; omega) rfl)
  have h3 : bits n 29 19 = 0 := (fc 29 19 (by decide) (by decide)).trans (bits_eq 11 (by unfold encOwn; omega) rfl)
  have h4 : bits n 40 30 = a.num := (fc 40 30 (by decide) (by decide)).trans (bits_eq 11 (by unfold encOwn; omega) rfl)
  have h5 : bits n 51 41 = 0 := (fc 51 41 (by decide) (by decide)).trans (bits_eq 11 (by unfold encOwn; omega) rfl)
  clear he
  refine of_fields hlt ho rfl ?_
  rw [in_sync2 ho (by decide) (by decide)]
  simp [decSync, fD, fV, rA, fA, h1, h2, h3, h4, h5, hg, need, reg_dec]

theorem cpyMeta (g a) : Statement (.cpyMeta g a) := by
  intro n he hw
  have he := Option.some.inj he
  have := reg_lt a
  obtain ⟨hlt, ho, hg, fc, fk⟩ := full_word he (by decide) (by unfold encOwn; omega)
  have h1 : bits n 15 0 = 0 := (fc 15 0 (by decide) (by decide)).trans (bits_eq 16 (by unfold encOwn; omega) rfl)
  have h2 : bits n 18 16 = 6 := (fc 18 16 (by decide) (by decide)).trans (bits_eq 3 (by unfold encOwn; omega) rfl)
  have h3 : bits n 29 19 = 0 := (fc 29 19 (by decide) (by decide)).trans (bits_eq 11 (by unfold encOwn; omega) rfl)
  have h4 : bits n 40 30 = a.num := (fc 40 30 (by decide) (by decide)).trans (bits_eq 11 (by unfold encOwn; omega) rfl)
  have h5 : bits n 51 41 = 0 := (fc 51 41 (by decide) (by decide)).trans (bits_eq 11 (by unfold encOwn; omega) rfl)
  clear he
  refine of_fields hlt ho rfl ?_
  rw [in_sync2 ho (by decide) (by decide)]
  simp [decSync, fD, fV, rA, fA, h1, h2, h3, h4, h5, hg, need, reg_dec]

theorem cbwWait (g d a) : Statement (.cbwWait g d a) := by
  intro n he hw
  have he := Option.some.inj he
  have := reg_lt d
  have := reg_lt a
  obtain ⟨hlt, ho, hg, fc, fk⟩ := full_word he (by decide) (by unfold encOwn; omega)
  have h1 : bits n 15 0 = 0 := (fc 15 0 (by decide) (by decide)).trans (bits_eq 16 (by unfold encOwn; omega) rfl)
  have h2 : bits n 18 16 = 0 := (fc 18 16 (by decide) (by decide)).trans (bits_eq 3 (by unfold encOwn; omega) rfl)
  have h3 : bits n 29 19 = 0 := (fc 29 19 (by decide) (by decide)).trans (bits_eq 11 (by unfold encOwn; omega) rfl)
  have h4 : bits n 40 30 = a.num := (fc 40 30 (by decide) (by decide)).trans (bits_eq 11 (by unfold encOwn; omega) rfl)
  have h5 : bits n 51 41 = d.num := (fc 51 41 (by decide) (by decide)).trans (bits_eq 11 (by unfold encOwn; omega) rfl)
  clear he
  refine of_fields hlt ho rfl ?_
  rw [in_sync2 ho (by decide) (by decide)]
  simp [decSync, fV, rD, rA, fD, fA, h1, h2, h3, h4, h5, hg, need, reg_dec]

theorem cbwTest (g d a) : Statement (.cbwTest g d a) := by
  intro n he hw
  have he := Option.some.inj he
  have := reg_lt d
  have := reg_lt a
  obtain ⟨hlt, ho, hg, fc, fk⟩ := full_word he (by decide) (by unfold encOwn; omega)
  have h1 : bits n 15 0 = 0 := (fc 15 0 (by decide) (by decide)).trans (bits_eq 16 (by unfold encOwn; omega) rfl)
  have h2 : bits n 18 16 = 1 := (fc 18 16 (by decide) (by decide)).trans (bits_eq 3 (by unfold encOwn; omega) rfl)
  have h3 : bits n 29 19 = 0 := (fc 29 19 (by decide) (by decide)).trans (bits_eq 11 (by unfold encOwn; omega) rfl)
  have h4 : bits n 40 30 = a.num := (fc 40 30 (by decide) (by decide)).trans (bits_eq 11 (by unfold encOwn; omega) rfl)
  have h5 : bits n 51 41 = d.num := (fc 51 41 (by decide) (by decide)).trans (bits_eq 11 (by unfold encOwn; omega) rfl)
  clear he
  refine of_fields hlt ho rfl ?_
  rw [in_sync2 ho (by decide) (by decide)]
  simp [decSync, fV, rD, rA, fD, fA, h1, h2, h3, h4, h5, hg, need, reg_dec]

theorem cbwReset (g d a) : Statement (.cbwReset g d a) := by
  intro n he hw
  have he := Option.some.inj he
  have := reg_lt d
  have := reg_lt a
  obtain ⟨hlt, ho, hg, fc, fk⟩ := full_word he (by decide) (by unfold encOwn; omega)
  have h1 : bits n 15 0 = 0 := (fc 15 0 (by decide) (by decide)).trans (bits_eq 16 (by unfold encOwn; omega) rfl)
  have h2 : bits n 18 16 = 2 := (fc 18 16 (by decide) (by decide)).trans (bits_eq 3 (by unfold encOwn; omega) rfl)
  have h3 : bits n 29 19 = 0 := (fc 29 19 (by decide) (by decide)).trans (bits_eq 11 (by unfold encOwn; omega) rfl)
  have h4 : bits n 40 30 = a.num := (fc 40 30 (by decide) (by decide)).trans (bits_eq 11 (by unfold encOwn; omega) rfl)
  have h5 : bits n 51 41 = d.num := (fc 51 41 (by decide) (by decide)).trans (bits_eq 11 (by unfold encOwn; omega) rfl)
  clear he
  refine of_fields hlt ho rfl ?_
  rw [in_sync2 ho (by decide) (by decide)]
  simp [decSync, fV, rD, rA, fD, fA, h1, h2, h3, h4, h5, hg, need, reg_dec]

theorem mmac (g a) : Statement (.mmac g a) := by
  intro n he hw
  have he := Option.some.inj he
  have := reg_lt a
  obtain ⟨hlt, ho, hg, fc, fk⟩ := full_word he (by decide) (by unfold encOwn; omega)
  have h2 : bits n 29 0 = 0 := (fc 29 0 (by decide) (by decide)).trans (bits_eq 30 (by unfold encOwn; omega) rfl)
  have h3 : bits n 40 30 = a.num := (fc 40 30 (by decide) (by decide)).trans (bits_eq 11 (by unfold encOwn; omega) rfl)
  have h5 : bits n 51 41 = 0 := (fc 51 41 (by decide) (by decide)).trans (bits_eq 11 (by unfold encOwn; omega) rfl)
  clear he
  refine of_fields hlt ho rfl ?_
  rw [in_matrix ho (by decide)]
  simp [decMatrix, fD, rA, fA, h2, h3, h5, hg, need, reg_dec]

theorem maccSt (g a b nr fmt raw) : Statement (.maccSt g a b nr fmt raw) := by
  intro n he hw
  have he := Option.some.inj he
  have := reg_lt a
  have := reg_lt b
  have := fmt.isLt
  have := b2n_lt (raw)
  have := nr.isLt
  obtain ⟨hlt, ho, hg, fc, fk⟩ := full_word he (by decide) (by unfold encOwn; omega)
  have h2 : bits n 11 6 = 0 := (fc 11 6 (by decide) (by decide)).trans (bits_eq 6 (by unfold encOwn; omega) rfl)
  have h4 : bit n 12 = raw := bit_b2n ((fc 12 12 (by decide) (by decide)).trans (bits_eq 1 (by unfold encOwn; omega) rfl))
  have h5 : bits n 15 13 = fmt.val := (fc 15 13 (by decide) (by decide)).trans (bits_eq 3 (by unfold encOwn; omega) rfl)
  have h6 : bits n 18 16 = 0 := (fc 18 16 (by decide) (by decide)).trans (bits_eq 3 (by unfold encOwn; omega) rfl)
  have h7 : bits n 29 19 = b.num := (fc 29 19 (by decide) (by decide)).trans (bits_eq 11 (by unfold encOwn; omega) rfl)
  have h8 : bits n 40 30 = a.num := (fc 40 30 (by decide) (by decide)).trans (bits_eq 11 (by unfold encOwn; omega) rfl)
  have h9 : bits n 5 0 = nr.val := (fc 5 0 (by decide) (by decide)).trans (bits_eq 6 (by unfold encOwn; omega) rfl)
  have h10 : bits n 51 41 = 0 := (fc 51 41 (by decide) (by decide)).trans (bits_eq 11 (by unfold encOwn; omega) rfl)
  clear he
  refine of_fields hlt ho rfl ?_
  rw [in_matrix ho (by decide)]
  simp [decMatrix, fD, fA, fV, rA, rB, fB, h2, h4, h5, h6, h7, h8, h9, h10, hg, need, fin, reg_dec]

theorem maccLd (g a b nr fmt raw ad) : Statement (.maccLd g a b nr fmt raw ad) := by
  intro n he hw
  have he := Option.some.inj he
  have := reg_lt a
  have := reg_lt b
  have := fmt.isLt
  have := b2n_lt (raw)
  have := b2n_lt (ad)
  have := nr.isLt
  obtain ⟨hlt, ho, hg, fc, fk⟩ := full_word he (by decide) (by unfold encOwn; omega)
  have h3 : bits n 11 7 = 0 := (fc 11 7 (by decide) (by decide)).trans (bits_eq 5 (by unfold encOwn; omega) rfl)
  have h4 : bit n 12 = raw := bit_b2n ((fc 12 12 (by decide) (by decide)).trans (bits_eq 1 (by unfold encOwn; omega) rfl))
  have h5 : bits n 15 13 = fmt.val := (fc 15 13 (by decide) (by decide)).trans (bits_eq 3 (by unfold encOwn; omega) rfl)
  have h6 : bits n 18 16 = 1 := (fc 18 16 (by decide) (by decide)).trans (bits_eq 3 (by unfold encOwn; omega) rfl)
  have h7 : bits n 29 19 = b.num := (fc 29 19 (by decide) (by decide)).trans (bits_eq 11 (by unfold encOwn; omega) rfl)
  have h8 : bits n 40 30 = a.num := (fc 40 30 (by decide) (by decide)).trans (bits_eq 11 (by unfold encOwn; omega) rfl)
  have h9 : bits n 5 0 = nr.val := (fc 5 0 (by decide) (by decide)).trans (bits_eq 6 (by unfold encOwn; omega) rfl)
  have h10 : bits n 51 41 = 0 := (fc 51 41 (by decide) (by decide)).trans (bits_eq 11 (by unfold encOwn; omega) rfl)
  have h11 : bit n 6 = ad := bit_b2n ((fc 6 6 (by decide) (by decide)).trans (bits_eq 1 (by unfold encOwn; omega) rfl))
  clear he
  refine of_fields hlt ho rfl ?_
  rw [in_matrix ho (by decide)]
  simp [decMatrix, fD, fA, fV, rA, rB, fB, h3, h4, h5, h6, h7, h8, h9, h10, h11, hg, need, fin, reg_dec]

theorem maccZero (g b nr) : Statement (.maccZero g b nr) := by
  intro n he hw
  have he := Option.some.inj he
  have := reg_lt b
  have := nr.isLt
  obtain ⟨hlt, ho, hg, fc, fk⟩ := full_word he (by decide) (by unfold encOwn; omega)
  have h7 : bits n 15 6 = 0 := (fc 15 6 (by decide) (by decide)).trans (bits_eq 10 (by unfold encOwn; omega) rfl)
  have h8 : bits n 18 16 = 2 := (fc 18 16 (by decide) (by decide)).trans (bits_eq 3 (by unfold encOwn; omega) rfl)
  have h9 : bits n 29 19 = b.num := (fc 29 19 (by decide) (by decide)).trans (bits_eq 11 (by unfold encOwn; omega) rfl)
  have h10 : bits n 40 30 = 0 := (fc 40 30 (by decide) (by decide)).trans (bits_eq 11 (by unfold encOwn; omega) rfl)
  have h11 : bits n 5 0 = nr.val := (fc 5 0 (by decide) (by decide)).trans (bits_eq 6 (by unfold encOwn; omega) rfl)
  have h12 : bits n 51 41 = 0 := (fc 51 41 (by decide) (by decide)).trans (bits_eq 11 (by unfold encOwn; omega) rfl)
  clear he
  refine of_fields hlt ho rfl ?_
  rw [in_matrix ho (by decide)]
  simp [decMatrix, fD, fA, fV, rB, fB, h7, h8, h9, h10, h11, h12, hg, need, fin, reg_dec]

theorem maccRd (g d b c rt r) : Statement (.maccRd g d b c rt r) := by
  intro n he hw
  have he := Option.some.inj he
  have := reg_lt d
  have := reg_lt c
  have := reg_lt b
  have := rt_lt rt
  have := rnd_lt r
  obtain ⟨hlt, ho, hg, fc, fk⟩ := full_word he (by decide) (by unfold encOwn; omega)
  have h1 : bits n 11 10 = rt.code := (fc 11 10 (by decide) (by decide)).trans (bits_eq 2 (by unfold encOwn; omega) rfl)
  have h3 : bits n 15 12 = 0 := (fc 15 12 (by decide) (by decide)).trans (bits_eq 4 (by unfold encOwn; omega) rfl)
  have h5 : bits n 18 16 = 3 := (fc 18 16 (by decide) (by decide)).trans (bits_eq 3 (by unfold encOwn; omega) rfl)
  have h6 : bits n 29 19 = b.num := (fc 29 19 (by decide) (by decide)).trans (bits_eq 11 (by unfold encOwn; omega) rfl)
  have h7 : bits n 40 30 = c.num := (fc 40 30 (by decide) (by decide)).trans (bits_eq 11 (by unfold encOwn; omega) rfl)
  have h9 : bits n 51 41 = d.num := (fc 51 41 (by decide) (by decide)).trans (bits_eq 11 (by unfold encOwn; omega) rfl)
  have h11 : bits n 6 0 = 0 := (fc 6 0 (by decide) (by decide)).trans (bits_eq 7 (by unfold encOwn; omega) rfl)
  have h12 : bits n 9 7 = r.code := (fc 9 7 (by decide) (by decide)).trans (bits_eq 3 (by unfold encOwn; omega) rfl)
  clear he
  refine of_fields hlt ho rfl ?_
  rw [in_matrix ho (by decide)]
  simp [decMatrix, fD, fA, fV, rD, rA, rB, fB, h1, h3, h5, h6, h7, h9, h11, h12, hg, need, rt_dec, reg_dec, rnd_dec]

theorem mqctlClaim (g d q) : Statement (.mqctlClaim g d q) := by
  intro n he hw
  have he := Option.some.inj he
  have := reg_lt d
  have := q.isLt
  obtain ⟨hlt, ho, hg, fc, fk⟩ := full_word he (by decide) (by unfold encOwn; omega)
  have h1 : bits n 1 0 = q.val := (fc 1 0 (by decide) (by decide)).trans (bits_eq 2 (by unfold encOwn; omega) rfl)
  have h3 : bits n 15 2 = 0 := (fc 15 2 (by decide) (by decide)).trans (bits_eq 14 (by unfold encOwn; omega) rfl)
  have h4 : bits n 18 16 = 0 := (fc 18 16 (by decide) (by decide)).trans (bits_eq 3 (by unfold encOwn; omega) rfl)
  have h5 : bits n 40 19 = 0 := (fc 40 19 (by decide) (by decide)).trans (bits_eq 22 (by unfold encOwn; omega) rfl)
  have h7 : bits n 51 41 = d.num := (fc 51 41 (by decide) (by decide)).trans (bits_eq 11 (by unfold encOwn; omega) rfl)
  clear he
  refine of_fields hlt ho rfl ?_
  rw [in_matrix ho (by decide)]
  simp [decMatrix, fV, rD, fD, h1, h3, h4, h5, h7, hg, need, fin, reg_dec]

theorem mqctlRelease (g d q) : Statement (.mqctlRelease g d q) := by
  intro n he hw
  have he := Option.some.inj he
  have := reg_lt d
  have := q.isLt
  obtain ⟨hlt, ho, hg, fc, fk⟩ := full_word he (by decide) (by unfold encOwn; omega)
  have h1 : bits n 1 0 = q.val := (fc 1 0 (by decide) (by decide)).trans (bits_eq 2 (by unfold encOwn; omega) rfl)
  have h3 : bits n 15 2 = 0 := (fc 15 2 (by decide) (by decide)).trans (bits_eq 14 (by unfold encOwn; omega) rfl)
  have h4 : bits n 18 16 = 1 := (fc 18 16 (by decide) (by decide)).trans (bits_eq 3 (by unfold encOwn; omega) rfl)
  have h5 : bits n 40 19 = 0 := (fc 40 19 (by decide) (by decide)).trans (bits_eq 22 (by unfold encOwn; omega) rfl)
  have h7 : bits n 51 41 = d.num := (fc 51 41 (by decide) (by decide)).trans (bits_eq 11 (by unfold encOwn; omega) rfl)
  clear he
  refine of_fields hlt ho rfl ?_
  rw [in_matrix ho (by decide)]
  simp [decMatrix, fV, rD, fD, h1, h3, h4, h5, h7, hg, need, fin, reg_dec]

theorem mqctlQuery (g d q) : Statement (.mqctlQuery g d q) := by
  intro n he hw
  have he := Option.some.inj he
  have := reg_lt d
  have := q.isLt
  obtain ⟨hlt, ho, hg, fc, fk⟩ := full_word he (by decide) (by unfold encOwn; omega)
  have h1 : bits n 1 0 = q.val := (fc 1 0 (by decide) (by decide)).trans (bits_eq 2 (by unfold encOwn; omega) rfl)
  have h3 : bits n 15 2 = 0 := (fc 15 2 (by decide) (by decide)).trans (bits_eq 14 (by unfold encOwn; omega) rfl)
  have h4 : bits n 18 16 = 2 := (fc 18 16 (by decide) (by decide)).trans (bits_eq 3 (by unfold encOwn; omega) rfl)
  have h5 : bits n 40 19 = 0 := (fc 40 19 (by decide) (by decide)).trans (bits_eq 22 (by unfold encOwn; omega) rfl)
  have h7 : bits n 51 41 = d.num := (fc 51 41 (by decide) (by decide)).trans (bits_eq 11 (by unfold encOwn; omega) rfl)
  clear he
  refine of_fields hlt ho rfl ?_
  rw [in_matrix ho (by decide)]
  simp [decMatrix, fV, rD, fD, h1, h3, h4, h5, h7, hg, need, fin, reg_dec]

theorem mstatErr (g d) : Statement (.mstatErr g d) := by
  intro n he hw
  have he := Option.some.inj he
  have := reg_lt d
  obtain ⟨hlt, ho, hg, fc, fk⟩ := full_word he (by decide) (by unfold encOwn; omega)
  have h1 : bits n 15 0 = 0 := (fc 15 0 (by decide) (by decide)).trans (bits_eq 16 (by unfold encOwn; omega) rfl)
  have h3 : bits n 18 16 = 0 := (fc 18 16 (by decide) (by decide)).trans (bits_eq 3 (by unfold encOwn; omega) rfl)
  have h4 : bits n 29 19 = 0 := (fc 29 19 (by decide) (by decide)).trans (bits_eq 11 (by unfold encOwn; omega) rfl)
  have h5 : bits n 40 30 = 0 := (fc 40 30 (by decide) (by decide)).trans (bits_eq 11 (by unfold encOwn; omega) rfl)
  have h7 : bits n 51 41 = d.num := (fc 51 41 (by decide) (by decide)).trans (bits_eq 11 (by unfold encOwn; omega) rfl)
  clear he
  refine of_fields hlt ho rfl ?_
  rw [in_matrix ho (by decide)]
  simp [decMatrix, fD, fA, fV, rD, h1, h3, h4, h5, h7, hg, need, reg_dec]

theorem mstatCont (g a) : Statement (.mstatCont g a) := by
  intro n he hw
  have he := Option.some.inj he
  have := reg_lt a
  obtain ⟨hlt, ho, hg, fc, fk⟩ := full_word he (by decide) (by unfold encOwn; omega)
  have h1 : bits n 15 0 = 0 := (fc 15 0 (by decide) (by decide)).trans (bits_eq 16 (by unfold encOwn; omega) rfl)
  have h3 : bits n 18 16 = 1 := (fc 18 16 (by decide) (by decide)).trans (bits_eq 3 (by unfold encOwn; omega) rfl)
  have h4 : bits n 29 19 = 0 := (fc 29 19 (by decide) (by decide)).trans (bits_eq 11 (by unfold encOwn; omega) rfl)
  have h5 : bits n 40 30 = a.num := (fc 40 30 (by decide) (by decide)).trans (bits_eq 11 (by unfold encOwn; omega) rfl)
  have h7 : bits n 51 41 = 0 := (fc 51 41 (by decide) (by decide)).trans (bits_eq 11 (by unfold encOwn; omega) rfl)
  clear he
  refine of_fields hlt ho rfl ?_
  rw [in_matrix ho (by decide)]
  simp [decMatrix, fD, fA, fV, rA, h1, h3, h4, h5, h7, hg, need, reg_dec]

theorem mstatClr (g) : Statement (.mstatClr g) := by
  intro n he hw
  have he := Option.some.inj he
  obtain ⟨hlt, ho, hg, fc, fk⟩ := full_word he (by decide) (by unfold encOwn; omega)
  have h1 : bits n 15 0 = 0 := (fc 15 0 (by decide) (by decide)).trans (bits_eq 16 (by unfold encOwn; omega) rfl)
  have h2 : bits n 15 13 = 0 := (fc 15 13 (by decide) (by decide)).trans (bits_eq 3 (by unfold encOwn; omega) rfl)
  have h3 : bits n 18 16 = 2 := (fc 18 16 (by decide) (by decide)).trans (bits_eq 3 (by unfold encOwn; omega) rfl)
  have h4 : bits n 29 19 = 0 := (fc 29 19 (by decide) (by decide)).trans (bits_eq 11 (by unfold encOwn; omega) rfl)
  have h5 : bits n 40 30 = 0 := (fc 40 30 (by decide) (by decide)).trans (bits_eq 11 (by unfold encOwn; omega) rfl)
  have h6 : bits n 5 0 = 0 := (fc 5 0 (by decide) (by decide)).trans (bits_eq 6 (by unfold encOwn; omega) rfl)
  have h7 : bits n 51 41 = 0 := (fc 51 41 (by decide) (by decide)).trans (bits_eq 11 (by unfold encOwn; omega) rfl)
  clear he
  refine of_fields hlt ho rfl ?_
  rw [in_matrix ho (by decide)]
  simp [decMatrix, fD, fA, fV, rD, rA, h1, h2, h3, h4, h5, h6, h7, hg, need, fin]

theorem instructionFetch (a0) : Statement (.instructionFetch a0) := by
  intro n he; cases he

theorem pendingResultWrite (a0 a1) : Statement (.pendingResultWrite a0 a1) := by
  intro n he; cases he

theorem homeAccess (a0) : Statement (.homeAccess a0) := by
  intro n he; cases he

theorem intervalQueryAnswer (a0 a1 a2 a3 a4 a5) : Statement (.intervalQueryAnswer a0 a1 a2 a3 a4 a5) := by
  intro n he; cases he

theorem regionCommitComplete (a0) : Statement (.regionCommitComplete a0) := by
  intro n he; cases he

theorem regionCommitFail (a0) : Statement (.regionCommitFail a0) := by
  intro n he; cases he

theorem hbmFill (a0 a1 a2 a3) : Statement (.hbmFill a0 a1 a2 a3) := by
  intro n he; cases he

theorem servicePage (a0 a1) : Statement (.servicePage a0 a1) := by
  intro n he; cases he

theorem translationService (a0) : Statement (.translationService a0) := by
  intro n he; cases he

theorem replicaCreate (a0 a1 a2 a3 a4) : Statement (.replicaCreate a0 a1 a2 a3 a4) := by
  intro n he; cases he

theorem replicaCollapse (a0 a1) : Statement (.replicaCollapse a0 a1) := by
  intro n he; cases he

theorem shootdown (a0 a1 a2 a3) : Statement (.shootdown a0 a1 a2 a3) := by
  intro n he; cases he

theorem shootdownAck (a0 a1) : Statement (.shootdownAck a0 a1) := by
  intro n he; cases he

theorem mbxApertureWrite (a0 a1 a2) : Statement (.mbxApertureWrite a0 a1 a2) := by
  intro n he; cases he

theorem bar0RegisterWrite (a0 a1) : Statement (.bar0RegisterWrite a0 a1) := by
  intro n he; cases he

theorem launch (a0) : Statement (.launch a0) := by
  intro n he; cases he

theorem write (a0) : Statement (.write a0) := by
  intro n he; cases he

theorem read (a0) : Statement (.read a0) := by
  intro n he; cases he

theorem qflush (a0) : Statement (.qflush a0) := by
  intro n he; cases he

theorem freezeRequest (a0) : Statement (.freezeRequest a0) := by
  intro n he; cases he

theorem thaw (a0) : Statement (.thaw a0) := by
  intro n he; cases he

theorem viReset (a0) : Statement (.viReset a0) := by
  intro n he; cases he

theorem functionLevelReset (a0) : Statement (.functionLevelReset a0) := by
  intro n he; cases he

theorem viResetComplete (a0) : Statement (.viResetComplete a0) := by
  intro n he; cases he

theorem viConfigure (a0 a1) : Statement (.viConfigure a0 a1) := by
  intro n he; cases he

theorem headgateDispatch : Statement (.headgateDispatch) := by
  intro n he; cases he

theorem blockStart (a0) : Statement (.blockStart a0) := by
  intro n he; cases he

theorem workSteal (a0) : Statement (.workSteal a0) := by
  intro n he; cases he

theorem leveeRefill : Statement (.leveeRefill) := by
  intro n he; cases he

theorem portSend (a0) : Statement (.portSend a0) := by
  intro n he; cases he

theorem powerGrant (a0) : Statement (.powerGrant a0) := by
  intro n he; cases he

theorem powerGrantTimeout (a0) : Statement (.powerGrantTimeout a0) := by
  intro n he; cases he

theorem thermalLimit (a0 a1) : Statement (.thermalLimit a0 a1) := by
  intro n he; cases he

theorem copyChunk (a0 a1) : Statement (.copyChunk a0 a1) := by
  intro n he; cases he

theorem copyComplete (a0 a1) : Statement (.copyComplete a0 a1) := by
  intro n he; cases he

theorem matrixKblock (a0) : Statement (.matrixKblock a0) := by
  intro n he; cases he

theorem matrixCommandComplete (a0) : Statement (.matrixCommandComplete a0) := by
  intro n he; cases he

theorem sparseStallTimeout (a0) : Statement (.sparseStallTimeout a0) := by
  intro n he; cases he

theorem waitwReread (a0) : Statement (.waitwReread a0) := by
  intro n he; cases he

theorem cbwWaitReread (a0) : Statement (.cbwWaitReread a0) := by
  intro n he; cases he

theorem floorBroadcast : Statement (.floorBroadcast) := by
  intro n he; cases he

theorem holdingBufferArrive (a0) : Statement (.holdingBufferArrive a0) := by
  intro n he; cases he

theorem deferAreaRetry (a0) : Statement (.deferAreaRetry a0) := by
  intro n he; cases he

theorem replayRelease (a0) : Statement (.replayRelease a0) := by
  intro n he; cases he

theorem replayWindowExpiry (a0 a1) : Statement (.replayWindowExpiry a0 a1) := by
  intro n he; cases he

theorem stopDelivery (a0) : Statement (.stopDelivery a0) := by
  intro n he; cases he

theorem deferredStopDelivery (a0) : Statement (.deferredStopDelivery a0) := by
  intro n he; cases he

theorem watchdogExpiry (a0) : Statement (.watchdogExpiry a0) := by
  intro n he; cases he

theorem linkRecoveryReport (a0) : Statement (.linkRecoveryReport a0) := by
  intro n he; cases he

theorem linkRecoveryTimeout (a0) : Statement (.linkRecoveryTimeout a0) := by
  intro n he; cases he

theorem goistoResume (a0 a1) : Statement (.goistoResume a0 a1) := by
  intro n he; cases he

theorem breakpointSet (a0 a1 a2 a3 a4) : Statement (.breakpointSet a0 a1 a2 a3 a4) := by
  intro n he; cases he

theorem preemptionRequest (a0 a1) : Statement (.preemptionRequest a0 a1) := by
  intro n he; cases he

theorem preemptAck (a0 a1) : Statement (.preemptAck a0 a1) := by
  intro n he; cases he

theorem restore (a0 a1 a2 a3) : Statement (.restore a0 a1 a2 a3) := by
  intro n he; cases he

theorem scrubLine (a0 a1) : Statement (.scrubLine a0 a1) := by
  intro n he; cases he

theorem vacateAck (a0) : Statement (.vacateAck a0) := by
  intro n he; cases he

theorem vacateTimeout (a0) : Statement (.vacateTimeout a0) := by
  intro n he; cases he

theorem fieldTestStart (a0) : Statement (.fieldTestStart a0) := by
  intro n he; cases he

theorem fieldTestResult (a0 a1) : Statement (.fieldTestResult a0 a1) := by
  intro n he; cases he

theorem culvertBeatFail (a0 a1) : Statement (.culvertBeatFail a0 a1) := by
  intro n he; cases he

theorem scaleupPortFailure (a0) : Statement (.scaleupPortFailure a0) := by
  intro n he; cases he

theorem remoteArrival (a0 a1) : Statement (.remoteArrival a0 a1) := by
  intro n he; cases he

theorem warpExitRecord (a0) : Statement (.warpExitRecord a0) := by
  intro n he; cases he

theorem blockRetire (a0) : Statement (.blockRetire a0) := by
  intro n he; cases he

theorem launchEnd (a0) : Statement (.launchEnd a0) := by
  intro n he; cases he

theorem flumeRecordWrite (a0) : Statement (.flumeRecordWrite a0) := by
  intro n he; cases he

theorem counterTick : Statement (.counterTick) := by
  intro n he; cases he

theorem pcSample (a0 a1) : Statement (.pcSample a0 a1) := by
  intro n he; cases he

theorem cselWrite (a0 a1 a2) : Statement (.cselWrite a0 a1 a2) := by
  intro n he; cases he

theorem cctlWrite (a0 a1) : Statement (.cctlWrite a0 a1) := by
  intro n he; cases he

theorem clostWrite (a0 a1) : Statement (.clostWrite a0 a1) := by
  intro n he; cases he

theorem ptpLock (a0) : Statement (.ptpLock a0) := by
  intro n he; cases he

theorem powerOn : Statement (.powerOn) := by
  intro n he; cases he

theorem attestationRequest (a0) : Statement (.attestationRequest a0) := by
  intro n he; cases he

theorem firmwareUpdate (a0 a1) : Statement (.firmwareUpdate a0 a1) := by
  intro n he; cases he

theorem sleepExpiry (a0) : Statement (.sleepExpiry a0) := by
  intro n he; cases he

theorem linkRecovered (a0) : Statement (.linkRecovered a0) := by
  intro n he; cases he

theorem ieee1588LockLoss : Statement (.ieee1588LockLoss) := by
  intro n he; cases he

end Sys2Proof.Laws.RoundTrip
end

