-- ==== Sys2Proof/Tests/Slice0.lean ====
section
/-!
SUPPORT. Tests: words written out from the encoding tables of spec/, terms that the well-formedness checks refuse, single steps of
single words, and for every statement a state and operands that meet its hypotheses.
-/

open Sys2Proof Sys2Proof.Machine

set_option maxRecDepth 100000
set_option Elab.async false

namespace Sys2Proof.Tests

/-- The guard that always passes, and the one that never does. -/
def gT : Guard := ⟨7, false⟩
def gF : Guard := ⟨7, true⟩

/-! ### Deciding the terms of Safety -/

def calmOk (s : State) (x : Issue) (f : Foot) : Bool :=
  let w := s.warp x.w
  let r := w.region
  decide (s.cur = some x ∧ x.w < s.warps.length ∧ w.stop = none ∧ w.hold = .none ∧ s.twinBusy x.w = false ∧ s.illegal x f = none ∧
    w.scoreboard f = false ∧ s.boundWaits x.w = false ∧ w.heldFor x f = false ∧ (w.deferred = none ∨ r.issued ≠ 0) ∧ w.older = none ∧ w.stepping = false ∧
    x.given = none) &&
  (!s.clobbers x f || decide (r.issued = 0))

def freshOk (s : State) (w : Nat) : Bool :=
  let r := (s.warp w).region
  decide (r.atoms = [] ∧ r.spAtoms = [] ∧ r.cmds = [] ∧ r.stores = [] ∧ r.recs = [] ∧ r.clears = [] ∧ r.evicts = [] ∧
    r.ctrStores = [] ∧ r.flush = none ∧ r.odone = false ∧ r.mclear = false ∧ r.failed = none ∧
    (∀ d ∈ (s.warp w).dirty, d.state = .committed) ∧ s.reqsLeft w r.seq = false ∧ (s.launchOf w).rdnt = false ∧
    (s.coreOf w).ovfWarp ≠ some w)

theorem fresh_of {s : State} {w : Nat} (h : freshOk s w = true) : Fresh s w := by
  simp only [freshOk, decide_eq_true_eq] at h
  obtain ⟨a, b, c, d, e, f, g, i, j, k, l, m, n, o, p, q⟩ := h
  exact ⟨a, b, c, d, e, f, g, i, j, k, l, m, n, o, p, q⟩

/-- Calm, with no region before it; a word that clobbers what it reads also with a fresh region. -/
theorem calm_of {s : State} {x : Issue} {f : Foot} (h : calmOk s x f = true) (hf : freshOk s x.w = true) : Calm s x f := by
  simp only [calmOk, Bool.and_eq_true, Bool.or_eq_true, Bool.not_eq_true', decide_eq_true_eq] at h
  obtain ⟨⟨a, b, c, d, e, g, i, p, j, k, l, m, n⟩, o⟩ := h
  refine ⟨⟨a, b, c, d, e, g, i, p, j, fun y => ?_, k, fun p y => by rw [l] at y; cases y⟩, m, n, fun _ => fresh_of hf⟩
  rcases o with o | o
  · rw [o] at y; cases y
  · exact o

theorem quiet_of {s : State} {x : Issue} (h : (s.warp x.w).enables = 0) (vec : Bool) (flags : List (Nat × Nat)) : Quiet s x vec flags :=
  fun o _ _ => by rw [h]; exact Nat.and_zero o.2

def performOk (s : State) (x : Issue) : Bool :=
  let w := s.warp x.w
  decide (s.cur = some x ∧ x.w < s.warps.length ∧ w.hold = .commit x ∧ w.older = none ∧ s.handed x.w = [] ∧ w.deferred = none ∧
    w.stepping = false ∧ (s.rec? w.party).isSome = true)

theorem perform_of {s : State} {x : Issue} (h : performOk s x = true) : Performing s x := by
  simp only [performOk, decide_eq_true_eq] at h
  obtain ⟨a, b, c, d, e, f, g, i⟩ := h
  exact ⟨a, b, c, d, e, f, g, i⟩

def liveOk (s : State) (w : Nat) : Bool :=
  let l := s.launchOf w
  decide (l.rdnt = false ∧ l.det = false ∧ l.recording = false ∧ l.replaying = false ∧ s.secondary w = false)

theorem live_of {s : State} {w : Nat} (h : liveOk s w = true) : Live s w := by
  simp only [liveOk, decide_eq_true_eq] at h
  obtain ⟨a, b, c, d, e⟩ := h
  exact ⟨a, b, c, d, e⟩

/-- Where no warp holds a dirty copy every set of the L1 has its 16 ways. -/
theorem roomy_of {s : State} {c n : Nat} (h : (s.warps.all fun w => w.dirty.isEmpty) = true) (hn : n ≤ 16) : Roomy s c n := by
  have d : ∀ w ∈ s.warps, w.dirty = [] := fun w m => List.isEmpty_iff.1 (List.all_eq_true.1 h w m)
  intro set
  have a : s.waysUsed c set = 0 := by
    unfold State.waysUsed
    suffices ∀ (ws : List Warp) (k : Nat), (∀ w ∈ ws, w.dirty = []) → ws.foldl (fun n w =>
        if (s.block w.block).core == c && (s.block w.block).state == .resident then
          n + (w.dirty.filter fun d => d.state != .committed && !d.ovf && l1Set d.line == set).length
        else n) k = k from this _ _ d
    intro ws
    induction ws with
    | nil => intro k _; rfl
    | cons w ws ih =>
      intro k hk
      simp only [List.foldl_cons, hk w List.mem_cons_self, List.filter_nil, List.length_nil, Nat.add_zero, ite_self]
      exact ih k fun v m => hk v (List.mem_cons_of_mem _ m)
  have b : s.committedIn c set = [] := by
    simp only [State.committedIn, List.flatMap_eq_nil_iff, List.mem_range]
    intro w m
    have e : (s.warp w).dirty = [] := by
      simp only [State.warp, List.getD_eq_getElem?_getD, List.getElem?_eq_getElem m, Option.getD_some]
      exact d _ (List.getElem_mem m)
    rw [e]; split <;> rfl
  rw [a, b]; exact Nat.le_trans (by simp) hn

/-- Where no barrier of a block has an arrival for a later phase. -/
theorem unwaited_of {s : State} {w : Nat} (h : ((s.warp w).leavings.isEmpty && ((s.block (s.warp w).block).bars.all fun y => y.later.isEmpty) &&
    (s.block (s.warp w).block).gbar.later.isEmpty) = true) : Unwaited s w := by
  simp only [Bool.and_eq_true, List.isEmpty_iff, List.all_eq_true] at h
  refine ⟨h.1.1, fun n a m => ?_, fun a m => by rw [h.2] at m; cases m⟩
  have e : ((s.block (s.warp w).block).bar n).later = [] := by
    unfold Block.bar
    rcases Nat.lt_or_ge n (s.block (s.warp w).block).bars.length with k | k
    · rw [List.getD_eq_getElem?_getD, List.getElem?_eq_getElem k, Option.getD_some]; exact h.1.2 _ (List.getElem_mem k)
    · rw [List.getD_eq_getElem?_getD, List.getElem?_eq_none k]; rfl
  rw [e] at m; cases m

/-! ### One warp of 32 lanes at its first word -/

/-- A word executed. -/
def run (i : Instr) (s : State) : State := match exec i s with | .next t => t | _ => s

/-- A launch of one block of one warp on core 0, lanes 0 to 3 of its warp at 64 KiB, the others elsewhere, with nothing issued, and
tokens for its interface. -/
def s0 : State :=
  (State.reset.placeLaunch.updCore 0 fun c => { c with tokens := sset c.tokens 0 4096 0 }).updWarp 0 fun w =>
    { w with pct := [⟨0x1_0000, 15, .ready, .none, 0⟩, ⟨0x1_0800, 2 ^ 32 - 16, .ready, .none, 0⟩] }

/-- Its first issue, and those of the words after it. -/
def x0 : Issue := ⟨0, 15, 15, 0x1_0000, 0, none⟩
def at_ (k : Nat) : Issue := { x0 with pc := 0x1_0000 + 8 * k }
def goes (k : Nat) (s : State) : State := { s with cur := some (at_ k) }

/-- s2:s3 holds 0x18000, v2:v3 of lane l below 4 0x18000 + 8 l, v5 4 l, v6 100 + l, s6 32. -/
def regs (w : Warp) : Warp :=
  { w with
    sregs := sset (sset w.sregs 2 0x1_8000 0) 6 0x20 0
    vregs := (List.range 4).foldl (fun m l => sset (sset (sset m (2 * 32 + l) (BitVec.ofNat 32 (0x1_8000 + 8 * l)) 0) (6 * 32 + l)
      (BitVec.ofNat 32 (100 + l)) 0) (5 * 32 + l) (BitVec.ofNat 32 (4 * l)) 0) w.vregs }

def s1 : State := goes 0 (s0.updWarp 0 regs)

/-- Lanes 0 to 15 pass @p0. -/
def half (s : State) : State := s.updWarp 0 fun w => { w with preds := sset w.preds 0 0xFFFF 0 }

/-! ### Witnesses: words that compute -/

theorem fresh1 : freshOk s1 0 = true := by decide +kernel
theorem quiet1 (vec : Bool) (flags : List (Nat × Nat)) : Quiet s1 x0 vec flags := quiet_of (by decide +kernel) vec flags
theorem live1 : Live s1 0 := live_of (by decide +kernel)

theorem calm1 {f : Foot} (h : calmOk s1 x0 f = true) : Calm s1 x0 f := calm_of h fresh1

theorem calmIn {s : State} {x : Issue} {fs : List Foot} (h : fs.all (calmOk s x) = true) (hf : freshOk s x.w = true) :
    ∀ f ∈ fs, Calm s x f := fun f m => calm_of (List.all_eq_true.1 h f m) hf

theorem calmAll {fs : List Foot} (h : fs.all (calmOk s1 x0) = true) : ∀ f ∈ fs, Calm s1 x0 f :=
  fun f m => calm1 (List.all_eq_true.1 h f m)

/-- Destination and source are apart, the same, and the scalar of the same. -/
theorem witness_IntegerArithmetic :
    (∀ f ∈ [(aluOf gT (.v 4) 1 [(.v 5, .i32), (.v 6, .i32)]).foot, (aluOf gT (.v 4) 2 [(.v 4, .n64), (.imm 64, .n64)]).foot,
      (aluOf gT (.s 4) 1 [(.s 6, .n32), (.s 6, .n32), (.s 4, .n32)]).foot, (aluOf gT (.v 4) 2 [(.v 6, .n32), (.v 5, .n32), (.v 2, .n64)]).foot,
      (aluOf gT (.v 4) 1 [(.v 5, .i32)]).foot], Calm s1 x0 f) ∧ ∀ v fl, Quiet s1 x0 v fl := ⟨calmAll (by decide +kernel), quiet1⟩

theorem witness_BitsSelectsAndMoves :
    (∀ f ∈ [(aluOf gT (.v 4) 1 [(.v 5, .b32), (.imm 0, .n32)]).foot, ({ aluOf gT (.v 4) 1 [(.v 5, .b32), (.v 6, .b32)] with pin := [3] } : Alu).foot,
      (⟨gT, noReg, 0, noReg, 0, [(.v 5, .i32), (.v 6, .i32)], [3], some 3, true, 0, false⟩ : Alu).foot, (aluOf gT (.v 4) 2 []).foot,
      (⟨gT, .v 4, 1, noReg, 0, [(.v 5, .n32), (.v 6, .n32)], [1], some 1, false, 0, false⟩ : Alu).foot], Calm s1 x0 f) ∧
    ∀ v fl, Quiet s1 x0 v fl := ⟨calmAll (by decide +kernel), quiet1⟩

theorem witness_FloatArithmeticAndFunctions :
    (∀ f ∈ [({ aluOf gT (.v 4) 1 [(.v 5, .f32), (.v 6, .f32)] with draws := 1 } : Alu).foot, (aluOf gT (.v 4) 2 [(.v 6, .f64), (.v 2, .f64), (.v 8, .f64)]).foot,
      (aluOf gT (.s 4) 1 [(.s 6, .f16), (.s 5, .f16)]).foot, (⟨gT, noReg, 0, noReg, 0, [(.v 5, .f32), (.v 6, .f32)], [], some 3, true, 0, false⟩ : Alu).foot,
      (aluOf gT (.v 4) 1 [(.v 5, .f32), (.v 6, .i32)]).foot, ({ aluOf gT (.v 4) 1 [(.v 6, .f32)] with draws := 1, pend := true } : Alu).foot], Calm s1 x0 f) ∧
    ∀ v fl, Quiet s1 x0 v fl := ⟨calmAll (by decide +kernel), quiet1⟩

theorem witness_PackedAndConverted :
    (∀ f ∈ [(aluOf gT (.v 4) 1 [(.v 5, .f16), (.v 6, .f16), (.v 7, .f16)]).foot, (aluOf gT (.v 4) 2 [(.v 5, .f32)]).foot,
      ({ aluOf gT (.v 2) 1 [(.v 6, .f32)] with e := .v 3, en := 1 } : Alu).foot, (aluOf gT (.v 4) 1 [(.v 5, .f32), (.v 6, .f32)]).foot,
      (aluOf gT (.v 8) 4 [(.v 5, .e4m3)]).foot, (aluOf gT (.v 4) 1 [(.v 5, .i8), (.v 6, .i8), (.v 7, .i32)]).foot], Calm s1 x0 f) ∧
    (∀ v fl, Quiet s1 x0 v fl) ∧ (Instr.cvtef gT (.v 2) (.v 3) (.v 6) .e4m3 .f32 .rn false).wf = true ∧ Ty.i8.isInt = true ∧
    Ty.e4m3.isInt = false := ⟨calmAll (by decide +kernel), quiet1, by decide +kernel⟩

theorem witness_CrossLaneWords :
    (∀ f ∈ [(shflOp gT (.v 4) (.v 5) (.v 6) .b32 none).foot, (voteOp gT 1 2).foot, (sameOp gT 1 (.v 5) .b32).foot, (countVoteOp gT (.s 4) 2).foot,
      (countVoteOp gT (.v 4) 7).foot, (reduxOp gT (.s 4) (.v 5) .i32).foot, (reduxOp gT (.v 4) (.v 5) .f32).foot, (matchAnyOp gT (.v 4) (.v 5) .b32).foot,
      (matchAllOp gT (.v 4) 1 (.v 5) .b32).foot, (quadOp gT (.v 4) (.v 5) .b32).foot, (quadOp gT (.s 4) (.v 5) .b32).foot, (electOp gT (.v 4) 1).foot],
      Calm s1 x0 f) ∧ (∀ v fl, Quiet s1 x0 v fl) ∧ isScalarReg (.v 4) = false := ⟨calmAll (by decide +kernel), quiet1, by decide +kernel⟩

/-- With both slots, with one, and with a special function in slot B. -/
theorem witness_PairWords :
    (∀ f ∈ [pairFoot ⟨.add, 0, 8, 13, 0, 0⟩ ⟨.fmul, 0, 22, 450, 2, 0⟩, pairFoot ⟨.nop, 0, 0, 0, 0, 0⟩ ⟨.rcp, 0, 22, 450, 0, 0⟩], Calm s1 x0 f) ∧
    ∀ fl, Quiet s1 x0 false fl := ⟨calmAll (by decide +kernel), fun fl => quiet1 false fl⟩

/-- The launch with format slot 2 of e4m3 with block scales, 64 accumulator rows and 5 scratchpad pages. -/
def slots (s : State) : State :=
  s.updLaunch 0 fun l => { l with rcd := ((l.rcd.set 5 (5 * 2 ^ 32 + 256 * 2 ^ 16 + 1536)).set 6 (4 * 2 ^ 40 + 64)).set 16 0xFF00900C }

theorem witness_QuantisationAndDraws :
    (∀ f ∈ [cvtmxFoot gT (.v 4) (.s 8) (.v 6), foot (guardIds gT ++ regIds 1 (.v 6)) [], foot (guardIds gT) (regIds 1 (.s 4)), foot (guardIds gT) [],
      foot (guardIds gT) (regIds 1 (.v 4)), foot (guardIds gT) (regIds 4 (.v 4))], Calm (slots s1) x0 f) ∧
    (∀ v fl, Quiet (slots s1) x0 v fl) ∧ (Instr.cvtmx gT (.v 4) (.s 8) (.v 6) .e4m3 2).wf = true ∧
    ((slots s1).slotFor x0 .e4m3 2).isSome = true :=
  ⟨calmIn (by decide +kernel) (by decide +kernel), quiet_of (by decide +kernel), by decide +kernel⟩

/-- The warp in a handler. -/
def inTrap (s : State) : State := s.updWarp 0 fun w => { w with trap := some ⟨2 ^ 32 - 1, none, none⟩ }

theorem witness_WarpReadsAndMarks :
    (∀ f ∈ [foot (guardIds gT) [], (aluOf gT (.v 4) 1 [(.sp .lane, .n32)]).foot, foot (guardIds gT) (regIds 1 (.s 4)),
      foot (guardIds gT ++ regIds 1 (.s 5)) (regIds 1 (.s 4)), foot (guardIds gT ++ regIds 1 (.s 5)) []], Calm s1 x0 f) ∧
    Calm (inTrap s1) x0 { foot (guardIds gT) (regIds 1 (.s 4)) with priv := true } ∧
    s1.acting x0 gT false ≠ 0 ∧ s1.lateStop x0 x0.active = none ∧ Fresh s1 0 ∧ (s1.warp 0).older = none :=
  ⟨calmAll (by decide +kernel), calm_of (by decide +kernel) (by decide +kernel), by decide +kernel, by decide +kernel, fresh_of fresh1, by decide +kernel⟩

/-- Branches that lanes take, and that none takes. -/
theorem witness_ControlFlow :
    (∀ f ∈ [foot (guardIds gT) [], foot (guardIds gT ++ regIds 2 (.s 2)) [], foot (guardIds gT) (regIds 2 (.s 30))], Calm s1 x0 f) ∧
    (∀ l, l < 32 → bit (s1.passing x0 gT) l = true → bit x0.mask l = true →
      s1.src x0 ⟨.s 2, .n64, 0⟩ l % 8 = 0 ∧ canonical (s1.src x0 ⟨.s 2, .n64, 0⟩ l) = true) ∧
    ¬ Alone s1 x0 (foot (guardIds gT) (regIds 2 (.s 30))) ∧ s1.passing x0 gF = 0 :=
  ⟨calmAll (by decide +kernel), by decide +kernel, fun h => absurd h.2 (by decide +kernel), by decide +kernel⟩

/-- A counter at 1, asked to be at most 1 and at most 0. -/
def busy : State := s1.updWarp 0 fun w => { w with opsL := [⟨7, 0, false⟩] }

theorem witness_WaitsWithinAWarp :
    Calm busy x0 (foot (guardIds gT) []) ∧ busy.acting x0 gT false ≠ 0 ∧ (busy.warp 0).atMost .l 1 = true ∧ (busy.warp 0).atMost .l 0 = false ∧
    (busy.warp 0).atMost .s 0 = true ∧ (busy.warp 0).atMost .c 0 = true ∧ (busy.warp 0).atMost .t 0 = true ∧
    Calm s1 x0 (foot (guardIds gT ++ regIds 1 (.imm 127)) []) ∧ (7 : Fin 8).val < (s1.warp 0).rcv.length :=
  ⟨calm_of (by decide +kernel) (by decide +kernel), by decide +kernel, by decide +kernel, by decide +kernel, by decide +kernel, by decide +kernel, by decide +kernel, calm1 (by decide +kernel), by decide +kernel⟩

/-- A range within the quota of the interface, one past it, and one out of order. -/
theorem witness_CountersHandlesAndPaths :
    (∀ f ∈ [foot (guardIds gT) (regIds 2 (.s 10)), foot (guardIds gT ++ (regIds 2 (.s 2) ++ regIds 2 (.s 4))) (regIds 1 (.s 8)),
      foot (guardIds gT) (regIds 1 (.s 8)), foot (guardIds gT) []], Calm s1 x0 f) ∧ Live s1 0 ∧ (s1.warp 0).vi < s1.vis.length ∧
    s1.acting x0 gT false ≠ 0 ∧ s1.acting x0 gF false = 0 ∧ bindOk 0x1_8000 64 = true ∧ bindOk 0x1_8001 64 = false :=
  ⟨calmAll (by decide +kernel), live1, by decide +kernel⟩

theorem witness_Prefetches :
    let f := foot (guardIds gT ++ baseIds (.v 1)) []
    Calm s1 x0 f ∧ s1.portShort 0 = false ∧
    (let found := (s1.begin_ 0).prefLines x0 (.v 1) 0 (s1.memLanes x0 gT true)
     found.1.length = 1 ∧ found.2.afterEvict 0 (found.1.map Prod.snd) = none) ∧
    Roomy s1 (s1.blockOf 0).core 1 ∧ s1.l2.length + 1 ≤ Config.sliceLines ∧
    ((s1.begin_ 0).prefLines x0 (.v 1) 0 (s1.memLanes x0 gF true)).1 = [] :=
  ⟨calm1 (by decide +kernel), by decide +kernel, by decide +kernel, roomy_of (by decide +kernel) (by decide), by decide +kernel⟩

/-! ### Witnesses: loads, stores and synchronisation -/

/-- A page of the block's scratchpad present in its frame. -/
def withPage (s : State) (p : Nat) : State := match s.service 0 p with | .ok s => s | .error _ => s

/-- Pages 0 and the trap area present. -/
def s2 : State := goes 0 (withPage (withPage s1 0) 4096)

theorem witness_GlobalLoads :
    let k : LoadW := ⟨gT, .v 8, .v 1, 8, .i16, false, false⟩
    let look (s : State) (y : Nat × Bool) : Look × State := s.lookGlobal 0 y (s1.ea x0 (.v 2) 8 64 y.1) 2 .read false
    let own := (s1.begin_ 0).lookAll ((s1.memLanes x0 gT true).filter fun y => !y.2) look
    let u := own.2
    let mem := (own.1.filterMap Look.lane?).filter fun a => !u.onCounters 0 a.va
    Calm s1 x0 k.foot ∧ (s1.warp 0).roomIn .l = true ∧ mem.length = 4 ∧ (∀ y ∈ own.1, y.lane?.isSome = true) ∧
    (let asked := u.askedLines 0 (mem.flatMap fun a => a.bytes 2) (mem.flatMap fun a => u.loadMarks 0 false 2 mem a)
     asked.length = 1 ∧ u.homesWait 0 (asked.map fun l => 64 * l) = false ∧ u.afterEvict 0 (mem.map fun a => a.pa / 64) = none) ∧
    u.globalConflicts 0 (u.access 0 .data false) none (mem.map fun a => (a, u.loadMarks 0 false 2 mem a)) = [] ∧
    (∀ a ∈ mem, u.poisonedLoad 0 false 2 a = false) ∧ s1.portShort 0 = false ∧ s1.memLanes x0 gF true = [] ∧
    Roomy s1 (s1.blockOf 0).core 1 := by
  refine ⟨calm1 (by decide +kernel), by decide +kernel, by decide +kernel, by decide +kernel, by decide +kernel, by decide +kernel,
    by decide +kernel, by decide +kernel, by decide +kernel, roomy_of (by decide +kernel) (by decide)⟩

theorem witness_ScratchpadLoads :
    let b := s2.begin_ 0
    let looks := b.spLooks x0 gT true (.v 5) 4 4 false true false
    let live := ((looks.1.filterMap Look.lane?).filter fun a => !a.inTrap).map fun a => (a, 4)
    Calm s2 x0 (SpLoadW.mk gT (.v 8) (.v 5) 4 false .b32 false).foot ∧ (s2.warp 0).roomIn .l = true ∧ live.length = 4 ∧
    (∀ y ∈ looks.1, y.lane?.isSome = true) ∧ b.spHeld live = false ∧ b.spConflicts 0 (spClass false) false live = [] ∧
    (∀ y ∈ live, b.spPoison 4 y.1 = false) ∧ s2.memLanes x0 gF true = [] :=
  ⟨calm_of (by decide +kernel) (by decide +kernel), by decide +kernel⟩

/-- What the lanes of a store reach. -/
def reach (s : State) (x : Issue) (base : MemBase) (off : BitVec 24) (n : Nat) : List Lane :=
  ((s.begin_ 0).lookAll ((s.memLanes x gT (baseReg base).isVector).filter fun y => !y.2) fun s y =>
    s.lookGlobal 0 y (s.ea x (baseReg base) off 64 y.1) n .write false).1.filterMap Look.lane?

theorem witness_GlobalStores :
    let as := reach s1 x0 (.v 1) 0 4
    let P := (s1.begin_ 0).lookAll ((s1.memLanes x0 gT true).filter fun y => !y.2) fun s y =>
      s.lookGlobal 0 y (s.ea x0 (.v 2) 0 64 y.1) 4 .write false
    let mem := as.filter fun a => !s1.onCounters 0 a.va
    let new := s1.newLines 0 (dedup (mem.map fun a => a.pa / 64))
    Calm s1 x0 (foot (guardIds gT ++ baseIds (.v 1) ++ regIds 1 (.v 6)) []) ∧ Live s1 0 ∧ (s1.warp 0).roomIn .s = true ∧
    as.length = 4 ∧ P.1 = as.map .fine ∧ s1.noWay 0 new = [] ∧ (s1.warp 0).region.issued = 0 ∧
    (∀ a ∈ mem, (s1.warp 0).committingAt (a.pa / 64) = false ∧ a.pa % 4 = 0) ∧ (s1.warp 0).dirty = [] ∧ (s1.warp 0).firstIssue = none ∧
    P.2.afterEvict 0 (dedup (mem.map fun a => a.pa / 64)) = none ∧ Roomy s1 (s1.blockOf 0).core new.length := by
  refine ⟨calm1 (by decide +kernel), live1, by decide +kernel, by decide +kernel, by decide +kernel, by decide +kernel, by decide +kernel,
    by decide +kernel, by decide +kernel, by decide +kernel, by decide +kernel, roomy_of (by decide +kernel) (by decide +kernel)⟩

/-- What the lanes of a scratchpad store reach. -/
def spReach (s : State) (base : Reg) (n : Nat) : List Lane := ((s.begin_ 0).spLooks x0 gT base.isVector base 0 n false true true).1.filterMap Look.lane?

theorem witness_ScratchpadStores :
    let b := s2.begin_ 0
    let as := spReach s2 (.v 5) 4
    let live := as.filter fun a => !a.inTrap
    (s2.warp 0).older = none ∧ Calm s2 x0 (foot (guardIds gT ++ regIds 1 (.v 5) ++ regIds 1 (.v 6)) []) ∧ (s2.warp 0).roomIn .s = true ∧
    as.length = 4 ∧ (b.spLooks x0 gT true (.v 5) 0 4 false true true).1 = as.map .fine ∧ b.spHeld (live.map fun a => (a, 4)) = false ∧
    b.spConflicts 0 (spClass false) true (live.map fun a => (a, 4)) = [] ∧ (∀ a ∈ live, b.spPoison 4 a = false) ∧
    (∀ a ∈ as, a.inTrap = true ∨ a.blk = (s2.warp 0).block) ∧ (s2.warp 0).region.issued = 0 :=
  ⟨by decide +kernel, calm_of (by decide +kernel) (by decide +kernel), by decide +kernel⟩

/-- `mstat.cont` at offset 0, one lane. -/
theorem witness_ScratchpadStores_cont :
    let b := s2.begin_ 0
    let a := (b.lookSp 0 (0, false) 0 64 false true true).lane?.getD ⟨0, false, 0, 0, 0⟩
    Calm s2 x0 (foot (guardIds gT ++ regIds 1 (.imm 64)) []) ∧ (s2.memLanes x0 gT false).head? = some (0, false) ∧
    s2.src x0 ⟨.imm 64, .n32, 0⟩ 0 = 0 ∧ b.lookSp 0 (0, false) 0 64 false true true = .fine a ∧ a.inTrap = false ∧ b.spHeld [(a, 64)] = false ∧
    b.spConflicts 0 .data true [(a, 64)] = [] ∧ b.spPoison 64 a = false :=
  ⟨calm_of (by decide +kernel) (by decide +kernel), by decide +kernel⟩

/-- Eight cycles pass, after which the port is free. -/
def rest (s : State) : State := { s with clock := s.clock + 8 }

/-- Requests sent and accepted at their homes. -/
def sendAll (s : State) : Nat → State
  | 0 => s
  | n + 1 => sendAll (rest (run (.homeAccess 0) (run (.portSend 0) s))) n

/-- A scalar store stands in the region; its region ends; its write intent is at its home; it has committed. -/
def s3 : State := goes 1 (run (.st gT (.s 6) (.s 1) 0 .b32 false) s2)
def s4 : State := rest (goes 2 (run (.regionBegin gT) s3))
def s5 : State := run (.portSend 0) s4
def s6 : State := goes 2 (run (.regionCommitComplete 0) (sendAll s4 1))

/-- Calm with an interval record open and a committed copy. -/
theorem calm6 {f : Foot} (h : calmOk s6 (at_ 2) f = true) : Calm s6 (at_ 2) f := calm_of h (by decide +kernel)

/-- A closing word whose region has committed. -/
def closing (s : State) (k : Nat) : State := goes k (s.updWarp 0 fun w => { w with hold := .commit (at_ k) })
def s7 : State := closing s6 2

theorem perform7 : Performing s7 (at_ 2) := perform_of (by decide +kernel)
theorem live7 : Live s7 0 := live_of (by decide +kernel)

/-- The committed copy is there to go home. -/
theorem witness_copy : (s7.warp 0).dirty.map (fun d => (d.line, d.state)) = [(0x1_8000 / 64, .committed)] := by decide +kernel

def syncReach (s : State) (x : Issue) (base : MemBase) (n : Nat) (u : Use) : List Look × State :=
  let P := (s.updWarp 0 fun y => { y with hold := .none }).syncLooks x gT (baseReg base).isVector base 0 n u
  (P.1, P.2.2)

theorem witness_AcquireAndRelease :
    Performing s7 (at_ 2) ∧ Live s7 0 ∧ ∀ u ∈ [(Use.read, AccClass.acquire, false), (.write, .release, true)],
      let P := syncReach s7 (at_ 2) (.v 1) 8 u.1
      let as := P.1.filterMap Look.lane?
      let v := P.2.writeBackAll 0
      as.length = 4 ∧ P.1 = as.map .fine ∧ s7.portShort 0 = false ∧ P.2.homesWait 0 (Lane.words 8 as) = false ∧ s7.flushPending 0 = false ∧
      v.globalConflicts 0 (v.access 0 u.2.1 u.2.2) none (as.map fun a => (a, wordsOf a.pa 8)) = [] ∧
      ∀ a ∈ as, v.poisonedFor (v.blockOf 0).core a.pa = false ∧ s7.onCounters 0 a.va = false :=
  ⟨perform7, live7, by decide +kernel⟩

theorem witness_ScratchpadAcquireAndRelease :
    Performing s7 (at_ 2) ∧ Live s7 0 ∧ ∀ u ∈ [(false, AccClass.acquire), (true, .release)],
      let P := s7.spLooks (at_ 2) gT true (.v 5) 0 4 false false u.1
      let as := P.1.filterMap Look.lane?
      let xs := as.map fun a => (a, 4)
      as.length = 4 ∧ P.1 = as.map .fine ∧ s7.spHeld xs = false ∧ (∀ a ∈ as, s7.spPoison 4 a = false) ∧ s7.spConflicts 0 u.2 u.1 xs = [] :=
  ⟨perform7, live7, by decide +kernel⟩

theorem witness_RelaxedAtomics :
    let k : AtomW := ⟨gT, .sp .zero, .v 1, .v 6, .v 0, .add, .i32, .dev⟩
    let y : AtomSp := ⟨gT, .sp .zero, .v 5, .v 6, .v 0, .add, .i32, false⟩
    let P := ((s2.begin_ 0).atomLooks x0 k).1
    let Q := (s2.begin_ 0).atomSpLooks x0 y
    (s2.warp 0).roomIn .s = true ∧ (s2.warp 0).region.issued = 0 ∧ k.cls ≠ .exchange ∧ Calm s2 x0 k.foot ∧
    P = (P.filterMap Look.lane?).map .fine ∧ (P.filterMap Look.lane?).length = 4 ∧
    ((s2.begin_ 0).atomLooks x0 k).2.afterEvict 0 ((P.filterMap Look.lane?).map fun a => a.pa / 64) = none ∧ y.cls ≠ .exchange ∧ Calm s2 x0 y.foot ∧
    Q = (Q.filterMap Look.lane?).map .fine ∧ (Q.filterMap Look.lane?).length = 4 :=
  ⟨by decide +kernel, by decide +kernel, by decide +kernel, calm_of (by decide +kernel) (by decide +kernel), by decide +kernel,
    by decide +kernel, by decide +kernel, by decide +kernel, calm_of (by decide +kernel) (by decide +kernel), by decide +kernel, by decide +kernel⟩

theorem witness_ExchangeAtomics :
    let k : AtomW := ⟨gT, .v 8, .v 1, .v 6, .v 0, .add, .i32, .dev⟩
    let y : AtomSp := ⟨gT, .v 8, .v 5, .v 6, .v 0, .add, .i32, false⟩
    let P := (s7.updWarp 0 fun y => { y with hold := .none }).atomLooks (at_ 2) k
    let as := P.1.filterMap Look.lane?
    let v := P.2.writeBackAll 0
    let Q := s7.atomSpLooks (at_ 2) y
    let xs := (Q.filterMap Look.lane?).map fun a => (a, 4)
    Performing s7 (at_ 2) ∧ Live s7 0 ∧ k.cls = .exchange ∧ P.1 = as.map .fine ∧ as.length = 4 ∧ s7.portShort 0 = false ∧
    P.2.homesWait 0 (Lane.words 4 as) = false ∧ s7.flushPending 0 = false ∧
    v.globalConflicts 0 (v.access 0 .exchange true) (some .i32) (as.map fun a => (a, wordsOf a.pa 4)) = [] ∧
    (∀ a ∈ as, v.poisonedFor (v.blockOf 0).core a.pa = false ∧ s7.onCounters 0 a.va = false) ∧ y.cls = .exchange ∧
    Q = xs.map (fun a => .fine a.1) ∧ xs.length = 4 ∧ s7.spHeld xs = false ∧ s7.spConflicts 0 .exchange true xs = [] ∧
    (∀ a ∈ xs, s7.spPoison 4 a.1 = false) :=
  ⟨perform7, live7, by decide +kernel⟩


/-- A fence, `sys.wr` and a clock word performed, by lanes and by none; TREG in a handler and outside one. -/
theorem witness_FencesRegistersAndClocks :
    Performing s7 (at_ 2) ∧ Live s7 0 ∧ s7.acting (at_ 2) gT false ≠ 0 ∧ s7.acting (at_ 2) gF false = 0 ∧
    ((2 : BitVec 12) = 2 → ((inTrap s7).warp 0).trap.isSome = true) ∧ Performing (inTrap s7) (at_ 2) :=
  ⟨perform7, live7, by decide +kernel, by decide +kernel, fun _ => by decide +kernel, perform_of (by decide +kernel)⟩

/-- A second warp of the block, which has not arrived. -/
def two (s : State) : State :=
  ({ s with warps := s.warps ++ [{ Warp.blank with party := ⟨0, 1, 0, 1⟩, windex := 1, present := 2 ^ 32 - 1, ended := false,
                                                   pct := [⟨0x1_0000, 2 ^ 32 - 1, .ready, .none, 0⟩] }] } : State).updLaunch 0 fun l =>
    { l with rcd := l.rcd.set 4 (2 ^ 32 + 2 ^ 16 + 64) }

/-- Barriers that lack the second warp; a `wsync` that lacks lanes 4 to 31, and one of lanes 0 to 3 that is whole. -/
theorem witness_BarrierArrivals :
    let s := two s7
    let m := mAnd (s.passing (at_ 2) gT) (at_ 2).mask
    Performing s (at_ 2) ∧ (s.warp 0).stop = none ∧ m ≠ 0 ∧ (s.warp 0).block < s.blocks.length ∧
    (let y := (s.block 0).bar 15
     let z : NBar := { y with exp := if y.arr = 0 then 0 else y.exp, arr := y.arr + popc m, mask := mOr y.mask m }
     15 < (s.block 0).bars.length ∧ 0 ≤ (s.launchOf 0).threads ∧ y.arr = 0 ∧ mAnd m (s.lanesIn 0 y.mask) = 0 ∧
       z.done (s.liveThreads 0) = false ∧ ({ z with join := m } : NBar).done (s.liveThreads 0) = false) ∧
    (∃ c ∈ s.gangOf 0, mDiff (s.liveThreads c) (if c = 0 then mOr (s.block 0).gbar.mask m else (s.block c).gbar.mask) ≠ 0) ∧
    mDiff m (s.warp 0).live = 0 ∧ (s.warp 0).wsyncArr = 0 ∧ mDiff (mDiff (s.warp 0).live m) (s.warp 0).exited ≠ 0 ∧
    mDiff m (mAnd 15 (s.warp 0).live) = 0 ∧ mDiff (mDiff (mAnd 15 (s.warp 0).live) m) (s.warp 0).exited = 0 :=
  ⟨perform_of (by decide +kernel), by decide +kernel, by decide +kernel, by decide +kernel, by decide +kernel, ⟨0, by decide +kernel⟩,
    by decide +kernel⟩

/-- s2:s3 at a word that nothing wrote. -/
def elsewhere (s : State) : State := s.updWarp 0 fun w => { w with sregs := sset w.sregs 2 0x1_7F00 0 }

/-- The word that the warp stored holds 32: `eq 0` waits and `ne 0` goes on; as a completion word its COUNT is 32, and that of a word
nothing wrote is 0. -/
theorem witness_WaitingWords :
    let w (cond : Cond) (scope : Scope) : WaitW := ⟨gT, .s 8, .s 1, .imm 64, cond, false, false, scope⟩
    let c (reset wait : Bool) : CbwW := ⟨gT, .s 8, .s 2, reset, wait⟩
    Performing s7 (at_ 2) ∧ Live s7 0 ∧ s7.memLanes (at_ 2) gT false = [(0, false)] ∧ s7.flushPending 0 = false ∧
    (∀ k ∈ [w .eq .dev, w .ne .sys],
      let P := (s7.updWarp 0 fun y => { y with hold := .none }).waitwLook (at_ 2) k (0, false)
      let v := P.2.writeBackAll 0
      let y := P.1.lane?.getD ⟨0, false, 0, 0, 0⟩
      P.1 = .fine y ∧ s7.onCounters 0 y.va = false ∧ y.helper = false ∧ s7.portShort 0 = false ∧ P.2.homesWait 0 (wordsOf y.pa 4) = false ∧
      v.globalConflicts 0 (v.access 0 k.cls (k.cls == .exchange)) none [(y, wordsOf y.pa 4)] = [] ∧
      v.poisonedFor (v.blockOf 0).core y.pa = false ∧ condHolds k.cond (leNat (v.mem.readBytes y.pa 4)) 0 = (k.cond == .ne)) ∧
    ∀ s ∈ [s7, elsewhere s7], Performing s (at_ 2) ∧ Live s 0 ∧ s.memLanes (at_ 2) gT false = [(0, false)] ∧ s.flushPending 0 = false ∧
    ∀ k ∈ [c false false, c true false, c false true],
      let P := (s.updWarp 0 fun y => { y with hold := .none }).cbwLook (at_ 2) (.s 2) k.use (0, false)
      let v := P.2.writeBackAll 0
      let y := P.1.lane?.getD ⟨0, false, 0, 0, 0⟩
      P.1 = .fine y ∧ s.onCounters 0 y.va = false ∧ y.helper = false ∧ s.portShort 0 = false ∧ P.2.homesWait 0 (wordsOf y.pa 8) = false ∧
      v.globalConflicts 0 (v.access 0 k.cls k.reset) none [(y, wordsOf y.pa 8)] = [] ∧ v.poisonedFor (v.blockOf 0).core y.pa = false ∧
      cbwCount (v.dword y.pa) = if s = s7 then 32 else 0 := by
  refine ⟨perform7, live7, by decide +kernel, by decide +kernel, by decide +kernel, fun s h => ?_⟩
  simp only [List.mem_cons, List.not_mem_nil, or_false] at h
  rcases h with rfl | rfl
  · exact ⟨perform7, live7, by decide +kernel⟩
  · exact ⟨perform_of (by decide +kernel), live_of (by decide +kernel), by decide +kernel⟩

/-- A launch record of 256 bytes at 0x1_8400, which s10:s11 names. -/
def lrec : List Nat := [2 ^ 43 + 256 * 65536 + 1, 0x1_0000, 2 ^ 64 - 1, 2 ^ 48 + 2 ^ 32 + 1, 2 ^ 32 + 2 ^ 16 + 32, 16 * 2 ^ 16 + 64] ++
  [0, 0, 0, 0x1_7F00] ++ List.replicate 22 0
def s9 : State :=
  closing (({ s0 with mem := s0.mem.writeBytes 0x1_8400 (lrec.flatMap (leBytes 8)), recs := [⟨⟨0, 1, 0, 0⟩, .resident, 0, 0, [], []⟩] } : State).updWarp 0
    fun w => { w with sregs := sset w.sregs 10 0x1_8400 0 }) 2

theorem witness_LaunchWord :
    let P := (s9.updWarp 0 fun y => { y with hold := .none }).lnchLook (at_ 2) (.s 10)
    let v := P.2.writeBackAll 0
    let ls := P.1.filterMap Look.lane?
    let rcd := ls.flatMap fun y => (List.range 8).map fun k => v.dword (y.pa + 8 * k)
    let helped := s9.updWarp 0 fun w => { w with helpers := 15 }
    (Performing s9 (at_ 2) ∧ s9.acting (at_ 2) gF false = 0) ∧
    (Performing helped (at_ 2) ∧ helped.acting (at_ 2) gT false ≠ 0 ∧ helped.someThread (at_ 2) = false) ∧
    Live s9 0 ∧ s9.acting (at_ 2) gT false ≠ 0 ∧ s9.someThread (at_ 2) = true ∧ (s9.warp 0).launch < s9.launches.length ∧ P.1 = ls.map .fine ∧ ls.length = 4 ∧
    s9.moduleFailed = false ∧ s9.waitingLaunches 0 < 1024 ∧ s9.flushPending 0 = false ∧ (∀ y ∈ ls, v.poisonedFor (v.blockOf 0).core y.pa = false) ∧
    v.cbwUnusable 0 (rcd.getD 9 0) = none ∧ (v.accept 0 3 rcd).1 = 2 :=
  ⟨⟨perform_of (by decide +kernel), by decide +kernel⟩, ⟨perform_of (by decide +kernel), by decide +kernel, by decide +kernel⟩,
    live_of (by decide +kernel), by decide +kernel⟩

theorem witness_LaneExit :
    let s := two s7
    let m := mAnd (s.passing (at_ 2) gT) (at_ 2).mask
    Performing s (at_ 2) ∧ mAnd (s.passing (at_ 2) gF) (at_ 2).mask = 0 ∧ m ≠ 0 ∧ (s.warp 0).trap = none ∧ (s.warp 0).stop = none ∧
    (s.warp 0).rcv.length = 8 ∧ (∀ r ∈ (s.warp 0).rcv, r.arr = 0) ∧ (s.warp 0).wsyncArr = 0 ∧ (∀ y ∈ (s.block 0).bars, y.arr = 0) ∧
    ∀ c ∈ s.gangOf 0, (s.block c).gbar.arr = 0 := ⟨perform_of (by decide +kernel), by decide +kernel⟩

/-- The launch with a handler, and with none. -/
def handler (h : Nat) (s : State) : State := s.updLaunch 0 fun l => { l with rcd := l.rcd.set 2 h }

def able (s : State) (x : Issue) : Bool :=
  let w := s.warp x.w
  let m := s.passing x gT
  decide (m ≠ 0 ∧ w.region.issued = 0 ∧ w.live ≠ 0 ∧ w.trap = none ∧ s.inPlace x.w = true ∧ m < 2 ^ 32 ∧ x.mask < 2 ^ 32 ∧
    (s.blockOf x.w).core < s.cores.length ∧ (s.spEntry w.block (trapPage w.windex)).p = true ∧ w.older = none ∧
    ∃ f ∈ (s.coreOf x.w).frames, f.2.blk = w.block ∧ f.2.pg = trapPage w.windex)

theorem witness_StopWords :
    (Calm (handler 0x1_0800 s2) x0 (foot (guardIds gT) []) ∧ s2.passing x0 gF = 0 ∧ able (handler 0x1_0800 s2) x0 = true ∧
      ((handler 0x1_0800 s2).launchOf 0).trap = some 0x1_0800) ∧
    (Calm (handler (2 ^ 64 - 1) s2) x0 (foot (guardIds gT) []) ∧ able (handler (2 ^ 64 - 1) s2) x0 = true ∧
      ((handler (2 ^ 64 - 1) s2).launchOf 0).trap = none) ∧
    Performing (handler 0x1_0800 s7) (at_ 2) ∧ s7.passing (at_ 2) gF = 0 ∧ able (handler 0x1_0800 s7) (at_ 2) = true ∧
      ((handler 0x1_0800 s7).launchOf 0).trap = some 0x1_0800 :=
  ⟨⟨calm_of (by decide +kernel) (by decide +kernel), by decide +kernel⟩, ⟨calm_of (by decide +kernel) (by decide +kernel), by decide +kernel⟩,
    perform_of (by decide +kernel), by decide +kernel⟩

/-- In the handler that `trap` entered, at its `trapret` or `rinj`. -/
def sTrap : State := run (.trap gT 77) (handler 0x1_0800 s7)
def xTrap : Issue := { x0 with pc := 0x1_0800 }
def trapret : State := { sTrap.updWarp 0 fun w => { w with hold := .commit xTrap } with cur := some xTrap }

theorem witness_TrapReturn :
    let c : TrapCtx := ⟨15, none, none⟩
    Performing trapret xTrap ∧ (trapret.warp 0).stop = none ∧ (trapret.warp 0).trap = some c ∧ (trapret.warp 0).later = [] ∧ trapret.acting xTrap gF false = 0 ∧
    trapret.acting xTrap gT false ≠ 0 ∧ trapret.replayValid 0 = 0 ∧ trapret.trapDword 0 2 % 2 ^ 57 = 0x1_0018 ∧ c.counts = none :=
  ⟨perform_of (by decide +kernel), by decide +kernel⟩

/-- A handler with a word in entry 0 of its replay queue: `rcp v1, v6`, or one that is no instruction. -/
def inject (w : Nat) : State :=
  goes 0 (((inTrap s2).trapStore 0 0 (leBytes 8 (2 ^ 40))).trapStore 0 512 (leBytes 8 w ++ leBytes 8 0x1_0000 ++ leBytes 8 15))
def sInj : State := inject 0x42E0_0201_8004_0000
def sAltered : State := inject (2 ^ 64 - 1)

def again (s : State) : Nat := match (s.begin_ 0).reinject 0 0 with | .done _ => 0 | .stop st _ => st.cause | .wait .. => 999

theorem witness_Reinjection :
    let f := { foot (guardIds gT) (regIds 1 (.s 9)) with priv := true }
    (∀ s ∈ [sInj, sAltered], Calm s x0 f ∧ s.acting x0 gF false = 0 ∧ s.acting x0 gT false ≠ 0 ∧
      bit (s.replayValid 0) 7 = false ∧ bit (s.replayValid 0) 0 = true) ∧ again sInj = 0 ∧ again sAltered = 2 := by
  refine ⟨fun s h => ?_, by decide +kernel, by decide +kernel⟩
  simp only [List.mem_cons, List.not_mem_nil, or_false] at h
  rcases h with rfl | rfl
  · exact ⟨calm_of (by decide +kernel) (by decide +kernel), by decide +kernel⟩
  · exact ⟨calm_of (by decide +kernel) (by decide +kernel), by decide +kernel⟩

/-- The block's first 64 scratchpad bytes as a command block: zeros, and with a completion word. -/
def counted (k : Nat) : State := s2.spWriteBytes 0 (8 * k) (leBytes 8 0x1_7F00)

theorem witness_EngineCommandsQueue :
    Fresh s2 0 ∧ s2.secondary 0 = false ∧ (s2.warp 0).older = none ∧ (s2.warp 0).roomIn .c = true ∧ (s2.warp 0).roomIn .t = true ∧
    (s2.blockOf 0).core < s2.cores.length ∧ s2.memLanes x0 gF false = [] ∧ s2.memLanes x0 gT false = [(0, false)] ∧
    s2.copyRoom 0 = true ∧ s2.matRoom 0 = true ∧ (s2.core 0).copyq = [] ∧ (s2.core 0).matq = [] ∧
    (∀ va ∈ [0, 0x1_7F00], s2.paOf 0 va .write = none → (s2.writeBackAll 0).paOf 0 va .write = none) :=
  ⟨fresh_of (by decide +kernel), by decide +kernel⟩

theorem witness_EngineCommandsQueue_blocks :
    ∀ s ∈ [s2, counted 7, counted 4], Calm s x0 (foot (guardIds gT ++ regIds 1 (.sp .zero)) []) ∧
      let b := s.begin_ 0
      let y := (b.lookSp 0 (0, false) (s.src x0 ⟨.sp .zero, .n32, 0⟩ 0) 64 false false false).lane?.getD ⟨0, false, 0, 0, 0⟩
      b.lookSp 0 (0, false) (s.src x0 ⟨.sp .zero, .n32, 0⟩ 0) 64 false false false = .fine y ∧ b.spHeld [(y, 64)] = false ∧
      b.spConflicts 0 .data false [(y, 64)] = [] ∧ b.spPoison 64 y = false ∧
      ((b.lookGlobal 0 (0, false) 0x1_7F00 8 .write false).1.lane?).isSome = true := by
  intro s h
  simp only [List.mem_cons, List.not_mem_nil, or_false] at h
  rcases h with rfl | rfl | rfl <;> exact ⟨calm_of (by decide +kernel) (by decide +kernel), by decide +kernel⟩

theorem witness_MatrixCommandsQueue :
    let pends (f : Foot) : Foot := { f with pend := true }
    let c2 : List Foot := [foot (guardIds gT ++ regIds 2 (.s 2) ++ regIds 1 (.imm 64)) [], foot (guardIds gT ++ regIds 1 (.imm 64)) [],
      pends (foot (guardIds gT) (regIds 1 (.s 8))), pends (foot (guardIds gT) (regIds 1 (.sp .zero))),
      pends (foot (guardIds gT ++ regIds 1 (.s 6) ++ regIds 1 (.imm 64)) (regIds 4 (.v 8)))]
    (∀ f ∈ c2, Calm s2 x0 f) ∧ mDiff (s2.passing x0 gT) (s2.warp 0).allHelpers ≠ 0 :=
  ⟨calmIn (by decide +kernel) (by decide +kernel), by decide +kernel⟩

/-! ### Witnesses: events of warps, homes and the memory system -/

theorem witness_FetchesResultsAndSleep :
    let pc := 0x1_0000
    let e : PctEntry := ⟨pc, 15, .ready, .none, 0⟩
    let t := s0.translate (s0.blockOf 0).core (s0.warp 0).vi pc .exec false
    let p := run (.rcp gT (.v 1) (.v 6) .f32 .rn) s1
    let z := s1.updWarp 0 fun w => { w with hold := .sleep 7 x0 }
    (s0.canIssue 0 = true ∧ (s0.warp 0).hold = .none ∧ (s0.warp 0).choose = some e ∧ canonical e.pc = true ∧ t.1 = .ok pc ∧
      t.2.poisonedFor (s0.blockOf 0).core pc = false ∧ s0.fetchWaits 0 pc = none) ∧
    ((p.warp 0).pend[0]?.map Pend.ready) = some true ∧ (z.warp 0).hold = .sleep 7 x0 ∧ (z.warp 0).stepping = false ∧ z.clock < 7 ∧
    7 ≤ ({ z with clock := 7 } : State).clock := by decide +kernel

/-- Another warp's mark in the way of the store's write intent. -/
def sClash : State :=
  let s : State := { s5 with recs := s5.recs ++ [⟨⟨0, 1, 0, 1⟩, .resident, 0, s5.clock, [], []⟩] }
  s.recordWords 0 ⟨⟨0, 1, 0, 1⟩, 0, 0, .data, true⟩ [0x1_8000]

/-- A request that its home handles now, and whether it meets a conflict. -/
def homeOk (s : State) (conflict : Bool) : Bool := match s.net with
  | [q] => s.reqGate q == .go && !s.reqWaits q && (match q.kind with | .atomic r => r.rmt == none | _ => true) && s.marks.all (fun m => m.words.length == 16) &&
    (s.homeConflict q.vi (s.access q.warp q.kind.cls true) q.kind.ty q.kind.words).isSome == conflict && (s.warp q.warp).older.any (fun r => r.failed == none)
  | _ => false

theorem witness_PortAndHomes :
    ((s4.core 0).port.map Req.vi) = [0] ∧ 64 ≤ s4.tokens 0 0 ∧ (s4.core 0).portAt ≤ s4.clock ∧ homeOk s5 false = true ∧ homeOk sClash true = true ∧ 255 < Config.slices ∧
    ({ s5 with recs := s5.recs.map fun r => { r with cur := 2, past := [⟨10, 20, []⟩] } } : State).intervalEnd ⟨0, 1, 0, 0⟩ 1 = .at_ 20 := by
  decide +kernel

/-- The alias table of a word's slice full of another party. -/
def fullOf (a : Nat) (p : Party) (s : State) : State := { s with aliases := List.replicate aliasRoom ⟨sliceOf a, 0, p, 0⟩ }

def meetsFull (a : Nat) (p : Party) (s : State) (q : Req) : Bool :=
  q.kind.words.contains a && (s.warp q.warp).party != p && !(match q.kind with | .atomic a => a.rmt.isSome | _ => false)

theorem full_waits {a : Nat} {p : Party} {s : State} {q : Req} (h : meetsFull a p s q = true) : (fullOf a p s).reqWaits q = true := by
  simp only [meetsFull, Bool.and_eq_true, bne_iff_ne, ne_eq, List.contains_iff_mem] at h
  have f : (fullOf a p s).aliasFull a ((fullOf a p s).warp q.warp).party = true := by
    rw [show (fullOf a p s).warp q.warp = s.warp q.warp from rfl]
    simp [State.aliasFull, State.aliasOf, fullOf, Ne.symm h.1.2]
  rw [State.reqWaits, Bool.and_eq_true]
  refine ⟨h.2, ?_⟩
  simp only [State.homeWaits, List.any_eq_true]
  exact ⟨_, h.1.1, by rw [f, Bool.true_or, Bool.true_or]⟩

theorem witness_PortAndHomes_waits : ∃ q, (fullOf 0x1_8000 ⟨0, 1, 9, 0⟩ s5).net[0]? = some q ∧
    (fullOf 0x1_8000 ⟨0, 1, 9, 0⟩ s5).reqWaits q = true := by
  obtain ⟨q, hq, h⟩ := (Option.any_eq_true (meetsFull 0x1_8000 ⟨0, 1, 9, 0⟩ s5) s5.net[0]?).1 (by decide +kernel)
  exact ⟨q, hq, full_waits h⟩

/-- A region that is ready to commit, without atomics and with one on memory and one on the scratchpad, and one that a home rejected. -/
def sReady : State := sendAll s4 1
def sAtoms : State :=
  let s := s2.updWarp 0 fun w => { w with preds := sset w.preds 0 1 0 }
  let s := run (.atom ⟨0, false⟩ (.sp .zero) (.s 1) (.v 6) (.v 0) .add .i32 .dev) s
  let s := run (.atomsp ⟨0, false⟩ (.sp .zero) (.v 5) (.v 6) (.v 0) .add .i32 false) (goes 1 s)
  sendAll (rest (run (.regionBegin gT) (goes 2 s))) 1
def sFail : State := run (.homeAccess 0) sClash
/-- The failed one with a result of a committed matrix command to come; and the ready one twice, in a redundant launch. -/
def sAwaits : State := sFail.updWarp 0 fun w => { w with pend := [⟨7, [8], Writes.none, false, none⟩] }
def sPair : State :=
  let s := (sReady.updLaunch 0 fun l => { l with rcd := l.rcd.set 0 (l.rcd.getD 0 0 + 2 ^ 36) }).updBlock 0 fun b => { b with twin := some 1 }
  { s with blocks := s.blocks ++ [{ s.block 0 with copy := 1, twin := some 0 }], warps := s.warps ++ [{ s.warp 0 with block := 1 }] }

theorem witness_RegionCommits :
    (sReady.warp 0).older.isSome = true ∧ sReady.commitReady 0 = true ∧ s4.commitReady 0 = false ∧ (s4.warp 0).older.isSome = true ∧
    (∀ s ∈ [sReady, sAtoms], (s.launchOf 0).rdnt = false ∧ s.commitReady 0 = true ∧ s.secondary 0 = false ∧ (s.launchOf 0).det = false ∧
      (s.launchOf 0).mode = 0 ∧ (∀ d ∈ (s.warp 0).dirty, d.nt = false ∧ d.ovf = false) ∧
      ((s.warp 0).older.any fun r => r.flush == none && r.cmds == [] && r.evicts == [] && r.failed == none &&
        r.atoms.all fun q => q.rmt == none && (s.ctrOffset 0 q.va).isNone) = true) ∧
    ((sAtoms.warp 0).older.map fun r => (r.atoms.length, r.spAtoms.length)) = some (1, 1) ∧
    (∀ s ∈ [sReady, sAtoms], (s.warp 0).older.any (fun r => r.compared && r.failed == none && r.cmds == [] && !s.reqsLeft 0 r.seq &&
      r.spAtoms.all fun a => a.blk == (s.warp 0).block) = true ∧ s.commitFailed 0 = none) ∧
    (sFail.warp 0).older.any (fun r => r.failed.isSome) = true ∧ (sFail.commitFailed 0).isSome = true ∧ (sFail.launchOf 0).rdnt = false ∧
    (sFail.warp 0).awaits = false ∧ (sAwaits.commitFailed 0).isSome = true ∧ (sAwaits.launchOf 0).rdnt = false ∧ (sAwaits.warp 0).awaits = true ∧
    (sPair.launchOf 0).rdnt = true ∧ sPair.secondary 0 = false ∧ sPair.twinOf 0 = some 1 ∧ sPair.commitReady 0 = true ∧ sPair.commitReady 1 = true ∧
    (∀ v ∈ [0, 1], (sPair.warp v).older.any (fun o => o.flush == none) = true) := by decide +kernel

theorem witness_RegionCommits_unwaited : Unwaited sReady 0 ∧ Unwaited sAtoms 0 ∧ Unwaited sPair 0 ∧ Unwaited sPair 1 :=
  ⟨unwaited_of (by decide +kernel), unwaited_of (by decide +kernel), unwaited_of (by decide +kernel), unwaited_of (by decide +kernel)⟩

/-- Full sets and empty ones; a bank at its threshold and one that waits for the driver; a cluster idle, suspect and under test. -/
theorem witness_Reliability :
    let s : State := { s0 with l2 := [⟨1536, none⟩, ⟨6, some (0, 3)⟩], cfg := (flashReset.headD ⟨[], false⟩).words
                               banks := sset (sset s0.banks 0 ⟨1023, .normal⟩ ⟨0, .normal⟩) 3 ⟨20, .vacating 5⟩ ⟨0, .normal⟩ }
    let stuck : State := { sClash with ovfRoom := 0, banks := sset [] 0 ⟨0, .strong⟩ ⟨0, .normal⟩, l2 := [⟨1536, none⟩] }
    let spilled : State := { s9 with sides := sset [] 2012 (sideWord 3 5 .data) 0, aliases := [⟨6, 3, ⟨0, 1, 0, 0⟩, 0⟩] }
    (64 * 2012 < Config.memBytes ∧ s.present 2012 = false ∧ (s.victimsOf ([1536, 6].filter fun l => lineSlice l == lineSlice 2012)).length = 2 ∧
      ((s.victimsOf ([1536, 6].filter fun l => lineSlice l == lineSlice 2012)).head?.map L2Line.handle) = some none ∧ (s.dropLine 1536).isSome = true ∧
      s.victimsOf ([].filter fun l => lineSlice l == lineSlice 2012) = [] ∧
      (s.l2.filter fun y => lineSlice y.line == lineSlice 2012).length < Config.sliceLines ∧
      stuck.present 2012 = false ∧ (stuck.roomAmong 2012 [1536]).isNone = true ∧ spilled.side 2012 = sideWord 3 5 .data ∧
      spilled.aliasParty (lineSlice 2012) 3 = some ⟨0, 1, 0, 0⟩ ∧ (spilled.rec? ⟨0, 1, 0, 0⟩).isSome = true) ∧
    s.scrubThresh = 1024 ∧ (s.bank 0).errors = 1023 ∧ (s.bank 0).code = .normal ∧ (s.bank 3).code = .vacating 5 ∧ s.devTime < 5 + 10 ^ 9 ∧
    5 + 10 ^ 9 ≤ ({ s with devTime := 2 * 10 ^ 9 } : State).devTime ∧
    (19 < Config.cores / 8 ∧ (s.cluster 19).removed = false ∧ (∀ c ∈ s.clusters, c.2.testing = false) ∧
      (∀ j, j < Config.cores / 8 → (s.cluster j).suspect = true → (s.cluster j).removed = true) ∧ (s.cluster 19).testing = false) ∧
    ((run (.fieldTestStart 19) s).cluster 19).testing = true ∧ (run (.fieldTestStart 19) s).onCluster 19 = [] := by decide +kernel

/-- A warp with a dirty copy of line 2012, its page 0 present, and 64 accumulator rows. -/
def sHit (d : DirtyState) : State :=
  { (slots s2).updWarp 0 fun w => { w with dirty := [⟨2012, 64 * 2012, [], [], d, false, false⟩] } with
    l2 := [⟨2012, none⟩], agenda := [.error (.word 0 12)] }

theorem witness_Reliability_errors :
    (∀ d ∈ [DirtyState.region, .committing, .committed], let s := sHit d
      let x := s.warp 0
      s.clockDue = none ∧ s.present 2012 = true ∧ (s.spEntry 0 0).p = true ∧ (s.block 0).core < s.cores.length ∧
      ((s.core (s.block 0).core).frames.any fun f => f.2.blk == 0 && f.2.pg == 0) = true ∧ (s.block 0).state = .resident ∧
      0 < s.blocks.length ∧ 63 < (s.launch (s.block 0).launch).accrows ∧ (x.dirty.map fun e => (e.line, e.state)) = [(2012, d)] ∧
      s.secondary 0 = false ∧ x.awaits = false ∧ x.reentry + 1 ≤ (s.launchOf 0).reentry ∧ x.live ≠ 0 ∧ (s.blockOf 0).state = .resident ∧
      0 < s.warps.length ∧ x.launch < s.launches.length) := by decide +kernel

/-- An error of a scratchpad word poisons it alone (R451). -/
theorem test_upset_word : ([8, 11, 12, 15, 16].map fun o => ((sHit .region).upset (.word 0 12)).spPoisoned 0 o) = [false, false, true, true, false] := by
  decide +kernel

/-- Lanes that wait for a scratchpad page, and one that waits for a translation, which its tables do and do not hold. -/
def sPage : State := run (.ldsp gT (.v 8) (.v 5) 4 false .b32) s1
def sXlat : State :=
  run (.ld gT (.s 8) (.s 1) 0 .b32 false) (goes 3 (s4.updWarp 0 fun w => { w with sregs := sset w.sregs 2 0x2_0000 0 }))
def sMapped : State := { sXlat with mem := sXlat.mem.writeBytes 0x60_2010 (leBytes 8 0x2_001F) }

def mapped (s : State) : Bool := match s.walkTree 0 0x2_0000 with
  | .leaf pte base size => s.useEntry 0 0 0x2_0000 ⟨0, base, size, pte, s.pageBase pte 0⟩ .read true != .service
  | _ => false

theorem witness_Services :
    (sPage.warp 0).needs.length = 4 ∧ (∀ n ∈ (sPage.warp 0).needs, n.what = .page 0 0 ∧ n.failed = none) ∧ 0 < sPage.blocks.length ∧
    (sPage.block 0).state = .resident ∧ (sPage.block 0).core < sPage.cores.length ∧ (sPage.spEntry 0 0).p = false ∧
    (sPage.spEntry 0 0).b = false ∧ (sPage.spEntry 0 0).win = false ∧ (sPage.core 0).frames.length < 384 ∧
    (∀ f ∈ (sPage.core 0).frames, ¬ (f.2.blk = 0 ∧ f.2.pg = 0)) ∧ sPage.framesOf 0 + 1 ≤ sPage.freeSlots 0 := by decide +kernel

theorem witness_Services_xlat :
    (∀ s ∈ [sXlat, sMapped], ((s.warp 0).needs.map fun n => (n.what, n.lanes)) = [(.xlat 0x2_0000 0, 15)] ∧ ∀ n ∈ (s.warp 0).needs, n.failed = none) ∧
    mapped sMapped = true ∧ sXlat.walkTree 0 0x2_0000 = .invalid ∧ (sXlat.warp 0).stop = none ∧ (sXlat.warp 0).older.isSome = true := by
  decide +kernel

/-- The leaf entry of the data page marked for duplication; the page duplicated; a shootdown under way. -/
def sDup : State := { s1 with mem := s1.mem.writeBytes 0x60_2008 (leBytes 8 (0x1_001F + 2 ^ 48)) }
def sTwin : State := { s1 with mem := s1.mem.writeBytes 0x60_2008 (leBytes 8 (0x80_001F + 2 ^ 48 + 2 ^ 51)) }

/-- A replica on die 1 of the page that the entry maps. -/
def replicable (s : State) (pa rec_ : Nat) : Bool := match s.leafAt 0 0x1_8000 with
  | some (at_, pte, base, size) => s.mem.wf && bit pte 48 && !bit pte 51 && decide (1 < Config.dies ∧ 1 ≠ bits pte 50 49 ∧
      pa % size = 0 ∧ dieOf pa = 1 ∧ rec_ % 256 = 0 ∧ pa + size ≤ Config.memBytes ∧ rec_ + 64 ≤ Config.memBytes ∧
      s.writesTo 0 base size (s.pageBase pte (bits pte 50 49)) = false ∧ rec_ + 64 ≤ pa ∧ at_ + 8 ≤ pa ∧ at_ + 8 ≤ rec_)
  | none => false

theorem witness_ReplicasAndShootdowns :
    replicable sDup (96 * 2 ^ 30 * 4) 0x80_0000 = true ∧ ((sTwin.leafAt 0 0x1_8000).any fun y => bit y.2.1 51) = true ∧
    ((run (.shootdown 0 0x1_8000 64 true) s1).shoot.map fun h => (h.left.contains 0, h.left.contains 163, h.wb)) = [(true, true, true)] := by
  decide +kernel

/-! ### Witnesses: the host and the interfaces -/

def b8 : List Byte := List.replicate 8 7
def fifo (bs : List Byte) (s : State) : State := s.updVi 0 fun v => { v with fifo := bs }

theorem witness_MailboxAndFreeze :
    s0.viUp 0 = true ∧ (s0.vi 0).frozen = false ∧ (s0.vi 0).resetting = false ∧ 0x7FF8 + max 1 b8.length ≤ 0x8000 ∧ b8.length % 8 = 0 ∧
    (s0.vi 0).fifo.length + b8.length ≤ fifoBytes ∧ 0x8000 < 0x7FFC + max 1 b8.length ∧ (b8.drop 1).length % 8 ≠ 0 ∧
    (let s := fifo (List.replicate 16384 0) s0
     s.viUp 0 = true ∧ (s.vi 0).frozen = false ∧ (s.vi 0).resetting = false ∧ fifoBytes < (s.vi 0).fifo.length + b8.length) ∧
    (let s := run (.freezeRequest 0) s0
     s.viUp 0 = true ∧ (s.vi 0).frozen = true) := by decide +kernel

/-- A FIFO whose head is the command. -/
def cmd (op q : Nat) (p : List Byte) : List Byte := leBytes 8 (op + 256 * q + 65536 * p.length) ++ p
def headIs (s : State) (op q : Nat) (p : List Byte) : Bool :=
  s.viUp 0 && (s.vi 0).configured && !(s.vi 0).frozen && !(s.vi 0).resetting && decide ((s.vi 0).head = .command op q p)

theorem witness_MailboxCommands :
    (let p := lrec.flatMap (leBytes 8)
     let s := fifo (cmd 1 3 p) s0
     headIs s 1 3 p = true ∧ s.waitingLaunches 0 < 1024 ∧ s.moduleFailed = false ∧ s.cbwUnusable 0 (payloadDw p 9) = none ∧
       (s.accept 0 3 ((List.range 32).map fun k => payloadDw p k)).1 = 2) ∧
    (let p := leBytes 8 0x1_8000 ++ b8
     let s := fifo (cmd 2 0 p) s0
     let y := s.writeAt 0 0x1_8000
     let u := y.2.openHost 0
     headIs s 2 0 p = true ∧ payloadDw p 0 = 0x1_8000 ∧ hostSpan 0x1_8000 8 = true ∧ s.ctrOffset 0 0x1_8000 = none ∧ canonical 0x1_8000 = true ∧
       (∀ l ∈ s.launches, l.vi = 0 → l.replaying = false) ∧ y.1 = some 0x1_8000 ∧
       y.2.homeWaits 0 (hostParty 0) (wordsOf 0x1_8000 8) = false ∧
       u.homeConflict 0 (u.hostAccess 0 .release true) none (wordsOf 0x1_8000 8) = none) ∧
    (let p := leBytes 8 0x1_8000 ++ leBytes 8 4096
     let s := fifo (cmd 3 0 p) s0
     headIs s 3 0 p = true ∧ hostSpan 0x1_8000 (payloadDw p 1) = true ∧ s.paOf 0 0x1_8000 .read = some 0x1_8000) ∧
    (let s := fifo (cmd 4 3 []) (s0.updVi 0 fun v => { v with queues := [[], [], [], [0]] })
     headIs s 4 3 [] = true ∧ (s.vi 0).queues.getD 3 [] = [0]) ∧
    ((fifo (leBytes 8 5) s0).vi 0).head = .bad 1 ∧ (s0.vi 0).head = .none ∧
    headIs (fifo (cmd 2 0 (leBytes 8 0x1_8004 ++ b8)) s0) 2 0 (leBytes 8 0x1_8004 ++ b8) = true ∧ hostSpan 0x1_8004 8 = false ∧
    headIs (fifo (cmd 3 0 (leBytes 8 0x1_8000 ++ leBytes 8 4104)) s0) 3 0 (leBytes 8 0x1_8000 ++ leBytes 8 4104) = true ∧
    hostSpan 0x1_8000 4104 = false := by decide +kernel

theorem witness_InterfaceResets :
    let good : ViConfig := { (s0.vi 0).cfg with
      partition := [0, 5], share := 256, keyBase := 4095, keyCount := 1, spbkSlots := 768, saveSize := 2 * coreSaveChunks * 4128, trbBase := 0, trbSize := 8192 }
    s0.viUp 0 = true ∧ s0.configOk 0 good = true ∧ s0.configOk 0 { good with share := 257 } = false ∧
    ((run (.viReset 0) s5).vi 0).resetting = true := by decide +kernel

/-! ### Witnesses: dispatch, engines, waits and stops -/

/-- Four blocks more accepted, of which one is dispatched behind the block that is resident. -/
def sHead : State := run (.launch 0) (fifo (cmd 1 3 ((lrec.set 3 (2 ^ 48 + 2 ^ 32 + 4)).flatMap (leBytes 8))) s0)
def sQueued : State := run .headgateDispatch sHead
def sTesting : State := { sQueued with clusters := sset sQueued.clusters 0 { noCluster with testing := true } noCluster }

/-- A second core of the interface, with nothing to do, and no third. -/
def sStolen : State := { sQueued.updVi 0 fun v => { v with cfg := { v.cfg with partition := [0, 1] } } with cores := sQueued.cores.take 2 }

/-- Where only core 0 has a queue no block stands in two. -/
theorem queues_apart {s : State} (h : ((List.range s.cores.length).all fun u => u == 0 || (s.core u).queue.isEmpty) = true) :
    ∀ u v, ∀ b ∈ (s.core u).queue, b ∈ (s.core v).queue → u = v := by
  have k : ∀ u, ∀ b ∈ (s.core u).queue, u = 0 := by
    intro u b m
    rcases Nat.lt_or_ge u s.cores.length with l | l
    · have := List.all_eq_true.1 h u (List.mem_range.2 l)
      simp only [Bool.or_eq_true, beq_iff_eq, List.isEmpty_iff] at this
      rcases this with e | e
      · exact e
      · rw [e] at m; cases m
    · simp only [State.core, List.getD_eq_getElem?_getD, List.getElem?_eq_none l, Option.getD_none] at m
      cases m
  intro u v b m n
  rw [k u b m, k v b n]

def dispatchable (s : State) : Bool :=
  let u := s.refresh
  match u.chooseLaunch u.cands with
  | none => false
  | some c => u.weirRoom c.li && (match u.nextBlock c.li, u.queueCore (u.launch c.li) with
    | some lin, some k => lin == 0 && k == 0 && decide (k < u.cores.length)
    | _, _ => false) && decide ((u.launch c.li).gang ≤ 1) && !(u.launch c.li).rdnt && (u.launch c.li).vi == c.vi

theorem witness_BlocksAreDispatched :
    dispatchable sHead = true ∧ (s0.refresh.chooseLaunch s0.refresh.cands).isNone = true ∧
    (0 < sQueued.cores.length ∧ 1 < sQueued.blocks.length ∧ (sQueued.core 0).queue = [1] ∧ sQueued.mayStart 1 0 = true) ∧
    ((sTesting.core 0).queue = [1] ∧ sTesting.mayStart 1 0 = false) ∧ (sQueued.core 159).queue = [] ∧
    (1 < sStolen.cores.length ∧ (sStolen.core 0).queue = [1] ∧ 1 < sStolen.blocks.length ∧
     (victims 1).find? (sStolen.stealable 1) = some 0 ∧ sStolen.thieves = [1] ∧ sStolen.grants sStolen.thieves = [(1, 0)]) := by
  decide +kernel

theorem witness_BlocksAreDispatched_queues : ∀ u v, ∀ b ∈ (sStolen.core u).queue, b ∈ (sStolen.core v).queue → u = v :=
  queues_apart (by decide +kernel)

theorem witness_LeveeAndPower :
    let s : State := { s0 with clock := 3000, devTime := 4000, hot := [1] }
    s.lastGrantAt < s.devTime / 1000 ∧ s0.devTime / 1000 ≤ s0.lastGrantAt ∧
    s.lastRefill < s.clock / 1024 ∧ s0.clock / 1024 ≤ s0.lastRefill ∧ 0 < s.vis.length ∧ (s.vi 0).configured = true ∧
    0 ∈ (s.vi 0).cfg.partition ∧ 159 < s.cores.length ∧ (s.core 159).lastGrant + 4000 ≤ s.devTime ∧
    s0.devTime < (s0.core 159).lastGrant + 4000 ∧ 159 < Config.cores ∧ 3 < Config.dies := by decide +kernel

def readsOk (s : State) (e : EngOf) (o : Nat) : Bool := decide (s.spWordsHeld e.blk [o / 4 * 4] = false ∧
  (s.spEntry e.blk (o / 4096)).p = true ∧ s.engSpConflict e e.blk o false = none ∧ s.spPoisoned e.blk o = false)

theorem engReads_of {s : State} {e : EngOf} {os : List Nat} (h : os.all (readsOk s e) = true) : ∀ o ∈ os, EngReads s e o :=
  fun o m => by simpa only [EngReads, readsOk, decide_eq_true_eq] using List.all_eq_true.1 h o m

def writesOk (s : State) (e : EngOf) (o : Nat) : Bool := decide (s.spWordsHeld e.blk [o / 4 * 4] = false ∧
  (s.spEntry e.blk (o / 4096)).p = true ∧ ((s.spEntry e.blk (o / 4096)).win = true → (s.spEntry e.blk (o / 4096)).wr = true) ∧
  s.engSpConflict e e.blk o true = none)

theorem engWrites_of {s : State} {e : EngOf} {os : List Nat} (h : os.all (writesOk s e) = true) : ∀ o ∈ os, EngWrites s e o :=
  fun o m => by simpa only [EngWrites, writesOk, decide_eq_true_eq] using List.all_eq_true.1 h o m

/-- A copy of five runs of bytes between the data page and the scratchpad, and a fill of either. -/
def dCopy : List Nat := [0x1_8000, 0, 0x100, 2 ^ 48 + 2 ^ 32 + 3 * 2 ^ 16 + 5, 8, 7 * 2 ^ 32, 0, 0]
def eng : EngOf := ⟨0, 0, 0, []⟩
def copied (k : Nat) (d : List Nat) : Bool := (s2.copyByte eng k d 14).2.isNone
def atHome (s : State) (va : Nat) (u : Use) : Bool := match s.engWhere eng va u with | .ok (.home _) => true | _ => false

theorem witness_CopyEngine_bytes :
    let g := cpdGlobal dCopy (dCopy.getD 0 0) 14
    let d2 := dCopy.set 1 0x1_8200
    s2.secondary 0 = false ∧ (s2.block 0).core < s2.cores.length ∧ (s2.spEntry 0 0).p = true ∧
    (∃ f ∈ (s2.core 0).frames, f.2.blk = 0 ∧ f.2.pg = 0) ∧ (s2.block 0).core = 0 ∧ cpdSecond dCopy (cpdSpa dCopy) 14 / 4096 = 0 ∧
    atHome s2 g .read = true ∧ atHome s2 g .write = true ∧ atHome s2 (cpdSecond d2 (d2.getD 1 0) 14 % 2 ^ 64) .write = true ∧
    atHome s2 (cpdGather (dCopy ++ [1, 0, 2]) 14) .read = true ∧ s2.bcastBlocks 0 (cpdMask (dCopy.set 2 (0x100 + 2 ^ 24))) = [0] ∧
    copied 0 dCopy = true ∧ copied 1 dCopy = true ∧ copied 2 d2 = true ∧ copied 3 (dCopy ++ [1, 0, 2]) = true ∧
    copied 4 (dCopy.set 2 (0x100 + 2 ^ 24)) = true ∧ copied 5 dCopy = true ∧ cpdFdst dCopy = false ∧
    cpdFdst (dCopy.set 2 (0x100 + 2 ^ 42)) = true ∧ copied 5 (dCopy.set 2 (0x100 + 2 ^ 42)) = true ∧
    (∀ pa ∈ [0x1_8200, 0x1_8000], s2.vacated pa = false) := by decide +kernel

/-- A copy command at the engine: waiting to start, within its chunks, done, and failed with a completion word. -/
def copying (d : List Nat) (cbw : Option Nat) (next : Nat) (running : Bool) (err : Option Nat) : CopyCmd :=
  ⟨77, 0, 0, 0, d, 0, 0, true, cbw, 0, next, running, err⟩
def withCopy (c : CopyCmd) : State := s2.updCore 0 fun k => { k with copyq := [c] }

theorem witness_CopyEngine_commands :
    (∀ c ∈ [copying dCopy none 0 false none, copying (dCopy.set 3 0) none 0 false none, copying dCopy none 0 true none,
        copying dCopy none 1 true none, copying dCopy (some 0x1_7F00) 0 true (some 2)],
      (withCopy c).copyAt 0 77 = some c ∧ ((withCopy c).launchOf 0).rdnt = false ∧ (withCopy c).engineRuns 0 0 true = true ∧
      (((withCopy c).core 0).firstCopy 0).map CopyCmd.id = some 77 ∧ ((withCopy c).warp 0).older = none ∧
      (∀ d ∈ ((withCopy c).warp 0).dirty, d.state ≠ .committed) ∧ (withCopy c).portBusy 0 0 = false ∧ (withCopy c).secondary 0 = false ∧
      (withCopy c).homeWaits 0 ((withCopy c).warp 0).party [0x1_7F00, 0x1_7F04] = false ∧ ((withCopy c).warp 0).region.issued = 0) ∧
    (let s := withCopy (copying dCopy none 0 true none)
     s.chunkDue 0 (copying dCopy none 0 true none) = true ∧ (s.chunk eng 0 dCopy 0).2 = none ∧
       (((s.chunk eng 0 dCopy 0).1.core 0).copyq.any fun q => q.id == 77) = true) ∧
    (let c := copying dCopy none 0 false none
     (withCopy c).chunkDue 0 c = true ∧ ((withCopy c).launchOf 0).cpdInvalid 0 dCopy = false) ∧
    (let c := copying (dCopy.set 3 0) none 0 false none
     (withCopy c).chunkDue 0 c = true ∧ ((withCopy c).launchOf 0).cpdInvalid 0 (dCopy.set 3 0) = true) ∧
    (copying dCopy none 1 true none).over_ = true ∧ (copying dCopy (some 0x1_7F00) 0 true (some 2)).over_ = true ∧
    (let c := { copying dCopy none 0 true none with kind := 5 }
     (withCopy c).chunkDue 0 c = true ∧ cpdFdst c.desc = false ∧
       ((chunkOrder c.desc c.next).map fun t => cpdSecond c.desc (cpdSpa c.desc) t).all (writesOk (withCopy c) eng) = true) := by decide +kernel

/-- A completion word at a home that cannot take it now. -/
theorem witness_CopyEngine_waits :
    (let s : State := (withCopy (copying dCopy (some 0x1_7F00) 0 true (some 2))).updCore 0 fun k => { k with portAt := 99 }
     (s.readyToEnd 0 0 0x1_7F00 (some 0x1_7F00)).1 = false) ∧ Unwaited (withCopy (copying dCopy (some 0x1_7F00) 0 true (some 2))) 0 :=
  ⟨by decide +kernel, unwaited_of (by decide +kernel)⟩

/-- The command block of the worked example of spec/18: three k-blocks of a tile, in e4m3 with block scales. -/
def mBlk : List Nat := [0x0010000000600003, 0x0028000000600000, 0x000000004C000003, 0x004CC00060802400, 0x1_7F00, 0, 0, 0]
def matrixOf (k : MatKind) (next : Nat) (cbw stalled err : Option Nat) : MatCmd := 
  ⟨77, 0, 0, k, 0, 0, true, cbw, 0, next, true, [], stalled, err, [], 0⟩
def withMat (c : MatCmd) : State := ((slots s1).updWarp 0 fun w => { w with opsT := [⟨77, 0, false⟩] }).updCore 0 fun k => { k with matq := [c] }

def paged (c : MatCmd) : State := (List.range 5).foldl withPage (withMat c)

/-- A k-block of a tile of one cell, with credit and without. -/
def mOne : List Nat := mBlk.set 3 0x004CC000_0102_2400
def kblock (paid : Bool) : Bool :=
  let c := matrixOf (.mmac mOne) 1 (some 0x1_7F00) none none
  let s := paged c
  let s := s.updCore 0 fun k => { k with credit := if paid then 1200 else 1 }
  match s.currentMat 0, (s.launchOf 0).geometry mOne with
  | some d, some g => d == c && decide (c.next < mpbKb mOne) && !s.starved c && !(s.launchOf 0).rdnt && !s.pieceShort 0 0 && decide (g.clocks ≤ (s.core 0).credit) == paid &&
    !mpbSparse mOne && decide (mpbN mOne ≤ 96) && decide ((s.block 0).poisoned = []) && decide (0 < s.blocks.length) &&
    ((s.payCredit 0 g.clocks).operands eng mOne g c.idx [] c.next).2.2.isNone && (blockReads mOne g c.idx c.next).all (readsOk s eng)
  | _, _ => false

/-- One that starts, with a parameter block that is valid and with one that is not. -/
def starts (m : List Nat) (valid : Bool) : Bool :=
  let c := { matrixOf (.mmac m) 0 none none none with running := false }
  let s := withMat c
  let l := s.launchOf 0
  s.currentMat 0 == some c && !l.rdnt && !s.pieceShort 0 0 && decide (0 < s.blocks.length) && (l.geometry m).isSome == valid &&
    (!valid || (!mpbSparse m && mpbOp m != 2 && (l.geometry m).any fun g => l.operandsFit m g []))

/-- A `macc.st` of one row at offset 0x1000. -/
def storing : Bool :=
  let c := matrixOf (.st 0x1000 0x2000 1 1 2 false) 0 none none none
  let s := paged c
  s.currentMat 0 == some c && !(s.launchOf 0).rdnt && !s.pieceShort 0 0 && !(s.block 0).rowPoisoned 1 && match (s.launchOf 0).maccSlot 2 false with
    | some k =>
      let image := s.stImage 0 1 k
      (imageAt 0x1000 0x2000 k 0 image.1 image.2.1).all fun y => writesOk s eng y.1
    | none => false

theorem witness_MatrixKBlocks :
    kblock true = true ∧ kblock false = true ∧ starts mOne true = true ∧ starts (mOne.set 0 0) false = true ∧ storing = true := by
  decide +kernel

/-- A sparse command that has stalled for the watchdog period. -/
def mSparse : List Nat := mBlk.set 3 (0x004CC00060802400 + 1)
def starving : Bool :=
  let c := matrixOf (.mmac mSparse) 0 none (some 100) none
  let s : State := { withMat c with devTime := 100 + ((withMat c).launchOf 0).wdogNs }
  decide ((s.core 0).matq.find? (fun c => c.handed && s.engineRuns 0 c.blk false && s.starved c &&
    (match c.stalled with | some t => decide (t + (s.launchOf c.warp).wdogNs ≤ s.devTime) | none => false)) = some c)

def ending (c : MatCmd) : Bool :=
  let s := withMat c
  let x := s.warp 0
  decide (s.currentMat 0 = some c ∧ c.ended = true ∧ (s.launchOf 0).rdnt = false ∧ x.older = none ∧ x.ended = false ∧ x.live ≠ 0 ∧
    0 < s.warps.length ∧ 0 < s.blocks.length ∧ (∀ d ∈ x.dirty, d.state ≠ .committed) ∧ (s.readyToEnd 0 0 c.cbwVa c.cbw).1 = true ∧ s.gate x.launch c.cbwVa (s.blockOf 0).lin x.windex = .go ∧ (s.launchOf 0).accrows = 64)

theorem witness_MatrixEngine :
    starving = true ∧
    ∀ c ∈ [matrixOf (.zero 62 2) 0 none none none, matrixOf (.zero 63 2) 0 none none none, matrixOf (.mq 2 1 (some 1544)) 0 none none none,
      matrixOf (.rd 256 63 32 15 .f32 .rn) 0 none none none, matrixOf (.rd 256 64 0 15 .f32 .rn) 0 none none none,
      matrixOf (.mmac mBlk) 3 (some 0x1_7F00) none none, matrixOf (.mmac mBlk) 1 (some 0x1_7F00) none (some 2)],
      ending c = true ∧ ((withMat c).block 0).poisoned = [] ∧
      let s := (withMat c).updWarp 0 fun w => { w with older := some Region.blank }
      s.currentMat 0 = some c ∧ (s.warp 0).stop = none := by
  decide +kernel

theorem witness_MatrixEngine_unwaited : Unwaited (withMat (matrixOf (.zero 62 2) 0 none none none)) 0 := unwaited_of (by decide +kernel)

/-- A warp that waits in `cbw.wait` or `waitw` at the word of s2:s3, which holds [v]. -/
def waiting (i : Instr) (v : Nat) : State :=
  { elsewhere s0 with mem := (elsewhere s0).mem.writeBytes 0x1_7F00 (leBytes 8 v), warps := (elsewhere s0).warps.map fun w => { w with hold := .word i x0 }
                      recs := [⟨⟨0, 1, 0, 0⟩, .resident, 0, 0, [], []⟩] }
def iCbw : Instr := .cbwWait gT (.s 8) (.s 2)
def iWaitw : Instr := .waitw gT (.s 8) (.s 1) (.imm 64) .eq false false .dev

theorem witness_WordsReadAgain :
    ∀ v ∈ [0, 5], (∀ i ∈ [iCbw, iWaitw], let s := waiting i v
      s.canIssue 0 = true ∧ liveOk s 0 = true ∧ s.memLanes x0 gT false = [(0, false)] ∧ (s.rec? (s.warp 0).party).isSome = true ∧
      (s.warp 0).stepping = false ∧ (s.warp 0).hold = .word i x0 ∧ ({ s with cur := some x0 } : State).portShort 0 = false) ∧
    (let s := waiting iCbw v
     let P := ({ s with cur := some x0 } : State).cbwLook x0 (.s 2) .read (0, false)
     let y := P.1.lane?.getD ⟨0, false, 0, 0, 0⟩
     let u := P.2.writeBackAll 0
     P.1 = .fine y ∧ P.2.homesWait 0 (wordsOf y.pa 8) = false ∧ y.helper = false ∧ s.onCounters 0 y.va = false ∧
       u.poisonedFor (u.blockOf 0).core y.pa = false ∧ u.globalConflicts 0 (u.access 0 .acquire false) none [(y, wordsOf y.pa 8)] = [] ∧ cbwCount (u.dword y.pa) = v) ∧
    (let s := waiting iWaitw v
     let k : WaitW := ⟨gT, .s 8, .s 1, .imm 64, .eq, false, false, .dev⟩
     let P := ({ s with cur := some x0 } : State).waitwLook x0 k (0, false)
     let y := P.1.lane?.getD ⟨0, false, 0, 0, 0⟩
     let u := P.2.writeBackAll 0
     P.1 = .fine y ∧ P.2.homesWait 0 (wordsOf y.pa 4) = false ∧ y.helper = false ∧ s.onCounters 0 y.va = false ∧
       u.poisonedFor (u.blockOf 0).core y.pa = false ∧ u.globalConflicts 0 (u.access 0 k.cls (k.cls == .exchange)) none [(y, wordsOf y.pa 4)] = [] ∧
       condHolds .eq (leNat (u.mem.readBytes y.pa 4)) (s0.src x0 ⟨.imm 64, .n32, 0⟩ 0) = (v == 0)) := by decide +kernel

/-! ### Witnesses: order, stops, links, saves, records and the end -/

/-- An ordered update on its way to its home; a staged write-back, a staged access, and one that the log holds. -/
def upd : AccUpd := ⟨⟨none, 0x1_8000, 0x1_8000, 0, .add, .i32, 1, 0, .count, 0, 0, 0, 0⟩, 0, false⟩
def logged (b : Nat) : LogOp := ⟨0, some 0x1_8000, b, 0, 0, 0, 0, none⟩
def replay (b : Nat) (s : State) : State :=
  s.updLaunch 0 fun l => { l with rcd := l.rcd.set 0 (l.rcd.getD 0 0 + 2 ^ 40), log := { l.log with expect := [logged b], since := [(0x1_8000, 0)] } }
def stage (bytes : List (Nat × Byte × Bool)) (s : State) : State :=
  { s with staged := [⟨9, 0, 0, 0, .nop gT, x0, [0x1_8000], [0x1_8000], .acquire, bytes, false⟩] }

theorem witness_FloorsAndOrderedRequests :
    let t (k : Nat) : State := { s5 with devTime := k }
    (t 1999).lastFloor < (t 1999).devTime / 1000 ∧ (t 999).devTime / 1000 ≤ (t 999).lastFloor ∧ s5.recs ≠ [] ∧
    (let s : State := { s0 with waiting := [upd] }
     s.updDue upd = true ∧ 0x1_8000 ∉ (s.launch 0).defAddrs ∧ s.slotsHeld (sliceOf 0x1_8000) < 16 ∧ s.waiting[0]? = some upd ∧
       (s.waiting.filter fun v => v.launch == upd.launch) = [upd]) ∧
    (let s := stage [] s0
     (s.staged.find? fun x => x.id == 9).isSome = true ∧ (s.launch 0).det = false ∧ s.replayGate x0 [0x1_8000] ≠ .hold) ∧
    (let s := (stage [] (replay 0 s0)).updLaunch 0 fun l => { l with log := { l.log with expect := [logged 7, logged 0] } }
     (s.launch 0).replaying = true ∧ (s.launch 0).det = false ∧ s.replayGate x0 [0x1_8000] = .hold) ∧
    (let s := stage [(0x1_8000, 3, false)] s0
     (s.launch 0).det = false ∧ s.flushHeld 0 [0x1_8000] = false) ∧
    (let s : State := { replay 7 s0 with devTime := 10 ^ 9 }
     let g := (s.launch 0).log
     (g.since.find? fun x => x.1 == 0x1_8000) = some (0x1_8000, 0) ∧ (g.seqOf 0x1_8000)[sget g.done 0x1_8000 0]? = some (logged 7) ∧
       (s.launch 0).replaying = true ∧ 0 + (s.launch 0).rpwin ≤ s.devTime ∧ s.staged = []) := by decide +kernel

/-- A warp with a stop of cause [c], region or instruction, where its launch has a handler or none. -/
def stopOf (c : Nat) (rgn : Bool) : Stop :=
  { Stop.blank with cause := c, rgn := rgn, pc := 0x1_0010, rpc := 0x1_0008, fpc := 0x1_0010, lanes := 7, sub := 15, addr := 77 }
def stopped (h c : Nat) (rgn : Bool) : State := (handler h s2).updWarp 0 fun w => { w with stop := some (stopOf c rgn) }

def deliverable (s : State) : Bool :=
  let x := s.warp 0
  match x.stop with
  | some st => decide (0 < s.warps.length ∧ x.older = none ∧ x.live ≠ 0 ∧ x.hold ≠ .goisto ∧ s.inPlace 0 = true ∧ st.discard = false ∧
      x.region.issued = 0 ∧ x.trap = none ∧ (s.blockOf 0).core < s.cores.length ∧ (s.spEntry x.block (trapPage x.windex)).p = true ∧
      x.launch < s.launches.length ∧ ∃ f ∈ (s.coreOf 0).frames, f.2.blk = x.block ∧ f.2.pg = trapPage x.windex)
  | none => false

/-- `waitw` at system scope on a word of module 3, its port in recovery from time 0, or failed. -/
def sFar : State :=
  let s := (waiting (.waitw gT (.s 8) (.s 1) (.imm 64) .eq false false .sys) 5).updWarp 0 fun w =>
    { w with recover := some 0, sregs := sset w.sregs 2 0x1_8000 0 }
  { s with mem := s.mem.writeBytes 0x60_2008 (leBytes 8 (0x1_009F + 3 * 2 ^ 42)) }

theorem witness_StopsAndWaits :
    (∀ s ∈ [stopped 0x1_0800 0x10 true, stopped 0x1_0800 4 false], deliverable s = true ∧ (s.launchOf 0).trap = some 0x1_0800) ∧
    (∀ s ∈ [stopped (2 ^ 64 - 1) 0x10 true, stopped (2 ^ 64 - 1) 4 false], deliverable s = true ∧ (s.launchOf 0).trap = none) ∧
    ((s4.updWarp 0 fun w => { w with stop := some (stopOf 0x10 true) }).warp 0).older.isSome = true ∧
    (let s := s0.updWarp 0 fun w => { w with deferred := some (stopOf 0x18 true) }
     let x := s.warp 0
     x.stop = none ∧ x.live ≠ 0 ∧ x.hold = .none ∧ x.older = none ∧ x.region.issued = 0 ∧ x.choose.isSome = true) ∧ (s0.warp 0).deferred = none ∧
    (∀ k ∈ [0, 10 ^ 13], let s := s0.updWarp 0 fun w => { w with wdog := k }
     let x := s.warp 0
     x.live ≠ 0 ∧ x.hold = .none ∧ x.recover = none ∧ (s.blockOf 0).state = .resident ∧ (s.vi x.vi).frozen = false ∧
       decide ((s.launchOf 0).wdogNs ≤ x.wdog) = (k != 0)) ∧
    (let s := run (.stopDelivery 0) (stopped (2 ^ 64 - 1) 4 true)
     (s.warp 0).hold = .goisto ∧ (s.warp 0).stop.isSome = true ∧ (s.warp 0).later = []) ∧
    (let s := (waiting iCbw 5).updWarp 0 fun w => { w with deferred := some (stopOf 0x18 true) }
     (s.warp 0).deferred.isSome = true ∧ (s.warp 0).stop = none ∧ (s.warp 0).live ≠ 0 ∧ (s.warp 0).hold = .word iCbw x0) ∧
    sFar.waitsOn 0 = some 3 ∧ (sFar.warp 0).recover = some 0 ∧ sFar.portFailed 3 = false ∧ sFar.devTime < 0 + 10 ^ 8 ∧
    (run (.scaleupPortFailure 3) sFar).portFailed 3 = true ∧ (run (.scaleupPortFailure 3) sFar).waitsOn 0 = some 3 := by decide +kernel

theorem witness_LinksAndModule :
    let failed : State := run (.scaleupPortFailure 7) s0
    (sget s0.ports 7 ⟨none, false⟩).failed = false ∧ (sget failed.ports 7 ⟨none, false⟩).failed = true ∧ 1 < Config.dies ∧ 3 < Config.dies ∧
    (Config.memBytes - 8) + (leBytes 8 5).length ≤ Config.memBytes ∧ (Config.memBytes - 8) + AtomTy.i64.bytes ≤ Config.memBytes ∧
    State.reset.boot = .off ∧ State.reset.flash.length = 2 ∧ (chooseRecord State.reset.flash).isSome = true ∧
    chooseRecord [⟨[], false⟩] = none ∧ (run .powerOn State.reset).boot ≠ .off := by decide +kernel

/-- A save of every block of the interface: asked for, with one unit left, and with a warp that commits; and the block saved. -/
def ack (s : State) : State := match s.preempts with | p :: _ => run (.preemptAck 0 (p.left.headD 0)) s | [] => s
def sAsked : State := run (.preemptionRequest 0 .vi) { s0 with cur := none }
def sLast : State := { sAsked with preempts := sAsked.preempts.map fun p => { p with left := [3] } }
def sBusy : State := sAsked.updWarp 0 fun w => { w with older := some Region.blank }
def sSaved : State := ack sLast
def nowhere : State := sSaved.updVi 0 fun v => { v with cfg := { v.cfg with partition := [] } }

def place (s : State) : Option (List Nat × List Nat) :=
  ((s.updLaunch 0 fun y => { y with stopped := false }).placeCopies (s.launch 0) [(s.block 0).mqs.length] [])

theorem witness_SavesAndRestores :
    (∀ s ∈ [s0, sQueued], 0 < s.blocks.length ∧ (s.block 0).state = .resident ∧ (s.block 0).vi = 0 ∧ scopeCovers .vi 0 0 = true ∧
      0 < s.launches.length ∧ (s.launch 0).vi = 0 ∧ (s.launch 0).state ≠ .ended) ∧
    sQueued.scopeBlocks 0 .vi .queued = [1] ∧ 1 ∈ (sQueued.core (sQueued.block 1).core).queue ∧
    (sAsked.preempts.map fun p => (p.blocks, p.left)) = [([0], [4, 0, 1, 2, 3])] ∧
    (sAsked.preempts.all fun p => (sAsked.savePart p 4).isSome && (sBusy.savePart p 0).isNone) = true ∧
    (sLast.preempts.all fun p => p.left == [3] && ((sLast.savePart p 3).map fun u => u.blocks.length) == some sLast.blocks.length) = true ∧
    (∀ s ∈ [sSaved, nowhere], 0 < s.launches.length ∧ (s.launch 0).vi = 0 ∧ (s.vi 0).frozen = false ∧ (s.vi 0).resetting = false ∧
      s.inScope 0 (0 * max 1 (s.launch 0).gang) = false ∧ 0 < s.blocks.length ∧ s.savedGang 0 0 0 = [0] ∧ s.savedGang 0 0 1 = [] ∧ (s.block 0).launch = 0 ∧ (s.block 0).copy = 0) ∧
    sLast.inScope 0 (0 * max 1 (sLast.launch 0).gang) = true ∧ (place sSaved).map Prod.snd = some [] ∧ (place sSaved).map (fun y => y.1.length) = some 1 ∧ place nowhere = none := by decide +kernel

/-- A trace buffer over the code page, its head at [h], and records of one warp and of none. -/
def key : List Nat := [0x10 * 2 ^ 56 + 1, 0, 0] ++ List.replicate 9 1
def trb (h : Nat) (rs : List FlumeRec) : State :=
  { s0.updVi 0 fun v => { v with cfg := { v.cfg with trbBase := 0x1_0000, trbSize := 8192 }, trbHead := h } with flume := rs }

def fits (s : State) (r : FlumeRec) : Bool :=
  let v := s.vi r.vi
  let len := (8 * r.words.length + 31) / 32 * 32
  let pad := if v.trbArea < v.trbHead % v.trbArea + len then v.trbArea - v.trbHead % v.trbArea else 0
  decide (v.trbHead - s.loadDw r.vi (v.cfg.trbBase + 8) + pad + len ≤ v.trbArea) &&
  (List.range r.words.length).all (fun n => (s.paOf r.vi (v.cfg.trbBase + 4096 + (v.trbHead + pad + 8 * n) % v.trbArea) .write).isSome) &&
  (pad == 0 || (s.paOf r.vi (v.cfg.trbBase + 4096 + v.trbHead % v.trbArea) .write).isSome)

theorem witness_RecordsAndCounters :
    let s : State := { s0 with devTime := 5000000, clock := 999, cfg := (flashReset.headD ⟨[], false⟩).words }
    let k := run (.cctlWrite 0 (BitVec.ofNat 64 (10 * 256 + 0x1A))) s
    (∀ y ∈ [(0, true), (4096, false)], let s := trb y.1 [⟨0, key⟩, ⟨0, key⟩, ⟨0, List.replicate 5 9⟩]
      0 < s.vis.length ∧ s.headerOk 0 = true ∧ (⟨0, key⟩ : FlumeRec).warpKey ≠ none ∧ (⟨0, List.replicate 5 9⟩ : FlumeRec).warpKey = none ∧
        fits s ⟨0, key⟩ = y.2 ∧ fits s ⟨0, List.replicate 5 9⟩ = y.2) ∧
    (let s := trb (4096 - 32) [⟨0, key⟩]
     fits { s with mem := s.mem.writeBytes 0x1_0008 (leBytes 8 4000) } ⟨0, key⟩ = true) ∧
    (∀ y ∈ [(40960 - 32, false), (40960 - 31, true)],
      let s : State := { trb 0 [⟨0, [0x20 * 2 ^ 56, 0, 0, 0]⟩, ⟨0, [0x22 * 2 ^ 56, 0, 0, 0]⟩] with devTime := 5000, rateAt := 5, rateUsed := y.1 }
      s.headerOk 0 = true ∧ s.flume.length = 2 ∧ (s.flume.all fun r => fits s r && r.profiling) = true ∧
        decide (s.rateLeft < 32) = y.2) ∧
    listedEvent 9 0 = false ∧ listedEvent 1 16 = true ∧ 10 ≤ k.tickExp ∧ k.lastTick < k.devTime / 2 ^ k.tickExp ∧ (k.vi 0).ctr.group = 1 ∧
    k.sampleExp = some 10 ∧ 159 < k.cores.length ∧ (k.core 159).lfsr.length = 4 ∧ (k.core 159).nextSample.length = 4 ∧
    (k.core 159).nextSample.getD 3 0 ≤ k.clock ∧
    (∀ n ∈ [none, some 0], let s := s0.updWarp 0 fun w => { w with firstIssue := n }
      s.inSection 0 0 0 = true ∧ s.warps.length = 1 ∧ (s.warp 0).issuedIn ((s.core 0).cycles.getD 0 0) = n.isSome) := by decide +kernel

/-- A warp whose lanes have exited, one that waits for a command, and its block and launch after it. -/
def sExit : State := s0.updWarp 0 fun w => { w with exited := w.present, pct := [] }
def sWaits : State := sExit.updWarp 0 fun w => { w with opsC := [⟨1, 1, false⟩] }
def sEnded : State := sExit.updWarp 0 fun w => { w with ended := true }
def sOver : State := (sEnded.updBlock 0 fun b => { b with state := .retired }).updLaunch 0 fun l => { l with rcd := l.rcd.set 9 0x1_8000, retired := [0], failed := 0x10 }

theorem witness_EndsOfWork :
    (∀ s ∈ [sExit, sWaits], 0 < s.warps.length ∧ (s.warp 0).ended = false ∧ (s.warp 0).live = 0 ∧ (s.warp 0).older = none ∧
      (s.blockOf 0).state = .resident ∧ s.secondary 0 = false ∧ (s.warp 0).opsT = []) ∧ (sExit.warp 0).opsC = [] ∧ (sWaits.warp 0).opsC ≠ [] ∧
    (∀ s ∈ [sEnded, sExit], let x := s.block 0
      0 < s.blocks.length ∧ x.state = .resident ∧ x.copy = 0 ∧ x.twin = none ∧ x.launch < s.launches.length ∧ x.heldAcc = [] ∧
        s.dirtyWindows 0 = [] ∧ (s.launch x.launch).det = false) ∧ (∀ w ∈ sEnded.warps, w.block = 0 → w.ended = true) ∧
    (∀ s ∈ [sOver, sExit], let l := s.launch 0
      0 < s.launches.length ∧ l.vi < s.vis.length ∧ l.defersAcc = false ∧ l.recording = false) ∧ sExit.launchDone 0 = false ∧
    sOver.launchDone 0 = true ∧ sOver.ctrOffset 0 0x1_8000 = none ∧ (sOver.writeAt 0 (sOver.launch 0).cbw).1 = some 0x1_8000 := by decide +kernel

/-! ### Witnesses: decoding and steps -/

theorem witness_DecodeAndEncodeAgree :
    let i : Instr := .ffma ⟨3, true⟩ (.v 10) (.v 2) (.s 5) (.v 7) .f32 .rz false
    i.wf = true ∧ encode i = some 0x3B70_1400_B02C_1007 ∧ (match decode 0x3B70_1400_B02C_1007 with | .ok j => i == j | _ => false) = true := by
  decide +kernel

/-- A warp at its first word: `nop`, and a word that is none; with a breakpoint there; a closing word that waits; an event's turn. -/
def sStep (w : Nat) : State := State.reset.withFetchWord 64 w
def settled0 (p : State) : State := if p.inPlace 0 then p.settle 0 else p
def fetches (p : State) (poisoned : Bool) : Bool :=
  let q := settled0 p
  let x := q.warp 0
  match x.choose with
  | none => false
  | some e =>
    let tr := q.translate 0 x.vi e.pc .exec false
    match tr.1 with
    | .ok pa => decide (q.canIssue 0 = true ∧ x.hold = .none ∧ canonical e.pc = true ∧ pa % 8 = 0 ∧ (q.blockOf 0).core = 0 ∧
        tr.2.heldLines 0 0 (pa / 64) = [] ∧ tr.2.poisonedFor 0 pa = poisoned ∧ q.fetchWaits 0 pa = none)
    | _ => false

theorem witness_StepRunsDecoded :
    let bp := (sStep 0).updVi 0 fun v => { v with bpc := sset v.bpc 3 (2 ^ 63 + 0x1_0000) 0 }
    let bad : State := { sStep 0 with poison := [0x1_0000 / 64] }
    let due : State := { sStep 0 with devTime := 1000 }
    let held : State := (stage [] s7).updWarp 0 fun w => { w with hold := .staged 9 }
    (sStep 0).clockDue = none ∧ due.clockDue.isSome = true ∧ (sStep 0).agenda = [.issue 0 []] ∧
    (∀ s ∈ [sStep 0xE0_0000_0000_0000, sStep (2 ^ 64 - 1), bp], fetches s false = true) ∧ fetches bad true = true ∧
    (match decode 0xE0_0000_0000_0000 with | .ok _ => true | _ => false) = true ∧ (match decode (2 ^ 64 - 1) with | .ok _ => false | _ => true) = true ∧
    (settled0 bp).breakpoint 0 (2 ^ 32 - 1) 0x1_0000 = some 3 ∧ (settled0 (sStep 0)).breakpoint 0 (2 ^ 32 - 1) 0x1_0000 = none ∧
    (settled0 s7).canIssue 0 = true ∧ ((settled0 s7).warp 0).hold = .commit (at_ 2) ∧ (Instr.homeAccess 0).isWord = false ∧
    ((settled0 held).warp 0).hold = .staged 9 ∧ ((settled0 held).staged.find? fun z => z.id == 9).isSome = true ∧ (settled0 held).inPlace 0 = true ∧
    ([(0, 6)].find? fun z => z.1 == 0 && (z.2 == 6 || z.2 == 12)) = some (0, 6) := by decide +kernel

theorem witness_ClosingWordsEndTheirRegion :
    (∀ f ∈ [foot (guardIds gT) [], foot (guardIds gT ++ regIds 1 (.s 6)) [], foot (guardIds gT) (regIds 2 (.s 30))], Calm s1 x0 f) ∧
    Calm (inTrap s1) x0 { foot (guardIds gT) [] with priv := true } ∧
    Calm (inTrap s1) x0 { foot (guardIds gT ++ regIds 1 (.s 6)) [] with priv := true } ∧ Fresh s1 0 ∧ (s1.warp 0).older = none ∧
    s1.handed 0 = [] ∧ (s1.warp 0).deferred = none ∧ (s1.warp 0).firstIssue = none :=
  ⟨calmAll (by decide +kernel), calm_of (by decide +kernel) (by decide +kernel), calm_of (by decide +kernel) (by decide +kernel),
    fresh_of fresh1, by decide +kernel⟩

theorem witness_StepKeepsMemoryCanonical : State.reset.memoryOk ∧ s3.memoryOk ∧ Safe State.reset :=
  ⟨show State.reset.mem.wf = true by decide +kernel, show s3.mem.wf = true by decide +kernel, ⟨_, rfl⟩⟩

/-- Two interfaces that share core 5 whole, and a third that would take more. -/
theorem witness_SharesStayWithin256 :
    let cfg (n : Nat) : ViConfig := { (s0.vi 0).cfg with partition := [5], share := n }
    let s := (State.reset.updVi 0 fun v => { v with configured := true, cfg := cfg 100 }).updVi 1 fun v => { v with configured := true, cfg := cfg 156 }
    let sum (c : Nat) : Nat := (((List.range s.vis.length).filter fun v => (s.vi v).configured && (s.vi v).cfg.partition.contains c).map
      fun v => (s.vi v).cfg.share).sum
    sum 5 = 256 ∧ sum 4 = 0 ∧ 2 < s.vis.length ∧ 256 < sum 5 + 1 := by decide +kernel

/-- The first byte, the last, and one at the border of two stacks. -/
theorem witness_HomeSlices :
    0 < Config.memBytes ∧ 1536 * 2 ^ 30 - 1 < Config.memBytes ∧ sliceOf 0 = 0 ∧ stackOf (96 * 2 ^ 30 - 1) = 0 ∧ stackOf (96 * 2 ^ 30) = 1 ∧
    sliceOf (1536 * 2 ^ 30 - 1) = 255 := by decide +kernel

/-! ### Words and their instructions (spec/06 R98 to R125 and the encoding tables of the chapters) -/

def allDecode (ws : List (DWord × Instr)) : Bool := ws.all fun y => match decode y.1 with | .ok i => i == y.2 | .error _ => false

theorem test_words_control : allDecode
    [(0x00E0_0000_0000_0000, .nop gT),
     (0x0170_0000_3FFF_FFFB, .bra ⟨3, true⟩ (-5)),
     (0x02E0_0181_8000_0000, .brx gT (.s 6)),
     (0x03EC_3C00_0000_0009, .call gT (.s 30) 9),
     (0x04E0_0002_0000_0000, .ret gT (.v 8)),
     (0x05E0_0000_0000_0000, .exit gT),
     (0x06E0_0000_0000_0005, .rcvSet gT 5),
     (0x06E0_0000_0001_0002, .rcvWait gT 2),
     (0x07E0_0000_0000_0000, .regionBegin gT),
     (0x07EC_0800_0001_0000, .regionQuery gT (.s 4)),
     (0x08E0_0000_0000_F0FF, .wait gT 15 0 15 15),
     (0x09E0_0000_0000_1234, .trap gT 0x1234),
     (0x0AE0_0000_0000_0007, .brk gT 7),
     (0x0BE0_0000_0000_0000, .trapret gT),
     (0x0CEC_1200_0000_0006, .rinj gT (.s 9) 6),
     (0x0DE0_01FF_C000_0000, .sleep gT (.imm 127)),
     (0x0EE0_0000_0000_0004, .electBr gT 4),
     (0x10E0_0600_0000_0010, .sysRd gT (.v 3) 0x010),
     (0x11E0_0180_8000_0001, .sysWr gT 1 (.s 2)),
     (0x12EC_0800_0000_0000, .clkDev gT (.s 4)),
     (0x12E0_0C00_0001_0000, .clkOrd gT (.v 6)),
     (0x1300_0800_0000_0000, .rng ⟨0, false⟩ (.v 4) 0),
     (0x13E0_1000_0001_0003, .rngX4 gT (.v 8) 3),
     (0x13E0_0A00_0002_0001, .rngF32 gT (.v 5) 1),
     (0x14EC_1400_0000_003F, .perfRd gT (.s 10) 63),
     (0x14E0_0000_0001_0009, .perfClr gT 9),
     (0x15E0_0180_4000_ABCD, .tmark gT 0xABCD (.s 1)),
     (0x16EC_1000_0000_0004, .finfo gT (.s 8) 4),
     (0x17EC_0783_0000_0011, .lnch gT (.s 3) (.s 12) 17)] = true := by decide

theorem test_words_integer : allDecode
    [(0x18E0_0801_7E08_0800, .add gT (.v 4) (.v 5) (.imm 65) .i32 true),
     (0x19EC_0581_3031_8000, .sub gT (.s 2) (.s 4) (.s 6) .n64 false),
     (0x1AE0_0200_8018_8000, .mulLo gT (.v 1) (.v 2) (.v 3) .n32 false),
     (0x1AE0_0200_8018_1000, .mulHi gT (.v 1) (.v 2) (.v 3) .i32),
     (0x1AE0_1400_8018_A000, .mulWide gT (.v 10) (.v 2) (.v 3) .n32),
     (0x1BE0_0200_8018_0807, .madLo gT (.v 1) (.v 2) (.v 3) (.v 7) .i32 true),
     (0x1BE0_0200_8018_9007, .madHi gT (.v 1) (.v 2) (.v 3) (.v 7) .n32),
     (0x1BE0_0800_8018_2008, .madWide gT (.v 4) (.v 2) (.v 3) (.v 8) .i32),
     (0x1CE0_0200_801A_0000, .min gT (.v 1) (.v 2) (.v 3) .i16),
     (0x1DE0_0200_801B_8000, .max gT (.v 1) (.v 2) (.v 3) .n8),
     (0x1EE0_0200_8000_0800, .abs gT (.v 1) (.v 2) .i32 true),
     (0x1FE0_0401_0001_0000, .neg gT (.v 2) (.v 4) .i64 false),
     (0x20E0_0200_801F_8000, .and gT (.v 1) (.v 2) (.v 3) .b32),
     (0x21E0_0401_0031_8000, .or gT (.v 2) (.v 4) (.v 6) .n64),
     (0x22E0_0200_801F_8000, .xor gT (.v 1) (.v 2) (.v 3) .b32),
     (0x23E0_0200_8007_8000, .not gT (.v 1) (.v 2) .b32),
     (0x24E0_0200_BE2F_8000, .shl gT (.v 1) (.v 2) (.imm 69) .b32),
     (0x25E0_0401_0019_8000, .shr gT (.v 2) (.v 4) (.v 3) .n64),
     (0x26E0_0200_801F_8000, .sha gT (.v 1) (.v 2) (.v 3) .b32),
     (0x27E0_0200_801F_8000, .rot gT (.v 1) (.v 2) (.v 3) .b32),
     (0x28E0_0200_8018_0000, .bfe gT (.v 1) (.v 2) (.v 3) .i32),
     (0x29E0_0200_801F_8004, .bfi gT (.v 1) (.v 2) (.v 3) (.v 4)),
     (0x2AE0_0200_8001_8000, .popc gT (.v 1) (.v 2) .n64),
     (0x2BE0_0200_8007_8000, .clz gT (.v 1) (.v 2) .b32),
     (0x2CE0_0200_8007_8000, .ctz gT (.v 1) (.v 2) .b32),
     (0x2DE0_0200_8007_8000, .brev gT (.v 1) (.v 2) .b32),
     (0x2EE0_0200_801F_8004, .bsel gT (.v 1) (.v 2) (.v 3) (.v 4)),
     (0x2FE0_0200_801F_8580, .sel gT (.v 1) (.v 2) (.v 3) .b32 5 true),
     (0x30E0_0000_8018_2480, .cmp gT 4 (.v 2) (.v 3) .i32 .lt .or),
     (0x31E0_03C2_C007_8000, .mov gT (.v 1) (.sp .gdimX) .b32),
     (0x32E0_0C00_89AB_CDEF, .movi gT (.v 6) 0x89ABCDEF),
     (0x32EC_0C01_8000_0000, .moviS64 gT (.s 6) 0x80000000),
     (0x32EC_0C02_FFFF_FFFF, .moviZ64 gT (.s 6) 0xFFFFFFFF),
     (0x33E0_1181_0008_A000, .adda gT (.v 8) (.s 4) (.v 1) .n32 2),
     (0x34E0_0C00_0018_9100, .addc gT (.v 6) (.v 0) (.v 3) 1 .add0)] = true := by decide

theorem test_words_float : allDecode
    [(0x38E0_0200_801C_5800, .fadd gT (.v 1) (.v 2) (.v 3) .f32 .rs true),
     (0x39E0_0401_0034_B000, .fsub gT (.v 2) (.v 4) (.v 6) .f64 .rm false),
     (0x3AE0_0200_BE14_2000, .fmul gT (.v 1) (.v 2) (.imm 66) .f32 .rp false),
     (0x3B70_1400_B02C_1007, .ffma ⟨3, true⟩ (.v 10) (.v 2) (.s 5) (.v 7) .f32 .rz false),
     (0x3CE0_0200_801C_1000, .fmin gT (.v 1) (.v 2) (.v 3) .f32 true),
     (0x3DE0_0200_801C_0000, .fmax gT (.v 1) (.v 2) (.v 3) .f32 false),
     (0x3EE0_0000_801C_7640, .fcmp gT 6 (.v 2) (.v 3) .f32 .nan .and),
     (0x3FE0_0200_8005_8000, .fclass gT (.v 1) (.v 2) .bf16),
     (0x40E0_0200_8004_4000, .frnd gT (.v 1) (.v 2) .f32 .ra),
     (0x41E0_0401_0034_E800, .fscale gT (.v 2) (.v 4) (.v 6) .f64 .ro true),
     (0x42E0_0200_8004_1000, .rcp gT (.v 1) (.v 2) .f32 .rz),
     (0x43E0_0401_0004_8000, .rsq gT (.v 2) (.v 4) .f64),
     (0x44E0_0200_8004_0000, .sqrt gT (.v 1) (.v 2) .f32 .rn),
     (0x45E0_0200_8004_0000, .ex2 gT (.v 1) (.v 2)),
     (0x46E0_0200_8004_0000, .lg2 gT (.v 1) (.v 2)),
     (0x47E0_0200_8004_0000, .sin gT (.v 1) (.v 2)),
     (0x48E0_0200_8004_0000, .cos gT (.v 1) (.v 2)),
     (0x49E0_0200_8004_0000, .tanh gT (.v 1) (.v 2)),
     (0x4AE0_0200_801D_0804, .hfma2 gT (.v 1) (.v 2) (.v 3) (.v 4) .f16 .rn true),
     (0x4BE0_0200_801D_9000, .hadd2 gT (.v 1) (.v 2) (.v 3) .bf16 .rz false),
     (0x4CE0_0200_801D_0000, .hmul2 gT (.v 1) (.v 2) (.v 3) .f16 .rn false)] = true := by decide

theorem test_words_conversion : allDecode
    [(0x50E0_0200_8004_103C, .cvt gT (.v 1) (.v 2) .f32 .e4m3 3 .rz false),
     (0x51E0_0200_801D_8008, .cvtef gT (.v 1) (.v 3) (.v 2) .bf16 .f32 .rn false),
     (0x52E0_0200_B027_0005, .cvtmx gT (.v 1) (.s 4) (.v 2) .e2m1 5),
     (0x52E0_0000_8004_1000, .cvtmxAcc gT (.v 2)),
     (0x52EC_0C00_0003_2007, .cvtmxRep gT (.s 6) .i8 7),
     (0x52E0_0000_0000_3000, .cvtmxClr gT),
     (0x53E0_0201_0006_B808, .pack gT (.v 1) (.v 4) .e5m2 .f32 .rm true),
     (0x54E0_1000_4000_8007, .unpk gT (.v 8) (.v 1) .n32 .n8),
     (0x55E0_0200_801B_0804, .dot4 gT (.v 1) (.v 2) (.v 3) (.v 4) .i8 .rn true),
     (0x56E0_0200_801F_2004, .dot8 gT (.v 1) (.v 2) (.v 3) (.v 4) .rp false)] = true := by decide

theorem test_words_lanes : allDecode
    [(0x58E0_0200_BE0F_AB00, .shfl gT .hi (.v 1) (.v 2) (.imm 65) .b32 (some 3)),
     (0x59E0_0000_0000_02B0, .voteSome gT 2 5 true),
     (0x59E0_0000_0000_10E0, .voteEvery gT 0 7 false),
     (0x59E0_0001_0001_A600, .voteSame gT 6 (.v 4) .n64),
     (0x59EC_0600_0000_3020, .voteBits gT (.s 3) 1 false),
     (0x59E0_0600_0000_4030, .voteCnt gT (.v 3) 1 true),
     (0x5AEC_0200_8004_0300, .redux gT .add (.s 1) (.v 2) .f32 .rz true),
     (0x5BE0_0200_8000_A080, .scan gT .max (.v 1) (.v 2) .n32 true .rn false),
     (0x5CE0_0200_8004_0800, .matchAny gT (.v 1) (.v 2) .f32 true),
     (0x5CE0_0200_8007_9400, .matchAll gT (.v 1) 4 (.v 2) .b32 false),
     (0x5DE0_0401_0001_A000, .qswp gT .d (.v 2) (.v 4) .n64),
     (0x5EE0_0200_8007_8003, .qbc gT (.v 1) (.v 2) .b32 3),
     (0x5FEC_0200_8007_8000, .rdfst gT (.s 1) (.v 2) .b32),
     (0x60E0_0000_0000_0002, .part gT 1),
     (0x61E0_0200_0000_4000, .lmask gT .frm (.v 1)),
     (0x62E0_0200_0000_0500, .elect gT (.v 1) 5),
     (0x8402_01A0_3C0B_7090, .pairWord ⟨.add, 0, 8, 13, 0, 0⟩ ⟨.fmul, 0, 22, 450, 2, 0⟩)] = true := by decide

theorem test_words_memory : allDecode
    [(0x64E0_1180_7FFF_FC0F, .ld gT (.v 8) (.s 0) (-8) .b256 true),
     (0x64E0_0980_8000_2012, .ldAcq gT (.v 4) (.s 1) 0x40 false .dev),
     (0x65E0_0602_8000_0804, .st gT (.v 3) (.v 5) 16 .n16 false),
     (0x65EC_0DC0_0000_042B, .stRel gT (.s 6) .zero 8 true .sys),
     (0x66E0_0400_7FFF_FF21, .ldsp gT (.v 2) (.v 1) (-4) true .i8),
     (0x66EC_0580_4000_010D, .ldspAcq gT (.s 2) (.s 1) 4 true),
     (0x66E0_0400_4000_013C, .ldspCnt gT (.v 2) (.v 1) 4 true),
     (0x67E0_09C0_0000_0006, .stsp gT (.v 4) (.sp .zero) 0 false .b128),
     (0x67E0_0800_4000_0014, .stspRel gT (.v 4) (.v 1) 0 false),
     (0x67E0_0800_4000_031C, .stspCnt gT (.v 4) (.v 1) 12 false),
     (0x68EC_0581_0000_0008, .ldc gT (.s 2) (.s 2) 0 .b32),
     (0x6CE0_0001_8000_2000, .prefL1 gT (.v 3) 64),
     (0x6CE0_0001_8000_2002, .prefL2 gT (.v 3) 64),
     (0x6CE0_0180_8000_0004, .prefEvict gT (.s 1) 0),
     (0x6DE0_0000_0000_0000, .spmapFlush gT),
     (0x6DEC_0BF0_C001_0000, .spmapQuery gT (.s 5) (.imm 67)),
     (0x6EEC_0B80_B020_C8A0, .residBind gT (.s 5) (.s 2) (.s 4) 200 5),
     (0x6EEE_0000_0001_0900, .residUnbind gT (.sp .zero) 9)] = true := by decide

theorem test_words_sync : allDecode
    [(0x69E0_0800_8060_0F26, .atom gT (.v 4) (.v 1) (.v 6) (.v 7) .cas .n32 .dev),
     (0x6AEE_0001_4030_000A, .atomsp gT (.sp .zero) (.v 5) (.v 6) (.v 0) .add .f32 true),
     (0x6BE0_0000_0000_0002, .fence gT .dev),
     (0x6BE0_0000_0001_0018, .fencePath gT true true),
     (0x6BE0_0000_0002_0001, .fenceXlat gT .gang),
     (0x71E0_01C0_0000_0003, .barJoin gT (.sp .zero) 3),
     (0x71E0_0180_8001_000F, .barPost gT (.s 2) 15),
     (0x72E0_0000_0000_0000, .gbarJoin gT),
     (0x72E0_0000_0001_0000, .gbarPost gT),
     (0x73E0_0181_C000_0000, .wsync gT (.s 7)),
     (0x74EC_0581_6067_A000, .waitw gT (.s 2) (.s 2) (.s 6) .le true true .dev),
     (0x75E0_0000_0000_0000, .odone gT),
     (0x70EC_0D81_0000_0000, .cbwWait gT (.s 6) (.s 4)),
     (0x70EC_0D81_0001_0000, .cbwTest gT (.s 6) (.s 4)),
     (0x70EE_0181_0002_0000, .cbwReset gT (.sp .zero) (.s 4))] = true := by decide

theorem test_words_engines : allDecode
    [(0x6FE0_0182_0000_0000, .cpyG2s gT (.s 8)),
     (0x6FE0_0182_0001_0000, .cpyS2g gT (.s 8)),
     (0x6FE0_0182_0002_0000, .cpyG2g gT (.s 8)),
     (0x6FE0_0182_0003_0000, .cpyGather gT (.s 8)),
     (0x6FE0_0182_0004_0000, .cpyBcast gT (.s 8)),
     (0x6FE0_0182_0005_0000, .cpyFill gT (.s 8)),
     (0x6FE0_0182_0006_0000, .cpyMeta gT (.s 8)),
     (0x76E0_0181_8000_0000, .mmac gT (.s 6)),
     (0x77E0_0181_3E00_403F, .maccSt gT (.s 4) (.imm 64) 63 2 false),
     (0x77E0_0181_3049_1047, .maccLd gT (.s 4) (.s 9) 7 0 true true),
     (0x77E0_0000_304A_000F, .maccZero gT (.s 9) 15),
     (0x77E0_11F0_304B_0700, .maccRd gT (.v 8) (.s 9) (.imm 64) .f64 .ro),
     (0x78EC_0600_0000_0002, .mqctlClaim gT (.s 3) 2),
     (0x78EC_0600_0001_0001, .mqctlRelease gT (.s 3) 1),
     (0x78EC_0600_0002_0003, .mqctlQuery gT (.s 3) 3),
     (0x79EC_0600_0000_0000, .mstatErr gT (.s 3)),
     (0x79E0_0180_C001_0000, .mstatCont gT (.s 3)),
     (0x79E0_0000_0002_0000, .mstatClr gT)] = true := by decide


/-! ### Terms that the well-formedness checks refuse, one for each check -/

def noneWf (is : List Instr) : Bool := is.all fun i => !i.wf

/-- R104 to R106: pairs begin at even registers; a scalar destination takes no vector source; %lane makes a word vector. -/
theorem test_ill_formed_registers : noneWf
    [.brx gT (.s 7), .call gT (.s 31) 0, .ret gT (.imm 4), .regionQuery gT (.v 4), .rinj gT (.v 4) 0, .clkDev gT (.v 3), .rng gT (.imm 4) 0,
     .rngF32 gT (.sp .lane) 0, .rngX4 gT (.v 6) 0, .perfRd gT (.s 5) 0, .tmark gT 0 (.v 4), .lnch gT (.v 4) (.s 2) 0, .lnch gT (.s 4) (.s 3) 0,
     .add gT (.s 4) (.v 5) (.s 6) .i32 false, .add gT (.v 4) (.v 5) (.v 7) .i64 false, .mulWide gT (.v 5) (.v 6) (.v 7) .i32,
     .madWide gT (.v 4) (.v 6) (.v 7) (.v 9) .i32, .mov gT (.s 4) (.sp .lane) .b32, .shl gT (.v 5) (.v 6) (.v 7) .n64, .movi gT (.imm 4) 0,
     .moviS64 gT (.v 5) 0, .adda gT (.v 4) (.v 7) (.v 6) .i32 0, .shfl gT .base (.s 4) (.v 5) (.v 6) .b32 none, .voteBits gT (.imm 4) 0 false,
     .redux gT .add (.v 4) (.s 5) .i32 .rn false, .rdfst gT (.v 4) (.v 5) .b32, .rdfst gT (.s 4) (.s 5) .b32, .lmask gT .own (.s 4),
     .elect gT (.s 4) 0, .qbc gT (.s 4) (.v 5) .b32 0] = true := by decide +kernel

/-- Types that a word does not take, its rounding and saturation among them. -/
theorem test_ill_formed_types : noneWf
    [.add gT (.v 4) (.v 5) (.v 6) .b32 false, .abs gT (.v 4) (.v 5) .n32 false, .mulLo gT (.v 4) (.v 5) (.v 6) .i16 false,
     .bfe gT (.v 4) (.v 5) (.v 6) .b32, .and gT (.v 4) (.v 5) (.v 6) .i32, .cmp gT 1 (.v 5) (.v 6) .b32 .lt .none,
     .fadd gT (.v 4) (.v 5) (.v 6) .f16 .rn false, .fclass gT (.v 4) (.v 5) .e4m3, .fscale gT (.v 4) (.v 5) (.imm 65) .f32 .rn false, .hadd2 gT (.v 4) (.v 5) (.v 6) .f32 .rn false,
     .cvt gT (.v 4) (.v 5) .f32 .f32 0 .rn false, .cvt gT (.v 4) (.v 5) .b32 .f32 0 .rn false, .cvt gT (.v 4) (.v 5) .f32 .f16 2 .rn false,
     .cvt gT (.v 4) (.v 5) .i32 .n32 0 .rz false, .cvt gT (.v 4) (.v 5) .i32 .f32 0 .rn true, .cvt gT (.v 4) (.imm 70) .f32 .e4m3 0 .rn false,
     .cvtef gT (.v 4) (.v 6) (.v 8) .f32 .f32 .rn false, .cvtef gT (.v 6) (.v 6) (.v 8) .e4m3 .f64 .rn false, .cvtmx gT (.v 4) (.s 5) (.v 6) .f32 0,
     .cvtmxRep gT (.s 4) .n8 0, .pack gT (.v 4) (.v 6) .i8 .f32 .rn false, .pack gT (.v 4) (.v 8) .i8 .i32 .rz false,
     .unpk gT (.v 4) (.v 9) .f32 .i8, .unpk gT (.v 4) (.imm 70) .f32 .e5m2, .dot4 gT (.v 4) (.v 5) (.v 6) (.v 7) .f16 .rn false,
     .dot8 gT (.v 4) (.imm 70) (.v 6) (.v 7) .rn false, .redux gT .and (.v 4) (.v 5) .i32 .rn false, .redux gT .min (.v 4) (.v 5) .f32 .rn true,
     .scan gT .add (.v 4) (.imm 70) .i32 false .rn false, .matchAny gT (.v 4) (.v 5) .f32 false, .matchAll gT (.v 4) 1 (.imm 70) .f32 true] = true := by
  decide +kernel

/-- @p7 as a destination, numbers outside their ranges, and immediates where none stands. -/
theorem test_ill_formed_fields : noneWf
    [.cmp gT 7 (.v 5) (.v 6) .i32 .eq .none, .addc gT (.v 4) (.v 5) (.v 6) 7 .add0, .fcmp gT 7 (.v 5) (.v 6) .f32 .eq .none, .voteSome gT 7 0 false,
     .voteSame gT 7 (.v 5) .b32, .matchAll gT (.v 4) 7 (.v 5) .b32 false, .elect gT (.v 4) 7, .shfl gT .base (.v 4) (.v 5) (.v 6) .b32 (some 7),
     .sleep gT (.imm 5), .sysRd gT (.s 4) 11, .sysRd gT (.s 4) 16, .sysWr gT 3 (.s 4), .finfo gT (.s 4) 10, .fencePath gT false false,
     .fenceXlat gT .sys, .maccSt gT (.s 2) (.s 4) 0 1 true, .maccSt gT (.s 3) (.s 4) 0 0 false, .maccRd gT (.v 4) (.s 4) (.s 5) .f32 .rs,
     .maccRd gT (.v 4) (.s 4) (.s 5) .a80 .rz, .maccRd gT (.v 5) (.s 4) (.s 5) .f64 .rn, .mqctlClaim gT (.v 4) 0, .mstatErr gT (.v 4),
     .mstatCont gT (.v 4), .cpyG2s gT (.v 4), .cbwWait gT (.s 5) (.s 4), .cbwTest gT (.s 4) (.s 5), .wsync gT (.imm 70), .barJoin gT (.v 4) 0,
     .residBind gT (.s 4) (.s 3) (.s 6) 0 0, .spmapQuery gT (.v 4) (.s 5)] = true := by decide +kernel

/-- Loads over their base, odd destinations and data, atomics of types and operands that they do not take. -/
theorem test_ill_formed_memory : noneWf
    [.ld gT (.v 2) (.v 1) 0 .b32 false, .ld gT (.v 5) (.v 1) 0 .b64 false, .ld gT (.s 4) (.v 1) 0 .b32 false, .ldc gT (.v 12) (.s 1) 0 .b256,
     .ldAcq gT (.s 2) (.s 1) 0 true .dev, .st gT (.imm 70) (.s 1) 0 .b128 false, .stRel gT (.v 5) (.v 1) 0 true .dev, .ldsp gT (.v 5) (.v 5) 0 false .b32,
     .ldsp gT (.s 4) (.v 5) 0 false .b32, .ldspAcq gT (.v 4) (.imm 70) 0 false, .stsp gT (.v 4) (.imm 70) 0 false .b32,
     .atom gT (.v 4) (.v 1) (.v 6) (.v 0) .and .i32 .dev, .atom gT (.v 4) (.v 1) (.v 6) (.v 7) .add .i32 .dev, .atom gT (.v 4) (.v 1) (.v 6) (.v 0) .inc .i32 .dev,
     .atom gT (.v 2) (.v 1) (.v 6) (.v 0) .add .i32 .dev, .atom gT (.v 4) (.v 1) (.v 6) (.imm 70) .cas .f32 .dev,
     .atomsp gT (.v 4) (.v 5) (.v 6) (.v 0) .add .i64 false, .waitw gT (.v 4) (.s 1) (.s 6) .eq false false .dev,
     .waitw gT (.s 4) (.v 1) (.s 6) .eq false false .dev] = true := by decide +kernel

/-- R118 to R122: a full-rate slot with a slot-B opcode, reads of one bank, one destination twice, and types that an opcode lacks. -/
theorem test_ill_formed_pairs : noneWf
    [.pairWord ⟨.rcp, 0, 8, 13, 2, 0⟩ ⟨.nop, 0, 0, 0, 0, 0⟩, .pairWord ⟨.add, 0, 8, 12, 0, 0⟩ ⟨.nop, 0, 0, 0, 0, 0⟩,
     .pairWord ⟨.mov, 0, 8, 13, 5, 0⟩ ⟨.mov, 0, 8, 14, 5, 0⟩, .pairWord ⟨.add, 0, 8, 13, 2, 0⟩ ⟨.nop, 0, 0, 0, 0, 0⟩,
     .pairWord ⟨.nop, 1, 0, 0, 0, 0⟩ ⟨.nop, 0, 0, 0, 0, 0⟩, .pairWord ⟨.mov, 0, 450, 13, 5, 0⟩ ⟨.nop, 0, 0, 0, 0, 0⟩] = true := by decide +kernel

/-! ### Single words: the values that the manual states -/

/-- Lane 1's word of a register, and the flags, after a word at the first issue. -/
def after (i : Instr) (r l : Nat) : Nat := ((run i s1).warp 0 |>.v r l).toNat

/-- R194: 4 + 101 in lane 1; with `.sat`, 2^31 - 1 where the sum is above it. -/
theorem test_add : after (.add gT (.v 4) (.v 5) (.v 6) .i32 false) 4 1 = 105 := by decide +kernel
theorem test_movi : after (.movi gT (.v 4) 0xFFFF_FFFF) 4 1 = 0xFFFF_FFFF := by decide +kernel
/-- A guard that fails leaves the register. -/
theorem test_guard : after (.movi gF (.v 6) 7) 6 1 = 101 := by decide +kernel
/-- A lane outside the subgroup keeps its register. -/
theorem test_mask : after (.movi gT (.v 6) 7) 6 4 = 0 := by decide +kernel
/-- Source and destination the same. -/
theorem test_same_register : after (.sub gT (.v 6) (.v 6) (.v 6) .n32 false) 6 3 = 0 := by decide +kernel

/-- The bytes of the worked example of spec/18 that are not zero, and its cell after k-block [k] where it held [v]. -/
def worked (k v : Nat) : Nat :=
  let s := (List.range 5).foldl withPage (withMat (matrixOf (.mmac mOne) k none none none))
  let s := [(0x1000, 0x38), (0x1020, 0x3C), (0x1040, 0x3C), (0x2800, 0x38), (0x2820, 0x38), (0x2840, 0x38), (0x4C00, 0xC5), (0x4C01, 0x7F),
    (0x4C02, 0x7F), (0x4CC0, 0x7F), (0x4CC1, 0x7F), (0x4CC2, 0x7F)].foldl (fun s y => s.spWriteBytes 0 y.1 [BitVec.ofNat 8 y.2]) s
  let s := s.updBlock 0 fun b => { b with acc := sset b.acc 0 (BitVec.ofNat 80 v) 0 }
  let s := run (.matrixKblock 0) (s.updCore 0 fun c => { c with credit := 1200 })
  ((s.block 0).cell 0 0).toNat

/-- Spec/18: k-block 0 leaves 2^70, and k-block 1 leaves 2^70 + 1.5 rounded to 2^70. -/
theorem test_worked_kblock_0 : worked 0 0 = 0x4450_0000_0000_0000_0000 := by decide +kernel
theorem test_worked_kblock_1 : worked 1 0x4450_0000_0000_0000_0000 = 0x4450_0000_0000_0000_0000 := by decide +kernel

/-- 1 + 2 in binary32 (R212), and 2^31 shifted arithmetically by 1 (R199). -/
theorem test_fadd : ((run (.fadd gT (.v 4) (.s 8) (.s 9) .f32 .rn false)
    (s1.updWarp 0 fun w => { w with sregs := sset (sset w.sregs 8 0x3F80_0000 0) 9 0x4000_0000 0 })).warp 0 |>.v 4 0) = 0x4040_0000 := by decide +kernel
theorem test_sha : ((run (.sha gT (.s 4) (.s 8) (.imm 65) .b32)
    (s1.updWarp 0 fun w => { w with sregs := sset w.sregs 8 0x8000_0000 0 })).warp 0 |>.s 4) = 0xC000_0000 := by decide +kernel

/-- R263: a store leaves one dirty line, that of its address 0x1_8000. -/
theorem test_store_line : ((run (.st gT (.v 6) (.v 1) 0 .b32 false) s1).warp 0).dirty.map (fun d => 64 * d.line) = [0x1_8000] := by decide +kernel

end Sys2Proof.Tests
end

/-!
### Settling O59

What the interfaces have of the cores is what their configurations say (R64), and only two things change those: a configuration that
Bilral accepts, which it checks against the cores, and a power-on, which leaves no interface configured. Every other function of the model
that gives a state keeps them; the lemmas `…_tenants` and `…_keepsTenants` say so, one for each, in the order of the model's files.
-/

/-! ### The configurations of the interfaces -/

namespace Sys2Proof.Machine

/-- Which of some interfaces are configured, and how (R62, R64). -/
def tenantsOf (vis : List Vi) : List (Bool × ViConfig) := vis.map fun v => (v.configured, v.cfg)

/-- The configurations of a state's interfaces. -/
def State.tenants (s : State) : List (Bool × ViConfig) := tenantsOf s.vis

/-- Of a state given field by field, as an update of some fields gives it, only the interfaces count. -/
@[simp] theorem State.tenants_mk
    (clock devTime ptpLocked ptpStepped boot flash cfg measured moduleFailed cores vis launches blocks warps mem
    poison l2 marks recs floors aliases sides ovfRoom endCache net staged holding waiting banks clusters links ports hot shoot walk preempts
    flume scrubLine lastRefill lastFloor lastTick lastGrantAt rateAt rateUsed sent nextId freeCtr agenda cur) :
    (State.mk clock devTime ptpLocked ptpStepped boot flash cfg measured moduleFailed cores vis launches blocks warps mem poison l2 marks
      recs floors aliases sides ovfRoom endCache net staged holding waiting banks clusters links ports hot shoot walk preempts flume
      scrubLine lastRefill lastFloor lastTick lastGrantAt rateAt rateUsed sent nextId freeCtr agenda cur).tenants = tenantsOf vis := by
  rw [State.tenants]

@[simp] theorem tenantsOf_vis (s : State) : tenantsOf s.vis = s.tenants := by rw [State.tenants]

/-- An outcome whose next state, if it is one, has these configurations. -/
def Out.KeepsTenants (T : List (Bool × ViConfig)) (o : Out) : Prop := ∀ t, o = .next t → t.tenants = T

@[simp] theorem Out.keepsTenants_next (T : List (Bool × ViConfig)) (t : State) : Out.KeepsTenants T (.next t) ↔ t.tenants = T := by
  simp [Out.KeepsTenants]

@[simp] theorem Out.keepsTenants_ok (T : List (Bool × ViConfig)) (t : State) : Out.KeepsTenants T (ok t) ↔ t.tenants = T := by
  simp [Out.KeepsTenants, ok]

@[simp] theorem Out.keepsTenants_fault (T : List (Bool × ViConfig)) (r : Fault) : Out.KeepsTenants T (.fault r) := by
  simp [Out.KeepsTenants]

@[simp] theorem Out.keepsTenants_ite (T : List (Bool × ViConfig)) (c : Prop) [Decidable c] (a b : Out) :
    Out.KeepsTenants T (if c then a else b) ↔ if c then Out.KeepsTenants T a else Out.KeepsTenants T b := by
  split <;> rfl

theorem Out.KeepsTenants.ite {T : List (Bool × ViConfig)} {c : Prop} [Decidable c] {a b : Out} (ha : Out.KeepsTenants T a)
    (hb : Out.KeepsTenants T b) :
    Out.KeepsTenants T (if c then a else b) := by split <;> assumption

theorem Out.keepsTenants_of_eq {T U : List (Bool × ViConfig)} {o : Out} (h : Out.KeepsTenants U o) (hu : U = T) :
    Out.KeepsTenants T o := hu ▸ h

@[simp] theorem tenants_ite (c : Prop) [Decidable c] (s t : State) :
    (if c then s else t).tenants = if c then s.tenants else t.tenants := by split <;> rfl

@[simp] theorem tenants_snd_ite {α : Type} (c : Prop) [Decidable c] (x y : α × State) :
    (if c then x else y).2.tenants = if c then x.2.tenants else y.2.tenants := by split <;> rfl

@[simp] theorem tenants_fst_ite {α : Type} (c : Prop) [Decidable c] (x y : State × α) :
    (if c then x else y).1.tenants = if c then x.1.tenants else y.1.tenants := by split <;> rfl

/-- A state that there may be has these configurations. -/
def KeepsTenants (T : List (Bool × ViConfig)) (o : Option State) : Prop := ∀ t, o = some t → t.tenants = T

@[simp] theorem keepsTenants_none (T : List (Bool × ViConfig)) : KeepsTenants T none := by simp [KeepsTenants]

@[simp] theorem keepsTenants_some (T : List (Bool × ViConfig)) (t : State) :
    KeepsTenants T (some t) ↔ t.tenants = T := by simp [KeepsTenants]

@[simp] theorem keepsTenants_ite (T : List (Bool × ViConfig)) (c : Prop) [Decidable c] (a b : Option State) :
    KeepsTenants T (if c then a else b) ↔ if c then KeepsTenants T a else KeepsTenants T b := by split <;> rfl

@[simp] theorem keepsTenants_map (T : List (Bool × ViConfig)) (o : Option State) (f : State → State) (h : KeepsTenants T o)
    (hf : ∀ t, (f t).tenants = t.tenants) : KeepsTenants T (o.map f) := by
  cases o with
  | none => simp
  | some t => simpa using (hf t).trans (h t rfl)

@[simp] theorem tenants_getD (o : Option State) (s : State) (h : KeepsTenants (s.tenants) o) :
    (o.getD s).tenants = s.tenants := by
  cases o with
  | none => rfl
  | some t => exact h t rfl

@[simp] theorem keepsTenants_bind (T : List (Bool × ViConfig)) (o : Option State) (f : State → Option State) (h : KeepsTenants T o)
    (hf : ∀ t, KeepsTenants (t.tenants) (f t)) : KeepsTenants T (o.bind f) := by
  cases o with
  | none => simp
  | some t => simpa [h t rfl] using hf t

/-- Where each element of a list keeps the configurations, so does the list. -/
theorem tenants_foldl_of {α β : Type} (g : β → State) (f : β → α → β) (xs : List α)
    (h : ∀ a x, (g (f a x)).tenants = (g a).tenants) (a : β) : (g (xs.foldl f a)).tenants = (g a).tenants := by
  induction xs generalizing a with
  | nil => rfl
  | cons x xs ih => rw [List.foldl_cons, ih, h]

@[simp] theorem tenants_foldl {α : Type} (f : State → α → State) (xs : List α) (h : ∀ s x, (f s x).tenants = s.tenants)
    (s : State) : (xs.foldl f s).tenants = s.tenants := tenants_foldl_of id f xs h s

@[simp] theorem tenants_foldl_snd {α β : Type} (f : β × State → α → β × State) (xs : List α)
    (h : ∀ a x, (f a x).2.tenants = a.2.tenants) (a : β × State) : (xs.foldl f a).2.tenants = a.2.tenants :=
  tenants_foldl_of Prod.snd f xs h a

@[simp] theorem tenants_foldl_fst {α β : Type} (f : State × β → α → State × β) (xs : List α)
    (h : ∀ a x, (f a x).1.tenants = a.1.tenants) (a : State × β) : (xs.foldl f a).1.tenants = a.1.tenants :=
  tenants_foldl_of Prod.fst f xs h a

/-- Where each element of a list keeps the configurations, so does a run that may stop. -/
theorem keepsTenants_foldl {T : List (Bool × ViConfig)} {α : Type} (f : State → α → Option State) (xs : List α)
    (hf : ∀ t x, KeepsTenants t.tenants (f t x)) (o : Option State) (h : KeepsTenants T o) :
    KeepsTenants T (xs.foldl (fun acc x => acc.bind fun t => f t x) o) := by
  induction xs generalizing o with
  | nil => exact h
  | cons x xs ih => exact ih _ (keepsTenants_bind T o (fun t => f t x) h fun t => hf t x)

theorem tenants_of_snd {α : Type} {u : α × State} {a : α} {t : State} (h : u = (a, t)) : t.tenants = u.2.tenants := by
  rw [h]

theorem tenants_of_fst {α : Type} {u : State × α} {a : α} {t : State} (h : u = (t, a)) : t.tenants = u.1.tenants := by
  rw [h]

/-- A result that, if it is no failure, leads to a state with these configurations; [g]: where the result holds it. -/
def Eng.KeepsTenants {ε α : Type} (g : α → State) (T : List (Bool × ViConfig)) (r : Except ε α) : Prop :=
  ∀ x, r = .ok x → (g x).tenants = T

section Results
variable {ε α : Type} {g : α → State} {T : List (Bool × ViConfig)}

@[simp] theorem Eng.keepsTenants_ok (x : α) : Eng.KeepsTenants g T (.ok x : Except ε α) ↔ (g x).tenants = T := by
  simp [Eng.KeepsTenants]
@[simp] theorem Eng.keepsTenants_error (x : ε) : Eng.KeepsTenants g T (.error x) := by simp [Eng.KeepsTenants]
@[simp] theorem Eng.keepsTenants_engErr (n : Nat) : Eng.KeepsTenants g T (engErr n) := by simp [Eng.KeepsTenants, engErr]
@[simp] theorem Eng.keepsTenants_ite (c : Prop) [Decidable c] (a b : Except ε α) :
    Eng.KeepsTenants g T (if c then a else b) ↔ if c then Eng.KeepsTenants g T a else Eng.KeepsTenants g T b := by split <;> rfl
theorem Eng.KeepsTenants.ite {c : Prop} [Decidable c] {a b : Except ε α} (ha : Eng.KeepsTenants g T a) (hb : Eng.KeepsTenants g T b) :
    Eng.KeepsTenants g T (if c then a else b) := by split <;> assumption

@[simp] theorem Eng.keepsTenants_map (r : Except ε State) (f : State → State) (h : Eng.KeepsTenants id T r)
    (hf : ∀ t, (f t).tenants = t.tenants) : Eng.KeepsTenants id T (r.map f) := by
  cases r with
  | error x => exact Eng.keepsTenants_error x
  | ok t => exact (Eng.keepsTenants_ok (f t)).mpr ((hf t).trans (h t rfl))

end Results

/-- An update of an interface that leaves its configuration. -/
@[simp] theorem tenants_updVi (s : State) (v : Nat) (f : Vi → Vi) (h : ∀ x, ((f x).configured, (f x).cfg) = (x.configured, x.cfg)) :
    (s.updVi v f).tenants = s.tenants := by
  show tenantsOf (s.vis.modify v f) = tenantsOf s.vis
  apply List.ext_getElem (by simp [tenantsOf])
  intro k _ _
  simp only [tenantsOf, List.getElem_map, List.getElem_modify]
  split
  · exact h _
  · rfl

variable {T : List (Bool × ViConfig)}

/-! ### The state -/

@[simp] theorem State.updWarp_tenants (s : State) (w f) : (s.updWarp w f).tenants = s.tenants := by simp [State.updWarp]

@[simp] theorem State.updBlock_tenants (s : State) (b f) : (s.updBlock b f).tenants = s.tenants := by simp [State.updBlock]

@[simp] theorem State.updLaunch_tenants (s : State) (l f) : (s.updLaunch l f).tenants = s.tenants := by simp [State.updLaunch]

@[simp] theorem State.updCore_tenants (s : State) (c f) : (s.updCore c f).tenants = s.tenants := by simp [State.updCore]

@[simp] theorem State.fresh_tenants (s : State) : s.fresh.2.tenants = s.tenants := by simp [State.fresh]

@[simp] theorem State.emit_tenants (s : State) (vi ws) : (s.emit vi ws).tenants = s.tenants := by simp [State.emit]

@[simp] theorem State.emitWarp_tenants (s : State) (w ws) : (s.emitWarp w ws).tenants = s.tenants := by simp [State.emitWarp]

/-! ### Marks -/

@[simp] theorem State.count_tenants (s : State) (vi unit ev k) : (s.count vi unit ev k).tenants = s.tenants := by simp [State.count]

@[simp] theorem State.updRec_tenants (s : State) (p f) : (s.updRec p f).tenants = s.tenants := by simp [State.updRec]

@[simp] theorem State.openRec_tenants (s : State) (p) : (s.openRec p).tenants = s.tenants := by simp [State.openRec]

@[simp] theorem State.alias_tenants (s : State) (pa p) : (s.alias_ pa p).tenants = s.tenants := by simp [State.alias_]

@[simp] theorem State.putMarks_tenants (s : State) (l) : (s.putMarks l).tenants = s.tenants := by simp [State.putMarks]

@[simp] theorem State.fitMarks_tenants (s : State) (slice) : (s.fitMarks slice).tenants = s.tenants := by
  unfold State.fitMarks
  dsimp only
  repeat' split
  all_goals simp

@[simp] theorem State.setMarks_tenants (s : State) (l) : (s.setMarks l).tenants = s.tenants := by simp [State.setMarks]

@[simp] theorem State.setMarkAt_tenants (s : State) (vi pa m) : (s.setMarkAt vi pa m).tenants = s.tenants := by simp [State.setMarkAt]

@[simp] theorem State.recordWords_tenants (s : State) (vi a pas) :
    (s.recordWords vi a pas).tenants = s.tenants := by simp [State.recordWords]

@[simp] theorem State.setSide_tenants (s : State) (line x) : (s.setSide line x).tenants = s.tenants := by simp [State.setSide]

@[simp] theorem State.spillLine_keepsTenants (s : State) (line strong) (h : s.tenants = T) :
    KeepsTenants T (s.spillLine line strong) := by
  subst h
  unfold State.spillLine
  split <;> simp

@[simp] theorem State.freeAliases_tenants (s : State) (f) : (s.freeAliases f).tenants = s.tenants := by simp [State.freeAliases]

@[simp] theorem State.restoreLine_tenants (s : State) (line) : (s.restoreLine line).tenants = s.tenants := by
  unfold State.restoreLine
  dsimp only
  repeat' split
  all_goals simp

/-! ### Homes -/

@[simp] theorem State.usePort_tenants (s : State) (c n) : (s.usePort c n).tenants = s.tenants := by simp [State.usePort]

@[simp] theorem State.keepXlat_tenants (s : State) (c die e) : (s.keepXlat c die e).tenants = s.tenants := by simp [State.keepXlat]

@[simp] theorem State.translate_tenants (s : State) (c vi va u sysOk) : (s.translate c vi va u sysOk).2.tenants = s.tenants := by
  unfold State.translate
  dsimp only
  repeat' split
  all_goals simp

@[simp] theorem State.unbind_tenants (s : State) (vi h) : (s.unbind vi h).tenants = s.tenants := by simp [State.unbind]

@[simp] theorem State.demote_tenants (s : State) (vi h) : (s.demote vi h).tenants = s.tenants := by
  unfold State.demote
  split <;> simp

@[simp] theorem State.countSpill_tenants (s : State) (line y2) : (s.countSpill line y2).tenants = s.tenants := by
  unfold State.countSpill
  split <;> simp

@[simp] theorem State.dropLine_keepsTenants (s : State) (line) (h : s.tenants = T) : KeepsTenants T (s.dropLine line) := by
  simp [State.dropLine, h]

@[simp] theorem State.evictFirst_keepsTenants (s : State) (es) (h : s.tenants = T) : KeepsTenants T (s.evictFirst es) := by
  induction es with
  | nil => simp [State.evictFirst]
  | cons e r ih =>
    unfold State.evictFirst
    split
    · next t ht =>
      have := s.dropLine_keepsTenants e.line h t ht
      split <;> simp [this]
    · exact ih

@[simp] theorem State.lineRoom_keepsTenants (s : State) (line) (h : s.tenants = T) : KeepsTenants T (s.lineRoom line) := by
  simp [State.lineRoom, h]

@[simp] theorem State.touch_tenants (s : State) (vi va pa) : (s.touch vi va pa).tenants = s.tenants := by
  unfold State.touch
  dsimp only
  split <;> simp

@[simp] theorem State.crossDies_tenants (s : State) (d e vi) : (s.crossDies d e vi).tenants = s.tenants := by simp [State.crossDies]

@[simp] theorem State.crossGang_tenants (s : State) (w b) : (s.crossGang w b).tenants = s.tenants := by simp [State.crossGang]

@[simp] theorem State.reach_tenants (s : State) (c vi va pa) : (s.reach c vi va pa).tenants = s.tenants := by simp [State.reach]

@[simp] theorem State.seen_tenants (s : State) (pas) : (s.seen pas).tenants = s.tenants := by simp [State.seen]

@[simp] theorem State.poisonLine_tenants (s : State) (line) : (s.poisonLine line).tenants = s.tenants := by simp [State.poisonLine]

@[simp] theorem State.register_tenants (s : State) (w line wr f) :
    (s.register w line wr f).tenants = s.tenants := by simp [State.register]

@[simp] theorem State.registerRead_tenants (s : State) (w line) :
    (s.registerRead w line).tenants = s.tenants := by simp [State.registerRead]

@[simp] theorem State.registerWrite_tenants (s : State) (w line) :
    (s.registerWrite w line).tenants = s.tenants := by simp [State.registerWrite]

@[simp] theorem State.clearRg_tenants (s : State) (w f) : (s.clearRg w f).tenants = s.tenants := by simp [State.clearRg]

@[simp] theorem State.clearRegistration_tenants (s : State) (w) :
    (s.clearRegistration w).tenants = s.tenants := by simp [State.clearRegistration]

@[simp] theorem State.spend_tenants (s : State) (c vi n) : (s.spend c vi n).tenants = s.tenants := by simp [State.spend]

@[simp] theorem State.mergeDirty_tenants (s : State) (c vi d) : (s.mergeDirty c vi d).tenants = s.tenants := by simp [State.mergeDirty]

@[simp] theorem State.writeBack_tenants (s : State) (w f) : (s.writeBack w f).tenants = s.tenants := by simp [State.writeBack]

@[simp] theorem State.writeBackAll_tenants (s : State) (w) : (s.writeBackAll w).tenants = s.tenants := by simp [State.writeBackAll]

@[simp] theorem State.makeWay_tenants (s : State) (c set) : (s.makeWay c set).tenants = s.tenants := by
  unfold State.makeWay
  repeat' split
  all_goals simp

@[simp] theorem State.fillClean_tenants (s : State) (w line) : (s.fillClean w line).tenants = s.tenants := by simp [State.fillClean]

@[simp] theorem State.loadEffects_tenants (s : State) (w vps nt) :
    (s.loadEffects w vps nt).tenants = s.tenants := by simp [State.loadEffects]

@[simp] theorem State.storeLine_tenants (s : State) (w line vline bs who ovf nt) :
    (s.storeLine w line vline bs who ovf nt).tenants = s.tenants := by simp [State.storeLine]

/-! ### Counters -/

@[simp] theorem State.writeCsel_tenants (s : State) (vi n v) : (s.writeCsel vi n v).tenants = s.tenants := by simp [State.writeCsel]

@[simp] theorem State.writeCctl_tenants (s : State) (vi v) : (s.writeCctl vi v).tenants = s.tenants := by
  unfold State.writeCctl
  split
  · rfl
  · exact tenants_updVi s vi _ fun y => by dsimp only; split <;> rfl

@[simp] theorem State.writeClost_tenants (s : State) (vi v) : (s.writeClost vi v).tenants = s.tenants := by simp [State.writeClost]

@[simp] theorem State.writeCtr_tenants (s : State) (vi off v) : (s.writeCtr vi off v).tenants = s.tenants := by simp [State.writeCtr]

@[simp] theorem State.perfClear_tenants (s : State) (vi n) : (s.perfClear vi n).tenants = s.tenants := by simp [State.perfClear]

/-! ### Replicas and shootdowns -/

@[simp] theorem State.agentDrops_tenants (s : State) (vi va len wb agent) :
    (s.agentDrops vi va len wb agent).tenants = s.tenants := by simp [State.agentDrops]

@[simp] theorem State.shootAll_tenants (s : State) (vi va len wb) :
    (s.shootAll vi va len wb).tenants = s.tenants := by simp [State.shootAll]

@[simp] theorem State.mergeReaders_tenants (s : State) (vi src dst) :
    (s.mergeReaders vi src dst).tenants = s.tenants := by simp [State.mergeReaders]

@[simp] theorem State.collapse_tenants (s : State) (vi va) : (s.collapse vi va).tenants = s.tenants := by
  unfold State.collapse
  split <;> simp

@[simp] theorem State.writeAt_tenants (s : State) (vi va) : (s.writeAt vi va).2.tenants = s.tenants := by
  unfold State.writeAt
  split <;> simp

/-! ### Pages -/

@[simp] theorem State.writeSlot_tenants (s : State) (vi slot p) : (s.writeSlot vi slot p).tenants = s.tenants := by simp [State.writeSlot]

@[simp] theorem State.setSpEntry_tenants (s : State) (b p e) : (s.setSpEntry b p e).tenants = s.tenants := by simp [State.setSpEntry]

@[simp] theorem State.updPage_tenants (s : State) (b p f) : (s.updPage b p f).tenants = s.tenants := by simp [State.updPage]

@[simp] theorem State.spRecordIn_tenants (s : State) (b pg word i int k write) :
    (s.spRecordIn b pg word i int k write).tenants = s.tenants := by simp [State.spRecordIn]

@[simp] theorem State.spRecord_tenants (s : State) (b pg word i k write) :
    (s.spRecord b pg word i k write).tenants = s.tenants := by simp [State.spRecord]

@[simp] theorem State.spRecordRemoteRead_tenants (s : State) (b pg word k) :
    (s.spRecordRemoteRead b pg word k).tenants = s.tenants := by simp [State.spRecordRemoteRead]

@[simp] theorem State.remoteRecord_keepsTenants (s : State) (b word a) (h : s.tenants = T) :
    KeepsTenants T (s.remoteRecord b word a) := by
  subst h
  unfold State.remoteRecord
  dsimp only
  split <;> simp

@[simp] theorem State.clearReads_tenants (s : State) (b i) : (s.clearReads b i).tenants = s.tenants := by simp [State.clearReads]

@[simp] theorem State.spTook_tenants (s : State) (b) : (s.spTook b).tenants = s.tenants := by simp [State.spTook]

@[simp] theorem State.noteOld_tenants (s : State) (b off n) : (s.noteOld b off n).tenants = s.tenants := by simp [State.noteOld]

@[simp] theorem State.dirtyPage_tenants (s : State) (b p) : (s.dirtyPage b p).tenants = s.tenants := by simp [State.dirtyPage]

@[simp] theorem State.spWriteBytes_tenants (s : State) (b off bs) :
    (s.spWriteBytes b off bs).tenants = s.tenants := by simp [State.spWriteBytes]

@[simp] theorem State.evictFrame_tenants (s : State) (c f) : (s.evictFrame c f).tenants = s.tenants := by
  unfold State.evictFrame
  split <;> simp

@[simp] theorem State.victim_tenants (s : State) (c b fuel h) : (s.victim c b fuel h).2.tenants = s.tenants := by
  induction fuel generalizing s h with
  | zero => rfl
  | succ fuel ih =>
    unfold State.victim
    split
    · exact ih s _
    · simp [ih]

@[simp] theorem State.openW63_tenants (s : State) (b) : (s.openW63 b).tenants = s.tenants := by simp [State.openW63]

-- The kernel compares nested matches by evaluating the list of the 65 lines of a window, which is deep.
set_option maxRecDepth 4000 in
@[simp] theorem State.fillWindow_keepsTenants (s : State) (b p) (h : s.tenants = T) :
    Eng.KeepsTenants Prod.fst T (s.fillWindow b p) := by
  subst h
  unfold State.fillWindow
  dsimp only
  split
  · simp
  · split
    · simp
    · split <;> simp

@[simp] theorem State.service_keepsTenants (s : State) (b p) (h : s.tenants = T) :
    Eng.KeepsTenants id T (s.service b p) := by
  subst h
  unfold State.service
  dsimp only
  split
  · simp
  · split
    · simp
    · next u f hr =>
      have hu : u.tenants = s.tenants := by
        revert hr
        split
        · rintro ⟨⟩; rfl
        · split
          · next hv => rintro ⟨⟩; simp [tenants_of_snd hv]
          · simp
      split
      · simp
      · next v q hc =>
        have hv : v.tenants = s.tenants := by
          revert hc
          split
          · rintro ⟨⟩; simp [hu]
          · split
            · exact u.fillWindow_keepsTenants b p hu _
            · rintro ⟨⟩; exact hu
        split <;> simp [hv]

@[simp] theorem State.evictBlock_tenants (s : State) (b) : (s.evictBlock b).tenants = s.tenants := by simp [State.evictBlock]

@[simp] theorem State.freePages_tenants (s : State) (b) : (s.freePages b).tenants = s.tenants := by simp [State.freePages]

/-! ### Order of accesses -/

@[simp] theorem State.releaseStaged_tenants (s : State) (li) : (s.releaseStaged li).tenants = s.tenants := by simp [State.releaseStaged]

@[simp] theorem State.storeVa_tenants (s : State) (vi va bs) : (s.storeVa vi va bs).tenants = s.tenants := by
  refine tenants_foldl _ _ (fun s x => ?_) s
  split <;> next h => simp [tenants_of_snd h]

@[simp] theorem State.storeDw_tenants (s : State) (vi va x) : (s.storeDw vi va x).tenants = s.tenants := by simp [State.storeDw]

@[simp] theorem State.atomAt_tenants (s : State) (pa op t b c) : (s.atomAt pa op t b c).2.tenants = s.tenants := by simp [State.atomAt]

@[simp] theorem State.applyUpd_tenants (s : State) (u) : (s.applyUpd u).tenants = s.tenants := by
  unfold State.applyUpd
  split <;> simp

@[simp] theorem State.writeDeferred_tenants (s : State) (li u) :
    (s.writeDeferred li u).tenants = s.tenants := by simp [State.writeDeferred]

@[simp] theorem State.arriveUpd_keepsTenants (s : State) (u) (h : s.tenants = T) : KeepsTenants T (s.arriveUpd u) := by
  simp [State.arriveUpd, h]

@[simp] theorem State.applyBelowRet_tenants (s : State) (li) : (s.applyBelowRet li).tenants = s.tenants := by simp [State.applyBelowRet]

@[simp] theorem State.applyPhase_tenants (s : State) (li) : (s.applyPhase li).tenants = s.tenants := by simp [State.applyPhase]

@[simp] theorem State.beginLog_tenants (s : State) (li h) : (s.beginLog li h).tenants = s.tenants := by simp [State.beginLog]

@[simp] theorem State.diverge_tenants (s : State) (li kind va pos exp arr) :
    (s.diverge li kind va pos exp arr).tenants = s.tenants := by simp [State.diverge]

@[simp] theorem State.noteHeld_tenants (s : State) (li va) : (s.noteHeld li va).tenants = s.tenants := by simp [State.noteHeld]

@[simp] theorem State.logPerformed_tenants (s : State) (li o) : (s.logPerformed li o).tenants = s.tenants := by
  unfold State.logPerformed
  split <;> simp

@[simp] theorem State.divergeUnless_tenants (s : State) (li va block warp) :
    (s.divergeUnless li va block warp).tenants = s.tenants := by simp [State.divergeUnless]

@[simp] theorem State.logLine_tenants (s : State) (li va pa block warp) :
    (s.logLine li va pa block warp).tenants = s.tenants := by simp [State.logLine]

@[simp] theorem State.loggedValue_tenants (s : State) (li block warp src kind ctr live) :
    (s.loggedValue li block warp src kind ctr live).2.tenants = s.tenants := by
  unfold State.loggedValue
  dsimp only
  repeat' split
  all_goals simp

@[simp] theorem State.closeLog_tenants (s : State) (li) : (s.closeLog li).tenants = s.tenants := by simp [State.closeLog]

@[simp] theorem State.openLog_tenants (s : State) (li) : (s.openLog li).tenants = s.tenants := by simp [State.openLog]

/-! ### Regions -/

@[simp] theorem State.countOp_tenants (s : State) (w k id done) : (s.countOp w k id done).tenants = s.tenants := by simp [State.countOp]

@[simp] theorem State.credit_tenants (s : State) (w k id) : (s.credit w k id).tenants = s.tenants := by simp [State.credit]

@[simp] theorem State.drain_tenants (s : State) (w) : (s.drain w).tenants = s.tenants := by
  simp [State.drain]

@[simp] theorem State.advanceParty_tenants (s : State) (p dt) : (s.advanceParty p dt).tenants = s.tenants := by simp [State.advanceParty]

@[simp] theorem State.advance_tenants (s : State) (w dt) : (s.advance w dt).tenants = s.tenants := by simp [State.advance]

@[simp] theorem State.deferStop_tenants (s : State) (w st) : (s.deferStop w st).tenants = s.tenants := by simp [State.deferStop]

@[simp] theorem State.pairStop_tenants (s : State) (p j kind sp pc addr c) : (s.pairStop p j kind sp pc addr c).tenants = s.tenants := by
  unfold State.pairStop
  repeat' split
  all_goals simp

@[simp] theorem State.dropCmds_tenants (s : State) (w cmds) : (s.dropCmds w cmds).tenants = s.tenants := by simp [State.dropCmds]

@[simp] theorem State.dropReqs_tenants (s : State) (w seq) : (s.dropReqs w seq).tenants = s.tenants := by simp [State.dropReqs]

@[simp] theorem State.discardRegion_tenants (s : State) (w ev) :
    (s.discardRegion w ev).tenants = s.tenants := by simp [State.discardRegion]

@[simp] theorem State.discardBoth_tenants (s : State) (w ev) : (s.discardBoth w ev).tenants = s.tenants := by
  unfold State.discardBoth
  dsimp only
  split <;> simp

@[simp] theorem State.updCbw_tenants (s : State) (vi va f) : (s.updCbw vi va f).tenants = s.tenants := by
  unfold State.updCbw
  split
  · rfl
  · split <;> next h => simp [tenants_of_snd h]

@[simp] theorem State.openHost_tenants (s : State) (vi) : (s.openHost vi).tenants = s.tenants := by simp [State.openHost]

@[simp] theorem State.hostMark_tenants (s : State) (vi va kind cls write pas) :
    (s.hostMark vi va kind cls write pas).tenants = s.tenants := by
  unfold State.hostMark
  dsimp only
  split <;> simp

@[simp] theorem State.hostCbw_tenants (s : State) (vi va f) : (s.hostCbw vi va f).tenants = s.tenants := by
  unfold State.hostCbw
  split
  · rfl
  · split <;> next h => simp [tenants_of_snd h]

@[simp] theorem State.flushReads_tenants (s : State) (w) : (s.flushReads w).tenants = s.tenants :=
  tenants_foldl _ _ (fun s _ => tenants_foldl _ _ (fun s _ => by simp) s) s

@[simp] theorem State.flushLine_tenants (s : State) (b pc va pa bs) : (s.flushLine b pc va pa bs).1.tenants = s.tenants := by
  unfold State.flushLine
  dsimp only
  split <;> simp

@[simp] theorem State.releaseBytes_tenants (s : State) (b pc bs) : (s.releaseBytes b pc bs).1.tenants = s.tenants := by
  refine tenants_foldl_fst _ _ (fun a x => ?_) (s, none)
  dsimp only
  split <;> simp

-- The kernel compares nested matches by evaluating the list of the 65 lines of a window, which is deep.
set_option maxRecDepth 4000 in
@[simp] theorem State.flushPage_tenants (s : State) (b pc p) : (s.flushPage b pc p).1.tenants = s.tenants := by
  unfold State.flushPage
  split
  · rfl
  · split
    · rfl
    · split
      next h => split <;> simp [tenants_of_fst h]

@[simp] theorem State.flushWindows_tenants (s : State) (b pc) : (s.flushWindows b pc).1.tenants = s.tenants := by
  unfold State.flushWindows
  extract_lets ps t r
  have hr : r.1.tenants = s.tenants := by
    rw [tenants_foldl_fst _ _ fun _ _ => by simp]
    simp [t]
  split <;> simp [hr]

@[simp] theorem State.flushStop_tenants (s : State) (w pc e) : (s.flushStop w pc e).tenants = s.tenants := by
  unfold State.flushStop
  split <;> simp

@[simp] theorem State.stage_tenants (s : State) (e) : (s.stage e).tenants = s.tenants := by simp [State.stage]

@[simp] theorem State.flushDone_tenants (s : State) (b bs) : (s.flushDone b bs).tenants = s.tenants := by
  refine tenants_foldl _ _ (fun s x => ?_) s
  split <;> simp

@[simp] theorem State.commitFlush_tenants (s : State) (w pc) : (s.commitFlush w pc).tenants = s.tenants := by simp [State.commitFlush]

@[simp] theorem State.spAtomCheck_keepsTenants (s : State) (w r a) (h : s.tenants = T) :
    KeepsTenants T ((s.spAtomCheck w r a).map Prod.snd) := by
  subst h
  unfold State.spAtomCheck
  dsimp only
  split
  · simp
  · split <;> simp

@[simp] theorem State.commitChecks_keepsTenants (s : State) (w r) (h : s.tenants = T) :
    KeepsTenants T ((s.commitChecks w r).map Prod.snd) := by
  subst h
  unfold State.commitChecks
  split
  · next x hx =>
    rcases Option.or_eq_some_iff.mp hx with hx | ⟨-, hx⟩
    · obtain ⟨a, -, ha⟩ := List.exists_of_findSome?_eq_some hx
      simpa [ha] using s.spAtomCheck_keepsTenants w r a rfl
    · obtain ⟨st, -, rfl⟩ := Option.map_eq_some_iff.mp hx
      simp
  · cases r.flush with
    | none => simp
    | some pc => cases s.flushConflict w <;> simp

/-- The state in which a request was accepted or refused. -/
def reqState : Except (Stop × State) State → State
  | .ok t => t
  | .error x => x.2

@[simp] theorem reqState_ok (t : State) : reqState (.ok t) = t := by rw [reqState]

@[simp] theorem reqState_error (x : Stop × State) : reqState (.error x) = x.2 := by rw [reqState]

@[simp] theorem State.acceptReq_tenants (s : State) (q) : (reqState (s.acceptReq q)).tenants = s.tenants := by
  unfold State.acceptReq
  extract_lets x o a remote words kind poisonStop va u
  clear_value poisonStop kind
  have hu : u.tenants = s.tenants := by simp [u]
  split
  · simp
  · split
    · simp
    · cases poisonStop with
      | some st => simp
      | none => cases q.kind <;> simp [hu]

@[simp] theorem State.markSpAtom_tenants (s : State) (w a) : (s.markSpAtom w a).tenants = s.tenants := by
  simp [State.markSpAtom]

@[simp] theorem State.changeSp_tenants (s : State) (a) : (s.changeSp a).2.tenants = s.tenants := by simp [State.changeSp]

@[simp] theorem State.applySpAtom_tenants (s : State) (w a) : (s.applySpAtom w a).2.tenants = s.tenants := by simp [State.applySpAtom]

@[simp] theorem State.commitSpAtoms_tenants (s : State) (w r) : (s.commitSpAtoms w r).tenants = s.tenants := by simp [State.commitSpAtoms]

@[simp] theorem State.commitAtoms_tenants (s : State) (w r) : (s.commitAtoms w r).tenants = s.tenants := by
  unfold State.commitAtoms
  split
  · rfl
  · refine tenants_foldl _ _ (fun s a => ?_) s
    split <;> simp

@[simp] theorem State.commitLines_tenants (s : State) (w) : (s.commitLines w).tenants = s.tenants := by simp [State.commitLines]

@[simp] theorem State.refuseCmd_tenants (s : State) (w id va) : (s.refuseCmd w id va).tenants = s.tenants := by simp [State.refuseCmd]

@[simp] theorem State.takeCmd_tenants (s : State) (w id j cbw) : (s.takeCmd w id j cbw).tenants = s.tenants := by simp [State.takeCmd]

@[simp] theorem State.handOver_tenants (s : State) (w id) : (s.handOver w id).tenants = s.tenants := by
  unfold State.handOver
  dsimp only
  split <;> simp

@[simp] theorem State.commitRecs_tenants (s : State) (w r) : (s.commitRecs w r).tenants = s.tenants := by
  refine tenants_foldl _ _ (fun s x => ?_) s
  split <;> simp

@[simp] theorem State.evictLine_tenants (s : State) (w va) : (s.evictLine w va).tenants = s.tenants := by
  unfold State.evictLine
  dsimp only
  split <;> simp

@[simp] theorem State.declare_tenants (s : State) (w) : (s.declare w).tenants = s.tenants := by simp [State.declare]

@[simp] theorem State.completeCommit_tenants (s : State) (w) : (s.completeCommit w).tenants = s.tenants := by
  unfold State.completeCommit
  repeat' split
  all_goals simp

@[simp] theorem State.sendReqs_tenants (s : State) (w) : (s.sendReqs w).tenants = s.tenants := by
  unfold State.sendReqs
  split <;> simp

@[simp] theorem State.retireRegion_tenants (s : State) (w) : (s.retireRegion w).tenants = s.tenants := by simp [State.retireRegion]

@[simp] theorem State.failOlder_tenants (s : State) (w st) : (s.failOlder w st).tenants = s.tenants := by simp [State.failOlder]

@[simp] theorem State.suspect_tenants (s : State) (core) : (s.suspect core).tenants = s.tenants := by simp [State.suspect]

@[simp] theorem State.mismatch_tenants (s : State) (core) : (s.mismatch core).tenants = s.tenants := by simp [State.mismatch]

@[simp] theorem State.mismatchDiscard_tenants (s : State) (w) :
    (s.mismatchDiscard w).tenants = s.tenants := by simp [State.mismatchDiscard]

@[simp] theorem State.compareCopies_tenants (s : State) (w) : (s.compareCopies w).tenants = s.tenants := by
  unfold State.compareCopies
  repeat' split
  all_goals simp

@[simp] theorem State.beginCommit_tenants (s : State) (w) : (s.beginCommit w).tenants = s.tenants := by
  unfold State.beginCommit
  split
  · next t h => simp [s.commitChecks_keepsTenants w _ rfl t (by rw [h]; rfl)]
  · simp

@[simp] theorem State.commitNow_tenants (s : State) (w) : (s.commitNow w).tenants = s.tenants := by simp [State.commitNow]

/-! ### Barriers -/

@[simp] theorem State.bound_tenants (s : State) (w) : (s.bound w).tenants = s.tenants := by simp [State.bound]

@[simp] theorem State.departOne_tenants (s : State) (w k) : (s.departOne w k).tenants = s.tenants := by simp [State.departOne]

@[simp] theorem State.depart_tenants (s : State) (w) : (s.depart w).tenants = s.tenants := by simp [State.depart]

@[simp] theorem State.leave_tenants (s : State) (w on lanes) : (s.leave w on lanes).tenants = s.tenants := by simp [State.leave]

@[simp] theorem State.setBar_tenants (s : State) (b n x) : (s.setBar b n x).tenants = s.tenants := by simp [State.setBar]

@[simp] theorem State.barStop_tenants (s : State) (w lanes pc) : (s.barStop w lanes pc).tenants = s.tenants := by simp [State.barStop]

@[simp] theorem State.releasePart_tenants (s : State) (a lanes on) :
    (s.releasePart a lanes on).tenants = s.tenants := by simp [State.releasePart]

@[simp] theorem State.arrive_tenants (s : State) (b n a) : (s.arrive b n a).tenants = s.tenants := by simp [State.arrive]

@[simp] theorem State.applyHeld_tenants (s : State) (b) : (s.applyHeld b).tenants = s.tenants := by simp [State.applyHeld]

@[simp] theorem State.admitBar_tenants (s : State) (b n) : (s.admitBar b n).tenants = s.tenants := by simp [State.admitBar]

@[simp] theorem State.checkBar_tenants (s : State) (b n fuel) : (s.checkBar b n fuel).tenants = s.tenants := by
  induction fuel generalizing s with
  | zero => rfl
  | succ fuel ih => simp [State.checkBar, ih]

@[simp] theorem State.arriveGang_tenants (s : State) (b a) : (s.arriveGang b a).tenants = s.tenants := by simp [State.arriveGang]

@[simp] theorem State.admitGang_tenants (s : State) (b) : (s.admitGang b).tenants = s.tenants := by simp [State.admitGang]

@[simp] theorem State.checkGbar_tenants (s : State) (b fuel) : (s.checkGbar b fuel).tenants = s.tenants := by
  induction fuel generalizing s with
  | zero => rfl
  | succ fuel ih => simp [State.checkGbar, ih]

@[simp] theorem State.arriveGbar_tenants (s : State) (w lanes pc post) :
    (s.arriveGbar w lanes pc post).tenants = s.tenants := by simp [State.arriveGbar]

@[simp] theorem State.settle_tenants (s : State) (w) : (s.settle w).tenants = s.tenants := by simp [State.settle]

@[simp] theorem State.unhand_tenants (s : State) (w id released) : (s.unhand w id released).tenants = s.tenants := by simp [State.unhand]

@[simp] theorem State.afterExit_tenants (s : State) (w) : (s.afterExit w).tenants = s.tenants := by simp [State.afterExit]

/-! ### Flags -/

@[simp] theorem State.addFlags_tenants (s : State) (x vec fl) : (s.addFlags x vec fl).tenants = s.tenants := by simp [State.addFlags]

/-! ### Stops and words -/

@[simp] theorem State.withIssue_keepsTenants (s : State) (f) (hf : ∀ x, Out.KeepsTenants T (f x)) :
    Out.KeepsTenants T (s.withIssue f) := by
  unfold State.withIssue
  split
  · exact hf _
  · simp

@[simp] theorem State.failLaunch_tenants (s : State) (l cause) : (s.failLaunch l cause).tenants = s.tenants := by simp [State.failLaunch]

@[simp] theorem State.dropStaged_tenants (s : State) (w) : (s.dropStaged w).tenants = s.tenants := by
  unfold State.dropStaged
  split <;> simp

@[simp] theorem State.emitStop_tenants (s : State) (w st pc frame) :
    (s.emitStop w st pc frame).tenants = s.tenants := by simp [State.emitStop]

@[simp] theorem State.unresolved_tenants (s : State) (w st) : (s.unresolved w st).tenants = s.tenants := by simp [State.unresolved]

@[simp] theorem State.trapStore_tenants (s : State) (w off bs) : (s.trapStore w off bs).tenants = s.tenants := by simp [State.trapStore]

@[simp] theorem State.tellStop_tenants (s : State) (w st) : (s.tellStop w st).tenants = s.tenants := by simp [State.tellStop]

@[simp] theorem State.endUnresolved_tenants (s : State) (w st) :
    (s.endUnresolved w st).tenants = s.tenants := by simp [State.endUnresolved]

@[simp] theorem State.deliver_tenants (s : State) (w st) : (s.deliver w st).tenants = s.tenants := by
  unfold State.deliver
  dsimp only
  split
  · split <;> simp
  · split
    · simp
    · split
      · simp
      · next t ht =>
        have hu : t.tenants = s.tenants := s.service_keepsTenants _ _ rfl t ht
        simp [hu]

@[simp] theorem State.deliverStop_tenants (s : State) (w) : (s.deliverStop w).tenants = s.tenants := by
  unfold State.deliverStop
  dsimp only
  split <;> simp

@[simp] theorem State.takeStop_tenants (s : State) (w st) : (s.takeStop w st).tenants = s.tenants := by simp [State.takeStop]

@[simp] theorem State.deliverDeferred_tenants (s : State) (w pc lanes) : (s.deliverDeferred w pc lanes).tenants = s.tenants := by
  unfold State.deliverDeferred
  split <;> simp

@[simp] theorem State.nextStop_tenants (s : State) (w) : (s.nextStop w).tenants = s.tenants := by
  unfold State.nextStop
  split <;> simp

@[simp] theorem State.leaveTrap_tenants (s : State) (w rpc) : (s.leaveTrap w rpc).tenants = s.tenants := by
  unfold State.leaveTrap
  dsimp only
  repeat' split
  all_goals simp

@[simp] theorem State.park_tenants (s : State) (w reads ns) : (s.park w reads ns).tenants = s.tenants := by simp [State.park]

@[simp] theorem State.stallAt_tenants (s : State) (w reason) : (s.stallAt w reason).tenants = s.tenants := by simp [State.stallAt]

@[simp] theorem State.split_tenants (s : State) (w ev) : (s.split w ev).tenants = s.tenants := by simp [State.split]

@[simp] theorem State.begin_tenants (s : State) (w) : (s.begin_ w).tenants = s.tenants := by simp [State.begin_]

/-- The state in which the checks before a word end. -/
def Adm.state : Adm → State
  | .hold s => s
  | .go s => s

@[simp] theorem Adm.state_hold (t : State) : (Adm.hold t).state = t := by rw [Adm.state]

@[simp] theorem Adm.state_go (t : State) : (Adm.go t).state = t := by rw [Adm.state]

@[simp] theorem State.enter_tenants (s : State) (x f) : (s.enter x f).state.tenants = s.tenants := by
  unfold State.enter
  dsimp only
  repeat' split
  all_goals simp

theorem State.enter_hold {s t : State} {x f} (h : s.enter x f = .hold t) : t.tenants = s.tenants := by
  rw [← s.enter_tenants x f, h, Adm.state_hold]

theorem State.enter_go {s t : State} {x f} (h : s.enter x f = .go t) : t.tenants = s.tenants := by
  rw [← s.enter_tenants x f, h, Adm.state_go]

@[simp] theorem State.stepStop_tenants (s : State) (x stepping) : (s.stepStop x stepping).tenants = s.tenants := by
  unfold State.stepStop
  dsimp only
  repeat' split
  all_goals simp

@[simp] theorem State.issueCounts_tenants (s : State) (x) : (s.issueCounts x).tenants = s.tenants := by simp [State.issueCounts]

@[simp] theorem State.finish_tenants (s : State) (x f full moves bound) :
    (s.finish x f full moves bound).tenants = s.tenants := by simp [State.finish]

@[simp] theorem State.finishClosed_tenants (s : State) (x moves) :
    (s.finishClosed x moves).tenants = s.tenants := by simp [State.finishClosed]

@[simp] theorem State.perform_keepsTenants (s : State) (x adv act) (h : s.tenants = T)
    (ha : ∀ t, Out.KeepsTenants t.tenants (act t)) : Out.KeepsTenants T (s.perform x adv act) := by
  subst h
  unfold State.perform
  dsimp only
  split
  · simp
  · split
    · simp
    · simpa using ha (s.updWarp x.w fun y => { y with hold := .none })

@[simp] theorem State.countDone_tenants (s : State) (w k) : (s.countDone w k).tenants = s.tenants := by simp [State.countDone]

@[simp] theorem State.countSync_tenants (s : State) (w k) : (s.countSync w k).tenants = s.tenants := by simp [State.countSync]

@[simp] theorem State.creditSync_tenants (s : State) (w k) : (s.creditSync w k).tenants = s.tenants := by
  unfold State.creditSync
  split <;> simp

/-- The state in which a check ends. -/
def Found.state : Found → State
  | .clear s => s
  | .stop _ s => s
  | .park _ s => s
  | .wait _ s => s

@[simp] theorem Found.state_clear (t : State) : (Found.clear t).state = t := by rw [Found.state]

@[simp] theorem Found.state_stop (st t) : (Found.stop st t).state = t := by rw [Found.state]

@[simp] theorem Found.state_park (ns t) : (Found.park ns t).state = t := by rw [Found.state]

@[simp] theorem Found.state_wait (r t) : (Found.wait r t).state = t := by rw [Found.state]

@[simp] theorem Found.state_ite (c : Prop) [Decidable c] (a b : Found) :
    (if c then a else b).state = if c then a.state else b.state := by split <;> rfl

/-- A word that the checks before it let through keeps the configurations where its effect does. -/
theorem State.entered_keepsTenants {s : State} {x f} {act : State → Out} (h : s.tenants = T)
    (ha : ∀ t, t.tenants = T → Out.KeepsTenants T (act t)) :
    Out.KeepsTenants T (match s.enter x f with | .hold s => ok s | .go s => act s) := by
  split
  · next t ht => simp [State.enter_hold ht, h]
  · next t ht => exact ha t ((State.enter_go ht).trans h)

@[simp] theorem State.closingCounted_keepsTenants (s : State) (x f adv cnt check act) (h : s.tenants = T)
    (hc : ∀ t, (check t).state.tenants = t.tenants) (ha : ∀ t, Out.KeepsTenants t.tenants (act t)) :
    Out.KeepsTenants T (s.closingCounted x f adv cnt check act) := by
  unfold State.closingCounted
  split
  · simp [h, ha]
  · split
    · exact h ▸ ha s
    · simp [h]
  · refine State.entered_keepsTenants h fun t ht => ?_
    have hu : (check t).state.tenants = T := (hc t).trans ht
    cases hr : check t <;> rw [hr] at hu
    case clear u => cases cnt <;> simp_all
    all_goals simp_all

@[simp] theorem State.closing_keepsTenants (s : State) (x f adv check act) (h : s.tenants = T)
    (hc : ∀ t, (check t).state.tenants = t.tenants) (ha : ∀ t, Out.KeepsTenants t.tenants (act t)) :
    Out.KeepsTenants T (s.closing x f adv check act) := s.closingCounted_keepsTenants x f adv none check act h hc ha

@[simp] theorem noCheck_tenants (s : State) : (noCheck s).state.tenants = s.tenants := by
  simp [noCheck]

/-- A word at issue that the checks before it let through. -/
theorem State.word_keepsTenants {s : State} {f : Issue → Foot} {act : Issue → State → Out} (h : s.tenants = T)
    (ha : ∀ x t, t.tenants = T → Out.KeepsTenants T (act x t)) :
    Out.KeepsTenants T (s.withIssue fun x => match s.enter x (f x) with | .hold s => ok s | .go s => act x s) :=
  s.withIssue_keepsTenants _ fun x => State.entered_keepsTenants h (ha x)

@[simp] theorem State.pend_tenants (s : State) (x f r ready counts) :
    (s.pend x f r ready counts).tenants = s.tenants := by simp [State.pend]

@[simp] theorem State.deposit_tenants (s : State) (x f vec r) : (s.deposit x f vec r).tenants = s.tenants := by
  unfold State.deposit
  split <;> simp

/-! ### Words of one lane -/

@[simp] theorem State.alu_keepsTenants (s : State) (k f) (h : s.tenants = T) : Out.KeepsTenants T (s.alu k f) :=
  State.word_keepsTenants h fun x t ht => by simp [ht]

/-! ### Acceptance of launches -/

@[simp] theorem State.accept_tenants (s : State) (vi q rcd) : (s.accept vi q rcd).2.tenants = s.tenants := by
  unfold State.accept
  dsimp only
  split <;> simp

/-! ### Conversions -/

@[simp] theorem execCvtmx_keepsTenants (g d sc a el k) (s : State) (h : s.tenants = T) :
    Out.KeepsTenants T (execCvtmx g d sc a el k s) :=
  State.word_keepsTenants h fun x t ht => by split <;> simp [ht]

@[simp] theorem execCvtmxAcc_keepsTenants (g a) (s : State) (h : s.tenants = T) : Out.KeepsTenants T (execCvtmxAcc g a s) :=
  State.word_keepsTenants h fun x t ht => by simp [ht]

@[simp] theorem execCvtmxRep_keepsTenants (g d el k) (s : State) (h : s.tenants = T) : Out.KeepsTenants T (execCvtmxRep g d el k s) := by
  refine State.word_keepsTenants h fun x t ht => ?_
  dsimp only
  split <;> simp [ht]

@[simp] theorem execCvtmxClr_keepsTenants (g) (s : State) (h : s.tenants = T) : Out.KeepsTenants T (execCvtmxClr g s) :=
  State.word_keepsTenants h fun x t ht => by simp [ht]

@[simp] theorem execPairWord_keepsTenants (y z) (s : State) (h : s.tenants = T) : Out.KeepsTenants T (execPairWord y z s) :=
  State.word_keepsTenants h fun x t ht => by simp [ht]

/-! ### Words across lanes -/

@[simp] theorem State.cross_keepsTenants (s : State) (k f) (h : s.tenants = T) : Out.KeepsTenants T (s.cross k f) :=
  State.word_keepsTenants h fun x t ht => by simp [ht]

@[simp] theorem execPart_keepsTenants (g w) (s : State) (h : s.tenants = T) : Out.KeepsTenants T (execPart g w s) :=
  State.word_keepsTenants h fun x t ht => by simp [ht]

/-! ### Looks and turnstiles -/

@[simp] theorem State.lookGlobal_tenants (s : State) (w y va n u sysOk) :
    (s.lookGlobal w y va n u sysOk).2.tenants = s.tenants := by simp [State.lookGlobal]

@[simp] theorem State.lookAll_tenants (s : State) (xs f) (hf : ∀ s y, (f s y).2.tenants = s.tenants) :
    (s.lookAll xs f).2.tenants = s.tenants :=
  tenants_foldl_snd _ xs (fun a y => by simp [hf]) ([], s)

@[simp] theorem State.afterEvict_keepsTenants (s : State) (w lines) (h : s.tenants = T) : KeepsTenants T (s.afterEvict w lines) := by
  simp [State.afterEvict, h]

@[simp] theorem State.race_tenants (s : State) (x h kind k write sp rpc) : (s.race x h kind k write sp rpc).2.tenants = s.tenants := by
  unfold State.race
  split <;> simp

@[simp] theorem State.raceStop_tenants (s : State) (x vec h kind k write sp) :
    (s.raceStop x vec h kind k write sp).2.tenants = s.tenants := by simp [State.raceStop]

@[simp] theorem State.raceAlone_tenants (s : State) (x vec h kind k write sp) :
    (s.raceAlone x vec h kind k write sp).2.tenants = s.tenants := by simp [State.raceAlone]

@[simp] theorem State.stageAccess_tenants (s : State) (x i cls vas words released) :
    (s.stageAccess x i cls vas words released).tenants = s.tenants := by simp [State.stageAccess]

@[simp] theorem State.divergeAt_tenants (s : State) (x vas) : (s.divergeAt x vas).tenants = s.tenants := by
  unfold State.divergeAt
  dsimp only
  split <;> simp

/-- The state in which an access is ordered. -/
def Turnstile.state : Turnstile → State
  | .go s => s
  | .held s => s

@[simp] theorem Turnstile.state_go (t : State) : (Turnstile.go t).state = t := by rw [Turnstile.state]

@[simp] theorem Turnstile.state_held (t : State) : (Turnstile.held t).state = t := by rw [Turnstile.state]

@[simp] theorem Turnstile.state_ite (c : Prop) [Decidable c] (a b : Turnstile) :
    (if c then a else b).state = if c then a.state else b.state := by split <;> rfl

@[simp] theorem State.turnstile_tenants (s : State) (x i cls far vas words) :
    (s.turnstile x i cls far vas words).state.tenants = s.tenants := by
  unfold State.turnstile
  dsimp only
  split
  · split <;> simp
  · cases s.replayGate x vas <;> simp

theorem State.turnstile_go {s t : State} {x i cls far vas words} (h : s.turnstile x i cls far vas words = .go t) :
    t.tenants = s.tenants := by
  rw [← s.turnstile_tenants x i cls far vas words, h, Turnstile.state_go]

theorem State.turnstile_held {s t : State} {x i cls far vas words} (h : s.turnstile x i cls far vas words = .held t) :
    t.tenants = s.tenants := by
  rw [← s.turnstile_tenants x i cls far vas words, h, Turnstile.state_held]

/-- An access that its order lets through keeps the configurations where its effect does. -/
theorem State.ordered_keepsTenants {s : State} {x i cls far vas words} {act : State → Out} (h : s.tenants = T)
    (ha : ∀ t, t.tenants = T → Out.KeepsTenants T (act t)) :
    Out.KeepsTenants T (match s.turnstile x i cls far vas words with | .held s => ok s | .go s => act s) := by
  split
  · next t ht => simp [State.turnstile_held ht, h]
  · next t ht => exact ha t ((State.turnstile_go ht).trans h)

@[simp] theorem State.logSync_tenants (s : State) (w xs) : (s.logSync w xs).tenants = s.tenants := by simp [State.logSync]

@[simp] theorem State.forward_tenants (s : State) (w ws) : (s.forward w ws).tenants = s.tenants := by
  unfold State.forward
  repeat' split
  all_goals simp

@[simp] theorem State.takeForwarded_keepsTenants (s : State) (w) (h : s.tenants = T) : KeepsTenants T (s.takeForwarded w) := by
  subst h
  unfold State.takeForwarded
  split <;> simp

@[simp] theorem State.secondaryTakes_keepsTenants (s : State) (x after) (h : s.tenants = T)
    (hf : ∀ t, (after t).tenants = t.tenants) : Out.KeepsTenants T (s.secondaryTakes x after) := by
  unfold State.secondaryTakes
  split
  · next t ht => simp [hf, s.takeForwarded_keepsTenants _ h t ht]
  · simp [h]

@[simp] theorem State.sign_tenants (s : State) (w xs) : (s.sign w xs).tenants = s.tenants := by simp [State.sign]

/-- The state in which a load's checks and reads end. -/
def Loaded.state : Loaded → State
  | .stop _ s => s
  | .park _ s => s
  | .wait _ s => s
  | .got _ s => s

@[simp] theorem Loaded.state_stop (st t) : (Loaded.stop st t).state = t := by rw [Loaded.state]

@[simp] theorem Loaded.state_park (ns t) : (Loaded.park ns t).state = t := by rw [Loaded.state]

@[simp] theorem Loaded.state_wait (r t) : (Loaded.wait r t).state = t := by rw [Loaded.state]

@[simp] theorem Loaded.state_got (r t) : (Loaded.got r t).state = t := by rw [Loaded.state]

@[simp] theorem Loaded.state_ite (c : Prop) [Decidable c] (a b : Loaded) :
    (if c then a else b).state = if c then a.state else b.state := by split <;> rfl

/-! ### Loads and stores -/

@[simp] theorem State.loadWord_keepsTenants (s : State) (f run) (h : s.tenants = T)
    (hr : ∀ t x, (run t x).state.tenants = t.tenants) : Out.KeepsTenants T (s.loadWord f run) := by
  refine State.word_keepsTenants h fun x t ht => ?_
  have hu : (run t x).state.tenants = T := (hr t x).trans ht
  split
  · simp [ht]
  · cases hl : run t x <;> rw [hl] at hu <;> simp_all

@[simp] theorem State.constEffects_tenants (s : State) (w n as) :
    (s.constEffects w n as).tenants = s.tenants := by simp [State.constEffects]

@[simp] theorem State.globalLoad_tenants (s : State) (x k) : (s.globalLoad x k).state.tenants = s.tenants := by
  unfold State.globalLoad
  dsimp only
  split
  · simp
  · simp
  · split
    · next t ht => simp [State.afterEvict_keepsTenants _ _ _ rfl t ht]
    · split <;> simp

@[simp] theorem State.storeLane_tenants (s : State) (x vec ovf nt a bs) :
    (s.storeLane x vec ovf nt a bs).tenants = s.tenants := by simp [State.storeLane]

@[simp] theorem State.storeAll_tenants (s : State) (x vec d z nt ovf as) : (s.storeAll x vec d z nt ovf as).tenants = s.tenants := by
  unfold State.storeAll
  dsimp only
  rw [tenants_foldl _ _ fun s a => by split <;> simp]
  simp

@[simp] theorem State.storeChecked_keepsTenants (s : State) (x f vec d z nt as) (h : s.tenants = T) :
    Out.KeepsTenants T (s.storeChecked x f vec d z nt as) := by
  subst h
  unfold State.storeChecked
  dsimp only
  split
  · simp
  · split
    · next t ht => simp [s.afterEvict_keepsTenants _ _ rfl t ht]
    · simp

@[simp] theorem execSt_keepsTenants (g d base off size hint) (s : State) (h : s.tenants = T) :
    Out.KeepsTenants T (execSt g d base off size hint s) := by
  refine State.word_keepsTenants h fun x t ht => ?_
  dsimp only
  split
  · simp [ht]
  · split <;> simp [ht]

@[simp] theorem State.holdClosing_keepsTenants (s : State) (x reason) (h : s.tenants = T) :
    Out.KeepsTenants T (s.holdClosing x reason) := by
  subst h
  unfold State.holdClosing
  split <;> simp

@[simp] theorem State.redone_keepsTenants (s : State) (x c) (h : s.tenants = T) : Out.KeepsTenants T (s.redone x c) := by
  unfold State.redone
  split
  · simp [h]
  · split <;> simp [h]
  · simp [h]

@[simp] theorem State.endSync_tenants (s : State) (x k performed) :
    (s.endSync x k performed).tenants = s.tenants := by simp [State.endSync]

@[simp] theorem State.foundLooks_tenants (s : State) (x vec looks) : (s.foundLooks x vec looks).state.tenants = s.tenants := by
  unfold State.foundLooks
  split <;> simp

@[simp] theorem State.syncLooks_tenants (s : State) (x g vec base off n u) :
    (s.syncLooks x g vec base off n u).2.2.tenants = s.tenants := by
  simp [State.syncLooks]

@[simp] theorem State.acquire_keepsTenants (s : State) (x i busy vec d n ls live helped) (h : s.tenants = T) :
    Out.KeepsTenants T (s.acquire x i busy vec d n ls live helped) := by
  unfold State.acquire
  dsimp only
  split
  · simp [h]
  · split
    · simp [h]
    · refine State.ordered_keepsTenants h fun t ht => ?_
      split
      · simp [ht]
      · split <;> simp [ht]

@[simp] theorem execLdAcq_keepsTenants (g d base off w64 scope) (s : State) (h : s.tenants = T) :
    Out.KeepsTenants T (execLdAcq g d base off w64 scope s) := by
  refine s.withIssue_keepsTenants _ fun x => State.closingCounted_keepsTenants _ _ _ _ _ _ _ h (fun t => by simp) fun t => ?_
  dsimp only
  split
  · simp
  · split <;> simp

@[simp] theorem State.release_keepsTenants (s : State) (x i busy vec d z live) (h : s.tenants = T) :
    Out.KeepsTenants T (s.release x i busy vec d z live) := by
  unfold State.release
  dsimp only
  split
  · simp [h]
  · split
    · simp [h]
    · refine State.ordered_keepsTenants h fun t ht => ?_
      split <;> simp [ht]

@[simp] theorem execStRel_keepsTenants (g d base off w64 scope) (s : State) (h : s.tenants = T) :
    Out.KeepsTenants T (execStRel g d base off w64 scope s) := by
  refine s.withIssue_keepsTenants _ fun x => State.closingCounted_keepsTenants _ _ _ _ _ _ _ h (fun t => ?_) fun t => ?_
  · dsimp only
    split <;> simp
  · dsimp only
    split
    · simp
    · split <;> simp

@[simp] theorem State.reference_tenants (s : State) (b p) : (s.reference b p).tenants = s.tenants := by simp [State.reference]

@[simp] theorem State.spMarkRead_tenants (s : State) (w b o k) : (s.spMarkRead w b o k).tenants = s.tenants := by simp [State.spMarkRead]

@[simp] theorem State.spMarkWrite_keepsTenants (s : State) (w b o k) (h : s.tenants = T) : KeepsTenants T (s.spMarkWrite w b o k) := by
  simp [State.spMarkWrite, h]

@[simp] theorem State.spTookAll_tenants (s : State) (as) : (s.spTookAll as).tenants = s.tenants := by simp [State.spTookAll]

@[simp] theorem State.spLoad_tenants (s : State) (x k) : (s.spLoad x k).state.tenants = s.tenants := by
  unfold State.spLoad
  dsimp only
  split
  · simp
  · simp
  · split
    · simp
    · split <;> simp

@[simp] theorem State.spStoreBytes_keepsTenants (s : State) (x z c a bs) (h : s.tenants = T) :
    KeepsTenants T (s.spStoreBytes x z c a bs) := by
  unfold State.spStoreBytes
  dsimp only
  split
  · simp [h]
  · refine keepsTenants_map T _ _ (keepsTenants_foldl _ _ (fun t o => by simp) _ (by simp [h])) fun t => by simp

@[simp] theorem State.spStoreGo_keepsTenants (s : State) (x vec n c all store fin) (h : s.tenants = T)
    (hs : ∀ t, KeepsTenants t.tenants (store t)) (hf : ∀ t, (fin t).tenants = t.tenants) :
    Out.KeepsTenants T (s.spStoreGo x vec n c all store fin) := by
  subst h
  refine Out.KeepsTenants.ite (by simp) (Out.KeepsTenants.ite (by simp) ?_)
  split
  · simp
  · split
    · simp
    · next t ht => simp [hf, hs s t ht]

@[simp] theorem State.spStore_keepsTenants (s : State) (g d base off rmt z cnt) (h : s.tenants = T) :
    Out.KeepsTenants T (s.spStore g d base off rmt z cnt) := by
  refine State.word_keepsTenants h fun x t ht => ?_
  dsimp only
  split
  · simp [ht]
  · split
    · simp [ht]
    · simp [ht]
    · exact State.spStoreGo_keepsTenants _ _ _ _ _ _ _ _ ht
        (fun t => keepsTenants_foldl _ _ (fun t a => by simp) _ (by simp)) fun t => by simp

@[simp] theorem State.pin_tenants (s : State) (w as) : (s.pin w as).tenants = s.tenants := by simp [State.pin]

@[simp] theorem execLdspAcq_keepsTenants (g d base off w64) (s : State) (h : s.tenants = T) :
    Out.KeepsTenants T (execLdspAcq g d base off w64 s) := by
  refine s.withIssue_keepsTenants _ fun x => State.closingCounted_keepsTenants _ _ _ _ _ _ _ h (fun t => by simp) fun t => ?_
  dsimp only
  split
  · split
    · simp
    · split <;> simp
  · simp

@[simp] theorem execStspRel_keepsTenants (g d base off w64) (s : State) (h : s.tenants = T) :
    Out.KeepsTenants T (execStspRel g d base off w64 s) := by
  refine s.withIssue_keepsTenants _ fun x => State.closingCounted_keepsTenants _ _ _ _ _ _ _ h (fun t => ?_) fun t => ?_
  · dsimp only
    split <;> simp
  · dsimp only
    split
    · split
      · simp
      · split <;> simp
    · simp

@[simp] theorem State.prefLines_tenants (s : State) (x base off ls) : (s.prefLines x base off ls).2.tenants = s.tenants := by
  refine tenants_foldl_snd _ ls (fun a y => ?_) ([], s)
  dsimp only
  split <;> simp

@[simp] theorem State.prefetch_keepsTenants (s : State) (g base off helpers fetch f) (h : s.tenants = T)
    (hf : ∀ t x ys, (f t x ys).tenants = t.tenants) : Out.KeepsTenants T (s.prefetch g base off helpers fetch f) := by
  refine State.word_keepsTenants h fun x t ht => ?_
  subst ht
  dsimp only
  split
  · simp
  · split
    · next u hu => simp [State.afterEvict_keepsTenants _ _ _ rfl u hu]
    · simp [hf]

@[simp] theorem execSpmapFlush_keepsTenants (g) (s : State) (h : s.tenants = T) : Out.KeepsTenants T (execSpmapFlush g s) := by
  refine State.word_keepsTenants h fun x t ht => ?_
  subst ht; repeat' split
  all_goals simp

@[simp] theorem State.scalarWord_keepsTenants (s : State) (g d n reads val) (h : s.tenants = T)
    (hv : ∀ t x, (val t x).2.tenants = t.tenants) : Out.KeepsTenants T (s.scalarWord g d n reads val) :=
  State.word_keepsTenants h fun x t ht => by simp [hv, ht]

@[simp] theorem State.bind_tenants (s : State) (vi h a n p) : (s.bind vi h a n p).2.tenants = s.tenants := by simp [State.bind]

@[simp] theorem State.residWord_keepsTenants (s : State) (g d reads run) (h : s.tenants = T)
    (hr : ∀ t x, (run t x).2.tenants = t.tenants) : Out.KeepsTenants T (s.residWord g d reads run) := by
  refine State.word_keepsTenants h fun x t ht => Out.KeepsTenants.ite (by simp [ht]) (Out.KeepsTenants.ite ?_ (by simp [hr, ht]))
  split
  · simp [ht]
  · next u hu => simp [t.takeForwarded_keepsTenants _ ht u hu]

/-! ### Control -/

@[simp] theorem State.plainWord_keepsTenants (s : State) (f run) (h : s.tenants = T)
    (hr : ∀ t x, Out.KeepsTenants t.tenants (run t x)) : Out.KeepsTenants T (s.plainWord f run) :=
  State.word_keepsTenants h fun x t ht => ht ▸ hr t x

@[simp] theorem State.branchTaken_tenants (s : State) (x m) : (s.branchTaken x m).tenants = s.tenants := by simp [State.branchTaken]

@[simp] theorem State.branch_keepsTenants (s : State) (g off lanes) (h : s.tenants = T) :
    Out.KeepsTenants T (s.branch g off lanes) :=
  State.word_keepsTenants h fun x t ht => by simp [ht]

@[simp] theorem State.indirect_keepsTenants (s : State) (g a) (h : s.tenants = T) : Out.KeepsTenants T (s.indirect g a) := by
  refine State.word_keepsTenants h fun x t ht => ?_
  dsimp only
  split <;> simp [ht]

@[simp] theorem State.exitLanes_tenants (s : State) (w lanes) : (s.exitLanes w lanes).tenants = s.tenants := by simp [State.exitLanes]

@[simp] theorem State.invalidate_tenants (s : State) (w e) : (s.invalidate w e).tenants = s.tenants := by simp [State.invalidate]

/-- The state in which the performance of a replay entry ends. -/
def Injected.state : Injected → State
  | .done s => s
  | .wait _ s => s
  | .stop _ s => s

@[simp] theorem Injected.state_done (t : State) : (Injected.done t).state = t := by rw [Injected.state]

@[simp] theorem Injected.state_wait (r t) : (Injected.wait r t).state = t := by rw [Injected.state]

@[simp] theorem Injected.state_stop (st t) : (Injected.stop st t).state = t := by rw [Injected.state]

@[simp] theorem Injected.state_ite (c : Prop) [Decidable c] (a b : Injected) :
    (if c then a else b).state = if c then a.state else b.state := by split <;> rfl

@[simp] theorem State.injectNeeds_tenants (s : State) (x ns) : (s.injectNeeds x ns).state.tenants = s.tenants := by
  unfold State.injectNeeds
  split <;> simp

/-- A word that the replay queue admits, as a load that it comes to. -/
theorem State.injected_tenants (s : State) (x i) : ∀ y ∈ s.injected x i, (y.2.2.2 ()).state.tenants = s.tenants := by
  unfold State.injected
  dsimp only
  split
  case h_27 => intro y hy; obtain ⟨z, -, rfl⟩ := Option.mem_map.mp hy; simp
  case h_28 => split <;> simp
  all_goals simp

@[simp] theorem State.reinject_tenants (s : State) (w e) : (s.reinject w e).state.tenants = s.tenants := by
  unfold State.reinject
  dsimp only
  split
  · simp
  · next i _ =>
    split
    · simp
    · next f counts vec run hr =>
      have hu : (run ()).state.tenants = s.tenants := s.injected_tenants _ i _ hr
      split
      · simp
      · split
        · simp
        · cases hl : run () <;> rw [hl] at hu
          case got => dsimp only; split <;> simp_all
          all_goals simp_all

@[simp] theorem execRinj_keepsTenants (g d e) (s : State) (h : s.tenants = T) : Out.KeepsTenants T (execRinj g d e s) := by
  refine State.word_keepsTenants h fun x t ht => ?_
  subst ht
  dsimp only
  split
  · simp
  · split
    · simp
    · have hu := t.reinject_tenants x.w e.val
      cases hr : t.reinject x.w e.val <;> rw [hr] at hu <;> simp_all

@[simp] theorem State.restop_tenants (s : State) (w e st) : (s.restop w e st).tenants = s.tenants := by simp [State.restop]

@[simp] theorem State.reinjectAll_tenants (s : State) (w es) : (s.reinjectAll w es).1.state.tenants = s.tenants := by
  induction es generalizing s with
  | nil => simp [State.reinjectAll]
  | cons e r ih =>
    have hu := s.reinject_tenants w e
    unfold State.reinjectAll
    split
    · exact ih s
    · cases hr : s.reinject w e <;> rw [hr] at hu <;> simp_all

@[simp] theorem execTrapret_keepsTenants (g) (s : State) (h : s.tenants = T) : Out.KeepsTenants T (execTrapret g s) := by
  refine s.withIssue_keepsTenants _ fun x => State.closing_keepsTenants _ _ _ _ _ _ h noCheck_tenants fun t => ?_
  refine Out.KeepsTenants.ite (by simp) ?_
  have hu := t.reinjectAll_tenants x.w (List.range 8)
  split <;> next hr => rw [hr] at hu; simp_all

@[simp] theorem State.clk_keepsTenants (s : State) (g d kind) (h : s.tenants = T) :
    Out.KeepsTenants T (s.clk g d kind) := by
  refine s.withIssue_keepsTenants _ fun x => State.closing_keepsTenants _ _ _ _ _ _ h noCheck_tenants fun t => ?_
  simp

@[simp] theorem State.rngWord_keepsTenants (s : State) (g d n st k val) (h : s.tenants = T) :
    Out.KeepsTenants T (s.rngWord g d n st k val) := by
  simp [State.rngWord, h]

@[simp] theorem execPerfRd_keepsTenants (g d n) (s : State) (h : s.tenants = T) :
    Out.KeepsTenants T (execPerfRd g d n s) := by
  refine State.word_keepsTenants h fun x t ht => Out.KeepsTenants.ite (by simp [ht]) (Out.KeepsTenants.ite ?_ (by simp [ht]))
  split
  · simp [ht]
  · next u hu => simp [t.takeForwarded_keepsTenants _ ht u hu]

@[simp] theorem State.lnchLook_tenants (s : State) (x a) : (s.lnchLook x a).2.tenants = s.tenants :=
  tenants_foldl_snd _ _ (fun a k => by simp) ([], s)

@[simp] theorem State.lnchEnd_keepsTenants (s : State) (x d n) (h : s.tenants = T) : Out.KeepsTenants T (s.lnchEnd x d n) := by
  simp [State.lnchEnd, h]

@[simp] theorem State.submit_keepsTenants (s : State) (x i d q ys) (h : s.tenants = T) :
    Out.KeepsTenants T (s.submit x i d q ys) := by
  refine Out.KeepsTenants.ite (by simp [h]) (State.ordered_keepsTenants h fun t ht => Out.KeepsTenants.ite (by simp [ht]) ?_)
  dsimp only
  split <;> simp [ht]

@[simp] theorem execLnch_keepsTenants (g d a q) (s : State) (h : s.tenants = T) :
    Out.KeepsTenants T (execLnch g d a q s) := by
  refine s.withIssue_keepsTenants _ fun x => State.closing_keepsTenants _ _ _ _ _ _ h (fun t => ?_) fun t => ?_
  · split
    · simp
    · split <;> simp
  · refine Out.KeepsTenants.ite (by simp) (Out.KeepsTenants.ite (by simp) (Out.KeepsTenants.ite (by simp) ?_))
    dsimp only
    split <;> simp

/-! ### Atomics, barriers and waits -/

@[simp] theorem State.atomSplit_keepsTenants (s : State) (w n) (h : s.tenants = T) : KeepsTenants T (s.atomSplit w n) := by
  simp [State.atomSplit, h]

@[simp] theorem State.countStore_tenants (s : State) (w none_) : (s.countStore w none_).tenants = s.tenants := by simp [State.countStore]

@[simp] theorem State.atomLooks_tenants (s : State) (x k) : (s.atomLooks x k).2.tenants = s.tenants := by
  simp [State.atomLooks]

@[simp] theorem State.signAtoms_tenants (s : State) (x op t b c as) :
    (s.signAtoms x op t b c as).tenants = s.tenants := by simp [State.signAtoms]

@[simp] theorem State.atomRelaxed_keepsTenants (s : State) (k) (h : s.tenants = T) :
    Out.KeepsTenants T (s.atomRelaxed k) := by
  refine State.word_keepsTenants h fun x t ht => Out.KeepsTenants.ite (by simp [ht]) ?_
  subst ht
  dsimp only
  split
  · simp
  · simp
  · split
    · next u hu => 
      obtain ⟨v, hv, rfl⟩ := Option.map_eq_some_iff.mp hu
      simp [State.afterEvict_keepsTenants _ _ _ rfl v hv]
    · split
      · next u hu => simp [State.atomSplit_keepsTenants _ _ _ rfl u hu]
      · simp

@[simp] theorem State.freeBytes_tenants (s : State) (n) : (s.freeBytes n).2.tenants = s.tenants := by simp [State.freeBytes]

@[simp] theorem State.atomLane_tenants (s : State) (x k y) : (s.atomLane x k y).2.tenants = s.tenants := by
  unfold State.atomLane
  dsimp only
  split <;> simp

@[simp] theorem State.exchange_keepsTenants (s : State) (x k busy as) (h : s.tenants = T) :
    Out.KeepsTenants T (s.exchange x k busy as) := by
  refine Out.KeepsTenants.ite (by simp [h]) (Out.KeepsTenants.ite (by simp [h]) (State.ordered_keepsTenants h fun t ht => ?_))
  dsimp only
  split <;> simp [ht]

@[simp] theorem State.atomExchange_keepsTenants (s : State) (k) (h : s.tenants = T) :
    Out.KeepsTenants T (s.atomExchange k) := by
  refine s.withIssue_keepsTenants _ fun x => State.closingCounted_keepsTenants _ _ _ _ _ _ _ h (fun t => ?_) fun t => ?_
  · dsimp only
    split <;> simp
  · refine Out.KeepsTenants.ite (by simp) ?_
    dsimp only
    split <;> simp

@[simp] theorem State.atomSpRelaxed_keepsTenants (s : State) (k) (h : s.tenants = T) :
    Out.KeepsTenants T (s.atomSpRelaxed k) := by
  refine State.word_keepsTenants h fun x t ht => Out.KeepsTenants.ite (by simp [ht]) ?_
  split
  · simp [ht]
  · simp [ht]
  · dsimp only
    split
    · next u hu => simp [State.atomSplit_keepsTenants _ _ _ ht u hu]
    · simp [ht]

@[simp] theorem State.atomSpLane_tenants (s : State) (x k y) : (s.atomSpLane x k y).2.tenants = s.tenants := by simp [State.atomSpLane]

@[simp] theorem State.atomSpExchange_keepsTenants (s : State) (k) (h : s.tenants = T) :
    Out.KeepsTenants T (s.atomSpExchange k) := by
  refine s.withIssue_keepsTenants _ fun x => State.closingCounted_keepsTenants _ _ _ _ _ _ _ h (fun t => by simp) fun t => ?_
  split
  · dsimp only
    split
    · simp
    · split <;> simp
  · simp

@[simp] theorem State.fenceWord_keepsTenants (s : State) (g) (h : s.tenants = T) : Out.KeepsTenants T (s.fenceWord g) := by
  simp [State.fenceWord, h]

@[simp] theorem State.arriving_keepsTenants (s : State) (x arrive) (h : s.tenants = T)
    (ha : ∀ t, (arrive t).tenants = t.tenants) : Out.KeepsTenants T (s.arriving x arrive) := by
  simp [State.arriving, ha, h]

@[simp] theorem State.barWord_keepsTenants (s : State) (g a b post) (h : s.tenants = T) :
    Out.KeepsTenants T (s.barWord g a b post) := by
  refine s.withIssue_keepsTenants _ fun x => State.closing_keepsTenants _ _ _ _ _ _ h noCheck_tenants fun t => ?_
  simp

@[simp] theorem State.gbarWord_keepsTenants (s : State) (g post) (h : s.tenants = T) :
    Out.KeepsTenants T (s.gbarWord g post) := by
  refine s.withIssue_keepsTenants _ fun x => State.closing_keepsTenants _ _ _ _ _ _ h noCheck_tenants fun t => ?_
  simp

@[simp] theorem execWsync_keepsTenants (g a) (s : State) (h : s.tenants = T) :
    Out.KeepsTenants T (execWsync g a s) := by
  refine s.withIssue_keepsTenants _ fun x => State.closing_keepsTenants _ _ _ _ _ _ h noCheck_tenants fun t => ?_
  simp

@[simp] theorem State.waitwLook_tenants (s : State) (x k y) : (s.waitwLook x k y).2.tenants = s.tenants := by simp [State.waitwLook]

@[simp] theorem State.waitwEnd_keepsTenants (s : State) (x k v local_) (h : s.tenants = T) :
    Out.KeepsTenants T (s.waitwEnd x k v local_) := by
  simp [State.waitwEnd, h]

@[simp] theorem State.waitwHold_keepsTenants (s : State) (x k) (h : s.tenants = T) : Out.KeepsTenants T (s.waitwHold x k) := by
  simp [State.waitwHold, h]

@[simp] theorem State.waitwHoldFar_keepsTenants (s : State) (x k m) (h : s.tenants = T) : Out.KeepsTenants T (s.waitwHoldFar x k m) := by
  simp [State.waitwHoldFar, h]

@[simp] theorem State.waitwFar_keepsTenants (s : State) (x k m pa) (h : s.tenants = T) : Out.KeepsTenants T (s.waitwFar x k m pa) := by
  simp [State.waitwFar, h]

@[simp] theorem State.waitwRead_keepsTenants (s : State) (x k y) (h : s.tenants = T) : Out.KeepsTenants T (s.waitwRead x k y) := by
  subst h
  unfold State.waitwRead
  dsimp only
  repeat' split
  all_goals simp

@[simp] theorem State.waitwPerform_keepsTenants (s : State) (x k again) (h : s.tenants = T) :
    Out.KeepsTenants T (s.waitwPerform x k again) := by
  refine Out.KeepsTenants.ite (by simp [h]) ?_
  split
  · simp [h]
  · next y _ _ =>
    have hu : (s.waitwLook x k y).2.tenants = T := by simp [h]
    dsimp only
    split
    · refine Out.KeepsTenants.ite (by simp [hu]) (Out.KeepsTenants.ite (by simp [hu]) (Out.KeepsTenants.ite (by simp [hu]) ?_))
      exact State.ordered_keepsTenants hu fun t ht => by simp [ht]
    · refine Out.KeepsTenants.ite (by simp [hu]) (Out.KeepsTenants.ite (by simp [hu]) (Out.KeepsTenants.ite (by simp [hu]) ?_))
      exact State.ordered_keepsTenants hu fun t ht => by simp [ht]
    · simp [h]

@[simp] theorem execWaitw_keepsTenants (g d base b cond w64 signed scope) (s : State) (h : s.tenants = T) :
    Out.KeepsTenants T (execWaitw g d base b cond w64 signed scope s) := by
  refine s.withIssue_keepsTenants _ fun x => ?_
  split
  · simp [h]
  · exact State.closingCounted_keepsTenants _ _ _ _ _ _ _ h (fun t => by simp) fun t => by simp

/-! ### The copy engine -/

@[simp] theorem State.engHome_keepsTenants (s : State) (e new va pa write) (h : s.tenants = T) :
    Eng.KeepsTenants id T (s.engHome e new va pa write) := by
  refine Eng.KeepsTenants.ite (by simp) (Eng.KeepsTenants.ite (by simp [h]) ?_)
  split <;> simp [h]

@[simp] theorem State.engRead_keepsTenants (s : State) (e new va) (h : s.tenants = T) :
    Eng.KeepsTenants Prod.snd T (s.engRead e new va) := by
  unfold State.engRead
  split
  · simp
  · simp [h]
  · simp [h]
  · split
    · simp
    · next t ht => simpa using fun _ => s.engHome_keepsTenants _ _ _ _ _ h t ht

@[simp] theorem State.engWrite_keepsTenants (s : State) (e new va b) (h : s.tenants = T) :
    Eng.KeepsTenants id T (s.engWrite e new va b) := by
  unfold State.engWrite
  split
  · simp [h]
  · split <;> simp [h]

@[simp] theorem State.engPage_keepsTenants (s : State) (blk p write) (h : s.tenants = T) :
    Eng.KeepsTenants id T (s.engPage blk p write) := by
  unfold State.engPage
  dsimp only
  split
  · simp
  · split
    · simp
    · split
      · next t ht => simpa using s.service_keepsTenants _ _ h t ht
      · simp

@[simp] theorem State.engSpMark_keepsTenants (s : State) (e blk off write) (h : s.tenants = T) :
    KeepsTenants T (s.engSpMark e blk off write) := by
  simp [State.engSpMark, h]

@[simp] theorem State.engSpWord_keepsTenants (s : State) (e blk off write) (h : s.tenants = T) :
    Eng.KeepsTenants id T (s.engSpWord e blk off write) := by
  unfold State.engSpWord
  split
  · simp
  · split
    · simp
    · next t ht =>
      have hu : t.tenants = T := s.engPage_keepsTenants _ _ _ h t ht
      split
      · simp
      · split
        · simp
        · next u hm => simpa using t.engSpMark_keepsTenants e blk off write hu u hm

@[simp] theorem State.freePick_tenants (s : State) (v olds) : (s.freePick v olds).2.tenants = s.tenants :=
  tenants_foldl_snd _ olds (fun a o => by simp) (v, s)

@[simp] theorem State.engSpRead_keepsTenants (s : State) (e off) (h : s.tenants = T) :
    Eng.KeepsTenants Prod.snd T (s.engSpRead e off) := by
  unfold State.engSpRead
  split
  · simp
  · next t ht => simpa using fun _ => s.engSpWord_keepsTenants _ _ _ _ h t ht

@[simp] theorem State.engSpWrite_keepsTenants (s : State) (e blk off b) (h : s.tenants = T) :
    Eng.KeepsTenants id T (s.engSpWrite e blk off b) := by
  simp [State.engSpWrite, h]

@[simp] theorem Eng.run_tenants (s : State) (r) (h : Eng.KeepsTenants id s.tenants r) : (Eng.run s r).1.tenants = s.tenants := by
  cases r with
  | error x => rfl
  | ok t => exact h t rfl

@[simp] theorem EngRun.andThen_tenants (r : EngRun) (f) (hf : ∀ t, (f t).1.tenants = t.tenants) :
    (r.andThen f).1.tenants = r.1.tenants := by
  unfold EngRun.andThen
  split
  · exact hf r.1
  · rfl

@[simp] theorem engEach_tenants (s : State) (xs f) (hf : ∀ t x, (f t x).1.tenants = t.tenants) :
    (engEach s xs f).1.tenants = s.tenants :=
  tenants_foldl_fst _ xs (fun r t => by simp [hf]) (s, none)

@[simp] theorem engReads_tenants (s : State) (xs f) (hf : ∀ t x, Eng.KeepsTenants Prod.snd t.tenants (f t x)) :
    (engReads s xs f).2.1.tenants = s.tenants := by
  refine tenants_foldl_of (fun r : List Byte × EngRun => r.2.1) _ xs (fun r t => ?_) ([], s, none)
  split
  · rfl
  · split
    · next b u hu => exact hf _ _ _ hu
    · rfl

@[simp] theorem State.engRace_tenants (s : State) (e pc rpc kind a c addr sp) :
    (s.engRace e pc rpc kind a c addr sp).tenants = s.tenants := by simp [State.engRace]

@[simp] theorem State.engStop_tenants (s : State) (e pc rpc f) : (s.engStop e pc rpc f).tenants = s.tenants := by
  unfold State.engStop
  split <;> simp

@[simp] theorem State.readyToEnd_tenants (s : State) (w core va cbw) : (s.readyToEnd w core va cbw).2.tenants = s.tenants := by
  unfold State.readyToEnd
  split <;> simp

@[simp] theorem State.endOnWord_tenants (s : State) (e pc rpc va cbw err) : (s.endOnWord e pc rpc va cbw err).tenants = s.tenants := by
  unfold State.endOnWord
  dsimp only
  repeat' split
  all_goals simp

@[simp] theorem State.endCommand_tenants (s : State) (w id k released) :
    (s.endCommand w id k released).tenants = s.tenants := by simp [State.endCommand]

@[simp] theorem State.withBlock_keepsTenants (s : State) (x g l a cbw room reason go) (h : s.tenants = T)
    (hg : ∀ t d, Out.KeepsTenants t.tenants (go t d)) : Out.KeepsTenants T (s.withBlock x g l a cbw room reason go) := by
  subst h
  unfold State.withBlock
  dsimp only
  split
  · simp
  · simp
  · split
    · simp
    · split
      · simp
      · split
        · simp
        · simp
        · split
          · simp
          · refine Out.keepsTenants_of_eq (hg _ _) ?_
            simp

@[simp] theorem State.newCommand_tenants (s : State) (w k) : (s.newCommand w k).2.tenants = s.tenants := by simp [State.newCommand]

@[simp] theorem State.engineWord_keepsTenants (s : State) (g f k run) (h : s.tenants = T)
    (hr : ∀ t x l, Out.KeepsTenants t.tenants (run t x l)) : Out.KeepsTenants T (s.engineWord g f k run) := by
  refine State.word_keepsTenants h fun x t ht => Out.KeepsTenants.ite (by simp [ht]) (Out.KeepsTenants.ite (by simp [ht]) ?_)
  split
  · exact ht ▸ hr t x _
  · simp [ht]

@[simp] theorem State.copyWord_keepsTenants (s : State) (kind g a) (h : s.tenants = T) :
    Out.KeepsTenants T (s.copyWord kind g a) := by
  unfold State.copyWord
  refine State.engineWord_keepsTenants _ _ _ _ _ h fun t x l => State.withBlock_keepsTenants _ _ _ _ _ _ _ _ _ rfl fun u d => ?_
  simp

@[simp] theorem Eng.into_tenants (s : State) (r f) (h : Eng.KeepsTenants Prod.snd s.tenants r)
    (hf : ∀ t b, Eng.KeepsTenants id t.tenants (f t b)) : (Eng.into s r f).1.tenants = s.tenants := by
  cases r with
  | error x => rfl
  | ok y => exact (Eng.run_tenants y.2 _ (hf y.2 y.1)).trans (h y rfl)

@[simp] theorem State.copyByte_tenants (s : State) (e kind d t) : (s.copyByte e kind d t).1.tenants = s.tenants := by
  unfold State.copyByte
  dsimp only
  split
  case h_5 =>
    split
    · rfl
    · next b u hu =>
      rw [engEach_tenants _ _ _ fun s m => by simp]
      exact s.engRead_keepsTenants _ _ _ rfl _ hu
  case h_6 => split <;> simp
  all_goals simp

@[simp] theorem State.setMq_tenants (s : State) (blk q es) : (s.setMq blk q es).tenants = s.tenants := by simp [State.setMq]

@[simp] theorem State.metaEntry_tenants (s : State) (e d r) : (s.metaEntry e d r).1.tenants = s.tenants := by
  simp [State.metaEntry]

@[simp] theorem State.chunk_tenants (s : State) (e kind d n) : (s.chunk e kind d n).1.tenants = s.tenants := by simp [State.chunk]

@[simp] theorem State.updCopy_tenants (s : State) (core id f) : (s.updCopy core id f).tenants = s.tenants := by simp [State.updCopy]

@[simp] theorem State.copyFails_tenants (s : State) (core id n) : (s.copyFails core id n).tenants = s.tenants := by simp [State.copyFails]

@[simp] theorem State.engSpBytes_tenants (s : State) (e off n) : (s.engSpBytes e off n).2.1.tenants = s.tenants := by
  simp [State.engSpBytes]

@[simp] theorem State.gatherIndex_tenants (s : State) (e d) : (s.gatherIndex e d).2.1.tenants = s.tenants := by
  simp [State.gatherIndex]

@[simp] theorem State.startCopy_tenants (s : State) (core c) : (s.startCopy core c).tenants = s.tenants := by
  unfold State.startCopy
  dsimp only
  split
  · simp
  · split
    · have hu := s.gatherIndex_tenants ⟨c.warp, c.blk, c.int, []⟩ c.desc
      split
      · next hr => simpa [hr] using hu
      · rfl
      · next hr => simpa [hr] using hu
    · simp

@[simp] theorem State.runChunk_keepsTenants (s : State) (core c) (h : s.tenants = T) :
    KeepsTenants T (s.runChunk core c) := by
  have hu := (s.chunk_tenants ⟨c.warp, c.blk, c.int, []⟩ c.kind c.desc c.next).trans h
  unfold State.runChunk
  dsimp only
  split <;> next hr => rw [hr] at hu; simp_all

@[simp] theorem State.twinChunk_tenants (s : State) (core c core2 c2) : (s.twinChunk core c core2 c2).tenants = s.tenants := by
  unfold State.twinChunk
  dsimp only
  split
  · rfl
  · split
    · simp
    · split
      · simp
      · exact tenants_getD _ _ (keepsTenants_bind _ _ _ (by simp) fun t => by simp)

@[simp] theorem State.copyChunk_tenants (s : State) (core k) : (s.copyChunk core k).tenants = s.tenants := by
  unfold State.copyChunk
  split
  · rfl
  · split
    · rfl
    · split
      · simp
      · split <;> simp

@[simp] theorem State.copyEnds_tenants (s : State) (core c err released) :
    (s.copyEnds core c err released).tenants = s.tenants := by simp [State.copyEnds]

@[simp] theorem State.copyComplete_tenants (s : State) (core k) : (s.copyComplete core k).tenants = s.tenants := by
  unfold State.copyComplete
  dsimp only
  repeat' split
  all_goals simp

@[simp] theorem State.cbwLook_tenants (s : State) (x a u y) : (s.cbwLook x a u y).2.tenants = s.tenants := by simp [State.cbwLook]

@[simp] theorem State.cbwDone_keepsTenants (s : State) (x k v mem sync) (h : s.tenants = T) :
    Out.KeepsTenants T (s.cbwDone x k v mem sync) := by
  simp [State.cbwDone, h]

@[simp] theorem State.cbwHold_keepsTenants (s : State) (x k) (h : s.tenants = T) : Out.KeepsTenants T (s.cbwHold x k) := by
  simp [State.cbwHold, h]

@[simp] theorem State.cbwRead_keepsTenants (s : State) (x k y) (h : s.tenants = T) : Out.KeepsTenants T (s.cbwRead x k y) := by
  subst h
  unfold State.cbwRead
  dsimp only
  repeat' split
  all_goals simp

@[simp] theorem State.cbwPerform_keepsTenants (s : State) (x k again) (h : s.tenants = T) :
    Out.KeepsTenants T (s.cbwPerform x k again) := by
  refine Out.KeepsTenants.ite (by simp [h]) ?_
  split
  · simp [h]
  · next y _ _ =>
    have hu : (s.cbwLook x k.a k.use y).2.tenants = T := by simp [h]
    dsimp only
    split
    · refine Out.KeepsTenants.ite (by simp [hu]) (Out.KeepsTenants.ite (by simp [hu]) ?_)
      refine Out.KeepsTenants.ite (by simp [hu]) (Out.KeepsTenants.ite (by simp [hu]) ?_)
      exact State.ordered_keepsTenants hu fun t ht => by simp [ht]
    · simp [h]

@[simp] theorem State.cbwForm_keepsTenants (s : State) (k) (h : s.tenants = T) :
    Out.KeepsTenants T (s.cbwForm k) := by
  refine s.withIssue_keepsTenants _ fun x => ?_
  split
  · simp [h]
  · refine State.closingCounted_keepsTenants _ _ _ _ _ _ _ h (fun t => ?_) fun t => by simp
    dsimp only
    split <;> simp

/-! ### Fetch -/

@[simp] theorem State.fetchLine_tenants (s : State) (w c pa) : (s.fetchLine w c pa).2.tenants = s.tenants := by simp [State.fetchLine]

@[simp] theorem State.fetched_tenants (s : State) (w c va l home) :
    (s.fetched w c va l home).tenants = s.tenants := by simp [State.fetched]

/-- The state in which a fetch ends. -/
def Fetched.state : Fetched → State
  | .word _ s => s
  | .stop _ s => s
  | .park _ s => s
  | .wait _ s => s

@[simp] theorem Fetched.state_word (d t) : (Fetched.word d t).state = t := by rw [Fetched.state]

@[simp] theorem Fetched.state_stop (st t) : (Fetched.stop st t).state = t := by rw [Fetched.state]

@[simp] theorem Fetched.state_park (n t) : (Fetched.park n t).state = t := by rw [Fetched.state]

@[simp] theorem Fetched.state_wait (r t) : (Fetched.wait r t).state = t := by rw [Fetched.state]

@[simp] theorem State.fetch_tenants (s : State) (w mask pc) : (s.fetch w mask pc).state.tenants = s.tenants := by
  unfold State.fetch
  dsimp only
  split
  · simp
  · split
    · next hr =>
      repeat' split
      all_goals simp [tenants_of_snd hr]
    all_goals next hr => simp [tenants_of_snd hr]

/-- The state in which a turn begins or ends. -/
def Go.state : Go → State
  | .wait s => s
  | .done s => s
  | .run _ s => s

@[simp] theorem Go.state_wait (t : State) : (Go.wait t).state = t := by rw [Go.state]

@[simp] theorem Go.state_done (t : State) : (Go.done t).state = t := by rw [Go.state]

@[simp] theorem Go.state_run (i t) : (Go.run i t).state = t := by rw [Go.state]

@[simp] theorem Go.state_ite (c : Prop) [Decidable c] (a b : Go) :
    (if c then a else b).state = if c then a.state else b.state := by split <;> rfl

@[simp] theorem State.resume_tenants (s : State) (x) : (s.resume x).state.tenants = s.tenants := by
  unfold State.resume
  split <;> simp

@[simp] theorem State.issueEntry_tenants (s : State) (w e) : (s.issueEntry w e).state.tenants = s.tenants := by
  have hu := s.fetch_tenants w e.mask e.pc
  unfold State.issueEntry
  cases hr : s.fetch w e.mask e.pc <;> rw [hr] at hu
  case word =>
    dsimp only
    split
    · simpa using hu
    · split <;> simpa using hu
  all_goals simpa using hu

@[simp] theorem State.turnOf_tenants (s : State) (w) : (s.turnOf w).state.tenants = s.tenants := by
  unfold State.turnOf
  extract_lets t
  have ht : t.tenants = s.tenants := by simp [t]
  split
  · split <;> simp [ht]
  · split
    · simp [ht]
    · split
      · simp [ht]
      · split <;> simp [ht]
      · simp [ht]

/-! ### The matrix engine -/

@[simp] theorem State.setCells_tenants (s : State) (blk xs) : (s.setCells blk xs).tenants = s.tenants := by simp [State.setCells]

@[simp] theorem State.updMat_tenants (s : State) (core id f) : (s.updMat core id f).tenants = s.tenants := by simp [State.updMat]

@[simp] theorem State.matFails_tenants (s : State) (core id n) : (s.matFails core id n).tenants = s.tenants := by simp [State.matFails]

@[simp] theorem State.startMmac_tenants (s : State) (core c m) : (s.startMmac core c m).tenants = s.tenants := by
  unfold State.startMmac
  dsimp only
  split
  · simp
  · split
    · simp
    · split
      · split
        · simp
        · have hu := s.engSpBytes_tenants c.eng (mpbIdx m) (2 * mpbM m)
          split
          · next hr => simpa [hr] using hu
          · rfl
          · next hr => simpa [hr] using hu
      · simp

@[simp] theorem State.popEntry_tenants (s : State) (c m) : (s.popEntry c m).2.tenants = s.tenants := by
  unfold State.popEntry
  repeat' split
  all_goals simp

@[simp] theorem State.payCredit_tenants (s : State) (core n) : (s.payCredit core n).tenants = s.tenants := by simp [State.payCredit]

@[simp] theorem engRows_tenants (s : State) (xs f) (hf : ∀ t k, (f t k).2.1.tenants = t.tenants) :
    (engRows s xs f).2.1.tenants = s.tenants := by
  refine tenants_foldl_of (fun r : List (List Byte) × EngRun => r.2.1) _ xs (fun r k => ?_) ([], s, none)
  split
  · rfl
  · exact hf r.2.1 k

@[simp] theorem State.operandBytes_tenants (s : State) (e scaled sc off n) :
    (s.operandBytes e scaled sc off n).2.1.tenants = s.tenants := by
  simp [State.operandBytes]

@[simp] theorem State.operands_tenants (s : State) (e m g idx entry q) :
    (s.operands e m g idx entry q).2.1.tenants = s.tenants := by
  unfold State.operands
  dsimp only
  split <;> simp

@[simp] theorem State.applyBlock_keepsTenants (s : State) (core c m g) (h : s.tenants = T) :
    KeepsTenants T (s.applyBlock core c m g) := by
  unfold State.applyBlock
  split
  next entry u hp =>
  have ht : u.tenants = T := by simp [tenants_of_snd hp, h]
  have hu := (u.operands_tenants c.eng m g c.idx entry c.next).trans ht
  dsimp only
  split
  · simp [ht]
  · split
    · simp [ht]
    · split <;> next hr => simp_all

@[simp] theorem State.twinFails_tenants (s : State) (core id core2 id2) :
    (s.twinFails core id core2 id2).tenants = s.tenants := by simp [State.twinFails]

@[simp] theorem State.mmacStep_tenants (s : State) (core c m twin) : (s.mmacStep core c m twin).tenants = s.tenants := by
  unfold State.mmacStep
  split
  · rfl
  · split
    · rfl
    · split
      · simp
      · split
        · rfl
        · split
          · simp
          · dsimp only
            split
            · rfl
            · split
              · simp
              · split
                · simp
                · exact tenants_getD _ _ (keepsTenants_bind _ _ _ (by simp) fun t => by simp)

@[simp] theorem execSparseStallTimeout_keepsTenants (core) (s : State) (h : s.tenants = T) :
    Out.KeepsTenants T (execSparseStallTimeout core s) := by
  subst h
  unfold execSparseStallTimeout
  split <;> simp

@[simp] theorem State.maccStRow_keepsTenants (s : State) (core c data scale row k i) (h : s.tenants = T) :
    KeepsTenants T (s.maccStRow core c data scale row k i) := by
  have hu (xs : List Nat) : (engEach s xs fun s o => (s.engSpWord c.eng c.blk o true).run s).1.tenants = T :=
    (engEach_tenants _ _ _ fun t o => by simp).trans h
  unfold State.maccStRow
  split
  · simp [h]
  · dsimp only
    split
    · simp
    · next hr => simp [tenants_of_fst hr, hu]
    · next hr => simp [tenants_of_fst hr, hu]

@[simp] theorem State.ldImage_tenants (s : State) (e data scale k i) : (s.ldImage e data scale k i).2.1.tenants = s.tenants := by
  simp [State.ldImage]

@[simp] theorem State.maccLdRow_tenants (s : State) (e data scale row k add i) :
    (s.maccLdRow e data scale row k add i).1.tenants = s.tenants := by
  unfold State.maccLdRow
  split
  · rfl
  · simp

@[simp] theorem State.stRow_keepsTenants (s : State) (core c) (h : s.tenants = T) : KeepsTenants T (s.stRow core c) := by
  subst h
  unfold State.stRow
  repeat' split
  all_goals simp

@[simp] theorem State.stStep_tenants (s : State) (core c twin) : (s.stStep core c twin).tenants = s.tenants := by
  unfold State.stStep
  dsimp only
  split
  · split <;> simp
  · split
    · rfl
    · split
      · simp
      · split
        · simp
        · exact tenants_getD _ _ (keepsTenants_bind _ _ _ (by simp) fun t => by simp)

@[simp] theorem State.matrixKblock_tenants (s : State) (core) : (s.matrixKblock core).tenants = s.tenants := by
  unfold State.matrixKblock
  dsimp only
  repeat' split
  all_goals simp

@[simp] theorem State.giveResult_tenants (s : State) (w id ws) : (s.giveResult w id ws).tenants = s.tenants := by simp [State.giveResult]

@[simp] theorem State.maccRead_tenants (s : State) (c reg row col mask rt rnd) :
    (s.maccRead c reg row col mask rt rnd).s.tenants = s.tenants := by
  unfold State.maccRead
  dsimp only
  split
  · simp
  · split <;> simp

@[simp] theorem State.freeMq_tenants (s : State) (core blk q) : (s.freeMq core blk q).tenants = s.tenants := by
  unfold State.freeMq
  split <;> simp

theorem State.mqControl_tenants (s : State) (core blk v q) : ∀ y ∈ s.mqControl core blk v q, y.2.tenants = s.tenants := by
  unfold State.mqControl
  dsimp only
  split
  · split
    · simp
    · split <;> simp
  · split
    · simp
    · split <;> simp
  · simp

@[simp] theorem State.rdStop_tenants (s : State) (w st) : (s.rdStop w st).tenants = s.tenants := by
  unfold State.rdStop
  dsimp only
  split <;> simp

@[simp] theorem State.matEnds_tenants (s : State) (core c r released) : (s.matEnds core c r released).tenants = s.tenants := by
  unfold State.matEnds
  repeat' split
  all_goals simp

theorem State.maccRows_tenants (s : State) (n cut f) (hf : ∀ t x, (f t x).1.tenants = t.tenants) :
    ∀ r ∈ s.maccRows n cut f, r.s.tenants = s.tenants := by
  have hu (m : Nat) := engEach_tenants s (List.range m) f hf
  unfold State.maccRows
  extract_lets m
  split
  · next hr => simp [tenants_of_fst hr, hu]
  · simp
  · next hr => simp [tenants_of_fst hr, hu]

theorem State.maccRun_tenants (s : State) (core c cut) : ∀ r ∈ s.maccRun core c cut, r.s.tenants = s.tenants := by
  unfold State.maccRun
  extract_lets l
  split
  · simp
  · simp
  · split
    · simp
    · split
      · split
        · simp
        · exact s.maccRows_tenants _ _ _ fun t i => by simp
      · simp
  · split <;> simp
  · simp
  · intro r hr
    obtain ⟨y, hy, rfl⟩ := Option.map_eq_some_iff.mp hr
    simp [s.mqControl_tenants _ _ _ _ y hy]

@[simp] theorem State.matComplete_tenants (s : State) (core) : (s.matComplete core).tenants = s.tenants := by
  unfold State.matComplete
  split
  · rfl
  · split
    · rfl
    · dsimp only
      split
      · simp
      · split
        · split
          · next r hr => simp [State.maccRun_tenants _ _ _ _ r hr]
          · simp
        · split
          · simp
          · split
            · simp
            · next r hr =>
              split
              · next r2 hr2 => simp [State.maccRun_tenants _ _ _ _ r2 hr2, State.maccRun_tenants _ _ _ _ r hr]
              · simp

@[simp] theorem State.queueMat_keepsTenants (s : State) (x f kind full) (h : s.tenants = T) :
    Out.KeepsTenants T (s.queueMat x f kind full) := by
  simp [State.queueMat, h]

@[simp] theorem execMmac_keepsTenants (g a) (s : State) (h : s.tenants = T) :
    Out.KeepsTenants T (execMmac g a s) := by
  unfold execMmac
  refine State.engineWord_keepsTenants _ _ _ _ _ h fun t x l => State.withBlock_keepsTenants _ _ _ _ _ _ _ _ _ rfl fun u d => ?_
  simp

@[simp] theorem State.maccWord_keepsTenants (s : State) (g f full kind) (h : s.tenants = T) :
    Out.KeepsTenants T (s.maccWord g f full kind) :=
  s.engineWord_keepsTenants _ _ _ _ h fun t x _ => Out.KeepsTenants.ite (by simp) (by simp)

@[simp] theorem State.mqWord_keepsTenants (s : State) (g d v q) (h : s.tenants = T) : Out.KeepsTenants T (s.mqWord g d v q) := by
  simp [State.mqWord, h]

@[simp] theorem execMstatCont_keepsTenants (g a) (s : State) (h : s.tenants = T) :
    Out.KeepsTenants T (execMstatCont g a s) := by
  refine State.word_keepsTenants h fun x t ht => ?_
  dsimp only
  split
  · split
    · simp [ht]
    · simp [ht]
    · refine State.spStoreGo_keepsTenants _ _ _ _ _ _ _ _ ht (fun u => keepsTenants_foldl _ _ (fun v y => ?_) _ (by simp)) fun u => by simp
      exact keepsTenants_bind _ _ _ (by simp) fun w => by simp
  · simp [ht]

/-! ### Events of warps and homes -/

@[simp] theorem execInstructionFetch_keepsTenants (w) (s : State) (h : s.tenants = T) :
    Out.KeepsTenants T (execInstructionFetch w s) := by
  subst h
  refine Out.KeepsTenants.ite (by simp) ?_
  split
  · simp
  · next e _ =>
    have hu := s.fetch_tenants w e.mask e.pc
    cases hr : s.fetch w e.mask e.pc <;> rw [hr] at hu <;> simpa using hu

@[simp] theorem execPendingResultWrite_keepsTenants (w k) (s : State) (h : s.tenants = T) :
    Out.KeepsTenants T (execPendingResultWrite w k s) := by
  subst h
  unfold execPendingResultWrite
  split <;> simp

@[simp] theorem State.takeReq_tenants (s : State) (k) : (s.takeReq k).tenants = s.tenants := by simp [State.takeReq]

@[simp] theorem State.atHome_tenants (s : State) (k q) : (s.atHome k q).tenants = s.tenants := by
  have hu := (s.takeReq k).acceptReq_tenants q
  unfold State.atHome
  split <;> next hr => rw [hr] at hu; simpa using hu

@[simp] theorem execHomeAccess_keepsTenants (k) (s : State) (h : s.tenants = T) : Out.KeepsTenants T (execHomeAccess k s) := by
  subst h
  unfold execHomeAccess
  repeat' split
  all_goals simp

@[simp] theorem execIntervalQueryAnswer_keepsTenants (slice vi launch block warp interval) (s : State) (h : s.tenants = T) :
    Out.KeepsTenants T (execIntervalQueryAnswer slice vi launch block warp interval s) := by
  subst h
  unfold execIntervalQueryAnswer
  dsimp only
  repeat' split
  all_goals simp

@[simp] theorem State.retryCompare_tenants (s : State) (w) : (s.retryCompare w).tenants = s.tenants := by
  unfold State.retryCompare
  split <;> simp

@[simp] theorem execRegionCommitComplete_keepsTenants (w) (s : State) (h : s.tenants = T) :
    Out.KeepsTenants T (execRegionCommitComplete w s) := by
  subst h
  unfold execRegionCommitComplete
  dsimp only
  repeat' split
  all_goals simp

@[simp] theorem State.commitStop_tenants (s : State) (w st) : (s.commitStop w st).tenants = s.tenants := by
  unfold State.commitStop
  dsimp only
  split <;> simp

@[simp] theorem execRegionCommitFail_keepsTenants (w) (s : State) (h : s.tenants = T) :
    Out.KeepsTenants T (execRegionCommitFail w s) := by
  subst h
  unfold execRegionCommitFail
  repeat' split
  all_goals simp

@[simp] theorem State.countFill_tenants (s : State) (line chk) : (s.countFill line chk).tenants = s.tenants := by
  unfold State.countFill
  split <;> simp

@[simp] theorem State.roomAmong_keepsTenants (s : State) (line set) (h : s.tenants = T) : KeepsTenants T (s.roomAmong line set) := by
  simp [State.roomAmong, h]

@[simp] theorem execHbmFill_keepsTenants (pa set chk marksLost) (s : State) (h : s.tenants = T) :
    Out.KeepsTenants T (execHbmFill pa set chk marksLost s) := by
  refine Out.KeepsTenants.ite (by simp [h]) ?_
  split
  · simp [h]
  · next t ht => simp [s.roomAmong_keepsTenants _ _ h t ht]

@[simp] theorem State.loseRegion_tenants (s : State) (w) : (s.loseRegion w).tenants = s.tenants := by simp [State.loseRegion]

@[simp] theorem State.loseCopy_tenants (s : State) (w line) : (s.loseCopy w line).tenants = s.tenants := by simp [State.loseCopy]

@[simp] theorem State.upset_tenants (s : State) (u) : (s.upset u).tenants = s.tenants := by
  unfold State.upset
  repeat' split
  all_goals simp

@[simp] theorem State.finishNeeds_tenants (s : State) (w f) : (s.finishNeeds w f).tenants = s.tenants := by simp [State.finishNeeds]

@[simp] theorem State.failNeeds_tenants (s : State) (w ns cause record) : (s.failNeeds w ns cause record).tenants = s.tenants := by
  unfold State.failNeeds
  dsimp only
  repeat' split
  all_goals simp

@[simp] theorem State.failPage_tenants (s : State) (b p e w) : (s.failPage b p e w).tenants = s.tenants := by simp [State.failPage]

@[simp] theorem State.fillConflict_tenants (s : State) (b p w e) : (s.fillConflict b p w e).tenants = s.tenants := by
  unfold State.fillConflict
  split <;> simp

@[simp] theorem execServicePage_keepsTenants (b p) (s : State) (h : s.tenants = T) :
    Out.KeepsTenants T (execServicePage b p s) := by
  subst h
  unfold execServicePage
  extract_lets ws fail
  have hf (e : SpFail) : (fail s e).tenants = s.tenants := by
    dsimp only [fail]
    split <;> simp
  refine Out.KeepsTenants.ite (by simp) (Out.KeepsTenants.ite (by simp [hf]) (Out.KeepsTenants.ite (by simp) ?_))
  split
  · next t ht => simpa using s.service_keepsTenants _ _ rfl t ht
  · simp [hf]

@[simp] theorem execReplicaCreate_keepsTenants (vi va die pa rec_) (s : State) (h : s.tenants = T) :
    Out.KeepsTenants T (execReplicaCreate vi va die pa rec_ s) := by
  subst h
  unfold execReplicaCreate
  split <;> simp

@[simp] theorem execShootdownAck_keepsTenants (k agent) (s : State) (h : s.tenants = T) :
    Out.KeepsTenants T (execShootdownAck k agent s) := by
  subst h
  unfold execShootdownAck
  split <;> simp

@[simp] theorem execCbwWaitReread_keepsTenants (w) (s : State) (h : s.tenants = T) : Out.KeepsTenants T (execCbwWaitReread w s) := by
  subst h
  unfold execCbwWaitReread
  repeat' split
  all_goals simp

@[simp] theorem execWaitwReread_keepsTenants (w) (s : State) (h : s.tenants = T) : Out.KeepsTenants T (execWaitwReread w s) := by
  subst h
  unfold execWaitwReread
  repeat' split
  all_goals simp

@[simp] theorem execSleepExpiry_keepsTenants (w) (s : State) (h : s.tenants = T) : Out.KeepsTenants T (execSleepExpiry w s) := by
  subst h
  unfold execSleepExpiry
  split <;> simp

@[simp] theorem State.updArrives_tenants (s : State) (u) : (s.updArrives u).tenants = s.tenants := by
  unfold State.updArrives
  split
  · rfl
  · split
    · rfl
    · next t ht => simp [s.arriveUpd_keepsTenants _ rfl t ht]

@[simp] theorem execHoldingBufferArrive_keepsTenants (k) (s : State) (h : s.tenants = T) :
    Out.KeepsTenants T (execHoldingBufferArrive k s) := by
  subst h
  unfold execHoldingBufferArrive
  split <;> simp

@[simp] theorem State.flushChunk_tenants (s : State) (b pc bs) :
    (s.flushChunk b pc bs).1.tenants = s.tenants := by simp [State.flushChunk]

@[simp] theorem State.flushStaged_tenants (s : State) (e) : (s.flushStaged e).tenants = s.tenants := by simp [State.flushStaged]

@[simp] theorem execReplayRelease_keepsTenants (k) (s : State) (h : s.tenants = T) : Out.KeepsTenants T (execReplayRelease k s) := by
  subst h
  unfold execReplayRelease
  repeat' split
  all_goals simp

@[simp] theorem execReplayWindowExpiry_keepsTenants (l va) (s : State) (h : s.tenants = T) :
    Out.KeepsTenants T (execReplayWindowExpiry l va s) := by
  subst h
  unfold execReplayWindowExpiry
  dsimp only
  split <;> simp

@[simp] theorem execDeferredStopDelivery_keepsTenants (w) (s : State) (h : s.tenants = T) :
    Out.KeepsTenants T (execDeferredStopDelivery w s) := by
  subst h
  unfold execDeferredStopDelivery
  dsimp only
  repeat' split
  all_goals simp

@[simp] theorem State.expire_tenants (s : State) (w cause) : (s.expire w cause).tenants = s.tenants := by
  unfold State.expire
  dsimp only
  split <;> simp

@[simp] theorem State.goistoGo_tenants (s : State) (w st) : (s.goistoGo w st).tenants = s.tenants := by simp [State.goistoGo]

@[simp] theorem execGoistoResume_keepsTenants (w act) (s : State) (h : s.tenants = T) :
    Out.KeepsTenants T (execGoistoResume w act s) := by
  subst h
  unfold execGoistoResume
  repeat' split
  all_goals simp

@[simp] theorem State.updPort_tenants (s : State) (p f) : (s.updPort p f).tenants = s.tenants := by simp [State.updPort]

@[simp] theorem execLinkRecoveryTimeout_keepsTenants (w) (s : State) (h : s.tenants = T) :
    Out.KeepsTenants T (execLinkRecoveryTimeout w s) := by
  subst h
  unfold execLinkRecoveryTimeout
  split <;> simp

/-! ### Dispatch -/

@[simp] theorem State.dequeue_tenants (s : State) (li) : (s.dequeue li).tenants = s.tenants := by simp [State.dequeue]

@[simp] theorem State.cancelLaunch_tenants (s : State) (li err) :
    (s.cancelLaunch li err).tenants = s.tenants := by simp [State.cancelLaunch]

@[simp] theorem State.markDeps_tenants (s : State) (l) : (s.markDeps l).tenants = s.tenants := by
  refine tenants_foldl _ _ (fun s n => ?_) s
  split <;> simp

@[simp] theorem State.refreshHead_tenants (s : State) (li) : (s.refreshHead li).tenants = s.tenants := by
  unfold State.refreshHead
  dsimp only
  split <;> simp

@[simp] theorem State.refreshVi_tenants (s : State) (v) : (s.refreshVi v).tenants = s.tenants := by simp [State.refreshVi]

@[simp] theorem State.refresh_tenants (s : State) : s.refresh.tenants = s.tenants := by simp [State.refresh]

@[simp] theorem State.noteRan_tenants (s : State) (c li lin) : (s.noteRan c li lin).tenants = s.tenants := by simp [State.noteRan]

@[simp] theorem State.giveUnits_tenants (s : State) (b c n) : (s.giveUnits b c n).tenants = s.tenants := by simp [State.giveUnits]

@[simp] theorem State.startBlock_tenants (s : State) (b c) : (s.startBlock b c).tenants = s.tenants := by simp [State.startBlock]

@[simp] theorem State.blockRecord_tenants (s : State) (li lin copy) : (s.blockRecord li lin copy).2.tenants = s.tenants := by
  unfold State.blockRecord
  split <;> simp

@[simp] theorem State.dispatched_tenants (s : State) (li lins) : (s.dispatched li lins).tenants = s.tenants := by simp [State.dispatched]

/-- The blocks of a gang put on cores. -/
theorem State.startBlocks_tenants (s : State) (li copy) (xs ys : List (Nat × Nat)) :
    (xs.foldl (fun (s : State) x =>
      ((s.blockRecord li x.1 copy).2.startBlock (s.blockRecord li x.1 copy).1 x.2).updBlock (s.blockRecord li x.1 copy).1 fun y =>
        { y with span := ((s.blockRecord li x.1 copy).2.launch li).spanOf (ys.map Prod.snd) }) s).tenants = s.tenants := by
  simp

@[simp] theorem State.startGang_tenants (s : State) (li lins p q) : (s.startGang li lins p q).tenants = s.tenants := by
  have put (t : State) copy xs := t.startBlocks_tenants li copy xs xs
  unfold State.startGang
  dsimp only
  split
  · rw [put, put]
  · rw [tenants_foldl _ _ fun s lin => by split <;> simp, put, put]

@[simp] theorem State.place_keepsTenants (s : State) (li) (h : s.tenants = T) : KeepsTenants T (s.place li) := by
  unfold State.place
  dsimp only
  split
  · simp
  · split
    · simp
    · split
      · split <;> simp [h]
      · intro t ht
        obtain ⟨x, -, rfl⟩ := Option.map_eq_some_iff.mp ht
        simp [h]

@[simp] theorem State.dispatchOne_tenants (s : State) (fuel cs) : (s.dispatchOne fuel cs).tenants = s.tenants := by
  induction fuel generalizing cs with
  | zero => rfl
  | succ fuel ih =>
    unfold State.dispatchOne
    split
    · rfl
    · split
      · next t ht => exact s.place_keepsTenants _ rfl t ht
      · exact ih _

@[simp] theorem State.startHead_tenants (s : State) (c) : (s.startHead c).tenants = s.tenants := by
  unfold State.startHead
  split <;> simp

@[simp] theorem execWorkSteal_keepsTenants (ths) (s : State) (h : s.tenants = T) :
    Out.KeepsTenants T (execWorkSteal ths s) := by
  refine (Out.keepsTenants_ok _ _).mpr ((tenants_foldl _ _ (fun s x => ?_) s).trans h)
  split <;> simp

@[simp] theorem State.noteEnd_tenants (s : State) (p) : (s.noteEnd p).tenants = s.tenants := by simp [State.noteEnd]

@[simp] theorem State.exitRec_tenants (s : State) (p) : (s.exitRec p).tenants = s.tenants := by simp [State.exitRec]

@[simp] theorem State.dropRec_tenants (s : State) (p) : (s.dropRec p).tenants = s.tenants := by simp [State.dropRec]

@[simp] theorem State.declareOnExit_tenants (s : State) (w) : (s.declareOnExit w).tenants = s.tenants := by simp [State.declareOnExit]

@[simp] theorem State.exitFlush_keepsTenants (s : State) (b) (h : s.tenants = T) : KeepsTenants T (s.exitFlush b) := by
  subst h
  unfold State.exitFlush
  dsimp only
  repeat' split
  all_goals simp

@[simp] theorem State.leaveCore_tenants (s : State) (b) : (s.leaveCore b).tenants = s.tenants := by simp [State.leaveCore]

@[simp] theorem State.freeBlock_tenants (s : State) (b) : (s.freeBlock b).tenants = s.tenants := by simp [State.freeBlock]

@[simp] theorem State.noteRetired_tenants (s : State) (li lin) : (s.noteRetired li lin).tenants = s.tenants := by simp [State.noteRetired]

@[simp] theorem execBlockRetire_keepsTenants (b) (s : State) (h : s.tenants = T) :
    Out.KeepsTenants T (execBlockRetire b s) := by
  refine Out.KeepsTenants.ite (by simp [h]) ?_
  split
  · simp [h]
  · next t ht =>
    refine (Out.keepsTenants_ok _ _).mpr ?_
    rw [State.noteRetired_tenants, tenants_foldl _ _ fun s c => by simp]
    simp [s.exitFlush_keepsTenants _ h t ht]

/-! ### The module -/

@[simp] theorem State.refillCore_tenants (s : State) (c) : (s.refillCore c).tenants = s.tenants := by simp [State.refillCore]

@[simp] theorem execPortSend_keepsTenants (core) (s : State) (h : s.tenants = T) : Out.KeepsTenants T (execPortSend core s) := by
  subst h
  unfold execPortSend
  dsimp only
  repeat' split
  all_goals simp

@[simp] theorem State.grant_tenants (s : State) (c g) : (s.grant c g).tenants = s.tenants := by simp [State.grant]

@[simp] theorem State.setBank_tenants (s : State) (b x) : (s.setBank b x).tenants = s.tenants := by simp [State.setBank]

@[simp] theorem execScrubLine_keepsTenants (pa chk) (s : State) (h : s.tenants = T) : Out.KeepsTenants T (execScrubLine pa chk s) := by
  subst h
  unfold execScrubLine
  repeat' split
  all_goals simp

@[simp] theorem execVacateAck_keepsTenants (bank) (s : State) (h : s.tenants = T) :
    Out.KeepsTenants T (execVacateAck bank s) := by
  unfold execVacateAck
  split
  · refine Out.KeepsTenants.ite (by simp [h]) ?_
    rw [Out.keepsTenants_ok, tenants_foldl _ _ fun s l => (tenants_getD _ _ (by simp)).trans (by simp)]
    simp [h]
  · simp [h]

@[simp] theorem execVacateTimeout_keepsTenants (bank) (s : State) (h : s.tenants = T) :
    Out.KeepsTenants T (execVacateTimeout bank s) := by
  subst h
  unfold execVacateTimeout
  split <;> simp

@[simp] theorem State.writeHeader_tenants (s : State) (vi) : (s.writeHeader vi).tenants = s.tenants := by simp [State.writeHeader]

@[simp] theorem State.writeRecord_tenants (s : State) (vi ws) : (s.writeRecord vi ws).tenants = s.tenants := by simp [State.writeRecord]

@[simp] theorem State.spendRate_tenants (s : State) (n) : (s.spendRate n).tenants = s.tenants := by simp [State.spendRate]

@[simp] theorem execFlumeRecordWrite_keepsTenants (k) (s : State) (h : s.tenants = T) :
    Out.KeepsTenants T (execFlumeRecordWrite k s) := by
  subst h
  unfold execFlumeRecordWrite
  split <;> simp

@[simp] theorem State.tellTime_tenants (s : State) : s.tellTime.tenants = s.tenants := by simp [State.tellTime]

@[simp] theorem State.tickVi_tenants (s : State) (time vi) : (s.tickVi time vi).tenants = s.tenants := by simp [State.tickVi]

@[simp] theorem execPcSample_keepsTenants (core sec) (s : State) (h : s.tenants = T) : Out.KeepsTenants T (execPcSample core sec s) := by
  subst h
  unfold execPcSample
  repeat' split
  all_goals simp

@[simp] theorem execRemoteArrival_keepsTenants (pa op) (s : State) (h : s.tenants = T) :
    Out.KeepsTenants T (execRemoteArrival pa op s) := by
  subst h
  unfold execRemoteArrival
  split <;> simp

/-! ### Pre-emption -/

@[simp] theorem State.returnBlock_tenants (s : State) (b) : (s.returnBlock b).tenants = s.tenants := by simp [State.returnBlock]

@[simp] theorem State.requestPreempt_tenants (s : State) (vi sc freeze) :
    (s.requestPreempt vi sc freeze).tenants = s.tenants := by simp [State.requestPreempt]

@[simp] theorem State.saveWarp_tenants (s : State) (w) : (s.saveWarp w).tenants = s.tenants := by
  unfold State.saveWarp
  dsimp only
  repeat' split
  all_goals simp

@[simp] theorem State.saveMat_tenants (s : State) (b) : (s.saveMat b).tenants = s.tenants := by simp [State.saveMat]

@[simp] theorem State.saveCopies_tenants (s : State) (b) : (s.saveCopies b).tenants = s.tenants := by simp [State.saveCopies]

@[simp] theorem State.setRecs_tenants (s : State) (b st) : (s.setRecs b st).tenants = s.tenants := by simp [State.setRecs]

@[simp] theorem State.saveBlock_tenants (s : State) (b) : (s.saveBlock b).tenants = s.tenants := by simp [State.saveBlock]

@[simp] theorem State.savePart_keepsTenants (s : State) (p unit) (h : s.tenants = T) : KeepsTenants T (s.savePart p unit) := by
  subst h
  unfold State.savePart
  split <;> simp

@[simp] theorem execPreemptAck_keepsTenants (k unit) (s : State) (h : s.tenants = T) :
    Out.KeepsTenants T (execPreemptAck k unit s) := by
  unfold execPreemptAck
  split
  · simp [h]
  · refine Out.KeepsTenants.ite (by simp [h]) ?_
    split
    · simp [h]
    · next t ht => simp [s.savePart_keepsTenants _ _ h t ht]

@[simp] theorem State.moveCommands_tenants (s : State) (b c) : (s.moveCommands b c).tenants = s.tenants := by simp [State.moveCommands]

@[simp] theorem State.bindMqs_tenants (s : State) (b c) : (s.bindMqs b c).tenants = s.tenants := by
  refine tenants_foldl _ _ (fun s q => ?_) s
  split <;> simp

@[simp] theorem State.restoreBlock_tenants (s : State) (b c) : (s.restoreBlock b c).tenants = s.tenants := by
  refine (State.noteRan_tenants _ _ _ _).trans ((tenants_foldl _ _ (fun s w => ?_) _).trans (by simp))
  split
  · split
    · next t ht => exact s.service_keepsTenants _ _ rfl t ht
    · rfl
  · rfl

@[simp] theorem State.dropCommands_tenants (s : State) (b) : (s.dropCommands b).tenants = s.tenants := by simp [State.dropCommands]

@[simp] theorem State.failCommands_tenants (s : State) (b) : (s.failCommands b).tenants = s.tenants := by simp [State.failCommands]

@[simp] theorem State.leaveOverflow_tenants (s : State) (w) : (s.leaveOverflow w).tenants = s.tenants := by simp [State.leaveOverflow]

@[simp] theorem State.dropWarps_tenants (s : State) (b) : (s.dropWarps b).tenants = s.tenants := by
  unfold State.dropWarps
  dsimp only
  rw [tenants_foldl _ _ fun s w => by simp, tenants_foldl _ _ fun s i => by split <;> simp]

@[simp] theorem State.failBlock_tenants (s : State) (b why chunk) :
    (s.failBlock b why chunk).tenants = s.tenants := by simp [State.failBlock]

@[simp] theorem execRestore_keepsTenants (vi launch gang bad) (s : State) (h : s.tenants = T) :
    Out.KeepsTenants T (execRestore vi launch gang bad s) := by
  subst h
  unfold execRestore
  dsimp only
  repeat' split
  all_goals simp

@[simp] theorem State.setCluster_tenants (s : State) (k x) : (s.setCluster k x).tenants = s.tenants := by simp [State.setCluster]

@[simp] theorem execFieldTestResult_keepsTenants (cluster pass) (s : State) (h : s.tenants = T) :
    Out.KeepsTenants T (execFieldTestResult cluster pass s) := by
  refine Out.KeepsTenants.ite (by simp [h]) (Out.KeepsTenants.ite (by simp [h]) ?_)
  rw [Out.keepsTenants_ok, State.tenants_mk, tenantsOf_vis, State.setCluster_tenants, tenants_foldl _ _ fun s v => by split <;> simp, h]

/-! ### The host -/

@[simp] theorem State.freeze_tenants (s : State) (vi cause) : (s.freeze vi cause).tenants = s.tenants := by simp [State.freeze]

@[simp] theorem State.applied_tenants (s : State) (vi payload) : (s.applied vi payload).tenants = s.tenants := by simp [State.applied]

@[simp] theorem State.applyHead_keepsTenants (s : State) (vi op f) (h : s.tenants = T)
    (hf : ∀ q p, Out.KeepsTenants T (f q p)) : Out.KeepsTenants T (s.applyHead vi op f) := by
  refine Out.KeepsTenants.ite (by simp [h]) ?_
  split
  · simp [h]
  · simp [h]
  · exact Out.KeepsTenants.ite (hf _ _) (by simp [h])

/-- The state in which a write of the host was performed or refused. -/
def hostState : Except (Nat × Conflict × State) State → State
  | .ok t => t
  | .error x => x.2.2

@[simp] theorem hostState_ok (t : State) : hostState (.ok t) = t := by rw [hostState]

@[simp] theorem hostState_error (x : Nat × Conflict × State) : hostState (.error x) = x.2.2 := by rw [hostState]

@[simp] theorem State.hostWrite_tenants (s : State) (vi va pa bs) : (hostState (s.hostWrite vi va pa bs)).tenants = s.tenants := by
  unfold State.hostWrite
  dsimp only
  split <;> simp

@[simp] theorem execWrite_keepsTenants (vi) (s : State) (h : s.tenants = T) : Out.KeepsTenants T (execWrite vi s) := by
  subst h
  refine s.applyHead_keepsTenants _ _ _ rfl fun q p => Out.KeepsTenants.ite (by simp) ?_
  split
  · simp
  · split
    · simp
    · have hu : (if canonical (payloadDw p 0) then s.writeAt vi (payloadDw p 0) else (none, s)).2.tenants = s.tenants := by
        split <;> simp
      split
      · simp
      · next pa u hr =>
        rw [hr] at hu
        refine Out.KeepsTenants.ite (by simpa using hu) ?_
        have hw := u.hostWrite_tenants vi (payloadDw p 0) pa (p.drop 8)
        split <;> next hr => rw [hr] at hw; simp_all

@[simp] theorem execRead_keepsTenants (vi) (s : State) (h : s.tenants = T) : Out.KeepsTenants T (execRead vi s) := by
  subst h
  refine s.applyHead_keepsTenants _ _ _ rfl fun q p => Out.KeepsTenants.ite (by simp) ?_
  split
  · simp
  · dsimp only
    split <;> simp

@[simp] theorem State.closeParties_tenants (s : State) (vi) : (s.closeParties vi).tenants = s.tenants := by
  simp [State.closeParties]

@[simp] theorem State.dropTraffic_tenants (s : State) (vi) : (s.dropTraffic vi).tenants = s.tenants := by simp [State.dropTraffic]

@[simp] theorem State.endWork_tenants (s : State) (vi) : (s.endWork vi).tenants = s.tenants := by simp [State.endWork]

@[simp] theorem tenants_afterReset (s : State) (vi) : (s.updVi vi Vi.afterReset).tenants = s.tenants :=
  tenants_updVi s vi Vi.afterReset fun _ => rfl

@[simp] theorem State.resetVi_tenants (s : State) (vi) : (s.resetVi vi).tenants = s.tenants := by
  simp [State.resetVi]

@[simp] theorem execFunctionLevelReset_keepsTenants (vi) (s : State) (h : s.tenants = T) :
    Out.KeepsTenants T (execFunctionLevelReset vi s) :=
  Out.KeepsTenants.ite (by simp [h]) (Out.KeepsTenants.ite (by simp [h]) (by simp [h]))

/-! ### Time -/

@[simp] theorem State.countStalls_tenants (s : State) (cycles) : (s.countStalls cycles).tenants = s.tenants := by simp [State.countStalls]

@[simp] theorem State.elapse_tenants (s : State) (cycles ns) : (s.elapse cycles ns).tenants = s.tenants := by simp [State.elapse]

@[simp] theorem State.pass_tenants (s : State) (cycles ns) : (s.pass cycles ns).tenants = s.tenants := by simp [State.pass]

@[simp] theorem State.passTo_tenants (s : State) (cycles ns) : (s.passTo cycles ns).tenants = s.tenants := by simp [State.passTo]

@[simp] theorem State.wrapTime_tenants (s : State) : s.wrapTime.tenants = s.tenants := by simp [State.wrapTime]

theorem State.timed_tenants (s t : State) : (s.timed t).tenants = t.tenants := by
  simp [State.timed]

@[simp] theorem State.tickSection_tenants (s : State) (w) : (s.tickSection w).tenants = s.tenants := by simp [State.tickSection]

/-! ### The shares of a core (R64) -/

/-- What an interface's configuration takes of a core (R64). -/
def coreShareOf (c : Nat) (x : Bool × ViConfig) : Nat := if x.1 && x.2.partition.contains c then x.2.share else 0

/-- What the interfaces take of a core together. -/
def coreShare (T : List (Bool × ViConfig)) (c : Nat) : Nat := (T.map (coreShareOf c)).sum

/-- The interfaces of every core fit it. -/
def SharesFit (T : List (Bool × ViConfig)) : Prop := ∀ c, coreShare T c ≤ 256

theorem coreShare_set (T : List (Bool × ViConfig)) (c : Nat) {i : Nat} (hi : i < T.length) (x) :
    coreShare (T.set i x) c = coreShare (T.set i (false, x.2)) c + coreShareOf c x := by
  simp [coreShare, List.map_set, List.sum_set, hi, coreShareOf]
  omega

theorem coreShare_set_le (T : List (Bool × ViConfig)) (c i : Nat) (x) (h : coreShareOf c x = 0) :
    coreShare (T.set i x) c ≤ coreShare T c := by
  by_cases hi : i < T.length
  · calc coreShare (T.set i x) c = ((T.map (coreShareOf c)).set i 0).sum := by rw [coreShare, List.map_set, h]
      _ ≤ ((T.map (coreShareOf c)).set i (coreShareOf c T[i])).sum := by simp [List.sum_set, hi]
      _ = coreShare T c := by rw [← List.map_set, List.set_getElem_self, coreShare]
  · rw [List.set_eq_of_length_le (by omega)]

@[simp] theorem State.length_tenants (s : State) : s.tenants.length = s.vis.length := by simp [State.tenants, tenantsOf]

@[simp] theorem State.getElem_tenants (s : State) (v : Nat) (h : v < s.tenants.length) :
    s.tenants[v] = ((s.vi v).configured, (s.vi v).cfg) := by
  have hv : v < s.vis.length := by simpa using h
  simp [State.tenants, tenantsOf, State.vi, hv]

/-- A sum over some elements of a list, as one over all. -/
theorem sum_map_filter_eq {α : Type} (p : α → Bool) (f : α → Nat) (xs : List α) :
    ((xs.filter p).map f).sum = (xs.map fun x => if p x then f x else 0).sum := by
  simpa using (List.sum_map_ite (fun x => p x = true) f (fun _ => 0) xs).symm

theorem sum_shares (s : State) (c : Nat) :
    (((List.range s.vis.length).filter fun v => some v != none && (s.vi v).configured && (s.vi v).cfg.partition.contains c).map
      fun v => (s.vi v).cfg.share).sum = coreShare s.tenants c := by
  rw [sum_map_filter_eq]
  refine congrArg List.sum (List.ext_getElem (by simp) fun v _ _ => ?_)
  simp [coreShareOf]

theorem sum_shares_but (s : State) (c vi : Nat) (cfg : ViConfig) :
    (((List.range s.vis.length).filter fun v => some v != some vi && (s.vi v).configured && (s.vi v).cfg.partition.contains c).map
      fun v => (s.vi v).cfg.share).sum = coreShare (s.tenants.set vi (false, cfg)) c := by
  rw [sum_map_filter_eq]
  refine congrArg List.sum (List.ext_getElem (by simp) fun v _ _ => ?_)
  by_cases hw : v = vi
  · subst hw
    simp [coreShareOf]
  · simp [coreShareOf, hw, Ne.symm hw]

theorem State.shareOn_eq (s : State) (vi : Nat) (cfg : ViConfig) (c : Nat) :
    s.shareOn vi cfg c = coreShare (s.tenants.set vi (true, cfg)) c := by
  have hf : s.shareOn vi cfg c = ((List.range s.vis.length).map fun v =>
      coreShareOf c (if v = vi then (true, cfg) else ((s.vi v).configured, (s.vi v).cfg))).sum := by
    rw [List.sum_eq_foldl, List.foldl_map]
    refine List.foldl_ext _ _ _ fun a v _ => ?_
    by_cases hw : v = vi
    · simp only [hw, ↓reduceIte, coreShareOf, Bool.true_and]
      split <;> rfl
    · cases (s.vi v).configured
      · simp [hw, coreShareOf]
      · simp only [hw, ↓reduceIte, coreShareOf, Bool.true_and]
        split <;> rfl
  rw [hf]
  refine congrArg List.sum (List.ext_getElem (by simp) fun v _ _ => ?_)
  by_cases hw : v = vi
  · subst hw
    simp
  · simp [hw, Ne.symm hw]

/-- A configuration that Bilral accepts fits the cores of its partition (R64). -/
theorem State.configOk_shareOn {s : State} {vi : Nat} {cfg : ViConfig} (h : s.configOk vi cfg) {c : Nat} (hc : c ∈ cfg.partition) :
    s.shareOn vi cfg c ≤ 256 := by
  simp only [State.configOk, Bool.and_eq_true, List.all_eq_true, decide_eq_true_eq] at h
  obtain ⟨⟨⟨⟨⟨⟨⟨⟨-, hs⟩, -⟩, -⟩, -⟩, -⟩, -⟩, -⟩, -⟩ := h
  exact hs c hc

theorem tenants_configure (s : State) (vi : Nat) (f : Vi → Vi) (cfg : ViConfig)
    (h : ∀ x, ((f x).configured, (f x).cfg) = (true, cfg)) : (s.updVi vi f).tenants = s.tenants.set vi (true, cfg) := by
  show tenantsOf (s.vis.modify vi f) = (tenantsOf s.vis).set vi (true, cfg)
  refine List.ext_getElem (by simp [tenantsOf]) fun v _ _ => ?_
  simp only [tenantsOf, List.getElem_map, List.getElem_modify, List.getElem_set]
  split
  · exact h _
  · rfl

/-- A configuration is refused, or accepted and set. -/
theorem execViConfigure_cases (vi : Nat) (cfg : ViConfig) (s : State) :
    execViConfigure vi cfg s = .next s ∨
      s.configOk vi cfg ∧ Out.KeepsTenants (s.tenants.set vi (true, cfg)) (execViConfigure vi cfg s) := by
  unfold execViConfigure
  split
  · exact .inl rfl
  · next h =>
    refine .inr ⟨by simp_all, ?_⟩
    have hc (f : Vi → Vi) := tenants_configure s vi f cfg
    dsimp only
    simp [hc]

/-- A next state in which the interfaces of every core fit it. -/
def Out.Fits (o : Out) : Prop := ∀ t, o = .next t → SharesFit t.tenants

@[simp] theorem Out.fits_next (t : State) : Out.Fits (.next t) ↔ SharesFit t.tenants := by simp [Out.Fits]

@[simp] theorem Out.fits_ok (t : State) : Out.Fits (ok t) ↔ SharesFit t.tenants := by simp [ok]

@[simp] theorem Out.fits_fault (r : Fault) : Out.Fits (.fault r) := by simp [Out.Fits]

@[simp] theorem Out.fits_refused (r : Refusal) : Out.Fits (.refused r) := by simp [Out.Fits]

theorem Out.KeepsTenants.fits {T : List (Bool × ViConfig)} {o : Out} (h : Out.KeepsTenants T o) (hT : SharesFit T) : Out.Fits o :=
  fun t ht => h t ht ▸ hT

theorem execViConfigure_fits (vi : Nat) (cfg : ViConfig) (s : State) (h : SharesFit s.tenants) : Out.Fits (execViConfigure vi cfg s) := by
  obtain he | ⟨hok, hk⟩ := execViConfigure_cases vi cfg s
  · simpa [he] using h
  · refine hk.fits fun c => ?_
    by_cases hc : c ∈ cfg.partition
    · exact s.shareOn_eq vi cfg c ▸ State.configOk_shareOn hok hc
    · exact (coreShare_set_le _ _ _ _ (by simp [coreShareOf, hc])).trans (h c)

/-- At reset no interface is configured (R62). -/
theorem fits_reset : SharesFit State.reset.tenants := by
  intro c
  have hz : (List.replicate 64 (coreShareOf c (Vi.reset.configured, Vi.reset.cfg))).sum = 0 := by
    rw [List.sum_replicate, show coreShareOf c (Vi.reset.configured, Vi.reset.cfg) = 0 from rfl, smul_zero]
  rw [State.reset, State.tenants_mk, coreShare, tenantsOf, List.map_map, List.map_replicate]
  exact hz.trans_le (Nat.zero_le _)

theorem execPowerOn_fits (s : State) : Out.Fits (execPowerOn s) := by
  unfold execPowerOn
  dsimp only
  split <;> simp [fits_reset]

/-! ### The step -/

/-- A word or event that neither configures an interface nor powers the machine on leaves the configurations. -/
theorem exec_keepsTenants (i : Instr) (s : State) (hc : ∀ vi cfg, i ≠ .viConfigure vi cfg) (hp : i ≠ .powerOn) :
    Out.KeepsTenants s.tenants (exec i s) := by
  cases i
  case viConfigure vi cfg => exact absurd rfl (hc vi cfg)
  case powerOn => exact absurd rfl hp
  case add | sub | mulLo | mulHi | mulWide | madLo | madHi | madWide | min | max | abs | neg | and | or | xor | not | shl | shr
      | sha | rot | bfe | bfi | popc | clz | ctz | brev | bsel | sel | cmp | mov | movi | moviS64 | moviZ64 | adda | addc | fadd
      | fsub | fmul | ffma | fmin | fmax | fcmp | fclass | frnd | fscale | rcp | rsq | sqrt | ex2 | lg2 | sin | cos | tanh | hfma2
      | hadd2 | hmul2 | cvt | cvtef | dot8 =>
    exact s.alu_keepsTenants _ _ rfl
  case shfl | qswp | qbc | redux | scan | matchAny | matchAll =>
    exact s.cross_keepsTenants _ _ rfl
  all_goals simp [exec, execPack, execUnpk, execDot4, execRdfst, execVoteSome, execVoteEvery, execVoteSame, execVoteBits, execVoteCnt,
    execElect, execLmask, execLd, execLdc, execLdsp, execLdspCnt, execStsp, execStspCnt, execPrefL1, execPrefL2, execPrefEvict,
    execSpmapQuery, execResidBind, execResidUnbind, execNop, execBra, execElectBr, execBrx, execRet, execCall, execExit, execRcvSet,
    execRcvWait, execRegionBegin, execRegionQuery, execWait, execSleep, execTrap, execBrk, execFinfo, execSysRd, execSysWr, execClkDev,
    execClkOrd, execRng, execRngX4, execRngF32, execPerfClr, execTmark, execAtom, execAtomsp, execFence, execFenceXlat, execFencePath,
    execBarJoin, execBarPost, execGbarJoin, execGbarPost, execOdone, execCpyG2s, execCpyS2g, execCpyG2g, execCpyGather, execCpyBcast,
    execCpyFill, execCpyMeta, execCopyChunk, execCopyComplete, execCbwWait, execCbwTest, execCbwReset, execMatrixKblock,
    execMatrixCommandComplete, execMaccSt, execMaccLd, execMaccZero, execMaccRd, execMqctlClaim, execMqctlRelease, execMqctlQuery,
    execMstatErr, execMstatClr, execTranslationService, execReplicaCollapse, execShootdown, execFloorBroadcast, execDeferAreaRetry,
    execStopDelivery, execWatchdogExpiry, execLinkRecoveryReport, execLinkRecovered, execScaleupPortFailure, execCulvertBeatFail,
    execHeadgateDispatch, execBlockStart, execWarpExitRecord, execLaunchEnd, execLeveeRefill, execPowerGrant, execPowerGrantTimeout,
    execThermalLimit, execBreakpointSet, execPtpLock, execIeee1588LockLoss, execCselWrite, execCctlWrite, execClostWrite,
    execCounterTick, execAttestationRequest, execFirmwareUpdate, execPreemptionRequest, execFieldTestStart, execFreezeRequest, execThaw,
    execMbxApertureWrite, execBar0RegisterWrite, execLaunch, execQflush, execViReset, execViResetComplete]

theorem exec_fits (i : Instr) (s : State) (h : SharesFit s.tenants) : Out.Fits (exec i s) := by
  by_cases hc : ∃ vi cfg, i = .viConfigure vi cfg
  · obtain ⟨vi, cfg, rfl⟩ := hc
    exact execViConfigure_fits vi cfg s h
  · by_cases hp : i = .powerOn
    · exact hp ▸ execPowerOn_fits s
    · exact (exec_keepsTenants i s (by simpa using hc) hp).fits h

theorem issueFrom_fits (late : List (Nat × Nat)) (ws : List Nat) (s : State) (h : SharesFit s.tenants) :
    Out.Fits (issueFrom s late ws).2 := by
  induction ws generalizing s with
  | nil => simpa [issueFrom] using h
  | cons w r ih =>
    unfold issueFrom
    split
    · exact ih _ (by simpa using h)
    · have hu := s.turnOf_tenants w
      cases hr : s.turnOf w with
      | wait u => exact ih u (by simpa [hr, ← hu] using h)
      | done u => simpa [hr, ← hu] using h
      | run i u =>
        have he := exec_fits i u (by simpa [hr, ← hu] using h)
        dsimp only
        cases hx : exec i u with
        | next t =>
          have ht : SharesFit t.tenants := he t hx
          dsimp only
          split
          · simpa using ht
          · exact ih _ (by simpa using ht)
        | fault f => simp
        | refused f => simp

theorem issueTurn_fits (w : Nat) (late : List (Nat × Nat)) (s : State) (h : SharesFit s.tenants) :
    Out.Fits (issueTurn w late s).2 := issueFrom_fits late _ _ (by simpa using h)

theorem turn_fits (t : Turn) (s : State) (h : SharesFit s.tenants) : Out.Fits (turn t s) := by
  cases t with
  | issue w late => exact issueTurn_fits w late s h
  | event i =>
    dsimp only [turn]
    split
    · simpa using h
    · exact exec_fits i s h
  | error u => simpa [turn] using h
  | pass c n =>
    dsimp only [turn]
    split <;> simpa using h

theorem firstDue_fits (s : State) (is : List Instr) (h : SharesFit s.tenants) : ∀ o ∈ firstDue s is, Out.Fits o := by
  induction is with
  | nil => simp [firstDue]
  | cons i r ih =>
    have he := exec_fits i s h
    unfold firstDue
    cases hx : exec i s with
    | next t =>
      dsimp only
      split
      · simpa using he t hx
      · exact ih
    | fault f => simp
    | refused f => simp

theorem firstSection_fits (ws : List Nat) (s : State) (h : SharesFit s.tenants) : Out.Fits (firstSection s ws) := by
  induction ws generalizing s with
  | nil => exact turn_fits idleTurn s h
  | cons w r ih =>
    have hi := issueTurn_fits w [] s h
    unfold firstSection
    split
    · next t ht => exact ih t (hi t (by rw [ht]))
    · next o _ ho => simpa [ho] using hi

theorem auto_fits (s : State) (h : SharesFit s.tenants) : Out.Fits (auto s) := by
  unfold auto
  split
  · next o ho => exact firstDue_fits s _ h o ho
  · exact firstSection_fits _ s h

theorem finishStep_fits (s : State) (o : Out) (h : Out.Fits o) : Out.Fits (finishStep s o) := by
  cases o with
  | next t => simpa [finishStep, State.timed_tenants] using h
  | fault r => simp [finishStep]
  | refused r => simp [finishStep]

/-- Every step keeps the shares of every core within what it has. -/
theorem step_fits (s : State) (h : SharesFit s.tenants) : Out.Fits (step s) := by
  unfold step
  split
  · exact finishStep_fits s _ (exec_fits _ s h)
  · split
    · exact finishStep_fits s _ (turn_fits _ _ (by simpa using h))
    · exact finishStep_fits s _ (auto_fits s h)

/-- A configuration that would take more of a core than is left is refused. -/
theorem execViConfigure_refused {s : State} {vi c : Nat} {cfg : ViConfig} (hv : vi < s.vis.length) (hc : c ∈ cfg.partition)
    (hs : 256 < coreShare (s.tenants.set vi (false, cfg)) c + cfg.share) : execViConfigure vi cfg s = .next s := by
  obtain he | ⟨hok, -⟩ := execViConfigure_cases vi cfg s
  · exact he
  · have hle := State.configOk_shareOn hok hc
    rw [State.shareOn_eq, coreShare_set _ _ (by simpa using hv)] at hle
    simp [coreShareOf, hc] at hle
    omega

/-- Settles O59: only a configuration accepted by Bilral and a power-on change what the interfaces have of the cores; the one fits, the
other leaves no interface configured. -/
theorem sharesStayWithin256 : Obligations.SharesStayWithin256 := by
  refine ⟨fun s t h hst c => ?_, fun c => ?_, fun s vi cfg hv ⟨c, hc, hs⟩ => ?_⟩
  · have hs : SharesFit s.tenants := fun c => (sum_shares s c).symm.trans_le (h c)
    exact (sum_shares t c).trans_le (step_fits s hs t hst c)
  · exact (sum_shares State.reset c).trans_le (fits_reset c)
  · exact execViConfigure_refused hv hc (hs.trans_eq (congrArg (· + cfg.share) (sum_shares_but s c vi cfg)))

end Sys2Proof.Machine

/-!
### Settling O1 and O2

The words of spec/10 are all ALU words: `exec` runs each as `State.alu` at an operand shape and a lane function, and what `State.alu` does
is said once, by `State.alu_acts`. What is left of a clause is that the arm of `exec` for its word has that shape and that lane function,
the model's names for values (`mulHiVal`, `shlVal`, `combine`, `addcOut` and the like) written out.
-/

namespace Sys2Proof.Machine

/-- A word that `exec` runs as an ALU word without a second destination computes its lane function. -/
theorem computes_of_exec_eq_alu {i : Instr} {k : Alu} {f : LaneFn} (hi : exec i = fun s => s.alu k f)
    (he : k.e = noReg := by rfl) : Computes i k f := by
  have hE : k.vec = true → ∀ n, k.e ≠ .s n := fun _ n => by simp [he, noReg]
  exact State.alu_acts k f (congrFun hi) hE

/-- Settles O1: each word's arm of `exec` is the ALU word that the clause names. -/
theorem integerArithmetic : Obligations.IntegerArithmetic := by
  intro g d a b c t sat
  exact ⟨
    -- `add`, `sub` (R194)
    computes_of_exec_eq_alu rfl, computes_of_exec_eq_alu rfl,
    -- `mul.lo`, `mul.hi`, `mul.wide` (R195)
    computes_of_exec_eq_alu rfl, computes_of_exec_eq_alu rfl, computes_of_exec_eq_alu rfl,
    -- `mad.lo`, `mad.hi`, `mad.wide` (R196)
    computes_of_exec_eq_alu rfl, computes_of_exec_eq_alu rfl, computes_of_exec_eq_alu rfl,
    -- `min`, `max`, `abs`, `neg` (R197)
    computes_of_exec_eq_alu rfl, computes_of_exec_eq_alu rfl, computes_of_exec_eq_alu rfl, computes_of_exec_eq_alu rfl⟩

/-- Settles O2: each word's arm of `exec` is the ALU word that the clause names, with `cmp`'s combination and
`addc`'s carry as the predicate it writes. -/
theorem bitsSelectsAndMoves : Obligations.BitsSelectsAndMoves := by
  exact ⟨fun g d a b c t => ⟨
    -- `and`, `or`, `xor`, `not` (R198)
    computes_of_exec_eq_alu rfl, computes_of_exec_eq_alu rfl, computes_of_exec_eq_alu rfl, computes_of_exec_eq_alu rfl,
    -- `shl`, `shr`, `sha`, `rot` (R199)
    computes_of_exec_eq_alu rfl, computes_of_exec_eq_alu rfl, computes_of_exec_eq_alu rfl, computes_of_exec_eq_alu rfl,
    -- `bfe`, `bfi` (R200)
    computes_of_exec_eq_alu rfl, computes_of_exec_eq_alu rfl,
    -- `popc`, `clz`, `ctz`, `brev` (R201)
    computes_of_exec_eq_alu rfl, computes_of_exec_eq_alu rfl, computes_of_exec_eq_alu rfl, computes_of_exec_eq_alu rfl,
    -- `bsel` (R202)
    computes_of_exec_eq_alu rfl⟩, fun g d a b t p neg cond comb imm k m => ⟨
    -- `sel` (R204), `cmp` (R203), `mov` (R204)
    computes_of_exec_eq_alu rfl, computes_of_exec_eq_alu rfl, computes_of_exec_eq_alu rfl,
    -- `movi` in its three modes (R205)
    computes_of_exec_eq_alu rfl, computes_of_exec_eq_alu rfl, computes_of_exec_eq_alu rfl,
    -- `adda` (R206), `addc` (R207)
    computes_of_exec_eq_alu rfl, computes_of_exec_eq_alu rfl⟩⟩

end Sys2Proof.Machine

/-!
### Settling O60

The home slice of an address is a function of its line alone: the stack and the three fields of R261 are all quotients of the address by
multiples of 64, and so of the line's number.
-/

namespace Sys2Proof.Machine

/-- Four bits of an address from bit `lo` up, in arithmetic. -/
theorem bits_four (pa lo : Nat) : bits pa (lo + 3) lo = pa / 2 ^ lo % 16 :=
  Laws.RoundTrip.bits_eq 4 rfl (by omega)

theorem sliceOf_eq (pa : Nat) : sliceOf pa =
    16 * stackOf pa + Nat.xor (pa / 2 ^ 6 % 16) (Nat.xor (pa / 2 ^ 10 % 16) (pa / 2 ^ 14 % 16)) := by
  rw [sliceOf, bits_four pa 6, bits_four pa 10, bits_four pa 14]

theorem stackOf_lt {pa : Nat} (h : pa < Config.memBytes) : stackOf pa < 16 :=
  Nat.div_lt_of_lt_mul h

/-- The slice lies among the sixteen of its address's stack. -/
theorem sliceOf_lt_stack (pa : Nat) : sliceOf pa < 16 * stackOf pa + 16 := by
  have field (lo : Nat) : pa / 2 ^ lo % 16 < 2 ^ 4 := Nat.mod_lt _ (by decide)
  rw [sliceOf_eq]
  exact Nat.add_lt_add_left (Nat.xor_lt_two_pow (field 6) (Nat.xor_lt_two_pow (field 10) (field 14))) _

/-- The first byte of an address's line has the address's quotient by every multiple of 64. -/
theorem lineStart_div (pa m : Nat) : 64 * (pa / 64) / (64 * m) = pa / (64 * m) := by
  rw [Nat.mul_div_mul_left _ _ (by decide), Nat.div_div_eq_div_mul]

/-- Every byte of a line has the line's home slice. -/
theorem sliceOf_eq_lineSlice (pa : Nat) : sliceOf pa = lineSlice (pa / 64) := by
  have stack : stackOf (64 * (pa / 64)) = stackOf pa := lineStart_div pa (3 * 2 ^ 29)
  have field6 : 64 * (pa / 64) / 2 ^ 6 = pa / 2 ^ 6 := lineStart_div pa 1
  have field10 : 64 * (pa / 64) / 2 ^ 10 = pa / 2 ^ 10 := lineStart_div pa (2 ^ 4)
  have field14 : 64 * (pa / 64) / 2 ^ 14 = pa / 2 ^ 14 := lineStart_div pa (2 ^ 8)
  rw [lineSlice, sliceOf_eq, sliceOf_eq, stack, field6, field10, field14]

/-- Settles O60: the stack bounds the slice, and the slice is the line's. -/
theorem homeSlices : Obligations.HomeSlices := by
  refine ⟨rfl, fun pa hpa => ⟨rfl, stackOf_lt hpa, rfl, sliceOf_eq pa, ?_, fun pb hline => ?_⟩⟩
  · have hstack := stackOf_lt hpa
    have hslice := sliceOf_lt_stack pa
    omega
  · rw [sliceOf_eq_lineSlice pb, hline, ← sliceOf_eq_lineSlice pa]

end Sys2Proof.Machine
